-- ==== Sys2Proof/Word.lean ====
section
/-!
DEFINITION. Word.lean: the word types and the plainest helpers over them.
-/
namespace Sys2Proof

/-- One byte of a memory or a message. -/
abbrev Byte := BitVec 8
/-- One 32-bit register or structure word (all registers are 32 bits wide, 00_scope.md). -/
abbrev Word := BitVec 32

end Sys2Proof
end

