-- ==== Sys2Proof/Syntax.lean ====
section
/-!
DEFINITION. Syntax.lean: the commands of the block, one constructor for each row of spec/opcode_table.json. The table
gives no row any bits; the operands are those the row's rule needs (who sends it, an address, a value, a payload, or
what a physical unit reports).
-/
namespace Sys2Proof

/-- The strap pins (R429). -/
structure Straps where
  boot : BitVec 2
  slot : BitVec 3
  heritage : Bool
  node : BitVec 4
  door : BitVec 4
  warm : Bool
  deriving DecidableEq, Repr

/-- A source of register accesses (R440, R460, R462): the control-matrix masters other than the host window, a door
module, or a fabric requester (port and node). -/
inductive Source where
  | cellarMaster
  | bootLoader
  | agent
  | cooper
  | door (m : Fin 16)
  | fabric (port : Fin 48) (node : BitVec 16)
  deriving DecidableEq, Repr

/-- A fabric transaction: the header of R324 and its payload. `code` is the field DFMT or STATUS and `ident` the field
BLOCKID or VTAG of R324. -/
structure Txn where
  typ : BitVec 4 := 0
  hops : BitVec 6 := 63
  partialW : Bool := false
  early : Bool := false
  rejoin : Bool := false
  tag : BitVec 18 := 0
  dnode : BitVec 16 := 0
  snode : BitVec 16 := 0
  addr : BitVec 48 := 0
  table : BitVec 12 := 0
  dvx : Bool := false
  dvin : BitVec 2 := 0
  lenM1 : BitVec 5 := 0
  code : BitVec 8 := 0
  stream : BitVec 8 := 0
  ident : Word := 0
  group : BitVec 12 := 0
  mask : BitVec 64 := 0
  lotM : Word := 0
  lotP : Word := 0
  data : List Byte := []
  bmasks : List (BitVec 64) := []
  deriving DecidableEq, Repr

/-- How the board, or the list buffer of a sorting table, is read as a unit leaves it (R183, R272): with single-bit errors that are
corrected, or with one that is not correctable. -/
inductive BoardRead where
  | clean
  | corrected (n : BitVec 16)
  | uncorrectable
  deriving DecidableEq, Repr

/-- A physical failure that the lot check of a pass detects (R385): a board-leg or store-leg difference, a vat parity
error, a board uncorrectable error, a list-leg difference, or a pair out of order. -/
inductive LotFault where
  | boardLeg
  | storeLeg
  | vatParity
  | boardUe
  | listLeg
  | order
  deriving DecidableEq, Repr

/-- What a management request asks (R476); `other` is any code the table does not admit. -/
inductive MgmtReq where
  | statusGet
  | regRead (off : Word) (count : Byte)
  | regWrite (off val : Word)
  | bookRead (seq : Word)
  | other (code : Byte)
  deriving DecidableEq, Repr

/-- What a port receives (R316, R318): a codeword on a wavelength, 544 symbols as received, or a flit as its codewords gave it. -/
inductive LinkIn where
  | flit (bytes : List Byte)
  | codeword (wavelength : Fin 8) (symbols : List (BitVec 10))
  deriving DecidableEq, Repr

/-- The outcome of a port's training: the wavelengths that trained (R314), and the credits that the link partner advertises for VC0 to
VC3 (R320). -/
structure PortUp where
  up : BitVec 8
  vc0 : BitVec 16 := 4096
  vc1 : BitVec 16 := 32768
  vc2 : BitVec 16 := 32768
  vc3 : BitVec 16 := 1024
  deriving DecidableEq, Repr

/-- The commands, in the order of spec/opcode_table.json. -/
inductive Instr where
  -- reset, power and boot
  | coldReset (straps : Straps)
  | warmReset (strapWarm : Bool)
  | railOrPllFault
  | thermTrip
  | cellarReady (failed : List (Fin 64 × Fin 32 × BitVec 15))
  | imageLoad (romParity : Bool) (copyA copyB : Option (List Byte))
  | vtallyWaitTimeout
  | bootGo (src : Source) (line : BitVec 19)
  -- the calendar and fabric time
  | slotEdge
  | ftimePulseOut
  | ftimePulseIn (stayedHigh : Bool)
  | altInUse
  | holdover
  | reacquire (src : Source)
  -- the life of a descriptor
  | dispatch (terrace : Fin 8)
  | rack (p : Fin 64)
  | riddle (p : Fin 64)
  | permute (p : Fin 64)
  | fill (p : Fin 64)
  | decant (p : Fin 64)
  | gather (p : Fin 64)
  | scatter (p : Fin 64)
  | scatterAdd (p : Fin 64)
  | pool (p : Fin 64)
  | interact (p : Fin 64)
  | sort (p : Fin 64)
  | topk (p : Fin 64)
  | egress (p : Fin 64)
  | multicast (p : Fin 64)
  | blend (p : Fin 64)
  | fence (s : Fin 256)
  | fenceComplete (s : Fin 256)
  | nop (s : Fin 256)
  | opReserved (s : Fin 256)
  | loadLineReturn (p : Fin 64)
  | fabricReadTimeout (p : Fin 64) (tag : BitVec 18)
  | stagingCopyDone (p : Fin 64)
  | sortTableGrant (terrace : Fin 8)
  | passStore (p : Fin 64) (read : BoardRead)
  | lotVerdict (p : Fin 64) (fault : Option LotFault)
  | saveFrameDone (p : Fin 64)
  | resume (p : Fin 64)
  | cardWrite (s : Fin 256)
  -- the bonded tally
  | tapRecord (s : Fin 256) (uncorrectable : Bool)
  | periodicCheckpoint
  | statement
  | finalCheckpoint (completes : Bool)
  | tallyRestore
  | tallyHoldup
  | tallyWriteAttempt (src : Source) (off : BitVec 16)
  -- vintages: the writes of CTL.VCMD
  | vcOpen (src : Source) (handle : BitVec 12) (slot : Fin 4)
  | vcFlip (src : Source) (handle : BitVec 12) (slot : Fin 4)
  | vcDiscard (src : Source) (handle : BitVec 12) (slot : Fin 4)
  | vcRetire (src : Source) (handle : BitVec 12) (slot : Fin 4)
  -- the cooper
  | marchDestroy (src : Source) (bin : Fin 64)
  | marchPreserve (src : Source) (bin : Fin 64)
  | marchComplete (mismatch : Option (Fin 32 × BitVec 15))
  | remapCopyDone
  | taste (src : Source) (p : Fin 64)
  | stressEnter
  | tasteComplete (fails : Bool)
  -- resets of one part
  | pressReset (src : Source) (hi : Bool) (value : Word)
  | pressResetStart (p : Fin 64)
  | linkReset (src : Source) (port : Fin 48)
  | linkRelease (src : Source) (port : Fin 48)
  -- register accesses
  | registerWrite (src : Source) (off : BitVec 20) (value : Word) (enables : BitVec 4)
  | loRead (src : Source) (off : BitVec 20)
  -- the Dathiesk fabric
  | flit (port : Fin 48) (rx : LinkIn)
  | wavelengthDrop (port : Fin 48) (wavelength : Fin 8)
  | retrainDone (port : Fin 48) (up : BitVec 8)
  | portLost (port : Fin 48)
  | portTrain (port : Fin 48) (peer : BitVec 16) (up : PortUp)
  | fabRead (port : Fin 48) (t : Txn)
  | fabWrite (port : Fin 48) (t : Txn)
  | atomicAdd (port : Fin 48) (t : Txn)
  | multicastWrite (port : Fin 48) (t : Txn)
  | recallTxn (port : Fin 48) (t : Txn)
  | gap (port : Fin 48) (t : Txn)
  | mgmt (port : Fin 48) (t : Txn)
  | readRsp (port : Fin 48) (t : Txn)
  | ack (port : Fin 48) (t : Txn)
  | fabReservedType (port : Fin 48) (t : Txn)
  | sync (port : Fin 48) (seqId : BitVec 16)
  | followUp (port : Fin 48) (seqId : BitVec 16) (t1 : BitVec 64)
  | delayReq (port : Fin 48) (seqId : BitVec 16)
  | delayResp (port : Fin 48) (seqId : BitVec 16) (t4 : BitVec 64)
  | ackTimeout (blockId : Word)
  | recallTableExpiry
  -- the cellar door
  | mrd (m : Fin 16) (addr : BitVec 48) (lenM1 : BitVec 5) (tag : BitVec 12)
  | mwr (m : Fin 16) (addr : BitVec 48) (lenM1 : BitVec 5) (tag : BitVec 12) (partialW ackReq : Bool)
      (data : List Byte) (masks : List (BitVec 64))
  | rrd (m : Fin 16) (addr : BitVec 48) (tag : BitVec 12)
  | rwr (m : Fin 16) (addr : BitVec 48) (tag : BitVec 12) (value : Word)
  | mrst (m : Fin 16)
  | xcpl (m : Fin 16) (tag : BitVec 12) (status : Byte) (lenM1 : BitVec 5) (data : List Byte)
  | xack (m : Fin 16) (tag : BitVec 12) (status : Byte) (lanes : BitVec 16)
  | crd (m : Fin 16) (beats headers : BitVec 16)
  | doorReservedType (m : Fin 16) (typ lenM1 : BitVec 5)
  | moduleLinkFault (m : Fin 16)
  | moduleTrained (m : Fin 16) (rate repaired : BitVec 4)
  | xtmoExpiry (m : Fin 16) (tag : BitVec 12)
  -- the management port and the cellar book
  | bookWrite
  | privateRead
  | eventResend
  | event (port : Fin 48) (t : Txn)
  | eventAck (seq : Word)
  | statusGet (tag : BitVec 16)
  | regRead (tag : BitVec 16) (off : Word) (count : Byte)
  | regWrite (tag : BitVec 16) (off value : Word)
  | bookRead (tag : BitVec 16) (seq : Word)
  | forward (tag : BitVec 16) (dnode : BitVec 16) (innerTag : BitVec 16) (inner : MgmtReq)
  | fwdTimeout (tag : BitVec 16)
  | setEndpointId (eid : Byte)
  | getEndpointId
  | getMctpVersionSupport
  | getMessageTypeSupport
  | getVendorDefinedMessageSupport (selector : Byte)
  | entdaa (addr : BitVec 7)
  | setdasa (addr : BitVec 7)
  | rstdaa
  | enec (events : Byte)
  | disec (events : Byte)
  | getpid
  | getbcr
  | getdcr
  | getstatus
  | getmwl
  | getmrl
  | setmwl (len : BitVec 16)
  | setmrl (len : BitVec 16)
  -- the test access port
  | extest
  | idcode
  | samplePreload (load : Option Nat)
  | clamp
  | highz
  | bypass
  | testLogicReset
  -- the rows added at the end of the table
  | coldResetStart
  | railsRestored
  | refclkRestored
  | tallyWait
  | badReq (tag : BitVec 16) (code : Byte)
  | l1 (m : Fin 16) (enter : Bool)
  deriving DecidableEq, Repr

end Sys2Proof
end

