-- ==== Sys2Proof/Config.lean ====
section
/-!
DEFINITION. Config.lean: what the spec leaves open. Every constant is opaque: nothing can evaluate it, so a claim
holds whatever it is. The counter that the free choices are applied to is `State.draw`.
-/
namespace Sys2Proof.Config

/-- FREE VALUE (log 2): the n-th free Boolean choice among the outcomes that R5 permits. -/
opaque freeBool : Nat → Bool
/-- FREE VALUE (log 2): the n-th free key; a list sorted by keys stands for an order that R5 leaves open. -/
opaque freeKey : Nat → Nat
/-- FREE VALUE (log 2): the n-th 16-bit number of the stochastic-rounding generators (R97). -/
opaque stochastic : Nat → BitVec 16
/-- FREE VALUE (log 2): the n-th number of the tally's entropy source (R422). -/
opaque tallyEntropy : Nat → BitVec 64

/-- FREE VALUE (log 8): the repair fuses of the 64 tasting-room banks (R50). -/
opaque trRepair : BitVec 64

/-- FREE VALUE (log 9): SHA-384 of the published standard (R433, R439). -/
opaque sha384 : List Byte → List Byte
/-- FREE VALUE (log 9): the key hash in the block's fuses (R439). -/
opaque imageKeyHash : List Byte
/-- FREE VALUE (log 9): ECDSA P-384 verification of FIPS 186-5: public key, message, signature (R432). -/
opaque p384Verify : List Byte → List Byte → List Byte → Bool

/-- FREE VALUE (log 9): the tally's deterministic P-256 signature, 64 bytes, under the key in its fuses (R424). -/
opaque tallySign : List Byte → List Byte
/-- FREE VALUE (log 9): verification of a tally signature with its own key: message, signature (R422). -/
opaque tallyVerify : List Byte → List Byte → Bool
/-- FREE VALUE (log 9): the public key of the tally's fuses, byte by byte from X (R425). -/
opaque tallyPubKey : Nat → Byte
/-- FREE VALUE (log 9): KEYID, the first 8 bytes of SHA-256 over the public key (R424), by byte. -/
opaque tallyKeyId : Nat → Byte

/-- FREE VALUE (log 10): the 48-bit provisioned ID of the I3C target (R474 names the command, not the value). -/
opaque i3cPid : BitVec 48
/-- FREE VALUE (log 10): the bus characteristics register of the I3C target. -/
opaque i3cBcr : Byte
/-- FREE VALUE (log 10): the device characteristics register of the I3C target. -/
opaque i3cDcr : Byte
/-- FREE VALUE (log 10): the 16-bit status that GETSTATUS returns, by the number of pending events. -/
opaque i3cStatus : Nat → BitVec 16
/-- FREE VALUE (log 10): the MCTP versions that Get MCTP Version Support lists (R475 gives no number). -/
opaque mctpVersions : List Byte
/-- FREE VALUE (log 10): the command set version of Get Vendor Defined Message Support (DSP0236). -/
opaque mctpVendorSet : BitVec 16

/-- FREE VALUE (log 10): the byte that GETMRL adds for the size of an in-band interrupt's payload. -/
opaque i3cIbiSize : Byte
/-- FREE VALUE (log 10): the MCTP endpoint ID to which a packet for another node's agent is addressed, by node. -/
opaque mctpPeer : Nat → Byte
/-- FREE VALUE (log 10): the packet sequence, tag owner and message tag of a packet that the agent sends by itself. -/
opaque mctpFlags : BitVec 6

/-- FREE VALUE (log 33): what the pins present to a SAMPLE of the boundary scan register (R506). -/
opaque pinSample : Nat → Nat

/-- FREE VALUE (log 34): the mean of an empty bag over a vat entry that a VAT handover left (R286). -/
opaque meanOfNone : Nat → Nat
/-- FREE VALUE (log 35): the n-th byte that a multicast pool block holds where no element was stored (R345). -/
opaque poolResidue : Nat → Byte
/-- FREE VALUE (log 36): TCOMMIT of a journal line written before any commit (R229). -/
opaque noCommitTime : BitVec 64

/-- FREE VALUE (log 37): the n-th slewing rate, of which R123 fixes the bound only. -/
opaque slewRate : Nat → Nat
/-- FREE VALUE (log 37): what CAL.OFFSET or CAL.PATH_DELAY shows of a value that its field cannot hold. -/
opaque timeBeyond : Nat → Nat

/-- FREE VALUE (log 41): what a GAP_RX event names as last performed where nothing of the key was performed (R348). -/
opaque noLastBlock : Word

/-- FREE VALUE (log 42): the bytes of an exported read that its XCPL does not carry (R367). -/
opaque shortAnswer : Nat → Byte

/-- FREE VALUE (log 98): the credits that the estate image gives a port for a channel (R320); no section of the image states them. -/
opaque portCredits : Nat → Nat → Nat

/-- FREE VALUE (log 11): the slot contents that a final checkpoint cut off before its end leaves (R421). -/
opaque cutOffSlot : Nat → List Byte

end Sys2Proof.Config
end

