-- ==== Sys2Proof/Machine/State.lean ====
section
/-!
DEFINITION. Machine/State.lean: the state of the block as plain data, and the state right after reset.
Collections indexed by a number (presses, ports, rings, handles, registers) are sparse lists of (index, value) pairs in
rising order; an index that is not listed has the idle or reset value that the operations of Machine/Ops.lean give.
-/
namespace Sys2Proof.Machine

/-- A sparse map: (index, value) pairs, indices strictly rising. -/
abbrev SMap (α : Type) := List (Nat × α)

/-! ### Events and the cellar book -/

/-- An event before it is recorded (R481, R483): CODE, KIND, UNIT, ARG0 to ARG3 and its fabric time. -/
structure Event where
  code : Nat
  kind : Nat := 0
  unit : Nat := 0
  args : List Nat := []
  fault : Bool := false
  time : BitVec 64 := 0
  loss : Bool := false
  deriving DecidableEq, Repr

/-- A record of the cellar book (R481): an event with its SEQ. -/
structure BookRec where
  seq : Word
  ev : Event
  deriving DecidableEq, Repr

/-- An entry of the agent's send queue (R484): the record, its ORIGIN node, whether it has been delivered, and whether its
next delivery sends it again. -/
structure SendEv where
  origin : BitVec 16
  item : BookRec
  delivered : Bool := false
  again : Bool := false
  deriving DecidableEq, Repr

/-- The cellar book and its queues (R480, R482, R484). -/
structure Book where
  queue : List Event := []
  lossNext : Bool := false
  recs : SMap BookRec := []
  head : Word := 0
  send : List SendEv := []
  deriving DecidableEq, Repr

/-! ### Memories -/

/-- The memories: cellar, spare bins and tasting room as bytes by physical key (`Ops.physOf`), the SECDED state of
words (physical key div 4) and the lot sideband by physical 2 KiB block (R24, R48, R374, R376). -/
structure Mem where
  cells : List Host.Cell := []
  ueWords : List Nat := []
  ceWords : List Nat := []
  sideband : SMap (Word × Word) := []
  sbUe : List Nat := []
  deriving DecidableEq, Repr

/-! ### Registers -/

/-- The register window: values in effect, staged values (R7), the _HI shadows by source (R462) and a held
CAL.EPOCH_LO by source (R463). Where the commands that follow fall on one control clock, `before` holds the values in effect when it
began, against which R7 and R142 judge a write that clears what the same clock sets (log 87). -/
structure Regs where
  vals : SMap Word := []
  before : Option (SMap Word) := none
  staged : SMap Word := []
  stagedMask : SMap Word := []
  shadows : List ((Nat × Nat) × Word) := []
  heldLo : SMap Word := []
  deriving DecidableEq, Repr

/-! ### Fabric time and the calendar -/

/-- A time exchange under way on a source port (R122): its sequenceId and the timestamps known so far. -/
structure Exch where
  seqId : BitVec 16 := 0
  t1 : Option (BitVec 64) := none
  t2 : Option (BitVec 64) := none
  t3 : Option (BitVec 64) := none
  t4 : Option (BitVec 64) := none
  deriving DecidableEq, Repr

/-- What the next control clock of the cellar master's slot does (R134): nothing, a clock of the four at the edge, a clock of the
two of a ring's lookup, or one of the four of an entry's examination. -/
inductive MStage where
  | idle
  | wait
  | lookup
  | first
  | line
  | second
  | latch
  deriving DecidableEq, Repr

/-- The cellar master's slot (R133 to R136): the slot and revolution whose visits are made, the visits not yet begun, the clocks
left of a wait or a lookup, the ring of the visit under way with the entries it may still examine and whether its head has
moved, what the entry's first and second generation reads and its line read gave and whether the line holds an uncorrectable
error, and the slot and revolution of an abandoned visit whose last entry is still being completed (R135). -/
structure Master where
  stage : MStage := .idle
  left : Nat := 0
  slot : Nat := 0
  rev : Nat := 0
  visits : List Word := []
  ring : Nat := 0
  room : Nat := 0
  moved : Bool := false
  gen : Nat := 0
  again : Nat := 0
  line : List Word := []
  bad : Bool := false
  cut : Option (Nat × Nat) := none
  deriving DecidableEq, Repr

/-- Fabric time (R119), its fraction in 1/(21 × 10⁹) ns, and the state of the calendar and of the time exchange. `slew` is
what is still to be added to fabric time by slewing, in the same unit; `edges` counts applied slot edges (R386), and `clocks` the
control clocks since the end of boot. `stepDue` is an offset in ps by which the next control clock steps (R123), `srcAt` and `linkAt`
are the clocks from which R125 counts 256 µs and 1 ms, and `pulseOutEnd` is the clock on which FTIME_PULSE_OUT falls. -/
structure Time where
  ftime : BitVec 64 := 0
  frac : Nat := 0
  counting : Bool := false
  runSeen : Bool := false
  streak : Nat := 0
  slew : Int := 0
  srcStreak : Nat := 0
  exch : SMap Exch := []
  syncSeq : BitVec 16 := 0
  lastPulse : Option Nat := none
  pulsed : Bool := false
  pulseOutEnd : Option Nat := none
  nextEdge : Nat := 0
  edges : Nat := 0
  atEdge : Bool := false
  clocks : Nat := 0
  stepDue : Option Int := none
  srcAt : Nat := 0
  linkAt : Nat := 0
  master : Master := {}
  deriving DecidableEq, Repr

/-! ### Rings, descriptors and cards -/

/-- Descriptor-ring state (R151, R152). -/
structure DRing where
  stream : Nat := 0
  log2n : Nat := 0
  base : Nat := 0
  expgen : Nat := 0
  head : Nat := 0
  deriving DecidableEq, Repr

/-- Completion-ring state (R151, R152). -/
structure CRing where
  door : Nat := 0
  evt : Nat := 0
  log2n : Nat := 0
  base : Nat := 0
  clap : Nat := 0
  tail : Nat := 0
  deriving DecidableEq, Repr

/-- How a latched record's table handle was resolved at pickup (R303). -/
inductive VRes where
  | plain
  | pinned (base : Nat) (tag : Word)
  | missing
  | remote
  deriving DecidableEq, Repr

/-- A tensor record as latched at pickup (R59): its 16 words and the resolution of its handle. -/
structure LRec where
  words : List Word := []
  res : VRes := .plain
  deriving DecidableEq, Repr

/-- One stage of a chain; a descriptor other than a BLEND is its own single stage (R277, R289). `ext` holds the
effective extents judged at pickup, and `recv` the receivers of a MULTICAST with their nodes (R345). -/
structure Stage where
  op : Nat := 0
  words : List Word := []
  src : LRec := {}
  dst : LRec := {}
  aux : LRec := {}
  idx : LRec := {}
  offs : LRec := {}
  kdst : LRec := {}
  ext : List Nat := []
  recv : List (Nat × Nat) := []
  deriving DecidableEq, Repr

/-- A pin on a vintage slot (R303). -/
structure Pin where
  handle : Nat
  slot : Nat
  writer : Bool
  deriving DecidableEq, Repr

/-- Where a descriptor in flight stands: latched for the cellar master (R508), queued for a press, running on a press,
saved in a press's frame, or finished and waiting for its card. -/
inductive FPhase where
  | latched
  | queued
  | running (p : Nat)
  | saved (p : Nat)
  | finished
  deriving DecidableEq, Repr

/-- Counts and outcomes that a descriptor's card reports (R166, R169), and those its tap record carries (R414). `pruned` counts by
stage (R293), and `mcast` lists the stages that have sent a multicast block (R345). -/
structure Counts where
  done : Nat := 0
  clamped : Nat := 0
  pruned : SMap Nat := []
  mcast : List Nat := []
  lotBlocks : Nat := 0
  lotChecked : Bool := false
  lotFail : Bool := false
  shape : Bool := false
  aborted : Bool := false
  recalled : Bool := false
  unreachable : Bool := false
  failCause : Option Nat := none
  failPasses : Nat := 0
  refFirst : Option Nat := none
  refCount : Nat := 0
  stageDone : List Nat := []
  deriving DecidableEq, Repr

/-- A descriptor in flight (R157, R161, R176). `early` is the status that ended it without a press (R169 steps 1 to 3,
R508), `resume` and `tcommit` what its journal line gave at pickup (R230), and `finish` its place in the order in which
descriptors have finished (R162). -/
structure Flight where
  id : Nat
  stream : Nat := 0
  ring : Nat := 0
  entry : Nat := 0
  words : List Word := []
  stages : List Stage := []
  pick : BitVec 64 := 0
  late : Bool := false
  early : Option Nat := none
  phase : FPhase := .latched
  queuedEdge : Nat := 0
  pins : List Pin := []
  resume : Option Nat := none
  tcommit : BitVec 64 := 0
  finish : Nat := 0
  press : Nat := 255
  cnt : Counts := {}
  tdone : BitVec 64 := 0
  tapped : Bool := false
  requeue : Nat := 0
  deriving DecidableEq, Repr

/-- A fabric write, atomic add or multicast block of this node: held for its check, sent, or awaiting acknowledgement
(R324, R339, R340, R347). `key` names it on this node, and `ident` is its BLOCKID once it has been sent. `stage` is the stage of its
descriptor that made it. `toStore` lists the units that have still to store into it and `toPass` those whose check is awaited;
until all have stored, `bytes` holds what it carries and `sum` the sums of its terms (R342, R382). `dead` says that a check of it
has failed (R384, R352). `waitMask` names the receivers awaited, and `late` marks a block whose ACK timeout has passed. -/
structure OutTxn where
  key : Nat
  ident : Word := 0
  stream : Nat
  fid : Nat
  txn : Txn
  toStore : List Nat := []
  toPass : List Nat := []
  bytes : SMap Byte := []
  sum : Word × Word := (0, 0)
  dead : Bool := false
  held : Bool := false
  queued : Bool := false
  sent : Bool := false
  acked : Bool := false
  poolBlock : Bool := false
  multicast : Bool := false
  waitMask : BitVec 64 := 0
  receivers : List (Nat × Nat) := []
  firstAckEdge : Option Nat := none
  late : Bool := false
  elems : Nat := 0
  stage : Nat := 0
  deriving DecidableEq, Repr

/-! ### Presses and sorting tables -/

/-- A riddling board (R180, R182, R183): entries by 32 r + c, the row-valid mask and scale tags. -/
structure Board where
  ent : SMap Word := []
  valid : BitVec 32 := 0
  tags : SMap Byte := []
  deriving DecidableEq, Repr

/-- An outstanding or landed fabric read of a press (R178, R199). It is made for an operand of a stage, and for a row of one of its
units (R238); `table` is the TABLE that its transaction carries (R308), and `copy` says that it belongs to a staging copy
(R214). Its tag is in use until it has landed or failed for good. -/
structure FRead where
  tag : Nat
  node : Nat
  addr : Nat
  lines : Nat
  stageOff : Nat
  landed : Bool := false
  fails : Nat := 0
  dead : Bool := false
  vtag : Word := 0
  role : Nat := 0
  stage : Nat := 0
  unit : Nat := 0
  row : Nat := 0
  table : Nat := 0
  copy : Bool := false
  deriving DecidableEq, Repr

/-- A pass that has been stored and waits for its lot verdict (R383): what it wrote in each physical 2 KiB block (key,
whole block covered, M, P), how many elements, how many 2 KiB blocks in all, and what it sent. `vat` marks a bag group that a VAT
handover passes on (R287). -/
structure PassRec where
  fid : Nat
  stage : Nat
  unit : Nat
  elems : Nat
  blocks : List (Nat × Bool × Word × Word) := []
  refused : Bool := false
  unapplied : Bool := false
  table : Option Nat := none
  blend : Bool := false
  vat : Bool := false
  keys : List Nat := []
  nblocks : Nat := 0
  deriving DecidableEq, Repr

/-- What a press keeps of the descriptor it runs (R187, R196, R200): the stage
and work unit in load, the next unit of each stage and the units passed over for it (R290), cached index values with their
vintage tags and shard-map entries, fabric reads and how far ahead they have been issued (R178), staged
copies, the outcome of units, handover bytes held outside the cellar and the unit whose handover stands in a board (R285), the
journal's start, latest commit and source tag (R229) and the super-tile that stopped it (R231), the blocks of pairs fed to the
sorting table and how many of them have been counted, the pool blocks charged for handovers and for the unit in load (R42), the
bytes that its own stores have replaced where R215 or R241 leaves a load open, the positions that colliding stores have
written (R222, R243), the index runs sorted for COALESCE (R269) with the rows still to be fetched in their order, the words of its save
frame as written (R196), whether a handover in the staging area or data of several stages bar its preemption (R292), and whether a
unit is in load. -/
structure Run where
  fid : Nat
  stage : Nat := 0
  unit : Nat := 0
  startEdge : Nat := 0
  idx : SMap Nat := []
  idxTag : SMap Word := []
  counted : List Nat := []
  shard : SMap (Option Nat) := []
  reads : List FRead := []
  ahead : List (Nat × Nat) := []
  staged : List (Nat × Nat × Nat) := []
  stagedWait : Bool := false
  next : List Nat := []
  passedBy : List (Nat × Nat) := []
  stored : Nat := 0
  retry : Nat := 0
  cause : Option Nat := none
  boardUeOnce : Bool := false
  vtags : SMap Word := []
  passed : List (Nat × Nat) := []
  failed : List (Nat × Nat) := []
  withheld : List (Nat × Nat) := []
  tile : Nat := 0
  tileFrom : Nat := 0
  stopped : Bool := false
  stopTile : Nat := 0
  tcommit : BitVec 64 := 0
  svtag : Word := 0
  accM : Word := 0
  accP : Word := 0
  tileBytes : List Host.Cell := []
  fallen : List Nat := []
  jstart : Nat := 0
  jopen : Bool := false
  fed : Nat := 0
  fedMost : Nat := 0
  handBlocks : List Nat := []
  handed : Option (Nat × Nat) := none
  got : Nat := 0
  old : List Host.Cell := []
  seen : List (Nat × Nat) := []
  coal : List (Nat × Nat) := []
  order : List (Nat × Nat × Nat) := []
  frame : List Nat := []
  barred : Bool := false
  loading : Bool := false
  deriving DecidableEq, Repr

/-- The states of a press (R206), in the order of their codes. -/
inductive PState where
  | idle
  | setup
  | run
  | save
  | restore
  | finish
  | stress
  | corked
  | reset
  deriving DecidableEq, Repr

/-- A press (R174, R205). `waits` holds stored passes whose lot verdict is due (R383), `retired` the read tags whose
responses are still to be discarded (R192), and `fails` holds the slot edges, counted from cold power-up, at which charged failures fell. `left` counts the control clocks
that a press reset still takes (R451). -/
structure Press where
  state : PState := .idle
  run : Option Run := none
  saved : Option Run := none
  waiting : Option Nat := none
  waits : List PassRec := []
  retired : List Nat := []
  front : Board := {}
  back : Board := {}
  vat : SMap Word := []
  fails : List Nat := []
  total : Nat := 0
  left : Nat := 0
  deriving DecidableEq, Repr

/-- A sorting table (R258, R260, R273): the press that holds it, waiting presses, the press last granted, the sorted
list as (sort code, value) pairs, and its failures. -/
structure SortTable where
  owner : Option Nat := none
  waiting : List Nat := []
  last : Nat := 7
  pairs : List (Word × Word) := []
  segment : Nat := 0
  fenced : Bool := false
  fails : List Nat := []
  deriving DecidableEq, Repr

/-! ### Vintages -/

/-- The states of a vintage slot, in the order of their codes (R299). -/
inductive VState where
  | empty
  | filling
  | current
  | draining
  deriving DecidableEq, Repr

/-- A vintage slot (R299): `base` is the local byte address. -/
structure VSlot where
  st : VState := .empty
  base : Nat := 0
  size : Nat := 0
  tag : Word := 0
  deriving DecidableEq, Repr

/-- The state of a table handle (R299, R300). -/
structure Handle where
  flipseq : BitVec 16 := 0
  cv : Bool := false
  cur : Nat := 0
  slots : List VSlot := [{}, {}, {}, {}]
  lastTag : Word := 0
  deriving DecidableEq, Repr

/-- The vintage unit: handles, whether they have been built for this load (R310), and the command queue of 16 (R301). -/
structure Vintages where
  handles : SMap Handle := []
  built : Bool := false
  queue : List Word := []
  deriving DecidableEq, Repr

/-! ### The fabric -/

/-- A transaction queued for a port or framed and not yet acknowledged by the link partner (R319, R332): the last flit
that carries it, the ingress port charged for it with the pool block that holds its data (R17, R41), the pin it holds (R308), the own
transaction it carries, and its place among all that this node has queued (R332). -/
structure TxEntry where
  txn : Txn
  lastFlit : Nat := 0
  ingress : Option (Nat × Nat) := none
  order : Nat := 0
  pin : Option Pin := none
  own : Option Nat := none
  deriving DecidableEq, Repr

/-- An optical port (R314 to R320, R357). `owed` counts the credits to return by channel and `kept` those withheld
(R42). `syncAt` is the fabric time at which the last Sync left (R122). Received: `rxBytes` of a transaction that is not complete, the
transactions `rxIn` that are and wait to be taken, the bits that do not make a flit yet, and codeword payloads that wait for their
wavelength's turn, `rxLane` counting the turns. Sent: the transaction bytes `txBuf` that are in no flit yet, the unacknowledged `flits`
behind the `acked` ones, the bits that do not fill a codeword yet, and the turns. `fecUes` holds the uncorrectable codewords of the last
ms, each as its wavelength and control clock (R317). -/
structure Port where
  trained : Bool := false
  everTrained : Bool := false
  lost : Bool := false
  retrain : Bool := false
  held : Bool := false
  up : BitVec 8 := 0
  dropped : BitVec 8 := 0
  peer : BitVec 16 := 0
  rxSeq : BitVec 12 := 0
  nakDue : Bool := false
  rxBytes : List Byte := []
  rxIn : List Txn := []
  rxBits : Nat := 0
  rxHave : Nat := 0
  rxLane : Nat := 0
  rxCodes : SMap (List Nat) := []
  fecUes : List (Nat × Nat) := []
  owed : List Nat := [0, 0, 0, 0]
  kept : List Nat := [0, 0, 0, 0]
  credits : List Nat := [0, 0, 0, 0]
  lastVc : Nat := 2
  syncAt : BitVec 64 := 0
  txBuf : List Byte := []
  flits : List (List Byte) := []
  acked : Nat := 0
  txBits : Nat := 0
  txHave : Nat := 0
  txLane : Nat := 0
  replays : Nat := 0
  wait : List TxEntry := []
  unacked : List TxEntry := []
  deriving DecidableEq, Repr

/-- An entry of the gap table (R348). -/
structure GapEntry where
  snode : Nat
  stream : Nat
  group : Nat
  ident : Word
  deriving DecidableEq, Repr

/-- A fabric transaction that arrived on a port and is held: until READY (R52), or until a pool block is free (R42). -/
structure HeldTxn where
  port : Nat
  txn : Txn
  deriving DecidableEq, Repr

/-- The fabric side: ports, route memory (R331), the BLOCKID sequence (R324), own transactions outstanding, recall and
gap tables, the last BLOCKID performed of each multicast key, pass-through transactions that wait for the pool, and the pool blocks that
hold data which arrived on a port (R17, R41). -/
structure Fabric where
  ports : SMap Port := []
  route : SMap Nat := []
  nextIdent : Word := 0
  nextKey : Nat := 0
  outs : List OutTxn := []
  recalls : List (Nat × Word) := []
  gaps : List GapEntry := []
  lastMc : List GapEntry := []
  performed : List (Nat × Word × Nat) := []
  poolWait : List HeldTxn := []
  poolUsed : List Nat := []
  nextOrder : Nat := 0
  deriving DecidableEq, Repr

/-! ### The cellar door -/

/-- A door memory access that is held until READY or LOADED (R52). -/
structure HeldAcc where
  m : Nat
  isWrite : Bool
  addr : BitVec 48
  lenM1 : BitVec 5
  tag : BitVec 12
  ackReq : Bool := false
  data : List Byte := []
  masks : List (BitVec 64) := []
  partialW : Bool := false
  deriving DecidableEq, Repr

/-- An exported request in flight on a module (R367, R368): its door tag, the fabric transaction it serves, the
ingress port, the pool block of its data (R41), and, for one that waits, whether its credits are still to return. -/
structure XReq where
  tag : BitVec 12
  port : Nat
  txn : Txn
  block : Option Nat := none
  owes : Bool := false
  deriving DecidableEq, Repr

/-- A register message of a door module (R366): RRD, or RWR with its value; the window offset, none for an address outside the window.
`quiet` marks one whose response is dropped (R370). -/
structure RegMsg where
  m : Fin 16
  off : Option Nat
  tag : BitVec 12
  value : Option Word := none
  quiet : Bool := false
  deriving DecidableEq, Repr

/-- An event message queued on a module (R371). -/
structure Evt where
  code : Nat
  body : List Byte
  deriving DecidableEq, Repr

/-- A message or bus answer that the block has sent. -/
inductive Out where
  | mcpl (m : Nat) (tag : BitVec 12) (status : Nat) (addr : Nat) (data : List Byte)
  | mack (m : Nat) (tag : BitVec 12) (status : Nat)
  | rcpl (m : Nat) (tag : BitVec 12) (status : Nat) (data : Word)
  | evt (m : Nat) (e : Evt)
  | door (m : Nat) (typ : Nat) (tag : BitVec 12) (txn : Txn)
  | crd (m : Nat) (beats headers : Nat)
  | frame (port : Nat) (t : Txn)
  | flit (port : Nat) (bytes : List Byte)
  | codeword (port wavelength : Nat) (symbols : List Nat)
  | advert (port : Nat) (credits : List Nat)
  | mgmtEvent (origin : BitVec 16) (item : BookRec)
  | mgmtRsp (code : Nat) (tag : BitVec 16) (status : Nat) (words : List Word)
  | mgmtFwdRsp (tag : BitVec 16) (status : Nat) (inner : List Byte)
  | mctp (code : Nat) (body : List Byte)
  | i3c (code : Nat) (body : List Byte)
  | jtagId (id : Word)
  | jtagPins (bits : Nat)
  deriving DecidableEq, Repr

/-- A cellar-door module (R359, R370, R373). `outq` holds the messages that wait for the integrator's credits (R364), `regWait` the
register messages in its receive buffer that the queue of R366 has no room for. -/
structure Module where
  trained : Bool := false
  rate : BitVec 4 := 0
  repaired : BitVec 4 := 0
  l1 : Bool := false
  resets : BitVec 16 := 0
  part : Option HeldAcc := none
  evq : List Evt := []
  regWait : List RegMsg := []
  xreqs : List XReq := []
  nextTag : BitVec 12 := 0
  hdrCredits : Nat := 0
  beatCredits : Nat := 0
  outq : List Out := []
  deriving DecidableEq, Repr

/-- The cellar door: modules, accesses held before READY or LOADED in arrival order, exported transactions that wait for their flow to
leave its old module (R367), and the register messages: the queue of 64, the one that holds the control matrix, and the module whose
message entered the queue last (R366). -/
structure Door where
  mods : SMap Module := []
  heldAcc : List HeldAcc := []
  heldTxn : List HeldTxn := []
  xwait : List XReq := []
  regq : List RegMsg := []
  matrix : Option RegMsg := none
  regTurn : Nat := 15
  deriving DecidableEq, Repr

/-! ### Cooper, management, tally, boot -/

/-- The cooper and the remap copy engine (R392, R394 to R402, R407, R409). -/
structure Coop where
  op : Nat := 0
  target : Nat := 0
  busy : Bool := false
  pending : Option Nat := none
  tasting : Option Nat := none
  returning : Option Nat := none
  nextIsTaste : Bool := true
  rotPress : Nat := 0
  rotBin : Nat := 0
  remapQ : List Nat := []
  remap : Option (Nat × Nat) := none
  remapDone : List (Nat × Nat) := []
  refsFormed : Bool := false
  refusedSeen : Bool := false
  buffer : List Byte := []
  binUe : SMap Nat := []
  binCe : SMap Nat := []
  starved : SMap Nat := []
  deriving DecidableEq, Repr

/-- A FORWARD that awaits the response of another node's agent (R479): its TAG, and the node, TAG and CODE of the inner
message. -/
structure Fwd where
  tag : BitVec 16
  dnode : BitVec 16
  innerTag : BitVec 16
  code : Nat
  deriving DecidableEq, Repr

/-- The management agent's bus state (R474, R475, R477). -/
structure Mgmt where
  da : Option (BitVec 7) := none
  ibi : Bool := true
  eid : Byte := 0
  mwl : BitVec 16 := 69
  mrl : BitVec 16 := 69
  forwards : List Fwd := []
  deriving DecidableEq, Repr

/-- A tap record in the tally's input FIFO (R414, R415): its billing domain, TDONE, whether it holds an uncorrectable error, and what it
adds to CALLS, CANDIDATES and BYTES, where it counts at all (R417). -/
structure TapRec where
  domain : Nat
  tdone : BitVec 64
  uncorrectable : Bool
  bills : Option (Nat × Nat × Nat)
  deriving DecidableEq, Repr

/-- A tally checkpoint slot or statement buffer is a list of bytes; these are the sealed counters (R416, R422, R424). -/
structure Tally where
  inService : Bool := false
  tapOpen : Bool := false
  holdup : Bool := false
  lossSeen : Bool := false
  newLineage : Bool := false
  lineage : BitVec 64 := 0
  stmtSeq : Nat := 0
  ckptSeq : Nat := 0
  ticks : Nat := 0
  lastTdone : BitVec 64 := 0
  writeAttempts : Nat := 0
  tapUe : Nat := 0
  ckptLoss : Nat := 0
  flashReject : Nat := 0
  records : Nat := 0
  fifo : List TapRec := []
  calls : SMap Nat := []
  candidates : SMap Nat := []
  bytes : SMap Nat := []
  bufA : List Byte := []
  bufB : List Byte := []
  cur : Bool := false
  nextSlot : Nat := 0
  flash : SMap (List Byte) := []
  deriving DecidableEq, Repr

/-- Which reset or boot phase the block is in (R443, R447, R493). -/
inductive Power where
  | coldHeld
  | faultHeld
  | march
  | up
  deriving DecidableEq, Repr

/-- A window of the tasting-room map (R154, R436). -/
structure TrWin where
  first : Nat
  len : Nat
  nmask : BitVec 16
  nval : BitVec 16
  doorR : Bool
  doorW : Bool
  fabR : Bool
  fabW : Bool
  deriving DecidableEq, Repr

/-- The recovery policy of the image (R437). -/
structure Policy where
  discard : Bool := false
  jbase : Nat := 0
  jcount : Nat := 0
  rring : Nat := 0
  deriving DecidableEq, Repr

/-- Boot state: phase, kind of the last reset, resident image in working SRAM (R434, R448) with the offset of a word of it that holds an
uncorrectable error and the words that hold a single-bit error (R374, R375), and what it set. -/
structure Boot where
  power : Power := .march
  porstLow : Bool := false
  warm : Bool := false
  resident : Option (List Byte) := none
  residentFrom : Nat := 0
  wsUe : Option Nat := none
  wsCe : List Nat := []
  trmap : List TrWin := []
  mapped : Bool := false
  policy : Policy := {}
  deriving DecidableEq, Repr

/-- The JTAG instruction selected (R506). -/
inductive JInstr where
  | extest
  | idcode
  | sample
  | clamp
  | highz
  | bypass
  deriving DecidableEq, Repr

/-- The test access port (R506, R507). -/
structure Jtag where
  ir : JInstr := .idcode
  inReset : Bool := true
  bsr : Nat := 0
  deriving DecidableEq, Repr

/-- The whole machine. `pending` is the command queue, `draw` the counter that free values are applied to, `outside`
records that a reserved register bit was changed (R8), and `outbox` is everything sent so far, newest first. -/
structure State where
  pending : List Instr := []
  draw : Nat := 0
  outside : Bool := false
  outbox : List Out := []
  mem : Mem := {}
  regs : Regs := {}
  book : Book := {}
  time : Time := {}
  drings : SMap DRing := []
  crings : SMap CRing := []
  flights : List Flight := []
  nextId : Nat := 0
  presses : SMap Press := []
  tables : SMap SortTable := []
  vint : Vintages := {}
  fab : Fabric := {}
  door : Door := {}
  coop : Coop := {}
  mgmt : Mgmt := {}
  tally : Tally := {}
  boot : Boot := {}
  jtag : Jtag := {}
  thermTrip : Bool := false
  deriving DecidableEq, Repr

/-- No meaning of this model ends in a fault: R150 gives every bit pattern an effect. The one constructor is raised by
nothing; it stands so that the type is inhabited. Safe. -/
inductive Fault where
  | none
  deriving DecidableEq, Repr

/-- The refusals. -/
inductive Refusal where
  /-- Raised by an arm of exec whose command has no meaning yet. Safe: the machine stops where the block goes on. -/
  | notModelled (mnemonic : String)
  deriving DecidableEq, Repr

/-- The machine right after reset: just after the rising edge of PORST_N with every strap low (log 5), the cold
power-up march running (R51, R447), every register at its reset value, every memory word zero, the tally out of
service. -/
def State.reset : State where
  regs := { vals := [(0x0010, 0#32), (0x0020, 0#32), (0x1008, 0x003F0000#32), (0x2000, 0x4#32), (0x8000, 0#32)] }

end Sys2Proof.Machine
end

