-- ==== Sys2Proof/Machine/Ops.lean ====
section
/-!
DEFINITION. Machine/Ops.lean: the shared operations over sparse maps, bytes, memory, plain register storage, free
values, events and the outbox.
-/
namespace Sys2Proof.Machine

/-! ### Sparse maps -/

/-- The value at index `k`, or `d` where the map lists none. -/
def smGet {α : Type} (m : SMap α) (k : Nat) (d : α) : α :=
  match m with
  | [] => d
  | (k', v) :: r => if k = k' then v else smGet r k d

/-- The map with `v` at index `k`; the indices stay in rising order. -/
def smPut {α : Type} (m : SMap α) (k : Nat) (v : α) : SMap α :=
  match m with
  | [] => [(k, v)]
  | (k', v') :: r =>
    if k < k' then (k, v) :: (k', v') :: r
    else if k = k' then (k, v) :: r
    else (k', v') :: smPut r k v

/-- The map without index `k`. -/
def smDel {α : Type} (m : SMap α) (k : Nat) : SMap α :=
  m.filter (fun e => e.1 != k)

/-- Whether the map lists index `k`. -/
def smHas {α : Type} (m : SMap α) (k : Nat) : Bool :=
  m.any (fun e => e.1 == k)

/-- Element `i` of a list, or `d` past its end. -/
def nth {α : Type} (l : List α) (i : Nat) (d : α) : α :=
  l.getD i d

/-! ### Numbers and bytes -/

/-- The field of `w` whose lowest bit is `lo` and whose width is `width` (R6: bit 0 is the least significant). -/
def fld (w : Word) (lo width : Nat) : Nat :=
  w.toNat / 2 ^ lo % 2 ^ width

/-- Bit `i` of `w`. -/
def bitAt (w : Word) (i : Nat) : Bool :=
  w.getLsbD i

/-- `w` with the field at `lo` of `width` bits replaced by `v` modulo its width. -/
def setFld (w : Word) (lo width v : Nat) : Word :=
  let mask : Word := BitVec.ofNat 32 ((2 ^ width - 1) * 2 ^ lo)
  (w &&& ~~~mask) ||| (BitVec.ofNat 32 ((v % 2 ^ width) * 2 ^ lo))

/-- `w` with bit `i` set to `b`. -/
def setBit (w : Word) (i : Nat) (b : Bool) : Word :=
  setFld w i 1 (if b then 1 else 0)

/-- The little-endian number of a byte list (R6). -/
def leNat : List Byte → Nat
  | [] => 0
  | b :: r => b.toNat + 256 * leNat r

/-- The `n` little-endian bytes of a number (R6). -/
def leBytes : Nat → Nat → List Byte
  | 0, _ => []
  | n + 1, v => BitVec.ofNat 8 v :: leBytes n (v / 256)

/-- The `n` bytes of a number, most significant first (IEEE 1588 order, R354). -/
def beBytes (n v : Nat) : List Byte :=
  (leBytes n v).reverse

/-- The 32-bit word that starts at byte `o` of a byte list. -/
def wordAt (bs : List Byte) (o : Nat) : Word :=
  BitVec.ofNat 32 (leNat ((bs.drop o).take 4))

/-- The words of a byte list, four bytes each. -/
def wordsOf (n : Nat) (bs : List Byte) : List Word :=
  (List.range n).map (fun i => wordAt bs (4 * i))

/-- The bytes of a list of words. -/
def bytesOf (ws : List Word) : List Byte :=
  ws.flatMap (fun w => leBytes 4 w.toNat)

/-- Rounding division upward. -/
def ceilDiv (a b : Nat) : Nat :=
  (a + b - 1) / b

/-- `a - b` of two naturals as an exact integer (R150: sums are exact, without wrap). -/
def isub (a b : Nat) : Int :=
  (a : Int) - (b : Int)

/-- One bit step of CRC-32C (Castagnoli, reflected polynomial 0x82F63B78). -/
def crcBit (c : Word) : Word :=
  if c.getLsbD 0 then (c >>> 1) ^^^ 0x82F63B78#32 else c >>> 1

/-- CRC-32C over a byte list (R229, R318, R424, R433). -/
def crc32c (bs : List Byte) : Word :=
  let step := fun (c : Word) (b : Byte) =>
    let c := c ^^^ b.setWidth 32
    crcBit (crcBit (crcBit (crcBit (crcBit (crcBit (crcBit (crcBit c)))))))
  ~~~(bs.foldl step 0xFFFFFFFF#32)

/-! ### Plain register storage

The window offset of a register is its number. `Flags.lean` gives reads and writes their access codes; these are the
block's own reads and writes of a register it holds. -/

/-- The value after reset, before the image, of the register at a window offset (R466 and the field maps). -/
def resetVal (off : Nat) : Word :=
  if off = 0x0000 then 0x00020004#32
  else if off = 0x0090 then 0x00330400#32
  else if off = 0x1008 then 0x003F0020#32
  else if off = 0x2004 then 0x00000200#32
  else if off = 0x2008 then 0x00000010#32
  else if off = 0x2014 then Config.trRepair.setWidth 32
  else if off = 0x2018 then (Config.trRepair >>> 32).setWidth 32
  else if 0x2300 ≤ off ∧ off < 0x23C0 then 0x003FFFFF#32
  else if 0x2800 ≤ off ∧ off < 0x2C00 then 0x003FFFFF#32
  else if off = 0x8010 then 0x00140004#32
  else if off = 0xC008 then 0x00000014#32
  else if off = 0xC00C then 0x02000040#32
  else if off = 0xD004 then 0x00031000#32
  else if off = 0xD008 then 0x04000004#32
  else if off = 0xE008 then 0x00141465#32
  else 0#32

/-- The value in effect of a held register. -/
def rget (s : State) (off : Nat) : Word :=
  smGet s.regs.vals off (resetVal off)

/-- The state with a held register set by the block itself. -/
def rset (s : State) (off : Nat) (v : Word) : State :=
  { s with regs := { s.regs with vals := smPut s.regs.vals off v } }

/-- A field of a held register. -/
def rfld (s : State) (off lo width : Nat) : Nat :=
  fld (rget s off) lo width

/-- A bit of a held register. -/
def rbit (s : State) (off i : Nat) : Bool :=
  bitAt (rget s off) i

/-- The state with a field of a held register set by the block itself. -/
def rsetFld (s : State) (off lo width v : Nat) : State :=
  rset s off (setFld (rget s off) lo width v)

/-- The state with a bit of a held register set by the block itself. -/
def rsetBit (s : State) (off i : Nat) (b : Bool) : State :=
  rset s off (setBit (rget s off) i b)

/-- A counter field raised by `n`, saturating at its width (R205, R356, R372, R405). -/
def bumpFld (s : State) (off lo width n : Nat) : State :=
  rsetFld s off lo width (min (2 ^ width - 1) (rfld s off lo width + n))

/-- A whole 32-bit counter raised by `n`, saturating at 0xFFFF_FFFF. -/
def bump (s : State) (off n : Nat) : State :=
  rset s off (BitVec.ofNat 32 (min 0xFFFFFFFF ((rget s off).toNat + n)))

/-! ### Fields used by many families -/

/-- This node's ID (R321). -/
def nodeId (s : State) : Nat := rfld s 0x8000 0 16
/-- Heritage mode in effect (R456). -/
def heritage (s : State) : Bool := rbit s 0x0020 0
/-- CELLAR.STATUS.READY (R52). -/
def ready (s : State) : Bool := rbit s 0x2000 0
/-- CTL.BOOT_STATUS.LOADED (R459). -/
def loaded (s : State) : Bool := rbit s 0x0014 2
/-- CTL.BOOT_STATUS.DORMANT (R439). -/
def dormant (s : State) : Bool := rbit s 0x0014 3
/-- CAL.STATUS.RUNNING (R144). -/
def running (s : State) : Bool := rbit s 0x1004 1
/-- STRAP_BOOT as latched (R458). -/
def strapBoot (s : State) : Nat := rfld s 0x0010 0 2
/-- The owning domain in effect of bin `m`; a pool bin is D0's (R36, R56). -/
def binOwner (s : State) (m : Nat) : Nat :=
  if rbit s (0x2100 + 4 * m) 9 then 0 else rfld s (0x2100 + 4 * m) 0 4
/-- The EXPORT setting in effect of bin `m` (R40). -/
def binExport (s : State) (m : Nat) : Nat := rfld s (0x2100 + 4 * m) 10 2
/-- The domain of stream `st` (R173). -/
def streamDomain (s : State) (st : Nat) : Nat := rfld s (0x0400 + 4 * st) 12 4
/-- The home terrace of stream `st` (R173). -/
def streamTerrace (s : State) (st : Nat) : Nat := rfld s (0x0400 + 4 * st) 24 3
/-- ANY_TERRACE of stream `st` (R173). -/
def streamAny (s : State) (st : Nat) : Bool := rbit s (0x0400 + 4 * st) 28
/-- EARLY_EGRESS of stream `st` (R173). -/
def streamEarly (s : State) (st : Nat) : Bool := rbit s (0x0400 + 4 * st) 29
/-- Whether press `p` is corked (R387): bit `p` of INTEG.CORKED_LO and CORKED_HI. -/
def isCorked (s : State) (p : Nat) : Bool :=
  rbit s (if p < 32 then 0xD014 else 0xD018) (p % 32)

/-! ### Presses, tables, ports, modules, rings, handles by number -/

def getPress (s : State) (p : Nat) : Press := smGet s.presses p {}
def setPress (s : State) (p : Nat) (x : Press) : State := { s with presses := smPut s.presses p x }
def getTable (s : State) (k : Nat) : SortTable := smGet s.tables k {}
def setTable (s : State) (k : Nat) (x : SortTable) : State := { s with tables := smPut s.tables k x }
def getPort (s : State) (n : Nat) : Port := smGet s.fab.ports n {}
def setPort (s : State) (n : Nat) (x : Port) : State :=
  { s with fab := { s.fab with ports := smPut s.fab.ports n x } }
def getMod (s : State) (n : Nat) : Module := smGet s.door.mods n {}
def setMod (s : State) (n : Nat) (x : Module) : State :=
  { s with door := { s.door with mods := smPut s.door.mods n x } }
def getDRing (s : State) (r : Nat) : DRing := smGet s.drings r {}
def setDRing (s : State) (r : Nat) (x : DRing) : State := { s with drings := smPut s.drings r x }
def getCRing (s : State) (r : Nat) : CRing := smGet s.crings r {}
def setCRing (s : State) (r : Nat) (x : CRing) : State := { s with crings := smPut s.crings r x }
def getHandle (s : State) (h : Nat) : Handle := smGet s.vint.handles h {}
def setHandle (s : State) (h : Nat) (x : Handle) : State :=
  { s with vint := { s.vint with handles := smPut s.vint.handles h x } }
def getSlot (h : Handle) (v : Nat) : VSlot := nth h.slots v {}
def setSlot (h : Handle) (v : Nat) (x : VSlot) : Handle := { h with slots := h.slots.set v x }

/-! ### Free values, the outbox and events -/

/-- The state after one free choice has been taken (log 2). -/
def drawn (s : State) : State := { s with draw := s.draw + 1 }

/-- The state after the block has sent `o` on one of its ports. -/
def sendOut (s : State) (o : Out) : State := { s with outbox := o :: s.outbox }

/-- Whether event `a` goes before event `b` of the same control clock (R482). -/
def evBefore (a b : Event) : Bool :=
  a.time == b.time && (a.code < b.code || (a.code == b.code && a.unit < b.unit))

/-- The queue, newest last, with `e` placed among the events of its own control clock (R482). -/
def evInsert (e : Event) : List Event → List Event
  | [] => [e]
  | x :: r => if evBefore e x then e :: x :: r else x :: evInsert e r

/-- An event of this control clock enters the event queue of 16, or is lost (R482). -/
def emit (s : State) (e : Event) : State :=
  let e := { e with time := s.time.ftime }
  if s.book.queue.length < 16 then
    let e := { e with loss := s.book.lossNext }
    { s with book := { s.book with queue := evInsert e s.book.queue, lossNext := false } }
  else
    bump { s with book := { s.book with lossNext := true } } 0xF044 1

/-- An event of R404: INTEG.STATUS.FAULT is set and the event carries FAULT. -/
def emitFault (s : State) (e : Event) : State :=
  emit (rsetBit s 0xD000 6 true) { e with fault := true }

/-! ### Memory

A physical key is the local address for the tasting room and for a bin that is not remapped, and an address of the
spare that serves a remapped bin otherwise (R15, R25). -/

/-- The regions of R15, with the bin for the cellar. -/
inductive Region where
  | cellar (bin : Nat)
  | tasting
  | window
  | unmapped
  deriving DecidableEq, Repr

/-- The region of a local byte address (R15, R16). -/
def region (a : Nat) : Region :=
  if a < 0x100000000 then .cellar (a / 0x4000000)
  else if a < 0x102000000 then .tasting
  else if 0x180000000 ≤ a ∧ a < 0x180100000 then .window
  else .unmapped

/-- First physical key of spare bin `k`. -/
def spareKey (k : Nat) : Nat := 0x200000000 + k * 0x4000000

/-- First physical key of the storage that serves bin `m` (R25, R56). -/
def binKey (s : State) (m : Nat) : Nat :=
  if rbit s (0x2100 + 4 * m) 8 then spareKey (rfld s (0x2100 + 4 * m) 6 2) else m * 0x4000000

/-- The physical key of a local cellar or tasting-room address. -/
def physOf (s : State) (a : Nat) : Nat :=
  if a < 0x100000000 then binKey s (a / 0x4000000) + a % 0x4000000 else a

/-- The tasting-room local address of a byte offset, modulo 32 MiB (R58, R131, R151). -/
def trAddr (off : Nat) : Nat := 0x100000000 + off % 0x2000000

/-- What an unlisted cell reads as: zero, as R51 leaves every word. -/
def cellDefault : Byte := 0#8

/-- One byte of the cells. -/
def cellGet (cells : List Host.Cell) (k : Nat) : Byte := smGet cells k cellDefault

/-- The cells with byte `b` at key `k`, in canonical form: rising keys, no entry equal to the default. -/
def cellPut (cells : List Host.Cell) (k : Nat) (b : Byte) : List Host.Cell :=
  match cells with
  | [] => if b = cellDefault then [] else [(k, b)]
  | (k', b') :: r =>
    if k < k' then (if b = cellDefault then (k', b') :: r else (k, b) :: (k', b') :: r)
    else if k = k' then (if b = cellDefault then r else (k, b) :: r)
    else (k', b') :: cellPut r k b

/-- The canonical form: keys strictly rising from `lo`, no listed byte equal to the default. -/
def cellsWf (lo : Nat) : List Host.Cell → Bool
  | [] => true
  | (k, b) :: r => decide (lo ≤ k) && decide (b ≠ cellDefault) && cellsWf (k + 1) r

/-- The memory is in its canonical form. -/
def Memory.wf (m : Mem) : Bool := cellsWf 0 m.cells

/-- One byte of memory by physical key. -/
def memByte (m : Mem) (k : Nat) : Byte := cellGet m.cells k

/-- `n` bytes of memory from physical key `k`. -/
def memBytes (m : Mem) (k : Nat) : Nat → List Byte
  | 0 => []
  | n + 1 => memByte m k :: memBytes m (k + 1) n

/-- A list of numbers as a set, kept without repeats. -/
def insNat (l : List Nat) (k : Nat) : List Nat := if l.contains k then l else k :: l

/-- One byte written, check bits not considered. -/
def memPutByte (m : Mem) (k : Nat) (b : Byte) : Mem := { m with cells := cellPut m.cells k b }

/-- Bytes written at given keys, in order, check bits not considered. -/
def memPutAll (m : Mem) (l : List (Nat × Byte)) : Mem :=
  l.foldl (fun m e => memPutByte m e.1 e.2) m

/-- The word (key div 4) gets fresh check bits. -/
def memFresh (m : Mem) (w : Nat) : Mem :=
  { m with ueWords := m.ueWords.filter (· != w), ceWords := m.ceWords.filter (· != w) }

/-- Whether byte writes cover all four bytes of word `w`. -/
def coversAll (bs : List (Nat × Byte)) (w : Nat) : Bool := (List.range 4).all (fun i => bs.any (fun e => e.1 == 4 * w + i))

/-- One word's part of a write (R28, R47): a write of all four bytes is direct; one of fewer is a merge, which leaves
an uncorrectable word unchanged and reports it. -/
def storeWord (m : Mem) (w : Nat) (bs : List (Nat × Byte)) : Mem × Bool :=
  if coversAll bs w || !m.ueWords.contains w then (memFresh (memPutAll m bs) w, true) else (m, false)

/-- The distinct words that a list of byte writes touches, in order of first use. -/
def wordsTouched (bs : List (Nat × Byte)) : List Nat :=
  (bs.map (fun e => e.1 / 4)).eraseDups

/-- A write of enabled bytes given by physical key. The list answers the words left unchanged by an uncorrectable
error (R47). -/
def storeBytes (m : Mem) (bs : List (Nat × Byte)) : Mem × List Nat :=
  (wordsTouched bs).foldl
    (fun acc w =>
      let r := storeWord acc.1 w (bs.filter (fun e => e.1 / 4 == w))
      if r.2 then (r.1, acc.2) else (r.1, acc.2 ++ [w]))
    (m, [])

/-- The words among `n` bytes from key `k` that hold an uncorrectable error. -/
def ueIn (m : Mem) (k n : Nat) : List Nat :=
  m.ueWords.filter (fun w => k / 4 ≤ w && w < (k + n + 3) / 4)

/-- The physical 2 KiB block of a key. -/
def blockOf (k : Nat) : Nat := k / 2048

/-- Unchecked sideband (R377). -/
def sbUnchecked : Word × Word := (0#32, 0#32)
/-- The FAIL mark (R377). -/
def sbFail : Word × Word := (0xFFFFFFFF#32, 1#32)
/-- The RECALL mark (R377). -/
def sbRecall : Word × Word := (0xFFFFFFFF#32, 2#32)

/-- The sideband entry of a block as it reads (R375, R377). The tasting room has none: unchecked. -/
def sbGet (m : Mem) (blk : Nat) : Word × Word :=
  if m.sbUe.contains blk then sbFail
  else
    let v := smGet m.sideband blk sbUnchecked
    if v.1 = 0xFFFFFFFF#32 ∧ v.2 ≠ 2#32 then sbFail else v

/-- A block that holds a FAIL or RECALL mark is marked (R377). -/
def sbMarked (m : Mem) (blk : Nat) : Bool := (sbGet m blk).1 == 0xFFFFFFFF#32

/-- The sideband of a block written; the tasting room has none (R376). -/
def sbPut (m : Mem) (blk : Nat) (v : Word × Word) : Mem :=
  if 0x100000000 / 2048 ≤ blk ∧ blk < 0x200000000 / 2048 then m
  else
    { m with sideband := (if v = sbUnchecked then smDel m.sideband blk else smPut m.sideband blk v),
             sbUe := m.sbUe.filter (· != blk) }

/-- A sideband write that covers the whole block, or keeps a mark already present (R378). -/
def sbWrite (m : Mem) (blk : Nat) (whole : Bool) (v : Word × Word) : Mem :=
  if whole || !sbMarked m blk then sbPut m blk v else m

/-- The state with its memory replaced. -/
def setMem (s : State) (m : Mem) : State := { s with mem := m }

/-- `n` bytes from a local cellar or tasting-room address, byte by byte through the bin decode. -/
def localBytes (s : State) (a n : Nat) : List Byte :=
  (List.range n).map (fun i => memByte s.mem (physOf s (a + i)))

/-- Byte enables of a local write as physical byte writes. -/
def physWrites (s : State) (bs : List (Nat × Byte)) : List (Nat × Byte) :=
  bs.map (fun e => (physOf s e.1, e.2))

/-- The uncorrectable words among `n` bytes at a local address, as physical words. -/
def localUe (s : State) (a n : Nat) : List Nat :=
  (List.range ((a + n + 3) / 4 - a / 4)).filterMap
    (fun i =>
      let w := physOf s (4 * (a / 4 + i)) / 4
      if s.mem.ueWords.contains w then some w else none)

/-- The distinct physical 2 KiB blocks that a list of local byte addresses touches. -/
def blocksTouched (s : State) (as : List Nat) : List Nat :=
  (as.map (fun a => blockOf (physOf s a))).eraseDups

/-- Whether the byte writes cover every byte of physical block `blk`. -/
def coversBlock (bs : List (Nat × Byte)) (blk : Nat) : Bool :=
  ((bs.map (·.1)).filter (fun k => blockOf k == blk)).eraseDups.length == 2048

/-- An unchecked local write (R378): bytes stored, and every touched block's sideband unchecked unless a mark is kept.
The answer names the words left unchanged (R47). -/
def storeUnchecked (s : State) (bs : List (Nat × Byte)) : State × List Nat :=
  let ps := physWrites s bs
  let r := storeBytes s.mem ps
  let blks := (ps.map (fun e => blockOf e.1)).eraseDups
  (setMem s (blks.foldl (fun m b => sbWrite m b (coversBlock ps b) sbUnchecked) r.1), r.2)

/-- Consecutive bytes paired with their addresses. -/
def byteRun (a : Nat) (bs : List Byte) : List (Nat × Byte) :=
  (List.range bs.length).zip bs |>.map (fun e => (a + e.1, e.2))

/-- The block's own write into the tasting room (cards, ring state, journals, handle words): always permitted (R154). -/
def trStore (s : State) (off : Nat) (bs : List Byte) : State :=
  (storeUnchecked s ((byteRun 0 bs).map (fun e => (trAddr (off + e.1), e.2)))).1

/-- `n` bytes of the tasting room from a byte offset, modulo 32 MiB. -/
def trBytes (s : State) (off n : Nat) : List Byte :=
  (List.range n).map (fun i => memByte s.mem (trAddr (off + i)))

/-- Whether `n` bytes of the tasting room from a byte offset hold an uncorrectable word. -/
def trUe (s : State) (off n : Nat) : Bool :=
  (List.range (ceilDiv n 4)).any (fun i => s.mem.ueWords.contains (trAddr (off + 4 * i) / 4))

/-- Global bank, row and word of a cellar address (R26). -/
def bankOf (a : Nat) : Nat :=
  let x := (a / 64 % 32) ^^^ (a / 2048 % 32) ^^^ (a / 65536 % 32) ^^^ (a / 2097152 % 32)
  32 * (a / 67108864) + x
def rowOf (a : Nat) : Nat := a / 2048 % 32768
def wordOf (a : Nat) : Nat := a / 4 % 16

/-- Bank and row of a tasting-room address (R48). -/
def trBankOf (a : Nat) : Nat := a / 64 % 64
def trRowOf (a : Nat) : Nat := a / 4096 % 8192

/-- What each of two same-clock accesses to one tasting-room word gives (R49, R50): the word returned to a read that
meets a write. Commands follow one another, so that each row of R49 is the outcome of one order of two of them (log 61). A bank on repair, and every bank in heritage mode (R471), returns the new word. -/
def collisionRead (s : State) (bank : Nat) (old new : Word) : Word :=
  let repaired := rbit s (if bank < 32 then 0x2014 else 0x2018) (bank % 32)
  if repaired || heritage s then new else old

/-- The word after two same-clock writes, with byte enables (R49): port B's bytes win. -/
def collisionWrite (old a b : List Byte) (enA enB : Nat → Bool) : List Byte :=
  (List.range 4).map (fun i => if enB i then nth b i 0 else if enA i then nth a i 0 else nth old i 0)

end Sys2Proof.Machine
end

