-- ==== Sys2Proof/Machine/Codec.lean ====
section
/-!
DEFINITION. Machine/Codec.lean: the formats of an optical link: the transaction header (R324, R325, R327), the flit (R318), and the
RS(544,514) codewords that carry the flits (R316); and the messages of the cellar door (R361 to R363).
-/
namespace Sys2Proof.Machine

/-! ### Transactions as bytes (R324, R325, R327) -/

/-- A flag as a bit of a word. -/
def flagAt (b : Bool) (i : Nat) : Nat := if b then 2 ^ i else 0

/-- The words of a header; reserved bits are 0 (R324). -/
def headerWords (t : Txn) : List Nat :=
  [t.typ.toNat * 2 ^ 28 + t.hops.toNat * 2 ^ 22 + flagAt t.partialW 21 + flagAt t.early 20 + flagAt t.rejoin 19 + t.tag.toNat,
   t.dnode.toNat * 2 ^ 16 + t.snode.toNat,
   t.addr.toNat % 2 ^ 32,
   t.table.toNat * 2 ^ 16 + t.addr.toNat / 2 ^ 32,
   flagAt t.dvx 31 + t.dvin.toNat * 2 ^ 29 + t.lenM1.toNat * 2 ^ 24 + t.code.toNat * 2 ^ 16 + t.stream.toNat * 2 ^ 8,
   t.ident.toNat,
   t.group.toNat * 2 ^ 20,
   0,
   t.mask.toNat % 2 ^ 32,
   t.mask.toNat / 2 ^ 32,
   t.lotM.toNat,
   t.lotP.toNat]

/-- The 48 bytes of a header. -/
def headerBytes (t : Txn) : List Byte := (headerWords t).flatMap (leBytes 4)

/-- The transaction of a header whose words are given; reserved bits are ignored (R324). -/
def headerTxn (w : Nat → Nat) : Txn :=
  let f := fun (i lo n : Nat) => w i / 2 ^ lo % 2 ^ n
  { typ := BitVec.ofNat 4 (f 0 28 4), hops := BitVec.ofNat 6 (f 0 22 6), partialW := f 0 21 1 == 1, early := f 0 20 1 == 1,
    rejoin := f 0 19 1 == 1, tag := BitVec.ofNat 18 (f 0 0 18), dnode := BitVec.ofNat 16 (f 1 16 16),
    snode := BitVec.ofNat 16 (f 1 0 16), addr := BitVec.ofNat 48 (f 3 0 16 * 2 ^ 32 + f 2 0 32), table := BitVec.ofNat 12 (f 3 16 12),
    dvx := f 4 31 1 == 1, dvin := BitVec.ofNat 2 (f 4 29 2), lenM1 := BitVec.ofNat 5 (f 4 24 5), code := BitVec.ofNat 8 (f 4 16 8),
    stream := BitVec.ofNat 8 (f 4 8 8), ident := BitVec.ofNat 32 (f 5 0 32), group := BitVec.ofNat 12 (f 6 20 12),
    mask := BitVec.ofNat 64 (f 9 0 32 * 2 ^ 32 + f 8 0 32), lotM := BitVec.ofNat 32 (f 10 0 32), lotP := BitVec.ofNat 32 (f 11 0 32) }

/-- Payload lines of a transaction by its TYPE and LEN_M1 (R325). -/
def payloadLines (typ lenM1 : Nat) : Nat :=
  if typ = 0 ∨ typ = 4 ∨ typ = 5 ∨ typ = 9 then 0 else if typ = 6 then 1 else lenM1 + 1

/-- Whether byte masks follow the lines: of a WRITE with PARTIAL only (R324, R327). -/
def hasMasks (typ : Nat) (partialW : Bool) : Bool := typ == 1 && partialW

/-- A transaction as it travels: header, payload lines, byte masks (R324, R327). -/
def txnStream (t : Txn) : List Byte := headerBytes t ++ t.data ++ t.bmasks.flatMap (fun m => leBytes 8 m.toNat)

/-- The header that a byte list begins with. -/
def readHeader (bs : List Byte) : Txn := headerTxn (fun i => leNat ((bs.drop (4 * i)).take 4))

/-- Transaction bytes of the transaction that a header opens. -/
def rxLen (h : Txn) : Nat :=
  let n := payloadLines h.typ.toNat h.lenM1.toNat
  48 + 64 * n + (if hasMasks h.typ.toNat h.partialW then 8 * n else 0)

/-- The transaction that a byte list begins with, its payload included. -/
def readTxnBytes (bs : List Byte) : Txn :=
  let h := readHeader bs
  let n := payloadLines h.typ.toNat h.lenM1.toNat
  let ms := (bs.drop (48 + 64 * n)).take (8 * n)
  { h with data := (bs.drop 48).take (64 * n),
           bmasks := if hasMasks h.typ.toNat h.partialW then
               (List.range n).map (fun i => BitVec.ofNat 64 (leNat ((ms.drop (8 * i)).take 8)))
             else [] }

/-- The transactions at the head of the received bytes, and what is left of one that is not complete. Where no transaction is open, bytes
that are all zero up to the end of their flit fill it (DESIGN CHOICE, log 98); `fuel` bounds the headers. -/
def splitTxns (bs : List Byte) : Nat → List Txn × List Byte
  | 0 => ([], bs)
  | k + 1 =>
    if bs.all (· == 0#8) then ([], [])
    else if bs.length < 48 then ([], bs)
    else
      let n := rxLen (readHeader bs)
      if bs.length < n then ([], bs)
      else
        let r := splitTxns (bs.drop n) k
        (readTxnBytes bs :: r.1, r.2)

/-! ### Flits (R318) -/

/-- A flit: 240 transaction bytes, SEQ, ACKSEQ and NAK, the credit returns and the CRC. -/
def flitBytes (body : List Byte) (seq ackseq : Nat) (nak : Bool) (cr : List Nat) : List Byte :=
  let credits := (List.range 4).map (fun v => nth cr v 0 % 4096 * 4096 ^ v)
  let head := body.take 240 ++ List.replicate (240 - body.length) 0#8 ++ leBytes 2 (seq % 4096)
    ++ leBytes 2 (ackseq % 4096 + (if nak then 4096 else 0)) ++ leBytes 6 credits.sum ++ [0#8, 0#8]
  head ++ leBytes 4 (crc32c head).toNat

/-! ### The field GF(2^10) of the code

R316 names the code of IEEE 802.3 clause 91 by reference. What it does not spell out is taken from that clause (PRESUMED, log 99): symbols
of GF(2^10) under x^10 + x^3 + 1, the generator with the roots α^0 to α^29, message symbols first and the highest power first. The
first bit of the stream is the lowest bit of the first symbol. -/

/-- Multiplication by α. -/
def gfDouble (a : Nat) : Nat := if 512 ≤ a then Nat.xor (2 * a) 0x409 else 2 * a

/-- The product, by the low `k` bits of `b`. -/
def gfMulBits (a b : Nat) : Nat → Nat
  | 0 => 0
  | k + 1 => Nat.xor (if b % 2 = 1 then a else 0) (gfMulBits (gfDouble a) (b / 2) k)

def gfMul (a b : Nat) : Nat := gfMulBits a b 10

/-- The power, by the low `k` bits of the exponent. -/
def gfPowBits (a n : Nat) : Nat → Nat
  | 0 => 1
  | k + 1 => gfMul (if n % 2 = 1 then a else 1) (gfPowBits (gfMul a a) (n / 2) k)

/-- α to a power. -/
def gfAlpha (n : Nat) : Nat := gfPowBits 2 (n % 1023) 10
def gfInv (a : Nat) : Nat := gfPowBits a 1022 10

/-- The value of a polynomial, its lowest coefficient first, at a point. -/
def gfEval (p : List Nat) (x : Nat) : Nat := p.foldr (fun c acc => Nat.xor c (gfMul x acc)) 0

/-- Sum and scaled shift of polynomials, lowest coefficient first. -/
def gfAdd (p q : List Nat) : List Nat := (List.range (max p.length q.length)).map (fun i => Nat.xor (nth p i 0) (nth q i 0))
def gfScale (k : Nat) (p : List Nat) : List Nat := p.map (gfMul k)

/-- The generator polynomial, lowest coefficient first. -/
def rsGen : List Nat :=
  (List.range 30).foldl (fun g j => gfAdd (0 :: g) (gfScale (gfAlpha j) g)) [1]

/-- The 30 check symbols of 514 message symbols, the highest power first. -/
def rsCheck (msg : List Nat) : List Nat :=
  let g := (rsGen.take 30).reverse
  msg.foldl
    (fun reg m =>
      let f := Nat.xor m (reg.headD 0)
      (reg.tail ++ [0]).zipWith (fun a b => Nat.xor a (gfMul f b)) g)
    (List.replicate 30 0)

/-- A codeword of 544 symbols (R316). -/
def rsEncode (msg : List Nat) : List Nat := msg ++ rsCheck msg

/-- The 30 syndromes of a received word. -/
def rsSyndromes (r : List Nat) : List Nat := (List.range 30).map (fun j => gfEval r.reverse (gfAlpha j))

/-- The state of the search for the error locator (Berlekamp and Massey). -/
structure RsSearch where
  c : List Nat := [1]
  b : List Nat := [1]
  l : Nat := 0
  m : Nat := 1
  d : Nat := 1

/-- One step of it, for syndrome `n`. -/
def rsStep (syn : List Nat) (z : RsSearch) (n : Nat) : RsSearch :=
  let d := (List.range (z.l + 1)).foldl (fun a i => Nat.xor a (gfMul (nth z.c i 0) (if i ≤ n then nth syn (n - i) 0 else 0))) 0
  if d = 0 then { z with m := z.m + 1 }
  else
    let c := gfAdd z.c (List.replicate z.m 0 ++ gfScale (gfMul d (gfInv z.d)) z.b)
    if 2 * z.l ≤ n then { c := c, b := z.c, l := n + 1 - z.l, m := 1, d := d } else { z with c := c, m := z.m + 1 }

/-- The errors of a received word, as (power, value), from its locator. -/
def rsErrors (syn loc : List Nat) : List (Nat × Nat) :=
  let omega := (List.range 30).map (fun k =>
    (List.range (k + 1)).foldl (fun a i => Nat.xor a (gfMul (nth loc i 0) (nth syn (k - i) 0))) 0)
  let der := (List.range (loc.length - 1)).map (fun i => if i % 2 = 0 then nth loc (i + 1) 0 else 0)
  ((List.range 544).filter (fun i => gfEval loc (gfAlpha (1023 - i)) == 0)).map (fun i =>
    let x := gfAlpha (1023 - i)
    (i, gfMul (gfAlpha i) (gfMul (gfEval omega x) (gfInv (gfEval der x)))))

/-- A received word corrected, with the number of symbols in error: the codeword within 15 symbols of it, where there is one. -/
def rsDecode (r : List Nat) : Option (List Nat × Nat) :=
  let syn := rsSyndromes r
  if syn.all (· == 0) then some (r, 0)
  else
    let z := (List.range 30).foldl (rsStep syn) {}
    let es := rsErrors syn z.c
    let fix := (List.range 544).map (fun k => Nat.xor (nth r k 0)
      (match es.find? (fun e => e.1 + k + 1 == 544) with
       | some e => e.2
       | none => 0))
    if z.l ≤ 15 ∧ es.length = z.l ∧ (rsSyndromes fix).all (· == 0) then some (fix, es.length) else none

/-! ### Flits across codeword payloads (R316) -/

/-- The 514 symbols of a payload of 5,140 bits, and back. -/
def payloadSymbols (v : Nat) : List Nat := (List.range 514).map (fun i => v / 1024 ^ i % 1024)
def symbolsPayload (l : List Nat) : Nat := (l.take 514).foldr (fun x acc => x % 1024 + 1024 * acc) 0

/-- The wavelengths of a mask, in ascending number. -/
def lanesUp (up : BitVec 8) : List Nat := (List.range 8).filter (fun i => up.getLsbD i)

/-! ### Messages of the cellar door (R361, R362, R368, R369)

The ADDR of an answer other than MCPL is sent as 0, and the lanes of an XADD have no field of their own (log 42). -/

/-- The 16 bytes of a message header; reserved bits are 0 (R361). -/
def doorHeader (typ : Nat) (partialW ackReq : Bool) (lenM1 status : Nat) (tag : BitVec 12) (addr w3 : Nat) : List Byte :=
  leBytes 4 (typ * 2 ^ 27 + flagAt partialW 26 + flagAt ackReq 25 + lenM1 % 32 * 2 ^ 20 + status % 256 * 2 ^ 12 + tag.toNat)
    ++ leBytes 4 (addr % 2 ^ 32) ++ leBytes 4 (addr / 2 ^ 32 % 2 ^ 16) ++ leBytes 4 w3

/-- A message of the block as it travels: header, payload beats, byte masks. What is not sent on a module has no bytes. -/
def doorBytes : Out → List Byte
  | .mcpl _ tag st addr d => doorHeader 0x08 false false (d.length / 64 - 1) st tag addr 0 ++ d
  | .mack _ tag st => doorHeader 0x09 false false 0 st tag 0 0
  | .rcpl _ tag st v => doorHeader 0x0A false false 0 st tag 0 v.toNat
  | .evt _ e => doorHeader 0x1C false false 0 0 0 0 (e.code * 2 ^ 24) ++ e.body
  | .crd _ beats headers => doorHeader 0x1D false false 0 0 0 0 (beats * 2 ^ 16 + headers)
  | .door _ typ tag t =>
    if typ = 0x10 then doorHeader typ false false t.lenM1.toNat 0 tag t.addr.toNat 0
    else if typ = 0x12 then doorHeader typ false false (t.data.length / 64 - 1) 0 tag t.addr.toNat (t.code.toNat * 2 ^ 24) ++ t.data
    else doorHeader typ t.partialW false t.lenM1.toNat 0 tag t.addr.toNat 0 ++ t.data ++ t.bmasks.flatMap (fun k => leBytes 8 k.toNat)
  | _ => []

/-- The command that a message received on module `m` makes (R361, R362); none for a list of fewer than 16 bytes. Fields are read modulo
their width. -/
def doorCommand (m : Fin 16) (bs : List Byte) : Option Instr :=
  let w := fun (i : Nat) => leNat ((bs.drop (4 * i)).take 4)
  let f := fun (i lo n : Nat) => w i / 2 ^ lo % 2 ^ n
  let lenM1 := BitVec.ofNat 5 (f 0 20 5)
  let tag := BitVec.ofNat 12 (f 0 0 12)
  let addr := BitVec.ofNat 48 (f 2 0 16 * 2 ^ 32 + w 1)
  let beats := f 0 20 5 + 1
  let data := (bs.drop 16).take (64 * beats)
  let masks := (List.range ((bs.length - 16 - 64 * beats) / 8)).map (fun i =>
    BitVec.ofNat 64 (leNat ((bs.drop (16 + 64 * beats + 8 * i)).take 8)))
  if bs.length < 16 then none
  else
    match f 0 27 5 with
    | 0x01 => some (.mrd m addr lenM1 tag)
    | 0x02 => some (.mwr m addr lenM1 tag (f 0 26 1 == 1) (f 0 25 1 == 1) data (if f 0 26 1 = 1 then masks.take beats else []))
    | 0x03 => some (.rrd m addr tag)
    | 0x04 => some (.rwr m addr tag (BitVec.ofNat 32 (w 3)))
    | 0x07 => some (.mrst m)
    | 0x18 => some (.xcpl m tag (BitVec.ofNat 8 (f 0 12 8)) lenM1 data)
    | 0x19 => some (.xack m tag (BitVec.ofNat 8 (f 0 12 8)) (BitVec.ofNat 16 (f 3 0 16)))
    | 0x1D => some (.crd m (BitVec.ofNat 16 (f 3 16 16)) (BitVec.ofNat 16 (f 3 0 16)))
    | typ => some (.doorReservedType m (BitVec.ofNat 5 typ) lenM1)

end Sys2Proof.Machine
end

