-- ==== Sys2Proof/Machine/Flags.lean ====
section
/-!
DEFINITION. Machine/Flags.lean: the register table with its access codes (R7, R461), and every register, status bit and
flag that the block computes from its state when it is read.
-/
namespace Sys2Proof.Machine

/-! ### The register table -/

/-- A row of the register map: `count` registers from window offset `base`, `stride` bytes apart, with the masks of
their RO, RW, RWS and single-bit W1C fields, their W1C counts (lowest bit, width), and the RO fields that the estate
image writes. Every other bit is reserved. -/
structure RegRow where
  name : String
  base : Nat
  stride : Nat := 4
  count : Nat := 1
  ro : Nat := 0
  rw : Nat := 0
  rws : Nat := 0
  w1c : Nat := 0
  cnt : List (Nat × Nat) := []
  img : Nat := 0

/-- The CTL block (R468). -/
def ctlRows : List RegRow :=
  [ { name := "CTL.VERSION", base := 0x0000, ro := 0xFFFFFFFF },
    { name := "CTL.FTIME_LO", base := 0x0008, ro := 0xFFFFFFFF },
    { name := "CTL.FTIME_HI", base := 0x000C, ro := 0xFFFFFFFF },
    { name := "CTL.STRAPS", base := 0x0010, ro := 0x0000FFFB },
    { name := "CTL.BOOT_STATUS", base := 0x0014, ro := 0x00FFFF1F },
    { name := "CTL.RESET_CAUSE", base := 0x0018, ro := 0xFFFF0003 },
    { name := "CTL.REMAP", base := 0x001C, ro := 0x1 },
    { name := "CTL.HERITAGE", base := 0x0020, ro := 0x3, img := 0x1 },
    { name := "CTL.IMG_VER", base := 0x0024, ro := 0xFFFFFFFF },
    { name := "CTL.PRESS_RESET", base := 0x0028, count := 2, rws := 0xFFFFFFFF },
    { name := "CTL.LINK_RESET_LO", base := 0x0030, rw := 0xFFFFFFFF },
    { name := "CTL.LINK_RESET_HI", base := 0x0034, rw := 0x0000FFFF },
    { name := "CTL.BOOT_GO", base := 0x0038, rw := 0x8007FFFF },
    { name := "CTL.TREG_BASE", base := 0x0080, ro := 0x7FFFF, img := 0x7FFFF },
    { name := "CTL.TREG_COUNT", base := 0x0084, ro := 0xFFFF, img := 0xFFFF },
    { name := "CTL.RING_BASE", base := 0x0088, ro := 0x7FFFF, img := 0x7FFFF },
    { name := "CTL.PRESS_CFG", base := 0x0090, ro := 0x00FF0000, rws := 0xFFFF, img := 0x00FF0000 },
    { name := "CTL.SAVE_BASE", base := 0x00C0, count := 16, ro := 0x80000FFF, img := 0x80000FFF },
    { name := "CTL.STAGE_MAP", base := 0x0100, count := 32, ro := 0xBFBFBFBF, img := 0xBFBFBFBF },
    { name := "CTL.SORT_STAT", base := 0x0180, count := 8, ro := 0xFFF00000, cnt := [(0, 16)] },
    { name := "CTL.SORT_NAN", base := 0x01A0, count := 8, cnt := [(0, 32)] },
    { name := "CTL.BLEND_STAT", base := 0x01C0, cnt := [(16, 16), (0, 16)] },
    { name := "CTL.VTAB", base := 0x01D0, ro := 0x7FFFFFFF, img := 0x7FFFFFFF },
    { name := "CTL.VCMD", base := 0x01D4, rw := 0xFC000FFF },
    { name := "CTL.VSTAT", base := 0x01D8, ro := 0x3F, cnt := [(24, 8), (16, 8)] },
    { name := "CTL.STREAM_CFG", base := 0x0400, count := 256, ro := 0x377FF000, rws := 0x3F,
      img := 0x3700F000 } ]

/-- The CAL block (R142 to R145). -/
def calRows : List RegRow :=
  [ { name := "CAL.CTRL", base := 0x1000, rw := 0x2, rws := 0x1 },
    { name := "CAL.STATUS", base := 0x1004, ro := 0x3E, w1c := 0xC0 },
    { name := "CAL.TIME_CFG", base := 0x1008, ro := 0x003F3FFF, img := 0x003F3FFF },
    { name := "CAL.TABLE_BASE", base := 0x100C, ro := 0x7FFFF, img := 0x7FFFF },
    { name := "CAL.SLOT_NOW", base := 0x1010, ro := 0xFFFFFFFF },
    { name := "CAL.OFFSET", base := 0x1014, ro := 0xFFFFFFFF },
    { name := "CAL.PATH_DELAY", base := 0x1018, ro := 0x00FFFFFF },
    { name := "CAL.FREQ_ADJ", base := 0x101C, ro := 0xFFFFFFFF },
    { name := "CAL.EPOCH", base := 0x1020, count := 2, rw := 0xFFFFFFFF },
    { name := "CAL.OVERRUN, LATE, TORN", base := 0x1028, count := 3, cnt := [(0, 32)] } ]

/-- The CELLAR block (R54 to R57). -/
def cellarRows : List RegRow :=
  [ { name := "CELLAR.STATUS", base := 0x2000, ro := 0xC7, w1c := 0x20 },
    { name := "CELLAR.STARVE_LIMIT, STARVE_ALARM", base := 0x2004, count := 2, rw := 0xFFFF },
    { name := "CELLAR.POOL_BLOCKS, POOL_FREE", base := 0x200C, count := 2, ro := 0x3FFFFF },
    { name := "CELLAR.TR_REPAIR", base := 0x2014, count := 2, ro := 0xFFFFFFFF },
    { name := "CELLAR.SPARE_USE", base := 0x201C, ro := 0xF },
    { name := "CELLAR.DOOR_DOM", base := 0x2020, count := 2, rws := 0xFFFFFFFF },
    { name := "CELLAR.OVERQ_PORT0", base := 0x2028, ro := 0xFFFFFFFF },
    { name := "CELLAR.OVERQ_PORT1", base := 0x202C, ro := 0xFFFF },
    { name := "CELLAR.OVERQ_STREAM", base := 0x2030, count := 8, ro := 0xFFFFFFFF },
    { name := "CELLAR.BIN_CFG", base := 0x2100, count := 64, ro := 0x3C0, rws := 0xC0F, img := 0x200 },
    { name := "CELLAR.STARVE", base := 0x2200, count := 64, cnt := [(0, 32)] },
    { name := "CELLAR.PORTQ", base := 0x2300, count := 48, rws := 0x3FFFFF },
    { name := "CELLAR.PORTOCC", base := 0x2400, count := 48, ro := 0x3FFFFF },
    { name := "CELLAR.STREAMQ", base := 0x2800, count := 256, rws := 0x3FFFFF },
    { name := "CELLAR.STREAMOCC", base := 0x2C00, count := 256, ro := 0x3FFFFF } ]

/-- The PRESS block (R205, R206). -/
def pressRows : List RegRow :=
  [ { name := "PRESS.STATUS", base := 0x4000, stride := 0x100, count := 64, ro := 0xFFF00E0F },
    { name := "PRESS.CUR", base := 0x4004, stride := 0x100, count := 64, ro := 0xFF3FFFFF },
    { name := "PRESS.SAVED", base := 0x4008, stride := 0x100, count := 64, ro := 0xFF3FFFFF },
    { name := "PRESS.TILES", base := 0x400C, stride := 0x100, count := 64, ro := 0xFFFFFFFF },
    { name := "PRESS.PREEMPTS", base := 0x4010, stride := 0x100, count := 64, cnt := [(0, 32)] },
    { name := "PRESS.VRESTART", base := 0x4014, stride := 0x100, count := 64, cnt := [(0, 32)] },
    { name := "PRESS.FAB_RETRIES", base := 0x4018, stride := 0x100, count := 64, cnt := [(0, 32)] },
    { name := "PRESS.FAB_FAIL", base := 0x401C, stride := 0x100, count := 64, cnt := [(0, 32)] },
    { name := "PRESS.BOARD_CE", base := 0x4020, stride := 0x100, count := 64, cnt := [(0, 32)] },
    { name := "PRESS.BOARD_UE", base := 0x4024, stride := 0x100, count := 64, cnt := [(0, 32)] } ]

/-- The FAB block (R356, R357). -/
def fabRows : List RegRow :=
  [ { name := "FAB.NODE", base := 0x8000, ro := 0xFFFF, img := 0xFFF0 },
    { name := "FAB.DOOR_NODE", base := 0x8004, ro := 0x8000FFFF, img := 0x8000FFFF },
    { name := "FAB.ROUTE_BASE, GROUP_BASE", base := 0x8008, count := 2, ro := 0x7FFFF, img := 0x7FFFF },
    { name := "FAB.MC_CFG", base := 0x8010, rws := 0xFFFF00FF },
    { name := "FAB.REGWIN", base := 0x8014, ro := 0xFFFFFFFF, img := 0xFFFFFFFF },
    { name := "FAB.CTRL", base := 0x8018, ro := 0x1, img := 0x1 },
    { name := "FAB counters", base := 0x8040, count := 10, cnt := [(0, 32)] },
    { name := "FAB.PORT_STATUS", base := 0x8400, stride := 0x20, count := 48, ro := 0xFFFFFFFF },
    { name := "FAB.PORT_ASYM", base := 0x8404, stride := 0x20, count := 48, rw := 0xFFFF },
    { name := "FAB.PORT_FEC_CE", base := 0x8408, stride := 0x20, count := 48, cnt := [(0, 32)] },
    { name := "FAB.PORT_FEC_UE", base := 0x840C, stride := 0x20, count := 48, cnt := [(0, 32)] },
    { name := "FAB.PORT_CRC_FAIL", base := 0x8410, stride := 0x20, count := 48, cnt := [(0, 32)] },
    { name := "FAB.PORT_REPLAYS", base := 0x8414, stride := 0x20, count := 48, cnt := [(0, 32)] },
    { name := "FAB.PORT_RETRAINS", base := 0x8418, stride := 0x20, count := 48, cnt := [(0, 32)] },
    { name := "FAB.PRUNE_LO", base := 0x9000, stride := 0x10, count := 256, ro := 0xFFFFFFFF },
    { name := "FAB.PRUNE_HI", base := 0x9004, stride := 0x10, count := 256, ro := 0xFFFFFFFF },
    { name := "FAB.PRUNE_GRP", base := 0x9008, stride := 0x10, count := 256, ro := 0x80000FFF } ]

/-- The DOOR, INTEG, COOP and MGMT blocks (R372, R373, R405 to R410, R486, R487). -/
def restRows : List RegRow :=
  [ { name := "DOOR.BONDED", base := 0xC000, ro := 0xF },
    { name := "DOOR.EXPORT_CFG", base := 0xC004, rws := 0xFFFF },
    { name := "DOOR.XTMO", base := 0xC008, rw := 0xFFFF },
    { name := "DOOR.XCREDIT", base := 0xC00C, ro := 0xFFFFFFFF, img := 0xFFFFFFFF },
    { name := "DOOR counters", base := 0xC040, count := 6, cnt := [(0, 32)] },
    { name := "DOOR.MOD_STATUS", base := 0xC100, count := 16, ro := 0xFFFF0FF7 },
    { name := "INTEG.STATUS", base := 0xD000, ro := 0xB8, w1c := 0x40 },
    { name := "INTEG.CORK_CFG", base := 0xD004, ro := 0x000FFFFF, img := 0x000FFFFF },
    { name := "INTEG.BIN_LIMITS", base := 0xD008, ro := 0xFFFF00FF, img := 0xFFFF00FF },
    { name := "INTEG.REPLACE", base := 0xD00C, ro := 0x7 },
    { name := "INTEG.UNITS", base := 0xD010, ro := 0x007F3F07 },
    { name := "INTEG.CORKED", base := 0xD014, count := 2, ro := 0xFFFFFFFF },
    { name := "INTEG counters", base := 0xD040, count := 7, cnt := [(0, 32)] },
    { name := "INTEG.BIN_CE", base := 0xD100, count := 64, cnt := [(0, 32)] },
    { name := "INTEG.BIN_UE", base := 0xD200, count := 64, cnt := [(0, 32)] },
    { name := "INTEG.PRESS_FAIL", base := 0xD300, count := 64, ro := 0xFFFF000F },
    { name := "COOP.CMD", base := 0xE000, rw := 0xF000003F },
    { name := "COOP.STATUS", base := 0xE004, ro := 0xF73F, w1c := 0x800 },
    { name := "COOP.TASTE_CFG", base := 0xE008, ro := 0x80FFFF77, img := 0x80FFFF77 },
    { name := "COOP.ROT_CFG", base := 0xE00C, ro := 0xC0007F00, img := 0xC0007F00 },
    { name := "COOP.ROT_NEXT", base := 0xE010, ro := 0x3F3F },
    { name := "COOP.LAST_TASTE", base := 0xE014, ro := 0x8000003F },
    { name := "COOP counters", base := 0xE040, count := 4, cnt := [(0, 32)] },
    { name := "MGMT.STATUS", base := 0xF000, ro := 0xFF, w1c := 0x100 },
    { name := "MGMT.CFG", base := 0xF004, ro := 0xC0000000, img := 0xC0000000 },
    { name := "MGMT.I3C", base := 0xF008, ro := 0x807F007F },
    { name := "MGMT.EID", base := 0xF00C, ro := 0xFF },
    { name := "MGMT.BOOK_HEAD", base := 0xF010, ro := 0xFFFFFFFF },
    { name := "MGMT.EVT_NODE", base := 0xF014, ro := 0x8000FFFF, img := 0x8000FFFF },
    { name := "MGMT.FWD", base := 0xF018, ro := 0xFFFFFFFF, img := 0xFFFFFFFF },
    { name := "MGMT counters", base := 0xF040, count := 3, cnt := [(0, 32)] } ]

/-- Whether a row names the register at an offset. -/
def RegRow.holds (r : RegRow) (off : Nat) : Bool :=
  r.base ≤ off && (off - r.base) % r.stride == 0 && (off - r.base) / r.stride < r.count

/-- The row of the register at a window offset, or none where the offset is reserved (R467). -/
def regRow (off : Nat) : Option RegRow :=
  let rows := if off < 0x1000 then ctlRows else if off < 0x2000 then calRows
    else if off < 0x4000 then cellarRows else if off < 0x8000 then pressRows
    else if off < 0xC000 then fabRows else restRows
  rows.find? (fun r => r.holds off)

/-- The mask of a list of count fields. -/
def cntMask (l : List (Nat × Nat)) : Nat :=
  l.foldl (fun m e => m ||| ((2 ^ e.2 - 1) * 2 ^ e.1)) 0

/-- The reserved bits of a register. -/
def RegRow.rsv (r : RegRow) : Word :=
  ~~~(BitVec.ofNat 32 (r.ro ||| r.rw ||| r.rws ||| r.w1c ||| cntMask r.cnt))

/-! ### Values computed from the state -/

/-- The descriptor in flight with an identity. -/
def getFlight (s : State) (id : Nat) : Option Flight :=
  s.flights.find? (fun f => f.id == id)

/-- The state with a descriptor in flight replaced. -/
def setFlight (s : State) (f : Flight) : State :=
  { s with flights := s.flights.map (fun g => if g.id == f.id then f else g) }

/-- The descriptors of stream `st` in flight, in stream order (R162). -/
def streamFlights (s : State) (st : Nat) : List Flight :=
  s.flights.filter (fun f => f.stream == st)

/-- CTL.STREAM_CFG[s].INFLIGHT (R161). -/
def inflight (s : State) (st : Nat) : Nat := (streamFlights s st).length

/-- OP of a descriptor (R146). -/
def opOf (ws : List Word) : Nat := fld (nth ws 0 0) 16 8
/-- GEN of a descriptor. -/
def genOf (ws : List Word) : Nat := fld (nth ws 0 0) 0 16
/-- A bit of FLAGS (R147). -/
def flagOf (ws : List Word) (i : Nat) : Bool := bitAt (nth ws 0 0) (24 + i)

/-- The slot length Λ in ns that a SLOT_LEN code selects (R127). -/
def slotNs (code : Nat) : Nat :=
  match code with
  | 0 => 125
  | 1 => 250
  | 2 => 500
  | 3 => 1000
  | 4 => 2000
  | 5 => 4000
  | _ => 250

/-- Λ in effect (R127). -/
def lambda (s : State) : Nat := slotNs (rfld s 0x1008 5 3)

/-- Control clocks per slot, C (R127). -/
def slotClocks (lam : Nat) : Nat := lam * 21 / 40

/-- The slot of an instant and the revolution number (R128). -/
def slotAt (lam t : Nat) : Nat := t / lam % 4096
def revAt (lam t : Nat) : Nat := t / (4096 * lam)

/-- The switch pool's bins (R41, R56). -/
def poolBins (s : State) : List Nat :=
  (List.range 64).filter (fun m => rbit s (0x2100 + 4 * m) 9)
/-- CELLAR.POOL_BLOCKS. -/
def poolBlocks (s : State) : Nat := 32768 * (poolBins s).length
/-- Blocks charged to port `n` and to stream `st` (R41). -/
def portOcc (s : State) (n : Nat) : Nat := rfld s (0x2400 + 4 * n) 0 22
def streamOcc (s : State) (st : Nat) : Nat := rfld s (0x2C00 + 4 * st) 0 22
/-- CELLAR.POOL_FREE. -/
def poolFree (s : State) : Nat :=
  poolBlocks s - ((List.range 48).map (portOcc s)).sum - ((List.range 256).map (streamOcc s)).sum
/-- The over-quota bits (R43). -/
def overqPort (s : State) (n : Nat) : Bool := rfld s (0x2300 + 4 * n) 0 22 ≤ portOcc s n
def overqStream (s : State) (st : Nat) : Bool := rfld s (0x2800 + 4 * st) 0 22 ≤ streamOcc s st
/-- Bits gathered into a word, bit 0 first. -/
def bitsWord (f : Nat → Bool) (n : Nat) : Word :=
  BitVec.ofNat 32 (((List.range n).map (fun i => if f i then 2 ^ i else 0)).sum)

/-- The press codes of R206. -/
def pstateCode : PState → Nat
  | .idle => 0
  | .setup => 1
  | .run => 2
  | .save => 3
  | .restore => 4
  | .finish => 5
  | .stress => 6
  | .corked => 7
  | .reset => 8

/-- The descriptor a run works on. -/
def runFlight (s : State) (r : Option Run) : Option Flight :=
  r.bind (fun x => getFlight s x.fid)

/-- The stage in progress of a run. -/
def runStage (f : Flight) (r : Run) : Stage := nth f.stages r.stage {}

/-- Link kinds of a BLEND stage (R281): the HAND field, 0b11 read as TILE. -/
def handOf (st : Stage) : Nat :=
  let h := fld (nth st.words 2 0) 30 2
  if h = 3 then 0 else h

/-- A descriptor that holds a staged copy, or waits for one (R214). -/
def Run.isStaged (r : Run) : Bool := !r.staged.isEmpty || r.stagedWait || r.reads.any (·.copy)

/-- The conditions of R191 and R292 under which a running descriptor is not preemptible. -/
def notPreemptible (s : State) (p : Nat) : Bool :=
  let x := getPress s p
  match x.run with
  | none => false
  | some r =>
    match getFlight s r.fid with
    | none => false
    | some f =>
      let op := (runStage f r).op
      x.saved.isSome
        || r.isStaged
        || (if f.stages.length ≤ 1 then op == 0x18 || op == 0x19
            else r.barred || (getTable s (p / 8)).owner == some p)
        || !rbit s (0x00C0 + 4 * streamDomain s f.stream) 31
        || x.state == .finish

/-- PRESS.CUR layout (R205). -/
def curWord (f : Option Flight) : Word :=
  match f with
  | none => 0
  | some f => BitVec.ofNat 32 (opOf f.words * 2 ^ 24 + f.ring % 1024 * 2 ^ 12 + f.entry % 4096)

/-- PRESS.STATUS (R206). -/
def pressStatus (s : State) (p : Nat) : Word :=
  let x := getPress s p
  let f := runFlight s x.run
  let st := (f.map (·.stream)).getD 0
  let dom := (f.map (fun g => streamDomain s g.stream)).getD 0
  let fw := (x.run.map (fun r => r.reads.any (fun e => 0 < e.fails && !e.landed && !e.dead))).getD false
  BitVec.ofNat 32
    (st % 256 * 2 ^ 24 + dom * 2 ^ 20 + (if x.saved.isSome then 2 ^ 11 else 0)
      + (if notPreemptible s p then 2 ^ 10 else 0) + (if fw then 2 ^ 9 else 0) + pstateCode x.state)

/-- Every pin held: by descriptors until their card (R303), and by served remote reads until sent (R308). -/
def allPins (s : State) : List Pin :=
  s.flights.flatMap (·.pins)
    ++ s.fab.ports.flatMap (fun e => (e.2.wait ++ e.2.unacked).filterMap (·.pin))

def slotPinned (s : State) (h v : Nat) : Bool :=
  (allPins s).any (fun p => p.handle == h && p.slot == v)
def writerPinned (s : State) (h v : Nat) : Bool :=
  (allPins s).any (fun p => p.handle == h && p.slot == v && p.writer)

/-- The fields of a vintage command (R312). -/
def vcmdOp (w : Word) : Nat := fld w 28 4
def vcmdSlot (w : Word) : Nat := fld w 26 2
def vcmdHandle (w : Word) : Nat := fld w 0 12

/-- CTL.VSTAT.HELD: a FLIP or DISCARD waits for its slot's writer pins (R304). -/
def vcmdHeld (s : State) : Bool :=
  s.vint.queue.any (fun w => (vcmdOp w == 2 || vcmdOp w == 3)
    && (getSlot (getHandle s (vcmdHandle w)) (vcmdSlot w)).st == .filling && writerPinned s (vcmdHandle w) (vcmdSlot w))

/-- Failures charged to press `p` within the window of R386. -/
def inWindow (s : State) (fails : List Nat) : Nat :=
  let w := max 1 (rfld s 0xD004 0 16)
  (fails.filter (fun e => s.time.edges - e < w)).length

/-- A port is usable when it is trained and neither retraining, held in link reset nor lost (R331). -/
def usable (s : State) (n : Nat) : Bool :=
  let p := getPort s n
  p.trained && !p.retrain && !p.held && !p.lost

/-- FAB.PORT_STATUS (R357). -/
def portStatus (s : State) (n : Nat) : Word :=
  let p := getPort s n
  let width := ((List.range 8).filter (fun i => p.up.getLsbD i)).length
  BitVec.ofNat 32
    (p.peer.toNat * 2 ^ 16 + p.up.toNat * 2 ^ 8 + width * 2 ^ 4 + (if p.lost then 8 else 0)
      + (if p.retrain then 4 else 0) + (if p.trained then 2 else 0) + (if p.held then 1 else 0))

/-- Module `n` is bonded (R359). -/
def bonded (s : State) (n : Nat) : Bool := n ≤ rfld s 0x0010 10 4

/-- DOOR.MOD_STATUS (R373). -/
def modStatus (s : State) (n : Nat) : Word :=
  let m := getMod s n
  BitVec.ofNat 32
    (m.resets.toNat * 2 ^ 16 + m.rate.toNat * 2 ^ 8 + m.repaired.toNat * 2 ^ 4 + (if m.l1 then 4 else 0)
      + (if m.trained then 2 else 0) + (if bonded s n then 1 else 0))

/-- Presses corked, ports lost, spares in use (R405). -/
def corkedCount (s : State) : Nat := ((List.range 64).filter (isCorked s)).length
def lostPorts (s : State) : Nat := ((List.range 48).filter (fun n => (getPort s n).lost)).length
def sparesUsed (s : State) : Nat := ((List.range 4).filter (rbit s 0x201C)).length
def unitsWord (s : State) : Word :=
  BitVec.ofNat 32 (corkedCount s * 2 ^ 16 + lostPorts s * 2 ^ 8 + sparesUsed s)

/-- INTEG.STATUS (R406): FAULT and NOSPARE are held, the rest is computed. -/
def integStatus (s : State) : Word :=
  let held := rget s 0xD000 &&& 0x60#32
  held ||| BitVec.ofNat 32
    ((if rget s 0xD00C ≠ 0 then 0x80 else 0) + (if s.coop.remap.isSome then 0x10 else 0)
      + (if corkedCount s = 64 then 0x08 else 0))

/-- COOP.STATUS (R409): REJECT is held, the rest is computed. -/
def coopStatus (s : State) : Word :=
  (rget s 0xE004 &&& 0x800#32) ||| BitVec.ofNat 32
    (s.coop.op % 16 * 2 ^ 12 + (if s.coop.pending.isSome then 2 ^ 10 else 0) + (if s.coop.busy then 2 ^ 9 else 0)
      + (if s.coop.remap.isSome then 2 ^ 8 else 0) + s.coop.target % 64)

/-- CELLAR.STATUS (R55). POOL_EMPTY reads 0 while the image has set no pool (log 12). -/
def cellarStatus (s : State) : Word :=
  let anyq := (List.range 48).any (overqPort s) || (List.range 256).any (overqStream s)
  (rget s 0x2000 &&& 0x27#32) ||| BitVec.ofNat 32
    ((if poolFree s = 0 ∧ poolBlocks s ≠ 0 then 0x80 else 0) + (if anyq then 0x40 else 0))

/-- CTL.SORT_STAT (R276). -/
def sortStat (s : State) (k : Nat) : Word :=
  let t := getTable s k
  (rget s (0x0180 + 4 * k) &&& 0xFFFF#32) ||| BitVec.ofNat 32
    ((if t.fenced then 2 ^ 31 else 0) + (if t.owner.isSome then 2 ^ 30 else 0) + (t.owner.getD 0) % 64 * 2 ^ 24
      + min 8 t.waiting.length * 2 ^ 20)

/-- TALLY.STATUS (R428); a checkpoint is one step, so CKPT_BUSY is never seen set. -/
def tallyStatus (s : State) : Word :=
  let t := s.tally
  BitVec.ofNat 32
    ((if t.holdup then 64 else 0) + (if t.lossSeen then 16 else 0)
      + (if t.newLineage then 8 else 0) + (if t.tapOpen then 4 else 0) + 1)

/-- A word of the TALLY window (R427): zero while the tally is out of service. -/
def tallyRead (s : State) (o : Nat) : Word :=
  let t := s.tally
  if !t.inService then 0
  else if o = 0x000 then 0x00010002#32
  else if o = 0x004 then tallyStatus s
  else if o = 0x008 then (if t.cur then 1 else 0)
  else if o = 0x00C then BitVec.ofNat 32 t.writeAttempts
  else if o = 0x010 then BitVec.ofNat 32 t.tapUe
  else if o = 0x020 then t.lineage.setWidth 32
  else if o = 0x024 then (t.lineage >>> 32).setWidth 32
  else if o = 0x028 then BitVec.ofNat 32 t.stmtSeq
  else if o = 0x02C then BitVec.ofNat 32 (t.stmtSeq / 2 ^ 32)
  else if 0x040 ≤ o ∧ o < 0x080 then
    BitVec.ofNat 32 (leNat ((List.range 4).map (fun i => Config.tallyPubKey (o - 0x040 + i))))
  else if 0x1000 ≤ o ∧ o < 0x1800 then wordAt t.bufA (o - 0x1000)
  else if 0x1800 ≤ o ∧ o < 0x2000 then wordAt t.bufB (o - 0x1800)
  else 0

/-- MGMT.I3C (R486): the static address is 0x50 + STRAP_NODE. -/
def i3cWord (s : State) : Word :=
  let da := match s.mgmt.da with
    | none => 0
    | some a => 2 ^ 31 + a.toNat * 2 ^ 16
  BitVec.ofNat 32 (da + 0x50 + rfld s 0x0010 6 4)

/-! ### The control matrix (R440, R441) -/

/-- What a matrix access may address (R440). -/
inductive MatrixSpace where
  | bootRom
  | workSram
  | registers
  | xspi
  | tasting
  | book
  deriving DecidableEq, Repr

/-- The paths of the control matrix: masters 0 cellar master, 1 boot loader, 2 management agent, 3 host window, 4 cooper (R440, R481). -/
def hasPath (master : Nat) : MatrixSpace → Bool
  | .bootRom => master == 1
  | .workSram => master == 0 || master == 1
  | .registers => true
  | .xspi => master == 1 || master == 4
  | .tasting => master == 0 || master == 1 || master == 4
  | .book => master != 3

/-- What a code address reaches, with CTL.REMAP as given (R441); none behaves as unmapped. -/
def codeSpace (remap : Bool) (a : Nat) : Option MatrixSpace :=
  if a < 0x80000 then some (if remap then .workSram else .bootRom)
  else if 0x100000 ≤ a ∧ a < 0x180000 then some (if remap then .bootRom else .workSram)
  else if 0x200000 ≤ a ∧ a < 0x240000 then some .book
  else if 0x300000 ≤ a ∧ a < 0x301000 then some .xspi
  else if 0x1000000 ≤ a ∧ a < 0x2000000 then some .xspi
  else none

/-- The value that a read of the register at a word offset returns, without the shadow (R460, R467). -/
def regLive (s : State) (off : Nat) : Word :=
  if 0x10000 ≤ off then (if off < 0x20000 then tallyRead s (off - 0x10000) else 0)
  else
    match regRow off with
    | none => 0
    | some _ =>
      if off = 0x0008 then s.time.ftime.setWidth 32
      else if off = 0x000C then (s.time.ftime >>> 32).setWidth 32
      else if 0x0180 ≤ off ∧ off < 0x01A0 then sortStat s ((off - 0x0180) / 4)
      else if off = 0x01D8 then
        (rget s off &&& 0xFFFF0000#32) ||| BitVec.ofNat 32
          ((if vcmdHeld s then 32 else 0) + s.vint.queue.length)
      else if 0x0400 ≤ off ∧ off < 0x0800 then
        setFld (rget s off) 16 7 (inflight s ((off - 0x0400) / 4))
      else if off = 0x1010 then
        BitVec.ofNat 32 (slotAt (lambda s) s.time.ftime.toNat + revAt (lambda s) s.time.ftime.toNat % 2 ^ 20 * 4096)
      else if off = 0x2000 then cellarStatus s
      else if off = 0x200C then BitVec.ofNat 32 (poolBlocks s)
      else if off = 0x2010 then BitVec.ofNat 32 (poolFree s)
      else if off = 0x2028 then bitsWord (overqPort s) 32
      else if off = 0x202C then bitsWord (fun i => overqPort s (32 + i)) 16
      else if 0x2030 ≤ off ∧ off < 0x2050 then
        bitsWord (fun i => overqStream s (32 * ((off - 0x2030) / 4) + i)) 32
      else if 0x4000 ≤ off ∧ off < 0x8000 then
        let p := (off - 0x4000) / 256
        if off % 256 = 0 then pressStatus s p
        else if off % 256 = 4 then curWord (runFlight s (getPress s p).run)
        else if off % 256 = 8 then curWord (runFlight s (getPress s p).saved)
        else rget s off
      else if 0x8400 ≤ off ∧ off < 0x8A00 ∧ (off - 0x8400) % 32 = 0 then portStatus s ((off - 0x8400) / 32)
      else if off = 0xC000 then BitVec.ofNat 32 (rfld s 0x0010 10 4)
      else if 0xC100 ≤ off ∧ off < 0xC140 then modStatus s ((off - 0xC100) / 4)
      else if off = 0xD000 then integStatus s
      else if off = 0xD010 then unitsWord s
      else if 0xD300 ≤ off ∧ off < 0xD400 then
        let x := getPress s ((off - 0xD300) / 4)
        BitVec.ofNat 32 (x.total % 2 ^ 16 * 2 ^ 16 + min 15 (inWindow s x.fails))
      else if off = 0xE004 then coopStatus s
      else if off = 0xE010 then BitVec.ofNat 32 (s.coop.rotPress % 64 * 256 + s.coop.rotBin % 64)
      else if off = 0xF000 then (rget s off &&& 0x100#32) ||| BitVec.ofNat 32 s.book.send.length
      else if off = 0xF008 then i3cWord s
      else if off = 0xF00C then s.mgmt.eid.setWidth 32
      else if off = 0xF010 then s.book.head
      else rget s off

/-! ### Pins -/

/-- The alarm outputs, low when true (R502). -/
def faultLow (s : State) : Bool := rbit s 0xD000 6 && !s.boot.porstLow
def replaceLow (s : State) : Bool := (rget s 0xD00C != 0) && !s.boot.porstLow
/-- FTIME_PULSE_OUT (R126, R494). -/
def pulseOutHigh (s : State) : Bool :=
  match s.time.pulseOutEnd with
  | none => false
  | some e => decide (s.time.clocks < e) && !s.boot.porstLow

end Sys2Proof.Machine
end

