-- ==== Sys2Proof/Machine/Operands.lean ====
section
/-!
DEFINITION. Machine/Operands.lean: the operand forms of a descriptor: element formats (R63), tensor records (R61, R62),
sharding (R65 to R68), the three layouts (R71 to R73), crates (R76 to R79) and the fields of a descriptor (R146).
-/
namespace Sys2Proof.Machine

/-! ### Element formats -/

/-- FMT as read: a reserved value is UINT32 (R63). -/
def fmtRead (c : Nat) : Nat :=
  if c ≤ 0x04 ∨ (0x08 ≤ c ∧ c ≤ 0x12) then c else 0x11

/-- Element bits (R63). -/
def fmtBits (f : Nat) : Nat :=
  match f with
  | 0x01 => 16
  | 0x02 => 16
  | 0x03 => 8
  | 0x04 => 8
  | 0x08 => 8
  | 0x09 => 8
  | 0x0A => 6
  | 0x0B => 6
  | 0x0C => 4
  | 0x0D => 8
  | 0x0E => 8
  | 0x0F => 4
  | 0x12 => 64
  | _ => 32

/-- Crated formats (R63). -/
def fmtCrated (f : Nat) : Bool := 0x08 ≤ f && f ≤ 0x0F
/-- Bytes of a plain element. -/
def fmtBytes (f : Nat) : Nat := fmtBits f / 8
/-- Block bytes BB of a crated format. -/
def fmtBlock (f : Nat) : Nat := 4 * fmtBits f
/-- Full crate size CB (R76). -/
def crateBytes (f : Nat) : Nat := 16 + 16 * fmtBlock f
/-- Tile size TB (R72, R79). -/
def tileBytes (f : Nat) : Nat := if fmtCrated f then 2 * crateBytes f else 1024 * fmtBytes f
/-- Size of an element as the sorting table counts it (R259): 1 for any crated format. -/
def fmtFeed (f : Nat) : Nat := if fmtCrated f then 1 else fmtBytes f

/-! ### Coordinates -/

/-- Four coordinates, dimension 0 first. -/
abbrev Crd := List Nat
def crd (c : Crd) (d : Nat) : Nat := nth c d 0
/-- Coordinate-wise sum, modulo 2^32 (R150). -/
def crdAdd (a b : Crd) : Crd :=
  (List.range 4).map (fun d => (crd a d + crd b d) % 2 ^ 32)
/-- The product of four extents. -/
def vol (e : Crd) : Nat := crd e 0 * crd e 1 * crd e 2 * crd e 3
/-- The coordinates of logical index `g` in extents `e` (the inverse of R64). -/
def ofLogical (e : Crd) (g : Nat) : Crd :=
  let e0 := max 1 (crd e 0)
  let e1 := max 1 (crd e 1)
  let e2 := max 1 (crd e 2)
  [g % e0, g / e0 % e1, g / (e0 * e1) % e2, g / (e0 * e1 * e2)]
/-- The logical index of R64. -/
def logical (e c : Crd) : Nat :=
  crd c 0 + crd e 0 * (crd c 1 + crd e 1 * (crd c 2 + crd e 2 * crd c 3))

/-! ### Tensor records -/

/-- A tensor record as the block reads it (R61, R62). -/
structure Rec where
  table : Nat
  rank : Nat
  layout : Nat
  fmt : Nat
  mode : List Nat
  smap : Nat
  ext : Crd
  stride : List Nat
  base : Nat
  n : List Nat
  k : List Nat

/-- The fields of a record (R61), with the readings of R62, R63 and R65. -/
def recOf (ws : List Word) : Rec :=
  let w := fun i => nth ws i 0#32
  let rank := fld (w 0) 12 2
  let lay := fld (w 0) 8 2
  let mode := (List.range 4).map (fun d => if d ≤ rank then fld (w 1) (2 * d) 2 else 0)
  { table := fld (w 0) 16 12,
    rank := rank,
    layout := if lay = 3 then 0 else lay,
    fmt := fmtRead (fld (w 0) 0 8),
    mode := mode,
    smap := fld (w 2) 0 19,
    ext := (List.range 4).map (fun d => if d ≤ rank then max 1 (w (3 + d)).toNat else 1),
    stride := (List.range 4).map (fun d => if 1 ≤ d ∧ d ≤ rank then (w (6 + d)).toNat else 0),
    base := (w 10).toNat + 2 ^ 32 * (w 11).toNat,
    n := (List.range 4).map (fun d => if nth mode d 0 = 0 then 1 else fld (w (12 + d)) 20 12 + 1),
    k := (List.range 4).map (fun d => max 1 (fld (w (12 + d)) 0 20)) }

/-- The record of a latched record. -/
def LRec.tensor (l : LRec) : Rec := recOf l.words

/-- Any dimension sharded (R68). -/
def Rec.sharded (r : Rec) : Bool := r.mode.any (· != 0)

/-- h(q) of R65. -/
def hashSpread (q : Nat) : Nat := q % 2 ^ 32 * 0x85EBCA6B % 2 ^ 32 / 2 ^ 16

/-- The shard coordinate, local coordinate and local extent along dimension `d` (R65). -/
def Rec.shard1 (r : Rec) (d i : Nat) : Nat × Nat × Nat :=
  let n := nth r.n d 1
  let k := nth r.k d 1
  let e := crd r.ext d
  match nth r.mode d 0 with
  | 1 => (i / k % n, i % k, k)
  | 2 => (i / k % n, i / (k * n) * k + i % k, k * ceilDiv e (k * n))
  | 3 => ((i % n + hashSpread (i / n)) % n, i / n, ceilDiv e n)
  | _ => (0, i, e)

/-- The shard number (R66). -/
def Rec.shardNo (r : Rec) (c : Crd) : Nat :=
  let s := fun d => (r.shard1 d (crd c d)).1
  let n := fun d => nth r.n d 1
  (s 0 + n 0 * (s 1 + n 1 * (s 2 + n 2 * s 3))) % 4096

/-- The local coordinates and local extents of an element (R65, R69). -/
def Rec.localOf (r : Rec) (c : Crd) : Crd × Crd :=
  ((List.range 4).map (fun d => (r.shard1 d (crd c d)).2.1),
   (List.range 4).map (fun d => (r.shard1 d (crd c d)).2.2))

/-! ### Layouts -/

/-- Where an element lies from its effective base: the offset of its first byte (plain) or of its block (crated), the
offset of its scale byte, and its position in the block. -/
structure Spot where
  off : Nat
  scale : Nat := 0
  pos : Nat := 0

/-- Rowbytes of `n` innermost elements (R71, R78). -/
def rowBytes (f n : Nat) : Nat :=
  if fmtCrated f then
    let r := n % 512
    n / 512 * crateBytes f + (if r = 0 then 0 else 16 * ceilDiv (16 + ceilDiv r 32 * fmtBlock f) 16)
  else n * fmtBytes f

/-- The padded extents P0 and P1 of a blocked layout (R72, R73); the extents of a LIN layout. -/
def Rec.padded (r : Rec) (l : Crd) : Crd :=
  let g := if r.layout = 1 then 32 else if r.layout = 2 then 256 else 1
  [g * ceilDiv (crd l 0) g, g * ceilDiv (crd l 1) g, crd l 2, crd l 3]

/-- The first byte of the tile that holds local coordinates `c` of a blocked layout, from the plane's start. -/
def Rec.tileOff (r : Rec) (l c : Crd) : Nat :=
  let tb := tileBytes r.fmt
  let p0 := crd (r.padded l) 0
  if r.layout = 1 then (crd c 0 / 32 + p0 / 32 * (crd c 1 / 32)) * tb
  else
    (crd c 0 / 256 + p0 / 256 * (crd c 1 / 256)) * (64 * tb)
      + (crd c 0 / 32 % 8 + 8 * (crd c 1 / 32 % 8)) * tb

/-- The place of local coordinates `c` in a shard of local extents `l` (R71 to R73, R77 to R79). -/
def Rec.spot (r : Rec) (l c : Crd) : Spot :=
  let i0 := crd c 0
  let f := r.fmt
  let hi := 16 * (nth r.stride 2 0 * crd c 2 + nth r.stride 3 0 * crd c 3)
  if r.layout = 0 then
    let row := hi + 16 * (nth r.stride 1 0 * crd c 1)
    if fmtCrated f then
      let cr := row + i0 / 512 * crateBytes f
      let b := i0 % 512 / 32
      { off := cr + 16 + b * fmtBlock f, scale := cr + b, pos := i0 % 32 }
    else
      -- the scale bytes of a short crate lie before its blocks in the same 16 bytes
      { off := row + i0 * fmtBytes f }
  else
    let tile := hi + r.tileOff l c
    let rr := crd c 1 % 32
    let cc := i0 % 32
    if fmtCrated f then
      let cr := tile + rr / 16 * crateBytes f
      { off := cr + 16 + rr % 16 * fmtBlock f, scale := cr + rr % 16, pos := cc }
    else { off := tile + (32 * rr + cc) * fmtBytes f }

/-- The bytes that hold an element: its own bytes (plain), or the bytes of the block that hold its bits (R77). -/
def spotBytes (f : Nat) (s : Spot) : List Nat :=
  if fmtCrated f then
    let lo := fmtBits f * s.pos
    let hi := lo + fmtBits f - 1
    (List.range (hi / 8 - lo / 8 + 1)).map (fun i => s.off + lo / 8 + i)
  else (List.range (fmtBytes f)).map (s.off + ·)

/-- The code of an element whose holding bytes are `bs` (R77). -/
def spotCode (f : Nat) (s : Spot) (bs : List Byte) : Nat :=
  let v := leNat bs
  if fmtCrated f then v / 2 ^ (fmtBits f * s.pos % 8) % 2 ^ fmtBits f else v

/-! ### Descriptor fields (R146) -/

def wNat (ws : List Word) (i : Nat) : Nat := (nth ws i 0#32).toNat
def wFld (ws : List Word) (i lo width : Nat) : Nat := fld (nth ws i 0#32) lo width
/-- START of the window. -/
def dStart (ws : List Word) : Crd := [wNat ws 5, wNat ws 6, wFld ws 7 0 16, wFld ws 7 16 16]
/-- EXT of the window; 0 is read as 1 (R146). -/
def dExt (ws : List Word) : Crd :=
  [max 1 (wNat ws 8), max 1 (wNat ws 9), max 1 (wFld ws 10 0 16), max 1 (wFld ws 10 16 16)]
def dOpa (ws : List Word) : Word := nth ws 12 0#32
def dOpb (ws : List Word) : Word := nth ws 14 0#32
def dOpc (ws : List Word) : Word := nth ws 15 0#32
/-- CVT.OVF and CVT.SR (R95). -/
def dOvf (ws : List Word) : Bool := bitAt (nth ws 1 0#32) 9
def dSr (ws : List Word) : Bool := bitAt (nth ws 1 0#32) 8
/-- Pad mode WRITE (R147, R216): in heritage mode the default is WRITE. -/
def dPadWrite (heri : Bool) (ws : List Word) : Bool :=
  let p := wFld ws 0 28 2
  p == 2 || (heri && (p == 0 || p == 3))

/-- PERM(d) for d = 0 to 3 (R209): a field that names a dimension already taken reads as the lowest one not taken. -/
def permOf (byte : Nat) : List Nat :=
  (List.range 4).foldl
    (fun taken d =>
      let v := byte / 4 ^ d % 4
      if taken.contains v then taken ++ [((List.range 4).find? (fun e => !taken.contains e)).getD 0]
      else taken ++ [v])
    []

/-- Where a dimension lies in a permutation: the destination dimension that `e` supplies. -/
def permInv (p : List Nat) (e : Nat) : Nat := ((List.range 4).find? (fun d => nth p d 0 == e)).getD 0

/-- The PERM in force for an op (R208, R209): only RIDDLE carries one. -/
def opPerm (op : Nat) (ws : List Word) : List Nat :=
  if op = 0x02 then permOf (fld (dOpa ws) 0 8) else [0, 1, 2, 3]

/-- DSTART of an op by its own words (R208, R235, R345). -/
def dDstart (op : Nat) (ws : List Word) : Crd :=
  let a := dOpa ws
  if op = 0x28 then [0, 0, 0, 0]
  else if op = 0x04 then dStart ws
  else if op = 0x20 then [(dOpb ws).toNat, (dOpc ws).toNat, 0, 0]
  else if op = 0x0B then [fld (dOpb ws) 16 16, (dOpc ws).toNat, 0, 0]
  else if op = 0x10 then [(dOpb ws).toNat, (dOpc ws).toNat, 0, 0]
  else if op = 0x18 ∨ op = 0x19 then [fld (dOpb ws) 0 16, (dOpc ws).toNat, 0, 0]
  else [(dOpb ws).toNat, (dOpc ws).toNat, fld a 16 16, fld a 8 8]

/-- DVX and DVIN of an op (R225, R236); other ops carry none. -/
def dDvx (op : Nat) (ws : List Word) : Option Nat :=
  let a := dOpa ws
  if op = 0x28 then (if bitAt a 22 then some (fld a 20 2) else none)
  else if op = 0x09 ∨ op = 0x0A then (if bitAt a 5 then some (fld a 3 2) else none)
  else none

/-- The terrace of a press (R13). -/
def terraceOf (p : Nat) : Nat := p / 8

/-- Ops that name a source, destination, auxiliary, index, offsets and output-key record (R207, R235, R263, R341, R345). -/
def usesSrc (op : Nat) : Bool := op != 0x04 && op != 0x30
def usesDst (op : Nat) : Bool := op != 0x30
def usesIdx (op : Nat) : Bool := op == 0x03 || op == 0x08 || op == 0x09 || op == 0x0A || op == 0x0B
def usesAux (op : Nat) (ws : List Word) : Bool :=
  (op == 0x0B && fld (dOpa ws) 18 2 == 2) || ((op == 0x18 || op == 0x19) && bitAt (dOpa ws) 18)
def usesOffs (op : Nat) (ws : List Word) : Bool := op == 0x0B && bitAt (dOpa ws) 17
def usesKdst (op : Nat) (ws : List Word) : Bool := (op == 0x18 || op == 0x19) && bitAt (dOpa ws) 17

/-- Op codes that the table of R148 lists. -/
def opKnown (op : Nat) : Bool :=
  [0x01, 0x02, 0x03, 0x04, 0x08, 0x09, 0x0A, 0x0B, 0x10, 0x18, 0x19, 0x20, 0x21, 0x28, 0x30, 0x38, 0x3F].contains op

/-- Ops that a BLEND stage may hold (R280). -/
def opStage (op : Nat) : Bool :=
  [0x01, 0x02, 0x03, 0x04, 0x08, 0x09, 0x0A, 0x0B, 0x10, 0x18, 0x19, 0x20, 0x21].contains op

/-- Accumulating ops (R257): SCATTER_ADD, and POOL with ACC = 1, which MODE = MAX reads as 0 (R247). -/
def poolMode (ws : List Word) : Nat := fld (dOpa ws) 18 2
def poolAcc (ws : List Word) : Bool := bitAt (dOpa ws) 16 && poolMode ws != 3
def accumulating (op : Nat) (ws : List Word) : Bool := op == 0x0A || (op == 0x0B && poolAcc ws)

end Sys2Proof.Machine
end

