-- ==== Sys2Proof/Machine/Arith.lean ====
section
/-!
DEFINITION. Machine/Arith.lean: format values (R88, R89), rounding (R96, R97), conversions (R98 to R105), the sums of the
vat (R108 to R112) and of the blend ALUs (R114, R115).
-/
namespace Sys2Proof.Machine

/-- The value of an element: a NaN or an infinity with its sign, or ± m × 2^e exactly. Integers have e = 0. -/
inductive Val where
  | nan (neg : Bool)
  | inf (neg : Bool)
  | fin (neg : Bool) (m : Nat) (e : Int)
  deriving DecidableEq, Repr

/-- Mantissa bits, exponent bits and bias of a floating-point element format (R88). -/
structure FloatSpec where
  man : Nat
  exb : Nat
  bias : Nat

/-- The floating-point format behind an FMT code, or none for an integer format. -/
def floatSpec (f : Nat) : Option FloatSpec :=
  match f with
  | 0x00 => some ⟨23, 8, 127⟩
  | 0x01 => some ⟨7, 8, 127⟩
  | 0x02 => some ⟨10, 5, 15⟩
  | 0x03 => some ⟨3, 4, 7⟩
  | 0x04 => some ⟨2, 5, 15⟩
  | 0x08 => some ⟨3, 4, 7⟩
  | 0x09 => some ⟨2, 5, 15⟩
  | 0x0A => some ⟨2, 3, 3⟩
  | 0x0B => some ⟨3, 2, 1⟩
  | 0x0C => some ⟨1, 2, 1⟩
  | _ => none

/-- The code of the largest finite magnitude (R88). -/
def maxFinite (f : Nat) : Nat :=
  match f with
  | 0x00 => 0x7F7FFFFF
  | 0x01 => 0x7F7F
  | 0x02 => 0x7BFF
  | 0x03 => 0x7E
  | 0x04 => 0x7B
  | 0x08 => 0x7E
  | 0x09 => 0x7B
  | 0x0A => 0x1F
  | 0x0B => 0x1F
  | _ => 0x7

/-- The infinity code of a format that has one (R88). -/
def infCode (f : Nat) : Option Nat :=
  match f with
  | 0x00 => some 0x7F800000
  | 0x01 => some 0x7F80
  | 0x02 => some 0x7C00
  | 0x04 => some 0x7C
  | 0x09 => some 0x7C
  | _ => none

/-- The canonical NaN of a format that has one (R98). -/
def nanCode (f : Nat) : Option Nat :=
  match f with
  | 0x00 => some 0x7FC00000
  | 0x01 => some 0x7FC0
  | 0x02 => some 0x7E00
  | 0x03 => some 0x7F
  | 0x04 => some 0x7E
  | 0x08 => some 0x7F
  | 0x09 => some 0x7E
  | _ => none

/-- Two's complement of `w` bits as an exact value. -/
def signedVal (w c : Nat) : Val :=
  if c < 2 ^ (w - 1) then .fin false c 0 else .fin true (2 ^ w - c) 0

/-- The value of an element code, before any scale (R88, R89). -/
def decode (f c : Nat) : Val :=
  match floatSpec f with
  | some sp =>
    let w := fmtBits f
    let neg := decide (2 ^ (w - 1) ≤ c)
    let mag := c % 2 ^ (w - 1)
    if f = 0x03 ∨ f = 0x08 then
      if mag = 0x7F then .nan neg
      else
        let ex := mag / 2 ^ sp.man
        let ma := mag % 2 ^ sp.man
        if ex = 0 then .fin neg ma (1 - (sp.bias : Int) - sp.man)
        else .fin neg (2 ^ sp.man + ma) ((ex : Int) - sp.bias - sp.man)
    else
      match infCode f with
      | some ic =>
        if mag = ic then .inf neg
        else if ic < mag then .nan neg
        else
          let ex := mag / 2 ^ sp.man
          let ma := mag % 2 ^ sp.man
          if ex = 0 then .fin neg ma (1 - (sp.bias : Int) - sp.man)
          else .fin neg (2 ^ sp.man + ma) ((ex : Int) - sp.bias - sp.man)
      | none =>
        let ex := mag / 2 ^ sp.man
        let ma := mag % 2 ^ sp.man
        if ex = 0 then .fin neg ma (1 - (sp.bias : Int) - sp.man)
        else .fin neg (2 ^ sp.man + ma) ((ex : Int) - sp.bias - sp.man)
  | none =>
    if f = 0x0D then
      match signedVal 8 c with
      | .fin n m _ => .fin n m (-6)
      | v => v
    else if f = 0x0E then signedVal 8 c
    else if f = 0x0F then signedVal 4 c
    else if f = 0x10 then signedVal 32 c
    else if f = 0x12 then signedVal 64 c
    else .fin false c 0

/-- A crated element with its scale byte (R89, R105). -/
def decodeScaled (f scale c : Nat) : Val :=
  if scale = 0xFF then .nan false
  else
    match decode f c with
    | .fin n m e => .fin n m (e + scale - 127)
    | v => v

/-! ### Rounding -/

/-- How a conversion rounds: to nearest even (R96), or with a 16-bit draw (R97). -/
inductive Rnd where
  | rne
  | stoch (g : Nat)
  deriving DecidableEq, Repr

/-- num / den rounded to a whole number; `sticky` says that the exact value lies a little above num / den. -/
def roundDiv (r : Rnd) (num den : Nat) : Nat :=
  let q := num / den
  let rem := num % den
  match r with
  | .rne => if den < 2 * rem ∨ (den = 2 * rem ∧ q % 2 = 1) then q + 1 else q
  | .stoch g => if 65536 ≤ rem * 65536 / den + g then (if rem = 0 then q else q + 1) else q

/-- m × 2^e in units of 2^q, rounded. -/
def roundTo (r : Rnd) (m : Nat) (e q : Int) : Nat :=
  if q ≤ e then m * 2 ^ (e - q).toNat else roundDiv r m (2 ^ (q - e).toNat)

/-- The exponent of the leading bit of m × 2^e, for m > 0. -/
def leadExp (m : Nat) (e : Int) : Int := (Nat.log2 m : Int) + e

/-- The magnitude code of m × 2^e before overflow is judged (R96, R97). -/
def magCode (sp : FloatSpec) (r : Rnd) (m : Nat) (e : Int) : Nat :=
  if m = 0 then 0
  else
    let emin : Int := 1 - sp.bias
    let ex := max (leadExp m e) emin
    let n := roundTo r m e (ex - sp.man)
    (ex - emin).toNat * 2 ^ sp.man + n

/-- The sign bit of a code of width `w`. -/
def signBit (w : Nat) (neg : Bool) : Nat := if neg then 2 ^ (w - 1) else 0

/-- What overflow gives in a floating-point format: the largest finite value, or the infinity or NaN (R95, R98). -/
def overflowCode (f : Nat) (ovf : Bool) : Nat :=
  if ovf then (infCode f).getD ((nanCode f).getD (maxFinite f)) else maxFinite f

/-- A value in a plain floating-point format (R98, R100). -/
def encodeFloat (f : Nat) (ovf : Bool) (r : Rnd) (v : Val) : Nat :=
  match floatSpec f with
  | none => 0
  | some sp =>
    let w := fmtBits f
    match v with
    | .nan n => signBit w n + (nanCode f).getD (maxFinite f)
    | .inf n => signBit w n + (match infCode f with | some c => c | none => overflowCode f ovf)
    | .fin n m e =>
      let c := magCode sp r m e
      signBit w n + (if maxFinite f < c then overflowCode f ovf else c)

/-- A value rounded and saturated to the integers lo to hi, as an exact integer (R99, R101). -/
def encodeInt (lo hi : Int) (r : Rnd) (v : Val) : Int :=
  match v with
  | .nan _ => 0
  | .inf n => if n then lo else hi
  | .fin n m e =>
    let k := roundTo r m e 0
    let i : Int := if n then -(k : Int) else k
    max lo (min hi i)

/-- An integer as a two's complement code of `w` bits. -/
def wrapInt (w : Nat) (i : Int) : Nat := (i % (2 ^ w : Int)).toNat

/-- A value as a code of a plain format (R98 to R101). -/
def encodePlain (f : Nat) (ovf : Bool) (r : Rnd) (v : Val) : Nat :=
  if f = 0x10 then wrapInt 32 (encodeInt (-(2 ^ 31)) (2 ^ 31 - 1) r v)
  else if f = 0x11 then wrapInt 32 (encodeInt 0 (2 ^ 32 - 1) r v)
  else if f = 0x12 then wrapInt 64 (encodeInt (-(2 ^ 63)) (2 ^ 63 - 1) r v)
  else encodeFloat f ovf r v

/-- A conversion that has fewer bits or fewer significand bits in its destination (R91). -/
def narrowing (src dst : Nat) : Bool :=
  let sig := fun f => match floatSpec f with
    | some sp => sp.man + 1
    | none => fmtBits f
  fmtBits dst < fmtBits src || sig dst < sig src

/-! ### Crated blocks -/

/-- The magnitude of a crated integer format's largest element (R99). -/
def crateMax (f : Nat) : Nat := if f = 0x0F then 7 else 127

/-- floor(log2 x) of m × 2^e for m > 0. -/
def floorLog2 (m : Nat) (e : Int) : Int := leadExp m e

/-- ceil(log2 (m × 2^e / d)) for m > 0: the least x with m × 2^e ≤ d × 2^x. -/
def ceilLog2Div (m : Nat) (e : Int) (d : Nat) : Int :=
  let x0 := leadExp m e - (Nat.log2 d : Int) - 1
  let le := fun (x : Int) =>
    if x ≤ e then decide (m * 2 ^ (e - x).toNat ≤ d) else decide (m ≤ d * 2 ^ (x - e).toNat)
  if le x0 then x0 else if le (x0 + 1) then x0 + 1 else x0 + 2

/-- The larger magnitude of two finite values. -/
def maxMag (a b : Nat × Int) : Nat × Int :=
  let lt := if a.2 ≤ b.2 then decide (a.1 < b.1 * 2 ^ (b.2 - a.2).toNat) else decide (a.1 * 2 ^ (a.2 - b.2).toNat < b.1)
  if lt then b else a

/-- amax: the largest finite magnitude of a block (R103). -/
def amax (vs : List Val) : Nat × Int :=
  vs.foldl (fun acc v => match v with | .fin _ m e => maxMag acc (m, e) | _ => acc) (0, 0)

/-- The emax of the MX rule (R103). -/
def mxEmax (f : Nat) : Int :=
  match f with
  | 0x08 => 8
  | 0x09 => 15
  | 0x0A => 4
  | 0x0B => 2
  | 0x0C => 2
  | _ => 0

/-- The scale byte of a full-block store (R103, R104). -/
def crateScale (f : Nat) (ovf : Bool) (vs : List Val) : Nat :=
  let bad := vs.any (fun v => match v with | .nan _ => true | .inf _ => ovf | .fin _ _ _ => false)
  if bad then 0xFF
  else
    let a := amax vs
    if a.1 = 0 then 0x7F
    else
      let x := if f = 0x0E ∨ f = 0x0F then ceilLog2Div a.1 a.2 (crateMax f)
        else if f = 0x0D then floorLog2 a.1 a.2
        else floorLog2 a.1 a.2 - mxEmax f
      (max (-127) (min 127 x) + 127).toNat

/-- An element of a crated block against a scale byte (R81, R103, R104). -/
def encodeCrated (f scale : Nat) (r : Rnd) (v : Val) : Nat :=
  if scale = 0xFF then 0
  else
    let x : Int := (scale : Int) - 127
    if f = 0x0D ∨ f = 0x0E ∨ f = 0x0F then
      let w := fmtBits f
      let hi : Int := crateMax f
      match v with
      | .nan _ => 0
      | .inf n => wrapInt w (if n then -hi else hi)
      | .fin n m e => wrapInt w (encodeInt (-hi) hi r (.fin n m (e - x + (if f = 0x0D then 6 else 0))))
    else
      match floatSpec f with
      | none => 0
      | some sp =>
        let w := fmtBits f
        match v with
        | .nan n => signBit w n + maxFinite f
        | .inf n => signBit w n + maxFinite f
        | .fin n m e => signBit w n + min (maxFinite f) (magCode sp r m (e - x))

/-! ### Sums -/

/-- The signed integer of ± m × 2^e in units of 2^q, for q at most e. -/
def alignInt (n : Bool) (m : Nat) (e q : Int) : Int :=
  let k : Int := (m * 2 ^ (e - q).toNat : Nat)
  if n then -k else k

/-- The first NaN of a list, with its sign (R111). -/
def firstNan (vs : List Val) : Option Bool :=
  vs.findSome? (fun v => match v with | .nan n => some n | _ => none)

/-- The exact sum of values (R108, R114): a NaN operand gives a NaN of the first one's sign, opposite infinities a NaN. -/
def sumVals (vs : List Val) : Val :=
  match firstNan vs with
  | some n => .nan n
  | none =>
    let pos := vs.any (fun v => v == .inf false)
    let neg := vs.any (fun v => v == .inf true)
    if pos && neg then .nan false
    else if pos then .inf false
    else if neg then .inf true
    else
      let q := vs.foldl (fun acc v => match v with | .fin _ _ e => min acc e | _ => acc) 0
      let tot := vs.foldl (fun acc v => match v with | .fin n m e => acc + alignInt n m e q | _ => acc) (0 : Int)
      let allNeg := vs != [] && vs.all (fun v => match v with | .fin n m _ => n && m == 0 | _ => false)
      if tot = 0 then .fin allNeg 0 0 else .fin (decide (tot < 0)) tot.natAbs q

/-- The exact product of two values. -/
def mulVal (a b : Val) : Val :=
  match a, b with
  | .nan n, _ => .nan n
  | _, .nan n => .nan n
  | .inf n, .inf k => .inf (n != k)
  | .inf n, .fin k m _ => if m = 0 then .nan false else .inf (n != k)
  | .fin k m _, .inf n => if m = 0 then .nan false else .inf (n != k)
  | .fin n m e, .fin k l g => .fin (n != k) (m * l) (e + g)

/-- The negation of a value. -/
def negVal : Val → Val
  | .nan n => .nan n
  | .inf n => .inf (!n)
  | .fin n m e => .fin (!n) m e

/-- FP32 under IEEE overflow with RNE (R111). -/
def toF32 (v : Val) : Nat := encodeFloat 0x00 true .rne v

/-- A vat entry after one reduction group: the exact sum of the entry and the products, rounded once (R108). -/
def vatAdd (entry : Nat) (prods : List Val) : Nat :=
  if prods.isEmpty then entry else toF32 (sumVals (decode 0x00 entry :: prods))

/-- FP32 division of a vat entry by a whole number with one RNE rounding (R112, R249). -/
def vatDiv (entry n : Nat) : Nat :=
  match decode 0x00 entry with
  | .fin s m e =>
    if m = 0 ∨ n = 0 then entry
    else
      -- 64 further bits and a sticky bit decide the rounding to 24 bits
      let num := m * 2 ^ 64
      let q := num / n
      let sticky := if num % n = 0 then 0 else 1
      toF32 (.fin s (2 * q + sticky) (e - 65))
  | _ => entry

/-- The parts hi and lo of an FP32 operand (R110). An infinite or NaN hi stands alone. -/
def splitF32 (v : Val) : List Val :=
  let hi := decode 0x01 (encodeFloat 0x01 true .rne v)
  match hi with
  | .fin _ _ _ =>
    let lo := decode 0x01 (encodeFloat 0x01 true .rne (sumVals [v, negVal hi]))
    [hi, lo]
  | _ => [hi]

/-- A finite value. -/
def Val.isFin : Val → Bool
  | .fin _ _ _ => true
  | _ => false

/-- The partial products of one operand pair (R108, R110): `xf`, `yf` say which operands are FP32. Where the high part of either
operand is infinite or NaN only the product of the high parts is formed, so that infinities and NaNs propagate (DEDUCED, log 90). -/
def partials (xf yf : Bool) (x y : Val) : List Val :=
  match (if xf then splitF32 x else [x]), (if yf then splitF32 y else [y]) with
  | a :: ra, c :: rc =>
    if a.isFin && c.isFin then mulVal a c :: (rc.map (mulVal a) ++ ra.map (fun b => mulVal b c)) else [mulVal a c]
  | _, _ => []

/-- The larger of two vat entries by the compare path of MAX (R249): IEEE order, +0 above −0, any NaN canonical. -/
def maxF32 (a b : Nat) : Nat :=
  let isNan := fun c => decide (0x7F800000 < c % 2 ^ 31)
  if isNan a ∨ isNan b then 0x7FC00000
  else
    let key := fun c => if c < 2 ^ 31 then c + 2 ^ 31 else 2 ^ 32 - 1 - c
    if key a < key b then b else a

/-! ### Blend ALUs -/

/-- Destination formats that the blend ALUs add (R114). -/
def blendable (f : Nat) : Bool := f ≤ 0x04 || f == 0x10 || f == 0x11 || f == 0x12
/-- Bytes of a lane of a blendable destination, and of its contribution (R114). -/
def laneBytes (f : Nat) : Nat := fmtBytes f
def contribBytes (f : Nat) : Nat := if f = 0x12 then 8 else 4
/-- The contribution format (R114). -/
def contribFmt (f : Nat) : Nat := if f = 0x10 ∨ f = 0x11 ∨ f = 0x12 then f else 0x00

/-- One lane's sum: the stored code plus a contribution code (R114, R115). -/
def blendAdd (f stored contrib : Nat) : Nat :=
  if f = 0x10 ∨ f = 0x11 then (stored + contrib) % 2 ^ 32
  else if f = 0x12 then (stored + contrib) % 2 ^ 64
  else
    let v := sumVals [decode f stored, decode 0x00 contrib]
    -- E4M3 saturates; the other formats overflow to infinity
    encodeFloat f (f != 0x03) .rne v

/-! ### Index values and sort codes -/

/-- An index value as an exact signed integer (R106): an integer format as it stands, any other through INT64. -/
def indexInt (f scale c : Nat) : Int :=
  if f = 0x10 ∨ f = 0x11 ∨ f = 0x12 then
    match decode f c with
    | .fin n m _ => if n then -(m : Int) else m
    | _ => 0
  else
    encodeInt (-(2 ^ 63)) (2 ^ 63 - 1) .rne (if fmtCrated f then decodeScaled f scale c else decode f c)

/-- Clamp to 0 .. e − 1 (R82), with whether the value changed. -/
def clampTo (i : Int) (e : Nat) : Nat × Bool :=
  if i < 0 then (0, true) else if (e : Int) ≤ i then (e - 1, true) else (i.toNat, false)

/-- The key of a sort in its key class, as a 32-bit code, and the class: 0 FP32, 1 INT32, 2 UINT32 (R261). -/
def sortKey (f scale c : Nat) : Nat × Nat :=
  if f = 0x10 then (c, 1)
  else if f = 0x12 then (encodePlain 0x10 false .rne (decode 0x12 c), 1)
  else if f = 0x11 then (c, 2)
  else
    -- an FP32 key stands as it is; any other is converted, a value beyond the range becoming infinity
    (if f = 0x00 then c else toF32 (if fmtCrated f then decodeScaled f scale c else decode f c), 0)

/-- Whether a key of a class is a NaN. -/
def keyNan (cls k : Nat) : Bool := cls == 0 && decide (0x7F800000 < k % 2 ^ 31)

/-- The sort code of a key (R262). -/
def sortCode (desc : Bool) (cls k : Nat) : Nat :=
  if cls = 2 then k
  else if cls = 1 then (k + 2 ^ 31) % 2 ^ 32
  else if keyNan 0 k then (if desc then 0 else 0xFFFFFFFF)
  else if k < 2 ^ 31 then k + 2 ^ 31
  else 2 ^ 32 - 1 - k

/-- The key behind a sort code (the inverse of R262); a NaN code gives the canonical NaN. -/
def keyOfCode (desc : Bool) (cls code : Nat) : Nat :=
  if cls = 2 then code
  else if cls = 1 then (code + 2 ^ 31) % 2 ^ 32
  else if code = (if desc then 0 else 0xFFFFFFFF) then 0x7FC00000
  else if 2 ^ 31 ≤ code then code - 2 ^ 31
  else 2 ^ 32 - 1 - code

end Sys2Proof.Machine
end

