-- ==== Sys2Proof/Machine/Integrity.lean ====
section
/-!
DEFINITION. Machine/Integrity.lean: error counts and their events (R16, R37, R47, R375), failed bins and spares (R25,
R391 to R393), replacement (R403) and the lot digests (R380).
-/
namespace Sys2Proof.Machine

/-! ### Who makes an access, as events name it (R481) -/

/-- KIND and UNIT of an event's originator. -/
abbrev Who := Nat × Nat
def whoPress (p : Nat) : Who := (1, p)
def whoPort (n : Nat) : Who := (3, n)
def whoDoor (m : Nat) : Who := (4, m)
/-- A matrix master: 0 cellar master, 1 boot loader, 2 management agent, 3 host window, 4 cooper. -/
def whoMatrix (i : Nat) : Who := (10, i)
def whoCode (w : Who) : Nat := w.1 * 4096 + w.2

/-- The two address words of an event. -/
def addrArgs (a : Nat) : List Nat := [a % 2 ^ 32, a / 2 ^ 32 % 2 ^ 16]

/-- UNMAPPED (R16, R483); `snode` is the source node for an optical port. -/
def evUnmapped (s : State) (w : Who) (a snode : Nat) : State :=
  emit s { code := 0x01, kind := w.1, unit := w.2, args := addrArgs a ++ [if w.1 = 3 then snode else nodeId s] }

/-- FOREIGN_BIN for one transaction or descriptor (R37, R483). -/
def evForeign (s : State) (w : Who) (a count : Nat) : State :=
  emit s { code := 0x02, kind := 2, unit := a / 0x4000000 % 64, args := addrArgs a ++ [whoCode w, count] }

/-- TR_DENIED (R154, R483). -/
def evTrDenied (s : State) (w : Who) (a snode : Nat) : State :=
  emit s { code := 0x03, kind := w.1, unit := w.2, args := addrArgs a ++ [if w.1 = 3 then snode else nodeId s] }

/-- REG_DENIED (R323, R460, R483). -/
def evRegDenied (s : State) (w : Who) (off snode : Nat) : State :=
  emit s { code := 0x04, kind := w.1, unit := w.2, args := [off, 0, if w.1 = 3 then snode else nodeId s] }

/-- A destroy-mode march of bin `m` is running: only the cooper may access the bin (R395). Operation 1 of the cooper is
MARCH_DESTROY. -/
def destroying (s : State) (m : Nat) : Bool := s.coop.busy && s.coop.op == 1 && s.coop.target == m

/-- Whether a domain may access a bin (R37, R395). -/
def mayUse (s : State) (dom bin : Nat) : Bool :=
  !destroying s bin && (dom == 0 || binOwner s bin == dom)

/-! ### Replacement and failed bins -/

/-- A replacement reason first met: the bit of INTEG.REPLACE and the message (R403). -/
def needReplace (s : State) (bit : Nat) : State :=
  if rbit s 0xD00C bit then s
  else
    let s := rsetBit s 0xD00C bit true
    emit s { code := 0x2B, args := [(rget s 0xD00C).toNat, (unitsWord s).toNat] }

/-- The replacement conditions of R403 judged. -/
def judgeReplace (s : State) : State :=
  let s := if 8 < corkedCount s then needReplace s 0 else s
  let s := if sparesUsed s = 4 then needReplace s 1 else s
  if 6 < lostPorts s then needReplace s 2 else s

/-- Spares chosen for a copy in progress or waiting for its slot edge count as taken. -/
def spareTaken (s : State) (k : Nat) : Bool :=
  rbit s 0x201C k || (s.coop.remap.map (·.2)) == some k || s.coop.remapDone.any (fun e => e.2 == k)

/-- The spare for bin `m` (R25): its own tier first, the lower number first. Tier 0 holds bins 0 to 31. -/
def chooseSpare (s : State) (m : Nat) : Option Nat :=
  let order := if m < 32 then [0, 1, 2, 3] else [2, 3, 0, 1]
  order.find? (fun k => !spareTaken s k)

/-- A failed bin with no free spare (R393). -/
def binFailed (s : State) (m cause : Nat) : State :=
  emitFault (rsetBit s 0xD000 5 true) { code := 0x25, kind := 2, unit := m, args := [cause] }

/-- The copy of bin `m` into spare `k` begins (R392); a preserve march of the bin stops. -/
def beginRemap (s : State) (m k : Nat) : State :=
  let s := emit s { code := 0x23, kind := 2, unit := m, args := [k] }
  let stop := s.coop.busy && s.coop.op == 2 && s.coop.target == m
  { s with coop := { s.coop with remap := some (m, k),
                                 busy := s.coop.busy && !stop,
                                 op := if stop then 0 else s.coop.op } }

/-- The next remap copy starts when none runs (R392): copies run one at a time, in order of failure. An entry of the
queue is bin + 64 × cause. -/
def startRemapFrom (s : State) : List Nat → State
  | [] => { s with coop := { s.coop with remapQ := [] } }
  | q :: rest =>
    match chooseSpare s (q % 64) with
    | none => startRemapFrom (binFailed s (q % 64) (q / 64)) rest
    | some k => beginRemap { s with coop := { s.coop with remapQ := rest } } (q % 64) k

def startRemap (s : State) : State :=
  if s.coop.remap.isSome then s else startRemapFrom s s.coop.remapQ

/-- Bin `m` fails (R391): cause 0 march, 1 UE limit, 2 CE limit. -/
def failBin (s : State) (m cause : Nat) : State :=
  let known := s.coop.remapQ.any (fun q => q % 64 == m) || (s.coop.remap.map (·.1)) == some m
    || s.coop.remapDone.any (fun e => e.1 == m)
  if known then s
  else startRemap { s with coop := { s.coop with remapQ := s.coop.remapQ ++ [m + 64 * cause] } }

/-! ### Error counts -/

/-- The bin that serves a physical key, none for the tasting room. -/
def keyBin (s : State) (k : Nat) : Option Nat :=
  if k < 0x100000000 then some (k / 0x4000000)
  else if k < 0x200000000 then none
  else (List.range 64).find? (fun m => rbit s (0x2100 + 4 * m) 8 && rfld s (0x2100 + 4 * m) 6 2 == (k - 0x200000000) / 0x4000000)

/-- The counts of one uncorrectable error at a physical word (R375, R391). -/
def countUe (s : State) (w : Nat) : State :=
  match keyBin s (4 * w) with
  | none => bump s 0xD04C 1
  | some m =>
    let n := smGet s.coop.binUe m 0 + 1
    let s := bump { s with coop := { s.coop with binUe := smPut s.coop.binUe m n } } (0xD200 + 4 * m) 1
    let lim := rfld s 0xD008 0 8
    if lim ≠ 0 ∧ n = lim then failBin s m 1 else s

/-- The address that an event names for a physical word: the bin's own address for a spare in use. -/
def wordAddr (s : State) (w : Nat) : Nat :=
  match keyBin s (4 * w) with
  | none => 4 * w
  | some m => m * 0x4000000 + 4 * w % 0x4000000

/-- One UE event with its counts (R375). -/
def recordUe (s : State) (who : Who) (w : Nat) : State :=
  let a := wordAddr s w
  let s := countUe s w
  match keyBin s (4 * w) with
  | none => emit s { code := 0x08, kind := 11, unit := 0, args := addrArgs a ++ [whoCode who] }
  | some m => emit s { code := 0x08, kind := 2, unit := m, args := addrArgs a ++ [whoCode who] }

/-- One UE_BLEND event with its counts (R47). -/
def recordUeBlend (s : State) (who : Who) (w : Nat) : State :=
  let a := wordAddr s w
  let s := countUe s w
  let tr := (keyBin s (4 * w)).isNone
  emit s { code := 0x09, kind := if tr then 11 else 2, unit := if tr then 0 else a / 0x4000000,
           args := [if tr then trBankOf a else bankOf a, if tr then trRowOf a else rowOf a, wordOf a, whoCode who] }

/-- The counts of one corrected word (R374, R391). -/
def countCeWord (s : State) (w : Nat) : State :=
  match keyBin s (4 * w) with
  | none => bump s 0xD048 1
  | some m =>
    bump { s with coop := { s.coop with binCe := smPut s.coop.binCe m (smGet s.coop.binCe m 0 + 1) } } (0xD100 + 4 * m) 1

/-- Corrections among `n` bytes read at a physical key (R374): counted, the stored word not rewritten. -/
def countCe (s : State) (k n : Nat) : State :=
  (s.mem.ceWords.filter (fun w => k / 4 ≤ w && w < (k + n + 3) / 4)).foldl countCeWord s

/-- Rows of 16 words (R26, R48) read, corrected and written back by a merge or a blend operation (R28, R45, R47): each single-bit
error but those of words that the write replaces whole is counted, and is gone from the row. -/
def correctRows (s : State) (rows whole : List Nat) : State :=
  let hit := fun (w : Nat) => rows.contains (w / 16) && !whole.contains w
  let s := (s.mem.ceWords.filter hit).foldl countCeWord s
  setMem s { s.mem with ceWords := s.mem.ceWords.filter (fun w => !hit w) }

/-- The rows that byte writes merge into, corrected (R28). -/
def correctMerges (s : State) (ps : List (Nat × Byte)) : State :=
  let ws := wordsTouched ps
  let whole := ws.filter (coversAll ps)
  correctRows s (((ws.filter (fun w => !whole.contains w)).map (· / 16)).eraseDups) whole

/-- UE events for each word in a list. -/
def recordUes (s : State) (who : Who) (ws : List Nat) : State := ws.foldl (fun s w => recordUe s who w) s
/-- UE_BLEND events for each word in a list. -/
def recordUeBlends (s : State) (who : Who) (ws : List Nat) : State := ws.foldl (fun s w => recordUeBlend s who w) s

/-- A sideband entry read that holds an error reads as the FAIL mark and is counted (R375). -/
def countSbUe (s : State) (who : Who) (blk : Nat) : State :=
  if s.mem.sbUe.contains blk then
    let a := wordAddr s (blk * 512)
    emit (bump s 0xD058 1) { code := 0x08, kind := 2, unit := a / 0x4000000 % 64, args := addrArgs a ++ [whoCode who] }
  else s

/-! ### The lot digests (R380) -/

/-- h(x) of R380. -/
def lotH (x : Word) : Word :=
  let y := x ^^^ 0xB5A42D63#32
  let y := y ^^^ (y >>> 16)
  let y := y * 0x6A5D39A9#32
  let y := y ^^^ (y >>> 15)
  let y := y * 0x94D049BB#32
  y ^^^ (y >>> 16)

/-- g(i) of R380. -/
def lotG (i : Nat) : Word :=
  let i := i % 2 ^ 64
  BitVec.ofNat 32 (i % 2 ^ 32) * 0x2C1B3C6D#32 + BitVec.ofNat 32 (i / 2 ^ 32) * 0x297A2D39#32

/-- The multiset and positional digests of a list of terms (x, i) (R380). -/
def lotSum (ts : List (Nat × Nat)) : Word × Word :=
  ts.foldl
    (fun acc t =>
      let x := BitVec.ofNat 32 t.1
      (acc.1 + lotH x, acc.2 + lotH (x ^^^ lotG t.2)))
    (0#32, 0#32)

/-- A computed pair as stored and sent: LOT_M of all ones is written as 0xFFFF_FFFE (R377). -/
def lotPair (v : Word × Word) : Word × Word :=
  if v.1 = 0xFFFFFFFF#32 then (0xFFFFFFFE#32, v.2) else v

/-- The terms of one element code: INT64 gives two, a crated element carries its scale byte (R380). -/
def lotTerms (f scale code i : Nat) : List (Nat × Nat) :=
  if f = 0x12 then [(code % 2 ^ 32, i), (Nat.xor (code / 2 ^ 32) 0xFFFFFFFF, i)]
  else if fmtCrated f then [(code + scale * 256, i)]
  else [(code, i)]

end Sys2Proof.Machine
end

