-- ==== Sys2Proof/Machine/Vintages.lean ====
section
/-!
DEFINITION. Machine/Vintages.lean: the handle table (R298 to R300), vintage commands (R301, R302, R304), pins and their
resolution (R303, R308), draining and release (R306, R307) and the rebuild of R310.
-/
namespace Sys2Proof.Machine

/-- CTL.VTAB.COUNT and LINE (R311). -/
def vtabCount (s : State) : Nat := rfld s 0x01D0 19 12
/-- Tasting-room byte offset of the entry of handle `h` (R298). -/
def handleOff (s : State) (h : Nat) : Nat := 64 * (rfld s 0x01D0 0 19 + h)

/-- The state code of a slot (R299). -/
def vstCode : VState → Nat
  | .empty => 0
  | .filling => 1
  | .current => 2
  | .draining => 3

def vstOf (c : Nat) : VState :=
  match c with
  | 1 => .filling
  | 2 => .current
  | 3 => .draining
  | _ => .empty

/-- The commit word (R299). -/
def commitWord (x : Handle) : Nat := x.flipseq.toNat * 65536 + (if x.cv then 4 else 0) + x.cur % 4
/-- Word 1 of an entry (R299). -/
def stateWord (x : Handle) : Nat :=
  ((List.range 4).map (fun v => vstCode (getSlot x v).st * 4 ^ v)).sum

/-- The write-back of words 0, 1, 14 and TAGv after a change of slot `v`, the commit word first (R300). -/
def writeBack (s : State) (h v : Nat) : State :=
  let x := getHandle s h
  let o := handleOff s h
  let s := trStore s o (leBytes 4 (commitWord x))
  let s := trStore s (o + 4) (leBytes 4 (stateWord x))
  let s := trStore s (o + 56) (leBytes 4 x.lastTag.toNat)
  trStore s (o + 4 * (4 + 3 * v)) (leBytes 4 (getSlot x v).tag.toNat)

/-- The slot of a handle that is CURRENT, where CV = 1. -/
def currentSlot (s : State) (h : Nat) : Option VSlot :=
  let x := getHandle s h
  if h ≤ vtabCount s ∧ h ≠ 0 ∧ x.cv then some (getSlot x x.cur) else none

/-! ### Commands -/

/-- A write of CTL.VCMD: one command pushed, or dropped at a full queue (R301). -/
def vcmdPush (s : State) (w : Word) : State :=
  if s.vint.queue.length < 16 then
    rset { s with vint := { s.vint with queue := s.vint.queue ++ [w] } } 0x01D4 w
  else bumpFld s 0x01D8 24 8 1

/-- A refused command (R302). -/
def vcmdRefuse (s : State) (w : Word) : State :=
  emit (bumpFld s 0x01D8 16 8 1) { code := 0x12, kind := 8, unit := vcmdHandle w, args := [w.toNat] }

/-- The effect of one command whose turn has come, or none where it must wait (R302, R304). -/
def vcmdApply (s : State) (w : Word) : Option State :=
  let h := vcmdHandle w
  let v := vcmdSlot w
  let x := getHandle s h
  let sl := getSlot x v
  if h = 0 ∨ vtabCount s < h then some (vcmdRefuse s w)
  else if vcmdOp w = 1 ∧ sl.st = .empty then
    let o := handleOff s h
    let base := leNat (trBytes s (o + 4 * (2 + 3 * v)) 4) / 2048 * 2048
    let size := leNat (trBytes s (o + 4 * (3 + 3 * v)) 4) % 2 ^ 22
    let tag : Word := if x.lastTag = 0xFFFFFFFF#32 then 1 else x.lastTag + 1
    let x := { setSlot x v { st := .filling, base := base, size := size, tag := tag } with lastTag := tag }
    some (writeBack (setHandle s h x) h v)
  else if vcmdOp w = 2 ∧ sl.st = .filling then
    if writerPinned s h v then none
    else
      let old := x.cur
      let x1 := if x.cv then setSlot x old { getSlot x old with st := .draining } else x
      let x2 := setSlot x1 v { sl with st := .current }
      some (writeBack (setHandle s h { x2 with cur := v, cv := true, flipseq := x.flipseq + 1 }) h v)
  else if vcmdOp w = 3 ∧ sl.st = .filling then
    if writerPinned s h v then none
    else some (writeBack (setHandle s h (setSlot x v { sl with st := .empty })) h v)
  else if vcmdOp w = 4 ∧ sl.st = .current then
    let x1 := setSlot x v { sl with st := .draining }
    some (writeBack (setHandle s h { x1 with cv := false, flipseq := x.flipseq + 1 }) h v)
  else some (vcmdRefuse s w)

/-- The queue applied in order; a waiting command holds back later commands of its handle (R301). -/
def vcmdRun (s : State) : List Word → List Word → State
  | [], kept => { s with vint := { s.vint with queue := kept } }
  | w :: rest, kept =>
    if kept.any (fun k => vcmdHandle k == vcmdHandle w) then vcmdRun s rest (kept ++ [w])
    else
      match vcmdApply s w with
      | some s' => vcmdRun s' rest kept
      | none => vcmdRun s rest (kept ++ [w])

/-- The slots that are DRAINING, as (handle, slot). -/
def drainingSlots (s : State) : List (Nat × Nat) :=
  s.vint.handles.flatMap (fun e =>
    (List.range 4).filterMap (fun v => if (getSlot e.2 v).st = .draining then some (e.1, v) else none))

/-- The vintage work of a slot edge (R301, R306): the commands, then the release of the slots that were DRAINING before
this edge and hold no pin. -/
def vintageEdge (s : State) : State :=
  if s.vint.built then
    let was := drainingSlots s
    let s := vcmdRun s s.vint.queue []
    was.foldl
      (fun s e =>
        let x := getHandle s e.1
        let sl := getSlot x e.2
        if sl.st = .draining ∧ slotPinned s e.1 e.2 = false then
          writeBack (setHandle s e.1 (setSlot x e.2 { sl with st := .empty })) e.1 e.2
        else s)
      s
  else s

/-- Storage of a slot touches bin `m` (R307). -/
def slotTouches (sl : VSlot) (m : Nat) : Bool :=
  sl.st != .empty && sl.size != 0
    && decide (sl.base / 0x4000000 ≤ m) && decide (m ≤ (sl.base + sl.size * 2048 - 1) / 0x4000000)

/-- Some slot that is not EMPTY holds bin `m` with its domain (R307). -/
def vintageHolds (s : State) (m : Nat) : Bool :=
  s.vint.handles.any (fun e => e.2.slots.any (fun sl => slotTouches sl m))

/-- A handle as the entry in the tasting room gives it (R310). -/
def builtHandle (s : State) (h : Nat) : Handle :=
  let w := fun i => wordAt (trBytes s (handleOff s h) 64) (4 * i)
  let cv := bitAt (w 0) 2
  let cur := fld (w 0) 0 2
  let slot := fun v =>
    let st := vstOf (fld (w 1) (2 * v) 2)
    { st := if cv && v == cur then .current else if st == .current then .draining else st,
      base := (w (2 + 3 * v)).toNat / 2048 * 2048,
      size := fld (w (3 + 3 * v)) 0 22,
      tag := w (4 + 3 * v) }
  { flipseq := BitVec.ofNat 16 (fld (w 0) 16 16), cv := cv, cur := cur,
    slots := (List.range 4).map slot, lastTag := w 14 }

/-- Every handle built at an image load (R310). -/
def buildHandles (s : State) : State :=
  let hs := (List.range (vtabCount s)).filterMap (fun i =>
    let x := builtHandle s (i + 1)
    if x = {} then none else some (i + 1, x))
  { s with vint := { s.vint with handles := hs, built := true } }

/-! ### Resolution at pickup (R303) -/

/-- The resolution of one latched record: what it becomes and the pin it takes, or none for VINTAGE_GONE. -/
def resolveRec (s : State) (words : List Word) (dvx : Option Nat) : Option (LRec × Option Pin) :=
  let r := recOf words
  if r.table = 0 then some ({ words := words }, none)
  else
    match dvx with
    | some v =>
      let sl := getSlot (getHandle s r.table) v
      if r.table ≤ vtabCount s ∧ sl.st = .filling then
        some ({ words := words, res := .pinned sl.base sl.tag }, some ⟨r.table, v, true⟩)
      else none
    | none =>
      if r.sharded then
        match currentSlot s r.table with
        | some sl => some ({ words := words, res := .pinned sl.base sl.tag }, some ⟨r.table, (getHandle s r.table).cur, false⟩)
        | none => some ({ words := words, res := .missing }, none)
      else if r.base / 2 ^ 48 % 2 ^ 16 = nodeId s then
        match currentSlot s r.table with
        | some sl => some ({ words := words, res := .pinned sl.base sl.tag }, some ⟨r.table, (getHandle s r.table).cur, false⟩)
        | none => none
      else some ({ words := words, res := .remote }, none)

/-- The vintage tag of a locally resolved record (R198): 0 for a plain one. -/
def LRec.tag (l : LRec) : Word :=
  match l.res with
  | .pinned _ t => t
  | _ => 0

end Sys2Proof.Machine
end

