-- ==== Sys2Proof/Machine/Links.lean ====
section
/-!
DEFINITION. Machine/Links.lean: transactions on their way out: channels and lengths (R325), routing (R331 to R333),
queueing, framing with credits and arbitration (R319, R320, R330), and pool blocks (R41).
-/
namespace Sys2Proof.Machine

/-- The virtual channel of a TYPE (R325). -/
def vcOf (typ : BitVec 4) : Nat :=
  match typ.toNat with
  | 0 => 0
  | 1 => 2
  | 2 => 2
  | 3 => 2
  | 8 => 1
  | 9 => 1
  | _ => 3

/-- Transaction bytes: the 48 B header, payload lines and byte masks (R324, R327). -/
def txnBytes (t : Txn) : Nat :=
  48 + t.data.length + 8 * t.bmasks.length

/-- Credits of a transaction, in units of 16 B (R320). -/
def txnUnits (t : Txn) : Nat := ceilDiv (txnBytes t) 16

/-- The ALT fields of a route entry, ALT0 first (R331). -/
def routeAlts (s : State) (node : Nat) : List Nat :=
  let e := smGet s.fab.route node 0
  (List.range 4).map (fun i => e / 64 ^ i % 64)

/-- The usable ALT ports of a node's entry, in ALT order. -/
def usableAlts (s : State) (node : Nat) : List Nat :=
  (routeAlts s node).filter (fun n => n < 48 && usable s n)

/-- The group entry of `g` (R344): MEMBERS and the node of each receiver. -/
def groupMembers (s : State) (g : Nat) : BitVec 64 :=
  BitVec.ofNat 64 (leNat (trBytes s (64 * rfld s 0x800C 0 19 + 256 * g) 8))
def groupNode (s : State) (g r : Nat) : Nat :=
  leNat (trBytes s (64 * rfld s 0x800C 0 19 + 256 * g + 64 + 2 * r) 2)

/-- The receivers of a mask, in rising number. -/
def maskBits (m : BitVec 64) : List Nat := (List.range 64).filter (fun i => m.getLsbD i)
def maskOf (l : List Nat) : BitVec 64 :=
  l.foldl (fun m i => m ||| (1#64 <<< i)) 0#64

/-- Two VC2 transactions of one flow (R328). -/
def sameFlow (a b : Txn) : Bool := a.snode == b.snode && a.dnode == b.dnode

/-- A queued or unacknowledged transaction belongs to the flow of a VC2 transaction: a MULTICAST_WRITE where the destination is one of
its receivers (R328). -/
def ofFlow (s : State) (x t : Txn) : Bool :=
  ((x.typ == 1 || x.typ == 2) && sameFlow x t)
    || (x.typ == 3 && x.snode == t.snode
        && (maskBits x.mask).any (fun r => groupNode s x.group.toNat r == t.dnode.toNat))

/-- The port of the latest earlier transaction of the flow that is queued or unacknowledged (R332). -/
def flowPort (s : State) (t : Txn) : Option Nat :=
  ((s.fab.ports.flatMap (fun e =>
      ((e.2.wait ++ e.2.unacked).filter (fun x => ofFlow s x.txn t)).map (fun x => (x.order, e.1)))).foldl
    (fun (b : Option (Nat × Nat)) x => match b with
      | none => some x
      | some y => if y.1 < x.1 then some x else some y)
    none).map (·.2)

/-- The first of the ports with the most credits on a channel (R332). -/
def mostCredits (s : State) (vc : Nat) : List Nat → Option Nat
  | [] => none
  | n :: rest =>
    match mostCredits s vc rest with
    | none => some n
    | some k =>
      if nth (getPort s n).credits vc 0 < nth (getPort s k).credits vc 0 then some k else some n

/-- The egress port of a routed transaction (R332). -/
def chooseRoute (s : State) (t : Txn) : Option Nat :=
  let alts := usableAlts s t.dnode.toNat
  if t.typ = 1 ∨ t.typ = 2 then
    match flowPort s t with
    | some n => some n
    | none => mostCredits s (vcOf t.typ) alts
  else if t.typ = 3 then alts.head?
  else mostCredits s (vcOf t.typ) alts

/-! ### Flits and codewords on their way (R316, R318, R319) -/

/-- Flits that a port has formed, acknowledged ones included. -/
def Port.formed (p : Port) : Nat := p.acked + p.flits.length

/-- A flit put on the wire: laid behind the bits already there, and each full payload sent as a codeword on the wavelength whose turn it
is (R316). -/
def layFlit (s : State) (n : Nat) (bytes : List Byte) : State :=
  let s := sendOut s (.flit n bytes)
  let p := getPort s n
  let v := p.txBits + leNat bytes * 2 ^ p.txHave
  let have' := p.txHave + 2048
  if have' < 5140 then setPort s n { p with txBits := v, txHave := have' }
  else
    let up := lanesUp p.up
    sendOut (setPort s n { p with txBits := v / 2 ^ 5140, txHave := have' - 5140, txLane := p.txLane + 1 })
      (.codeword n (nth up (p.txLane % up.length) 0) (rsEncode (payloadSymbols (v % 2 ^ 5140))))

/-- A flit formed from transaction bytes, with the acknowledgement and the credits that are due (R318). -/
def formFlit (s : State) (n : Nat) (body : List Byte) : State :=
  let p := getPort s n
  let b := flitBytes body p.formed (p.rxSeq - 1).toNat p.nakDue (p.owed.map (min 4095))
  layFlit (setPort s n { p with owed := p.owed.map (· - 4095), nakDue := false, flits := p.flits ++ [b] }) n b

/-- The flit that carries acknowledgement, NAK and credit returns back to the link partner where no transaction bytes do. It waits while
2,048 flits are unacknowledged (R319). -/
def answerLink (s : State) (n : Nat) : State :=
  if usable s n && (getPort s n).flits.length < 2048 then formFlit s n [] else s

/-- The transaction bytes of a port that are in no flit yet packed into flits, the last one filled with zeros (R318, log 98). -/
def packFlits (s : State) (n : Nat) : Nat → State
  | 0 => s
  | k + 1 =>
    let p := getPort s n
    if p.txBuf.isEmpty then s
    else packFlits (formFlit (setPort s n { p with txBuf := p.txBuf.drop 240 }) n (p.txBuf.take 240)) n k

/-- A transaction leaves the receive side of port `n`, and its credits return, or are kept back while the
port is at its quota (R42, R320). -/
def takeRx (s : State) (n vc bytes : Nat) (keep : Bool) (mine : Txn → Bool) : State :=
  let p := getPort s n
  let u := ceilDiv bytes 16
  let p := { p with rxIn := p.rxIn.eraseP mine }
  let p := if keep then { p with kept := p.kept.set vc (nth p.kept vc 0 + u) }
    else { p with owed := p.owed.set vc (nth p.owed vc 0 + u) }
  answerLink (setPort s n p) n

/-- Credits kept back return on the first clock on which the occupancy is below the quota (R42, R44). -/
def resumeCredits (s : State) (n : Nat) : State :=
  let p := getPort s n
  if overqPort s n || p.kept.all (· == 0) then s
  else
    let owed := (List.range 4).map (fun i => nth p.owed i 0 + nth p.kept i 0)
    answerLink (setPort s n { p with owed := owed, kept := [0, 0, 0, 0] }) n

/-! ### Pool blocks (R41) -/

def chargePort (s : State) (n : Nat) : State := bumpFld s (0x2400 + 4 * n) 0 22 1
def dischargePort (s : State) (n : Nat) : State :=
  resumeCredits (rsetFld s (0x2400 + 4 * n) 0 22 (portOcc s n - 1)) n
def chargeStream (s : State) (st : Nat) : State := bumpFld s (0x2C00 + 4 * st) 0 22 1
def dischargeStream (s : State) (st : Nat) : State := rsetFld s (0x2C00 + 4 * st) 0 22 (streamOcc s st - 1)

/-- The local address of the k-th block of the pool bins. -/
def poolAddr (s : State) (k : Nat) : Nat := nth (poolBins s) (k / 32768) 0 * 0x4000000 + 2048 * (k % 32768)

/-- The first pool block from `k` on that holds no data of a port; `fuel` bounds the search. -/
def freeBlock (s : State) (k : Nat) : Nat → Nat
  | 0 => k % poolBlocks s
  | n + 1 => if s.fab.poolUsed.contains (k % poolBlocks s) then freeBlock s (k + 1) n else k % poolBlocks s

/-- A pool block charged to a port (R41). Which free block it is stays open (log 100). -/
def takePool (s : State) (port : Nat) : State × Nat :=
  let k := freeBlock s (Config.freeKey s.draw) s.fab.poolUsed.length
  let s := chargePort { s with draw := s.draw + 1 } port
  ({ s with fab := { s.fab with poolUsed := s.fab.poolUsed ++ [k] } }, k)

/-- Data that entered through a port written into its pool block (R17). -/
def fillPool (s : State) (k : Nat) (data : List Byte) : State := (storeUnchecked s (byteRun (poolAddr s k) data)).1

/-- A pool block charged to a port is released. -/
def dropPool (s : State) (port k : Nat) : State :=
  dischargePort { s with fab := { s.fab with poolUsed := s.fab.poolUsed.erase k } } port

/-- A transaction with its data as its pool block holds them (R17). -/
def fromPool (s : State) (k : Nat) (t : Txn) : Txn := { t with data := localBytes s (poolAddr s k) t.data.length }

/-! ### Framing -/

/-- The index of the first waiting transaction that may start on channel `vc`. -/
def firstOn (p : Port) (vc : Nat) : Option Nat :=
  p.wait.findIdx? (fun x => vcOf x.txn.typ == vc)

/-- Whether the flits of a transaction stay within the 2,048 that may be unacknowledged (R319). -/
def flitRoom (p : Port) (t : Txn) : Bool := decide (p.flits.length + ceilDiv (p.txBuf.length + txnBytes t) 240 ≤ 2048)

/-- Whether channel `vc` has a transaction with enough credits at its head. -/
def canSend (p : Port) (vc : Nat) : Option Nat :=
  match firstOn p vc with
  | none => none
  | some i =>
    match p.wait[i]? with
    | none => none
    | some x => if txnUnits x.txn ≤ nth p.credits vc 0 && flitRoom p x.txn then some i else none

/-- The channel taken next (R330): VC3 first, then VC0 to VC2 in round-robin after the one last taken. -/
def nextVc (p : Port) : Option (Nat × Nat) :=
  match canSend p 3 with
  | some i => some (3, i)
  | none =>
    [1, 2, 3].findSome? (fun k =>
      let vc := (p.lastVc + k) % 3
      (canSend p vc).map (fun i => (vc, i)))

/-- A fabric time in the format of R122: seconds and nanoseconds. -/
def timeStamp (t : Nat) : List Byte := beBytes 6 (t / 10 ^ 9) ++ beBytes 4 (t % 10 ^ 9)

/-- The payload line of a TIME frame (R354): a fabric time, the message type and the sequenceId. -/
def timeFrame (kind : Nat) (seqId : BitVec 16) (stamp : Nat) : List Byte :=
  timeStamp stamp ++ [BitVec.ofNat 8 kind, 0#8] ++ beBytes 2 seqId.toNat ++ List.replicate 50 0#8

/-- What the instant at which a TIME frame crosses the port sets (R122, R354): a Sync's is t1, which its Follow_Up carries, and a
Delay_Req's is t3 of the port's exchange. -/
def stampTime (s : State) (n : Nat) (p : Port) (t : Txn) : State × Port × Txn :=
  let now := s.time.ftime
  if t.typ ≠ 6 then (s, p, t)
  else
    match (nth t.data 10 0).toNat with
    | 0 => (s, { p with syncAt := now }, t)
    | 8 => (s, p, { t with data := timeStamp p.syncAt.toNat ++ t.data.drop 10 })
    | 1 =>
      let e := { (smGet s.time.exch n {}) with t3 := some now }
      ({ s with time := { s.time with exch := smPut s.time.exch n e } }, p, t)
    | _ => (s, p, t)

/-- One transaction framed on port `n`. -/
def frameOne (s : State) (n : Nat) (p : Port) (vc i : Nat) : State :=
  match p.wait[i]? with
  | none => s
  | some x =>
    let y := stampTime s n p x.txn
    let s := y.1
    let p := y.2.1
    let x := { x with txn := match x.ingress with
      | some e => if y.2.2.data.isEmpty then y.2.2 else fromPool s e.2 y.2.2
      | none => y.2.2 }
    let buf := p.txBuf ++ txnStream x.txn
    let p := { p with
      wait := p.wait.eraseIdx i,
      credits := p.credits.set vc (nth p.credits vc 0 - txnUnits x.txn),
      lastVc := if vc = 3 then p.lastVc else vc,
      txBuf := buf,
      unacked := p.unacked ++ [{ x with lastFlit := p.formed + (buf.length - 1) / 240 }] }
    sendOut (setPort s n p) (.frame n x.txn)

/-- Framing goes on while credits allow (R319, R320); `fuel` is the number of waiting transactions. -/
def pumpPort (s : State) (n : Nat) : Nat → State
  | 0 => s
  | k + 1 =>
    if usable s n then
      match nextVc (getPort s n) with
      | none => s
      | some (vc, i) => pumpPort (frameOne s n (getPort s n) vc i) n k
    else s

/-- What a port may frame is framed, and leaves in flits. -/
def pump (s : State) (n : Nat) : State :=
  let s := pumpPort s n (getPort s n).wait.length
  packFlits s n ((getPort s n).txBuf.length / 240 + 1)

/-- A transaction queued on a port and framed as credits allow. -/
def enqueue (s : State) (n : Nat) (e : TxEntry) : State :=
  let p := getPort s n
  let k := s.fab.nextOrder
  let s := { s with fab := { s.fab with nextOrder := k + 1 } }
  pump (setPort s n { p with wait := p.wait ++ [{ e with order := k }] }) n

/-- The count of a transaction that could not be forwarded, and its event once per 1,024 (R333). -/
def countUnrouted (s : State) (port : Nat) (dnode : BitVec 16) (hops : Bool) : State :=
  let off := if hops then 0x8044 else 0x8040
  let n := (rget s off).toNat
  let s := bump s off 1
  if n % 1024 = 0 then
    emit s { code := 0x1A, kind := 3, unit := port, args := [dnode.toNat, if hops then 1 else 0] }
  else s

/-- A transaction of this node's own leaves with HOPS = 63 (R333). The answer says whether a route was found. -/
def sendTxn (s : State) (t : Txn) (pin : Option Pin) (own : Option Nat) : State × Bool :=
  let t := { t with hops := 63, snode := BitVec.ofNat 16 (nodeId s) }
  match chooseRoute s t with
  | some n => (enqueue s n { txn := t, pin := pin, own := own }, true)
  | none => (countUnrouted s 0 t.dnode false, false)

/-- The next BLOCKID of this node (R324). -/
def takeIdent (s : State) : Word × State :=
  (s.fab.nextIdent, { s with fab := { s.fab with nextIdent := s.fab.nextIdent + 1 } })

/-- The next key of an own transaction. -/
def takeKey (s : State) : Nat × State :=
  (s.fab.nextKey, { s with fab := { s.fab with nextKey := s.fab.nextKey + 1 } })

def getOut (s : State) (key : Nat) : Option OutTxn := s.fab.outs.find? (fun o => o.key == key)
/-- The own transaction on its way that a BLOCKID names. -/
def outByIdent (s : State) (id : Word) : Option OutTxn := s.fab.outs.find? (fun o => !o.held && o.ident == id)
def setOuts (s : State) (os : List OutTxn) : State := { s with fab := { s.fab with outs := os } }
def setOut (s : State) (o : OutTxn) : State :=
  setOuts s (s.fab.outs.map (fun x => if x.key == o.key then o else x))
def addOut (s : State) (o : OutTxn) : State := setOuts s (s.fab.outs ++ [o])

def dropOut (s : State) (key : Nat) : State := setOuts s (s.fab.outs.filter (fun x => x.key != key))

/-- A transaction that is acknowledged, pruned or timed out for every receiver gives its pool block back (R41, R339, R347). It leaves
the table once no check of it is awaited, as one that fails would still recall it (R352). -/
def retireOut (s : State) (key : Nat) : State :=
  match getOut s key with
  | none => s
  | some o =>
    if o.acked then
      let s := if o.poolBlock then dischargeStream s o.stream else s
      if o.toPass.isEmpty then dropOut s key else setOut s { o with poolBlock := false }
    else s

/-- Copies of a MULTICAST_WRITE towards its receivers other than this node: one per port of R332, with MASK reduced to
the receivers behind it (R346). The answer gives the receivers for which no route was found. -/
def sendMulticast (s : State) (t : Txn) (rs : List (Nat × Nat)) (ingress : Option (Nat × Nat)) (own : Option Nat) :
    State × List Nat :=
  let port := fun (r : Nat × Nat) => chooseRoute s { t with dnode := BitVec.ofNat 16 r.2 }
  let ports := (rs.filterMap port).eraseDups
  let lost := (rs.filter (fun r => (port r).isNone)).map (·.1)
  let s := ports.foldl
    (fun s n =>
      let mine := (rs.filter (fun r => port r == some n)).map (·.1)
      enqueue s n { txn := { t with mask := maskOf mine }, ingress := ingress, own := own })
    s
  let s := lost.foldl (fun s _ => countUnrouted s ((ingress.map (·.1)).getD 0) t.dnode false) s
  (s, lost)

/-- A held own transaction leaves under the next BLOCKID (R324, R340, R342, R345); a multicast block goes to the receivers that are
still live. One with no usable route is answered UNREACHABLE at once (R333) and says so. -/
def releaseOut (s : State) (key : Nat) : State × Bool :=
  match getOut s key with
  | none => (s, true)
  | some o =>
    let t := takeIdent s
    let s := t.2
    let o := { o with ident := t.1, held := false, queued := true, txn := { o.txn with ident := t.1 } }
    if o.multicast then
      let live := o.receivers
      let o := { o with receivers := live, waitMask := maskOf (live.map (·.1)),
                        txn := { o.txn with mask := maskOf (live.map (·.1)) } }
      let s := setOut s o
      let x := { o.txn with hops := 63, snode := BitVec.ofNat 16 (nodeId s) }
      let r := sendMulticast s x live none (some key)
      match getOut r.1 key with
      | none => (r.1, r.2.isEmpty)
      | some o =>
        let wm := maskOf ((maskBits o.waitMask).filter (fun i => !r.2.contains i))
        let o := { o with waitMask := wm, acked := o.acked || wm == 0, sent := o.sent || wm == 0,
                          receivers := o.receivers.filter (fun x => !r.2.contains x.1) }
        (retireOut (setOut r.1 o) key, r.2.isEmpty)
    else
      let s := setOut s o
      let r := sendTxn s o.txn none (some key)
      if r.2 then r
      else (retireOut (setOut r.1 { o with sent := true, acked := true, toPass := [] }) key, false)

end Sys2Proof.Machine
end

