-- ==== Sys2Proof/Machine/Clock.lean ====
section
/-!
DEFINITION. Machine/Clock.lean: fabric time (R119 to R126): counting, roles, link exchanges, correction, holdover and the
time pulses.
-/
namespace Sys2Proof.Machine

/-! ### Counting -/

/-- Units of `Time.frac` in one ns: a control clock is 40/21 ns, and rate corrections are in parts per 10⁹. -/
def unitsPerNs : Nat := 21 * 10 ^ 9
/-- Units of one control clock at the nominal rate. -/
def unitsPerClock : Nat := 40 * 10 ^ 9

/-- Fabric time in units. -/
def timeUnits (s : State) : Nat := s.time.ftime.toNat * unitsPerNs + s.time.frac
/-- Fabric time set from units, modulo 2^64 ns. -/
def setTimeUnits (s : State) (u : Int) : State :=
  let v := (u % (2 ^ 64 * unitsPerNs : Int)).toNat
  { s with time := { s.time with ftime := BitVec.ofNat 64 (v / unitsPerNs), frac := v % unitsPerNs } }

/-- The role in effect (R120): 0 FREE, 1 GRANDMASTER, 2 FOLLOWER. -/
def timeRole (s : State) : Nat :=
  let r := rfld s 0x1008 0 2
  if r = 1 then 1 else if r = 2 ∧ rfld s 0x1008 8 6 < 48 then 2 else 0

/-- SRC_PORT and ALT_PORT of a follower; 48 to 63 name none. -/
def srcPort (s : State) : Nat := rfld s 0x1008 8 6
def altPort (s : State) : Nat := rfld s 0x1008 16 6
/-- Port `n` is a source port of this node (R122). -/
def isSource (s : State) (n : Nat) : Bool := timeRole s == 2 && n < 48 && (srcPort s == n || altPort s == n)

/-- The rate correction in use, in parts per 10⁹ (R123, R125): the last one while an offset remains or in holdover. -/
def rateNow (s : State) : Int :=
  if s.time.slew ≠ 0 ∨ rbit s 0x1004 4 then (rget s 0x101C).toInt else 0

/-- Units of fabric time in one control clock at the rate in use. -/
def clockUnits (s : State) : Int := unitsPerClock + 40 * rateNow s

/-- The next slot edge after a new Λ (R127): the next whole multiple of Λ, later than now. -/
def planEdge (s : State) : State :=
  { s with time := { s.time with nextEdge := (s.time.ftime.toNat / lambda s + 1) * lambda s } }

/-- The next slot edge after a jump of fabric time (R21, R130): the first whole multiple of Λ that is not before now. -/
def jumpEdge (s : State) : State :=
  { s with time := { s.time with nextEdge := ceilDiv (timeUnits s) (lambda s * unitsPerNs) * lambda s } }

/-- A step by an offset in ps (R123); what was due for slewing is gone with it, and CAL.FREQ_ADJ reads 0 (log 81). A step that
REACQUIRE permits clears that bit. -/
def stepTime (s : State) (off : Int) : State :=
  let s := setTimeUnits s ((timeUnits s : Int) - off * 21000000)
  let s := jumpEdge (rset { s with time := { s.time with slew := 0, stepDue := none } } 0x101C 0)
  if s.time.runSeen then rsetBit s 0x1000 1 false else s

/-- What the clock's slewing has removed (R123). -/
def slewClock (s : State) (extra : Int) : State :=
  let left := s.time.slew - extra
  let done := s.time.slew = 0 ∨ (0 < s.time.slew ∧ left ≤ 0) ∨ (s.time.slew < 0 ∧ 0 ≤ left)
  { s with time := { s.time with slew := if done then 0 else left } }

/-- One control clock of counting (R119), with its slewing or the step that is due on it (R123). -/
def countClock (s : State) : State :=
  if s.time.counting then
    let u := clockUnits s
    let s := setTimeUnits { s with time := { s.time with clocks := s.time.clocks + 1 } } ((timeUnits s : Int) + u)
    let s := slewClock s (u - unitsPerClock)
    match s.time.stepDue with
    | some off => stepTime s off
    | none => s
  else s

/-! ### Validity and lock -/

/-- Fabric time becomes valid, and stays so until reset (R120, R144). -/
def setValid (s : State) : State := rsetBit s 0x1004 2 true

/-- What R120 and R144 make of TIME_VALID and LOCKED when a role is taken: FREE is valid and locked from the end of boot on; another
role clears neither (log 13). R125's times count from here. -/
def takeRole (s : State) : State :=
  let s := { s with time := { s.time with srcAt := s.time.clocks, linkAt := s.time.clocks } }
  if timeRole s = 0 ∧ s.time.counting then rsetBit (setValid s) 0x1004 3 true else s

/-- LOCKED judged from an offset in ps (R123): three in a row within 10 ns set it, one above 100 ns clears it. A follower's
time is valid from the first lock, and holdover ends with it (R120, R125). -/
def judgeLock (s : State) (off : Int) : State :=
  let near := off.natAbs ≤ 10000
  let streak := if near then min 3 (s.time.streak + 1) else 0
  let s := { s with time := { s.time with streak := streak } }
  let s := if 100000 < off.natAbs then rsetBit s 0x1004 3 false else s
  if streak = 3 then
    let s := rsetBit (rsetBit s 0x1004 3 true) 0x1004 4 false
    if timeRole s = 2 then setValid s else s
  else s

/-! ### Correction (R123) -/

/-- Slewing by an offset in ps: a rate within ±500 ppm that R123 does not fix further, until the offset is removed. -/
def slewTime (s : State) (off : Int) : State :=
  if off = 0 then rset { s with time := { s.time with slew := 0 } } 0x101C 0
  else
    let mag := 1 + Config.slewRate s.draw % 500000
    let rate : Int := if 0 < off then -(mag : Int) else mag
    let s := { drawn s with time := { s.time with slew := -off * 21000000 } }
    rset s 0x101C (BitVec.ofInt 32 rate)

/-- An offset in ps as CAL.OFFSET shows it; half nanoseconds and values beyond the field are free (log 37). -/
def offsetShown (s : State) (off : Int) : State :=
  let f := off / 1000
  let ns := if off % 1000 = 0 then f else if Config.freeBool s.draw then f + 1 else f
  let w : Word := if -(2 ^ 31) ≤ ns ∧ ns < 2 ^ 31 then BitVec.ofInt 32 ns else BitVec.ofNat 32 (Config.timeBeyond s.draw)
  rset (drawn s) 0x1014 w

/-- The correction that an offset in ps brings (R123): a step on the next control clock, or slewing. -/
def correct (s : State) (off : Int) : State :=
  let s := offsetShown s off
  let step := (!s.time.runSeen && 1000000 < off.natAbs) || (!running s && s.time.runSeen && rbit s 0x1000 1)
  let s := if step then { s with time := { s.time with stepDue := some off } } else slewTime s off
  judgeLock s off

/-! ### The link exchange (R122, R354) -/

/-- A TIME frame queued on a port; it travels one hop, and `stampTime` dates it when it leaves (R354). -/
def sendTime (s : State) (n kind : Nat) (seqId : BitVec 16) (stamp : Nat) : State :=
  enqueue s n { txn := { typ := 6, hops := 0, snode := BitVec.ofNat 16 (nodeId s), data := timeFrame kind seqId stamp } }

/-- The SYNC mark of a slot (R122, R132): a Sync and its Follow_Up on every trained master port of the named tiles. -/
def syncMark (s : State) (tiles : Nat) : State :=
  let q := s.time.syncSeq
  let s := { s with time := { s.time with syncSeq := q + 1 } }
  ((List.range 48).filter (fun n => tiles / 2 ^ (n / 8) % 2 == 1 && usable s n && !isSource s n)).foldl
    (fun s n => sendTime (sendTime s n 0x0 q 0) n 0x8 q 0) s

/-- The exchange of a source port. -/
def getExch (s : State) (n : Nat) : Exch := smGet s.time.exch n {}
def setExch (s : State) (n : Nat) (e : Exch) : State :=
  { s with time := { s.time with exch := smPut s.time.exch n e } }

/-- FAB.PORT_ASYM of a port, in ps. -/
def portAsym (s : State) (n : Nat) : Int := ((rget s (0x8404 + 32 * n)).setWidth 16).toInt

/-- The port from which time is taken now (R125). -/
def timePort (s : State) : Nat := if rbit s 0x1004 5 then altPort s else srcPort s

/-- Difference of two timestamps as a signed number. -/
def stampDiff (a b : BitVec 64) : Int := (a - b).toInt

/-- The exchanges in a row on SRC_PORT while the alternate is in use (R125): the third returns to it. -/
def countSource (s : State) (n : Nat) : State :=
  if rbit s 0x1004 5 && n == srcPort s then
    let k := s.time.srcStreak + 1
    if k < 3 then { s with time := { s.time with srcStreak := k } }
    else rsetBit { s with time := { s.time with srcStreak := 0 } } 0x1004 5 false
  else s

/-- The times of R125 count anew from an exchange completed on port `n`. -/
def exchangeAt (s : State) (n : Nat) : State :=
  { s with time := { s.time with
      srcAt := if n = srcPort s then s.time.clocks else s.time.srcAt, linkAt := s.time.clocks } }

/-- An exchange completed on a source port (R122, R125): its offset, its path delay and the return to SRC_PORT. -/
def exchangeDone (s : State) (n : Nat) (t1 t2 t3 t4 : BitVec 64) : State :=
  let s := setExch s n {}
  let there := stampDiff t2 t1
  let back := stampDiff t4 t3
  let off := 500 * (there - back) - portAsym s n
  let s := countSource (exchangeAt s n) n
  if n = timePort s then
    let both := there + back
    let ns := if both % 2 = 0 then both / 2 else if Config.freeBool s.draw then both / 2 + 1 else both / 2
    let v := if 0 ≤ ns ∧ ns < 2 ^ 24 then ns.toNat else Config.timeBeyond s.draw % 2 ^ 24
    correct (rset (drawn s) 0x1018 (BitVec.ofNat 32 v)) off
  else s

/-- An exchange completes once all four timestamps are known. -/
def tryExchange (s : State) (n : Nat) : State :=
  match getExch s n with
  | { t1 := some t1, t2 := some t2, t3 := some t3, t4 := some t4, .. } => exchangeDone s n t1 t2 t3 t4
  | _ => s

/-- The credits of a received TIME frame, which is told by its messageType (R354). -/
def takeTime (s : State) (n kind : Nat) : State :=
  takeRx s n 3 112 false (fun t => t.typ == 6 && (nth t.data 10 0#8).toNat == kind)

/-- An exchange of SRC_PORT that a new Sync finds without its end breaks the row of R125. -/
def breakRow (s : State) (n : Nat) : State :=
  if n = srcPort s ∧ (getExch s n).t2.isSome then { s with time := { s.time with srcStreak := 0 } } else s

/-- SYNC: t2 is recorded on a source port, and a Delay_Req is sent, whose leaving is t3 (R122). -/
def syncReceived (s : State) (n : Nat) (q : BitVec 16) : State :=
  let s := takeTime s n 0x0
  if isSource s n && usable s n then
    sendTime (setExch (breakRow s n) n { seqId := q, t2 := some s.time.ftime }) n 0x1 q 0
  else s

/-- FOLLOW_UP: t1 of the exchange (R122). -/
def followUpReceived (s : State) (n : Nat) (q : BitVec 16) (t1 : BitVec 64) : State :=
  let s := takeTime s n 0x8
  let e := getExch s n
  if isSource s n && e.t2.isSome && e.seqId == q then tryExchange (setExch s n { e with t1 := some t1 }) n else s

/-- DELAY_REQ: a master port answers with t4 (R122). -/
def delayReqReceived (s : State) (n : Nat) (q : BitVec 16) : State :=
  let s := takeTime s n 0x1
  if usable s n && !isSource s n then sendTime s n 0x9 q s.time.ftime.toNat else s

/-- DELAY_RESP: t4 of the exchange (R122). -/
def delayRespReceived (s : State) (n : Nat) (q : BitVec 16) (t4 : BitVec 64) : State :=
  let s := takeTime s n 0x9
  let e := getExch s n
  if isSource s n && e.t3.isSome && e.seqId == q then tryExchange (setExch s n { e with t4 := some t4 }) n else s

/-! ### Pulses (R121, R126, R494) -/

/-- The period of FTIME_PULSE_IN in ns (R121). -/
def pulsePeriod (s : State) : Nat := if rbit s 0x1008 2 then 1000000 else 1000000000

/-- CAL.EPOCH. -/
def epoch (s : State) : Nat := (rget s 0x1020).toNat + 2 ^ 32 * (rget s 0x1024).toNat

/-- The offset in ps of fabric time from the nearest multiple of the period; a tie is free. -/
def pulseOffset (s : State) : Int :=
  let p := pulsePeriod s * unitsPerNs
  let r := timeUnits s % p
  let up := p < 2 * r || (2 * r == p && Config.freeBool s.draw)
  let d : Int := if up then (r : Int) - p else r
  d / 21000000

/-- The interval of the instants that POUT selects, 0 for none (R126). -/
def poutPeriod (s : State) : Nat :=
  match rfld s 0x1008 3 2 with
  | 1 => 1000000000
  | 2 => 4096 * lambda s
  | 3 => 1000000
  | _ => 0

/-- This control clock is the one that R21 gives a selected instant. -/
def atInstant (s : State) : Bool :=
  poutPeriod s != 0 && decide (((timeUnits s % (poutPeriod s * unitsPerNs) : Nat) : Int) < clockUnits s)

/-- FTIME_PULSE_OUT rises, for 100 ns: until the first control clock by which they have passed, 53 clocks (R126, log 82). -/
def raisePulse (s : State) : State := { s with time := { s.time with pulseOutEnd := some (s.time.clocks + 53) } }

/-- FTIME_PULSE_OUT on the control clock of a selected instant (R126). -/
def pulseOut (s : State) : State := if s.time.counting && atInstant s then raisePulse s else s

/-- A selected instant lies after `old` and not after now (R21, R126). -/
def pulseOutDue (s : State) (old : Nat) : Bool :=
  let p := poutPeriod s
  p != 0 && old / p < s.time.ftime.toNat / p

/-- FTIME_PULSE_OUT at a selected instant passed since `old` (R126). -/
def pulseSince (s : State) (old : Nat) : State := if pulseOutDue s old then raisePulse s else s

/-- A rising edge of FTIME_PULSE_IN that counts (R121). The first one sets fabric time, which may reach a selected instant and a slot
edge. -/
def pulseIn (s : State) : State :=
  if timeRole s = 1 then
    if s.time.pulsed then correct (drawn s) (pulseOffset s)
    else
      let s := setTimeUnits s ((epoch s * unitsPerNs : Nat) : Int)
      pulseOut (jumpEdge (setValid { s with time := { s.time with pulsed := true } }))
  else s

/-- An edge within 100 µs of the last one that counted is ignored (R494). -/
def pulseTooSoon (s : State) : Bool :=
  match s.time.lastPulse with
  | none => false
  | some t => decide (s.time.clocks - t < 52500)

/-- FTIME_PULSE_IN. -/
def pulseReceived (s : State) (stayedHigh : Bool) : State :=
  if stayedHigh && s.time.counting && !pulseTooSoon s then
    let s := pulseIn s
    { s with time := { s.time with lastPulse := some s.time.clocks, linkAt := s.time.clocks } }
  else s

/-! ### Alternate source and holdover (R125) -/

/-- Control clocks in 256 µs, in 1 ms and in a period of FTIME_PULSE_IN. -/
def altClocks : Nat := 134400
def holdClocks : Nat := 525000
def periodClocks (s : State) : Nat := if rbit s 0x1008 2 then 525000 else 525000000

/-- ALT_IN_USE: SRC_PORT has completed no exchange for 256 µs. -/
def takeAlt (s : State) : State :=
  if timeRole s = 2 ∧ altPort s < 48 ∧ rbit s 0x1004 5 = false ∧ s.time.srcAt + altClocks ≤ s.time.clocks then
    rsetBit { s with time := { s.time with srcStreak := 0 } } 0x1004 5 true
  else s

/-- A follower has completed no exchange for 1 ms, or a grandmaster has had no pulse for 1 ms after the one due (R125). -/
def holdoverDue (s : State) : Bool :=
  if timeRole s = 2 then decide (s.time.linkAt + holdClocks ≤ s.time.clocks)
  else timeRole s == 1 && s.time.pulsed && decide (s.time.linkAt + periodClocks s + holdClocks ≤ s.time.clocks)

/-- HOLDOVER (R125). LOCKED is not cleared, the next LOCKED takes three further offsets within 10 ns, and a grandmaster's event, for
which no source port stands, names port 0 (log 83). -/
def enterHoldover (s : State) : State :=
  if holdoverDue s ∧ s.time.counting ∧ rbit s 0x1004 4 = false then
    let s := rsetBit (rsetBit { s with time := { s.time with streak := 0 } } 0x1004 4 true) 0x1004 6 true
    emit s { code := 0x11, kind := 3, unit := if timeRole s = 2 then timePort s else 0, args := [(rget s 0x1014).toNat] }
  else s

/-! ### The commands -/

/-- Every meaning of the block answers a next state: R150 gives every bit pattern an effect. -/
abbrev Res := Host.Outcome State Fault Refusal

/-- SYNC (R122). -/
def execSync (port : Fin 48) (seqId : BitVec 16) (s : State) : Res := .next (syncReceived s port.val seqId)
/-- FOLLOW_UP (R122). -/
def execFollowUp (port : Fin 48) (seqId : BitVec 16) (t1 : BitVec 64) (s : State) : Res :=
  .next (followUpReceived s port.val seqId t1)
/-- DELAY_REQ (R122). -/
def execDelayReq (port : Fin 48) (seqId : BitVec 16) (s : State) : Res := .next (delayReqReceived s port.val seqId)
/-- DELAY_RESP (R122, R123). -/
def execDelayResp (port : Fin 48) (seqId : BitVec 16) (t4 : BitVec 64) (s : State) : Res :=
  .next (delayRespReceived s port.val seqId t4)
/-- FTIME_PULSE_OUT (R126). -/
def execFtimePulseOut (s : State) : Res := .next (pulseOut s)
/-- ALT_IN_USE (R125). -/
def execAltInUse (s : State) : Res := .next (takeAlt s)
/-- HOLDOVER (R125). -/
def execHoldover (s : State) : Res := .next (enterHoldover s)

end Sys2Proof.Machine
end

