-- ==== Sys2Proof/Machine/Plan.lean ====
section
/-!
DEFINITION. Machine/Plan.lean: how an op walks its window: board formats and modes (R91, R107, R180), effective extents
(R212, R221, R240, R251, R253, R265), passes (R187, R211), super-tiles (R226), bag groups (R250), tiles of INTERACT
(R254) and segments (R265), and which coordinates each element of a pass takes from its source and writes in its
destination.
-/
namespace Sys2Proof.Machine

/-- A stage as it runs: its op and words, its records with any handover put in place, and its effective extents. `into`
is the role that a handover supplies (0 SRC, 1 IDX, 2 AUX); `inner` says that the handover stands outside the cellar. `dests` are
the tensors that the stage writes, each with the coordinate of its first element along dimension 0 (R92), and `board` is the board
that a stage joined by a BOARD handover loads (R285). -/
structure SCtx where
  p : Nat
  fid : Nat
  j : Nat
  op : Nat
  words : List Word
  heri : Bool
  dom : Nat
  strm : Nat
  src : LRec
  idx : LRec
  aux : LRec
  dst : LRec
  offs : LRec
  kdst : LRec
  ext : List Nat
  into : Option Nat := none
  inner : Bool := false
  dests : List (Rec × Nat) := []
  board : Option Bool := none

/-- The record of a role: 0 SRC, 1 IDX, 2 AUX, 3 DST, 4 OFFS, 5 KDST. -/
def SCtx.role (c : SCtx) (r : Nat) : LRec :=
  match r with
  | 0 => c.src
  | 1 => c.idx
  | 2 => c.aux
  | 3 => c.dst
  | 4 => c.offs
  | _ => c.kdst

def SCtx.srcRec (c : SCtx) : Rec := c.src.tensor
def SCtx.dstRec (c : SCtx) : Rec := c.dst.tensor
/-- Element count of a record (N_idx, R221). -/
def Rec.count (r : Rec) : Nat := vol r.ext

/-! ### Effective extents -/

def natMin3 (a b c : Nat) : Nat := min a (min b c)

/-- X of R212, R221, R240 and R341 for the moving ops; the covered extents for DECANT (R226). -/
def moveExt (op : Nat) (ws : List Word) (src dst idx : Rec) : Crd :=
  let st := dStart ws
  let ex := dExt ws
  let ds := dDstart op ws
  let pm := opPerm op ws
  let n := idx.count
  (List.range 4).map (fun e =>
    let d := permInv pm e
    if op = 0x28 then min (crd src.ext e) (crd dst.ext e)
    else if op = 0x04 then min (crd ex e) (crd dst.ext e - crd st e)
    else if op = 0x03 ∧ e = fld (dOpa ws) 0 2 then
      (if bitAt (dOpa ws) 2 then natMin3 (crd ex e) (crd src.ext e - crd st e) n
       else natMin3 (crd ex e) (crd dst.ext e - crd ds e) n)
    else if op = 0x08 ∧ e = 0 then
      let dE := if bitAt (dOpa ws) 7 then 1 else 0
      natMin3 (crd ex 0) (crd src.ext 0 - crd st 0) (crd dst.ext dE - crd ds dE)
    else if op = 0x08 ∧ e = 1 then
      let dK := if bitAt (dOpa ws) 7 then 0 else 1
      natMin3 (crd ex 1) (n - crd st 1) (crd dst.ext dK - crd ds dK)
    else if (op = 0x09 ∨ op = 0x0A) ∧ e = 1 then
      natMin3 (crd ex 1) (n - crd st 1) (crd src.ext 1 - crd st 1)
    else natMin3 (crd ex e) (crd src.ext e - crd st e) (crd dst.ext d - crd ds d))

/-- Q of INTERACT (R252). -/
def interShape (ws : List Word) : Nat :=
  let s := fld (dOpa ws) 0 2
  if s = 3 then 0 else s
def interQ (ws : List Word) : Nat :=
  let f := crd (dExt ws) 1
  match interShape ws with
  | 1 => f * (f - 1) / 2
  | 2 => f * (f + 1) / 2
  | _ => f * f

/-- N_bag of POOL (R248). -/
def poolBags (ws : List Word) (idx offs : Rec) : Nat :=
  if bitAt (dOpa ws) 17 then offs.count - 1
  else ceilDiv idx.count (fld (dOpa ws) 20 12 + 1)

/-- SHAPE_MISFIT of POOL (R251) and INTERACT (R253). -/
def shapeMisfit (op : Nat) (ws : List Word) (src dst idx aux offs : Rec) : Bool :=
  let st := dStart ws
  let ex := dExt ws
  let ds := dDstart op ws
  if op = 0x0B then
    crd src.ext 0 < crd st 0 + crd ex 0 || crd dst.ext 0 < crd ds 0 + crd ex 0
      || poolBags ws idx offs < crd st 1 + crd ex 1 || crd dst.ext 1 < crd ds 1 + crd ex 1
      || (poolMode ws == 2 && aux.count < idx.count)
  else if op = 0x10 then
    64 < crd ex 1 || 256 < crd ex 0 || crd src.ext 0 < crd st 0 + crd ex 0
      || crd src.ext 1 < crd st 1 + crd ex 1 || crd src.ext 2 < crd st 2 + crd ex 2
      || crd dst.ext 0 < crd ds 0 + interQ ws || crd dst.ext 1 < crd ds 1 + crd ex 2
  else false

/-- The extents of SORT and TOPK (R265): n, G, m, X1, X2, X3. -/
def sortExt (op : Nat) (ws : List Word) (src dst kdst : Rec) : List Nat :=
  let st := dStart ws
  let ex := dExt ws
  let ds := dDstart op ws
  let ken := bitAt (dOpa ws) 17
  let n0 := min (crd ex 0) (crd src.ext 0 - crd st 0)
  let n := if op = 0x18 then min n0 4096 else n0
  let x := fun d => min (crd ex d) (crd src.ext d - crd st d)
  let g0 := min (x 1 * x 2 * x 3) (crd dst.ext 1 - crd ds 1)
  let g := if ken then min g0 (crd kdst.ext 1 - crd ds 1) else g0
  let m0 := if op = 0x19 then min n (fld (dOpa ws) 20 12 + 1) else n
  let m1 := min m0 (crd dst.ext 0 - crd ds 0)
  let m := if ken then min m1 (crd kdst.ext 0 - crd ds 0) else m1
  [n, g, m, x 1, x 2, x 3]

/-- The extents a stage keeps from its pickup. -/
def stageExt (op : Nat) (ws : List Word) (src dst idx kdst : Rec) : List Nat :=
  if op = 0x18 ∨ op = 0x19 then sortExt op ws src dst kdst
  else if op = 0x0B ∨ op = 0x10 then dExt ws
  else moveExt op ws src dst idx

/-- SHAPE_CLAMPED of a stage (R212, R240, R265); DECANT reports none (R226). -/
def shapeClamped (op : Nat) (ws : List Word) (ext : List Nat) : Bool :=
  let ex := dExt ws
  if op = 0x28 ∨ op = 0x0B ∨ op = 0x10 then false
  else if op = 0x18 ∨ op = 0x19 then
    let n := nth ext 0 0
    let x := fun d => nth ext (2 + d) 0
    let k := if op = 0x19 then fld (dOpa ws) 20 12 + 1 else n
    n != crd ex 0 || x 1 != crd ex 1 || x 2 != crd ex 2 || x 3 != crd ex 3
      || nth ext 1 0 < x 1 * x 2 * x 3 || nth ext 2 0 < min n k
  else (List.range 4).any (fun e => crd ext e != crd ex e)

/-- Nothing to load or write (R508). -/
def stageEmpty (op : Nat) (ws : List Word) (ext : List Nat) : Bool :=
  if op = 0x18 ∨ op = 0x19 then nth ext 0 0 == 0 || nth ext 1 0 == 0 || nth ext 2 0 == 0
  else if op = 0x10 then interQ ws == 0
  else if op = 0x0B then false
  else (List.range 4).any (fun e => crd ext e == 0)

/-! ### Boards -/

/-- Whether an op runs on the MAC array or the vat's compare path. -/
def macOp (op : Nat) : Bool := op == 0x0B || op == 0x10

/-- Where an innermost element stands in its block: the shard coordinate, the block and the position (R92). -/
def blkPos (r : Rec) (i : Nat) : Nat × Nat × Nat :=
  let x := r.shard1 0 i
  (x.1, x.2.1 / 32, x.2.1 % 32)

/-- The judgement of R92 over the window's innermost runs, for a destination tensor whose first element stands at `d0` along
dimension 0. A PERMUTE along dimension 0 is none, as its index values are not known at pickup (log 91). -/
def cratePreserving (op : Nat) (ws : List Word) (src dst : Rec) (d0 : Nat) (ext : List Nat) : Bool :=
  let s0 := if op = 0x28 then 0 else crd (dStart ws) 0
  let x0 := crd ext 0
  let straight := !(op == 0x02 && nth (opPerm op ws) 0 0 != 0) && !(op == 0x08 && bitAt (dOpa ws) 7)
    && !(op == 0x03 && fld (dOpa ws) 0 2 == 0)
  let es := List.range x0
  let dblk := fun e => (blkPos dst (d0 + e)).1 * 2 ^ 32 + (blkPos dst (d0 + e)).2.1
  let sblk := fun e => (blkPos src (s0 + e)).1 * 2 ^ 32 + (blkPos src (s0 + e)).2.1
  straight && fmtCrated src.fmt && src.fmt == dst.fmt && !macOp op && op != 0x0A && op != 0x18 && op != 0x19
    && es.all (fun e => (blkPos dst (d0 + e)).2.2 == (blkPos src (s0 + e)).2.2
        && (match es.find? (fun g => dblk g == dblk e) with | some g => sblk g == sblk e | none => true))
    && (List.range (crd dst.ext 0)).all (fun c =>
        (decide (d0 ≤ c) && decide (c < d0 + x0))
          || !es.any (fun e => dblk e == (blkPos dst c).1 * 2 ^ 32 + (blkPos dst c).2.1))
    && (List.range (crd src.ext 0)).all (fun c =>
        (decide (s0 ≤ c) && decide (c < s0 + x0))
          || !es.any (fun e => sblk e == (blkPos src c).1 * 2 ^ 32 + (blkPos src c).2.1))

/-- The form in which elements stand in the board: the format of the codes, and whether scale tags stand beside them. -/
structure BoardFmt where
  fmt : Nat
  tags : Bool := false

/-- The descriptor is crate-preserving in every tensor that the stage writes (R92). -/
def SCtx.preserves (c : SCtx) : Bool :=
  let ds := if c.dests.isEmpty then [(c.dstRec, crd (dDstart c.op c.words) 0)] else c.dests
  ds.all (fun d => cratePreserving c.op c.words c.srcRec d.1 d.2 c.ext)

/-- The board format of a stage (R91, R107, R244, R250). -/
def boardFmt (c : SCtx) : BoardFmt :=
  let f := c.srcRec.fmt
  let g := c.dstRec.fmt
  if c.op = 0x0B then
    (if fmtCrated f then ⟨0x01, false⟩ else if f = 1 ∨ f = 2 ∨ f = 3 ∨ f = 4 then ⟨f, false⟩ else ⟨0x00, false⟩)
  else if c.op = 0x10 then
    (if fmtCrated f then ⟨f, true⟩ else if f = 1 ∨ f = 2 ∨ f = 3 ∨ f = 4 then ⟨f, false⟩ else ⟨0x00, false⟩)
  else if c.op = 0x0A then (if f = g ∧ fmtCrated f = false then ⟨f, false⟩ else ⟨contribFmt g, false⟩)
  else if fmtCrated f then
    (if fmtCrated g then
      (if c.preserves then ⟨f, true⟩ else ⟨0x01, false⟩)
     else ⟨g, false⟩)
  else if fmtCrated g then ⟨f, false⟩
  else if f = g then ⟨f, false⟩
  else if dSr c.words && narrowing f g then ⟨f, false⟩
  else ⟨g, false⟩

/-- The region width w of a board mode (R180). -/
def regionW (f : Nat) : Nat :=
  let b := fmtBits f
  if b = 64 then 16 else if b = 32 then 32 else if b = 16 then 64 else 128

/-- The mode code: 0 single, 1 pair, 2 quad, 3 lane-pair. -/
def boardMode (f : Nat) : Nat :=
  let b := fmtBits f
  if b = 64 then 3 else if b = 32 then 0 else if b = 16 then 1 else 2

/-- Element `j` of row `r` written into a board (R180). The elements of one row are written in lane order, so of two in one column the
higher source lane remains (R177). -/
def boardPut (b : Board) (f r j code : Nat) : Board :=
  let put := fun (b : Board) (k lo width v : Nat) =>
    { b with ent := smPut b.ent k (setFld (smGet b.ent k 0) lo width v) }
  match boardMode f with
  | 3 => put (put b (32 * r + 2 * j % 32) 0 32 (code % 2 ^ 32)) (32 * r + (2 * j + 1) % 32) 0 32 (code / 2 ^ 32)
  | 1 => put b (32 * r + j % 32) (16 * (j / 32)) 16 code
  | 2 => put b (32 * r + j % 32) (8 * (j / 32)) 8 code
  | _ => put b (32 * r + j % 32) 0 32 code

/-- Element `j` of row `r` read from a board (R180). -/
def boardGet (b : Board) (f r j : Nat) : Nat :=
  let get := fun (k lo width : Nat) => fld (smGet b.ent k 0) lo width
  match boardMode f with
  | 3 => get (32 * r + 2 * j % 32) 0 32 + 2 ^ 32 * get (32 * r + (2 * j + 1) % 32) 0 32
  | 1 => get (32 * r + j % 32) (16 * (j / 32)) 16
  | 2 => get (32 * r + j % 32) (8 * (j / 32)) 8
  | _ => get (32 * r + j % 32) 0 32

/-- The scale tag that goes with element `j` of row `r` (R183). Runs of a tensor whose dimension 0 is sharded may start anywhere in
a row, so a tag is kept for each element (log 91). -/
def tagPut (b : Board) (r j t : Nat) : Board :=
  { b with tags := smPut b.tags (128 * r + j) (BitVec.ofNat 8 t) }
def tagGet (b : Board) (r j : Nat) : Nat := (smGet b.tags (128 * r + j) 0x7F#8).toNat

/-- Where the turn of R210 takes the word of entry `k` of the board that receives it. In single, pair and quad mode it is a
transposition. In lane-pair mode element column j fills rows 2j and 2j + 1 with the whole elements of rows 0 to 15 and 16 to 31
(log 92). -/
def turnFrom (mode k : Nat) : Nat :=
  let r := k / 32
  let c := k % 32
  if mode = 3 then 32 * (16 * (r % 2) + c / 2) + 2 * (r / 2) + c % 2 else 32 * c + r

/-- The turn of R210 from one board to the other; scale tags follow their runs. -/
def turned (mode : Nat) (b : Board) : Board :=
  { ent := (List.range 1024).filterMap (fun k =>
      let w := smGet b.ent (turnFrom mode k) 0#32
      if w = 0 then none else some (k, w)),
    valid := 0xFFFFFFFF#32, tags := b.tags }

/-! ### Units of work -/

/-- A unit of work: a pass of a move (0), a pass of the MAC array (1), a drain (2), a segment (3) or a filled block (4).
`off` is the window offset of a move's corner, or the numbers that name the unit. -/
structure WUnit where
  kind : Nat
  off : List Nat
  rows : Nat
  cols : Nat

/-- The board-row dimension a of a moving op, and whether its passes are straight (R211, R242). -/
def moveA (c : SCtx) : Nat :=
  if c.op = 0x02 then
    let p0 := nth (opPerm 0x02 c.words) 0 0
    if p0 = 0 then nth (opPerm 0x02 c.words) 1 1 else p0
  else 1
def moveStraight (c : SCtx) : Bool :=
  if c.op = 0x02 then nth (opPerm 0x02 c.words) 0 0 == 0
  else !(c.op == 0x08 && bitAt (dOpa c.words) 7)

/-- The pass `u` of a walk over extents `x` with board-row dimension `a` and region width `w`: b = 0 fastest, then a,
then the other dimensions, lowest first (R187). -/
def walkPass (x : Crd) (a w u : Nat) : WUnit :=
  let nb := ceilDiv (crd x 0) w
  let na := ceilDiv (crd x a) 32
  let others := [1, 2, 3].filter (· != a)
  let d1 := nth others 0 2
  let ib := u % nb
  let ia := u / nb % na
  let i1 := u / (nb * na) % crd x d1
  let i2 := u / (nb * na * crd x d1)
  let off := (List.range 4).map (fun d =>
    if d = 0 then ib * w else if d = a then ia * 32 else if d = d1 then i1 else i2)
  { kind := 0, off := off, rows := min 32 (crd x a - ia * 32), cols := min w (crd x 0 - ib * w) }

def walkCount (x : Crd) (a w : Nat) : Nat :=
  ceilDiv (crd x 0) w * ceilDiv (crd x a) 32 * ((([1, 2, 3].filter (· != a)).map (crd x)).foldl (· * ·) 1)

/-- Super-tiles of DECANT (R226): how many, and the first coordinates and extents of super-tile `n`. -/
def superCount (x : Crd) : Nat := crd x 2 * crd x 3 * ceilDiv (crd x 0) 256 * ceilDiv (crd x 1) 256
def superTile (x : Crd) (n : Nat) : Crd × Crd :=
  let n0 := ceilDiv (crd x 0) 256
  let n1 := ceilDiv (crd x 1) 256
  let t0 := n % n0
  let t1 := n / n0 % n1
  let i2 := n / (n0 * n1) % crd x 2
  let i3 := n / (n0 * n1 * crd x 2)
  ([256 * t0, 256 * t1, i2, i3], [min 256 (crd x 0 - 256 * t0), min 256 (crd x 1 - 256 * t1), 1, 1])

/-- Sub-tiles per board row, bags per group (R250). -/
def poolS (c : SCtx) : Nat := regionW (boardFmt c).fmt / 32
def poolG (c : SCtx) : Nat := 32 / poolS c
def poolRuns (c : SCtx) : Nat := ceilDiv (crd c.ext 0) (regionW (boardFmt c).fmt)
def poolGroups (c : SCtx) : Nat := ceilDiv (crd c.ext 1) (poolG c)

/-- INTERACT: feature blocks, tiles in order, the alignment of chunks of D, chunk length and count (R254). -/
def interNf (c : SCtx) : Nat := ceilDiv (crd c.ext 1) 32
def interTile (i : Nat) : Nat × Nat := if i = 0 then (0, 0) else if i = 1 then (1, 0) else (1, 1)
def interTiles (c : SCtx) : Nat := interNf c * (interNf c + 1) / 2
def interChunk (c : SCtx) : Nat := if fmtBits (boardFmt c).fmt ≤ 8 then 64 else 32
/-- The blocks of the stack along D that hold the window, in ascending D: the tensor's own blocks of a crated stack, wherever its
shards cut them, and runs of 32 from START0 otherwise (R254). -/
def interBlocks (c : SCtx) : List Nat :=
  if (boardFmt c).tags then
    ((List.range (crd c.ext 0)).map (fun d =>
      let b := blkPos c.srcRec (crd (dStart c.words) 0 + d)
      b.1 * 2 ^ 32 + b.2.1)).eraseDups
  else List.range (ceilDiv (crd c.ext 0) 32)
/-- Where element `d` of the D window stands: the number of its block and its position there. -/
def interSlot (c : SCtx) (d : Nat) : Nat × Nat :=
  if (boardFmt c).tags then
    let b := blkPos c.srcRec (crd (dStart c.words) 0 + d)
    ((interBlocks c).idxOf (b.1 * 2 ^ 32 + b.2.1), b.2.2)
  else (d / 32, d % 32)
/-- The elements of chunk `n`: their positions in the chunk, and their places in the D window. -/
def interElems (c : SCtx) (n : Nat) : List (Nat × Nat) :=
  let per := interChunk c / 32
  (List.range (crd c.ext 0)).filterMap (fun d =>
    let x := interSlot c d
    if x.1 / per = n then some (32 * (x.1 % per) + x.2, d) else none)
def interNc (c : SCtx) : Nat := ceilDiv (interBlocks c).length (interChunk c / 32)
def interF32 (c : SCtx) : Bool := (boardFmt c).fmt == 0x00
/-- Numbers of units that one tile of INTERACT may use: two passes per chunk and two drains. -/
def interSpan (c : SCtx) : Nat := 2 * interNc c + 2

/-- Numbers of units that one group and run of POOL may use: 4,096 passes and a drain. -/
def poolSpan : Nat := 4097
/-- Numbers of units that one super-tile may use. -/
def decantSpan : Nat := 128

/-- Entry `i` of a stage's bags: bag b's first entry and length as cached for the run (R248): `bag` gives them. -/
def groupLens (c : SCtx) (bag : Nat → Nat × Nat) (g : Nat) : List (Nat × Nat × Nat) :=
  ((List.range (poolG c)).filter (fun i => g * poolG c + i < crd c.ext 1)).map (fun i =>
    let b := crd (dStart c.words) 1 + g * poolG c + i
    (i, (bag b).1, (bag b).2))

/-- Numbers stand in rising order without repeats. -/
def risingNat : List Nat → Bool
  | [] => true
  | [_] => true
  | a :: b :: r => a < b && risingNat (b :: r)

/-- Numbers in rising order without repeats. -/
def sortedNat (l : List Nat) : List Nat :=
  if risingNat l then l
  else l.foldl (fun m k => if smHas m k then m else smPut m k 0) ([] : SMap Nat) |>.map (·.1)

/-- The entries of a group in index order (R250): index positions, each once, whichever of the group's bags it belongs to. -/
def groupEntries (c : SCtx) (bag : Nat → Nat × Nat) (g : Nat) : List Nat :=
  sortedNat ((groupLens c bag g).flatMap (fun e => (List.range e.2.2).map (fun t => e.2.1 + t)))

/-- One past the last unit number of a stage. `blocks` is the number of blocks of a FILL. -/
def unitEnd (c : SCtx) (blocks : Nat) : Nat :=
  let w := regionW (boardFmt c).fmt
  if c.op = 0x04 then blocks
  else if c.op = 0x28 then superCount c.ext * decantSpan
  else if c.op = 0x0B then poolGroups c * poolRuns c * poolSpan
  else if c.op = 0x10 then crd c.ext 2 * interTiles c * interSpan c
  else if c.op = 0x18 ∨ c.op = 0x19 then nth c.ext 1 0
  else walkCount c.ext (moveA c) w

/-- The unit a number names. -/
def unitAt (c : SCtx) (bag : Nat → Nat × Nat) (u : Nat) : WUnit :=
  let w := regionW (boardFmt c).fmt
  if c.op = 0x04 then { kind := 4, off := [u], rows := 0, cols := 0 }
  else if c.op = 0x28 then
    let st := superTile c.ext (u / decantSpan)
    let ps := walkPass st.2 1 w (u % decantSpan)
    { ps with off := (List.range 4).map (fun d => crd st.1 d + crd ps.off d) }
  else if c.op = 0x0B then
    let gr := u / poolSpan
    let g := gr / poolRuns c
    let r := gr % poolRuns c
    let s := u % poolSpan
    if s = 4096 then { kind := 2, off := [g, r], rows := 0, cols := min w (crd c.ext 0 - r * w) }
    else
      let m := (groupEntries c bag g).length
      { kind := 1, off := [g, r, s], rows := min 32 (m - 32 * s), cols := min w (crd c.ext 0 - r * w) }
  else if c.op = 0x10 then
    let s := u % interSpan c
    let ti := u / interSpan c % interTiles c
    let t := u / (interSpan c * interTiles c)
    let ij := interTile ti
    let f := crd c.ext 1
    let rI := min 32 (f - 32 * ij.1)
    let rJ := min 32 (f - 32 * ij.2)
    if s < 2 * interNc c then
      let half := s % 2
      let rows := if interF32 c && ij.1 != ij.2 then (if half = 0 then rJ else rI) else max rI rJ
      { kind := 1, off := [t, ij.1, ij.2, s / 2, half], rows := rows, cols := interChunk c }
    else { kind := 2, off := [t, ij.1, ij.2, s - 2 * interNc c], rows := 0, cols := 0 }
  else if c.op = 0x18 ∨ c.op = 0x19 then { kind := 3, off := [u], rows := ceilDiv (nth c.ext 0 0) 64, cols := 64 }
  else walkPass c.ext (moveA c) w u

/-- The number of the unit that follows unit `u`. The first pass of a POOL group whose bags are all empty holds no row. -/
def unitNext (c : SCtx) (bag : Nat → Nat × Nat) (u : Nat) : Nat :=
  if c.op = 0x28 then
    let st := superTile c.ext (u / decantSpan)
    if u % decantSpan + 1 < walkCount st.2 1 (regionW (boardFmt c).fmt) then u + 1
    else (u / decantSpan + 1) * decantSpan
  else if c.op = 0x0B then
    let s := u % poolSpan
    if s = 4096 then u + 1
    else if s + 1 < ceilDiv (groupEntries c bag (u / poolSpan / poolRuns c)).length 32 then u + 1
    else u - s + 4096
  else if c.op = 0x10 then
    let s := u % interSpan c
    let ti := u / interSpan c % interTiles c
    let off := (interTile ti).1 != (interTile ti).2
    let last := 2 * interNc c
    if s < last then
      (if s % 2 = 0 then (if interF32 c && off then u + 1 else if s + 2 < last then u + 2 else u - s + last)
       else u + 1)
    else if s = last then
      (if off && interShape c.words == 0 then u + 1 else u + 2)
    else u + 1
  else u + 1

/-- One element that a row of a unit loads: its position in the board row, its source coordinates and, for a move, its
destination coordinates. -/
structure Elem where
  pos : Nat
  src : Crd
  dst : Crd
  deriving DecidableEq

/-- Where the element at window offset `o` of a move comes from and goes to (R208, R221, R242, R243, R345). -/
def moveMap (c : SCtx) (idx : Nat → Nat) (o : Crd) : Crd × Crd :=
  let st := if c.op = 0x28 then [0, 0, 0, 0] else dStart c.words
  let ds := dDstart c.op c.words
  if c.op = 0x03 then
    let p := fld (dOpa c.words) 0 2
    let i := idx (crd o p)
    if bitAt (dOpa c.words) 2 then (crdAdd st o, (crdAdd ds o).set p i)
    else ((crdAdd st o).set p i, crdAdd ds o)
  else if c.op = 0x08 then
    let row := idx (crd st 1 + crd o 1)
    let s := [crd st 0 + crd o 0, row, crd st 2 + crd o 2, crd st 3 + crd o 3]
    if bitAt (dOpa c.words) 7 then
      (s, [crd ds 0 + crd o 1, crd ds 1 + crd o 0, crd ds 2 + crd o 2, crd ds 3 + crd o 3])
    else (s, crdAdd ds o)
  else if c.op = 0x09 ∨ c.op = 0x0A then
    (crdAdd st o, [crd ds 0 + crd o 0, idx (crd st 1 + crd o 1), crd ds 2 + crd o 2, crd ds 3 + crd o 3])
  else
    let pm := opPerm c.op c.words
    (crdAdd st o, (List.range 4).map (fun d => crd ds d + crd o (nth pm d d)))

/-- The window offset of element `j` of row `r` of a move pass. -/
def moveOff (c : SCtx) (u : WUnit) (r j : Nat) : Crd :=
  let a := moveA c
  (List.range 4).map (fun d =>
    if d = 0 then crd u.off 0 + j else if d = a then crd u.off a + r else crd u.off d)

/-- The index positions that a unit reads (R221, R237, R250). -/
def unitKs (c : SCtx) (bag : Nat → Nat × Nat) (u : WUnit) : List Nat :=
  if c.op = 0x03 then
    let p := fld (dOpa c.words) 0 2
    let n := if p = 0 then u.cols else if p = moveA c then u.rows else 1
    (List.range n).map (crd u.off p + ·)
  else if c.op = 0x08 ∨ c.op = 0x09 ∨ c.op = 0x0A then
    (List.range u.rows).map (fun r => crd (dStart c.words) 1 + crd u.off 1 + r)
  else if c.op = 0x0B ∧ u.kind = 1 then
    ((groupEntries c bag (nth u.off 0 0)).drop (32 * nth u.off 2 0)).take 32
  else []

/-- The elements that row `r` of a unit loads. -/
def rowElems (c : SCtx) (bag : Nat → Nat × Nat) (idx : Nat → Nat) (u : WUnit) (r : Nat) : List Elem :=
  if u.kind = 0 then
    (List.range u.cols).map (fun j =>
      let m := moveMap c idx (moveOff c u r j)
      ⟨j, m.1, m.2⟩)
  else if u.kind = 1 ∧ c.op = 0x0B then
    match ((groupEntries c bag (nth u.off 0 0)).drop (32 * nth u.off 2 0))[r]? with
    | none => []
    | some e =>
      (List.range u.cols).map (fun j =>
        ⟨j, [crd (dStart c.words) 0 + nth u.off 1 0 * regionW (boardFmt c).fmt + j, idx e, 0, 0], []⟩)
  else if u.kind = 1 then
    let t := nth u.off 0 0
    let bI := nth u.off 1 0
    let bJ := nth u.off 2 0
    let st := dStart c.words
    let f := crd c.ext 1
    let ch := interChunk c
    let ds := interElems c (nth u.off 3 0)
    let run := fun (feat pos0 : Nat) =>
      if f ≤ feat then []
      else ds.map (fun d => (⟨pos0 + d.1, [crd st 0 + d.2, crd st 1 + feat, crd st 2 + t, 0], []⟩ : Elem))
    if interF32 c then
      run (if bI != bJ && nth u.off 4 0 == 0 then 32 * bJ + r else 32 * bI + r) 0
    else run (32 * bI + r) 0 ++ run (32 * bJ + r) ch
  else []

/-- COALESCE of an op (R236, R247). -/
def coalesce (c : SCtx) : Bool :=
  if c.op = 0x08 ∨ c.op = 0x09 ∨ c.op = 0x0A then bitAt (dOpa c.words) 6
  else c.op == 0x0B && bitAt (dOpa c.words) 15

/-- The key coordinates of pair `e` of segment `t` (R265): i1 runs fastest. -/
def segCrd (c : SCtx) (t e : Nat) : Crd :=
  let st := dStart c.words
  let x1 := max 1 (nth c.ext 3 0)
  let x2 := max 1 (nth c.ext 4 0)
  [crd st 0 + e, crd st 1 + t % x1, crd st 2 + t / x1 % x2, crd st 3 + t / (x1 * x2)]

end Sys2Proof.Machine
end

