-- ==== Sys2Proof/Machine/Fetch.lean ====
section
/-!
DEFINITION. Machine/Fetch.lean: how a press reaches its operands: the staging area (R179), handovers (R281 to R286), the
shard map (R67, R70), addresses (R68, R69), lines with their rights, errors and marks (R37, R375, R379), fabric reads
(R178, R199, R238), index and offset values (R106, R237, R248).
-/
namespace Sys2Proof.Machine

/-! ### Staging area -/

/-- The local address of the staging area of press `p` for a domain (R179, R204), where it has one. -/
def stageBase (s : State) (p dom : Nat) : Option Nat :=
  let t := terraceOf p
  let w := rget s (0x0100 + 8 * dom + (if t < 4 then 0 else 4))
  let b := 8 * (t % 4)
  if bitAt w (b + 7) then some (fld w b 6 * 0x4000000 + 0x800000 * (p % 8)) else none

/-- The save slot of press `p` for a domain (R193, R203), where the domain has a save area. -/
def saveBase (s : State) (p dom : Nat) : Option Nat :=
  let w := rget s (0x00C0 + 4 * dom)
  if bitAt w 31 then some (fld w 0 12 * 0x100000 + 0x4000 * p) else none

/-! ### Handovers -/

/-- How a stage hands over (R281 to R286): not at all, by a tile in the staging area at an offset, by a board, in pool
blocks, or by the vat. -/
inductive HKind where
  | none
  | tile (off : Nat)
  | board
  | pool
  | vat
  deriving DecidableEq

/-- The context of a stage on its own latched records. -/
def baseCtx (heri : Bool) (dom p : Nat) (f : Flight) (j : Nat) : SCtx :=
  let st := nth f.stages j {}
  { p := p, fid := f.id, j := j, op := st.op, words := st.words, heri := heri, dom := dom, strm := f.stream,
    src := st.src, idx := st.idx, aux := st.aux, dst := st.dst, offs := st.offs, kdst := st.kdst, ext := st.ext }

/-- Ops that hand nothing over (R283). -/
def noHand (op : Nat) : Bool := op == 0x09 || op == 0x0A || op == 0x20 || op == 0x21

/-- The extents of the handover tensor of a stage (R282). -/
def handExt (c : SCtx) : Crd :=
  if c.op = 0x0B then [crd c.ext 0, crd c.ext 1, 1, 1]
  else if c.op = 0x10 then [interQ c.words, crd c.ext 2, 1, 1]
  else if c.op = 0x18 ∨ c.op = 0x19 then [nth c.ext 2 0, nth c.ext 1 0, 1, 1]
  else if c.op = 0x08 ∧ bitAt (dOpa c.words) 7 then [crd c.ext 1, crd c.ext 0, crd c.ext 2, crd c.ext 3]
  else if c.op = 0x03 ∧ bitAt (dOpa c.words) 2 then
    -- a push may reach every coordinate of the destination along the permuted dimension
    c.ext.set (fld (dOpa c.words) 0 2) (crd c.dstRec.ext (fld (dOpa c.words) 0 2))
  else
    let pm := opPerm c.op c.words
    (List.range 4).map (fun d => crd c.ext (nth pm d d))

/-- Row pitch and size of a handover tensor (R282). -/
def handRow (f : Nat) (e : Crd) : Nat := 64 * ceilDiv (rowBytes f (crd e 0)) 64
def handSize (f : Nat) (e : Crd) : Nat := handRow f e * crd e 1 * crd e 2 * crd e 3

/-- The record of a handover tensor at a base (R282). -/
def handRec (f : Nat) (e : Crd) (base : Nat) : LRec :=
  let row := handRow f e / 16
  let w := fun (n : Nat) => BitVec.ofNat 32 n
  { words := [w (3 * 2 ^ 12 + f), 0, 0, w (crd e 0), w (crd e 1), w (crd e 2), w (crd e 3), w row, w (row * crd e 1),
              w (row * crd e 1 * crd e 2), w base, w (base / 2 ^ 32), 0, 0, 0, 0] }

/-- The link of a stage: HAND, INTO and TEE (R281). -/
def linkInto (ws : List Word) : Nat :=
  let i := wFld ws 2 28 2
  if i = 3 then 0 else i
def linkTee (ws : List Word) : Bool := bitAt (nth ws 2 0#32) 27

/-- The rectangles, in handover coordinates, that a stage's output passes fill, in order: first and last corner. -/
def outRects (c : SCtx) : List (Crd × Crd) :=
  let w := regionW (boardFmt c).fmt
  let ds := dDstart c.op c.words
  if c.op = 0x0B then
    (List.range (poolGroups c * poolRuns c)).map (fun i =>
      let g := i / poolRuns c
      let r := i % poolRuns c
      ([r * w, g * poolG c, 0, 0],
       [min (crd c.ext 0) ((r + 1) * w) - 1, min (crd c.ext 1) ((g + 1) * poolG c) - 1, 0, 0]))
  else
    (List.range (walkCount c.ext (moveA c) w)).map (fun i =>
      let u := walkPass c.ext (moveA c) w i
      let sub := fun (x : Crd) => (List.range 4).map (fun d => crd x d - crd ds d)
      let lo := sub (moveMap c (fun _ => 0) (moveOff c u 0 0)).2
      let hi := sub (moveMap c (fun _ => 0) (moveOff c u (u.rows - 1) (u.cols - 1))).2
      (lo, hi))

/-- The rectangles that a stage's walk loads, in order. -/
def inRects (c : SCtx) : List (Crd × Crd) :=
  let w := regionW (boardFmt c).fmt
  (List.range (walkCount c.ext (moveA c) w)).map (fun i =>
    let u := walkPass c.ext (moveA c) w i
    (moveOff c u 0 0, moveOff c u (u.rows - 1) (u.cols - 1)))

/-- The conditions of R285 for a BOARD handover from `c` to `d`, `d` standing on the handover record. -/
def boardOk (c d : SCtx) : Bool :=
  let outOp := c.op == 0x01 || c.op == 0x02 || c.op == 0x08 || c.op == 0x0B
    || (c.op == 0x03 && !bitAt (dOpa c.words) 2)
  let inOp := d.op == 0x01 || d.op == 0x02 || d.op == 0x09 || d.op == 0x0A || d.op == 0x20 || d.op == 0x21
    || (d.op == 0x03 && bitAt (dOpa d.words) 2)
  linkInto c.words == 0 && outOp && inOp && moveA d == 1
    && dStart d.words == [0, 0, 0, 0] && dExt d.words == d.ext
    && (boardFmt c).fmt == c.dstRec.fmt && (boardFmt d).fmt == c.dstRec.fmt
    && outRects c == inRects d

/-- The conditions of R286 for a VAT handover from stage `c` to stage `d`. -/
def vatOk (c d : SCtx) : Bool :=
  c.op == 0x0B && d.op == 0x0B && (poolMode c.words == 0 || poolMode c.words == 2) && !poolAcc c.words
    && crd (dExt c.words) 0 == crd (dExt d.words) 0 && crd (dExt c.words) 1 == crd (dExt d.words) 1
    && boardMode (boardFmt c).fmt == boardMode (boardFmt d).fmt

/-- A stage's context with its handover record in place at base `b`. -/
def withHand (d : SCtx) (into f : Nat) (e : Crd) (b : Nat) (inner : Bool) : SCtx :=
  let r := handRec f e b
  let d := { d with into := some into, inner := inner }
  if into = 1 then { d with idx := r } else if into = 2 then { d with aux := r } else { d with src := r }

/-- Whether stage `j` of a chain hands a tensor over, and whether it stores to its own destination (R281, R283, R286). -/
def handsTensor (f : Flight) (j : Nat) : Bool :=
  decide (j + 1 < f.stages.length) && !noHand (nth f.stages j {}).op && handOf (nth f.stages j {}) != 2
def storesOwn (f : Flight) (j : Nat) : Bool :=
  decide (f.stages.length ≤ j + 1) || noHand (nth f.stages j {}).op
    || (handOf (nth f.stages j {}) != 2 && linkTee (nth f.stages j {}).words)

/-- The record with every dimension REPL, as a MULTICAST addresses its blocks (R345). -/
def replRec (l : LRec) : LRec := { words := l.words.set 1 0#32 }

/-- A stage's context with the tensors it writes (R92): its own destination, its handover tensor, or both. -/
def withDests (f : Flight) (c : SCtx) : SCtx :=
  let own := if c.op = 0x20 then (replRec c.dst).tensor else c.dstRec
  { c with dests := (if storesOwn f c.j then [(own, crd (dDstart c.op c.words) 0)] else [])
                      ++ (if handsTensor f c.j then [((handRec c.dstRec.fmt (handExt c) 0).tensor, 0)] else []) }

/-- Stage `j` of a chain as its links are judged: with the handover of the stage before it in place, wherever it stands. -/
def linkCtx (heri : Bool) (dom p : Nat) (f : Flight) (j : Nat) : SCtx :=
  let d := baseCtx heri dom p f j
  withDests f
    (if 0 < j && handsTensor f (j - 1) then
       let c := baseCtx heri dom p f (j - 1)
       withHand d (linkInto c.words) c.dstRec.fmt (handExt c) 0 true
     else d)

/-- The links of a chain in order, with the staging offset that the next tile takes (R284): for each stage but the last
its handover. -/
def handKinds (heri : Bool) (dom p : Nat) (f : Flight) : List HKind :=
  ((List.range (f.stages.length - 1)).foldl
    (fun acc j =>
      let c := linkCtx heri dom p f j
      let d := linkCtx heri dom p f (j + 1)
      let h := handOf (nth f.stages j {})
      if noHand c.op then (acc.1 ++ [HKind.none], acc.2)
      else if h = 2 then (acc.1 ++ [HKind.vat], acc.2)
      else
        let e := handExt c
        if h = 1 ∧ boardOk c d then (acc.1 ++ [HKind.board], acc.2)
        else if d.op = 0x20 ∨ d.op = 0x21 then (acc.1 ++ [HKind.pool], acc.2)
        else (acc.1 ++ [HKind.tile acc.2], acc.2 + 2048 * ceilDiv (handSize c.dstRec.fmt e) 2048))
    (([] : List HKind), 0x400000)).1

/-- Bytes of staging area that a chain's tiles need, from offset 4 MiB (R284). -/
def tileSpace (heri : Bool) (dom p : Nat) (f : Flight) : Nat :=
  ((List.range (f.stages.length - 1)).map (fun j =>
    match nth (handKinds heri dom p f) j .none with
    | .tile _ =>
      let c := baseCtx heri dom p f j
      2048 * ceilDiv (handSize c.dstRec.fmt (handExt c)) 2048
    | _ => 0)).sum

/-- Links with HAND = BOARD that fall back to TILE (R285). -/
def fallbacks (heri : Bool) (dom p : Nat) (f : Flight) : Nat :=
  ((List.range (f.stages.length - 1)).filter (fun j =>
    handsTensor f j && handOf (nth f.stages j {}) == 1
      && !boardOk (linkCtx heri dom p f j) (linkCtx heri dom p f (j + 1)))).length

/-- Where handovers that stand outside the cellar are addressed: an address that no memory has. -/
def innerBase (j : Nat) : Nat := 2 ^ 47 + j * 2 ^ 40

/-- A stage reads its columns from the board that it did not load (R210): it moves in straight regions. -/
def turnsBoard (c : SCtx) : Bool := c.op != 0x0B && moveStraight c

/-- The board that stage `j` loads where a BOARD handover fixes it (R285): the one that the columns of the stage before are not read
from, and the back board for the first stage of such a chain where it moves nothing straight (log 89). -/
def chainBoard (cs : Nat → SCtx) (kind : Nat → HKind) : Nat → Option Bool
  | 0 => if kind 0 = .board ∧ !turnsBoard (cs 0) then some true else none
  | j + 1 =>
    if kind j = .board then
      (if turnsBoard (cs j) then some ((chainBoard cs kind j).getD false)
       else some (!(chainBoard cs kind j).getD true))
    else if kind (j + 1) = .board ∧ !turnsBoard (cs (j + 1)) then some true
    else none

/-- A stage's context as it runs on press `p`. -/
def stageCtx (s : State) (p : Nat) (f : Flight) (j : Nat) : SCtx :=
  let dom := streamDomain s f.stream
  let d := withDests f (baseCtx (heritage s) dom p f j)
  if f.stages.length ≤ 1 then d
  else
    let kinds := handKinds (heritage s) dom p f
    let d := { d with board := chainBoard (linkCtx (heritage s) dom p f) (fun i => nth kinds i .none) j }
    if j = 0 then d
    else
      let c := baseCtx (heritage s) dom p f (j - 1)
      let e := handExt c
      match nth kinds (j - 1) .none with
      | .tile off =>
        withHand d (linkInto c.words) c.dstRec.fmt e (nodeId s * 2 ^ 48 + (stageBase s p dom).getD 0 + off) false
      | .board => withHand d (linkInto c.words) c.dstRec.fmt e (nodeId s * 2 ^ 48 + innerBase (j - 1)) true
      | .pool => withHand d (linkInto c.words) c.dstRec.fmt e (nodeId s * 2 ^ 48 + innerBase (j - 1)) true
      | _ => d

/-! ### Cached values -/

def idxKey (j k : Nat) : Nat := j * 2 ^ 44 + k
def offKey (j i : Nat) : Nat := j * 2 ^ 44 + 2 ^ 40 + i
def cutKey (j b : Nat) : Nat := j * 2 ^ 44 + 2 ^ 41 + b
def runIdx (r : Run) (j : Nat) : Nat → Nat := fun k => smGet r.idx (idxKey j k) 0

/-- The first entry and length of a bag (R248). -/
def runBag (c : SCtx) (r : Run) : Nat → Nat × Nat := fun b =>
  let n := c.idx.tensor.count
  if bitAt (dOpa c.words) 17 then
    let o := smGet r.idx (offKey c.j b) 0
    let o1 := smGet r.idx (offKey c.j (b + 1)) 0
    (o, if o1 ≤ o then 0 else min o1 (o + 4096) - o)
  else
    let l := fld (dOpa c.words) 20 12 + 1
    (b * l, min ((b + 1) * l) n - b * l)

/-! ### Addresses -/

/-- A hall address with the place of an element in its crate; `unm` says that it is handled as unmapped (R303). -/
structure HSpot where
  node : Nat
  addr : Nat
  scale : Nat := 0
  pos : Nat := 0
  unm : Bool := false
  deriving DecidableEq

/-- Key of a shard-map entry in a run's cache: its place in the tasting room, so that operands that share an entry share its
reading (R67, R70). -/
def shardKey (t : Rec) (n : Nat) : Nat := (8 * t.smap + n) % 2 ^ 22

/-- The effective base of an element (R68) once its shard-map entry is cached: none where the entry was unreadable or
is not yet read. -/
def hallBase (r : Run) (l : LRec) (c : Crd) : Option Nat :=
  let t := l.tensor
  if t.sharded then (smGet r.shard (shardKey t (t.shardNo c)) none).map (fun b => b / 16 * 16)
  else some (t.base / 16 * 16)

/-- The address of local coordinates in a shard of base `b` (R68, R69, R71 to R73). -/
def hallAt (s : State) (l : LRec) (b : Nat) (ext loc : Crd) : HSpot :=
  let t := l.tensor
  let sp := t.spot ext loc
  let node := b / 2 ^ 48 % 2 ^ 16
  let here := node == nodeId s
  let vb := match l.res with
    | .pinned v _ => if here then v else 0
    | _ => 0
  { node := node, addr := (b % 2 ^ 48 + vb + sp.off) % 2 ^ 48, scale := (b % 2 ^ 48 + vb + sp.scale) % 2 ^ 48,
    pos := sp.pos, unm := here && l.res == .missing }

/-- The address of an element. -/
def hallOf (s : State) (r : Run) (l : LRec) (c : Crd) : Option HSpot :=
  (hallBase r l c).map (fun b =>
    let lc := l.tensor.localOf c
    hallAt s l b lc.2 lc.1)

/-- The shard-map entries of some coordinates read into the run's cache (R67, R70); an entry with an uncorrectable error
is kept as unreadable and recorded (R375). -/
def ensureShards (s : State) (p : Nat) (r : Run) (l : LRec) (cs : List Crd) : State × Run :=
  let t := l.tensor
  if t.sharded then
    ((cs.map t.shardNo).eraseDups).foldl
      (fun acc n =>
        let k := shardKey t n
        if smHas acc.2.shard k then acc
        else
          let off := 64 * t.smap + 8 * n
          let bad := trUe acc.1 off 8
          let s := if bad then
              recordUes acc.1 (whoPress p)
                ((List.range 2).filterMap (fun i =>
                  let w := trAddr (off + 4 * i) / 4
                  if acc.1.mem.ueWords.contains w then some w else none))
            else acc.1
          (s, { acc.2 with shard := smPut acc.2.shard k (if bad then none else some (leNat (trBytes s off 8))) }))
      (s, r)
  else (s, r)

/-! ### Lines -/

/-- A line that an operand needs: its node, its line number and whether it is handled as unmapped. -/
structure LineKey where
  node : Nat
  line : Nat
  unm : Bool
  deriving DecidableEq

/-- What a line is to the load unit: bytes at a local address, bytes outside the cellar, zeros (unmapped or refused), a
fabric read not yet issued or pending, or one that has failed for good. -/
inductive LineAt where
  | mem (a : Nat)
  | inner
  | unmapped
  | refused
  | missing
  | pending
  | dead
  deriving DecidableEq

/-- What a fabric read is wanted for: an operand role of the stage, and a row of one of its units (R238). -/
structure Want where
  role : Nat
  unit : Nat := 0
  row : Nat := 0
  deriving DecidableEq

/-- Whether a fabric read brings a line for an operand. A row of SRC is fetched for one pass, unless COALESCE keeps it (R238, R239);
index, auxiliary and offset lines serve every pass. -/
def FRead.serves (x : FRead) (c : SCtx) (w : Want) (k : LineKey) : Bool :=
  x.node == k.node && decide (x.addr ≤ 64 * k.line) && decide (64 * k.line < x.addr + 64 * x.lines)
    && (x.copy || (x.stage == c.j && x.role == w.role
          && ((w.role != 0 && w.role != 3) || (w.role == 0 && coalesce c) || (x.unit == w.unit && x.row == w.row))))

/-- Where a line is read from. -/
def lineAt (s : State) (c : SCtx) (r : Run) (w : Want) (k : LineKey) : LineAt :=
  let a := 64 * k.line
  if k.unm then .unmapped
  else if c.inner && k.node == nodeId s && decide (2 ^ 47 ≤ a) then .inner
  else if k.node = nodeId s then
    match r.staged.find? (fun e => decide (e.1 ≤ a) && decide (a < e.1 + e.2.1)) with
    | some e =>
      let at' := (stageBase s c.p c.dom).getD 0 + e.2.2 + (a - e.1)
      if mayUse s c.dom (at' / 0x4000000) then .mem at' else .refused
    | none =>
      match region a with
      | .cellar m => if mayUse s c.dom m then .mem a else .refused
      | .tasting => .mem a
      | _ => .unmapped
  else
    match r.reads.find? (fun x => x.serves c w k) with
    | none => .missing
    | some x =>
      if x.dead then .dead
      else if x.landed then
        let at' := (stageBase s c.p c.dom).getD 0 + x.stageOff + (a - x.addr)
        if mayUse s c.dom (at' / 0x4000000) then .mem at' else .refused
      else .pending

/-- One byte of a readable line. `old` gives the byte that the descriptor's own store replaced, where R215 or R241
leaves open which of the two a load finds. -/
def lineByte (s : State) (c : SCtx) (r : Run) (w : Want) (useOld : Bool) (node a : Nat) (unm : Bool) : Byte :=
  match lineAt s c r w ⟨node, a / 64, unm⟩ with
  | .mem b =>
    let k := physOf s (b + a % 64)
    if useOld then smGet r.old k (memByte s.mem k) else memByte s.mem k
  | .inner => cellGet r.tileBytes a
  | _ => 0

/-- The bytes that an element's load touches: its own, and its scale byte. -/
def elemAddrs (f : Nat) (h : HSpot) : List Nat :=
  let own := spotBytes f { off := h.addr, pos := h.pos }
  if fmtCrated f then h.scale :: own else own

/-- The outcome of reading operands. -/
inductive ROut where
  | ok (l : List (Nat × Nat))
  | wait
  | fail (cause : Nat)
  | dead
  deriving DecidableEq

/-- A fabric read whose response is still to come. -/
def FRead.flying (x : FRead) : Bool := !x.landed && !x.dead

/-- The lowest number from `t` on, of the next `n`, that is not in use. -/
def firstFree (used : List Nat) (t : Nat) : Nat → Option Nat
  | 0 => none
  | n + 1 => if used.contains t then firstFree used (t + 1) n else some t

/-- The lowest free read tag of a press (R178): of its 4,096, one that no read in flight and no retired read holds. -/
def freeTag (x : Press) (p : Nat) (r : Run) : Option Nat :=
  firstFree ((r.reads.filter (·.flying)).map (·.tag) ++ x.retired) (4096 * p) 4096

/-- Runs of consecutive lines of one node within 2 KiB blocks (R238, R327). -/
def lineRuns : List LineKey → List (Nat × Nat × Nat)
  | [] => []
  | k :: rest =>
    match lineRuns rest with
    | (n, l, c) :: more =>
      if n = k.node ∧ l = k.line + 1 ∧ l % 32 ≠ 0 then (n, k.line, c + 1) :: more
      else (k.node, k.line, 1) :: (n, l, c) :: more
    | [] => [(k.node, k.line, 1)]

/-- Bytes of staging area for landed reads (R179): the lower half for a BLEND (R284). -/
def stageLimit (f : Flight) : Nat := if opOf f.words = 0x30 then 0x400000 else 0x800000

/-- The parts of the staging area in use: staged copies, and reads in flight or landed. -/
def stageUsed (r : Run) : List (Nat × Nat) :=
  r.staged.map (fun e => (e.2.2, e.2.1)) ++ (r.reads.filter (!·.dead)).map (fun x => (x.stageOff, 64 * x.lines))

/-- The lowest offset at which `n` bytes of the staging area are free. -/
def freeSpot (used : List (Nat × Nat)) (limit n : Nat) : Option Nat :=
  let fits := fun (o : Nat) => decide (o + n ≤ limit) && used.all (fun u => decide (o + n ≤ u.1) || decide (u.1 + u.2 ≤ o))
  ((0 :: used.map (fun u => u.1 + u.2)).filter fits).foldl
    (fun b o => match b with
      | none => some o
      | some x => some (min x o)) none

/-- A landed read whose place may be taken: of a unit that is past, and for a row that the unit in load wants now any but that unit's
own. The lines of a staged copy stay. -/
def FRead.mayGo (x : FRead) (r : Run) (now : Bool) : Bool :=
  x.landed && !x.copy && !(x.stage == r.stage && x.unit == r.unit)
    && (now || decide (x.unit < nth r.next x.stage 0))

/-- Room in the staging area for `n` bytes, taken from landed reads where need be, the oldest first. -/
def makeRoom (limit n : Nat) (now : Bool) (r : Run) : Nat → Option (Run × Nat)
  | 0 => none
  | k + 1 =>
    match freeSpot (stageUsed r) limit n with
    | some o => some (r, o)
    | none =>
      match r.reads.find? (fun x => x.mayGo r now) with
      | some x => makeRoom limit n now { r with reads := r.reads.filter (· != x) } k
      | none => none

/-- The READ transaction of a fabric read (R324, R335); TABLE goes with a vintaged record (R308). -/
def readTxn (tag node addr lines table : Nat) : Txn :=
  { typ := 0, tag := BitVec.ofNat 18 tag, dnode := BitVec.ofNat 16 node, addr := BitVec.ofNat 48 addr,
    table := BitVec.ofNat 12 table, lenM1 := BitVec.ofNat 5 (lines - 1) }

/-- Attempts to send a fabric read, at most `n` of them (R199): with no usable route each is answered UNREACHABLE at once
(R333), and a read with no attempt left has failed for good. A further attempt counts as a reissue. -/
def trySend (s : State) (p : Nat) (e : FRead) : Nat → State × FRead
  | 0 => (s, { e with dead := true })
  | n + 1 =>
    let t := sendTxn s (readTxn e.tag e.node e.addr e.lines e.table) none none
    if t.2 then (t.1, e)
    else
      let s := if n = 0 then t.1 else bump t.1 (0x4018 + 256 * p) 1
      trySend s p { e with fails := e.fails + 1 } n

/-- CTL.PRESS_CFG.FAB_RETRY (R202). -/
def fabRetry (s : State) : Nat := rfld s 0x0090 20 4

/-- One fabric read issued, where a tag and room in the staging area are free: its entry in the run, and the transaction on its way
(R178). A read of the pass in load goes on with the retry count that its save frame held (R195). The last part says whether it was
issued. -/
def issueRead (s : State) (p : Nat) (r : Run) (limit : Nat) (now : Bool) (e : FRead) : State × Run × Bool :=
  match freeTag (getPress s p) p r, makeRoom limit (64 * e.lines) now r (r.reads.length + 1) with
  | some tag, some (r, off) =>
    let had := if r.loading && e.stage == r.stage && e.unit == r.unit then r.retry else 0
    let t := trySend s p { e with tag := tag, stageOff := off, fails := had } (fabRetry s + 1 - had)
    (t.1, { r with reads := r.reads ++ [t.2] }, true)
  | _, _ => (s, r, false)

/-- PRESS.STATUS.FAB_WAIT: a retry is pending (R199). -/
def Run.waiting (r : Run) : Bool := r.reads.any (fun e => 0 < e.fails && e.flying)

/-- Lines of other nodes asked for: in fabric reads of at most 2 KiB, in rising order, as far as tags and staging area go (R238). The
last part says whether all were issued. -/
def askLines (s : State) (r : Run) (c : SCtx) (limit : Nat) (now : Bool) (w : Want) (table : Nat) (ks : List LineKey) :
    State × Run × Bool :=
  let lines := sortedNat (ks.map (fun k => k.node * 2 ^ 42 + k.line))
  (lineRuns (lines.map (fun l => (⟨l / 2 ^ 42, l % 2 ^ 42, false⟩ : LineKey)))).foldl
    (fun (acc : State × Run × Bool) x =>
      if acc.2.2 then
        issueRead acc.1 c.p acc.2.1 limit now
          { tag := 0, node := x.1, addr := 64 * x.2.1, lines := x.2.2, stageOff := 0, role := w.role, stage := c.j, unit := w.unit,
            row := w.row, table := table }
      else acc)
    (s, r, true)

/-- Whether a press may ask for a line of an operand now: not while it saves its frame (R192), and not ahead of the order that
COALESCE gives its reads, unless every read issued has come back (R239). -/
def mayAsk (s : State) (r : Run) (c : SCtx) (w : Want) : Bool :=
  (getPress s c.p).state != .save
    && !(w.role == 0 && r.order.contains (c.j, w.unit, w.row) && r.reads.any (·.flying))

/-- The marks and errors of a readable line: the cause that abandons its pass (R375, R379, R385), with its records. -/
def lineCheck (s : State) (c : SCtx) (la : LineAt) : State × Option Nat :=
  match la with
  | .mem a =>
    let s := countCe s (physOf s a) 64
    let ues := localUe s a 64
    let s := recordUes s (whoPress c.p) ues
    let blk := blockOf (physOf s a)
    let s := countSbUe s (whoPress c.p) blk
    let cell := a < 0x100000000
    (s, if !ues.isEmpty then some 6 else if cell && sbMarked s.mem blk then some 7 else none)
  | _ => (s, none)

/-- A refused access of a descriptor noted for its FOREIGN_BIN event (R37). -/
def noteRefused (s : State) (fid a : Nat) : State :=
  match getFlight s fid with
  | none => s
  | some f =>
    setFlight s { f with cnt := { f.cnt with refFirst := some (f.cnt.refFirst.getD a), refCount := f.cnt.refCount + 1 } }

/-- The accesses that reach no storage: an unmapped line is recorded (R16), a refused one counted (R37). -/
def lineNote (s : State) (c : SCtx) (k : LineKey) (la : LineAt) : State :=
  match la with
  | .unmapped => evUnmapped s (whoPress c.p) (64 * k.line) 0
  | .refused => noteRefused s c.fid (64 * k.line)
  | _ => s

/-- The lines of some elements, each once. -/
def elemLines (f : Nat) (hs : List HSpot) : List LineKey :=
  (hs.flatMap (fun h => (elemAddrs f h).map (fun a => (⟨h.node, a / 64, h.unm⟩ : LineKey)))).eraseDups

/-- The lines of some elements asked for ahead of their load, where they stand on another node and have not been asked for. The third
part says whether every line has been asked for, the fourth whether every line is at hand. -/
def askElems (s : State) (r : Run) (c : SCtx) (w : Want) (now : Bool) (cs : List Crd) : State × Run × Bool × Bool :=
  let l := c.role w.role
  let e := ensureShards s c.p r l cs
  let s := e.1
  let r := e.2
  let at' := (elemLines l.tensor.fmt (cs.filterMap (hallOf s r l))).map (fun k => (k, lineAt s c r w k))
  let miss := (at'.filter (fun x => x.2 == .missing)).map (·.1)
  match getFlight s c.fid, stageBase s c.p c.dom with
  | some fl, some _ =>
    if miss.isEmpty then (s, r, true, !at'.any (fun x => x.2 == .pending))
    else
      let x := askLines s r c (stageLimit fl) now w l.tensor.table miss
      (x.1, x.2.1, x.2.2, false)
  | _, _ => (s, r, true, true)

/-- No element of an operand stands on another node. -/
def allHere (s : State) (l : LRec) : Bool := !l.tensor.sharded && l.tensor.base / 2 ^ 48 % 2 ^ 16 == nodeId s

/-- Elements of one operand read in order: (code, scale byte) pairs, once every line is at hand. Lines that are missing are
requested, and the answer is to wait. -/
def readElems (s : State) (r : Run) (c : SCtx) (w : Want) (cs : List Crd) : State × Run × ROut :=
  let l := c.role w.role
  let f := l.tensor.fmt
  let e := ensureShards s c.p r l cs
  let s := e.1
  let r := e.2
  let hs := cs.map (fun x => hallOf s r l x)
  if hs.any (·.isNone) then (s, r, .fail 6)
  else
    let hs := hs.filterMap id
    let at' := (elemLines f hs).map (fun k => (k, lineAt s c r w k))
    if at'.any (fun x => x.2 == .dead) then (s, r, .dead)
    else
      let miss := (at'.filter (fun x => x.2 == .missing)).map (·.1)
      if !miss.isEmpty then
        match getFlight s c.fid, stageBase s c.p c.dom with
        | some fl, some _ =>
          if mayAsk s r c w then
            let x := askLines s r c (stageLimit fl) true w l.tensor.table miss
            (x.1, x.2.1, .wait)
          else (s, r, .wait)
        | _, _ => (s, r, .dead)
      else if at'.any (fun x => x.2 == .pending) then (s, r, .wait)
      else
        let s := at'.foldl (fun s x => lineNote s c x.1 x.2) s
        let chk := at'.foldl
          (fun acc x =>
            let y := lineCheck acc.1 c x.2
            (y.1, acc.2 ++ y.2.toList))
          (s, ([] : List Nat))
        let s := chk.1
        if chk.2.contains 6 then (s, r, .fail 6)
        else if chk.2.contains 7 then (s, r, .fail 7)
        else
          let read := hs.foldl
            (fun acc h =>
              let as := spotBytes f { off := h.addr, pos := h.pos }
              let open' := as.any (fun a =>
                match lineAt s c r w ⟨h.node, a / 64, h.unm⟩ with
                | .mem b => smHas r.old (physOf s (b + a % 64))
                | _ => false)
              let useOld := open' && Config.freeBool acc.1
              let bs := as.map (fun a => lineByte s c r w useOld h.node a h.unm)
              let sc := if fmtCrated f then (lineByte s c r w useOld h.node h.scale h.unm).toNat else 0
              (if open' then acc.1 + 1 else acc.1, acc.2 ++ [(spotCode f { off := h.addr, pos := h.pos } bs, sc)]))
            (s.draw, ([] : List (Nat × Nat)))
          ({ s with draw := read.1 }, r, .ok read.2)

/-- The vintage tag that an operand's element at some coordinates carries (R198): of the landed read that holds it, or of
the pinned vintage; 0 for a record with TABLE = 0. -/
def tagOf (s : State) (c : SCtx) (r : Run) (w : Want) (x : Crd) : Word :=
  let l := c.role w.role
  if l.tensor.table = 0 then 0
  else
    match hallOf s r l x with
    | none => 0
    | some h =>
      if h.node = nodeId s then l.tag
      else
        match r.reads.find? (fun e => e.serves c w ⟨h.node, h.addr / 64, h.unm⟩) with
        | some e => e.vtag
        | none => 0

/-- Every line of some elements stands on this node, readable, without an uncorrectable error and in no marked block: their reading
ahead of their pass changes nothing else. -/
def cleanElems (s : State) (c : SCtx) (r : Run) (w : Want) (cs : List Crd) : Bool :=
  let l := c.role w.role
  cs.all (fun x =>
    match hallOf s r l x with
    | none => false
    | some h =>
      (elemLines l.tensor.fmt [h]).all (fun k =>
        match lineAt s c r w k with
        | .mem a => (localUe s a 64).isEmpty && !(a < 0x100000000 && sbMarked s.mem (blockOf (physOf s a)))
        | _ => false))

/-! ### Index and offset values -/

/-- A count added to a descriptor's CLAMPED (R83). -/
def addClamped (s : State) (fid n : Nat) : State :=
  match getFlight s fid with
  | none => s
  | some f => setFlight s { f with cnt := { f.cnt with clamped := f.cnt.clamped + n } }

/-- The extent that index values are clamped against (R221, R237). -/
def idxLimit (c : SCtx) : Nat :=
  if c.op = 0x03 then
    let p := fld (dOpa c.words) 0 2
    if bitAt (dOpa c.words) 2 then crd c.dstRec.ext p else crd c.srcRec.ext p
  else if c.op = 0x09 ∨ c.op = 0x0A then crd c.dstRec.ext 1
  else crd c.srcRec.ext 1

/-- Index values at some positions read for a unit, clamped and cached with their vintage tags (R106, R82, R83, R198): a clamped one
counts once, however often it is read. -/
def ensureIdx (s : State) (r : Run) (c : SCtx) (n : Nat) (ks : List Nat) : State × Run × ROut :=
  let need := (ks.filter (fun k => !smHas r.idx (idxKey c.j k))).eraseDups
  if need.isEmpty then (s, r, .ok [])
  else
    let t := c.idx.tensor
    let w : Want := { role := 1, unit := n }
    let x := readElems s r c w (need.map (ofLogical t.ext))
    match x.2.2 with
    | .ok vs =>
      let vals := (need.zip vs).map (fun kv => (idxKey c.j kv.1, clampTo (indexInt t.fmt kv.2.2 kv.2.1) (idxLimit c)))
      let new := (vals.filter (fun v => v.2.2 && !x.2.1.counted.contains v.1)).map (·.1)
      let tags := need.foldl
        (fun m k => smPut m (idxKey c.j k) (tagOf x.1 c x.2.1 w (ofLogical t.ext k))) x.2.1.idxTag
      (addClamped x.1 c.fid new.length,
       { x.2.1 with idx := vals.foldl (fun m v => smPut m v.1 v.2.1) x.2.1.idx,
                    idxTag := if t.table = 0 then x.2.1.idxTag else tags, counted := x.2.1.counted ++ new },
       .ok [])
    | o => (x.1, x.2.1, o)

/-- The bags of a group that the window holds. -/
def groupBags (c : SCtx) (g : Nat) : List Nat :=
  ((List.range (poolG c)).filter (fun i => g * poolG c + i < crd c.ext 1)).map
    (fun i => crd (dStart c.words) 1 + g * poolG c + i)

/-- The offsets of a bag group that are still to be read (R248). -/
def bagNeed (r : Run) (c : SCtx) (g : Nat) : List Nat :=
  if c.op = 0x0B ∧ bitAt (dOpa c.words) 17 then
    (((groupBags c g) ++ (groupBags c g).map (· + 1)).eraseDups).filter (fun b => !smHas r.idx (offKey c.j b))
  else []

/-- The offsets of a bag group read, limited and cached, with bags cut at 4,096 entries counted once (R248). -/
def ensureBags (s : State) (r : Run) (c : SCtx) (g : Nat) : State × Run × ROut :=
  if c.op = 0x0B ∧ bitAt (dOpa c.words) 17 then
    let bs := groupBags c g
    let need := bagNeed r c g
    let t := c.offs.tensor
    let n := c.idx.tensor.count
    let x := if need.isEmpty then (s, r, ROut.ok []) else readElems s r c { role := 4 } (need.map (ofLogical t.ext))
    match x.2.2 with
    | .ok vs =>
      let y := (need.zip vs).foldl
        (fun acc kv =>
          let i := indexInt t.fmt kv.2.2 kv.2.1
          let v := if i < 0 then (0, true) else if (n : Int) < i then (n, true) else (i.toNat, false)
          (smPut acc.1 (offKey c.j kv.1) v.1, if v.2 then acc.2 + 1 else acc.2))
        (x.2.1.idx, 0)
      let z := bs.foldl
        (fun acc b =>
          if smHas acc.1 (cutKey c.j b) then acc
          else
            let o := smGet acc.1 (offKey c.j b) 0
            let o1 := smGet acc.1 (offKey c.j (b + 1)) 0
            (smPut acc.1 (cutKey c.j b) 0, if o + 4096 < o1 then acc.2 + 1 else acc.2))
        (y.1, y.2)
      (addClamped x.1 c.fid z.2, { x.2.1 with idx := z.1 }, .ok [])
    | o => (x.1, x.2.1, o)
  else (s, r, .ok [])

end Sys2Proof.Machine
end

