-- ==== Sys2Proof/Machine/Journal.lean ====
section
/-!
DEFINITION. Machine/Journal.lean: the journal line and the skip map of a DECANT (R225 to R230).
-/
namespace Sys2Proof.Machine

/-- Tasting-room byte offsets of the journal line and of the skip map (R225). -/
def jlineOff (ws : List Word) : Nat := 64 * fld (dOpa ws) 0 19
def skipOff (ws : List Word) : Nat := 64 * fld (dOpb ws) 0 19
/-- DVX and DVIN as the journal holds them. -/
def jDvx (ws : List Word) : Nat := (if bitAt (dOpa ws) 22 then 4 else 0) + fld (dOpa ws) 20 2

/-- SVTAG and DVTAG as a pickup resolves them (R230): 0 where nothing is resolved on this node. -/
def jTags (st : Stage) : Word × Word := (st.src.tag, st.dst.tag)

/-- SVTAG as a run writes it (R229): the tag pinned, or the one that the serving node returned for the rows loaded first (R198). -/
def runTag (st : Stage) (r : Run) : Word := if st.src.tag = 0 then r.svtag else st.src.tag

/-- N of R226. -/
def jTotal (st : Stage) : Nat := superCount st.ext

/-- The point at which a DECANT with RESUME = 1 continues, with DONE_COUNT, LOT_BLOCKS and TCOMMIT, or none where the journal does
not match or cannot be read (R230, R375). -/
def journalMatch (s : State) (st : Stage) : Option (Nat × Nat × Nat × BitVec 64) :=
  let o := jlineOff st.words
  let bs := trBytes s o 64
  let w := fun i => wordAt bs (4 * i)
  let state := fld (w 0) 8 8
  let com := (w 5).toNat
  if trUe s o 64 then none
  else if fld (w 0) 16 16 = 0xDECA ∧ w 15 = crc32c (bs.take 60) ∧ (1 ≤ state ∧ state ≤ 3)
      ∧ w 2 = BitVec.ofNat 32 (wFld st.words 3 16 16 * 65536 + wFld st.words 3 0 16)
      ∧ fld (w 0) 0 3 = jDvx st.words ∧ w 8 = (jTags st).1 ∧ w 9 = (jTags st).2
      ∧ (w 4).toNat = jTotal st ∧ com ≤ jTotal st then
    some (com, (w 7).toNat, (w 12).toNat, w 11 ++ w 10)
  else none

/-- The uncorrectable words of the journal line recorded as the cellar master's reader (R375). -/
def journalUe (s : State) (st : Stage) : State :=
  let o := jlineOff st.words
  recordUes s (whoMatrix 0) ((List.range 16).filterMap (fun i =>
    let w := trAddr (o + 4 * i) / 4
    if s.mem.ueWords.contains w then some w else none))

/-- The start of a DECANT (R230): super-tile, DONE_COUNT, LOT_BLOCKS and the time of the latest commit. -/
def decantStart (s : State) (st : Stage) : Nat × Nat × Nat × BitVec 64 :=
  let fresh := (0, 0, 0, Config.noCommitTime)
  if bitAt (dOpa st.words) 19 then (journalMatch s st).getD fresh else fresh

/-- A DECANT with the start that its journal gives it: its counts go on from there. -/
def Flight.startAt (f : Flight) (js : Nat × Nat × Nat × BitVec 64) (cnt : Counts) : Flight :=
  { f with resume := some js.1, tcommit := js.2.2.2, cnt := { cnt with done := js.2.1, lotBlocks := js.2.2.1 } }

/-- A DECANT that continues behind its last super-tile has no pass to run (R189, R230). -/
def Flight.nothingLeft (f : Flight) : Bool :=
  match f.stages with
  | [st] => st.op == 0x28 && f.resume == some (jTotal st)
  | _ => false

/-- The latched words with RESUME = 1, as a re-execution reads them (R234). -/
def withResume (st : Stage) : Stage :=
  { st with words := st.words.set 12 (setBit (dOpa st.words) 19 true) }

/-- The journal line written (R228, R229): STATE, the time of this run's latest commit and the counts as they stand. -/
def writeJournal (s : State) (f : Flight) (r : Run) (state : Nat) : State :=
  let st := nth f.stages 0 {}
  let done := f.cnt.done + nth f.cnt.stageDone 0 0
  let w : List Nat :=
    [0xDECA * 65536 + state * 256 + jDvx st.words,
     f.ring % 1024 * 4096 + f.entry % 4096,
     wFld st.words 3 16 16 * 65536 + wFld st.words 3 0 16,
     genOf f.words * 65536,
     jTotal st, r.tile, r.jstart, min 0xFFFFFFFF done,
     (runTag st r).toNat, (jTags st).2.toNat,
     r.tcommit.toNat % 2 ^ 32, r.tcommit.toNat / 2 ^ 32,
     f.cnt.lotBlocks, 0, 0]
  let bs := w.flatMap (leBytes 4)
  trStore s (jlineOff st.words) (bs ++ leBytes 4 (crc32c bs).toNat)

/-- Key of a cached byte of the skip map. -/
def skipKey (i : Nat) : Nat := 2 ^ 43 + i

/-- Whether super-tile `n` is skipped; a skip-map line is read once, before the first super-tile that it describes
(R226). -/
def skipped (s : State) (st : Stage) (r : Run) (n : Nat) : Run × Bool :=
  if bitAt (dOpb st.words) 31 then
    let line := n / 512
    let r :=
      if smHas r.idx (skipKey (64 * line)) then r
      else
        let put := fun (m : SMap Nat) (i : Nat) =>
          smPut m (skipKey (64 * line + i)) ((trBytes s (skipOff st.words + 64 * line + i) 1).headD 0).toNat
        { r with idx := (List.range 64).foldl put r.idx }
    (r, smGet r.idx (skipKey (n / 8)) 0 / 2 ^ (n % 8) % 2 == 1)
  else (r, false)

end Sys2Proof.Machine
end

