-- ==== Sys2Proof/Machine/Faults.lean ====
section
/-!
DEFINITION. Machine/Faults.lean: failures charged to a press or a table (R385, R386, R273), corking (R387, R388), a table
released (R260), and the counts of a descriptor.
-/
namespace Sys2Proof.Machine

/-! ### Counts of a descriptor -/

/-- The counts of a descriptor changed. -/
def updCnt (s : State) (fid : Nat) (g : Counts → Counts) : State :=
  match getFlight s fid with
  | none => s
  | some f => setFlight s { f with cnt := g f.cnt }

/-- Elements added to what stage `j` has written. -/
def addDone (s : State) (fid j n : Nat) : State :=
  updCnt s fid (fun c =>
    let l := c.stageDone ++ List.replicate (j + 1 - c.stageDone.length) 0
    { c with stageDone := l.set j (nth l j 0 + n) })

/-- The run of a descriptor on a press changed, whether it runs or is saved. -/
def updRun (s : State) (p fid : Nat) (g : Run → Run) : State :=
  let x := getPress s p
  let h := fun (r : Run) => if r.fid = fid then g r else r
  setPress s p { x with run := x.run.map h, saved := x.saved.map h }

/-- The run of a descriptor on a press. -/
def findRun (s : State) (p fid : Nat) : Option Run :=
  let x := getPress s p
  (x.run.toList ++ x.saved.toList).find? (fun r => r.fid == fid)

/-! ### The sorting table (R260) -/

/-- The table of press `p` released, or its request withdrawn. -/
def releaseTable (s : State) (p : Nat) : State :=
  let k := terraceOf p
  let t := getTable s k
  let t := { t with waiting := t.waiting.filter (· != p) }
  if t.owner = some p then setTable s k { t with owner := none, pairs := [], segment := 0 } else setTable s k t

/-- A table requested by press `p`. -/
def requestTable (s : State) (p : Nat) : State :=
  let k := terraceOf p
  let t := getTable s k
  if t.owner = some p ∨ t.waiting.contains p then s else setTable s k { t with waiting := t.waiting ++ [p] }

/-! ### Descriptors of a corked press (R388) -/

/-- Whether a descriptor has an accumulating stage (R257, R294). -/
def accumulates (f : Flight) : Bool := f.stages.any (fun st => accumulating st.op st.words)

/-- A stored pass of a descriptor that is re-executed counts for no descriptor any more, nor does what it sends. -/
def orphanWaits (s : State) (p fid : Nat) : State :=
  let x := getPress s p
  let s := setOuts s (s.fab.outs.map (fun o => if o.fid = fid then { o with fid := 0 } else o))
  setPress s p { x with waits := x.waits.map (fun w => if w.fid = fid then { w with fid := 0 } else w) }

/-- The transactions into which a corked press would still have stored are given up, with their pool blocks (R387). -/
def dropOpen (s : State) (fid : Nat) : State :=
  let gone := s.fab.outs.filter (fun o => o.fid == fid && o.held && !o.toStore.isEmpty)
  gone.foldl (fun s o => dropOut (if o.poolBlock then dischargeStream s o.stream else s) o.key) s

/-- Pool blocks that the handovers of a run hold, or that its unit in load has taken, are released (R41). -/
def dropHandBlocks (s : State) (st : Nat) (r : Run) : State :=
  (r.handBlocks ++ List.replicate r.got 0).foldl (fun s _ => dischargeStream s st) s

/-- A descriptor that has ended stands behind all that ended before it (R162). -/
def finished (s : State) (f : Flight) : Flight :=
  { f with phase := .finished, finish := (s.flights.map (·.finish)).foldl max 0 + 1 }

/-- The next place ahead of every queued descriptor: the largest of all. -/
def nextRequeue (s : State) : Nat := (s.flights.map (·.requeue)).foldl max 0 + 1

/-- The treatment of R388 for one descriptor of a corked press. -/
def corkFlight (s : State) (p : Nat) (r : Run) : State :=
  match getFlight s r.fid with
  | none => s
  | some f =>
    let s := dropOpen (dropHandBlocks s f.stream r) f.id
    let dec := (nth f.stages 0 {}).op == 0x28
    if accumulates f || (r.isStaged && !dec) then
      -- the pass in load and every later one are given up; the card waits for the checks still due
      let due := (getPress s p).waits.any (fun w => w.fid == f.id)
      let f := { f with cnt := { f.cnt with aborted := true } }
      setFlight s (if due then { f with phase := .running p } else finished s f)
    else
      let s := orphanWaits s p f.id
      -- counts and lot fields start afresh; the refused accesses of the descriptor stay noted for its one event (R37)
      let cnt : Counts := { shape := f.cnt.shape, refFirst := f.cnt.refFirst, refCount := f.cnt.refCount }
      let f := { f with phase := .queued, cnt := cnt, resume := none, requeue := nextRequeue s }
      if dec then
        let st := withResume (nth f.stages 0 {})
        let f := { f with stages := [st] }.startAt (decantStart s st) cnt
        setFlight s (if f.nothingLeft then finished s { f with press := 255 } else f)
      else setFlight s f

/-- Press `p` is corked (R387). -/
def cork (s : State) (p cause : Nat) : State :=
  if isCorked s p then s
  else
    let x := getPress s p
    let cur := curWord (runFlight s x.run)
    let sav := curWord (runFlight s x.saved)
    let tags := match x.run with
      | some r => (r.reads.filter (·.flying)).map (·.tag)
      | none => []
    let s := setPress s p { x with state := .corked, run := none, waiting := none, retired := x.retired ++ tags }
    let s := rsetBit s (if p < 32 then 0xD014 else 0xD018) (p % 32) true
    let s := releaseTable s p
    let s : State := match x.run with
      | some r => corkFlight s p r
      | none => s
    let s : State := match x.saved with
      | some r => corkFlight s p r
      | none => s
    -- a press that is waiting to be tasted is not tasted (R398)
    let s := if s.coop.pending = some p then
        rsetBit { s with coop := { s.coop with pending := none } } 0xE004 11 true
      else s
    judgeReplace (emitFault s { code := 0x21, kind := 1, unit := p, args := [cause, cur.toNat, sav.toNat] })

/-- INTEG.CORK_CFG.THRESH (R405). -/
def corkThresh (s : State) : Nat := max 1 (rfld s 0xD004 16 4)

/-- A failure charged to press `p`, and the cork that it brings (R386). -/
def chargePress (s : State) (p cause : Nat) : State :=
  let x := getPress s p
  let s := setPress (bump s 0xD040 1) p { x with fails := s.time.edges :: x.fails, total := x.total + 1 }
  if corkThresh s ≤ inWindow s (getPress s p).fails then cork s p cause else s

/-- A failure charged to the table of terrace `k`, and the fence that it brings (R273). -/
def chargeTable (s : State) (k : Nat) : State :=
  let t := getTable s k
  let s := setTable (bump s 0xD044 1) k { t with fails := s.time.edges :: t.fails }
  let t := getTable s k
  if !t.fenced && corkThresh s ≤ inWindow s t.fails then
    emitFault (setTable s k { t with fenced := true }) { code := 0x22, kind := 7, unit := k }
  else s

/-- A failed check with its cause, numbered as R385 names them: counted for the descriptor and charged. -/
def lotFailed (s : State) (p fid cause : Nat) : State :=
  let s := updCnt s fid (fun c =>
    { c with lotFail := true, failCause := some (c.failCause.getD cause), failPasses := c.failPasses + 1 })
  if cause < 4 then chargePress s p cause
  else if cause < 6 then chargeTable s (terraceOf p)
  else bump s 0xD044 1

end Sys2Proof.Machine
end

