-- ==== Sys2Proof/Machine/Store.lean ====
section
/-!
DEFINITION. Machine/Store.lean: the store path (R186): encoding of elements and of crated blocks (R80, R81, R91, R103,
R104), pad lanes (R216, R217), the terms of the store leg (R380, R382), local stores and blend operations (R244, R245),
and the fabric transactions of remote stores (R246, R340, R342, R345).
-/
namespace Sys2Proof.Machine

/-- An element that a unit writes: its destination coordinates, its code in a format with the scale that goes with it, the
index of its lot term, the row of the pass it comes from, whether a 32-bit destination takes it unchanged (R267), and whether
its block receives a source block whole (R92). -/
structure SOut where
  dst : Crd
  fmt : Nat
  code : Nat
  tag : Nat := 0x7F
  tagged : Bool := false
  idx : Nat := 0
  row : Nat := 0
  raw : Bool := false
  whole : Bool := false

/-- The value of an element on its way to the converter. -/
def SOut.val (o : SOut) : Val := if o.tagged then decodeScaled o.fmt o.tag o.code else decode o.fmt o.code

/-- Where a unit's elements go: the record, the coordinates that its origin has, and the descriptor's controls. `role` is
the role under which its shard entries are cached; `hand` says that it is a handover tensor. -/
structure Target where
  trec : LRec
  shift : Crd := [0, 0, 0, 0]
  role : Nat := 3
  hand : Bool := false
  inner : Bool := false
  padW : Bool := false
  ovf : Bool := false
  sr : Bool := false

/-- Bytes to be written at a node, with the terms of the store leg and the number of window elements they hold. -/
structure Piece where
  node : Nat
  unm : Bool := false
  bytes : List (Nat × Byte)
  terms : List (Nat × Nat) := []
  els : Nat := 0
  row : Nat := 0

/-- Coordinates within the target's record. -/
def Target.at' (t : Target) (c : Crd) : Crd := (List.range 4).map (fun d => (crd c d - crd t.shift d))

/-- The rounding of one conversion on store (R97): stochastic with a fresh draw, or to nearest even. -/
def storeRnd (sr : Bool) (draw : Nat) : Rnd := if sr then .stoch (Config.stochastic draw).toNat else .rne

/-- The code of an element in a plain destination (R91, R93, R267). -/
def plainCode (g : Nat) (ovf : Bool) (rnd : Rnd) (o : SOut) : Nat :=
  if (!o.tagged && o.fmt == g) || (o.raw && fmtBits g == 32) then o.code % 2 ^ fmtBits g
  else encodePlain g ovf rnd o.val

/-! ### Shards back to coordinates -/

/-- The coordinate along dimension `d` of local coordinate `l` in shard coordinate `q` (the inverse of R65). -/
def Rec.global1 (r : Rec) (d q l : Nat) : Nat :=
  let n := nth r.n d 1
  let k := nth r.k d 1
  match nth r.mode d 0 with
  | 1 => q * k + l
  | 2 => l / k * (k * n) + q * k + l % k
  | 3 => l * n + (q + n - hashSpread l % n) % n
  | _ => l

/-- Every coordinate along dimension `d` that stands there: of a BLOCK sharding whose slices wrap around, more than one (R65). -/
def Rec.globals1 (r : Rec) (d q l : Nat) : List Nat :=
  let p := nth r.n d 1 * nth r.k d 1
  if nth r.mode d 0 = 1 ∧ p < crd r.ext d then
    (List.range (ceilDiv (crd r.ext d) p)).map (fun m => r.global1 d q l + m * p)
  else [r.global1 d q l]

/-- The shard coordinates of an element. -/
def Rec.shardCrd (r : Rec) (c : Crd) : Crd := (List.range 4).map (fun d => (r.shard1 d (crd c d)).1)
def Rec.globalOf (r : Rec) (q l : Crd) : Crd := (List.range 4).map (fun d => r.global1 d (crd q d) (crd l d))
/-- Every element of the tensor's coordinate space that stands at local coordinates of a shard. -/
def Rec.globalsOf (r : Rec) (q l : Crd) : List Crd :=
  let g := fun (d : Nat) => r.globals1 d (crd q d) (crd l d)
  (g 0).flatMap (fun a => (g 1).flatMap (fun b => (g 2).flatMap (fun c => (g 3).map (fun d => [a, b, c, d]))))

/-- The index of a pad lane's term (R382): `c` is its destination coordinate. -/
def padIdx (r : Rec) (c : Crd) : Nat :=
  let q := if r.layout = 0 then r.ext else r.padded r.ext
  2 ^ 63 + crd c 0 + crd q 0 * (crd c 1 + crd q 1 * (crd c 2 + crd q 2 * crd c 3))

/-! ### Pad lanes of plain destinations (R216) -/

/-- The local coordinates of the element position that starts at offset `o` of a shard of local extents `l`, plain
formats only; a position of the padded region counts. -/
def posAt (r : Rec) (l : Crd) (o : Nat) : List Crd :=
  let b := fmtBytes r.fmt
  let planes := (List.range (crd l 2 * crd l 3)).map (fun i => (i % crd l 2, i / crd l 2))
  let p := r.padded l
  planes.flatMap (fun pl =>
    let hi := 16 * (nth r.stride 2 0 * pl.1 + nth r.stride 3 0 * pl.2)
    if o < hi then []
    else if r.layout = 0 then
      (List.range (crd l 1)).filterMap (fun i1 =>
        let row := hi + 16 * (nth r.stride 1 0 * i1)
        if row ≤ o ∧ (o - row) % b = 0 ∧ (o - row) / b < crd l 0 then some [(o - row) / b, i1, pl.1, pl.2] else none)
    else if (o - hi) % b ≠ 0 then []
    else
      let e := (o - hi) / b
      let rr := e % 1024 / 32
      let cc := e % 32
      let t := e / 1024
      let c :=
        if r.layout = 1 then [32 * (t % (crd p 0 / 32)) + cc, 32 * (t / (crd p 0 / 32)) + rr, pl.1, pl.2]
        else
          let u := t / 64
          let v := t % 64
          [256 * (u % (crd p 0 / 256)) + 32 * (v % 8) + cc, 256 * (u / (crd p 0 / 256)) + 32 * (v / 8) + rr, pl.1, pl.2]
      if crd c 1 < crd p 1 then [c] else [])

/-- A coordinate of the padded region, beyond the local extents (R75). -/
def inPadding (l lc : Crd) : Bool := (List.range 2).any (fun d => crd l d ≤ crd lc d)

/-- The pad lanes of one 64 B line of a plain destination: pieces that write the pad value 0 (R216). `b` is the base of
the shard whose shard coordinates are `q`. A position that holds a window element is none, under whatever coordinates
overlapping strides give it as well. -/
def padPieces (t : Rec) (node base line : Nat) (unm : Bool) (q l : Crd) (inWin : Crd → Bool) : List Piece :=
  (List.range 64).flatMap (fun i =>
    let a := 64 * line + i
    if a < base then []
    else
      let here := posAt t l (a - base)
      if here.any (fun lc => !inPadding l lc && (t.globalsOf q lc).any inWin) then []
      else
        here.filterMap (fun lc =>
          let g := t.globalOf q lc
          let outside := !inPadding l lc
            && (t.globalsOf q lc).all (fun g => (List.range 4).any (fun d => crd t.ext d ≤ crd g d))
          if outside then none
          else
            some { node := node, unm := unm, bytes := (List.range (fmtBytes t.fmt)).map (fun k => (a + k, 0#8)),
                   terms := lotTerms t.fmt 0 0 (padIdx t g) }))

/-! ### Crated blocks (R80, R81, R103, R104) -/

/-- A block of a crated destination with the elements that a pass writes into it: its place, its scale's place, the
shard coordinates, the local coordinates of its first element and the local extents. -/
structure CBlock where
  node : Nat
  unm : Bool
  off : Nat
  scale : Nat
  q : Crd
  first : Crd
  ext : Crd
  els : List (Nat × SOut)

/-- One element put into the list of blocks. -/
def addBlock (node : Nat) (unm : Bool) (off scale pos : Nat) (q first ext : Crd) (o : SOut) : List CBlock → List CBlock
  | [] => [{ node := node, unm := unm, off := off, scale := scale, q := q, first := first, ext := ext, els := [(pos, o)] }]
  | b :: rest =>
    if b.node = node ∧ b.off = off then { b with els := b.els ++ [(pos, o)] } :: rest
    else b :: addBlock node unm off scale pos q first ext o rest

/-- The positions of a block that are elements of the tensor. -/
def CBlock.live (b : CBlock) (t : Rec) : List Nat :=
  (List.range 32).filter (fun i =>
    let lc := b.first.set 0 (crd b.first 0 + i)
    decide (crd lc 0 < crd b.ext 0) && (t.globalsOf b.q lc).any (fun g => decide (crd g 0 < crd t.ext 0)))

/-- Positions written with the pad value (R217). -/
def CBlock.pads (b : CBlock) (t : Rec) (padW : Bool) (inWin : Crd → Bool) : List Nat :=
  if padW then
    (b.live t).filter (fun i =>
      !b.els.any (fun e => e.1 == i) && !(t.globalsOf b.q (b.first.set 0 (crd b.first 0 + i))).any inWin)
  else []

/-- Whether a pass covers every element of the block that lies within the extent (R81). -/
def CBlock.full (b : CBlock) (t : Rec) (pads : List Nat) : Bool :=
  (b.live t).all (fun i => b.els.any (fun e => e.1 == i) || pads.contains i)

/-- The block is the last of a short crate of a LIN row (R80). -/
def CBlock.short (b : CBlock) (t : Rec) : Bool :=
  t.layout == 0 && crd b.ext 0 % 512 != 0 && (crd b.first 0) / 32 == (crd b.ext 0 - 1) / 32

/-- Bytes of a block that hold the bits of position `i`. -/
def posBytes (f i : Nat) : List Nat := spotBytes f { off := 0, pos := i }

/-- A little-endian number with the field of position `i` replaced. -/
def putCode (f i code n : Nat) : Nat :=
  let w := fmtBits f
  n - n / 2 ^ (w * i) % 2 ^ w * 2 ^ (w * i) + code % 2 ^ w * 2 ^ (w * i)

/-- A block as it is written: the enabled bytes with the scale byte, and the terms. `old` gives the stored bytes. A block that
receives its source block whole takes the source's scale byte, in whatever passes its elements come (R92). The second part of the
answer counts the draws taken. -/
def blockPiece (t : Target) (b : CBlock) (inWin : Crd → Bool) (old : Nat → Byte) (draw : Nat) : Piece × Nat :=
  let r := t.trec.tensor
  let f := r.fmt
  let pads := b.pads r t.padW inWin
  let full := b.full r pads
  let keep := b.els.all (fun e => e.2.tagged && e.2.fmt == f)
  let scaled := full || (keep && (t.padW || b.els.all (·.2.whole)))
  let scale : Nat :=
    if scaled then
      (if keep then ((b.els.head?).map (fun e => e.2.tag)).getD 0x7F
       else crateScale f t.ovf (b.els.map (fun e => e.2.val) ++ pads.map (fun _ => Val.fin false 0 0)))
    else (old b.scale).toNat
  let enc := b.els.foldl
    (fun acc e =>
      let code := if keep then e.2.code else encodeCrated f scale (storeRnd t.sr acc.1) e.2.val
      (if t.sr && !keep then acc.1 + 1 else acc.1, acc.2 ++ [(e.1, code, e.2.idx)]))
    (draw, ([] : List (Nat × Nat × Nat)))
  let fill := if b.short r then (List.range 32).filter (fun i => crd b.ext 0 ≤ crd b.first 0 + i) else []
  let writes : List (Nat × Nat) := enc.2.map (fun e => (e.1, e.2.1)) ++ (pads ++ fill).map (fun i => (i, 0))
  let n0 := leNat ((List.range (fmtBlock f)).map (fun i => old (b.off + i)))
  let n1 := writes.foldl (fun n w => putCode f w.1 w.2 n) n0
  let touched := (writes.flatMap (fun w => posBytes f w.1)).eraseDups
  let body := touched.map (fun i => (b.off + i, BitVec.ofNat 8 (n1 / 256 ^ i)))
  let crate := b.scale - crd b.first 0 % 512 / 32
  let nb := ceilDiv (crd b.ext 0 % 512) 32
  let round :=
    if b.short r then
      (List.range (16 - nb)).map (fun i => (crate + nb + i, 0x7F#8))
        ++ (List.range (rowBytes f (crd b.ext 0 % 512) - 16 - nb * fmtBlock f)).map
            (fun i => (crate + 16 + nb * fmtBlock f + i, 0#8))
    else []
  let sc := if scaled then [(b.scale, BitVec.ofNat 8 scale)] else []
  ({ node := b.node, unm := b.unm, bytes := sc ++ body ++ round,
     terms := enc.2.flatMap (fun e => lotTerms f scale e.2.1 e.2.2)
       ++ pads.flatMap (fun i => lotTerms f scale 0 (padIdx r (r.globalOf b.q (b.first.set 0 (crd b.first 0 + i))))),
     els := b.els.length }, enc.1)

/-- Whether a block's store needs its stored bytes. -/
def CBlock.needsOld (b : CBlock) (t : Target) (inWin : Crd → Bool) : Bool :=
  let r := t.trec.tensor
  !b.full r (b.pads r t.padW inWin) || (!b.short r && (b.live r).length < 32)

/-! ### Reading stored bytes that a partial block keeps -/

/-- Bytes of other nodes at hand, or requested from them; no check is made of what the merge only keeps. -/
def needRemote (s : State) (r : Run) (c : SCtx) (table : Nat) (as : List (Nat × Nat)) : State × Run × ROut :=
  let keys := (as.filterMap (fun a =>
    if a.1 = nodeId s then none else some (⟨a.1, a.2 / 64, false⟩ : LineKey))).eraseDups
  let w : Want := { role := 3, unit := r.unit }
  let at' := keys.map (fun k => (k, lineAt s c r w k))
  let miss := (at'.filter (fun x => x.2 == .missing)).map (·.1)
  if at'.any (fun x => x.2 == .dead) then (s, r, .dead)
  else if !miss.isEmpty then
    match getFlight s c.fid, stageBase s c.p c.dom with
    | some fl, some _ =>
      let x := askLines s r c (stageLimit fl) true w table miss
      (x.1, x.2.1, .wait)
    | _, _ => (s, r, .dead)
  else if at'.any (fun x => x.2 == .pending) then (s, r, .wait)
  else (s, r, .ok [])

/-- A stored byte that a partial block keeps: of this node's memory, of a handover outside the cellar, or as read. -/
def oldByte (s : State) (c : SCtx) (r : Run) (inner : Bool) (node : Nat) (unm : Bool) (a : Nat) : Byte :=
  if inner then cellGet r.tileBytes a
  else if node = nodeId s then
    (if unm then 0
     else
      match region a with
      | .cellar m => if mayUse s c.dom m then memByte s.mem (physOf s a) else 0
      | .tasting => memByte s.mem (physOf s a)
      | _ => 0)
  else lineByte s c r { role := 3, unit := r.unit } false node a unm

/-! ### Pieces of a unit -/

/-- The elements that remain where several fall on one destination position (R222, R243): which one is free, among those of one pass
and between them and one that an earlier pass has left there; `seen` says where an earlier pass has written. -/
def survivors (seen : SOut → Bool) (draw : Nat) (outs : List SOut) : Nat × List SOut :=
  outs.foldl
    (fun acc o =>
      if acc.2.any (fun x => x.dst == o.dst) then
        (acc.1 + 1, if Config.freeBool acc.1 then acc.2.filter (fun x => x.dst != o.dst) ++ [o] else acc.2)
      else if seen o then (acc.1 + 1, if Config.freeBool acc.1 then acc.2 ++ [o] else acc.2)
      else (acc.1, acc.2 ++ [o]))
    (draw, [])

/-- Ops whose elements may collide (R222, R243): a push and a SCATTER. -/
def mayCollide (c : SCtx) : Bool := c.op == 0x09 || (c.op == 0x03 && bitAt (dOpa c.words) 2)

/-- The position of an element of a stage among those that colliding stores have written. -/
def seenKey (c : SCtx) (o : SOut) : Nat × Nat := (c.j, logical c.dstRec.ext o.dst)

/-- The terms of elements that another element displaced: each write is performed and contributes (R382). Crated
destinations contribute the elements that their blocks hold. -/
def lostTerms (t : Target) (draw : Nat) (all kept : List SOut) : Nat × List (Nat × Nat) :=
  let f := t.trec.tensor.fmt
  let lost := all.filter (fun o => !kept.any (fun k => k.row == o.row && k.dst == o.dst && k.idx == o.idx))
  if fmtCrated f then (draw, [])
  else
    lost.foldl
      (fun acc o =>
        (if t.sr then acc.1 + 1 else acc.1,
         acc.2 ++ lotTerms f 0 (plainCode f t.ovf (storeRnd t.sr acc.1) o) o.idx))
      (draw, [])

/-- The pieces of a unit's elements on one target, or the reason to wait or to abandon. -/
def encodeUnit (s : State) (r : Run) (c : SCtx) (t : Target) (outs : List SOut) (inWin : Crd → Bool) :
    State × Run × ROut × List Piece :=
  let l := t.trec
  let f := l.tensor.fmt
  let e := ensureShards s c.p r l (outs.map (fun o => t.at' o.dst))
  let s := e.1
  let r := e.2
  let hs := outs.map (fun o => (o, hallOf s r l (t.at' o.dst)))
  if hs.any (fun h => h.2.isNone) then (s, r, .fail 6, [])
  else
    let hs := hs.filterMap (fun h => h.2.map (fun a => (h.1, a)))
    if fmtCrated f then
      let bs := hs.foldl
        (fun bs h =>
          let gc := t.at' h.1.dst
          let lo := l.tensor.localOf gc
          addBlock h.2.node h.2.unm h.2.addr h.2.scale h.2.pos (l.tensor.shardCrd gc)
            (lo.1.set 0 (crd lo.1 0 - h.2.pos)) lo.2 h.1 bs)
        ([] : List CBlock)
      let need := bs.filter (fun b => b.needsOld t inWin)
      let x := if t.inner then (s, r, ROut.ok [])
        else needRemote s r c l.tensor.table (need.flatMap (fun b =>
          (b.node, b.scale) :: (List.range (fmtBlock f)).map (fun i => (b.node, b.off + i))))
      match x.2.2 with
      | .ok _ =>
        let ps := bs.foldl
          (fun acc b =>
            let y := blockPiece t b inWin (oldByte x.1 c x.2.1 t.inner b.node b.unm) acc.1
            (y.2, acc.2 ++ [y.1]))
          (x.1.draw, ([] : List Piece))
        ({ x.1 with draw := ps.1 }, x.2.1, .ok [], ps.2)
      | o => (x.1, x.2.1, o, [])
    else
      let ps := hs.foldl
        (fun acc h =>
          let direct := (!h.1.tagged && h.1.fmt == f) || (h.1.raw && fmtBits f == 32)
          let code := plainCode f t.ovf (storeRnd t.sr acc.1) h.1
          (if t.sr && !direct then acc.1 + 1 else acc.1,
           acc.2 ++ [({ node := h.2.node, unm := h.2.unm, bytes := byteRun h.2.addr (leBytes (fmtBytes f) code),
                        terms := lotTerms f 0 code h.1.idx, els := 1, row := h.1.row } : Piece)]))
        (s.draw, ([] : List Piece))
      let pads :=
        if t.padW then
          let keys := (hs.map (fun h =>
            let gc := t.at' h.1.dst
            let base := h.2.addr - (l.tensor.spot (l.tensor.localOf gc).2 (l.tensor.localOf gc).1).off
            (h.2.node, h.2.addr / 64, h.2.unm, base, l.tensor.shardCrd gc, (l.tensor.localOf gc).2))).eraseDups
          keys.flatMap (fun k => padPieces l.tensor k.1 k.2.2.2.1 k.2.1 k.2.2.1 k.2.2.2.2.1 k.2.2.2.2.2 inWin)
        else []
      ({ s with draw := ps.1 }, r, .ok [], ps.2 ++ pads)

/-! ### Stores -/

/-- What a unit's stores did: elements written, refused and unapplied lanes, the local blocks with their terms, every
destination block, and the transactions that carry the rest. -/
structure Stored where
  done : Nat := 0
  refused : Bool := false
  unapplied : Bool := false
  terms : List (Nat × Nat × Nat) := []
  bytes : List (Nat × Byte) := []
  touched : List (Nat × Nat) := []
  keys : List Nat := []

/-- What an address is to a press's store. -/
inductive Reach where
  | ok
  | unmapped
  | refused
  deriving DecidableEq

def reach (s : State) (dom : Nat) (unm : Bool) (a : Nat) : Reach :=
  if unm then .unmapped
  else
    match region a with
    | .cellar m => if mayUse s dom m then .ok else .refused
    | .tasting => .ok
    | _ => .unmapped

/-- The refused and unmapped lines of some addresses noted (R16, R37). Each line counts once for a unit: R37 does not say what one
refused access of a press is (DESIGN CHOICE, log 93). -/
def noteStops (s : State) (c : SCtx) (as : List (Nat × Bool)) : State :=
  let lines := (as.map (fun a => (a.1 / 64, a.2))).eraseDups
  lines.foldl
    (fun s k =>
      match reach s c.dom k.2 (64 * k.1) with
      | .ok => s
      | .unmapped => evUnmapped s (whoPress c.p) (64 * k.1) 0
      | .refused => noteRefused s c.fid (64 * k.1))
    s

/-- The bytes that stores replace, kept where R215 or R241 leaves a later load of the descriptor open. -/
def keepOld (s : State) (r : Run) (c : SCtx) (keys : List Nat) : Run :=
  let open' := c.srcRec.sharded || c.dstRec.sharded || (c.op == 0x03 && c.idx.tensor.sharded)
    || c.op == 0x08 || c.op == 0x09 || c.op == 0x0A || c.op == 0x0B || c.op == 0x10 || c.op == 0x20 || c.op == 0x21
  if open' then
    { r with old := keys.foldl (fun o k => if smHas o k then o else smPut o k (memByte s.mem k)) r.old }
  else r

/-- Local stores of a unit (R28, R37, R47): pieces with a refused, unmapped or unapplied byte are left out of the
count. -/
def storeLocal (s : State) (r : Run) (c : SCtx) (hand : Bool) (ps : List Piece) (z : Stored) : State × Run × Stored :=
  let s := noteStops s c (ps.flatMap (fun p => p.bytes.map (fun b => (b.1, p.unm))))
  let bytes := ps.flatMap (fun p => (p.bytes.filter (fun b => reach s c.dom p.unm b.1 == .ok)))
  let phys := physWrites s bytes
  let r := if hand then r else keepOld s r c (phys.map (·.1))
  let s := correctMerges s phys
  let st := storeBytes s.mem phys
  let s' := recordUeBlends (setMem s st.1) (whoPress c.p) st.2
  let bad := fun (p : Piece) => p.bytes.any (fun b => reach s c.dom p.unm b.1 != .ok)
  let lost := fun (p : Piece) => p.bytes.any (fun b => reach s c.dom p.unm b.1 == .ok && st.2.contains (physOf s b.1 / 4))
  let good := ps.filter (fun p => !bad p && !lost p)
  (s', r,
    { z with done := z.done + (good.map (·.els)).sum,
             refused := z.refused || ps.any bad,
             unapplied := z.unapplied || ps.any lost,
             terms := z.terms ++ good.flatMap (fun p =>
               match p.bytes with
               | [] => []
               | b :: _ => p.terms.map (fun t => (blockOf (physOf s b.1), t.1, t.2))),
             bytes := z.bytes ++ phys,
             touched := z.touched ++ bytes.map (fun b => (nodeId s, b.1 / 2048)) })

/-- The number under which the blocks of a handover outside the cellar are counted. -/
def innerNode : Nat := 2 ^ 17

/-- The bytes of a handover outside the cellar (R284, R285). -/
def storeInner (r : Run) (ps : List Piece) (z : Stored) : Run × Stored :=
  let bytes := ps.flatMap (·.bytes)
  ({ r with tileBytes := bytes.foldl (fun m b => cellPut m b.1 b.2) r.tileBytes },
   { z with done := z.done + (ps.map (·.els)).sum, touched := z.touched ++ bytes.map (fun b => (innerNode, b.1 / 2048)) })

/-! ### Blend operations (R45, R244, R245) -/

/-- A contribution: its place and code. -/
structure Contrib where
  node : Nat
  addr : Nat
  unm : Bool
  code : Nat
  idx : Nat
  row : Nat

/-- The contribution of an element (R244). -/
def contribCode (g : Nat) (o : SOut) : Nat := plainCode (contribFmt g) false .rne o

/-- Contributions in an order that R46 leaves open: one that meets an earlier one of its lane takes a free place among
them. -/
def shuffled (draw : Nat) (cs : List Contrib) : Nat × List Contrib :=
  cs.foldl
    (fun acc c =>
      let n := (acc.2.filter (fun x => x.node == c.node && x.addr == c.addr)).length
      if n = 0 then (acc.1, acc.2 ++ [c])
      else
        let k := Config.freeKey acc.1 % (n + 1)
        let places := (List.range acc.2.length).filter (fun i =>
          match acc.2[i]? with
          | some x => x.node == c.node && x.addr == c.addr
          | none => false)
        let i := nth places k acc.2.length
        (acc.1 + 1, acc.2.take i ++ [c] ++ acc.2.drop i))
    (draw, [])

/-- One lane of a blend operation on this node (R45, R47, R116): the memory after it, and whether it was applied. An
uncorrectable word is left unchanged, and a lane of the tasting room is never applied. -/
def blendLane (s : State) (g a code : Nat) : State × Bool :=
  let n := laneBytes g
  let k := physOf s a
  let ws := (List.range (ceilDiv n 4)).map (fun i => k / 4 + i)
  if !blendable g || 0x100000000 ≤ a || ws.any (fun w => s.mem.ueWords.contains w) then (s, false)
  else
    let v := blendAdd g (leNat (memBytes s.mem k n)) code
    let m := memPutAll s.mem (byteRun k (leBytes n v))
    (setMem s (ws.foldl (fun m w => { m with ceWords := m.ceWords.filter (· != w) }) m), true)

/-- The uncorrectable words that some lanes meet, each once. -/
def blendUes (s : State) (g : Nat) (as : List Nat) : List Nat :=
  ((as.filter (· < 0x100000000)).flatMap (fun a =>
    (List.range (ceilDiv (laneBytes g) 4)).filterMap (fun i =>
      let w := physOf s a / 4 + i
      if s.mem.ueWords.contains w then some w else none))).eraseDups

/-- Local blend operations of a pass (R244), their sideband (R378) and their unapplied lanes (R47, R245). A row that takes lanes is
read, corrected and written back (R45). Passes apply their contributions one after the other, which is one of the orders that R46
permits (DESIGN CHOICE, log 94). -/
def blendLocal (s : State) (r : Run) (c : SCtx) (g : Nat) (cs : List Contrib) (z : Stored) : State × Run × Stored :=
  let s := noteStops s c (cs.map (fun x => (x.addr, x.unm)))
  let ok := cs.filter (fun x => reach s c.dom x.unm x.addr == .ok)
  let r := keepOld s r c (ok.flatMap (fun x => (List.range (laneBytes g)).map (fun i => physOf s x.addr + i)))
  let s := recordUeBlends s (whoPress c.p) (blendUes s g (ok.map (·.addr)))
  let takes := if blendable g then ok.filter (fun x => x.addr < 0x100000000) else []
  let s := correctRows s ((takes.map (fun x => physOf s x.addr / 64)).eraseDups) []
  let sh := shuffled s.draw ok
  let s := { s with draw := sh.1 }
  let y := sh.2.foldl
    (fun acc x =>
      let b := blendLane acc.1 g x.addr x.code
      (b.1, if b.2 then acc.2 + 1 else acc.2))
    (s, 0)
  let blks := (ok.map (fun x => blockOf (physOf s x.addr))).eraseDups
  let s' := setMem y.1 (blks.foldl (fun m b => sbWrite m b false sbUnchecked) y.1.mem)
  (s', r,
   { z with done := z.done + y.2, refused := z.refused || ok.length < cs.length,
                unapplied := z.unapplied || y.2 < ok.length,
                terms := z.terms ++ blks.map (fun b => (b, 0, 0)),
                touched := z.touched ++ ok.map (fun x => (nodeId s, x.addr / 2048)) })

/-! ### Transactions of remote stores -/

/-- Payload lines with their masks from bytes of `lines` lines from line `l0`; `fill` gives a byte that no store names. -/
def linePayload (bytes : List (Nat × Byte)) (l0 lines : Nat) (fill : Nat → Byte) : List Byte × List (BitVec 64) :=
  ((List.range (64 * lines)).map (fun i =>
      match bytes.find? (fun b => b.1 == 64 * l0 + i) with
      | some b => b.2
      | none => fill i),
   (List.range lines).map (fun k =>
      maskOf ((List.range 64).filter (fun i => bytes.any (fun b => b.1 == 64 * (l0 + k) + i)))))

/-- Runs of consecutive lines within a 2 KiB block (R327, R342). -/
def runsOf (lines : List Nat) : List (Nat × Nat) :=
  (lineRuns (lines.map (fun l => (⟨0, l, false⟩ : LineKey)))).map (fun x => (x.2.1, x.2.2))

/-- A run of destination lines of one node that leaves in one transaction: the units of its stage that store into it, and the
transaction that already collects it. -/
structure BlockRun where
  node : Nat
  first : Nat
  lines : Nat
  units : List Nat
  key : Option Nat := none

/-- A byte address lies in a run. -/
def BlockRun.holds (x : BlockRun) (a : Nat) : Bool := decide (x.first ≤ a / 64) && decide (a / 64 < x.first + x.lines)

/-- The bytes of some pieces that a run takes, and the pieces whose first byte lies in it, so that each element counts once. -/
def BlockRun.bytes (x : BlockRun) (ps : List Piece) : List (Nat × Byte) :=
  ((ps.filter (fun p => p.node == x.node)).flatMap (·.bytes)).filter (fun b => x.holds b.1)
def BlockRun.own (x : BlockRun) (ps : List Piece) : List Piece :=
  ps.filter (fun p => p.node == x.node && (match p.bytes with
    | [] => false
    | b :: _ => x.holds b.1))

/-- Plain ops form one WRITE for each destination line (R246). -/
def lineBlocks (n : Nat) (ps : List Piece) : List BlockRun :=
  ((ps.map (·.node)).eraseDups).flatMap (fun node =>
    (sortedNat ((ps.filter (fun p => p.node == node)).flatMap (fun p => p.bytes.map (fun b => b.1 / 64)))).map (fun l =>
      { node := node, first := l, lines := 1, units := [n] }))

/-- The WRITE of a run before its payload is complete (R324). -/
def writeTxn (c : SCtx) (table : Nat) (early : Bool) (node : Nat) : Txn :=
  let dv := dDvx c.op c.words
  { typ := 1, early := early, dnode := BitVec.ofNat 16 node, table := BitVec.ofNat 12 table, dvx := dv.isSome && table != 0,
    dvin := BitVec.ofNat 2 (dv.getD 0), stream := BitVec.ofNat 8 c.strm }

/-- The MULTICAST_WRITE of a run before its payload is complete (R345); REJOIN stands in the descriptor's first block only. -/
def multiTxn (c : SCtx) (table : Nat) (early : Bool) : Txn :=
  { typ := 3, early := early, rejoin := bitAt (dOpa c.words) 19, table := BitVec.ofNat 12 table, stream := BitVec.ofNat 8 c.strm,
    group := BitVec.ofNat 12 (fld (dOpa c.words) 20 12) }

/-- The payload of a transaction into which every unit has stored (R324, R327): PARTIAL unless every byte is enabled. A
MULTICAST_WRITE carries whole lines; a byte of them that no element covers is free (log 35). -/
def closeOut (s : State) (o : OutTxn) : State × OutTxn :=
  let l0 := o.txn.addr.toNat / 64
  let n := o.txn.lenM1.toNat + 1
  let d := s.draw
  let pl := linePayload o.bytes l0 n (fun i => if o.multicast then Config.poolResidue (d + i) else 0)
  let full := o.multicast || pl.2.all (· == BitVec.allOnes 64)
  let lot := lotPair o.sum
  (if o.multicast then { s with draw := d + 64 * n } else s,
   { o with bytes := [], sum := (0, 0),
            txn := { o.txn with partialW := !full, data := pl.1, bmasks := if full then [] else pl.2, lotM := lot.1, lotP := lot.2 } })

/-- A transaction leaves: its elements count, and one without a usable route makes its descriptor report it (R349, R350). -/
def letGo (s : State) (key : Nat) : State :=
  match getOut s key with
  | none => s
  | some o =>
    let s := if o.multicast then
        let first := match getFlight s o.fid with
          | some f => !f.cnt.mcast.contains o.stage
          | none => false
        updCnt (setOut s { o with txn := { o.txn with rejoin := o.txn.rejoin && first } }) o.fid
          (fun k => { k with mcast := if k.mcast.contains o.stage then k.mcast else k.mcast ++ [o.stage] })
      else s
    let y := releaseOut s key
    let s := if y.2 || !o.poolBlock then y.1 else updCnt y.1 o.fid (fun k => { k with unreachable := true })
    if y.2 || o.multicast || !o.poolBlock then addDone s o.fid o.stage o.elems else s

/-- A held transaction goes on its way once every unit has stored into it, and, unless it is sent early, every check of it has passed
(R340, R351). One whose check has failed leaves the table instead (R384). -/
def tryLetGo (s : State) (key : Nat) : State :=
  match getOut s key with
  | none => s
  | some o =>
    if !o.held || !o.toStore.isEmpty then s
    else if o.dead then dropOut s key
    else if o.txn.early || o.toPass.isEmpty then letGo s key
    else s

/-- One unit's part of a run stored into its transaction, a new one where none collects the run yet. A part of a block whose check has
failed is dropped (R384). -/
def storeRun (s : State) (c : SCtx) (n : Nat) (txn : Txn) (pool : Bool) (recv : List (Nat × Nat)) (counts : Bool)
    (failed : List Nat) (ps : List Piece) (x : BlockRun) : State × Nat :=
  let mine := x.own ps
  let els := if counts then (mine.map (·.els)).sum else 0
  let sum := lotSum (mine.flatMap (·.terms))
  let new := x.bytes ps
  let a := match x.key.bind (getOut s) with
    | some o => (s, o)
    | none =>
      let k := takeKey s
      let units := x.units.filter (fun u => !failed.contains u)
      let o : OutTxn := { key := k.1, stream := c.strm, fid := c.fid, txn := txn, toStore := units, toPass := units, held := true,
                          poolBlock := pool, multicast := txn.typ == 3, receivers := recv, stage := c.j }
      (addOut k.2 o, o)
  let s := a.1
  let o := a.2
  let o := { o with toStore := o.toStore.filter (· != n) }
  if o.dead then (tryLetGo (setOut s o) o.key, o.key)
  else
    let o := { o with txn := { o.txn with addr := BitVec.ofNat 48 (64 * x.first), lenM1 := BitVec.ofNat 5 (x.lines - 1) },
                      bytes := new.foldl (fun m b => smPut m b.1 b.2) o.bytes,
                      sum := (o.sum.1 + sum.1, o.sum.2 + sum.2), elems := o.elems + els }
    let y := if o.toStore.isEmpty then closeOut s o else (s, o)
    (tryLetGo (setOut y.1 y.2) o.key, o.key)

/-- The transactions of a unit's remote pieces (R340, R342, R345, R351). Their pool blocks have been taken before (R42); `counts` says
that their elements are those that DONE_COUNT counts. -/
def storeRuns (s : State) (c : SCtx) (n : Nat) (txn : Nat → Txn) (pool : Bool) (recv : List (Nat × Nat)) (counts : Bool)
    (failed : List Nat) (xs : List BlockRun) (ps : List Piece) (z : Stored) : State × Stored :=
  xs.foldl
    (fun acc x =>
      let y := storeRun acc.1 c n (txn x.node) pool recv counts failed ps x
      (y.1, { acc.2 with keys := acc.2.keys ++ [y.2], touched := acc.2.touched ++ [(x.node, x.first / 32)] }))
    (s, z)

/-- One ATOMIC_ADD (R338) for the contributions of one index position in one destination line. -/
def atomicTxn (c : SCtx) (g table node line : Nat) (cs : List Contrib) : Txn :=
  let lane := fun (x : Contrib) => x.addr % 64 / laneBytes g
  let lanes := sortedNat (cs.map lane)
  let data := lanes.flatMap (fun l =>
    match cs.find? (fun x => lane x == l) with
    | some x => leBytes (contribBytes g) x.code
    | none => [])
  let n := max 1 (ceilDiv data.length 64)
  let lot := lotPair (lotSum (cs.flatMap (fun x => lotTerms (contribFmt g) 0 x.code x.idx)))
  let dv := dDvx c.op c.words
  { typ := 2, dnode := BitVec.ofNat 16 node, addr := BitVec.ofNat 48 (64 * line), table := BitVec.ofNat 12 table,
    dvx := dv.isSome && table != 0, dvin := BitVec.ofNat 2 (dv.getD 0), lenM1 := BitVec.ofNat 5 (n - 1),
    code := BitVec.ofNat 8 g, stream := BitVec.ofNat 8 c.strm, mask := maskOf lanes,
    lotM := lot.1, lotP := lot.2, data := data ++ List.replicate (64 * n - data.length) 0 }

/-- The ATOMIC_ADDs of remote contributions, held for the check of their pass in every case (R246). -/
def sendAtomics (s : State) (c : SCtx) (n g table : Nat) (cs : List Contrib) (z : Stored) : State × Stored :=
  let keys := (cs.map (fun x => (x.row, x.node, x.addr / 64))).eraseDups
  keys.foldl
    (fun acc k =>
      let mine := cs.filter (fun x => (x.row, x.node, x.addr / 64) == k)
      let t := takeKey acc.1
      let o : OutTxn := { key := t.1, stream := c.strm, fid := c.fid, txn := atomicTxn c g table k.2.1 k.2.2 mine, toPass := [n],
                          held := true, elems := mine.length, stage := c.j }
      (addOut t.2 o,
       { acc.2 with keys := acc.2.keys ++ [t.1], touched := acc.2.touched ++ [(k.2.1, k.2.2 / 32)] }))
    (s, z)

/-- Unit `n` of a stage will store nothing: the transactions that waited for it go on without it (R200). -/
def leaveOuts (s : State) (fid j n : Nat) : State :=
  (s.fab.outs.filter (fun o => o.fid == fid && o.stage == j && o.toStore.contains n)).foldl
    (fun s o =>
      let o := { o with toStore := o.toStore.filter (· != n), toPass := o.toPass.filter (· != n) }
      let y := if o.toStore.isEmpty && !o.dead then closeOut s o else (s, o)
      tryLetGo (setOut y.1 y.2) o.key)
    s

/-! ### Room for outbound data -/

/-- Bytes of a press's outbound buffer in use (R340). -/
def outboundUsed (s : State) (p : Nat) : Nat :=
  ((s.fab.outs.filter (fun o => !o.sent && !o.poolBlock
      && (((getFlight s o.fid).map (·.press)).getD 255 == p))).map (fun o => txnBytes o.txn)).sum

/-- Whether the outbound buffer takes `n` more bytes; a unit larger than the buffer starts when it is empty. -/
def outboundRoom (s : State) (p n : Nat) : Bool :=
  let u := outboundUsed s p
  u == 0 || decide (u + n ≤ 16384)

/-- Pool blocks taken one by one for the unit in load, `n` at most: an allocation waits while the stream is at or above its quota or
the pool is empty (R42). -/
def takeBlocks (s : State) (st : Nat) (r : Run) : Nat → State × Run
  | 0 => (s, r)
  | n + 1 =>
    if streamOcc s st < rfld s (0x2800 + 4 * st) 0 22 ∧ 0 < poolFree s then
      takeBlocks (chargeStream s st) st { r with got := r.got + 1 } n
    else (s, r)

/-- Blocks taken for the unit in load and not used by it go back. -/
def returnBlocks (s : State) (st n : Nat) : State := (List.range n).foldl (fun s _ => dischargeStream s st) s

end Sys2Proof.Machine
end

