-- ==== Sys2Proof/Machine/Engine.lean ====
section
/-!
DEFINITION. Machine/Engine.lean: the units of a run in order (R187, R226, R250, R254, R265, R290), which unit is ready
(R283, R287), the load of board rows (R177, R182, R198), the steps of the MAC array (R108, R249, R254), and the elements
that a unit writes.
-/
namespace Sys2Proof.Machine

/-! ### Links and targets -/

/-- The handover of the link after stage `j` (R281). -/
def linkKind (s : State) (p : Nat) (f : Flight) (j : Nat) : HKind :=
  if j + 1 < f.stages.length then nth (handKinds (heritage s) (streamDomain s f.stream) p f) j .none else .none

/-- What a stage's destination coordinates lose in its handover tensor (R282); a push ignores DSTART along the permuted
dimension (R221). -/
def handShift (c : SCtx) : Crd :=
  let d := dDstart c.op c.words
  if c.op = 0x03 ∧ bitAt (dOpa c.words) 2 then d.set (fld (dOpa c.words) 0 2) 0 else d

/-- The destination record of a MULTICAST as its blocks are addressed (R345): every dimension REPL, on this node. -/
def mcastRec (s : State) (c : SCtx) : LRec :=
  let w := (replRec c.dst).words
  { words := w.set 11 (setFld (nth w 11 0) 16 16 (nodeId s)) }

/-- The destination of a stage's own store. -/
def dstTarget (s : State) (c : SCtx) : Target :=
  { trec := if c.op = 0x20 then mcastRec s c else c.dst,
    padW := dPadWrite c.heri c.words && !accumulating c.op c.words, ovf := dOvf c.words, sr := dSr c.words }

/-- The handover tensor of a stage, where it has one to store. -/
def handTarget (s : State) (p : Nat) (f : Flight) (c : SCtx) : Option Target :=
  let mk := fun (base : Nat) (inner : Bool) =>
    some ({ trec := handRec c.dstRec.fmt (handExt c) (nodeId s * 2 ^ 48 + base), shift := handShift c, hand := true,
            inner := inner, role := 7, ovf := dOvf c.words, sr := dSr c.words } : Target)
  match linkKind s p f c.j with
  | .tile off => mk ((stageBase s p c.dom).getD 0 + off) false
  | .board => mk (innerBase c.j) true
  | .pool => mk (innerBase c.j) true
  | _ => none

/-- Whether the stage stores to its own destination: it hands nothing over, or TEE is set (R281). -/
def ownStore (s : State) (p : Nat) (f : Flight) (c : SCtx) : Bool :=
  match linkKind s p f c.j with
  | .none => true
  | .vat => false
  | _ => linkTee c.words

/-! ### Units -/

/-- The window elements of a FILL with the hall addresses they have. -/
def fillSpots (s : State) (r : Run) (c : SCtx) (t : Target) : List (Crd × HSpot) :=
  ((List.range (vol c.ext)).map (ofLogical c.ext)).filterMap (fun o =>
    let d := crdAdd (dDstart c.op c.words) o
    (hallOf s r t.trec (t.at' d)).map (fun h => (d, h)))

/-- The 2 KiB blocks that a FILL writes, in rising hall address (R224). -/
def fillBlocks (s : State) (r : Run) (c : SCtx) (t : Target) : List Nat :=
  sortedNat ((fillSpots s r c t).map (fun x => x.2.node * 2 ^ 37 + x.2.addr / 2048))

/-- The target that a stage's walk is taken over. -/
def mainTarget (s : State) (p : Nat) (f : Flight) (c : SCtx) : Target :=
  match handTarget s p f c with
  | some t => t
  | none => dstTarget s c

/-- Elements of a handover tensor by its 2 KiB blocks. -/
def handBlockOf (c : SCtx) (x : Crd) : Nat :=
  let t := (handRec c.dstRec.fmt (handExt c) 0).tensor
  (t.spot (handExt c) x).off / 2048

/-- Where an element of a handover tensor stands in it. -/
def handSpot (h : Rec) (e x : Crd) : HSpot :=
  let sp := h.spot e x
  { node := 0, addr := sp.off, scale := sp.scale, pos := sp.pos }

/-- The bytes of the elements of a handover that fall into its block `b`, each with the node and address that an EGRESS gives it, where
it gives one: (offset in the block, node, address). -/
def directBytes (s : State) (r : Run) (d : SCtx) (e : Crd) (b : Nat) : List (Nat × Option (Nat × Nat)) :=
  let h := d.src.tensor
  let st := dStart d.words
  let ds := dDstart d.op d.words
  ((List.range (vol e)).map (ofLogical e)).flatMap (fun x =>
    let here := handSpot h e x
    let dest :=
      if (List.range 4).all (fun k => decide (crd st k ≤ crd x k) && decide (crd x k < crd st k + crd d.ext k)) then
        (hallOf s r d.dst ((List.range 4).map (fun k => crd ds k + crd x k - crd st k))).bind
          (fun a => if a.unm || a.pos != here.pos then none else some a)
      else none
    let as := elemAddrs h.fmt here
    ((List.range as.length).zip as).filterMap (fun z =>
      if z.2 / 2048 = b then
        some (z.2 % 2048, dest.map (fun a => (a.node, nth (elemAddrs h.fmt a) z.1 0)))
      else none))

/-- Where each handover block of a direct EGRESS goes, or none where the case of R342 does not hold: node, address of the
block's first byte, and byte offsets covered. -/
def directMap (s : State) (r : Run) (d : SCtx) (e : Crd) (b : Nat) : Option (Nat × Nat × List Nat) :=
  let bs := directBytes s r d e b
  match bs with
  | (o, some (node, a)) :: _ =>
    let lo := a - o
    let offs := bs.map (·.1)
    if o ≤ a && bs.all (fun z => z.2 == some (node, lo + z.1))
        && (lo + offs.foldl min 2048) / 2048 == (lo + offs.foldl max 0) / 2048 && lo % 64 == 0 && node != nodeId s then
      some (node, lo, offs)
    else none
  | _ => none

/-- Whether stage `j` is a direct EGRESS (R342). -/
def isDirect (s : State) (p : Nat) (f : Flight) (r : Run) (j : Nat) : Bool :=
  let d := stageCtx s p f j
  if d.op = 0x21 ∧ 0 < j ∧ linkKind s p f (j - 1) = .pool ∧ d.srcRec.fmt = d.dstRec.fmt then
    let c := stageCtx s p f (j - 1)
    let e := handExt c
    let n := ceilDiv (handSize c.dstRec.fmt e) 2048
    (List.range n).all (fun b => (directMap s r d e b).isSome)
  else false

/-- One past the last unit number of a stage as it runs. -/
def unitsEnd (s : State) (p : Nat) (f : Flight) (r : Run) (c : SCtx) : Nat :=
  if stageEmpty c.op c.words c.ext then 0
  else if isDirect s p f r c.j then
    let d := stageCtx s p f (c.j - 1)
    ceilDiv (handSize d.dstRec.fmt (handExt d)) 2048
  else unitEnd c (if c.op = 0x04 then (fillBlocks s r c (mainTarget s p f c)).length else 0)

/-- The unit a number names, as it runs: kind 5 is a block that a direct EGRESS sends as it stands. -/
def unitOf (s : State) (p : Nat) (f : Flight) (r : Run) (c : SCtx) (u : Nat) : WUnit :=
  if isDirect s p f r c.j then { kind := 5, off := [u], rows := 0, cols := 0 } else unitAt c (runBag c r) u

/-- The unit after `u`: the drain of a stage that hands over its vat is left out (R286). -/
def stepUnit (s : State) (p : Nat) (f : Flight) (r : Run) (c : SCtx) (u : Nat) : Nat :=
  if isDirect s p f r c.j then u + 1
  else
    let v := unitNext c (runBag c r) u
    if c.op = 0x0B ∧ linkKind s p f c.j = .vat ∧ v % poolSpan = 4096 then unitNext c (runBag c r) v else v

/-- The first unit of a stage. -/
def firstUnit (s : State) (p : Nat) (f : Flight) (r : Run) (c : SCtx) : Nat :=
  if isDirect s p f r c.j then 0
  else
    if c.op = 0x28 then r.tileFrom * decantSpan else 0

/-- Units from `u` on, at most `fuel` of them. -/
def unitsFrom (s : State) (p : Nat) (f : Flight) (r : Run) (c : SCtx) (stop : Nat) : Nat → Nat → List Nat
  | 0, _ => []
  | n + 1, u => if stop ≤ u then [] else u :: unitsFrom s p f r c stop n (stepUnit s p f r c u)

/-- Every unit of a stage. -/
def allUnits (s : State) (p : Nat) (f : Flight) (r : Run) (c : SCtx) : List Nat :=
  unitsFrom s p f r c (unitsEnd s p f r c) (unitsEnd s p f r c + 1) (firstUnit s p f r c)

/-- Units of the vat group or tile that starts with unit `u`: those that must be ready together. -/
def groupUnits (s : State) (p : Nat) (f : Flight) (r : Run) (c : SCtx) (u : Nat) : List Nat :=
  if c.op = 0x0B then
    (unitsFrom s p f r c (u / poolSpan * poolSpan + 4096) 4097 u)
  else if c.op = 0x10 then
    (unitsFrom s p f r c (u / interSpan c * interSpan c + 2 * interNc c) (interSpan c) u)
  else [u]

/-! ### Destination coordinates of a unit -/

/-- Window position of P(i, j) (R252). -/
def interPos (ws : List Word) (i j : Nat) : Nat :=
  match interShape ws with
  | 1 => i * (i - 1) / 2 + j
  | 2 => i * (i + 1) / 2 + j
  | _ => i * crd (dExt ws) 1 + j

/-- The outputs of an INTERACT drain: (i, j) of each, with its vat entry. -/
def interOuts (c : SCtx) (u : WUnit) : List (Nat × Nat × Nat) :=
  let f := crd c.ext 1
  let bI := nth u.off 1 0
  let bJ := nth u.off 2 0
  let second := nth u.off 3 0 == 1
  let rI := min 32 (f - 32 * bI)
  let rJ := min 32 (f - 32 * bJ)
  if second then
    (List.range rJ).flatMap (fun b => (List.range rI).map (fun a => (32 * bJ + b, 32 * bI + a, 32 * a + b)))
  else
    (List.range rI).flatMap (fun a => (List.range rJ).filterMap (fun b =>
      let i := 32 * bI + a
      let j := 32 * bJ + b
      let keep := match interShape c.words with
        | 1 => decide (j < i)
        | 2 => decide (j ≤ i)
        | _ => true
      if keep then some (i, j, 32 * a + b) else none))

/-- The outputs of a POOL drain: bag position, element of the run, vat entry. -/
def poolOuts (c : SCtx) (u : WUnit) : List (Nat × Nat × Nat) :=
  let g := nth u.off 0 0
  let bags := (List.range (poolG c)).filter (fun i => g * poolG c + i < crd c.ext 1)
  bags.flatMap (fun i => (List.range u.cols).map (fun e => (i, e, 32 * (i + poolG c * (e / 32)) + e % 32)))

/-- Destination coordinates of an output. -/
def poolDst (c : SCtx) (u : WUnit) (i e : Nat) : Crd :=
  let d := dDstart c.op c.words
  [crd d 0 + nth u.off 1 0 * regionW (boardFmt c).fmt + e, crd d 1 + nth u.off 0 0 * poolG c + i, 0, 0]
def interDst (c : SCtx) (u : WUnit) (i j : Nat) : Crd :=
  let d := dDstart c.op c.words
  [crd d 0 + interPos c.words i j, crd d 1 + nth u.off 0 0, 0, 0]

/-- The window elements of a FILL block. -/
def fillUnit (s : State) (r : Run) (c : SCtx) (t : Target) (n : Nat) : List Crd :=
  let b := nth (fillBlocks s r c t) n 0
  ((fillSpots s r c t).filter (fun x => x.2.node * 2 ^ 37 + x.2.addr / 2048 == b)).map (·.1)

/-- The destination coordinates of a unit's elements; for a MAC pass none. -/
def unitDsts (s : State) (p : Nat) (f : Flight) (r : Run) (c : SCtx) (n : Nat) : List Crd :=
  let u := unitOf s p f r c n
  match u.kind with
  | 0 => (List.range u.rows).flatMap (fun i => (rowElems c (runBag c r) (runIdx r c.j) u i).map (·.dst))
  | 2 =>
    if c.op = 0x0B then (poolOuts c u).map (fun o => poolDst c u o.1 o.2.1)
    else (interOuts c u).map (fun o => interDst c u o.1 o.2.1)
  | 3 =>
    let d := dDstart c.op c.words
    (List.range (nth c.ext 2 0)).map (fun q => [crd d 0 + q, crd d 1 + nth u.off 0 0, 0, 0])
  | 4 => fillUnit s r c (mainTarget s p f c) (nth u.off 0 0)
  | _ => []

/-! ### Which unit is ready (R283, R287, R288, R290) -/

/-- Whether the index values of a unit are all cached. -/
def idxKnown (r : Run) (c : SCtx) (u : WUnit) : Bool :=
  (unitKs c (runBag c r) u).all (fun k => smHas r.idx (idxKey c.j k))

/-- The state of a handover as some of its coordinates need it: 0 released, 1 not yet, 2 never (R287, R288). `c` is the
stage that hands over. -/
def handState (s : State) (p : Nat) (f : Flight) (r : Run) (c : SCtx) (xs : List Crd) : Nat :=
  if xs.isEmpty then 0 else
  let byBlock := linkKind s p f c.j != .board
  let key := fun (x : Crd) => if byBlock then handBlockOf c x else logical (handExt c) x
  let want := (xs.map key).eraseDups
  let sh := handShift c
  let us := (allUnits s p f r c).filter (fun n => (unitOf s p f r c n).kind != 1)
  let writers := us.filter (fun n =>
    let u := unitOf s p f r c n
    !idxKnown r c u
      || (unitDsts s p f r c n).any (fun d => want.contains (key ((List.range 4).map (fun k => crd d k - crd sh k)))))
  if writers.any (fun n => r.failed.contains (c.j, n)) || want.any (fun k => r.withheld.contains (c.j, k)) then 2
  else if writers.all (fun n => r.passed.contains (c.j, n)) then 0
  else 1

/-- A stage has no unit left. -/
def stageOver (s : State) (p : Nat) (f : Flight) (r : Run) (j : Nat) : Bool :=
  r.stopped || (decide (unitsEnd s p f r (stageCtx s p f j) ≤ nth r.next j 0) && !r.passedBy.any (fun e => e.1 == j))

/-- The gate of R283 before stage `j` that a failure has closed. -/
def gateClosed (s : State) (p : Nat) (f : Flight) (r : Run) (j : Nat) : Bool :=
  (List.range j).any (fun i => linkKind s p f i == .none && r.failed.any (fun e => e.1 == i))

/-- The gate of R283 before stage `j`: open, once every store of the stage before has been performed, at other nodes too, and every check
of it has passed. -/
def gateOpen (s : State) (p : Nat) (f : Flight) (r : Run) (j : Nat) : Bool :=
  if j = 0 then true
  else if linkKind s p f (j - 1) = .none then
    stageOver s p f r (j - 1) && !(getPress s p).waits.any (fun w => w.fid == f.id && w.stage == j - 1)
      && !r.failed.any (fun e => e.1 == j - 1)
      && !s.fab.outs.any (fun o => o.fid == f.id && o.stage == j - 1 && !o.acked)
  else true

/-- The vat group that a POOL unit belongs to. -/
def vatGroup (u : Nat) : Nat := u / poolSpan

/-- Two stages joined by VAT handovers. -/
def vatJoined (s : State) (p : Nat) (f : Flight) (i j : Nat) : Bool :=
  let lo := min i j
  (List.range (max i j - lo)).all (fun k => linkKind s p f (lo + k) == .vat)

/-- A stage is in the middle of a vat group or tile. -/
def midVat (s : State) (p : Nat) (f : Flight) (r : Run) (i : Nat) : Bool :=
  let c := stageCtx s p f i
  let u := nth r.next i 0
  !stageOver s p f r i
    && ((c.op == 0x0B && u % poolSpan != 0 && !(groupEntries c (runBag c r) (u / poolSpan / max 1 (poolRuns c))).isEmpty)
      || (c.op == 0x10 && u % max 1 (interSpan c) != 0))

/-- A stage holds one half of a pair of FP32 passes in the front board (R254). -/
def midPair (s : State) (p : Nat) (f : Flight) (r : Run) (i : Nat) : Bool :=
  let c := stageCtx s p f i
  c.op == 0x10 && !stageOver s p f r i && (let u := nth r.next i 0 % max 1 (interSpan c); u % 2 == 1 && decide (u < 2 * interNc c))

/-- The conditions of R292 that bar the preemption of a BLEND, but for the sorting table: a handover in the staging area that is not
consumed yet, or data of more than one stage in the boards and the vat. -/
def barsPreempt (s : State) (p : Nat) (f : Flight) (r : Run) : Bool :=
  let x := getPress s p
  let js := List.range f.stages.length
  let stored := fun (j : Nat) => r.passed.any (·.1 == j) || x.waits.any (fun w => w.fid == f.id && w.stage == j)
  let onTile := fun (j : Nat) => match linkKind s p f j with
    | .tile _ => stored j && !stageOver s p f r (j + 1)
    | _ => false
  let holds := fun (j : Nat) =>
    (r.loading && r.stage == j && (x.front.valid != 0#32 || x.back.valid != 0#32)) || (r.handed.map (·.1)) == some j
      || (midVat s p f r j && !x.vat.isEmpty) || midPair s p f r j
  decide (1 < f.stages.length) && (js.any onTile || decide (1 < (js.filter holds).length))

/-- Whether a unit is loaded into, or drained into, the back board (R185, R187, R210, R254, R285). -/
def useBack (c : SCtx) (n : Nat) (u : WUnit) : Bool :=
  match c.board with
  | some b => if u.kind = 1 then n % 2 == 1 else b
  | none =>
    if u.kind = 0 then !moveStraight c && n % 2 == 1
    else if c.op = 0x10 then
      (if interF32 c then nth u.off 4 0 == 1 else nth u.off 3 0 % 2 == 1)
    else n % 2 == 1

/-- Whether a unit uses one of the two boards. -/
def touchesBoard (c : SCtx) (n : Nat) (u : WUnit) (back : Bool) : Bool :=
  if u.kind = 0 then turnsBoard c || useBack c n u == back
  else if u.kind = 1 ∨ u.kind = 2 then c.op == 0x10 || useBack c n u == back
  else false

/-- The boards let unit `n` of stage `j` run while a BOARD handover stands in one of them (R285): the unit that takes the handover, and
units of other stages that leave that board alone (log 89). -/
def boardFree (s : State) (p : Nat) (f : Flight) (r : Run) (c : SCtx) (n : Nat) : Bool :=
  match r.handed with
  | none => true
  | some (j, m) =>
    if j = c.j then m == n
    else j != c.j + 1 && !touchesBoard c n (unitOf s p f r c n) ((stageCtx s p f j).board.getD false)

/-- The vat and the boards let a unit of stage `j` run (R286, R290). -/
def unitsFree (s : State) (p : Nat) (f : Flight) (r : Run) (j : Nat) : Bool :=
  let c := stageCtx s p f j
  let n := f.stages.length
  let others := (List.range n).filter (· != j)
  others.all (fun i => !midPair s p f r i)
    && (!macOp c.op || others.all (fun i => vatJoined s p f i j || !midVat s p f r i))
    && others.all (fun i =>
        !(c.op == 0x0B && vatJoined s p f i j)
          || (if i < j then decide (vatGroup (nth r.next j 0) < vatGroup (nth r.next i 0)) || stageOver s p f r i
              else decide (vatGroup (nth r.next j 0) ≤ vatGroup (nth r.next i 0))))

/-- The coordinates of a handover that a unit needs, once the index values that decide them are known: none while they are not. -/
def unitNeeds (s : State) (p : Nat) (f : Flight) (r : Run) (c : SCtx) (n : Nat) : State × Run × Option (List Crd) :=
  let bag := ensureBags s r c (n / poolSpan / max 1 (poolRuns c))
  match bag.2.2 with
  | .wait => (bag.1, bag.2.1, none)
  | .ok _ =>
    let s := bag.1
    let r := bag.2.1
    let u := unitOf s p f r c n
    let ks := unitKs c (runBag c r) u
    let seg := (List.range (nth c.ext 0 0)).map (segCrd c (nth u.off 0 0))
    match c.into with
    | some 1 => (s, r, some (ks.map (ofLogical c.idx.tensor.ext)))
    | some 2 =>
      (s, r, some (if c.op = 0x0B then (if poolMode c.words = 2 then ks.map (ofLogical c.aux.tensor.ext) else [])
        else if (c.op = 0x18 ∨ c.op = 0x19) ∧ bitAt (dOpa c.words) 18 then
          seg.map (fun x => (List.range 4).map (fun d => min (crd x d) (crd c.aux.tensor.ext d - 1)))
        else []))
    | some _ =>
      let x := if usesIdx c.op then ensureIdx s r c n ks else (s, r, ROut.ok [])
      match x.2.2 with
      | .wait => (x.1, x.2.1, none)
      | .ok _ =>
        (x.1, x.2.1, some (if c.op = 0x18 ∨ c.op = 0x19 then seg
          else (List.range u.rows).flatMap (fun i =>
            (rowElems c (runBag c x.2.1) (runIdx x.2.1 c.j) u i).map (·.src))))
      | _ => (x.1, x.2.1, some [])
    | none => (s, r, some [])
  | _ => (bag.1, bag.2.1, some [])

/-- The bag group that a VAT handover brings to unit `n` (R287): 0 checked, 1 not yet, 2 never. A group without entries brings
nothing. -/
def vatState (s : State) (p : Nat) (f : Flight) (r : Run) (c : SCtx) (n : Nat) : Nat :=
  let last := n / poolSpan * poolSpan + 4096
  if r.failed.contains (c.j, last) then 2
  else if r.passed.contains (c.j, last)
      || (groupEntries c (runBag c r) (n / poolSpan / max 1 (poolRuns c))).isEmpty then 0
  else if decide (nth r.next c.j 0 ≤ last) || (getPress s p).waits.any (fun w => w.fid == f.id && w.stage == c.j && w.unit == last) then 1
  else 0

/-- Whether unit `n` of stage `j` may start as far as its handover goes: 0 yes, 1 not yet, 2 it must be abandoned (R288). -/
def unitAnswer (s : State) (p : Nat) (f : Flight) (r : Run) (j n : Nat) : State × Run × Nat :=
  let d := stageCtx s p f j
  if isDirect s p f r j then
    let c := stageCtx s p f (j - 1)
    let xs := ((List.range (vol (handExt c))).map (ofLogical (handExt c))).filter (fun x => handBlockOf c x == n)
    (s, r, handState s p f r c xs)
  else if 0 < j ∧ linkKind s p f (j - 1) = .vat then (s, r, vatState s p f r (stageCtx s p f (j - 1)) n)
  else if d.into.isSome then
    let x := unitNeeds s p f r d n
    match x.2.2 with
    | none => (x.1, x.2.1, 1)
    | some xs => (x.1, x.2.1, handState x.1 p f x.2.1 (stageCtx x.1 p f (j - 1)) xs)
  else (s, r, 0)

/-- Whether a stage before `j` needs the vat for what `j` still waits for (log 89). -/
def vatAhead (s : State) (p : Nat) (f : Flight) (j : Nat) : Bool :=
  macOp (nth f.stages j {}).op
    && (List.range j).any (fun i => macOp (nth f.stages i {}).op && !vatJoined s p f i j)

/-- The answer for unit `n` of stage `j`. Where an earlier stage shares the vat, a group starts only once none of its units has to wait,
as it would otherwise hold the vat that they wait for (log 89). -/
def unitReady (s : State) (p : Nat) (f : Flight) (r : Run) (j n : Nat) : State × Run × Nat :=
  let y := unitAnswer s p f r j n
  if y.2.2 = 0 ∧ vatAhead s p f j then
    (groupUnits y.1 p f y.2.1 (stageCtx y.1 p f j) n).foldl
      (fun (acc : State × Run × Nat) m =>
        if acc.2.2 = 0 then
          let z := unitAnswer acc.1 p f acc.2.1 j m
          (z.1, z.2.1, if z.2.2 = 1 then 1 else 0)
        else acc)
      (y.1, y.2.1, 0)
  else y

/-- The units of stage `j` that may be taken next, in order (R290): those passed over, the next one, and for a stage that takes a
handover and keeps nothing between its passes every later one. -/
def candidates (s : State) (p : Nat) (f : Flight) (r : Run) (j : Nat) : List Nat :=
  let c := stageCtx s p f j
  let n := nth r.next j 0
  let stop := unitsEnd s p f r c
  sortedNat ((r.passedBy.filter (fun e => e.1 == j)).map (·.2))
    ++ (if stop ≤ n then []
        else if (c.into.isSome || isDirect s p f r j) && !macOp c.op then unitsFrom s p f r c stop (stop - n) n
        else [n])

/-- The first ready unit among some of stage `j`, and whether it must be abandoned. -/
def firstReady (s : State) (p : Nat) (f : Flight) (r : Run) (j : Nat) : List Nat → State × Run × Option (Nat × Bool)
  | [] => (s, r, none)
  | n :: rest =>
    if boardFree s p f r (stageCtx s p f j) n then
      let y := unitReady s p f r j n
      if y.2.2 = 1 then firstReady y.1 p f y.2.1 j rest else (y.1, y.2.1, some (n, y.2.2 == 2))
    else firstReady s p f r j rest

/-- The first ready unit of stage `j` (R283, R287, R290). -/
def stageReady (s : State) (p : Nat) (f : Flight) (r : Run) (j : Nat) : State × Run × Option (Nat × Bool) :=
  if stageOver s p f r j || gateClosed s p f r j || !gateOpen s p f r j || !unitsFree s p f r j then (s, r, none)
  else firstReady s p f r j (candidates s p f r j)

/-- Every stage is over or will never start: the press goes to FINISH (R206, R283). -/
def runOver (s : State) (p : Nat) (f : Flight) (r : Run) : Bool :=
  (List.range f.stages.length).all (fun j => stageOver s p f r j || gateClosed s p f r j)

/-! ### Loads -/

def getBoard (x : Press) (back : Bool) : Board := if back then x.back else x.front
def setBoard (x : Press) (back : Bool) (b : Board) : Press :=
  if back then { x with back := b } else { x with front := b }

/-- The first row of a unit that is not valid yet. -/
def firstRow (b : Board) (rows : Nat) : Option Nat := (List.range rows).find? (fun i => !b.valid.getLsbD i)

/-- The conversion of a loaded element to the board format (R91, R105, R107, R244). -/
def loadCode (c : SCtx) (x : Nat × Nat) : Nat :=
  let f := c.srcRec.fmt
  let g := (boardFmt c).fmt
  if (boardFmt c).tags || f == g then x.1
  else
    let v := if fmtCrated f then decodeScaled f x.2 x.1 else decode f x.1
    encodePlain g (if c.op = 0x0A then false else dOvf c.words) .rne v

/-- Key of a cached weight of WSUM (R249). -/
def wKey (j k : Nat) : Nat := j * 2 ^ 44 + 2 ^ 42 + k

/-- The format of the selector operand (R250). -/
def selFmt (c : SCtx) : Nat :=
  let f := (boardFmt c).fmt
  if poolMode c.words = 2 then
    let a := c.aux.tensor.fmt
    if 1 ≤ a ∧ a ≤ 4 then a else 0x00
  else if f = 3 ∨ f = 4 then 0x03
  else 0x01

/-- Weights of WSUM at some index positions read for a unit and cached with their vintage tags, in the selector's format (R249,
R198). -/
def ensureWeights (s : State) (r : Run) (c : SCtx) (n : Nat) (ks : List Nat) : State × Run × ROut :=
  let need := (ks.filter (fun k => !smHas r.idx (wKey c.j k))).eraseDups
  if c.op != 0x0B || poolMode c.words != 2 || need.isEmpty then (s, r, .ok [])
  else
    let t := c.aux.tensor
    let w : Want := { role := 2, unit := n }
    let x := readElems s r c w (need.map (ofLogical t.ext))
    match x.2.2 with
    | .ok vs =>
      let conv := fun (v : Nat × Nat) =>
        if t.fmt = selFmt c then v.1
        else encodePlain (selFmt c) (dOvf c.words) .rne (if fmtCrated t.fmt then decodeScaled t.fmt v.2 v.1 else decode t.fmt v.1)
      let tags := need.foldl (fun m k => smPut m (wKey c.j k) (tagOf x.1 c x.2.1 w (ofLogical t.ext k))) x.2.1.idxTag
      (x.1, { x.2.1 with idx := (need.zip vs).foldl (fun m e => smPut m (wKey c.j e.1) (conv e.2)) x.2.1.idx,
                         idxTag := if t.table = 0 then x.2.1.idxTag else tags }, .ok [])
    | o => (x.1, x.2.1, o)

/-- Terms of the board leg for an element that enters the board (R381). -/
def boardTerms (c : SCtx) (code tag : Nat) (x : Crd) : List (Nat × Nat) :=
  lotTerms (boardFmt c).fmt tag code (logical c.srcRec.ext x)

/-- The row under whose name row `i` of a unit is fetched: the first of the unit's rows that takes the same row of the table
(R238). -/
def rowName (c : SCtx) (r : Run) (u : WUnit) (i : Nat) : Nat :=
  if c.op = 0x08 ∨ c.op = 0x0B then
    let vs := (unitKs c (runBag c r) u).map (runIdx r c.j)
    min i (vs.idxOf (nth vs i 0))
  else i

/-- The vintage tags that row `i` of a unit brings (R198), with its operand: those of its source elements, and of the index values and
weights of its unit. -/
def rowTags (s : State) (c : SCtx) (r : Run) (n i : Nat) (ks : List Nat) (xs : List Crd) : List (Nat × Word) :=
  (if c.src.tensor.table = 0 then xs.take 1 else xs).map (fun x => (0, tagOf s c r { role := 0, unit := n, row := i } x))
    ++ (if usesIdx c.op then ks.map (fun k => (1, smGet r.idxTag (idxKey c.j k) 0)) else [])
    ++ (if c.op = 0x0B ∧ poolMode c.words = 2 then ks.map (fun k => (2, smGet r.idxTag (wKey c.j k) 0)) else [])

/-- The tags of a pass after a row that brings some: the first that an operand brings is the pass's own. The second part is a tag that
differs from it, with its operand. -/
def takeTags (vtags : SMap Word) (ts : List (Nat × Word)) : SMap Word × Option (Nat × Word) :=
  ts.foldl
    (fun acc t =>
      if smHas acc.1 t.1 then (acc.1, if acc.2.isNone && smGet acc.1 t.1 0 != t.2 then some t else acc.2)
      else (smPut acc.1 t.1 t.2, acc.2))
    (vtags, none)

/-- A run whose pass in load adopts a new tag for an operand (R198): what it holds of that operand under another tag is dropped, to be
fetched again. -/
def adoptTag (r : Run) (c : SCtx) (n : Nat) (ks : List Nat) (t : Nat × Word) : Run :=
  let key := fun (k : Nat) => if t.1 = 1 then idxKey c.j k else wKey c.j k
  let stale := if t.1 = 0 then [] else (ks.map key).filter (fun k => smGet r.idxTag k 0 != t.2)
  { r with vtags := smPut r.vtags t.1 t.2, accM := 0, accP := 0,
           reads := r.reads.filter (fun e => !(e.stage == c.j && e.role == t.1 && e.landed && e.vtag != t.2 && !e.copy
             && (t.1 != 0 || e.unit == n || coalesce c))),
           idx := r.idx.filter (fun e => !stale.contains e.1), idxTag := r.idxTag.filter (fun e => !stale.contains e.1) }

/-- The index values, weights and bags that a unit needs. -/
def ensureUnit (s : State) (r : Run) (c : SCtx) (n : Nat) (u : WUnit) : State × Run × ROut :=
  let b := ensureBags s r c (n / poolSpan / max 1 (poolRuns c))
  match b.2.2 with
  | .ok _ =>
    let ks := unitKs c (runBag c b.2.1) u
    let i := if usesIdx c.op then ensureIdx b.1 b.2.1 c n ks else (b.1, b.2.1, ROut.ok [])
    match i.2.2 with
    | .ok _ => ensureWeights i.1 i.2.1 c n ks
    | o => (i.1, i.2.1, o)
  | o => (b.1, b.2.1, o)

/-- One row of the unit in load read into its board, where its data are at hand. The second part says whether anything
was done, the third gives the cause that abandons the unit: a cause of R385, or 99 for R200. -/
def loadRowAt (s : State) (p : Nat) (r : Run) (c : SCtx) (u : WUnit) (n i : Nat) : State × Bool × Option Nat :=
  let put := fun (s : State) (r : Run) => setPress s p { (getPress s p) with run := some r }
  let back := useBack c n u
  let es := rowElems c (runBag c r) (runIdx r c.j) u i
  let name := rowName c r u i
  let e0 := readElems s r c { role := 0, unit := n, row := name } (es.map (·.src))
  let s := e0.1
  let r := e0.2.1
  match e0.2.2 with
  | .wait => (put s r, false, none)
  | .fail k => (put s r, true, some k)
  | .dead => (put s r, true, some 99)
  | .ok vs =>
    let ks := unitKs c (runBag c r) u
    let ts := takeTags r.vtags (rowTags s c r n name ks (es.map (·.src)))
    match ts.2 with
    | some t =>
      let x := getPress s p
      let x := { x with run := some (adoptTag r c n ks t) }
      (bump (setPress s p (setBoard x back { getBoard x back with valid := 0 })) (0x4014 + 256 * p) 1, true, none)
    | none =>
      let bf := boardFmt c
      let x := getPress s p
      let b := (es.zip vs).foldl
        (fun b e =>
          let b := boardPut b bf.fmt i e.1.pos (loadCode c e.2)
          if bf.tags then tagPut b i e.1.pos e.2.2 else b)
        (getBoard x back)
      let lot := lotSum ((es.zip vs).flatMap (fun e => boardTerms c (loadCode c e.2) e.2.2 e.1.src))
      let sv := if c.op = 0x28 ∧ r.svtag = 0 then smGet ts.1 0 0 else r.svtag
      let r := { r with vtags := ts.1, svtag := sv, accM := r.accM + lot.1, accP := r.accP + lot.2 }
      (setPress s p (setBoard { x with run := some r } back { b with valid := b.valid ||| (1#32 <<< i) }), true, none)

/-- The first of some rows whose data are at hand, read into its board: the load unit chooses the row of each write freely (R177).
Lines that a row misses are asked for on the way. -/
def loadAny (s : State) (p : Nat) (c : SCtx) (u : WUnit) (n : Nat) : List Nat → State × Bool × Option Nat
  | [] => (s, false, none)
  | i :: rest =>
    match (getPress s p).run with
    | none => (s, false, none)
    | some r =>
      let y := loadRowAt s p r c u n i
      if y.2.1 || y.2.2.isSome then y else loadAny y.1 p c u n rest

/-- One row of the unit in load, of those not valid yet. -/
def loadRow (s : State) (p : Nat) (r : Run) (c : SCtx) (u : WUnit) (n : Nat) : State × Bool × Option Nat :=
  let put := fun (s : State) (r : Run) => setPress s p { (getPress s p) with run := some r }
  let b := getBoard (getPress s p) (useBack c n u)
  match firstRow b u.rows with
  | none => (s, false, none)
  | some _ =>
    let w := ensureUnit s r c n u
    match w.2.2 with
    | .wait => (put w.1 w.2.1, false, none)
    | .fail k => (put w.1 w.2.1, true, some k)
    | .dead => (put w.1 w.2.1, true, some 99)
    | .ok _ => loadAny (put w.1 w.2.1) p c u n ((List.range u.rows).filter (fun i => !b.valid.getLsbD i))

/-- The board that a BOARD handover fills for unit `m` of the stage that takes it (R285): row y receives the run that the stage before
would have stored as handover row y. The second part holds the sums of its board leg. -/
def handedBoard (s : State) (p : Nat) (f : Flight) (r : Run) (d : SCtx) (m : Nat) : Board × Word × Word :=
  let u := unitOf s p f r d m
  let bf := boardFmt d
  (List.range u.rows).foldl
    (fun (acc : Board × Word × Word) i =>
      let es := rowElems d (runBag d r) (runIdx r d.j) u i
      match (readElems s r d { role := 0, unit := m, row := i } (es.map (·.src))).2.2 with
      | .ok vs =>
        let b := (es.zip vs).foldl
          (fun b e =>
            let b := boardPut b bf.fmt i e.1.pos (loadCode d e.2)
            if bf.tags then tagPut b i e.1.pos e.2.2 else b)
          acc.1
        let lot := lotSum ((es.zip vs).flatMap (fun e => boardTerms d (loadCode d e.2) e.2.2 e.1.src))
        ({ b with valid := b.valid ||| (1#32 <<< i) }, acc.2.1 + lot.1, acc.2.2 + lot.2)
      | _ => acc)
    ({}, 0, 0)

/-! ### The MAC array and the compare path -/

/-- An element of a board as a value. -/
def boardVal (c : SCtx) (b : Board) (i j : Nat) : Val :=
  let bf := boardFmt c
  let code := boardGet b bf.fmt i j
  if bf.tags then decodeScaled bf.fmt (tagGet b i j) code else decode bf.fmt code

/-- A vat entry written. -/
def vatPut (v : SMap Word) (k code : Nat) : SMap Word := smPut v k (BitVec.ofNat 32 code)

/-- Bag position `i` of a group holds index position `k`. -/
def bagHolds (lens : List (Nat × Nat × Nat)) (i k : Nat) : Bool :=
  lens.any (fun e => e.1 == i && decide (e.2.1 ≤ k) && decide (k < e.2.1 + e.2.2))

/-- One pass of POOL (R249, R250): for each element and each bag the pass's 32 entries form one reduction group, in which an entry
of another bag has the weight 0 of the selector; an empty bag stays +0 (log 90). `joined` says that the vat holds a handover. -/
def poolStep (c : SCtx) (r : Run) (u : WUnit) (b : Board) (vat : SMap Word) (joined : Bool) : SMap Word :=
  let g := nth u.off 0 0
  let es := ((groupEntries c (runBag c r) g).drop (32 * nth u.off 2 0)).take 32
  let rows := (List.range es.length).zip es
  let lens := groupLens c (runBag c r) g
  let sel := selFmt c
  let xf := (boardFmt c).fmt == 0x00
  lens.foldl
    (fun vat bag =>
      let mine := rows.filter (fun e => bagHolds [bag] bag.1 e.2)
      if bag.2.2 = 0 ∨ (poolMode c.words = 3 ∧ mine.isEmpty) then vat
      else
        (List.range u.cols).foldl
          (fun vat e =>
            let k := 32 * (bag.1 + poolG c * (e / 32)) + e % 32
            let old := (smGet vat k 0).toNat
            if poolMode c.words = 3 then
              let new := mine.foldl
                (fun (acc : Option Nat) m =>
                  let v := toF32 (boardVal c b m.1 e)
                  match acc with
                  | none => if m.2 = bag.2.1 ∧ !joined then some v else some (maxF32 old v)
                  | some a => some (maxF32 a v))
                none
              -- a lone NaN becomes canonical too
              vatPut vat k (maxF32 (new.getD old) (new.getD old))
            else
              let prods := rows.flatMap (fun m =>
                let w := if !bagHolds [bag] bag.1 m.2 then .fin false 0 0
                  else if poolMode c.words = 2 then decode sel (smGet r.idx (wKey c.j m.2) 0) else .fin false 1 0
                partials xf (sel == 0x00) (boardVal c b m.1 e) w)
              vatPut vat k (vatAdd old prods))
          vat)
    vat

/-- One pass of INTERACT, or the second of a pair (R254): the reduction groups of the chunk for every entry of the tile.
`bI` holds the streamed features, `bJ` the stationary ones. In a tile of one feature block both entries of a symmetric pair are
formed from the same products in the same order (R252). -/
def interStep (c : SCtx) (u : WUnit) (bI bJ : Board) (vat : SMap Word) : SMap Word :=
  let f := crd c.ext 1
  let tI := nth u.off 1 0
  let tJ := nth u.off 2 0
  let ch := interChunk c
  let f32 := interF32 c
  let offJ := if f32 then 0 else ch
  let ds := (interElems c (nth u.off 3 0)).map (·.1)
  (List.range (min 32 (f - 32 * tI))).foldl
    (fun vat a =>
      (List.range (min 32 (f - 32 * tJ))).foldl
        (fun vat b =>
          (List.range (ch / 32)).foldl
            (fun vat g =>
              let ks := ds.filter (fun k => k / 32 == g)
              let ab := if tI = tJ ∧ a < b then (b, a) else (a, b)
              let prods := ks.flatMap (fun k => partials f32 f32 (boardVal c bI ab.1 k) (boardVal c bJ ab.2 (offJ + k)))
              let e := 32 * a + b
              vatPut vat e (vatAdd (smGet vat e 0).toNat prods))
            vat)
        vat)
    vat

/-- The MAC step of a loaded pass. -/
def macStep (s : State) (p : Nat) (f : Flight) (r : Run) (c : SCtx) (u : WUnit) (n : Nat) : State :=
  let x := getPress s p
  if c.op = 0x0B then
    let joined := 0 < c.j && linkKind s p f (c.j - 1) == .vat
    setPress s p { x with vat := poolStep c r u (getBoard x (useBack c n u)) x.vat joined }
  else if interF32 c then
    let off := nth u.off 1 0 != nth u.off 2 0
    if off && nth u.off 4 0 == 0 then s
    else if off then setPress s p { x with vat := interStep c u x.back x.front x.vat }
    else setPress s p { x with vat := interStep c u x.front x.front x.vat }
  else
    let b := getBoard x (useBack c n u)
    setPress s p { x with vat := interStep c u b b x.vat }

/-! ### Elements that a unit writes -/

/-- Bags of a group whose outputs are withheld: those with an entry in an abandoned pass of the group and run, of this
stage or of one that hands its vat to it (R200), and those whose offsets could not be read. -/
def lostBag (s : State) (p : Nat) (f : Flight) (r : Run) (c : SCtx) (n i : Nat) : Bool :=
  (List.range (c.j + 1)).any (fun k =>
    vatJoined s p f k c.j
      && (let d := stageCtx s p f k
          let b := crd (dStart d.words) 1 + n / poolSpan / max 1 (poolRuns d) * poolG d + i
          let offs := bitAt (dOpa d.words) 17
          let g := n / poolSpan / max 1 (poolRuns d)
          (offs && !(smHas r.idx (offKey k b) && smHas r.idx (offKey k (b + 1))))
            || (groupUnits s p f r d (n / poolSpan * poolSpan)).any (fun v =>
            r.failed.contains (k, v)
              && (((groupEntries d (runBag d r) g).drop (32 * (v % poolSpan))).take 32).any
                  (bagHolds (groupLens d (runBag d r) g) i))))

/-- Whether a tile of INTERACT lost a pass. -/
def lostTile (r : Run) (c : SCtx) (n : Nat) : Bool :=
  r.failed.any (fun e => e.1 == c.j && e.2 / interSpan c == n / interSpan c && decide (e.2 % interSpan c < 2 * interNc c))

/-- The reading of a vat entry at a drain, with the division of MEAN (R112, R249). -/
def drained (c : SCtx) (r : Run) (u : WUnit) (vat : SMap Word) (i k : Nat) : Nat :=
  let v := (smGet vat k 0).toNat
  if c.op = 0x0B ∧ poolMode c.words = 1 then
    let n := ((groupLens c (runBag c r) (nth u.off 0 0)).find? (fun e => e.1 == i)).map (·.2.2) |>.getD 0
    if n = 0 then (if v = 0 then 0 else Config.meanOfNone v % 2 ^ 32) else vatDiv v n
  else v

/-- The board that a drain fills (R185): a row drain copies vat rows into board rows, and a column drain vat columns, so that a column
read of the board gives a run of the output. -/
def drainBoard (c : SCtx) (r : Run) (u : WUnit) (vat : SMap Word) : Board :=
  let byRow := c.op == 0x10 && nth u.off 3 0 == 1
  let bag := fun (k : Nat) => k / 32 % poolG c
  { ent := (List.range 1024).filterMap (fun k =>
      let e := if byRow then k else 32 * (k % 32) + k / 32
      let v := drained c r u vat (bag e) e
      if v = 0 then none else some (k, BitVec.ofNat 32 v)),
    valid := BitVec.allOnes 32 }

/-- The word of vat entry `e` as a drained board holds it. -/
def drainedAt (c : SCtx) (u : WUnit) (b : Board) (e : Nat) : Nat :=
  let byRow := c.op == 0x10 && nth u.off 3 0 == 1
  (smGet b.ent (if byRow then e else 32 * (e % 32) + e / 32) 0).toNat

/-- The elements of a unit on its destination, in walk order; the second list holds the keys of a segment. -/
def unitOuts (s : State) (p : Nat) (f : Flight) (r : Run) (c : SCtx) (n : Nat) : List SOut × List SOut :=
  let u := unitOf s p f r c n
  let x := getPress s p
  match u.kind with
  | 0 =>
    let b := getBoard x (useBack c n u)
    let bf := boardFmt c
    ((List.range u.rows).flatMap (fun i =>
      (rowElems c (runBag c r) (runIdx r c.j) u i).map (fun e =>
        ({ dst := e.dst, fmt := bf.fmt, code := boardGet b bf.fmt i e.pos, tag := tagGet b i e.pos, tagged := bf.tags,
           whole := bf.tags, idx := logical c.srcRec.ext e.src, row := i } : SOut))), [])
  | 2 =>
    let b := getBoard x (useBack c n u)
    if c.op = 0x0B then
      (((poolOuts c u).filter (fun o => !lostBag s p f r c n o.1)).map (fun o =>
        let d := poolDst c u o.1 o.2.1
        ({ dst := d, fmt := 0x00, code := drainedAt c u b o.2.2, idx := logical c.dstRec.ext d, row := o.1 } : SOut)), [])
    else if lostTile r c n then ([], [])
    else
      ((interOuts c u).map (fun o =>
        let d := interDst c u o.1 o.2.1
        ({ dst := d, fmt := 0x00, code := drainedAt c u b o.2.2, idx := logical c.dstRec.ext d, row := o.1 } : SOut)), [])
  | 3 =>
    let d := dDstart c.op c.words
    let t := nth u.off 0 0
    let desc := bitAt (dOpa c.words) 19
    let cls := (sortKey c.srcRec.fmt 0x7F 0).2
    let ps := ((getTable s (terraceOf p)).pairs).take (nth c.ext 2 0)
    let at' := fun (q : Nat) => ([crd d 0 + q, crd d 1 + t, 0, 0] : Crd)
    let vals := ((List.range ps.length).zip ps).map (fun e =>
      ({ dst := at' e.1, fmt := 0x11, code := e.2.2.toNat, raw := true, idx := logical c.dstRec.ext (at' e.1) } : SOut))
    let keys := ((List.range ps.length).zip ps).map (fun e =>
      ({ dst := at' e.1, fmt := if cls = 1 then 0x10 else if cls = 2 then 0x11 else 0x00,
         code := keyOfCode desc cls e.2.1.toNat, idx := logical c.kdst.tensor.ext (at' e.1) } : SOut))
    (vals, if bitAt (dOpa c.words) 17 then keys else [])
  | 4 =>
    let g := c.dstRec.fmt
    let v := (dOpb c.words).toNat + 2 ^ 32 * (dOpc c.words).toNat
    let raw := !bitAt (dOpa c.words) 0
    ((fillUnit s r c (mainTarget s p f c) (nth u.off 0 0)).map (fun d =>
      if raw then
        ({ dst := d, fmt := g, code := v % 2 ^ fmtBits g, tag := v / 256 % 256, tagged := fmtCrated g,
           idx := logical c.dstRec.ext d } : SOut)
      else { dst := d, fmt := 0x00, code := v % 2 ^ 32, idx := logical c.dstRec.ext d }), [])
  | _ => ([], [])

/-- Whether a position of a target holds a window element of the descriptor (R216). -/
def inWindowOf (r : Run) (c : SCtx) (t : Target) (x : Crd) : Bool :=
  if t.hand then true
  else
    let d := dDstart c.op c.words
    let e := handExt c
    let box := fun (k : Nat) => decide (crd d k ≤ crd x k) && decide (crd x k < crd d k + crd e k)
    let named := fun (ks : List Nat) (v : Nat) => ks.any (fun k => runIdx r c.j k == v)
    if c.op = 0x03 ∧ bitAt (dOpa c.words) 2 then
      let p := fld (dOpa c.words) 0 2
      (List.range 4).all (fun k => if k = p then named (List.range (crd c.ext p)) (crd x p) else box k)
    else if c.op = 0x09 ∨ c.op = 0x0A then
      (List.range 4).all (fun k =>
        if k = 1 then named ((List.range (crd c.ext 1)).map (crd (dStart c.words) 1 + ·)) (crd x 1) else box k)
    else (List.range 4).all box

/-- Index positions whose values a pad decision needs. -/
def padKs (c : SCtx) : List Nat :=
  if c.op = 0x03 ∧ bitAt (dOpa c.words) 2 then List.range (crd c.ext (fld (dOpa c.words) 0 2))
  else if c.op = 0x09 then (List.range (crd c.ext 1)).map (crd (dStart c.words) 1 + ·)
  else []

/-! ### Sorting (R259 to R268) -/

/-- A pair put into a sorted list; among equal codes its place is free (R262). -/
def sortInsert (desc : Bool) (draw : Nat) (l : List (Word × Word)) (e : Word × Word) : Nat × List (Word × Word) :=
  let before := l.takeWhile (fun x => if desc then decide (e.1.toNat < x.1.toNat) else decide (x.1.toNat < e.1.toNat))
  let rest := l.drop before.length
  let same := rest.takeWhile (fun x => x.1 == e.1)
  if same.isEmpty then (draw, before ++ [e] ++ rest)
  else
    let k := Config.freeKey draw % (same.length + 1)
    (draw + 1, before ++ same.take k ++ [e] ++ same.drop k ++ rest.drop same.length)

/-- The source coordinates of the pairs of block `b` of a segment, and those of their values (R265, R266). -/
def blockCrds (c : SCtx) (t b : Nat) : List Crd :=
  (List.range (min 64 (nth c.ext 0 0 - 64 * b))).map (fun e => segCrd c t (64 * b + e))
def valueCrd (c : SCtx) (x : Crd) : Crd := (List.range 4).map (fun d => min (crd x d) (crd c.aux.tensor.ext d - 1))

/-- Values come from AUX (R264). -/
def fromAux (c : SCtx) : Bool := bitAt (dOpa c.words) 18

/-- The lines of some blocks of a segment asked for: whether all have been asked for, and whether all are at hand. -/
def askBlocks (s : State) (r : Run) (c : SCtx) (t : Nat) (now : Bool) (bs : List Nat) : State × Run × Bool × Bool :=
  bs.foldl
    (fun (acc : State × Run × Bool × Bool) b =>
      if acc.2.2.1 then
        let k := askElems acc.1 acc.2.1 c { role := 0, unit := t, row := b } now (blockCrds c t b)
        if k.2.2.1 && fromAux c then
          let v := askElems k.1 k.2.1 c { role := 2, unit := t, row := b } now ((blockCrds c t b).map (valueCrd c))
          (v.1, v.2.1, v.2.2.1, acc.2.2.2 && k.2.2.2 && v.2.2.2)
        else (k.1, k.2.1, k.2.2.1, acc.2.2.2 && k.2.2.2)
      else (acc.1, acc.2.1, false, false))
    (s, r, true, true)

/-- Whether block `r.fed` of segment `t` may be fed. A segment is fed only once its rows have landed (R271); where the staging area does
not hold them all, those that it holds are fed first (log 89). -/
def mayFeed (s : State) (r : Run) (c : SCtx) (t : Nat) : State × Run × Bool :=
  let rest := (List.range (ceilDiv (nth c.ext 0 0) 64)).drop r.fed
  let one := askBlocks s r c t true (rest.take 1)
  if 0 < r.fed ∧ one.2.2.2 then (one.1, one.2.1, true)
  else
    let all := askBlocks one.1 one.2.1 c t true (rest.drop 1)
    let flying := all.2.1.reads.any (·.flying)
    (all.1, all.2.1, if all.2.2.1 then one.2.2.2 && all.2.2.2 else one.2.2.2 && !flying)

/-- The vintage tags that a block of a segment brings (R198). -/
def blockTags (s : State) (c : SCtx) (r : Run) (t b : Nat) : List (Nat × Word) :=
  let xs := blockCrds c t b
  (if c.src.tensor.table = 0 then xs.take 1 else xs).map (fun x => (0, tagOf s c r { role := 0, unit := t, row := b } x))
    ++ (if fromAux c then
          (if c.aux.tensor.table = 0 then xs.take 1 else xs).map (fun x =>
            (2, tagOf s c r { role := 2, unit := t, row := b } (valueCrd c x)))
        else [])

/-- The pairs of a block that enter the list (R268): once it holds the k pairs of a TOPK, those better than its last. -/
def passFilter (topk desc : Bool) (k : Nat) (l ps : List (Word × Word)) : List (Word × Word) :=
  match if topk && k ≤ l.length then l[k - 1]? else none with
  | none => ps
  | some z => ps.filter (fun x => if desc then decide (z.1.toNat < x.1.toNat) else decide (x.1.toNat < z.1.toNat))

/-- One block of 64 pairs read, coded and merged (R268): the list keeps the best k of TOPK. A clamped tuple and a NaN key count once,
however often their segment is fed (R262, R266, R272). -/
def feedBlock (s : State) (p : Nat) (r : Run) (c : SCtx) (u : WUnit) : State × Run × ROut :=
  let t := nth u.off 0 0
  let n := nth c.ext 0 0
  let b := r.fed
  let go := mayFeed s r c t
  let s := go.1
  let r := go.2.1
  if !go.2.2 then (s, r, .wait)
  else
  let xs := blockCrds c t b
  let k0 := readElems s r c { role := 0, unit := t, row := b } xs
  match k0.2.2 with
  | .ok ks =>
    let a := c.aux.tensor
    let v0 := if fromAux c then readElems k0.1 k0.2.1 c { role := 2, unit := t, row := b } (xs.map (valueCrd c))
      else (k0.1, k0.2.1, ROut.ok (xs.map (fun x => (crd x 0, 0))))
    match v0.2.2 with
    | .ok vs =>
      let desc := bitAt (dOpa c.words) 19
      let s := v0.1
      let r := v0.2.1
      let tb := getTable s (terraceOf p)
      let ts := takeTags r.vtags (blockTags s c r t b)
      match ts.2 with
      | some z =>
        -- a row of another vintage: the segment is fed again under the new tag (R198)
        (bump (setTable s (terraceOf p) { tb with pairs := [] }) (0x4014 + 256 * p) 1,
         { adoptTag r c t [] z with fed := 0 }, .ok [])
      | none =>
        let fresh := decide (r.fedMost ≤ b)
        let clamped := if fromAux c && fresh then (xs.filter (fun x => x != valueCrd c x)).length else 0
        let s := addClamped s c.fid clamped
        let val := fun (v : Nat × Nat) =>
          if !fromAux c then v.1 else if fmtCrated a.fmt then toF32 (decodeScaled a.fmt v.2 v.1) else v.1 % 2 ^ 32
        let keys := ks.map (fun k => sortKey c.srcRec.fmt k.2 k.1)
        let nans := if fresh then (keys.filter (fun k => keyNan k.2 k.1)).length else 0
        let pairs := (keys.zip vs).map (fun e =>
          (BitVec.ofNat 32 (sortCode desc e.1.2 e.1.1), BitVec.ofNat 32 (val e.2)))
        let keep := if c.op = 0x19 then min n (fld (dOpa c.words) 20 12 + 1) else n
        let m := (passFilter (c.op == 0x19) desc keep tb.pairs pairs).foldl
          (fun acc e =>
            let y := sortInsert desc acc.1 acc.2 e
            (y.1, y.2.take keep))
          (s.draw, tb.pairs)
        let s := bump { s with draw := m.1 } (0x01A0 + 4 * terraceOf p) nans
        (setTable s (terraceOf p) { tb with pairs := m.2, segment := t },
         { r with fed := b + 1, fedMost := max r.fedMost (b + 1), vtags := ts.1,
                  reads := r.reads.filter (fun e => !(e.landed && !e.copy && e.stage == c.j && e.unit == t && e.row == b
                    && (e.role == 0 || e.role == 2))) }, .ok [])
    | o => (v0.1, v0.2.1, o)
  | o => (k0.1, k0.2.1, o)

/-! ### Destination runs of EGRESS and MULTICAST (R342, R345) -/

/-- The lines of a target that unit `n` of a stage stores to in a 2 KiB block of a node. -/
def unitLines (s : State) (p : Nat) (f : Flight) (r : Run) (c : SCtx) (t : Target) (node blk n : Nat) : List Nat :=
  let g := t.trec.tensor.fmt
  (((unitDsts s p f r c n).flatMap (fun d =>
    match hallOf s r t.trec (t.at' d) with
    | some h => if h.node = node ∧ !h.unm then (elemAddrs g h).map (· / 64) else []
    | none => [])).filter (fun l => l / 32 == blk)).eraseDups

/-- The runs that the pieces of unit `n` fall into: one for each destination run of the whole stage within an aligned 2 KiB block of a
node (R342). A run that an earlier unit has stored to has its transaction already. -/
def blockRuns (s : State) (p : Nat) (f : Flight) (r : Run) (c : SCtx) (t : Target) (n : Nat) (ps : List Piece) : List BlockRun :=
  let at' := (ps.flatMap (fun q => q.bytes.map (fun b => (q.node, b.1 / 64)))).eraseDups
  let us := allUnits s p f r c
  ((at'.map (fun a => (a.1, a.2 / 32))).eraseDups).flatMap (fun k =>
    let here := (at'.filter (fun a => a.1 == k.1 && a.2 / 32 == k.2)).map (·.2)
    let ws := us.map (fun m => (m, if m = n then here else unitLines s p f r c t k.1 k.2 m))
    let begun := s.fab.outs.filter (fun o => o.fid == f.id && o.stage == c.j && o.held && !o.toStore.isEmpty
      && (o.multicast || o.txn.dnode.toNat == k.1) && o.txn.addr.toNat / 2048 == k.2)
    let span := fun (o : OutTxn) => (List.range (o.txn.lenM1.toNat + 1)).map (o.txn.addr.toNat / 64 + ·)
    (runsOf (sortedNat (ws.flatMap (·.2) ++ begun.flatMap span))).filterMap (fun x =>
      let within := fun (l : Nat) => decide (x.1 ≤ l) && decide (l < x.1 + x.2)
      if here.any within then
        some { node := k.1, first := x.1, lines := x.2, units := (ws.filter (fun w => w.2.any within)).map (·.1),
               key := (begun.find? (fun o => (span o).any within)).map (·.key) }
      else none))

/-! ### Reading ahead (R178, R291) -/

/-- Whether a stage takes operands from other nodes, so that reading ahead has something to ask for. -/
def looksAhead (s : State) (c : SCtx) : Bool :=
  c.op != 0x04
    && (!allHere s c.src || (usesIdx c.op && !allHere s c.idx)
        || (((c.op == 0x0B && poolMode c.words == 2) || ((c.op == 0x18 || c.op == 0x19) && fromAux c)) && !allHere s c.aux)
        || (c.op == 0x0B && bitAt (dOpa c.words) 17 && !allHere s c.offs))

/-- Values of an operand that decide what else a unit reads, taken ahead of it: once their lines are at hand, and only where that
changes nothing else. The last part says whether they are known. -/
def knowAhead (s : State) (r : Run) (c : SCtx) (w : Want) (xs : List Crd) (take : State → Run → State × Run × ROut) :
    State × Run × Bool :=
  if xs.isEmpty then (s, r, true)
  else
    let a := askElems s r c w false xs
    if a.2.2.2 && cleanElems a.1 c a.2.1 w xs then
      let y := take a.1 a.2.1
      (y.1, y.2.1, match y.2.2 with
        | .ok _ => true
        | _ => false)
    else (a.1, a.2.1, false)

/-- The bag limits and index values of a unit known ahead; those of a handover are read only after its release (R291). -/
def knowUnit (s : State) (p : Nat) (f : Flight) (r : Run) (c : SCtx) (n : Nat) : State × Run × Bool :=
  let g := n / poolSpan / max 1 (poolRuns c)
  let b := knowAhead s r c { role := 4 } ((bagNeed r c g).map (ofLogical c.offs.tensor.ext)) (fun s r => ensureBags s r c g)
  if b.2.2 then
    let r := b.2.1
    let ks := if usesIdx c.op then
        (unitKs c (runBag c r) (unitOf b.1 p f r c n)).filter (fun k => !smHas r.idx (idxKey c.j k)) else []
    if !ks.isEmpty && c.into == some 1 then (b.1, r, false)
    else knowAhead b.1 r c { role := 1, unit := n } (ks.map (ofLogical c.idx.tensor.ext)) (fun s r => ensureIdx s r c n ks)
  else b

/-- The rows of a unit from row `i` on asked for, as far as tags and the staging area allow; the row at which they end, if any. -/
def askRows (s : State) (p : Nat) (f : Flight) (r : Run) (c : SCtx) (n i : Nat) : State × Run × Option Nat :=
  let u := unitOf s p f r c n
  if u.kind = 3 then
    ((List.range u.rows).drop i).foldl
      (fun (acc : State × Run × Option Nat) b =>
        if acc.2.2.isSome then acc
        else
          let y := askBlocks acc.1 acc.2.1 c (nth u.off 0 0) false [b]
          (y.1, y.2.1, if y.2.2.1 then none else some b))
      (s, r, none)
  else if u.kind ≤ 1 then
    let ks := unitKs c (runBag c r) u
    let w := if c.op = 0x0B ∧ poolMode c.words = 2 ∧ c.into ≠ some 2 then
        askElems s r c { role := 2, unit := n } false (ks.map (ofLogical c.aux.tensor.ext))
      else (s, r, true, true)
    if !w.2.2.1 then (w.1, w.2.1, some i)
    else if coalesce c ∧ !(getTable s (terraceOf p)).fenced then (w.1, w.2.1, none)
    else
      ((List.range u.rows).drop i).foldl
        (fun (acc : State × Run × Option Nat) k =>
          if acc.2.2.isSome || rowName c acc.2.1 u k != k then acc
          else
            let es := rowElems c (runBag c acc.2.1) (runIdx acc.2.1 c.j) u k
            let y := askElems acc.1 acc.2.1 c { role := 0, unit := n, row := k } false (es.map (·.src))
            (y.1, y.2.1, if y.2.2.1 then none else some k))
        (w.1, w.2.1, none)
  else (s, r, none)

/-- The units of a stage from row `i` of unit `n` on asked for in tile order, at most `fuel` of them; the place reached is kept. -/
def askUnits (s : State) (p : Nat) (f : Flight) (r : Run) (c : SCtx) (stop : Nat) : Nat → Nat → Nat → State × Run
  | 0, n, i => (s, { r with ahead := r.ahead.set c.j (n, i) })
  | k + 1, n, i =>
    if stop ≤ n then (s, { r with ahead := r.ahead.set c.j (n, i) })
    else
      let y := knowUnit s p f r c n
      if y.2.2 then
        let z := askRows y.1 p f y.2.1 c n i
        match z.2.2 with
        | some e => (z.1, { z.2.1 with ahead := z.2.1.ahead.set c.j (n, e) })
        | none => askUnits z.1 p f z.2.1 c stop k (stepUnit z.1 p f z.2.1 c n) 0
      else (y.1, { y.2.1 with ahead := y.2.1.ahead.set c.j (n, i) })

/-- The rows of a coalesced stage asked for in the order of its sorted runs (R239). -/
def askOrder (s : State) (p : Nat) (f : Flight) (r : Run) (c : SCtx) : Nat → State × Run
  | 0 => (s, r)
  | k + 1 =>
    match r.order.find? (fun e => e.1 == c.j) with
    | none => (s, r)
    | some e =>
      let u := unitOf s p f r c e.2.1
      let es := rowElems c (runBag c r) (runIdx r c.j) u e.2.2
      let y := askElems s r c { role := 0, unit := e.2.1, row := e.2.2 } false (es.map (·.src))
      if y.2.2.1 then askOrder y.1 p f { y.2.1 with order := y.2.1.order.erase e } c k else (y.1, y.2.1)

/-- The reads of every stage that may run issued ahead of their loads, in stage order and then in tile order (R178, R291). -/
def readAhead (s : State) (p : Nat) (f : Flight) (r : Run) : State × Run :=
  if (getPress s p).state != .run || r.stagedWait || r.stopped then (s, r)
  else
    (List.range f.stages.length).foldl
      (fun acc j =>
        let s := acc.1
        let r := acc.2
        let c := stageCtx s p f j
        if !looksAhead s c || gateClosed s p f r j || !gateOpen s p f r j || isDirect s p f r j then acc
        else
          let y := askOrder s p f r c r.order.length
          let at' := nth r.ahead j (0, 0)
          let n := nth r.next j 0
          let from' := if at'.1 < n then (n, 0) else at'
          askUnits y.1 p f y.2 c (unitsEnd s p f r c) 4096 from'.1 from'.2)
      (s, r)

/-! ### COALESCE (R239, R269) -/

/-- The index-sort key of an entry (R269). -/
def coalKey (c : SCtx) (row : Nat) : Word :=
  let t := if c.op = 0x09 ∨ c.op = 0x0A then c.dstRec else c.srcRec
  let sh := t.shardNo [0, row, 0, 0]
  let l1 := (t.shard1 1 row).2.1
  BitVec.ofNat 32 (sh * 2 ^ 20 + l1 % 2 ^ 20)

/-- The run of 4,096 index positions that a unit falls into (R269). -/
def coalRun (c : SCtx) (r : Run) (u : WUnit) : Nat :=
  match unitKs c (runBag c r) u with
  | k :: _ => (k - (if c.op = 0x0B then 0 else crd (dStart c.words) 1)) / 4096
  | [] => 0

end Sys2Proof.Machine
end

