-- ==== Sys2Proof/Machine/Passes.lean ====
section
/-!
DEFINITION. Machine/Passes.lean: a unit stored (R186), abandoned (R200, R288, R384) or judged (R383, R384), the next unit
chosen (R290), the commits of a DECANT (R228, R231), and the end of a run (R206, R194).
-/
namespace Sys2Proof.Machine

/-- The run of press `p` replaced. -/
def putRun (s : State) (p : Nat) (r : Run) : State := setPress s p { (getPress s p) with run := some r }

/-! ### Handover units that are never released (R288) -/

/-- Handover units counted once each in CTL.BLEND_STAT.GATED_FAIL. -/
def markFallen (s : State) (p fid j : Nat) (keys : List Nat) : State :=
  match findRun s p fid with
  | none => s
  | some r =>
    let new := (keys.eraseDups.map (fun k => j * 2 ^ 60 + k)).filter (fun k => !r.fallen.contains k)
    bumpFld (updRun s p fid (fun r => { r with fallen := r.fallen ++ new })) 0x01C0 0 16 new.length

/-- The handover units that some destination coordinates of a stage lie in. -/
def handKeys (s : State) (p : Nat) (f : Flight) (c : SCtx) (ds : List Crd) : List Nat :=
  let sh := handShift c
  let key := fun (x : Crd) => if linkKind s p f c.j = .board then 0 else handBlockOf c x
  (ds.map (fun d => key ((List.range 4).map (fun k => crd d k - crd sh k)))).eraseDups

/-- Unit `n` of a stage failed or was abandoned: its handover units are never released. -/
def loseUnit (s : State) (p : Nat) (f : Flight) (r : Run) (c : SCtx) (n : Nat) : State :=
  let s := updRun s p f.id (fun r => { r with failed := r.failed ++ [(c.j, n)] })
  match linkKind s p f c.j with
  | .none =>
    -- a gate that this failure closes counts once (R283)
    if c.j + 1 < f.stages.length then markFallen s p f.id c.j [2 ^ 59] else s
  | .vat => markFallen s p f.id c.j [2 ^ 58 + vatGroup n]
  | .board => markFallen s p f.id c.j (if (unitOf s p f r c n).kind = 1 then [] else [n])
  | _ => markFallen s p f.id c.j (handKeys s p f c (unitDsts s p f r c n))

/-- The outputs that a drain withholds: their handover units are never released (R200, R288). -/
def loseOutputs (s : State) (p : Nat) (f : Flight) (c : SCtx) (n : Nat) (ds : List Crd) : State :=
  match linkKind s p f c.j with
  | .none => s
  | .vat => s
  | k =>
    if ds.isEmpty then s
    else
      let keys := if k = .board then (ds.map (fun d =>
          logical (handExt c) ((List.range 4).map (fun k => crd d k - crd (handShift c) k)))).eraseDups
        else handKeys s p f c ds
      let s := updRun s p f.id (fun r => { r with withheld := r.withheld ++ keys.map (fun x => (c.j, x)) })
      markFallen s p f.id c.j (if k = .board then [n] else keys)

/-! ### The next unit -/

/-- A bag group whose last pass has been left, where a VAT handover passes it on (R286, R287): its check is due, or, where one of its
passes was abandoned, it is never released (R288). -/
def closeGroup (s : State) (p : Nat) (f : Flight) (r : Run) (c : SCtx) (n v : Nat) : State :=
  let first := vatGroup n * poolSpan
  let last := first + 4096
  if c.op = 0x0B ∧ linkKind s p f c.j = .vat ∧ vatGroup v ≠ vatGroup n
      ∧ !(groupEntries c (runBag c r) (vatGroup n / max 1 (poolRuns c))).isEmpty then
    if r.failed.any (fun e => e.1 == c.j && vatGroup e.2 == vatGroup n) then
      updRun s p f.id (fun r => { r with failed := r.failed ++ [(c.j, last)] })
    else
      let x := getPress s p
      setPress s p { x with waits := x.waits ++
        [{ fid := f.id, stage := c.j, unit := last, elems := 0, vat := true, nblocks := 1 }] }
  else s

/-- The first pass of a pair of FP32 passes of INTERACT, whose features stay in the front board for the second (R254). -/
def firstOfPair (c : SCtx) (u : WUnit) : Bool :=
  c.op == 0x10 && interF32 c && u.kind == 1 && nth u.off 1 0 != nth u.off 2 0 && nth u.off 4 0 == 0
def secondOfPair (c : SCtx) (u : WUnit) : Bool :=
  c.op == 0x10 && interF32 c && u.kind == 1 && nth u.off 4 0 == 1

/-- The boards as a unit leaves them: those that it used are released, with every row-valid bit cleared (R182). -/
def releaseBoards (x : Press) (r : Run) (c : SCtx) (n : Nat) (u : WUnit) : Press :=
  let clear := fun (b : Board) => { b with valid := 0#32 }
  let back := useBack c n u
  if 2 < u.kind ∨ (firstOfPair c u ∧ !r.failed.contains (c.j, n)) then x
  else if (u.kind = 0 ∧ turnsBoard c) ∨ secondOfPair c u then { x with front := clear x.front, back := clear x.back }
  else setBoard x back (clear (getBoard x back))

/-- Reads of a unit that has been left are dropped once they have come back; COALESCE keeps the rows for later passes (R239). -/
def FRead.past (e : FRead) (c : SCtx) (n : Nat) (u : WUnit) : Bool :=
  !e.flying && !e.copy && e.stage == c.j && e.unit == n
    && ((e.role == 0 && !coalesce c) || e.role == 3 || (e.role == 2 && u.kind == 3))

/-- The unit in load is left for another one of its stage. -/
def advanceUnit (s : State) (p : Nat) (f : Flight) (c : SCtx) (n : Nat) : State :=
  match findRun s p f.id with
  | none => s
  | some r =>
    let v := stepUnit s p f r c n
    let u := unitOf s p f r c n
    let leaves := (c.op == 0x0B && u.kind == 2) || (c.op == 0x10 && v / interSpan c != n / interSpan c)
    let s := closeGroup s p f r c n v
    let x := releaseBoards (getPress s p) r c n u
    let s := setPress s p (if leaves then { x with vat := [] } else x)
    let s := returnBlocks s c.strm r.got
    updRun s p f.id (fun r =>
      { r with next := if nth r.next c.j 0 = n then r.next.set c.j v else r.next,
               passedBy := r.passedBy.filter (· != (c.j, n)), reads := r.reads.filter (fun e => !e.past c n u),
               loading := false, retry := 0, got := 0 })

/-- A DECANT stops at the super-tile of unit `n`, the first that fails to commit, and writes STATE = STOPPED (R231). -/
def stopDecant (s : State) (p : Nat) (f : Flight) (c : SCtx) (n : Nat) : State :=
  if c.op = 0x28 then
    let t := n / decantSpan
    let s := updRun s p f.id (fun r =>
      { r with stopped := true, stopTile := if r.stopped then min r.stopTile t else t, loading := false })
    match getFlight s f.id, findRun s p f.id with
    | some f, some r => writeJournal s f r 3
    | _, _ => s
  else s

/-- The unit in load is abandoned with a cause: one of R385, 99 for R200, or 98 for R288. -/
def abandonUnit (s : State) (p : Nat) (f : Flight) (c : SCtx) (n cause : Nat) : State :=
  match findRun s p f.id with
  | none => s
  | some r =>
    let s := leaveOuts (loseUnit s p f r c n) f.id c.j n
    let s := advanceUnit s p f c n
    let s := if (unitOf s p f r c n).kind = 3 then releaseTable s p else s
    let s := stopDecant s p f c n
    if cause = 99 then updCnt (bump s (0x401C + 256 * p) 1) f.id (fun k => { k with unreachable := true })
    else if cause = 98 then s
    else lotFailed s p f.id cause

/-- The super-tiles that a walk jumps over because the skip map names them (R226). -/
def skipTiles (s : State) (f : Flight) (r : Run) : Nat → Run
  | 0 => r
  | k + 1 =>
    let st := nth f.stages 0 {}
    let u := nth r.next 0 0
    if u % decantSpan = 0 ∧ u / decantSpan < jTotal st then
      let y := skipped s st r (u / decantSpan)
      if y.2 then skipTiles s f { y.1 with next := y.1.next.set 0 ((u / decantSpan + 1) * decantSpan) } k else y.1
    else r

/-- Unit `n` of stage `j` taken into load: its board starts empty, takes the drained vat (R185), or keeps the handover that stands in it
(R285). Units before it that are not ready yet are passed over (R290). -/
def takeUnit (s : State) (p : Nat) (f : Flight) (r : Run) (j n : Nat) : State :=
  let c := stageCtx s p f j
  let u := unitOf s p f r c n
  let back := useBack c n u
  let x := getPress s p
  let handed := r.handed == some (j, n)
  let x := if handed then x
    else if u.kind = 2 then setBoard x back (drainBoard c r u x.vat)
    else if u.kind ≤ 1 then setBoard x back { (getBoard x back) with valid := 0 }
    else x
  let acc := if handed then (handedBoard s p f r c n).2 else (0#32, 0#32)
  let next := nth r.next j 0
  let over' := (unitsFrom s p f r c n (n - next) next).map (fun m => (j, m))
  setPress s p { x with run := some { r with
    stage := j, unit := n, loading := true, next := r.next.set j (max next n), passedBy := r.passedBy ++ over', vtags := [],
    accM := acc.1, accP := acc.2, boardUeOnce := false, fed := 0, fedMost := 0, retry := 0,
    handed := if handed then none else r.handed } }

/-- The first ready unit of the highest-numbered stage that has one (R290). -/
def pickStage (s : State) (p : Nat) (f : Flight) : Nat → State
  | 0 => s
  | j + 1 =>
    match (getPress s p).run with
    | none => s
    | some r =>
      let y := stageReady s p f r j
      let s := putRun y.1 p y.2.1
      match y.2.2 with
      | some (n, lost) =>
        let s := takeUnit s p f y.2.1 j n
        if lost then abandonUnit s p f (stageCtx s p f j) n 98 else s
      | none => pickStage s p f j

/-- A unit is chosen where none is in load; units that can never run are abandoned on the way. -/
def pickUnit (s : State) (p : Nat) : Nat → State
  | 0 => s
  | k + 1 =>
    match (getPress s p).run with
    | none => s
    | some r =>
      match getFlight s r.fid with
      | none => s
      | some f =>
        if r.loading || runOver s p f r then s
        else
          let s := if (nth f.stages 0 {}).op = 0x28 then putRun s p (skipTiles s f r (jTotal (nth f.stages 0 {}) + 1)) else s
          let t := pickStage s p f f.stages.length
          match (getPress t p).run with
          | some r' => if r'.loading || r'.failed.length = r.failed.length then t else pickUnit t p k
          | none => t

/-! ### Commits of a DECANT (R228) -/

/-- Every unit of super-tile `n` has passed its check. -/
def tilePassed (c : SCtx) (r : Run) (n : Nat) : Bool :=
  let st := superTile c.ext n
  (List.range (walkCount st.2 1 (regionW (boardFmt c).fmt))).all (fun i => r.passed.contains (0, n * decantSpan + i))

/-- The next super-tile committed now. -/
def tileCommitted (s : State) (r : Run) : Run := { r with tile := r.tile + 1, jopen := true, tcommit := s.time.ftime }

/-- Commits in rising order, each with its journal line. A super-tile before the one that stopped the DECANT still commits; its line
keeps STATE = STOPPED (R231, log 95). -/
def commitTiles (s : State) (p : Nat) (f : Flight) : Nat → State
  | 0 => s
  | k + 1 =>
    match findRun s p f.id, getFlight s f.id with
    | some r, some f =>
      let c := stageCtx s p f 0
      let st := nth f.stages 0 {}
      if (r.stopped && r.stopTile ≤ r.tile) || jTotal st ≤ r.tile then s
      else
        let y := skipped s st r r.tile
        if y.2 || tilePassed c r r.tile then
          let r := tileCommitted s y.1
          let s := updRun s p f.id (fun _ => r)
          commitTiles (writeJournal s f r (if r.stopped then 3 else if r.tile = jTotal st then 2 else 1)) p f k
        else s
    | _, _ => s

/-- The commits of a descriptor after a verdict, whether it runs or is saved. -/
def commitFor (s : State) (p fid : Nat) : State :=
  match getFlight s fid with
  | some f => if (nth f.stages 0 {}).op = 0x28 then commitTiles s p f (jTotal (nth f.stages 0 {}) + 1) else s
  | none => s

/-! ### The end of a run -/

/-- A descriptor whose run is over and whose checks are all done waits for its card only. -/
def completeFlight (s : State) (p fid : Nat) : State :=
  match getFlight s fid with
  | none => s
  | some f =>
    let x := getPress s p
    let due := x.waits.any (fun w => w.fid == fid)
    let atWork := match x.run with
      | some r => r.fid == fid && x.state != .finish
      | none => false
    let kept := match x.saved with
      | some r => r.fid == fid && x.state != .corked
      | none => false
    if f.phase = .running p ∧ !due ∧ !atWork ∧ !kept then
      let s := setFlight s (finished s { f with press := p })
      match x.run with
      | some r => if r.fid = fid then setPress s p { x with run := none, state := .idle } else s
      | none => s
    else s

/-- A run that is over: its handover blocks are released, its table is given back, reads that are still on their way are retired, and a
press with a saved frame begins to restore it (R194). -/
def finishRun (s : State) (p : Nat) (f : Flight) (r : Run) : State :=
  let s := releaseTable (dropHandBlocks s f.stream r) p
  let x := getPress s p
  let x := { x with retired := x.retired ++ (r.reads.filter (·.flying)).map (·.tag) }
  let r := { r with reads := [], got := 0 }
  let s := setPress s p x
  let s := match x.saved with
    | some _ => setPress s p { x with run := none, state := .restore }
    | none => setPress s p { x with run := some { r with handBlocks := [] }, state := .finish }
  completeFlight s p f.id

/-- What follows a change of a press: commits, the choice of the next unit, and the end of the run. -/
def conclude (s : State) (p : Nat) : State :=
  match (getPress s p).run with
  | none => s
  | some r =>
    match getFlight s r.fid with
    | none => s
    | some f =>
      let s := if (nth f.stages 0 {}).op = 0x28 then commitTiles s p f (jTotal (nth f.stages 0 {}) + 1) else s
      if (getPress s p).state = .run then
        let s := pickUnit s p 4096
        match (getPress s p).run with
        | some r =>
          if !r.loading && runOver s p f r then finishRun s p f r else putRun s p { r with barred := barsPreempt s p f r }
        | none => s
      else completeFlight s p f.id

/-- The same, with the reads that a running press then issues ahead (R178). -/
def settle (s : State) (p : Nat) : State :=
  let s := conclude s p
  match (getPress s p).run with
  | none => s
  | some r =>
    match getFlight s r.fid with
    | none => s
    | some f =>
      let y := readAhead s p f r
      putRun y.1 p y.2

/-! ### Stores -/

/-- Whether the unit in load is complete (R186). -/
def unitComplete (s : State) (p : Nat) (r : Run) (c : SCtx) (u : WUnit) (n : Nat) : Bool :=
  match u.kind with
  | 0 => (firstRow (getBoard (getPress s p) (useBack c n u)) u.rows).isNone
  | 1 => (firstRow (getBoard (getPress s p) (useBack c n u)) u.rows).isNone
  | 3 => (getTable s (terraceOf p)).owner == some p && decide (nth c.ext 0 0 ≤ 64 * r.fed)
  | _ => true

/-- The digest pairs of the local blocks that a pass wrote (R378, R381). -/
def passBlocks (z : Stored) : List (Nat × Bool × Word × Word) :=
  let blks := ((z.bytes.map (fun b => blockOf b.1)) ++ z.terms.map (·.1)).eraseDups
  blks.map (fun b =>
    let v := lotPair (lotSum ((z.terms.filter (fun t => t.1 == b)).map (·.2)))
    (b, coversBlock z.bytes b, v.1, v.2))

/-- Two parts of a unit's stores together; the count is the first part's. -/
def Stored.merge (a b : Stored) : Stored :=
  { done := a.done, refused := a.refused || b.refused, unapplied := a.unapplied || b.unapplied,
    terms := a.terms ++ b.terms, bytes := a.bytes ++ b.bytes, touched := a.touched ++ b.touched, keys := a.keys ++ b.keys }

/-- A unit's store as it goes on: the stage, its number, its board's elements on a target, and whether what it sends leaves early. -/
structure UStore where
  c : SCtx
  n : Nat
  early : Bool
  recv : List (Nat × Nat) := []
  failed : List Nat := []

/-- A target whose remote pieces are collected in pool blocks (R342, R345). -/
def Target.pools (t : Target) (c : SCtx) : Bool := !t.hand && t.role != 5 && (c.op == 0x21 || c.op == 0x20)

/-- The pieces of a target that leave this node: of a MULTICAST every one, where a receiver is another node. -/
def awayPieces (s : State) (c : SCtx) (recv : List (Nat × Nat)) (t : Target) (ps : List Piece) : List Piece :=
  let me := nodeId s
  if t.inner then []
  else if c.op = 0x20 ∧ !t.hand then (if recv.any (fun x => x.2 != me) then ps else [])
  else ps.filter (fun q => q.node != me && !q.unm)

/-- The transactions' runs of a target's remote pieces. -/
def awayRuns (s : State) (p : Nat) (f : Flight) (r : Run) (w : UStore) (t : Target) (ps : List Piece) : List BlockRun :=
  let ps := awayPieces s w.c w.recv t ps
  if t.pools w.c then blockRuns s p f r w.c t w.n ps else lineBlocks w.n ps

/-- The write of a MULTICAST on this node, where it is a live receiver (R345, R346), at the addresses that TABLE gives it here. -/
def storeHere (s : State) (r : Run) (w : UStore) (t : Target) (ps : List Piece) : State × Run × Stored :=
  let me := nodeId s
  let tb := t.trec.tensor.table
  let base : Option Nat := if tb = 0 then some 0 else (currentSlot s tb).map (·.base)
  if w.recv.any (fun x => x.2 == me) then
    match base with
    | some b =>
      storeLocal s r w.c false (ps.map (fun q => { q with bytes := q.bytes.map (fun x => ((x.1 + b) % 2 ^ 48, x.2)) })) {}
    | none => (emit s { code := 0x13, kind := 8, unit := tb, args := [me, 0] }, r, {})
  else (s, r, { done := (ps.map (·.els)).sum })

/-- One target's pieces stored: locally, outside the cellar, or by transactions. -/
def storeTarget (s : State) (r : Run) (w : UStore) (t : Target) (ps : List Piece) (runs : List BlockRun)
    (lost : List (Nat × Nat)) : State × Run × Stored :=
  let c := w.c
  let me := nodeId s
  let away := awayPieces s c w.recv t ps
  let tb := t.trec.tensor.table
  if t.inner then
    let y := storeInner r ps {}
    (s, y.1, y.2)
  else if c.op = 0x20 ∧ !t.hand then
    let y := storeHere s r w t ps
    let z := if away.isEmpty then y.2.2 else { y.2.2 with done := 0 }
    let m := storeRuns y.1 c w.n (fun _ => multiTxn c tb w.early) true (w.recv.filter (fun x => x.2 != me)) true w.failed runs
      away z
    (m.1, y.2.1, m.2)
  else
    let y := storeLocal s r c t.hand (ps.filter (fun q => q.node == me || q.unm)) {}
    let z := match ps with
      | p0 :: _ =>
        match p0.bytes with
        | b :: _ => { y.2.2 with terms := y.2.2.terms ++ lost.map (fun t => (blockOf (physOf s b.1), t.1, t.2)) }
        | [] => y.2.2
      | [] => y.2.2
    let m := storeRuns y.1 c w.n (writeTxn c tb w.early) (t.pools c) [] (t.role != 5) w.failed runs away z
    (m.1, y.2.1, m.2)

/-- The contributions of a unit (R244). -/
def contribsOf (s : State) (r : Run) (t : Target) (outs : List SOut) : List Contrib :=
  let g := t.trec.tensor.fmt
  outs.filterMap (fun o =>
    (hallOf s r t.trec o.dst).map (fun h =>
      ({ node := h.node, addr := h.addr, unm := h.unm, code := contribCode g o, idx := o.idx, row := o.row } : Contrib)))

/-- The record of a stored unit and its counts. The blocks of a BOARD handover count as the one region that they are (R287). -/
def recordPass (s : State) (p : Nat) (f : Flight) (c : SCtx) (n : Nat) (blend : Bool) (z : Stored) (board : Bool) : State :=
  let blks := if board then z.touched.filter (·.1 != innerNode) else z.touched
  let w : PassRec :=
    { fid := f.id, stage := c.j, unit := n, elems := z.done, blocks := passBlocks z, refused := z.refused,
      unapplied := z.unapplied,
      table := if c.op = 0x18 ∨ c.op = 0x19 then some (terraceOf p) else none, blend := blend, keys := z.keys,
      nblocks := blks.eraseDups.length + (if board then 1 else 0) }
  let s := addDone s f.id c.j z.done
  let x := getPress s p
  let s := setPress s p { x with waits := x.waits ++ [w] }
  let s := rset s (0x400C + 256 * p) (rget s (0x400C + 256 * p) + 1)
  updRun s p f.id (fun r => { r with stored := r.stored + 1 })

/-- The other board after the turn of a straight region (R210). -/
def turnBoards (s : State) (p : Nat) (c : SCtx) (n : Nat) (u : WUnit) : State :=
  if u.kind = 0 ∧ turnsBoard c then
    let x := getPress s p
    let back := useBack c n u
    setPress s p (setBoard x (!back) (turned (boardMode (boardFmt c).fmt) (getBoard x back)))
  else s

/-- The board that the next stage of a BOARD handover loads takes the region of a stored unit (R285). -/
def handOver (s : State) (p : Nat) (f : Flight) (c : SCtx) (n : Nat) : State :=
  match findRun s p f.id with
  | none => s
  | some r =>
    if linkKind s p f c.j = .board then
      let d := stageCtx s p f (c.j + 1)
      let k := ((allUnits s p f r c).filter (fun m => (unitOf s p f r c m).kind != 1)).idxOf n
      match (allUnits s p f r d)[k]? with
      | none => s
      | some m =>
        let x := setBoard (getPress s p) (d.board.getD false) (handedBoard s p f r d m).1
        setPress s p { x with run := some { r with handed := some (d.j, m) } }
    else s

/-- Units of a stage that failed. -/
def failedUnits (r : Run) (j : Nat) : List Nat := (r.failed.filter (·.1 == j)).map (·.2)

/-- A direct EGRESS block sent as it stands (R342). -/
def sendDirect (s : State) (p : Nat) (f : Flight) (r : Run) (c : SCtx) (n : Nat) : State × Bool :=
  let d := stageCtx s p f (c.j - 1)
  let e := handExt d
  match directMap s r c e n with
  | none => (s, false)
  | some (node, lo, offs) =>
    let a0 := innerBase (c.j - 1) + 2048 * n
    let h := c.srcRec
    let byte := fun (a : Nat) => cellGet r.tileBytes (innerBase (c.j - 1) + a)
    let xs := ((List.range (vol e)).map (ofLogical e)).filter (fun x => handBlockOf d x == n)
    let terms := xs.flatMap (fun x =>
      let sp := handSpot h e x
      let bs := (spotBytes h.fmt { off := sp.addr, pos := sp.pos }).map byte
      lotTerms h.fmt (byte sp.scale).toNat (spotCode h.fmt { off := sp.addr, pos := sp.pos } bs) (logical h.ext x))
    let piece : Piece :=
      { node := node, bytes := offs.map (fun o => (lo + o, cellGet r.tileBytes (a0 + o))), terms := terms, els := xs.length }
    let lines := sortedNat (offs.map (fun o => (lo + o) / 64))
    let runs : List BlockRun := [{ node := node, first := lines.headD 0, lines := lines.getLastD 0 + 1 - lines.headD 0, units := [n] }]
    -- the block stays charged to the stream; it passes from the handover to the transaction
    let y := storeRuns s c n (writeTxn c c.dstRec.table (streamEarly s c.strm)) true [] true [] runs [piece] {}
    let s := updRun y.1 p f.id (fun r => { r with handBlocks := r.handBlocks.filter (· != (c.j - 1) * 2 ^ 40 + n) })
    (advanceUnit (recordPass s p f c n false y.2 false) p f c n, true)

/-- A MAC pass whose rows are all loaded: its step accumulates into the vat (R184, R249, R254). The second pass of a pair needs the
first one's features, which stand in the front board. -/
def macUnit (s : State) (p : Nat) (f : Flight) (r : Run) (c : SCtx) (u : WUnit) (n : Nat) : State × Bool :=
  if secondOfPair c u && r.failed.contains (c.j, n - 1) then
    (abandonUnit s p f c n (if f.cnt.unreachable then 99 else 98), true)
  else (advanceUnit (macStep s p f r c u n) p f c n, true)

/-- The targets of a unit: the handover tensor, the stage's own destination, and KDST where KEN is set (R264, R267, R281). -/
def unitTargets (s : State) (p : Nat) (f : Flight) (c : SCtx) (u : WUnit) : List Target :=
  (handTarget s p f c).toList
    ++ (if ownStore s p f c && !accumulating c.op c.words then [dstTarget s c] else [])
    ++ (if bitAt (dOpa c.words) 17 && u.kind == 3 then [{ dstTarget s c with trec := c.kdst, role := 5 }] else [])

/-- The pieces of a unit on each of its targets, or the reason to wait or to abandon it. -/
def encodeAll (s : State) (r : Run) (c : SCtx) (ts : List Target) (outs keys : List SOut) :
    State × Run × ROut × List (Target × List Piece) :=
  ts.foldl
    (fun (a : State × Run × ROut × List (Target × List Piece)) t =>
      match a.2.2.1 with
      | .ok _ =>
        let y := encodeUnit a.1 a.2.1 c t (if t.role = 5 then keys else outs) (inWindowOf a.2.1 c t)
        (y.1, y.2.1, y.2.2.1, a.2.2.2 ++ [(t, y.2.2.2)])
      | _ => a)
    (s, r, .ok [], [])

/-- The elements of a complete unit stored on its targets (R186). -/
def storeElems (s : State) (p : Nat) (f : Flight) (r : Run) (c : SCtx) (u : WUnit) (n : Nat) : State × Bool :=
  let own := ownStore s p f c
  let acc := accumulating c.op c.words
  let i0 := if dPadWrite c.heri c.words && own then ensureIdx s r c n (padKs c) else (s, r, ROut.ok [])
  let all := unitOuts i0.1 p f i0.2.1 c n
  let lostOuts := if u.kind = 2 then
      (unitDsts s p f r c n).filter (fun d => !all.1.any (fun o => o.dst == d))
    else []
  let sv := survivors (fun o => mayCollide c && i0.2.1.seen.contains (seenKey c o)) i0.1.draw all.1
  let outs := if acc then all.1 else sv.2
  let seen := if mayCollide c then (all.1.map (seenKey c)).filter (fun k => !i0.2.1.seen.contains k) else []
  let s := { i0.1 with draw := sv.1 }
  let r := i0.2.1
  let enc := match i0.2.2 with
    | .ok _ => encodeAll s r c (unitTargets s p f c u) outs all.2
    | o => (s, r, o, [])
  let bt := dstTarget s c
  let adds := acc && own && blendable bt.trec.tensor.fmt
  let cs0 := if adds then ensureShards enc.1 p enc.2.1 bt.trec (outs.map (·.dst)) else (enc.1, enc.2.1)
  let s := putRun cs0.1 p cs0.2
  let r := cs0.2
  match enc.2.2.1 with
  | .wait => (s, false)
  | .fail k => (abandonUnit s p f c n k, true)
  | .dead => (abandonUnit s p f c n 99, true)
  | .ok _ =>
    let me := nodeId s
    if u.kind = 2 ∧ outs.isEmpty then
      -- every output is withheld: nothing is stored
      (advanceUnit (loseOutputs s p f c n lostOuts) p f c n, true)
    else if adds && outs.any (fun o => (hallOf s r bt.trec o.dst).isNone) then (abandonUnit s p f c n 6, true)
    else
      let w : UStore :=
        { c := c, n := n, early := streamEarly s c.strm && !acc, recv := (nth f.stages c.j {}).recv, failed := failedUnits r c.j }
      let parts := enc.2.2.2.map (fun t => (t.1, t.2, awayRuns s p f r w t.1 t.2))
      let contribs := if adds then contribsOf s r bt outs else []
      let farC := contribs.filter (fun k => k.node != me && !k.unm)
      let bytes := 120 * ((parts.filter (fun t => !t.1.pools c)).flatMap (fun t => t.2.2)).length + 112 * farC.length
      let blocks := (((parts.filter (fun t => t.1.pools c)).flatMap (fun t => t.2.2)).filter (·.key.isNone)).length
      let handNew := if linkKind s p f c.j = .pool then
          ((handKeys s p f c (outs.map (·.dst))).map (c.j * 2 ^ 40 + ·)).filter (fun k => !r.handBlocks.contains k)
        else []
      let tk := takeBlocks s c.strm r (blocks + handNew.length - r.got)
      let s := putRun tk.1 p tk.2
      let r := tk.2
      if !outboundRoom s p bytes || decide (r.got < blocks + handNew.length) then (s, false)
      else
        let s := if c.op = 0x28 ∧ !r.jopen then writeJournal s f r 1 else s
        let r := { r with handBlocks := r.handBlocks ++ handNew, jopen := r.jopen || c.op == 0x28,
                          got := r.got - blocks - handNew.length, seen := r.seen ++ seen }
        let s := turnBoards (putRun s p r) p c n u
        let y := parts.foldl
          (fun (a : State × Run × Stored × Bool) t =>
            let l := lostTerms t.1 a.1.draw all.1 outs
            let l := if acc || t.1.role = 5 then (a.1.draw, []) else l
            let z := storeTarget { a.1 with draw := l.1 } a.2.1 w t.1 t.2.1 t.2.2 l.2
            -- the stage's own destination gives the count; a handover's only where nothing else is stored
            let primary := !t.1.hand && t.1.role != 5
            (z.1, z.2.1, if primary || (t.1.hand && !own) then { (a.2.2.1.merge z.2.2) with done := z.2.2.done }
              else a.2.2.1.merge z.2.2, a.2.2.2 || primary))
          (s, r, ({} : Stored), false)
        let dup := all.1.length - outs.length
        let whole := acc || y.2.2.1.refused || y.2.2.1.unapplied
        let z := { y.2.2.1 with done := y.2.2.1.done + (if whole then 0 else dup) }
        let g := bt.trec.tensor.fmt
        let bl := if adds then
            let b := blendLocal y.1 y.2.1 c g (contribs.filter (fun k => k.node == me || k.unm)) { z with done := 0 }
            let m := sendAtomics b.1 c n g bt.trec.tensor.table farC b.2.2
            (m.1, b.2.1, m.2)
          else (y.1, y.2.1, z)
        let s := recordPass (putRun bl.1 p bl.2.1) p f c n adds bl.2.2 (linkKind s p f c.j == .board)
        let s := loseOutputs s p f c n lostOuts
        let s := if u.kind = 3 then releaseTable s p else s
        (handOver (advanceUnit s p f c n) p f c n, true)

/-- The unit in load stored (R186), or its MAC step made (log 88): nothing while it is incomplete or must wait for an operand or for room.
The second part says whether anything was done. -/
def storeUnit (s : State) (p : Nat) : State × Bool :=
  let x := getPress s p
  match x.run with
  | none => (s, false)
  | some r =>
    match getFlight s r.fid with
    | none => (s, false)
    | some f =>
      let c := stageCtx s p f r.stage
      let n := r.unit
      let u := unitOf s p f r c n
      if x.state != .run || !r.loading || r.stagedWait || !unitComplete s p r c u n then (s, false)
      else if u.kind = 1 then macUnit s p f r c u n
      else if u.kind = 5 then sendDirect s p f r c n
      else storeElems s p f r c u n

/-! ### Loads -/

/-- The sorting table needed and not fenced: requested, and whether it is held (R260, R269, R273). -/
def holdTable (s : State) (p : Nat) : State × Bool :=
  if (getTable s (terraceOf p)).owner = some p then (s, true) else (requestTable s p, false)

/-- The bags of every group of a POOL's window read (R248); the answer of the first group that is not there yet, or fails. -/
def ensureAllBags (s : State) (r : Run) (c : SCtx) : State × Run × ROut :=
  (List.range (if c.op = 0x0B then poolGroups c else 0)).foldl
    (fun (acc : State × Run × ROut) g => match acc.2.2 with
      | .ok _ => ensureBags acc.1 acc.2.1 c g
      | o => (acc.1, acc.2.1, o))
    (s, r, ROut.ok [])

/-- Index position `k` is an entry of the descriptor: it lies in a bag of the window, for POOL (R248). -/
def namesEntry (c : SCtx) (bag : Nat → Nat × Nat) (k : Nat) : Bool :=
  c.op != 0x0B || (List.range (crd c.ext 1)).any (fun i =>
    let b := bag (crd (dStart c.words) 1 + i)
    decide (b.1 ≤ k) && decide (k < b.1 + b.2))

/-- The rows that the units of an index run fetch, by index position: (position, stage, unit, row), each row of the table once for a unit
(R238). -/
def runRows (s : State) (p : Nat) (f : Flight) (r : Run) (c : SCtx) (run : Nat) : List (Nat × Nat × Nat × Nat) :=
  (allUnits s p f r c).flatMap (fun n =>
    let u := unitOf s p f r c n
    if 1 < u.kind ∨ coalRun c r u ≠ run then []
    else
      let ks := unitKs c (runBag c r) u
      (List.range ks.length).filterMap (fun i =>
        if rowName c r u i = i then some (nth ks i 0, c.j, n, i) else none))

/-- The sort of an index run for COALESCE (R269): the pairs of the descriptor's entries stand in the table, the fabric reads of the run
take their order, and the press releases the table. -/
def coalSort (s : State) (p : Nat) (f : Flight) (r : Run) (c : SCtx) (run : Nat) : State × Bool :=
  let x1 := if c.op = 0x0B then c.idx.tensor.count else crd c.ext 1
  let first := if c.op = 0x0B then 0 else crd (dStart c.words) 1
  let z := ensureAllBags s r c
  let ks := ((List.range (min 4096 (x1 - 4096 * run))).map (fun i => first + 4096 * run + i)).filter
    (namesEntry c (runBag c z.2.1))
  let y := match z.2.2 with
    | .ok _ => ensureIdx z.1 z.2.1 c r.unit ks
    | _ => z
  match y.2.2 with
  | .ok _ =>
    let pairs := ks.foldl
      (fun acc k => let z := sortInsert false acc.1 acc.2 (coalKey c (runIdx y.2.1 c.j k), BitVec.ofNat 32 k); (z.1, z.2))
      (y.1.draw, ([] : List (Word × Word)))
    let rows := runRows y.1 p f y.2.1 c run
    let order := pairs.2.flatMap (fun e => (rows.filter (fun x => x.1 == e.2.toNat)).map (·.2))
    let s := putRun { y.1 with draw := pairs.1 } p { y.2.1 with coal := y.2.1.coal ++ [(c.j, run)], order := y.2.1.order ++ order }
    (releaseTable s p, true)
  | .wait => (putRun y.1 p y.2.1, false)
  | .fail k => (abandonUnit (putRun y.1 p y.2.1) p f c r.unit k, true)
  | .dead => (abandonUnit (putRun y.1 p y.2.1) p f c r.unit 99, true)

/-- A row of the unit in load whose data are at hand, while a preempted press winds down (R192): rows that become complete are still
written, and nothing else is begun. -/
def loadAtHand (s : State) (p : Nat) (r : Run) (f : Flight) : State × Bool :=
  let c := stageCtx s p f r.stage
  let u := unitOf s p f r c r.unit
  let known := (bagNeed r c (r.unit / poolSpan / max 1 (poolRuns c))).isEmpty
    && (!usesIdx c.op || (unitKs c (runBag c r) u).all (fun k => smHas r.idx (idxKey c.j k)))
  if r.loading && !r.stagedWait && decide (u.kind ≤ 1) && known then
    let y := loadRow s p r c u r.unit
    if y.2.2.isSome || !y.2.1 then (s, false) else (y.1, true)
  else (s, false)

/-- One load of the unit in load: a board row, a block of pairs, or the index run that COALESCE sorts first. The second
part says whether anything was done. -/
def loadUnit (s : State) (p : Nat) : State × Bool :=
  let x := getPress s p
  match x.run with
  | none => (s, false)
  | some r =>
    match getFlight s r.fid with
    | none => (s, false)
    | some f =>
      let c := stageCtx s p f r.stage
      let n := r.unit
      let bg := if x.state != .run || !r.loading || r.stagedWait then (s, r, ROut.ok [])
        else ensureBags s r c (n / poolSpan / max 1 (poolRuns c))
      let s := putRun bg.1 p bg.2.1
      let r := bg.2.1
      let u := unitOf s p f r c n
      if x.state = .save then loadAtHand s p r f
      else if x.state != .run || !r.loading || r.stagedWait || bg.2.2 == .wait then (s, false)
      else if bg.2.2 == .dead then (abandonUnit s p f c n 99, true)
      else if bg.2.2 == .fail 6 then (abandonUnit s p f c n 6, true)
      else if bg.2.2 == .fail 7 then (abandonUnit s p f c n 7, true)
      else if u.kind = 3 then
        if nth c.ext 0 0 ≤ 64 * r.fed then (s, false)
        else
          let t := holdTable s p
          if !t.2 then (t.1, false)
          else
            let y := feedBlock t.1 p r c u
            let s := putRun y.1 p y.2.1
            match y.2.2 with
            | .ok _ => (s, true)
            | .wait => (s, false)
            | .fail k => (abandonUnit s p f c n k, true)
            | .dead => (abandonUnit s p f c n 99, true)
      else if 1 < u.kind then (s, false)
      else
        let run := coalRun c r u
        if coalesce c && !(getTable s (terraceOf p)).fenced && !r.coal.contains (c.j, run) then
          let t := holdTable s p
          if !t.2 then (t.1, false) else coalSort t.1 p f r c run
        else
          let y := loadRow s p r c u n
          match y.2.2 with
          | some k => (abandonUnit y.1 p f c n k, true)
          | none => (y.1, y.2.1)

/-- The shard entries of the destinations of a FILL and of an EGRESS are read first: they decide which blocks a FILL writes (R224), and
which runs and which direct blocks an EGRESS has (R342). The elements of a FILL whose entry is unreadable have no address, and the
descriptor reports a failed check (R70, R375). -/
def ensureDirect (s : State) (p : Nat) (f : Flight) : Nat → State
  | 0 => s
  | j + 1 =>
    let s := ensureDirect s p f j
    match (getPress s p).run with
    | none => s
    | some r =>
      let d := stageCtx s p f j
      if d.op = 0x21 ∨ d.op = 0x04 then
        let cs := ((List.range (vol d.ext)).map (ofLogical d.ext)).map (crdAdd (dDstart d.op d.words))
        let y := ensureShards s p r d.dst cs
        let s := putRun y.1 p y.2
        if d.op = 0x04 ∧ cs.any (fun x => (hallBase y.2 d.dst x).isNone) then lotFailed s p f.id 6 else s
      else s

/-- A press begins to work on its descriptor: the setup is over (R176). -/
def startRun (s : State) (p : Nat) : State :=
  let x := getPress s p
  if x.state = .setup then
    let s := setPress s p { x with state := .run }
    let s := match runFlight s x.run with
      | some f => ensureDirect s p f f.stages.length
      | none => s
    settle s p
  else s

/-! ### Verdicts (R383, R384) -/

/-- A RECALL for one node (R352). -/
def sendRecall (s : State) (o : OutTxn) (node : Nat) : State :=
  let t : Txn := { typ := 4, dnode := BitVec.ofNat 16 node, addr := o.txn.addr, lenM1 := o.txn.lenM1, ident := o.ident }
  bump (sendTxn s t none none).1 0x8058 1

/-- A transaction of a unit whose check has failed: discarded while held, recalled once it is on its way (R384, R352). For a MULTICAST
every live receiver gets the RECALL. -/
def failTxn (s : State) (unit key : Nat) : State :=
  match getOut s key with
  | none => s
  | some o =>
    let o := { o with toPass := o.toPass.filter (· != unit) }
    if o.held then
      let s := if o.poolBlock then dischargeStream s o.stream else s
      tryLetGo (setOut s { o with dead := true, poolBlock := false }) key
    else if o.dead then retireOut (setOut s o) key
    else
      let nodes := if o.multicast then o.receivers.map (·.2) else [o.txn.dnode.toNat]
      let s := nodes.foldl (fun s n => sendRecall s o n) (setOut s { o with dead := true })
      updCnt (retireOut s key) o.fid (fun k => { k with recalled := true })

/-- A transaction of a unit that has passed its check: sent, where it was held for it (R340, R246). -/
def passTxn (s : State) (unit key : Nat) : State :=
  match getOut s key with
  | none => s
  | some o =>
    let o := { o with toPass := o.toPass.filter (· != unit) }
    let s := setOut s o
    if o.held then tryLetGo s key else retireOut s key

/-- The cause of a pass's failure, or none (R385): the first that applies in the order of the table. -/
def verdictCause (w : PassRec) (fault : Option LotFault) : Option Nat :=
  match fault with
  | some .boardLeg => some 0
  | some .storeLeg => some 1
  | some .vatParity => if w.vat then some 2 else none
  | some .listLeg => if w.table.isSome then some 4 else some 1
  | some .order => if w.table.isSome then some 5 else some 1
  | _ => if w.refused then some 8 else if w.unapplied then some 9 else none

/-- The verdict on one pass. -/
def judge (s : State) (p : Nat) (w : PassRec) (fault : Option LotFault) : State :=
  let s := updCnt s w.fid (fun k => { k with lotBlocks := k.lotBlocks + w.nblocks, lotChecked := k.lotChecked || 0 < w.nblocks })
  match verdictCause w fault with
  | none =>
    let m := if w.blend then s.mem else w.blocks.foldl (fun m b => sbWrite m b.1 b.2.1 b.2.2) s.mem
    let s := w.keys.foldl (fun s k => passTxn s w.unit k) (setMem s m)
    updRun s p w.fid (fun r => { r with passed := r.passed ++ [(w.stage, w.unit)] })
  | some k =>
    let s := setMem s (w.blocks.foldl (fun m b => sbPut m b.1 sbFail) s.mem)
    let s := w.keys.foldl (fun s k => failTxn s w.unit k) s
    let s : State := match getFlight s w.fid, findRun s p w.fid with
      | some f, some r =>
        let c := stageCtx s p f w.stage
        stopDecant (loseUnit s p f r c w.unit) p f c w.unit
      | _, _ => s
    lotFailed s p w.fid k

/-- The oldest stored pass of press `p` judged. -/
def judgeOldest (s : State) (p : Nat) (fault : Option LotFault) : State :=
  let x := getPress s p
  match x.waits with
  | [] => s
  | w :: rest =>
    let s := commitFor (judge (setPress s p { x with waits := rest }) p w fault) p w.fid
    completeFlight (settle s p) p w.fid

/-! ### A whole op -/

/-- Loads and stores as long as either makes progress. -/
def advance (s : State) (p : Nat) : Nat → State
  | 0 => s
  | k + 1 =>
    let a := loadUnit s p
    if a.2 then advance (settle a.1 p) p k
    else
      let b := storeUnit a.1 p
      if b.2 then advance (settle b.1 p) p k else b.1

/-- The number of loads and stores that a run may take: a bound on its work. -/
def workBound (s : State) (p : Nat) : Nat :=
  match (getPress s p).run with
  | none => 0
  | some r =>
    match getFlight s r.fid with
    | none => 0
    | some f => 64 + 128 * ((List.range f.stages.length).map (fun j => unitsEnd s p f r (stageCtx s p f j) + 1)).sum

/-- The whole op of a press, where the press runs that op (R218 to R290): its passes are loaded and stored, and its
verdicts are left to the check unit. -/
def runOp (s : State) (p op : Nat) : State :=
  match runFlight s (getPress s p).run with
  | none => s
  | some f =>
    if opOf f.words = op then
      let s := startRun s p
      advance s p (workBound s p)
    else s

end Sys2Proof.Machine
end

