-- ==== Sys2Proof/Machine/Overlap.lean ====
section
/-!
DEFINITION. Machine/Overlap.lean: footprints and their overlap (R213 to R215), and a descriptor's acceptance by a press
(R176, R214, R245).
-/
namespace Sys2Proof.Machine

/-- A footprint: the node and the lines from first to last of a range of hall addresses (R213). -/
structure Foot where
  node : Nat
  lo : Nat
  hi : Nat
  deriving DecidableEq

/-- The first and last byte of the crate that holds an element (R76, R78, R79). -/
def crateSpan (t : Rec) (l c : Crd) : Nat × Nat :=
  let s := t.spot l c
  let f := t.fmt
  if t.layout = 0 then
    let i := crd c 0
    let start := s.off - 16 - i % 512 / 32 * fmtBlock f
    let size := if crd l 0 / 512 * 512 ≤ i then rowBytes f (crd l 0 % 512) else crateBytes f
    (start, start + size - 1)
  else
    let start := s.off - 16 - crd c 1 % 16 * fmtBlock f
    (start, start + crateBytes f - 1)

/-- The footprint of a window with corners `a` and `b` in a record without shards (R213). -/
def footprint (s : State) (l : LRec) (a b : Crd) : Foot :=
  let t := l.tensor
  let base := t.base / 16 * 16
  let x := hallAt s l base t.ext a
  let off := fun (o : Nat) => (x.addr + o + 2 ^ 48 - (t.spot t.ext a).off) % 2 ^ 48
  let lo := if fmtCrated t.fmt then (crateSpan t t.ext a).1 else (t.spot t.ext a).off
  let hi := if fmtCrated t.fmt then (crateSpan t t.ext b).2 else (t.spot t.ext b).off + fmtBytes t.fmt - 1
  { node := x.node, lo := off lo / 64, hi := off hi / 64 }

/-- Corners of a window. -/
def corner (st x : Crd) : Crd := (List.range 4).map (fun d => crd st d + crd x d - 1)

/-- The highest corner of the first `n` elements of a tensor in logical order: that of the box which bounds them. R213 gives a window's
corners only, and the index elements of a PERMUTE are no window (DESIGN CHOICE, log 96). -/
def logicalCorner (e : Crd) (n : Nat) : Crd :=
  (List.range 4).map (fun d =>
    let below := ((List.range d).map (crd e)).foldl (· * ·) 1
    let i := (n - 1) / below
    if i / crd e d = 0 then i else crd e d - 1)

/-- The footprints of source, destination and, for PERMUTE, index (R213, R214). -/
def footprints (s : State) (st : Stage) : Foot × Foot × Option Foot :=
  let op := st.op
  let ws := st.words
  let pm := opPerm op ws
  let x := st.ext
  let ss := if op = 0x28 then [0, 0, 0, 0] else dStart ws
  let ds := dDstart op ws
  let dx := (List.range 4).map (fun d => crd x (nth pm d d))
  let p := fld (dOpa ws) 0 2
  let push := bitAt (dOpa ws) 2
  let wide := fun (c : Crd) (v : Nat) => if op = 0x03 then c.set p v else c
  let se := crd st.src.tensor.ext p - 1
  let de := crd st.dst.tensor.ext p - 1
  let sa := if push then ss else wide ss 0
  let sb := if push then corner ss x else wide (corner ss x) se
  let da := if push then wide ds 0 else ds
  let db := if push then wide (corner ds dx) de else corner ds dx
  (footprint s st.src sa sb, footprint s st.dst da db,
   if op = 0x03 then some (footprint s st.idx [0, 0, 0, 0] (logicalCorner st.idx.tensor.ext (crd x p))) else none)

/-- Two footprints share a line of one node. -/
def Foot.meets (a b : Foot) : Bool := a.node == b.node && a.lo ≤ b.hi && b.lo ≤ a.hi

/-- Lines of a footprint. -/
def Foot.lines (a : Foot) : Nat := a.hi + 1 - a.lo

/-- The footprints that overlap the destination: none where no check is made (R214, R215). -/
def overlaps (s : State) (st : Stage) : List Foot :=
  if (st.op = 0x01 ∨ st.op = 0x02 ∨ st.op = 0x03 ∨ st.op = 0x28)
      ∧ !(st.src.tensor.sharded || st.dst.tensor.sharded || (st.op == 0x03 && st.idx.tensor.sharded)) then
    let f := footprints s st
    ([f.1] ++ f.2.2.toList).filter (fun x => x.meets f.2.1)
  else []

/-- The staging limit L of R214 for a press of terrace `k`. -/
def stagingLimit (s : State) (st : Stage) (k dom : Nat) : Nat :=
  let w := rget s (0x0100 + 8 * dom + (if k < 4 then 0 else 4))
  let f := footprints s st
  let others := ([f.1] ++ f.2.2.toList).filter (fun x => !x.meets f.2.1)
  if !bitAt w (8 * (k % 4) + 7) then 0
  else if others.any (fun x => x.node != nodeId s) then 8126464
  else 8388608

/-- An overlap that cannot be staged (R214); in heritage mode every overlap is one. -/
def overlapTooLarge (s : State) (st : Stage) (k dom : Nat) : Bool :=
  let o := overlaps s st
  !o.isEmpty && (heritage s || stagingLimit s st k dom < 64 * (o.map Foot.lines).sum)

/-! ### Acceptance by a press (R176) -/

/-- The lines of a footprint on another node as fabric reads of at most 2 KiB. -/
def footRuns (x : Foot) : List (Nat × Nat × Nat) :=
  lineRuns ((List.range x.lines).map (fun i => (⟨x.node, x.lo + i, false⟩ : LineKey)))

/-- The staging of overlapping footprints from offset 0 on: local ones await the copy, remote ones are read into the area (R214). Each
footprint comes with the TABLE of its record (R308). -/
def stageFoots (s : State) (p : Nat) (r : Run) : List (Foot × Nat) → State × Run
  | [] => (s, r)
  | x :: rest =>
    let r := { r with stagedWait := true }
    let y :=
      if x.1.node = nodeId s then
        let o := (freeSpot (stageUsed r) 0x800000 (64 * x.1.lines)).getD 0
        (s, { r with staged := r.staged ++ [(64 * x.1.lo, 64 * x.1.lines, o)] })
      else
        (footRuns x.1).foldl
          (fun acc t =>
            let z := issueRead acc.1 p acc.2 0x800000 true
              { tag := 0, node := t.1, addr := 64 * t.2.1, lines := t.2.2, stageOff := 0, table := x.2, copy := true }
            (z.1, z.2.1)) (s, r)
    stageFoots y.1 p y.2 rest

/-- The overlapping footprints of a descriptor with the TABLE of their records. -/
def stagedFoots (s : State) (st : Stage) : List (Foot × Nat) :=
  let f := footprints s st
  (overlaps s st).map (fun x =>
    (x, if x == f.1 then st.src.tensor.table else st.idx.tensor.table))

/-- Stages whose blend operations R114 does not list send nothing (R245). -/
def blendRefused (s : State) (p : Nat) (f : Flight) (j : Nat) : Bool :=
  let c := stageCtx s p f j
  accumulating c.op c.words && ownStore s p f c && !blendable c.dstRec.fmt

/-- An overlap that press `p` cannot stage, as it has no staging area for the domain (R179, R214). -/
def noCopyHere (s : State) (p : Nat) (f : Flight) : Bool :=
  let st := nth f.stages 0 {}
  opOf f.words != 0x30 && !stageEmpty st.op st.words st.ext
    && overlapTooLarge s st (terraceOf p) (streamDomain s f.stream)

/-- Press `p` turns a descriptor away whose copy it cannot stage: it completes with OVERLAP_TOO_LARGE, and the press stays free, or
restores its saved frame. -/
def turnAway (s : State) (p : Nat) (f : Flight) : State :=
  let s := setFlight s (finished s { f with early := some 0x08, press := p, pins := [], stages := [] })
  let x := getPress s p
  setPress s p { x with waiting := none, state := if x.saved.isSome then .restore else x.state }

/-- The run of a descriptor on press `p` as it begins. A stage without a handover whose blend operations are refused has no unit, and
closes the gate behind it (R245, R283). -/
def newRun (s : State) (p : Nat) (f : Flight) : Run :=
  let n := f.stages.length
  let from' := f.resume.getD 0
  let r0 : Run := { fid := f.id, startEdge := s.time.edges, tileFrom := from', tile := from', jstart := from', tcommit := f.tcommit }
  let skip := (List.range n).filter (fun j => blendRefused s p f j && (handTarget s p f (stageCtx s p f j)).isNone)
  let endOf := fun (j : Nat) => unitsEnd s p f r0 (stageCtx s p f j)
  { r0 with next := (List.range n).map (fun j => if skip.contains j then endOf j else firstUnit s p f r0 (stageCtx s p f j)),
            ahead := List.replicate n (0, 0), failed := skip.map (fun j => (j, endOf j)) }

/-- Press `p` accepts a descriptor. -/
def accept (s : State) (p : Nat) (f : Flight) : State :=
  if noCopyHere s p f then turnAway s p f
  else
    let f := { f with phase := .running p, press := p }
    let s := setFlight s f
    let n := f.stages.length
    let r := newRun s p f
    let y := stageFoots s p r (if opOf f.words = 0x30 then [] else stagedFoots s (nth f.stages 0 {}))
    let x := getPress y.1 p
    let s := setPress y.1 p { x with run := some y.2, state := .setup, waiting := none, vat := [] }
    let bad := (List.range n).filter (blendRefused s p f)
    let gates := (r.failed.filter (fun e => decide (e.1 + 1 < n))).map (·.1)
    let s := gates.foldl (fun s j => markFallen s p f.id j [2 ^ 59]) s
    let s := if bad.isEmpty then s
      else updCnt (bump s 0xD044 bad.length) f.id (fun k => { k with lotFail := true })
    if n ≤ 1 then s
    else bumpFld s 0x01C0 16 16 (fallbacks (heritage s) (streamDomain s f.stream) p f)

/-! ### The staging copy (R214, R378) -/

/-- What a line of a staging copy brings: its bytes, its check state and its block's mark. -/
structure CopyLine where
  bytes : List Byte
  ue : List Nat
  ce : List Nat
  mark : Nat

/-- One line read for a staging copy. -/
def copyLine (s : State) (dom a : Nat) : CopyLine :=
  match reach s dom false a with
  | .ok =>
    let k := physOf s a
    let sb := sbGet s.mem (blockOf k)
    { bytes := memBytes s.mem k 64,
      ue := (List.range 16).filter (fun i => s.mem.ueWords.contains (k / 4 + i)),
      ce := (List.range 16).filter (fun i => s.mem.ceWords.contains (k / 4 + i)),
      mark := if a < 0x100000000 then (if sb = sbFail then 2 else if sb = sbRecall then 1 else 0) else 0 }
  | _ => { bytes := List.replicate 64 0, ue := [], ce := [], mark := 0 }

/-- The copy of the local footprints, each from an address, of so many bytes, to an address of the staging area: a block that several of
them reach takes the mark of all of their lines (R378). -/
def copyLines (s : State) (c : SCtx) (base : Nat) (foots : List (Nat × Nat × Nat)) : State :=
  let lines := foots.flatMap (fun e => (List.range (e.2.1 / 64)).map (fun i => (e.1 + 64 * i, base + e.2.2 + 64 * i)))
  let s := noteStops s c (lines.map (fun l => (l.1, false)))
  let got := lines.map (fun l => (l.2, copyLine s c.dom l.1))
  let s := got.foldl
    (fun s g =>
      match reach s c.dom false g.1 with
      | .ok =>
        let k := physOf s g.1
        let m := memPutAll s.mem (byteRun k g.2.bytes)
        setMem s { m with ueWords := g.2.ue.map (k / 4 + ·) ++ m.ueWords.filter (fun w => w < k / 4 || k / 4 + 16 ≤ w),
                          ceWords := g.2.ce.map (k / 4 + ·) ++ m.ceWords.filter (fun w => w < k / 4 || k / 4 + 16 ≤ w) }
      | _ => noteRefused s c.fid g.1)
    s
  let blks := (got.map (fun g => blockOf (physOf s g.1))).eraseDups
  setMem s (blks.foldl
    (fun m blk =>
      let mk : Nat := ((got.filter (fun g => blockOf (physOf s g.1) == blk)).map (fun g => g.2.mark)).foldl max 0
      sbPut m blk (if mk = 2 then sbFail else if mk = 1 then sbRecall else sbUnchecked))
    s.mem)

end Sys2Proof.Machine
end

