-- ==== Sys2Proof/Machine/Presses.lean ====
section
/-!
DEFINITION. Machine/Presses.lean: the commands of a press: ops, loads, stores, verdicts, fabric reads, the staging copy, the
sorting table's grant, and the save frame (R192 to R197).
-/
namespace Sys2Proof.Machine


/-! ### Ops run to FINISH (R218 to R290) -/

/-- RACK (R218). -/
def execRack (p : Fin 64) (s : State) : Res := .next (runOp s p.val 0x01)
/-- RIDDLE (R219). -/
def execRiddle (p : Fin 64) (s : State) : Res := .next (runOp s p.val 0x02)
/-- PERMUTE (R221). -/
def execPermute (p : Fin 64) (s : State) : Res := .next (runOp s p.val 0x03)
/-- FILL (R224). -/
def execFill (p : Fin 64) (s : State) : Res := .next (runOp s p.val 0x04)
/-- DECANT (R226). -/
def execDecant (p : Fin 64) (s : State) : Res := .next (runOp s p.val 0x28)
/-- GATHER (R242). -/
def execGather (p : Fin 64) (s : State) : Res := .next (runOp s p.val 0x08)
/-- SCATTER (R243). -/
def execScatter (p : Fin 64) (s : State) : Res := .next (runOp s p.val 0x09)
/-- SCATTER_ADD (R244). -/
def execScatterAdd (p : Fin 64) (s : State) : Res := .next (runOp s p.val 0x0A)
/-- POOL (R249). -/
def execPool (p : Fin 64) (s : State) : Res := .next (runOp s p.val 0x0B)
/-- INTERACT (R252). -/
def execInteract (p : Fin 64) (s : State) : Res := .next (runOp s p.val 0x10)
/-- SORT (R268). -/
def execSort (p : Fin 64) (s : State) : Res := .next (runOp s p.val 0x18)
/-- TOPK (R268). -/
def execTopk (p : Fin 64) (s : State) : Res := .next (runOp s p.val 0x19)
/-- EGRESS (R342). -/
def execEgress (p : Fin 64) (s : State) : Res := .next (runOp s p.val 0x21)
/-- MULTICAST (R345). -/
def execMulticast (p : Fin 64) (s : State) : Res := .next (runOp s p.val 0x20)
/-- BLEND (R290). -/
def execBlend (p : Fin 64) (s : State) : Res := .next (runOp s p.val 0x30)

/-! ### One step of a pass -/

/-- The load unit's next row (R177), or the next block of a segment (R259). -/
def loadOnce (s : State) (p : Nat) : State :=
  let s := startRun s p
  settle (loadUnit s p).1 p

/-- LOAD_LINE_RETURN (R177). -/
def execLoadLineReturn (p : Fin 64) (s : State) : Res := .next (loadOnce s p.val)

/-- An uncorrectable error met as a complete unit leaves its board or the list buffer (R183, R272): the pass is loaded once
more; a second one abandons it. -/
def boardError (s : State) (p : Nat) : State :=
  let x := getPress s p
  match x.run with
  | none => s
  | some r =>
    match getFlight s r.fid with
    | none => s
    | some f =>
      let c := stageCtx s p f r.stage
      let u := unitOf s p f r c r.unit
      if x.state != .run || !r.loading || !unitComplete s p r c u r.unit then s
      else if u.kind = 3 then
        if r.boardUeOnce then abandonUnit s p f c r.unit 4
        else
          let t := getTable s (terraceOf p)
          putRun (setTable s (terraceOf p) { t with pairs := [] }) p { r with boardUeOnce := true, fed := 0, vtags := [] }
      else if u.kind ≤ 2 then
        if r.boardUeOnce then abandonUnit (bump s (0x4024 + 256 * p) 1) p f c r.unit 3
        else
          let back := useBack c r.unit u
          let b := if u.kind = 2 then drainBoard c r u x.vat else { getBoard x back with valid := 0 }
          setPress s p { (setBoard x back b) with
            run := some { r with boardUeOnce := true, accM := 0, accP := 0, vtags := [] } }
      else (storeUnit s p).1

/-- Single-bit errors of a unit that leaves its board or the list buffer, corrected and counted (R183, R272). -/
def boardCorrected (s : State) (p n : Nat) : State :=
  match (getPress s p).run with
  | none => s
  | some r =>
    match getFlight s r.fid with
    | none => s
    | some f =>
      let kind := (unitOf s p f r (stageCtx s p f r.stage) r.unit).kind
      let y := storeUnit s p
      if !y.2 || 3 < kind then y.1
      else if kind = 3 then bumpFld y.1 (0x0180 + 4 * terraceOf p) 0 16 n
      else bump y.1 (0x4020 + 256 * p) n

/-- PASS_STORE (R186). -/
def execPassStore (p : Fin 64) (read : BoardRead) (s : State) : Res :=
  let s := startRun s p.val
  .next (settle (match read with
    | .clean => (storeUnit s p.val).1
    | .corrected n => boardCorrected s p.val n.toNat
    | .uncorrectable => boardError s p.val) p.val)

/-- A failure met before the unit in load is stored: a parity error at its drain, or a second board error (R385). -/
def failInLoad (s : State) (p cause : Nat) : State :=
  let x := getPress s p
  match x.run with
  | none => s
  | some r =>
    match getFlight s r.fid with
    | none => s
    | some f =>
      let c := stageCtx s p f r.stage
      let u := unitOf s p f r c r.unit
      let fits := if cause = 2 then u.kind == 2 else decide (u.kind ≤ 2)
      if x.state == .run && r.loading && fits && unitComplete s p r c u r.unit then
        let s := if cause = 3 then bump s (0x4024 + 256 * p) 1 else s
        settle (abandonUnit s p f c r.unit cause) p
      else s

/-- The oldest stored pass of a press is a bag group that a VAT handover passes on (R287). -/
def oldestVat (s : State) (p : Nat) : Bool := ((getPress s p).waits.head?.map (·.vat)).getD false

/-- LOT_VERDICT (R384): of the oldest stored pass, or of the unit that a vat parity or board error stops. -/
def execLotVerdict (p : Fin 64) (fault : Option LotFault) (s : State) : Res :=
  .next
    (match fault with
     | some .vatParity => if oldestVat s p.val then judgeOldest s p.val fault else failInLoad s p.val 2
     | some .boardUe => failInLoad s p.val 3
     | _ => judgeOldest s p.val fault)

/-! ### Fabric reads (R178, R199, R200) -/

/-- The read of press `p` with a tag that is still outstanding. -/
def outstanding (s : State) (p tag : Nat) : Option FRead :=
  (getPress s p).run.bind (fun r => r.reads.find? (fun e => e.tag == tag && e.flying))

/-- A fabric read of press `p` that is under way replaced. -/
def putRead (s : State) (p : Nat) (e : FRead) : State :=
  let x := getPress s p
  setPress s p { x with run := x.run.map (fun r => { r with reads := r.reads.map (fun y => if y.tag = e.tag ∧ y.flying then e else y) }) }

/-- A read has failed: reissued while attempts are left (R199), otherwise dead (R200). -/
def failRead (s : State) (p : Nat) (e : FRead) (again : Bool) : State :=
  let e := { e with fails := e.fails + 1 }
  if again && e.fails ≤ fabRetry s then
    let y := trySend (bump s (0x4018 + 256 * p) 1) p e (fabRetry s + 1 - e.fails)
    putRead y.1 p y.2
  else putRead s p { e with dead := true }

/-- FABRIC_READ_TIMEOUT (R199). -/
def execFabricReadTimeout (p : Fin 64) (tag : BitVec 18) (s : State) : Res :=
  .next
    (match outstanding s p.val tag.toNat with
     | some e => settle (failRead s p.val e true) p.val
     | none => s)

/-- Refused lines from an address on, each noted (R37, log 86). -/
def noteLines (s : State) (fid a n : Nat) : State := (List.range n).foldl (fun s i => noteRefused s fid (a + 64 * i)) s

/-- The response of a read lands in the staging area (R178): its lines with the mark that it carries (R378). -/
def landRead (s : State) (p : Nat) (e : FRead) (data : List Byte) (vtag : Word) (lot : Word × Word) : State :=
  let dom := match runFlight s (getPress s p).run with
    | some f => streamDomain s f.stream
    | none => 0
  match stageBase s p dom with
  | none => putRead s p { e with landed := true, vtag := vtag }
  | some base =>
    let a := base + e.stageOff
    let s :=
      if reach s dom false a == .ok then
        let ps := physWrites s (byteRun a (data.take (64 * e.lines)))
        let s := correctMerges s ps
        let st := storeBytes s.mem ps
        let blks := (ps.map (fun b => blockOf b.1)).eraseDups
        let mark := if lot.1 = 0xFFFFFFFF#32 then lot else sbUnchecked
        setMem s (blks.foldl (fun m b => sbWrite m b (coversBlock ps b || mark != sbUnchecked) mark) st.1)
      else
        match (getPress s p).run with
        | some r => noteLines s r.fid a e.lines
        | none => s
    putRead s p { e with landed := true, vtag := vtag }

/-! ### The staging copy (R214) -/

/-- STAGING_COPY_DONE (R214): once every remote line of the footprints has landed, the local ones stand copied. -/
def execStagingCopyDone (p : Fin 64) (s : State) : Res :=
  let x := getPress s p.val
  .next
    (match x.run with
     | none => s
     | some r =>
       match getFlight s r.fid with
       | none => s
       | some f =>
         if r.stagedWait && r.reads.all (fun e => !e.copy || e.landed || e.dead) then
           let c := stageCtx s p.val f 0
           match stageBase s p.val c.dom with
           | none => s
           | some base =>
             settle (putRun (copyLines s c base r.staged) p.val { r with stagedWait := false }) p.val
         else s)

/-! ### The sorting table's grant (R260) -/

/-- The press granted next: round-robin in press number after the one last granted. -/
def nextGrant (t : SortTable) : Option Nat :=
  ([1, 2, 3, 4, 5, 6, 7, 8].map (fun k => (t.last + k) % 8)).findSome? (fun i => t.waiting.find? (fun p => p % 8 == i))

/-- SORT_TABLE_GRANT (R260). -/
def execSortTableGrant (terrace : Fin 8) (s : State) : Res :=
  let t := getTable s terrace.val
  .next
    (match t.owner, nextGrant t with
     | none, some p =>
       setTable s terrace.val { t with owner := some p, waiting := t.waiting.filter (· != p), last := p % 8, pairs := [] }
     | _, _ => s)

/-! ### The save frame (R192 to R197) -/

/-- The bytes of a board or of the vat: entry (r, c) at 128 r + 4 c. -/
def gridBytes (m : SMap Word) : List Byte := (List.range 1024).flatMap (fun k => leBytes 4 (smGet m k 0#32).toNat)

/-- The entries of 4,096 bytes. -/
def gridOf (bs : List Byte) : SMap Word :=
  (List.range 1024).filterMap (fun k =>
    let w := wordAt bs (4 * k)
    if w = 0 then none else some (k, w))

/-- The cursor of the unit in load: its coordinates along dimensions 0 to 3 (R196). R196 does not say what they are for the passes of
POOL, INTERACT, FILL and EGRESS: here they tell every unit of a stage from the others (DESIGN CHOICE, log 32). -/
def cursor (c : SCtx) (u : WUnit) (n : Nat) : List Nat :=
  let st := dStart c.words
  let drain := if u.kind = 2 then 1 else 0
  if u.kind = 0 then (List.range 4).map (fun d => (if c.op = 0x28 then 0 else crd st d) + crd u.off d)
  else if 2 < u.kind then [n % 2 ^ 32, n / 2 ^ 32, 0, 0]
  else if c.op = 0x0B then
    [crd st 0 + nth u.off 1 0 * regionW (boardFmt c).fmt, crd st 1 + nth u.off 0 0 * poolG c, 32 * nth u.off 2 0, drain]
  else
    [crd st 0 + nth u.off 3 0 * interChunk c, crd st 1 + 32 * nth u.off 1 0, crd st 2 + nth u.off 0 0,
     4 * nth u.off 2 0 + 2 * drain + nth u.off 4 0]

/-- The words of the save frame from 0x3000 to 0x304C (R196). -/
def frameWords (s : State) (p : Nat) (f : Flight) (r : Run) : List Nat :=
  let x := getPress s p
  let c := stageCtx s p f r.stage
  let u := unitOf s p f r c r.unit
  let back := useBack c r.unit u
  let m := fun (b : Board) => if (boardFmt c).tags then 0 else b.valid.toNat
  let acc := [r.accM.toNat, r.accP.toNat]
  ([m x.front, m x.back, boardMode (boardFmt c).fmt * 16 + (if back then 8 else 0)] ++ cursor c u r.unit
    ++ [r.stored, f.cnt.stageDone.sum + f.cnt.done, f.cnt.clamped, (f.cnt.pruned.map (·.2)).foldl max 0]
    ++ [(smGet r.vtags 0 0).toNat, (smGet r.vtags 1 0).toNat, (smGet r.vtags 2 0).toNat, c.dst.tag.toNat]
    ++ (if back then [0, 0] ++ acc else acc ++ [0, 0])
    ++ [r.retry % 16 * 16 + r.stage % 16]).map (· % 2 ^ 32)

/-- The save frame of press `p` (R196). -/
def frameBytes (s : State) (p : Nat) (f : Flight) (r : Run) : List Byte :=
  let x := getPress s p
  gridBytes x.front.ent ++ gridBytes x.back.ent ++ gridBytes x.vat ++ (frameWords s p f r).flatMap (leBytes 4)
    ++ List.replicate 176 0#8

/-- The frame written into the save slot, as the domain may (R193). -/
def writeFrame (s : State) (p dom fid : Nat) (bs : List Byte) : State :=
  match saveBase s p dom with
  | none => s
  | some a =>
    if reach s dom false a == .ok then (storeUnchecked s (byteRun a bs)).1 else noteLines s fid a (bs.length / 64)

/-- SAVE_FRAME_DONE (R197): the frame stands in the save area, and the press takes the displacing descriptor. -/
def execSaveFrameDone (p : Fin 64) (s : State) : Res :=
  let x := getPress s p.val
  .next
    (match x.state, x.run with
     | .save, some r =>
       match getFlight s r.fid with
       | none => s
       | some f =>
         let r := { r with frame := frameWords s p.val f r }
         let s := writeFrame s p.val (streamDomain s f.stream) f.id (frameBytes s p.val f r)
         let s := setFlight s { f with phase := .saved p.val, cnt := ((getFlight s f.id).getD f).cnt }
         let x := getPress s p.val
         let s := setPress s p.val { x with run := none, saved := some r, state := .idle }
         match (x.waiting.bind (getFlight s)).filter (fun g => g.phase == .queued) with
         | some g => accept s p.val g
         | none =>
           -- the displacing descriptor has gone to another press: the frame is restored at once
           setPress s p.val { (getPress s p.val) with state := .restore, waiting := none }
     | _, _ => s)

/-- A run takes back the words of its frame (R196, R197). The counts take what the words have changed by since they were written, since
checks of stored passes go on meanwhile. A cursor that names no unit of its stage leaves the unit as it was (log 75). -/
def restoreWords (s : State) (p : Nat) (f : Flight) (r : Run) (w : List Nat) : State × Run :=
  let old := fun (i : Nat) => nth r.frame i 0
  let new := fun (i : Nat) => nth w i 0
  let j := if new 19 % 16 < f.stages.length then new 19 % 16 else r.stage
  let c := stageCtx s p f j
  let at' := (w.drop 3).take 4
  let unit :=
    if j = r.stage ∧ at' = (r.frame.drop 3).take 4 then r.unit
    else ((allUnits s p f r c).find? (fun n => cursor c (unitOf s p f r c n) n == at')).getD r.unit
  let k := if bitAt (BitVec.ofNat 32 (new 2)) 3 then 17 else 15
  let acc := fun (i : Nat) => if (boardFmt c).tags then 0#32 else BitVec.ofNat 32 (new i)
  let vtags := [0, 1, 2].foldl
    (fun m i => if new (11 + i) = old (11 + i) then m else smPut m i (BitVec.ofNat 32 (new (11 + i)))) r.vtags
  let s := updCnt s f.id (fun n =>
    { n with done := n.done + new 8 - old 8, clamped := n.clamped + new 9 - old 9,
             pruned := if new 10 = old 10 then n.pruned else smPut n.pruned j (smGet n.pruned j 0 + new 10 - old 10) })
  (s, { r with stage := j, unit := unit, stored := new 7, vtags := vtags, accM := acc k, accP := acc (k + 1),
               retry := new 19 / 16 % 16 })

/-- RESUME (R194, R197): boards, vat, masks and cursor restored from the frame, and the descriptor runs on. Index runs that COALESCE has
sorted are sorted again, since the table was given back (R269). A slot that the domain may no longer read gives zeros (R37), and so does
a domain that has no save area any more (log 75). -/
def execResume (p : Fin 64) (s : State) : Res :=
  let x := getPress s p
  .next
    (match x.state, x.saved with
     | .restore, some r =>
       match getFlight s r.fid with
       | none => setPress s p { x with saved := none, state := .idle }
       | some f =>
         let dom := streamDomain s f.stream
         let a := (saveBase s p.val dom).getD 0
         let ok := reach s dom false a == .ok
         let s := if (saveBase s p.val dom).isNone then s
           else if ok then recordUes (countCe s (physOf s a) 12544) (whoPress p.val) (localUe s a 12544)
           else noteLines s f.id a 196
         let bs := if (saveBase s p.val dom).isSome && ok then localBytes s a 12544 else List.replicate 12544 0#8
         let x := getPress s p.val
         let y := restoreWords s p.val f r ((List.range 20).map (fun i => (wordAt bs (0x3000 + 4 * i)).toNat))
         let s := y.1
         let f := (getFlight s f.id).getD f
         let s := setFlight s { f with phase := .running p.val }
         settle (setPress s p.val
           { x with run := some { y.2 with startEdge := s.time.edges, coal := [], order := [] }, saved := none,
                    state := .run,
                    front := { x.front with ent := gridOf (bs.take 4096), valid := wordAt bs 0x3000 },
                    back := { x.back with ent := gridOf ((bs.drop 4096).take 4096), valid := wordAt bs 0x3004 },
                    vat := gridOf ((bs.drop 8192).take 4096) }) p.val
     | _, _ => s)

/-- A pass whose last row is loaded counts as complete when a preemption falls: it is stored, or its MAC step is made (R192, R195). Where
its store must wait for room it is saved as it stands (log 75). -/
def storeComplete (s : State) (p : Nat) : State :=
  let x := getPress s p
  match x.run, runFlight s x.run with
  | some r, some f =>
    if (unitOf s p f r (stageCtx s p f r.stage) r.unit).kind ≤ 1 then
      let y := storeUnit s p
      if y.2 then conclude y.1 p else s
    else s
  | _, _ => s

/-- A preemption at a slot edge (R192): loads stop, the tags of outstanding reads are retired with the retry count of the pass in load
(R195), and the frame write begins. A press whose last pass was stored has nothing left to save. -/
def preempt (s : State) (p fid : Nat) : State :=
  let s := storeComplete s p
  let x := getPress s p
  match x.run with
  | none => s
  | some r =>
    if x.state != .run && x.state != .setup then s
    else
      let strm := ((getFlight s r.fid).map (·.stream)).getD 0
      let mine := r.reads.filter (fun e => e.stage == r.stage && e.unit == r.unit)
      let retry := if mine.isEmpty then r.retry else ((mine.filter (·.flying)).map (·.fails)).foldl max 0
      let tags := (r.reads.filter (·.flying)).map (·.tag)
      let s := returnBlocks s strm r.got
      let r := { r with reads := [], ahead := r.ahead.map (fun _ => (0, 0)), retry := retry, got := 0 }
      let s := setPress s p { (getPress s p) with run := some r, state := .save, waiting := some fid, retired := x.retired ++ tags }
      bump (releaseTable s p) (0x4010 + 256 * p) 1

end Sys2Proof.Machine
end

