-- ==== Sys2Proof/Machine/Slow.lean ====
section
/-!
DEFINITION. Machine/Slow.lean: the matrix accesses of the cellar master (R440, R460) and the slow strided path (R201).
-/
namespace Sys2Proof.Machine

/-- A register write that a matrix access brings: the state, the window offset and the word. -/
abbrev RegWr := State → Nat → Word → State

/-- An aligned 4-byte read by the cellar master in local space (R16, R440), and whether it is refused (R395). Data with an
uncorrectable error is returned as read, and recorded (R375). -/
def masterRead (s : State) (a : Nat) : State × Nat × Bool :=
  match region a with
  | .unmapped => (evUnmapped s (whoMatrix 0) a 0, 0, false)
  | .window => (s, (regLive s (a - 0x180000000)).toNat, false)
  | r =>
    if r = .cellar (a / 0x4000000) && destroying s (a / 0x4000000) then (s, 0, true)
    else
      let s := recordUes (countCe s (physOf s a) 4) (whoMatrix 0) (localUe s a 4)
      (s, leNat (localBytes s a 4), false)

/-- Bytes of one aligned word written by the cellar master in local space, without their sideband, and whether the write is refused.
A register takes a whole word only (R460). -/
def masterWrite (rw : RegWr) (s : State) (a : Nat) (bs : List (Nat × Byte)) : State × Bool :=
  match region a with
  | .unmapped => (evUnmapped s (whoMatrix 0) a 0, false)
  | .window =>
    if bs.length = 4 then (rw s (a - 0x180000000) (BitVec.ofNat 32 (leNat (bs.map (·.2)))), false)
    else (evRegDenied s (whoMatrix 0) (a - 0x180000000) 0, false)
  | r =>
    if r = .cellar (a / 0x4000000) && destroying s (a / 0x4000000) then (s, true)
    else
      let ps := physWrites s bs
      let s := correctMerges s ps
      let r := storeBytes s.mem ps
      (recordUeBlends (setMem s r.1) (whoMatrix 0) r.2, false)

/-- Where an element of a record lies for the slow path: node and local address (R66 to R68), shards read as met. -/
def slowAddr (s : State) (l : LRec) (c : Crd) : HSpot :=
  let t := l.tensor
  let base := if t.sharded then leNat (trBytes s (64 * t.smap + 8 * t.shardNo c) 8) else t.base
  let lc := t.localOf c
  hallAt s l (base / 16 * 16) lc.2 lc.1

/-- One element of a slow copy: the state, the bytes written so far, the elements left uncopied, and the accesses refused with the
first one's address. -/
structure SlowAcc where
  s : State
  written : List Nat := []
  left : Nat := 0
  refused : Nat := 0
  refFirst : Nat := 0

/-- An access of a slow copy at `a`, counted if it is refused. -/
def SlowAcc.note (z : SlowAcc) (a : Nat) (refused : Bool) : SlowAcc :=
  if refused then { z with refused := z.refused + 1, refFirst := if z.refused = 0 then a else z.refFirst } else z

/-- One element copied, or left uncopied where either side lies on another node (R201). -/
def slowElem (rw : RegWr) (n : Nat) (src dst : LRec) (z : SlowAcc) (x : Crd × Crd) : SlowAcc :=
  let a := slowAddr z.s src x.1
  let b := slowAddr z.s dst x.2
  let here := nodeId z.s
  if a.node ≠ here ∨ b.node ≠ here then { z with left := z.left + 1 }
  else
    let r := masterRead z.s (a.addr / 4 * 4)
    let z := { z with s := r.1 }.note a.addr r.2.2
    let v := r.2.1 / 256 ^ (a.addr % 4)
    let bs := (leBytes n v).zip (List.range n) |>.map (fun e => (b.addr + e.2, e.1))
    let w := masterWrite rw z.s (b.addr / 4 * 4) bs
    let z := { z with s := w.1 }.note b.addr w.2
    if w.2 then z else { z with written := bs.map (·.1) ++ z.written }

/-- The sideband of the cellar blocks that the slow path has written (R378): unchecked, a mark kept in a block written in
part. -/
def slowSideband (s : State) (as : List Nat) : State :=
  let ks := (as.filter (fun a => decide (a < 0x100000000))).map (fun a => (physOf s a, (0#8 : Byte)))
  let blks := (ks.map (fun k => blockOf k.1)).eraseDups
  setMem s (blks.foldl (fun m b => sbWrite m b (coversBlock ks b) sbUnchecked) s.mem)

/-- A RACK (PERM identity) or RIDDLE on the slow strided path over a window of extents `x` (R201): destination positions
in row-major order. A copy with refused accesses records one FOREIGN_BIN event at its end (R37). The answer gives the elements
left uncopied. -/
def slowCopy (rw : RegWr) (s : State) (pm : List Nat) (src dst : LRec) (st ds x : Crd) : State × Nat :=
  let dx := (List.range 4).map (fun d => crd x (nth pm d d))
  let els := (List.range (vol dx)).map (fun i =>
    let o := ofLogical dx i
    let so := (List.range 4).map (fun e => crd o (permInv pm e))
    (crdAdd st so, crdAdd ds o))
  let z := els.foldl (slowElem rw (fmtBytes src.tensor.fmt) src dst) { s := s }
  let s := slowSideband z.s z.written
  (if z.refused = 0 then s else evForeign s (whoMatrix 0) z.refFirst z.refused, z.left)

end Sys2Proof.Machine
end

