-- ==== Sys2Proof/Machine/Rings.lean ====
section
/-!
DEFINITION. Machine/Rings.lean: the ring table (R151, R152), ring entries and generations (R155 to R158), and the pickup of
a descriptor (R137, R140, R141, R160, R169, R289, R303, R345, R508).
-/
namespace Sys2Proof.Machine

/-! ### The ring table (R151, R152) -/

/-- Tasting-room byte offset of ring-table entry `e`. -/
def ringOff (s : State) (e : Nat) : Nat := 64 * rfld s 0x0088 0 19 + 16 * e

/-- The state of descriptor ring `r` as its ring-table entry gives it. -/
def readDRing (s : State) (r : Nat) : DRing :=
  let w := wordsOf 2 (trBytes s (ringOff s r) 8)
  { stream := wFld w 0 24 8, log2n := wFld w 0 20 4, base := wFld w 0 0 19, expgen := wFld w 1 16 16, head := wFld w 1 0 16 }

/-- The state of completion ring `c` as its ring-table entry gives it. -/
def readCRing (s : State) (c : Nat) : CRing :=
  let w := wordsOf 2 (trBytes s (ringOff s (1024 + c)) 8)
  { door := wFld w 0 28 4, evt := wFld w 0 24 2, log2n := wFld w 0 20 4, base := wFld w 0 0 19, clap := wFld w 1 16 8,
    tail := wFld w 1 0 16 }

/-- Word 0 of every entry and the initial word 1 read at an image load (R152). -/
def readRings (s : State) : State :=
  let d := (List.range 1024).filterMap (fun r => let x := readDRing s r; if x = {} then none else some (r, x))
  let c := (List.range 1024).filterMap (fun r => let x := readCRing s r; if x = {} then none else some (r, x))
  { s with drings := d, crings := c }

/-- N of a descriptor ring. -/
def DRing.size (x : DRing) : Nat := 2 ^ (if x.log2n = 0 then 1 else min 12 x.log2n)
/-- HEAD and EXPGEN as read. -/
def DRing.pos (x : DRing) : Nat := x.head % x.size
def DRing.gen (x : DRing) : Nat := if x.expgen = 0 then 1 else x.expgen
/-- N, TAIL and CLAP of a completion ring as read. -/
def CRing.size (x : CRing) : Nat := 2 ^ (if x.log2n = 0 then 1 else x.log2n)
def CRing.pos (x : CRing) : Nat := x.tail % x.size
def CRing.lap (x : CRing) : Nat := if x.clap = 0 then 1 else x.clap

/-- The generation after `g` (R155). -/
def genAfter (g : Nat) : Nat := if g = 65535 then 1 else g + 1

/-- The generation that a ring expects when its head next reaches entry `j` (R158). -/
def DRing.expects (x : DRing) (j : Nat) : Nat := if x.pos ≤ j then x.gen else genAfter x.gen

/-- The head advanced past an entry (R155). -/
def DRing.advance (x : DRing) : DRing :=
  if x.pos + 1 = x.size then { x with head := 0, expgen := genAfter x.gen }
  else { x with head := x.pos + 1, expgen := x.gen }

/-- Tasting-room byte offset of entry `j` of a ring. -/
def DRing.off (x : DRing) (j : Nat) : Nat := 64 * (x.base + j)

/-- The write-back of a descriptor ring's word 1 (R152). -/
def writeBackDRing (s : State) (r : Nat) : State :=
  let x := getDRing s r
  trStore s (ringOff s r + 4) (leBytes 4 (x.expgen * 65536 + x.head))

/-- Prefetch depth of a stream (R161). -/
def streamDepth (s : State) (st : Nat) : Nat := rfld s (0x0400 + 4 * st) 0 6 + 1

/-! ### Records read at pickup (R58, R59) -/

/-- Tasting-room byte offset of registry record `x` (R58). -/
def recOff (s : State) (x : Nat) : Nat := 64 * (rfld s 0x0080 0 19 + x % (rfld s 0x0084 0 16 + 1))

/-- A 64 B line of the tasting room read by the cellar master: its words, and whether it holds an uncorrectable error,
which is recorded (R375). -/
def masterLine (s : State) (off : Nat) : State × List Word × Bool :=
  let bad := (List.range 16).filterMap (fun i =>
    let w := trAddr (off + 4 * i) / 4
    if s.mem.ueWords.contains w then some w else none)
  (recordUes (countCe s (trAddr off) 64) (whoMatrix 0) bad, wordsOf 16 (trBytes s off 64), !bad.isEmpty)

/-- What is gathered while the records of a descriptor are latched: lines with errors, records without a vintage, pins. -/
structure Latch where
  s : State
  bad : Bool := false
  gone : Bool := false
  pins : List Pin := []

/-- One record of a stage latched and resolved (R59, R303), where the stage names it. A MULTICAST's destination is resolved
by its receivers (R345). -/
def latchRec (z : Latch) (named : Bool) (x : Nat) (dvx : Option Nat) (far : Bool) : Latch × LRec :=
  if named then
    let y := masterLine z.s (recOff z.s x)
    let z := { z with s := y.1, bad := z.bad || y.2.2 }
    if far then (z, { words := y.2.1, res := .remote })
    else
      match resolveRec z.s y.2.1 dvx with
      | some (l, pin) => ({ z with pins := z.pins ++ pin.toList }, l)
      | none => ({ z with gone := true }, { words := y.2.1 })
  else (z, {})

/-- The records of one stage latched; `into` names the role that a handover supplies, which needs no record (R282). -/
def latchStage (z : Latch) (ws : List Word) (into : Option Nat) : Latch × Stage :=
  let op := opOf ws
  let free := fun (r : Nat) => into != some r
  let a := latchRec z (usesSrc op && free 0) (wFld ws 3 0 16) none false
  let b := latchRec a.1 (usesDst op) (wFld ws 3 16 16) (dDvx op ws) (op == 0x20)
  let c := latchRec b.1 (usesAux op ws && free 2) (wFld ws 4 16 16) none false
  let d := latchRec c.1 (usesIdx op && free 1) (wFld ws 4 0 16) none false
  let e := latchRec d.1 (usesOffs op ws) (fld (dOpb ws) 0 16) none false
  let k := latchRec e.1 (usesKdst op ws) (fld (dOpb ws) 16 16) none false
  (k.1, { op := op, words := ws, src := a.2, dst := b.2, aux := c.2, idx := d.2, offs := e.2, kdst := k.2 })

/-! ### Stages (R278 to R286) -/

/-- The stage lines of a BLEND read and latched (R278): their words, and whether each is readable. -/
def readStages (s : State) (header : List Word) : State × List (List Word × Bool) :=
  (List.range (wFld header 2 30 2 + 1)).foldl
    (fun acc j =>
      let y := masterLine acc.1 (64 * (wFld header 2 0 19 + j))
      (y.1, acc.2 ++ [(y.2.1, y.2.2)]))
    (s, [])

/-- The role of stage `j` that the handover of the stage before it supplies. -/
def handRole (ws : List (List Word)) (j : Nat) : Option Nat :=
  if j = 0 then none
  else
    let w := nth ws (j - 1) []
    if noHand (opOf w) || handOf { words := w } == 2 then none else some (linkInto w)

/-- The stages of a descriptor latched in order. -/
def latchStages (s : State) (ws : List (List Word)) : Latch × List Stage :=
  (List.range ws.length).foldl
    (fun acc j =>
      let y := latchStage acc.1 (nth ws j []) (handRole ws j)
      (y.1, acc.2 ++ [y.2]))
    ({ s := s }, [])

/-- The context in which stage `j` is judged at pickup: its own records, with the handover tensor in place. -/
def judgeCtx (s : State) (p : Nat) (f : Flight) (j : Nat) : SCtx :=
  let dom := streamDomain s f.stream
  let d := baseCtx (heritage s) dom p f j
  match handRole (f.stages.map (·.words)) j with
  | none => d
  | some into =>
    let c := baseCtx (heritage s) dom p f (j - 1)
    withHand d into c.dstRec.fmt (handExt c) (nodeId s * 2 ^ 48 + innerBase (j - 1)) true

/-- The effective extents of every stage, in order: a stage's handover has the shape that the stage before it leaves. -/
def judgeExts (s : State) (p : Nat) (f : Flight) : Flight :=
  (List.range f.stages.length).foldl
    (fun f j =>
      let c := judgeCtx s p f j
      let x := stageExt c.op c.words c.srcRec c.dstRec c.idx.tensor c.kdst.tensor
      { f with stages := f.stages.set j { nth f.stages j {} with ext := x } })
    f

/-- Any overlap of a BLEND stage's own operands (R289): the handover tensor is left out on either side. -/
def blendOverlap (s : State) (p : Nat) (f : Flight) (j : Nat) : Bool :=
  let st := nth f.stages j {}
  let c := judgeCtx s p f j
  if (st.op == 0x01 || st.op == 0x02 || st.op == 0x03) && ownStore s p f c && !stageEmpty st.op st.words st.ext then
    let blank : LRec := { words := [] }
    let st' := { st with src := if c.into = some 0 then blank else st.src, idx := if c.into = some 1 then blank else st.idx }
    if st'.src.tensor.sharded || st'.dst.tensor.sharded || (st.op == 0x03 && st'.idx.tensor.sharded) then false
    else
      let fs := footprints s st'
      (c.into != some 0 && fs.1.meets fs.2.1) || (c.into != some 1 && fs.2.2.any (fun x => x.meets fs.2.1))
  else false

/-- OVERLAP_TOO_LARGE at pickup (R214, R284, R289), judged for a press of the home terrace. The stages of a BLEND are never staged, its
only one neither. -/
def judgeOverlap (s : State) (f : Flight) : Bool :=
  let k := streamTerrace s f.stream
  let dom := streamDomain s f.stream
  let p := 8 * k
  if opOf f.words = 0x30 then
    let space := tileSpace (heritage s) dom p f
    (List.range f.stages.length).any (blendOverlap s p f)
      || decide (0x400000 < space) || (space != 0 && (stageBase s p dom).isNone)
  else f.stages.any (fun st => !stageEmpty st.op st.words st.ext && overlapTooLarge s st k dom)

/-- SHAPE_MISFIT at pickup (R188, R251, R253, R286), and in heritage mode every clamped window (R471). -/
def judgeMisfit (s : State) (p : Nat) (f : Flight) : Bool :=
  (List.range f.stages.length).any (fun j =>
    let c := judgeCtx s p f j
    let st := nth f.stages j {}
    shapeMisfit c.op c.words c.srcRec c.dstRec c.idx.tensor c.aux.tensor c.offs.tensor
      || (heritage s && shapeClamped c.op c.words st.ext)
      || (j + 1 < f.stages.length && !noHand c.op && handOf st == 2 && !vatOk c (judgeCtx s p f (j + 1))))

/-! ### Pickup -/

/-- Lateness at pickup (R140). -/
def isLate (ws : List Word) (now : BitVec 64) : Bool := (nth ws 11 0#32 - now.setWidth 32).slt 0

/-- The receivers of a MULTICAST formed at pickup, and FAB.PRUNE and PRUNE_GRP of the stream (R345). -/
def formReceivers (s : State) (st : Nat) (g : Stage) : State × Stage :=
  if g.op = 0x20 then
    let grp := fld (dOpa g.words) 20 12
    let o := 0x9000 + 0x10 * st
    let mem := groupMembers s grp
    if rbit s (o + 8) 31 && rfld s (o + 8) 0 12 == grp && !bitAt (dOpa g.words) 19 then
      let pruned := BitVec.ofNat 64 ((rget s o).toNat + 2 ^ 32 * (rget s (o + 4)).toNat)
      (s, { g with recv := (maskBits (mem &&& ~~~pruned)).map (fun r => (r, groupNode s grp r)) })
    else
      let s := rset (rset (rset s o 0) (o + 4) 0) (o + 8) (BitVec.ofNat 32 (2 ^ 31 + grp))
      (s, { g with recv := (maskBits mem).map (fun r => (r, groupNode s grp r)) })
  else (s, g)

/-- A descriptor whose records are latched, judged in the order of R169 step 3; the status that ends it, if any. -/
def judgePickup (z : Latch) (f : Flight) : Option Nat :=
  let s := z.s
  let p := 8 * streamTerrace s f.stream
  if z.bad then some 0x0D
  else if z.gone then some 0x0E
  else if f.stages.any (fun g => g.op == 0x20 || g.op == 0x21) && overqStream s f.stream then some 0x0A
  else if judgeOverlap s f then some 0x08
  else if judgeMisfit s p f then some 0x09
  else none

/-- The start of a DECANT, which may continue from its journal (R227, R230). -/
def pickDecant (s : State) (f : Flight) : State × Flight :=
  match f.stages with
  | [st] =>
    if st.op = 0x28 ∧ bitAt (dOpa st.words) 19 then
      (journalUe s st, f.startAt (decantStart s st) f.cnt)
    else (s, f)
  | _ => (s, f)

/-- A flight enters the list of descriptors in flight. -/
def addFlight (s : State) (f : Flight) : State := { s with flights := s.flights ++ [f] }

/-- A descriptor that ends at pickup with a status (R169, R508). -/
def endEarly (s : State) (f : Flight) (code : Nat) : State :=
  let cnt := { f.cnt with lotFail := code == 0x0D }
  addFlight s (finished s { f with early := some code, pins := [], stages := [], cnt := cnt })

/-- A descriptor that needs a press is judged and queued, or ends at pickup. -/
def judgeNew (s : State) (f : Flight) (lines : List (List Word × Bool)) : State :=
  let y := latchStages s (lines.map (·.1))
  let z := { y.1 with bad := y.1.bad || lines.any (·.2) }
  let p := 8 * streamTerrace s f.stream
  let f := judgeExts z.s p { f with stages := y.2 }
  match judgePickup z f with
  | some code => endEarly z.s f code
  | none =>
    let r := f.stages.foldl (fun acc g => let q := formReceivers acc.1 f.stream g; (q.1, acc.2 ++ [q.2])) (z.s, [])
    let clamped := f.stages.any (fun g => shapeClamped g.op g.words g.ext)
    let f := { f with stages := r.2, cnt := { f.cnt with shape := clamped } }
    if f.stages.all (fun g => stageEmpty g.op g.words g.ext) then addFlight r.1 (finished r.1 f)
    else
      let d := pickDecant r.1 f
      -- a DECANT with nothing left behind its last commit has no pass to run (R189, R230)
      if d.2.nothingLeft then addFlight d.1 (finished d.1 d.2)
      else addFlight d.1 { d.2 with phase := .queued, pins := z.pins, queuedEdge := d.1.time.edges }

/-- The pickup of a descriptor latched from entry `j` of ring `r` (R137). -/
def pickup (s : State) (r j : Nat) (ws : List Word) : State :=
  let st := (getDRing s r).stream
  let now := s.time.ftime
  let late := isLate ws now
  let id := s.nextId + 1
  let s := { s with nextId := id }
  let s := if late then bump s 0x102C 1 else s
  let op := opOf ws
  let f : Flight := { id := id, stream := st, ring := r, entry := j, words := ws, pick := now, late := late }
  if late && flagOf ws 7 then endEarly s f 0x0B
  else if op = 0x30 then
    let y := readStages s ws
    if y.2.any (fun l => !l.2 && !opStage (opOf l.1)) then addFlight y.1 (finished y.1 { f with early := some 0x0F })
    else judgeNew y.1 f y.2
  else if op = 0x38 ∨ op = 0x3F ∨ opKnown op = false then addFlight s { f with phase := .latched }
  else judgeNew s f [(ws, false)]

/-! ### The visits of a slot (R133 to R136, R156) -/

def getMaster (s : State) : Master := s.time.master
def setMaster (s : State) (m : Master) : State := { s with time := { s.time with master := m } }

/-- The next visit begins with its two clocks of lookup, or the slot's visits are over. -/
def nextVisit (m : Master) : Master :=
  match m.visits with
  | [] => { m with stage := .idle, left := 0, visits := [] }
  | w :: r => { m with stage := .lookup, left := 2, visits := r, ring := fld w 0 10, room := fld w 16 4 + 1, moved := false }

/-- A slot is abandoned (R135): counted, seen, and recorded. -/
def overrun (s : State) (k rev : Nat) : State :=
  emit (rsetBit (bump s 0x1028 1) 0x1004 7 true) { code := 0x10, kind := 9, unit := k, args := [rev] }

/-- The ring-state write-back of a visit whose head has moved (R152). -/
def visitBack (s : State) : State :=
  if (getMaster s).moved then writeBackDRing s (getMaster s).ring else s

/-- A visit ends (R136): its write-back is made, and the slot's next visit begins. A visit that a slot edge has cut off is
recorded (R135), and the new slot goes on with its wait. -/
def visitEnds (s : State) : State :=
  let s := visitBack s
  let m := getMaster s
  match m.cut with
  | some e => overrun (setMaster s { m with stage := .wait, moved := false, cut := none }) e.1 e.2
  | none => setMaster s (nextVisit m)

/-- The visit under way goes on with the entry at the head while it may examine one and the stream has room under its prefetch
depth (R136, R161). -/
def visitGoesOn (s : State) : State :=
  let m := getMaster s
  let st := (getDRing s m.ring).stream
  if m.cut.isSome || m.room = 0 || streamDepth s st ≤ inflight s st then visitEnds s
  else setMaster s { m with stage := .first }

/-- The entry at the head of the ring under way: its byte offset. -/
def entryOff (s : State) : Nat :=
  let x := getDRing s (getMaster s).ring
  x.off x.pos

/-- The first read of word 0. A generation that is not the one expected, in a word without an uncorrectable error, ends the visit
(R156). -/
def readFirst (s : State) : State :=
  let off := entryOff s
  let g := fld (wordAt (trBytes s off 4) 0) 0 16
  if !trUe s off 4 && g != (getDRing s (getMaster s).ring).gen then visitEnds s
  else setMaster s { (getMaster s) with stage := .line, gen := g }

/-- The read of the whole line. -/
def readLine (s : State) : State :=
  let y := masterLine s (entryOff s)
  setMaster y.1 { (getMaster y.1) with stage := .second, line := y.2.1, bad := y.2.2 }

/-- The second read of word 0. -/
def readSecond (s : State) : State :=
  setMaster s { (getMaster s) with stage := .latch, again := fld (wordAt (trBytes s (entryOff s) 4) 0) 0 16 }

/-- The latch (R136, R137, R156): an entry whose three reads carry the generation expected is picked up and the head moves past it.
Three reads that do not agree are counted, and such an entry, or one read with an uncorrectable error, ends the visit. -/
def latchEntry (s : State) : State :=
  let m := getMaster s
  let x := getDRing s m.ring
  let g := genOf m.line
  let agree := m.gen == g && m.again == g
  let s := if agree then s else bump s 0x1030 1
  if agree && !m.bad && g == x.gen then
    let s := setDRing (pickup s m.ring x.pos m.line) m.ring x.advance
    visitGoesOn (setMaster s { (getMaster s) with room := m.room - 1, moved := true })
  else visitEnds s

/-- The cellar master's part of one control clock (R134). A wait of four clocks at the edge goes on beside the entry that a cut-off
visit completes. -/
def masterClock (s : State) : State :=
  let m := getMaster s
  let tick := { m with left := m.left - 1 }
  match m.stage with
  | .idle => s
  | .wait => setMaster s (if tick.left = 0 then nextVisit tick else tick)
  | .lookup => if tick.left = 0 then visitGoesOn (setMaster s tick) else setMaster s tick
  | .first => readFirst (setMaster s tick)
  | .line => readLine (setMaster s tick)
  | .second => readSecond (setMaster s tick)
  | .latch => latchEntry (setMaster s tick)

/-- An entry is being examined. -/
def midEntry (m : Master) : Bool := m.stage == .line || m.stage == .second || m.stage == .latch

/-- The visits of a new slot are planned from its edge on (R134, R135): what was still to be visited in the old slot is abandoned, once
the entry being examined is complete. -/
def beginVisits (s : State) (k rev : Nat) (ws : List Word) : State :=
  let m := getMaster s
  let new : Master := { slot := k, rev := rev, visits := ws.filter (bitAt · 31), left := 4, stage := .wait }
  if m.stage = .idle then setMaster s (if new.visits.isEmpty then {} else new)
  else if midEntry m then
    setMaster s { m with slot := k, rev := rev, visits := new.visits, left := 4, cut := some (m.slot, m.rev) }
  else setMaster (overrun (visitBack s) m.slot m.rev) (if new.visits.isEmpty then {} else new)

end Sys2Proof.Machine
end

