-- ==== Sys2Proof/Machine/Cards.lean ====
section
/-!
DEFINITION. Machine/Cards.lean: dispatch (R162, R163, R175, R273, R389), preemption (R190), descriptors that the cellar
master completes (R149, R164, R508), and the card (R165 to R171, R293, R472) with its chain and event message.
-/
namespace Sys2Proof.Machine

/-! ### Dispatch -/

/-- Every earlier descriptor of the stream in flight. -/
def earlier (s : State) (f : Flight) : List Flight :=
  (streamFlights s f.stream).filter (fun g => g.id < f.id)

/-- Stream order permits the dispatch of a queued descriptor (R162 to R164): none goes ahead of a FENCE, and one with FENCE_BEFORE
waits for every earlier card. -/
def permitted (s : State) (f : Flight) : Bool :=
  let es := earlier s f
  es.all (fun g => g.phase != .queued) && !(flagOf f.words 6 && !es.isEmpty)
    && es.all (fun g => opOf g.words != 0x38)

/-- The descriptor that a saving press will take next is given to no other. -/
def reserved (s : State) (f : Flight) : Bool := s.presses.any (fun e => e.2.waiting == some f.id)

/-- Whether `a` stands ahead of `b` in a queue: re-executed descriptors first, the latest of them foremost (R388). -/
def aheadOf (a b : Flight) : Bool := b.requeue < a.requeue || (a.requeue == b.requeue && a.id < b.id)

/-- The foremost of some descriptors. -/
def foremost : List Flight → Option Flight
  | [] => none
  | f :: r =>
    match foremost r with
    | none => some f
    | some g => if aheadOf f g then some f else some g

/-- The queue of terrace `k`. -/
def queueOf (s : State) (k : Nat) : List Flight :=
  s.flights.filter (fun f => f.phase == .queued && !reserved s f && streamTerrace s f.stream == k)

/-- The oldest descriptor of a queue that stream order permits. -/
def nextOf (s : State) (fs : List Flight) : Option Flight := foremost (fs.filter (permitted s))

/-- A press is free for a new descriptor (R175, R398). -/
def freePress (s : State) (p : Nat) : Bool :=
  let x := getPress s p
  x.state == .idle && !isCorked s p && x.saved.isNone && s.coop.pending != some p && s.coop.tasting != some p

/-- The presses of terrace `k`. -/
def pressesOf (k : Nat) : List Nat := (List.range 8).map (8 * k + ·)

/-- The eligible press of terrace `k` with the lowest number. -/
def eligible (s : State) (k : Nat) : Option Nat := (pressesOf k).find? (freePress s)

/-- Every press of terrace `k` is corked. -/
def allCorkedIn (s : State) (k : Nat) : Bool := (pressesOf k).all (isCorked s)

/-- The terraces from `k` on, in rising number modulo 8. -/
def terracesFrom (k : Nat) : List Nat := (List.range 8).map (fun i => (k + i) % 8)

/-- A descriptor that uses a sorting table. -/
def sorts (f : Flight) : Bool := f.stages.any (fun g => g.op == 0x18 || g.op == 0x19)

/-- The terrace whose presses serve a descriptor of terrace `k`'s queue: past terraces that are wholly corked (R389), and
for a sort past terraces whose table is fenced (R273). -/
def serving (s : State) (k : Nat) (f : Flight) : Option Nat :=
  (terracesFrom k).find? (fun t => !allCorkedIn s t && !(sorts f && (getTable s t).fenced))

/-- A descriptor that no press can take any more (R273, R389). -/
def failDispatch (s : State) (f : Flight) : State :=
  setFlight s (finished s { f with early := some 0x0D, press := 255, cnt := { lotFail := true } })

/-- A free press of a terrace whose own queue is empty takes the oldest ANY_TERRACE descriptor of the other queues. -/
def pullAny (s : State) (k : Nat) : State :=
  match eligible s k with
  | none => s
  | some p =>
    match (terracesFrom k).findSome? (fun t => nextOf s ((queueOf s t).filter (fun f =>
        streamAny s f.stream && !(sorts f && (getTable s k).fenced)))) with
    | some f => accept s p f
    | none => s

/-- DISPATCH of a terrace (R175). -/
def dispatchTerrace (s : State) (k : Nat) : State :=
  if (queueOf s k).isEmpty then pullAny s k
  else
    match nextOf s (queueOf s k) with
    | none => s
    | some f =>
      match serving s k f with
      | none => failDispatch s f
      | some t =>
        match eligible s t with
        | some p => accept s p f
        | none => s

/-- DISPATCH (R175). -/
def execDispatch (terrace : Fin 8) (s : State) : Res := .next (dispatchTerrace s terrace.val)

/-! ### Preemption at a slot edge (R190, R191) -/

/-- No press is eligible for a descriptor. -/
def noneEligible (s : State) (f : Flight) : Bool :=
  match serving s (streamTerrace s f.stream) f with
  | none => true
  | some t => (eligible s t).isNone && !(streamAny s f.stream && (List.range 8).any (fun k => (eligible s k).isSome))

/-- The press of terrace `k` to preempt: the longest running, on a tie the lowest number. -/
def victim (s : State) (k : Nat) : Option Nat :=
  let q := rfld s 0x0090 0 8
  let ran := fun (p : Nat) => match (getPress s p).run with
    | some r => s.time.edges - r.startEdge
    | none => 0
  let cands := (pressesOf k).filter (fun p =>
    let x := getPress s p
    (x.state == .run || x.state == .setup) && x.run.isSome && !notPreemptible s p && decide (q ≤ ran p))
  cands.foldl (fun (b : Option Nat) p => match b with
    | none => some p
    | some c => if ran c < ran p then some p else some c) none

/-- The check of one terrace at a slot edge (R190). -/
def preemptTerrace (s : State) (k : Nat) : State :=
  let wait := max 1 (rfld s 0x0090 8 8)
  let long := (queueOf s k).any (fun f => decide (wait ≤ s.time.edges - f.queuedEdge) && noneEligible s f)
  if rfld s 0x0090 0 8 = 0 ∨ long = false then s
  else
    match nextOf s (queueOf s k), victim s k with
    | some f, some p => if serving s k f = some k then preempt s p f.id else s
    | _, _ => s

/-- Preemption at a slot edge. -/
def preemptAll (s : State) : State := (List.range 8).foldl preemptTerrace s

/-! ### Descriptors that the cellar master completes (R508) -/

/-- The oldest latched descriptor of a stream with one of some op codes. -/
def latched (s : State) (st : Nat) (ok : Nat → Bool) : Option Flight :=
  (streamFlights s st).find? (fun f => f.phase == .latched && ok (opOf f.words))

/-- A latched descriptor completed with a status; NOP and FENCE report DONE under the later steps of R169. -/
def completeLatched (s : State) (f : Flight) (code : Option Nat) : State :=
  setFlight s (finished s { f with early := code })

/-- NOP (R149). -/
def execNop (st : Fin 256) (s : State) : Res :=
  .next (match latched s st.val (· == 0x3F) with
    | some f => completeLatched s f none
    | none => s)

/-- OP_RESERVED (R149). -/
def execOpReserved (st : Fin 256) (s : State) : Res :=
  .next (match latched s st.val (fun op => !opKnown op) with
    | some f => completeLatched s f (some 0x0F)
    | none => s)

/-- The conditions of R164: every earlier card written, and with REMOTE every remote effect of earlier descriptors of the
stream acknowledged or pruned. -/
def fenceMet (s : State) (f : Flight) : Bool :=
  (earlier s f).isEmpty
    && (!bitAt (dOpa f.words) 0 || s.fab.outs.all (fun o => o.stream != f.stream || f.id ≤ o.fid || o.acked))

/-- The oldest FENCE of a stream completes once its conditions hold. -/
def tryFence (s : State) (st : Nat) : State :=
  match latched s st (· == 0x38) with
  | some f => if fenceMet s f then completeLatched s f none else s
  | none => s

/-- FENCE (R164): it waits, or completes where nothing is left to wait for. -/
def execFence (st : Fin 256) (s : State) : Res := .next (tryFence s st.val)
/-- FENCE_COMPLETE (R164). -/
def execFenceComplete (st : Fin 256) (s : State) : Res := .next (tryFence s st.val)

/-! ### The card -/

/-- PRUNED of the card: the largest count of any MULTICAST stage (R293, R349). -/
def prunedOf (f : Flight) : Nat := (f.cnt.pruned.map (·.2)).foldl max 0

/-- The status of a finished descriptor (R169). -/
def statusOf (f : Flight) : Nat :=
  match f.early with
  | some c => c
  | none =>
    if f.cnt.aborted then 0x0C
    else if f.cnt.recalled then 0x10
    else if f.cnt.lotFail then 0x0D
    else if f.cnt.unreachable then 0x11
    else if f.late then 0x0B
    else if f.cnt.shape then 0x03
    else if prunedOf f ≠ 0 then 0x02
    else if f.cnt.clamped ≠ 0 then 0x01
    else 0x00

/-- LOT_FAIL of the card: a recalled block reports it too (R353). -/
def lotFailOf (f : Flight) : Bool := f.cnt.lotFail || f.cnt.recalled

/-- What stage `j` of a descriptor has written; a POOL whose vat is handed over reports its elements as if alone (R293). -/
def stageCount (f : Flight) (j : Nat) : Nat :=
  let st := nth f.stages j {}
  if j + 1 < f.stages.length ∧ handOf st = 2 ∧ st.op = 0x0B then crd st.ext 0 * crd st.ext 1
  else nth f.cnt.stageDone j 0 + (if f.stages.length = 1 then f.cnt.done else 0)

/-- DONE_COUNT of the card (R166, R257, R293, R294): of an aborted BLEND the contributions that its accumulating stages applied, not what
one of them only handed over. -/
def doneCount (f : Flight) : Nat :=
  let n := f.stages.length
  if n ≤ 1 then f.cnt.stageDone.sum + f.cnt.done
  else
    ((List.range n).map (fun j =>
      let st := nth f.stages j {}
      let own := j + 1 == n || noHand st.op || (linkTee st.words && handOf st != 2)
      let counted := own && (!f.cnt.aborted || accumulating st.op st.words)
      if counted then nth f.cnt.stageDone j 0 else 0)).sum

/-- Saturation at 32 bits. -/
def sat32 (n : Nat) : Nat := min 0xFFFFFFFF n

/-- The words of a card (R166), or of a heritage card (R472). -/
def cardWords (heri : Bool) (f : Flight) (clap : Nat) : List Nat :=
  let w0 := clap % 256 * 2 ^ 24 + statusOf f % 256 * 2 ^ 16 + genOf f.words
  let diff := wFld f.words 1 0 8 != f.stream
  let place := f.stream % 256 * 2 ^ 22 + f.ring % 1024 * 2 ^ 12 + f.entry % 4096
  let t := f.tdone.toNat
  if heri then
    [w0, (if lotFailOf f then 2 ^ 31 else 0) + (if diff then 2 ^ 30 else 0) + place, sat32 (doneCount f), t % 2 ^ 32]
  else
    [w0, (if diff then 2 ^ 31 else 0) + place, sat32 (doneCount f), sat32 f.cnt.clamped,
     opOf f.words * 2 ^ 24 + f.press % 256 * 2 ^ 16 + min 64 (prunedOf f),
     (if f.cnt.lotChecked then 2 ^ 31 else 0) + (if lotFailOf f then 2 ^ 30 else 0) + min 0x3FFFFF f.cnt.lotBlocks,
     t % 2 ^ 32, t / 2 ^ 32]

/-- Bytes of a card in the mode in effect. -/
def cardSize (heri : Bool) : Nat := if heri then 16 else 32

/-- The completion ring of a descriptor. -/
def cringOf (f : Flight) : Nat := wFld f.words 1 16 10

/-- The card written at TAIL, and the write-back of the ring's state (R152, R165). -/
def storeCard (s : State) (f : Flight) : State :=
  let c := cringOf f
  let x := getCRing s c
  let heri := heritage s
  let s := trStore s (64 * x.base + cardSize heri * x.pos) ((cardWords heri f x.lap).flatMap (leBytes 4))
  let x := if x.pos + 1 = x.size then { x with tail := 0, clap := if x.lap = 255 then 1 else x.lap + 1 }
    else { x with tail := x.pos + 1, clap := x.lap }
  let s := setCRing s c x
  trStore s (ringOff s (1024 + c) + 4) (leBytes 4 (x.clap * 65536 + x.tail))

/-- The chained entry armed after a card (R171). Word 0 of the target is one 4 B read and one write; where the read meets an uncorrectable
error the rule says nothing: the error is recorded, and the data as read are rewritten with fresh check bits (DESIGN CHOICE, log 97). -/
def chain (s : State) (f : Flight) : State :=
  let w := nth f.words 13 0#32
  let st := statusOf f
  if bitAt w 31 && (bitAt w 30 || st ≤ 0x03) then
    let x := getDRing s (fld w 12 10)
    let j := fld w 0 12 % x.size
    let off := x.off j
    let w0 := wordAt (trBytes s off 4) 0
    let s := recordUes s (whoMatrix 0) (if trUe s off 4 then [trAddr off / 4] else [])
    trStore s off (leBytes 4 (setFld w0 0 16 (x.expects j)).toNat)
  else s

/-! ### Event messages on the cellar door (R170, R371) -/

/-- An event message queued on its module, or on the lowest trained one; dropped where none is trained or its queue of 256
is full. -/
def queueEvt (s : State) (m : Nat) (e : Evt) : State :=
  let pick := if (getMod s m).trained then some m else (List.range 16).find? (fun n => (getMod s n).trained)
  match pick with
  | none => s
  | some n =>
    let x := getMod s n
    if x.evq.length < 256 then setMod s n { x with evq := x.evq ++ [e] }
    else emit (bump s 0xC050 1) { code := 0x1E, kind := 4, unit := n, args := [e.code] }

/-- Whether a card is followed by an event message (R170). -/
def wantsEvt (x : CRing) (f : Flight) : Bool :=
  flagOf f.words 3 || x.evt == 1 || (x.evt == 2 && !(statusOf f ≤ 0x02)) || (x.evt == 3 && x.pos % 16 == 0)

/-- The CARD event message of a card just written; `x` is the ring before it (R371, R472). -/
def cardEvt (s : State) (x : CRing) (f : Flight) (heri : Bool) : State :=
  if wantsEvt x f then
    let card := (cardWords heri f x.lap).flatMap (leBytes 4)
    let body := card ++ List.replicate (32 - card.length) 0#8 ++ leBytes 2 (cringOf f) ++ leBytes 2 x.pos
    queueEvt s x.door { code := 1, body := body ++ List.replicate 28 0#8 }
  else s

/-! ### When a card may be written (R162, R167, R415) -/

/-- Everything that a descriptor sent has been sent, and its multicast blocks are released (R167, R349). A held transaction whose check
has failed is never sent. -/
def allSent (s : State) (id : Nat) : Bool :=
  s.fab.outs.all (fun o => o.fid != id || (o.held && o.dead) || (if o.multicast then o.acked else o.sent || o.acked))

/-- The descriptor of a stream whose card comes next in stream order, once it is finished. -/
def cardReady (s : State) (st : Nat) : Option Flight :=
  match streamFlights s st with
  | f :: _ => if f.phase = .finished ∧ allSent s f.id then some f else none
  | [] => none

/-- The same, where no other stream has a card ready whose descriptor finished before it (R162). -/
def cardNext (s : State) (st : Nat) : Option Flight :=
  (cardReady s st).filter (fun f => (List.range 256).all (fun t => match cardReady s t with
    | some g => decide (f.finish ≤ g.finish)
    | none => true))

/-- The events of a descriptor that has ended: refused accesses (R37) and failed checks (R483). -/
def endEvents (s : State) (f : Flight) : State :=
  let s := match f.cnt.refFirst with
    | some a => evForeign s (if f.press < 64 then whoPress f.press else whoMatrix 0) a f.cnt.refCount
    | none => s
  match f.cnt.failCause with
  | some k => emit s { code := 0x20, kind := 1, unit := f.press % 64,
                       args := [f.ring % 1024 * 4096 + f.entry % 4096, k, f.cnt.failPasses] }
  | none => s

/-- CARD_WRITE of a stream (R167): the card, its chain, its event message; the descriptor leaves flight and its pins with
it. -/
def writeCard (s : State) (st : Nat) : State :=
  match cardNext s st with
  | none => s
  | some f =>
    if f.tapped then
      let x := getCRing s (cringOf f)
      let heri := heritage s
      let s := cardEvt (chain (storeCard s f) f) x f heri
      endEvents { s with flights := s.flights.filter (fun g => g.id != f.id) } f
    else s

/-- CARD_WRITE (R167). -/
def execCardWrite (st : Fin 256) (s : State) : Res := .next (writeCard s st.val)

end Sys2Proof.Machine
end

