-- ==== Sys2Proof/Machine/Bonded.lean ====
section
/-!
DEFINITION. Machine/Bonded.lean: the bonded tally: the tap (R414 to R417), write attempts (R418), statements (R423, R424),
checkpoints and restore (R419 to R422).
-/
namespace Sys2Proof.Machine

/-! ### The tap -/

/-- What one stage adds to the counters of its billing domain (R417): candidates and bytes. -/
def stageBill (f : Flight) (j : Nat) : Nat × Nat :=
  let st := nth f.stages j {}
  let n := sat32 (stageCount f j)
  if st.op = 0x19 then (n, 0)
  else if st.op = 0x20 ∨ st.op = 0x21 then (0, ceilDiv (n * fmtBits st.dst.tensor.fmt) 8)
  else (0, 0)

/-- A record counts (R417). -/
def billable (f : Flight) : Bool :=
  let st := statusOf f
  !lotFailOf f && (st ≤ 0x03 || st == 0x0B)

/-- A 64-bit counter raised, saturating (R416). -/
def bump64 (m : SMap Nat) (d n : Nat) : SMap Nat :=
  let v := min (2 ^ 64 - 1) (smGet m d 0 + n)
  if v = 0 then m else smPut m d v

/-- The tap record of a card (R414): its billing domain is STREAM div 4 (R416). -/
def tapRec (f : Flight) (uncorrectable : Bool) : TapRec :=
  let bills := (List.range f.stages.length).map (stageBill f)
  let calls := if bills.any (fun b => b.1 != 0) then 1 else 0
  { domain := f.stream / 4, tdone := f.tdone, uncorrectable := uncorrectable,
    bills := if billable f then some (calls, (bills.map (·.1)).sum, (bills.map (·.2)).sum) else none }

/-- A record taken from the FIFO and counted into its billing domain, or into TAP_UE (R414, R416, R417). -/
def countRecord (t : Tally) (r : TapRec) : Tally :=
  if r.uncorrectable then { t with tapUe := sat32 (t.tapUe + 1) }
  else
    match r.bills with
    | none => t
    | some b =>
      { t with calls := bump64 t.calls r.domain b.1, candidates := bump64 t.candidates r.domain b.2.1,
               bytes := bump64 t.bytes r.domain b.2.2, lastTdone := r.tdone }

/-- `n` tally clocks: each takes one record from the FIFO (R415). -/
def takeRecords (t : Tally) : Nat → Tally
  | 0 => t
  | n + 1 =>
    match t.fifo with
    | [] => t
    | r :: rest => takeRecords (countRecord { t with fifo := rest } r) n

/-- Every record in the FIFO counted, as before a checkpoint (R415). -/
def drainFifo (t : Tally) : Tally := takeRecords t t.fifo.length

/-- Tally clocks among the control clocks up to a number: 100 MHz beside 525 MHz, and half as many in hold-up (R411, log 101). -/
def tallyClocks (t : Tally) (clocks : Nat) : Nat := clocks * (if t.holdup then 2 else 4) / 21

/-- The tally over the last `n` control clocks. -/
def tallyRuns (s : State) (n : Nat) : State :=
  { s with tally := takeRecords s.tally (tallyClocks s.tally s.time.clocks - tallyClocks s.tally (s.time.clocks - n)) }

/-- TAP_RECORD: the record of the stream's next card is accepted into the FIFO of 64, where there is room; the card write follows on the
next control clock, whose time it carries (R414, R415). -/
def tapRecord (s : State) (st : Nat) (uncorrectable : Bool) : State :=
  match cardNext s st with
  | none => s
  | some f =>
    if s.tally.inService && s.tally.tapOpen && !f.tapped && s.tally.fifo.length < 64 then
      let f := { f with tapped := true, tdone := (countClock s).time.ftime }
      { setFlight s f with tally := { s.tally with records := s.tally.records + 1, fifo := s.tally.fifo ++ [tapRec f uncorrectable] } }
    else s

/-- Cards that wait for the tap. -/
def cardsWaiting (s : State) : Nat :=
  ((List.range 256).filter (fun st => match cardReady s st with
    | some f => !f.tapped
    | none => false)).length

/-- TALLY_WAIT: cards have waited 1 ms for a tally that is not in service (R415, R483). -/
def tallyWait (s : State) : State :=
  if s.tally.inService || cardsWaiting s == 0 then s
  else emit s { code := 0x0B, args := [(tallyRead s 4).toNat, cardsWaiting s] }

/-- A write into the TALLY window is ignored and counted (R418). -/
def tallyAttempt (s : State) : State :=
  if s.tally.inService then
    { s with tally := { s.tally with writeAttempts := sat32 (s.tally.writeAttempts + 1) } }
  else s

/-! ### Statements (R423, R424) -/

/-- Bytes 0x000 to 0x7BB of a statement. -/
def stmtBody (t : Tally) (flags : Nat) : List Byte :=
  leBytes 4 0xB0DED7A1 ++ leBytes 4 0x00010002 ++ leBytes 8 t.lineage.toNat ++ leBytes 8 t.stmtSeq ++ leBytes 8 t.ckptSeq
    ++ leBytes 8 t.ticks ++ leBytes 8 t.lastTdone.toNat ++ leBytes 4 t.writeAttempts ++ leBytes 4 t.tapUe
    ++ leBytes 4 t.ckptLoss ++ leBytes 4 t.flashReject ++ (List.range 8).map Config.tallyKeyId ++ leBytes 8 t.records
    ++ leBytes 4 flags ++ List.replicate 12 0#8
    ++ (List.range 64).flatMap (fun d =>
        leBytes 8 (smGet t.calls d 0) ++ leBytes 8 (smGet t.candidates d 0) ++ leBytes 8 (smGet t.bytes d 0))
    ++ List.replicate 348 0#8

/-- A signed statement of 2,048 bytes. -/
def stmtBytes (t : Tally) (flags : Nat) : List Byte :=
  let b := stmtBody t flags
  let m := b ++ leBytes 4 (crc32c b).toNat
  m ++ (List.range 64).map (fun i => nth (Config.tallySign m) i 0#8)

/-- A statement signed into the buffer that does not hold the newest complete one; the first after a restore takes either
(log 39). -/
def putStatement (draw : Nat) (t : Tally) (bs : List Byte) : Tally :=
  let toB := if t.bufA.isEmpty && t.bufB.isEmpty then Config.freeBool draw else !t.cur
  if toB then { t with bufB := bs, cur := true } else { t with bufA := bs, cur := false }

/-- STATEMENT: every 1 s of tally clock (R423). -/
def statement (s : State) : State :=
  if s.tally.inService then
    let t := { s.tally with stmtSeq := s.tally.stmtSeq + 1, ticks := s.tally.ticks + 100000000 }
    { drawn s with tally := putStatement s.draw t (stmtBytes t 0) }
  else s

/-! ### Checkpoints (R419 to R421) -/

/-- The slot written next, with the erase that the first slot of a sector starts (R419). -/
def writeSlot (t : Tally) (bs : List Byte) : Tally :=
  let j := t.nextSlot % 1024
  let k := (j / 32 + 1) % 32
  let fl := if j % 32 = 0 then t.flash.filter (fun e => e.1 / 32 != k) else t.flash
  { t with flash := smPut fl j bs, nextSlot := (j + 1) % 1024 }

/-- A checkpoint: the FIFO drained (R415), and the next statement with its flags in the next slot and in the spare buffer (R419, R423). -/
def checkpoint (draw : Nat) (t : Tally) (flags : Nat) : Tally :=
  let t := drainFifo t
  let t := { t with stmtSeq := t.stmtSeq + 1, ckptSeq := t.ckptSeq + 1 }
  let bs := stmtBytes t flags
  putStatement draw (writeSlot t bs) bs

/-- PERIODIC_CHECKPOINT (R419). -/
def periodic (s : State) : State :=
  if s.tally.inService && s.tally.tapOpen then { drawn s with tally := checkpoint s.draw s.tally 1 } else s

/-- FINAL_CHECKPOINT (R420): the tap closes, and the tally writes its final record and leaves service. A record that does
not complete leaves its slot with free contents (R421). -/
def finalCheckpoint (s : State) (completes : Bool) : State :=
  if s.tally.inService && s.tally.tapOpen then
    let t := { s.tally with tapOpen := false, ticks := s.tally.ticks + Config.freeKey s.draw % 100000000 }
    let t := drainFifo t
    let t := if completes then checkpoint s.draw t 3 else writeSlot t (Config.cutOffSlot s.draw)
    { drawn s with tally := { t with inService := false } }
  else s

/-! ### Restore (R422) -/

/-- A field of a record. -/
def recNum (bs : List Byte) (o n : Nat) : Nat := leNat ((bs.drop o).take n)

/-- MAGIC, CRC-32C and signature are all valid. -/
def slotValid (bs : List Byte) : Bool :=
  recNum bs 0 4 == 0xB0DED7A1 && wordAt bs 0x7BC == crc32c (bs.take 0x7BC)
    && Config.tallyVerify (bs.take 0x7C0) ((bs.drop 0x7C0).take 64)

/-- The valid record with the highest CKPT_SEQ, as (slot, bytes). -/
def bestSlot : SMap (List Byte) → Option (Nat × List Byte)
  | [] => none
  | e :: r =>
    match bestSlot r with
    | none => if slotValid e.2 then some e else none
    | some b => if slotValid e.2 && recNum b.2 0x18 8 < recNum e.2 0x18 8 then some e else some b

/-- The first erased slot from `j` on. -/
def erasedFrom (fl : SMap (List Byte)) (j : Nat) : Nat :=
  (((List.range 1024).map (fun i => (j + i) % 1024)).find? (fun k => !smHas fl k)).getD (j % 1024)

/-- The counters of a record. -/
def recCounters (bs : List Byte) (i : Nat) : SMap Nat :=
  (List.range 64).filterMap (fun d =>
    let v := recNum bs (0x60 + 24 * d + 8 * i) 8
    if v = 0 then none else some (d, v))

/-- The tally after TALLY_RESTORE. -/
def restored (draw : Nat) (t : Tally) : Tally :=
  let rejects := (t.flash.filter (fun e => !slotValid e.2)).length
  let headers := (t.flash.filter (fun e => recNum e.2 0 4 == 0xB0DED7A1)).map (fun e => recNum e.2 0x18 8)
  match bestSlot t.flash with
  | some (j, bs) =>
    let final := recNum bs 0x50 4 / 2 % 2 == 1
    { inService := true, tapOpen := true, holdup := t.holdup, lossSeen := !final,
      lineage := BitVec.ofNat 64 (recNum bs 8 8), stmtSeq := recNum bs 0x10 8,
      ckptSeq := headers.foldl max (recNum bs 0x18 8), lastTdone := BitVec.ofNat 64 (recNum bs 0x28 8),
      writeAttempts := recNum bs 0x30 4, tapUe := recNum bs 0x34 4,
      ckptLoss := sat32 (recNum bs 0x38 4 + (if final then 0 else 1)), flashReject := sat32 (recNum bs 0x3C 4 + rejects),
      records := recNum bs 0x48 8, calls := recCounters bs 0, candidates := recCounters bs 1, bytes := recCounters bs 2,
      nextSlot := erasedFrom t.flash (j + 1), flash := t.flash }
  | none =>
    { inService := true, tapOpen := true, holdup := t.holdup, newLineage := true, lineage := Config.tallyEntropy draw,
      ckptSeq := headers.foldl max 0, flashReject := rejects, nextSlot := erasedFrom t.flash 0, flash := t.flash }

/-- TALLY_RESTORE (R422). -/
def tallyRestore (s : State) : State :=
  if s.tally.inService then s else { drawn s with tally := restored s.draw s.tally }

/-! ### The commands -/

/-- TAP_RECORD (R415). -/
def execTapRecord (st : Fin 256) (uncorrectable : Bool) (s : State) : Res := .next (tapRecord s st.val uncorrectable)
/-- PERIODIC_CHECKPOINT (R419). -/
def execPeriodicCheckpoint (s : State) : Res := .next (periodic s)
/-- STATEMENT (R423). -/
def execStatement (s : State) : Res := .next (statement s)
/-- FINAL_CHECKPOINT (R420). -/
def execFinalCheckpoint (completes : Bool) (s : State) : Res := .next (finalCheckpoint s completes)
/-- TALLY_RESTORE (R422). -/
def execTallyRestore (s : State) : Res := .next (tallyRestore s)
/-- TALLY_HOLDUP (R493, R428). -/
def execTallyHoldup (s : State) : Res := .next { s with tally := { s.tally with holdup := true } }
/-- REFCLK_RESTORED: the tally leaves its internal oscillator. -/
def execRefclkRestored (s : State) : Res := .next { s with tally := { s.tally with holdup := false } }
/-- TALLY_WRITE_ATTEMPT (R418). -/
def execTallyWriteAttempt (_src : Source) (_off : BitVec 16) (s : State) : Res := .next (tallyAttempt s)
/-- TALLY_WAIT (R415). -/
def execTallyWait (s : State) : Res := .next (tallyWait s)

end Sys2Proof.Machine
end

