-- ==== Sys2Proof/Machine/Cooper.lean ====
section
/-!
DEFINITION. Machine/Cooper.lean: the cooper: commands (R394), marches (R395, R396), rotation (R397), stress tasting (R398
to R402) and remap copies (R392).
-/
namespace Sys2Proof.Machine

/-! ### The tasting set (R400, R401) -/

/-- COOP.ROT_CFG.TBIN and the first byte of the tasting bin. -/
def tbin (s : State) : Nat := rfld s 0xE00C 8 6
def tbinBase (s : State) : Nat := tbin s * 0x4000000
/-- `n` bytes of the tasting bin from an offset. -/
def setBytes (s : State) (o n : Nat) : List Byte := localBytes s (tbinBase s + o) n
/-- NPAT of the set header. -/
def setNpat (s : State) : Nat := fld (wordAt (setBytes s 4 4) 0) 0 9
/-- The pattern entries, 32 bytes each. -/
def setEntries (s : State) : List (List Byte) := (List.range (setNpat s)).map (fun i => setBytes s (64 + 32 * i) 32)
/-- Fields of a pattern entry. -/
def entFld (e : List Byte) (w lo width : Nat) : Nat := fld (wordAt e (4 * w)) lo width
/-- The ranges of an entry as (offset, bytes): operand A, operand B and the reference. -/
def entRanges (e : List Byte) : List (Nat × Nat) :=
  [(entFld e 1 6 26 * 64, entFld e 4 0 16), (entFld e 2 6 26 * 64, entFld e 5 0 16), (entFld e 3 6 26 * 64, entFld e 4 16 16)]
/-- An entry whose reference the block computes. -/
def entComputed (e : List Byte) : Bool := entFld e 0 4 1 == 0

/-- Whether the tasting set is valid (R401). -/
def setValidR (s : State) : Bool :=
  let hd := setBytes s 0 64
  let es := setEntries s
  let sum := (es.map (fun e => ((entRanges e).map (·.2)).sum)).sum
  rbit s 0xE00C 14 && binOwner s (tbin s) == 15 && !destroying s (tbin s)
    && wordAt hd 0 == 0x7A57E5E7#32 && fld (wordAt hd 4) 16 16 == 1
    && decide (1 ≤ setNpat s ∧ setNpat s ≤ 256)
    && wordAt hd 60 == crc32c (hd.take 60 ++ es.flatten)
    && (wordAt hd 8).toNat == sum && decide (sum ≤ 65536)
    && es.all (fun e => (entRanges e).all (fun r => decide (r.1 + r.2 ≤ 0x4000000)))
    && es.all (fun e => !entComputed e
        || entFld e 0 24 8 == 1 || (entFld e 0 24 8 == 2 && entFld e 0 6 2 != 3))

/-- A 32 × 32 LIN UINT32 tile at a local address (R401). -/
def tasteTile (s : State) (a : Nat) : LRec :=
  { words := [BitVec.ofNat 32 (3 * 4096 + 0x11), 0, 0, 32, 32, 1, 1, 8, 0, 0, BitVec.ofNat 32 (a % 2 ^ 32),
              BitVec.ofNat 32 (nodeId s * 65536 + a / 2 ^ 32), 0, 0, 0, 0] }

/-- One computed reference formed on the slow strided path (R401). -/
def formRef (s : State) (e : List Byte) : State :=
  if entComputed e then
    let a := tasteTile s (tbinBase s + entFld e 1 6 26 * 64)
    let b := tasteTile s (tbinBase s + entFld e 3 6 26 * 64)
    let pm := if entFld e 0 24 8 = 1 then permOf 0xE1 else [0, 1, 2, 3]
    (slowCopy (fun s _ _ => s) s pm a b [0, 0, 0, 0] [0, 0, 0, 0] [32, 32, 1, 1]).1
  else s

/-- The references formed at the first tasting after an image load, and the set copied into the tasting buffer (R401). -/
def loadBuffer (s : State) : State :=
  let s := if s.coop.refsFormed then s
    else
      let s := (setEntries s).foldl formRef s
      { s with coop := { s.coop with refsFormed := true } }
  let es := setEntries s
  let body := es.flatMap (fun e => (entRanges e).flatMap (fun r => setBytes s r.1 r.2))
  { s with coop := { s.coop with buffer := setBytes s 0 64 ++ es.flatten ++ body } }

/-! ### Commands (R394) -/

/-- COOP.STATUS.REJECT set. -/
def coopReject (s : State) : State := rsetBit s 0xE004 11 true

/-- A command refused at acceptance: REJECT and a COOP_REFUSED event. -/
def coopRefuse (s : State) (w : Word) : State :=
  emit (coopReject s)
    { code := 0x2A, kind := if fld w 28 4 = 3 then 1 else 2, unit := fld w 0 6, args := [w.toNat] }

/-- A march begins on a bin. -/
def startMarch (s : State) (op bin : Nat) : State :=
  { s with coop := { s.coop with busy := true, op := op, target := bin } }

/-- A tasting becomes pending (R398). -/
def startTaste (s : State) (p : Nat) : State :=
  loadBuffer { s with coop := { s.coop with pending := some p } }

/-- A bin being copied for a remap. -/
def remapping (s : State) (m : Nat) : Bool :=
  (s.coop.remap.map (·.1)) == some m || s.coop.remapDone.any (fun e => e.1 == m)

/-- A write of COOP.CMD (R394). An accepted command is what a read returns (R407). -/
def coopCommand (s : State) (w : Word) : State :=
  let cmd := fld w 28 4
  let t := fld w 0 6
  if s.coop.busy || s.coop.pending.isSome || s.coop.tasting.isSome then coopReject s
  else if cmd = 1 then
    if binOwner s t ≠ 15 then coopRefuse s w
    else startMarch (rset s 0xE000 w) 1 t
  else if cmd = 2 then
    if remapping s t then coopRefuse s w else startMarch (rset s 0xE000 w) 2 t
  else if cmd = 3 then
    if isCorked s t || !setValidR s then coopRefuse s w else startTaste (rset s 0xE000 w) t
  else coopReject s

/-! ### Marches -/

/-- The storage of a bin after a destroy-mode march: every word zero with valid check bits, the sideband unchecked (R395,
R378). -/
def clearBin (s : State) (m : Nat) : State :=
  let k := binKey s m
  let out := fun (a : Nat) => decide (a < k) || decide (k + 0x4000000 ≤ a)
  let x := s.mem
  setMem s { cells := x.cells.filter (fun c => out c.1),
             ueWords := x.ueWords.filter (fun w => out (4 * w)),
             ceWords := x.ceWords.filter (fun w => out (4 * w)),
             sideband := x.sideband.filter (fun b => out (2048 * b.1)),
             sbUe := x.sbUe.filter (fun b => out (2048 * b)) }

/-- A preserve-mode march over the first `rows` rows of a bin (R396): single-bit errors scrubbed, each uncorrectable word counted and
left with its line. -/
def scrubBin (s : State) (m rows : Nat) : State :=
  let k := binKey s m
  let inside := fun (w : Nat) => decide (k ≤ 4 * w) && decide (4 * w < k + 2048 * rows)
  let ues := s.mem.ueWords.filter inside
  let lines := (ues.map (· / 16)).eraseDups
  let kept := fun (w : Nat) => !inside w || lines.contains (w / 16)
  let s := countCe s k (2048 * rows)
  let s := setMem s { s.mem with ceWords := s.mem.ceWords.filter kept }
  recordUes s (whoMatrix 4) ues

/-- The cooper is idle again. -/
def coopIdle (s : State) : State :=
  { s with coop := { s.coop with busy := false, op := 0, target := 0 } }

/-- MARCH_FAIL (R395, R396, R404): counted, recorded, and the bin fails (R391). -/
def marchFail (s : State) (op m bank row : Nat) : State :=
  let s := emitFault (bump s 0xE048 1) { code := 0x27, kind := 2, unit := m, args := [bank, row, op] }
  failBin s m 0

/-- A bin that fails during a destroy march is not copied: its march continues on the spare, and decode moves at the first
slot edge after the march ends (R392). -/
def failInDestroy (s : State) (m : Nat) : State :=
  match chooseSpare s m with
  | none => binFailed s m 0
  | some k =>
    let s := emit s { code := 0x23, kind := 2, unit := m, args := [k] }
    let base := spareKey k
    let out := fun (a : Nat) => decide (a < base) || decide (base + 0x4000000 ≤ a)
    let x := s.mem
    let s := setMem s { cells := x.cells.filter (fun c => out c.1), ueWords := x.ueWords.filter (fun w => out (4 * w)),
                        ceWords := x.ceWords.filter (fun w => out (4 * w)),
                        sideband := x.sideband.filter (fun b => out (2048 * b.1)),
                        sbUe := x.sbUe.filter (fun b => out (2048 * b)) }
    { s with coop := { s.coop with remapDone := s.coop.remapDone ++ [(m, k)] } }

/-- MARCH_COMPLETE (R395, R396). A preserve march that finds a mismatch stops there: the rows before it have been scrubbed. -/
def marchDone (s : State) (mismatch : Option (Nat × Nat)) : State :=
  if s.coop.busy && (s.coop.op == 1 || s.coop.op == 2) then
    let m := s.coop.target
    let op := s.coop.op
    if op = 1 then
      let s := coopIdle (clearBin s m)
      match mismatch with
      | none => s
      | some (b, r) =>
        let s := emitFault (bump s 0xE048 1) { code := 0x27, kind := 2, unit := m, args := [32 * m + b, r, 1] }
        failInDestroy s m
    else
      match mismatch with
      | none => coopIdle (scrubBin s m 32768)
      | some (b, r) => marchFail (coopIdle (scrubBin s m r)) 2 m (32 * m + b) r
  else s

/-! ### Remap copies (R392) -/

/-- The copy of a bin into its spare: every byte with its check state, and the sideband. -/
def copyBin (s : State) (src dst : Nat) : State :=
  let x := s.mem
  let out := fun (a : Nat) => decide (a < dst) || decide (dst + 0x4000000 ≤ a)
  let inn := fun (a : Nat) => decide (src ≤ a) && decide (a < src + 0x4000000)
  let mv := fun (a : Nat) => a - src + dst
  let cells := (x.cells.filter (fun c => inn c.1)).foldl (fun l c => cellPut l (mv c.1) c.2) (x.cells.filter (fun c => out c.1))
  let sb := (x.sideband.filter (fun b => inn (2048 * b.1))).foldl (fun l b => smPut l (mv (2048 * b.1) / 2048) b.2)
    (x.sideband.filter (fun b => out (2048 * b.1)))
  setMem s { cells := cells,
             ueWords := (x.ueWords.filter (fun w => inn (4 * w))).map (fun w => mv (4 * w) / 4) ++ x.ueWords.filter (fun w => out (4 * w)),
             ceWords := (x.ceWords.filter (fun w => inn (4 * w))).map (fun w => mv (4 * w) / 4) ++ x.ceWords.filter (fun w => out (4 * w)),
             sideband := sb,
             sbUe := (x.sbUe.filter (fun b => inn (2048 * b))).map (fun b => mv (2048 * b) / 2048) ++ x.sbUe.filter (fun b => out (2048 * b)) }

/-- REMAP_COPY_DONE: the last line has been copied; decode moves at the next slot edge. -/
def remapCopied (s : State) : State :=
  match s.coop.remap with
  | none => s
  | some (m, k) =>
    let s := copyBin s (binKey s m) (spareKey k)
    startRemap { s with coop := { s.coop with remap := none, remapDone := s.coop.remapDone ++ [(m, k)] } }

/-- The move of decode to a spare (R25, R392 steps 3 and 4); the error counts start afresh. -/
def moveOne (s : State) (e : Nat × Nat) : State :=
  let m := e.1
  let k := e.2
  -- writes since the copy have been performed in the spare as well
  let s := copyBin s (binKey s m) (spareKey k)
  let off := 0x2100 + 4 * m
  let s := rsetBit (rsetFld s off 6 2 k) off 8 true
  let s := rsetBit s 0x201C k true
  let s := { s with coop := { s.coop with binUe := smDel s.coop.binUe m } }
  judgeReplace (emitFault s { code := 0x24, kind := 2, unit := m, args := [k] })

/-- The moves of a slot edge; a destroy march of the bin still running holds its move back. -/
def moveDecode (s : State) : State :=
  let due := s.coop.remapDone.filter (fun e => !destroying s e.1)
  due.foldl moveOne { s with coop := { s.coop with remapDone := s.coop.remapDone.filter (fun e => destroying s e.1) } }

/-! ### Rotation (R397) -/

/-- The next press to taste, from `p` on, corked presses skipped. -/
def nextPress (s : State) (p : Nat) : Option Nat :=
  ((List.range 64).map (fun i => (p + i) % 64)).find? (fun q => !isCorked s q)

/-- The next bin to march, from `m` on, bins under a destroy march or a remap skipped. -/
def nextBin (s : State) (m : Nat) : Option Nat :=
  ((List.range 64).map (fun i => (m + i) % 64)).find? (fun b =>
    !destroying s b && !remapping s b && !s.coop.remapQ.any (fun q => q % 64 == b))

def tickSkip (s : State) : State := bump s 0xE04C 1

/-- A rotation step of tasting. -/
def rotTaste (s : State) : State :=
  match nextPress s s.coop.rotPress with
  | none => tickSkip s
  | some p =>
    if setValidR s then
      startTaste { s with coop := { s.coop with rotPress := (p + 1) % 64, nextIsTaste := false } } p
    else
      let s := tickSkip { s with coop := { s.coop with nextIsTaste := false } }
      if s.coop.refusedSeen then s
      else
        emit { s with coop := { s.coop with refusedSeen := true } }
          { code := 0x2A, kind := 1, unit := p, args := [(rget s 0xE000).toNat] }

/-- A rotation step of a preserve march. -/
def rotMarch (s : State) : State :=
  match nextBin s s.coop.rotBin with
  | none => tickSkip s
  | some m =>
    startMarch { s with coop := { s.coop with rotBin := (m + 1) % 64, nextIsTaste := true } } 2 m

/-- The COOP mark of a slot (R397): the kinds alternate, and each is taken only when enabled. -/
def coopTick (s : State) : State :=
  let te := rbit s 0xE00C 31
  let me := rbit s 0xE00C 30
  if s.coop.busy || s.coop.pending.isSome || s.coop.tasting.isSome then tickSkip s
  else if te && (s.coop.nextIsTaste || !me) then rotTaste s
  else if me then rotMarch s
  else s

/-! ### Stress tasting (R398, R399, R402) -/

/-- Entry (r, c) of an operand image in board order; what the image does not reach is zero (R399, R400). -/
def imageEntry (a : List Byte) (r c : Nat) : Word := wordAt a (128 * r + 4 * c)

/-- The 32 column reads of a board, in column order (R400). -/
def columnReads (f : Nat → Nat → Word) : List Byte :=
  (List.range 32).flatMap (fun c => (List.range 32).flatMap (fun r => leBytes 4 (f r c).toNat))

/-- What the run of a pattern entry gives for operand A (R400): a transpose; a turn outside lane-pair mode, whose back board returns the
rows of A (R401); and the crossbar sweep. The results of the other kinds come with TASTE_COMPLETE (log 102). -/
def patternResult (e a : List Byte) : Option (List Byte) :=
  if entFld e 0 24 8 = 1 then some (columnReads (imageEntry a))
  else if entFld e 0 24 8 = 2 ∧ entFld e 0 6 2 ≠ 3 then some (columnReads (fun r c => imageEntry a c r))
  else if entFld e 0 24 8 = 3 then some (columnReads (fun r c => imageEntry a r ((c + 32 - r) % 32)))
  else none

/-- The entries of the tasting buffer with their operand A and reference, from offset `o` of its operand images on. -/
def bufferRuns (b : List Byte) (o : Nat) : List (List Byte) → List (List Byte × List Byte × List Byte)
  | [] => []
  | e :: rest =>
    let na := entFld e 4 0 16
    let nb := entFld e 5 0 16
    let nr := entFld e 4 16 16
    (e, (b.drop o).take na, (b.drop (o + na + nb)).take nr) :: bufferRuns b (o + na + nb + nr) rest

/-- A kind that is run, not skipped (R400). -/
def runsKind (e : List Byte) : Bool := decide (1 ≤ entFld e 0 24 8 ∧ entFld e 0 24 8 ≤ 5)

/-- A result that differs from its reference, among the entries that the Test step has run: at least the first, and how many more is
free (R401, log 102). -/
def patternFails (draw : Nat) (b : List Byte) : Bool :=
  let n := fld (wordAt b 4) 0 9
  let es := (List.range n).map (fun i => (b.drop (64 + 32 * i)).take 32)
  let runs := ((bufferRuns b (64 + 32 * n) es).filter (fun x => runsKind x.1)).take (1 + Config.freeKey draw)
  runs.any (fun x =>
    match patternResult x.1 x.2.1 with
    | some y => y.take x.2.2.length != x.2.2.take y.length
    | none => false)

/-- The boards and vat of a press cleared. -/
def clearPress (x : Press) : Press := { x with front := {}, back := {}, vat := [] }

/-- STRESS_ENTER: on the control clock of a slot edge at which the pending press is IDLE and holds no frame. -/
def stressEnter (s : State) : State :=
  match s.coop.pending with
  | none => s
  | some p =>
    let x := getPress s p
    if s.time.atEdge && x.state == .idle && x.saved.isNone && !isCorked s p then
      let s := setPress s p { (clearPress x) with state := .stress }
      { s with coop := { s.coop with pending := none, tasting := some p, busy := true, op := 3, target := p } }
    else s

/-- TASTE_COMPLETE (R402): `fails` is what the press itself shows, beside the results that differ from their references. The CORKED
event's cause is free: no failure of R385 stands behind it (log 38). -/
def tasteDone (s : State) (fails : Bool) : State :=
  match s.coop.tasting with
  | none => s
  | some p =>
    let fails := fails || patternFails s.draw s.coop.buffer
    let s := coopIdle { drawn s with coop := { s.coop with tasting := none } }
    let s := setPress s p (clearPress (getPress s p))
    let w : Word := BitVec.ofNat 32 (p + (if fails then 2 ^ 31 else 0))
    let s := rset (bump s (if fails then 0xE044 else 0xE040) 1) 0xE014 w
    let ev : Event := { code := 0x28, kind := 1, unit := p, args := [w.toNat] }
    let s := if fails then emitFault s ev else emit s ev
    if fails && !rbit s 0xE008 31 then cork (drawn s) p (Config.freeKey s.draw % 2 ^ 32)
    else { s with coop := { s.coop with returning := some p } }

/-- The return of a tasted press at a slot edge (R399). -/
def tasteReturn (s : State) : State :=
  match s.coop.returning with
  | none => s
  | some p =>
    let s := { s with coop := { s.coop with returning := none } }
    let x := getPress s p
    if x.state == .stress then setPress s p { x with state := .idle } else s

/-! ### The commands -/

/-- MARCH_COMPLETE (R395). -/
def execMarchComplete (mismatch : Option (Fin 32 × BitVec 15)) (s : State) : Host.Outcome State Fault Refusal :=
  .next (marchDone s (mismatch.map (fun e => (e.1.val, e.2.toNat))))
/-- REMAP_COPY_DONE (R392). -/
def execRemapCopyDone (s : State) : Host.Outcome State Fault Refusal := .next (remapCopied s)
/-- STRESS_ENTER (R398). -/
def execStressEnter (s : State) : Host.Outcome State Fault Refusal := .next (stressEnter s)
/-- TASTE_COMPLETE (R402). -/
def execTasteComplete (fails : Bool) (s : State) : Host.Outcome State Fault Refusal := .next (tasteDone s fails)

end Sys2Proof.Machine
end

