-- ==== Sys2Proof/Machine/Ports.lean ====
section
/-!
DEFINITION. Machine/Ports.lean: the link of an optical port (R314 to R320, R452, R503), answers and their handling at the
requester (R199, R334, R339), forwarding (R332, R333) and the moves of a lost port (R334).
-/
namespace Sys2Proof.Machine

/-! ### Responses and acknowledgements at the requester -/

/-- The press that issued a fabric read with a tag (R178): 4,096 tags each. -/
def tagPress (tag : Nat) : Nat := tag / 4096

/-- A READ_RSP of this node's own read (R178, R199, R326): a landed response, a failure, or the response of a retired tag
(R192). Statuses REFUSED and UNMAPPED are not retried. -/
def rspReceived (s : State) (t : Txn) : State :=
  let tag := t.tag.toNat
  let p := tagPress tag
  match outstanding s p tag with
  | some e =>
    if t.code = 0 then settle (landRead s p e t.data t.ident (t.lotM, t.lotP)) p
    else settle (failRead s p e (t.code != 1 && t.code != 2)) p
  | none =>
    let x := getPress s p
    if x.retired.contains tag then setPress s p { x with retired := x.retired.erase tag } else s

/-- A stage may wait for what has just been acknowledged (R283). -/
def settleOwn (s : State) (fid : Nat) : State :=
  match getFlight s fid with
  | none => s
  | some f =>
    match f.phase with
    | .running p => settle s p
    | _ => s

/-- An ACK of this node's own transaction (R339). -/
def ackReceived (s : State) (t : Txn) : State :=
  match outByIdent s t.ident with
  | none => bump s 0x8050 1
  | some o =>
    if o.acked || !o.queued || (o.multicast && (o.waitMask &&& t.mask) == 0) then bump s 0x8050 1
    else if o.multicast then
      let wm := o.waitMask &&& ~~~t.mask
      settleOwn (retireOut (setOut s { o with waitMask := wm, acked := wm == 0,
                                              firstAckEdge := some (o.firstAckEdge.getD s.time.edges) }) o.key) o.fid
    else
      let s :=
        if o.txn.typ = 2 ∧ (t.mask ≠ 0 ∨ t.code = 6) then
          emit (bump s 0x8054 (maskBits t.mask).length)
            { code := 0x18, kind := 6, unit := o.stream,
              args := [o.ident.toNat, t.mask.toNat % 2 ^ 32, t.mask.toNat / 2 ^ 32, o.txn.dnode.toNat] }
        else s
      settleOwn (retireOut (setOut s { o with acked := true }) o.key) o.fid

/-- ACK_TIMEOUT (R339): a transaction sent and not acknowledged counts as acknowledged; a multicast block's remaining
receivers are pruned for it at the next slot edge (R347). -/
def ackTimeout (s : State) (id : Word) : State :=
  match outByIdent s id with
  | none => s
  | some o =>
    if o.sent && !o.acked && !o.late then
      let s := emit (bump s 0x804C 1) { code := 0x19, kind := 6, unit := o.stream, args := [id.toNat, o.txn.dnode.toNat] }
      if o.multicast then setOut s { o with late := true } else settleOwn (retireOut (setOut s { o with acked := true }) o.key) o.fid
    else s

/-! ### Answers on their way -/

/-- An answer to a request (R325, R336): it echoes STREAM and BLOCKID, or TAG. -/
def ackFor (t : Txn) (status : Nat) (mask : BitVec 64) : Txn :=
  { typ := 9, dnode := t.snode, stream := t.stream, ident := t.ident, code := BitVec.ofNat 8 status, mask := mask }
def rspFor (t : Txn) (status : Nat) (vtag : Word) (lot : Word × Word) (data : List Byte) : Txn :=
  { typ := 8, dnode := t.snode, tag := t.tag, lenM1 := t.lenM1, code := BitVec.ofNat 8 status, ident := vtag,
    lotM := lot.1, lotP := lot.2, data := data }
/-- A READ_RSP of zero data. -/
def rspZero (t : Txn) (status : Nat) (vtag : Word) : Txn :=
  rspFor t status vtag sbUnchecked (List.replicate (64 * (t.lenM1.toNat + 1)) 0)

/-- A pool block charged to a port is released with the last copy of its data (R41, R346). -/
def releaseIngress (s : State) (e : TxEntry) : State :=
  match e.ingress with
  | none => s
  | some i =>
    let left := e.txn.typ == 3 && s.fab.ports.any (fun q => (q.2.wait ++ q.2.unacked).any (fun x =>
      x.txn.typ == 3 && x.txn.snode == e.txn.snode && x.txn.ident == e.txn.ident && x.ingress == e.ingress))
    if left then s else dropPool s i.1 i.2

/-- An answer of node `src` (this node or its DOOR_NODE) leaves, or is taken here where the requester is this node. -/
def sendAnswer (s : State) (src : Nat) (t : Txn) (pin : Option Pin) (ingress : Option (Nat × Nat)) : State :=
  let e : TxEntry := { txn := { t with hops := 63, snode := BitVec.ofNat 16 src }, pin := pin, ingress := ingress }
  if t.dnode.toNat = nodeId s then
    let s := releaseIngress s e
    if t.typ = 9 then ackReceived s t else rspReceived s t
  else
    match chooseRoute s e.txn with
    | some n => enqueue s n e
    | none => countUnrouted (releaseIngress s e) 0 t.dnode false

/-- The answer of a READ, WRITE or ATOMIC_ADD that cannot be carried further (R333, R367); other types have none. -/
def answerUnreachable (s : State) (src : Nat) (t : Txn) : State :=
  if t.typ = 0 then sendAnswer s src (rspZero t 3 0) none none
  else if t.typ = 1 then sendAnswer s src (ackFor t 3 0) none none
  else if t.typ = 2 then sendAnswer s src (ackFor t 3 t.mask) none none
  else s

/-- A transaction forwarded with HOPS lowered (R333). The answer says whether it left. -/
def forwardTxn (s : State) (port : Nat) (t : Txn) (ingress : Option (Nat × Nat)) : State × Bool :=
  if t.hops = 0 then (answerUnreachable (countUnrouted s port t.dnode true) (nodeId s) t, false)
  else
    match chooseRoute s t with
    | some n => (enqueue s n { txn := { t with hops := t.hops - 1 }, ingress := ingress }, true)
    | none => (answerUnreachable (countUnrouted s port t.dnode false) (nodeId s) t, false)

/-! ### The moves of a lost port (R334) -/

/-- The receivers that a multicast copy's MASK names. -/
def copyReceivers (s : State) (t : Txn) : List (Nat × Nat) :=
  (maskBits t.mask).map (fun r => (r, groupNode s t.group.toNat r))

/-- A pool block of this node that finds no usable route any more: its descriptor reports FABRIC_UNREACHABLE, and where it was never sent
its elements count no longer (R350). -/
def strandOwn (s : State) (e : TxEntry) (framed : Bool) : State :=
  match e.own.bind (getOut s) with
  | none => s
  | some o =>
    if o.poolBlock then
      updCnt s o.fid (fun c =>
        { c with unreachable := true,
                 stageDone := if framed ∨ o.multicast then c.stageDone else c.stageDone.set o.stage (nth c.stageDone o.stage 0 - o.elems) })
    else s

/-- One transaction of a lost port finds its new port (R332), or is handled as one with no usable route (R333). TIME frames
travel one hop and are dropped. `framed` says that its flits had been sent. -/
def moveTxn (s : State) (n : Nat) (framed : Bool) (e : TxEntry) : State :=
  if e.txn.typ = 6 then s
  else if e.txn.typ = 3 then
    let r := sendMulticast s e.txn (copyReceivers s e.txn) e.ingress e.own
    let s := if r.2.isEmpty then r.1 else releaseIngress r.1 e
    match e.own.bind (getOut s) with
    | none => s
    | some o =>
      let wm := maskOf ((maskBits o.waitMask).filter (fun i => !r.2.contains i))
      let s := if r.2.isEmpty then s else strandOwn s e framed
      retireOut (setOut s { o with waitMask := wm, acked := wm == 0 }) o.key
  else
    match chooseRoute s e.txn with
    | some k => enqueue s k e
    | none =>
      let s := releaseIngress (countUnrouted (strandOwn s e framed) n e.txn.dnode false) e
      answerUnreachable s (nodeId s) e.txn

/-- A port whose two bit streams start anew, as training finds the codeword boundaries again (R316). -/
def Port.restreamed (p : Port) : Port :=
  { p with rxBits := 0, rxHave := 0, rxLane := 0, rxCodes := [], txBits := 0, txHave := 0, txLane := 0 }

/-- A port without anything of its last link: no flit is open and no received byte waits. -/
def Port.unlinked (p : Port) : Port := { p.restreamed with rxBytes := [], rxIn := [], txBuf := [], flits := [], acked := 0, fecUes := [] }

/-- The transactions of port `n` move: unacknowledged ones first, but an ATOMIC_ADD among these is answered LINK_LOST. -/
def movePort (s : State) (n : Nat) : State :=
  let p := getPort s n
  let s := setPort s n { p.unlinked with
    wait := [], unacked := [], replays := 0, owed := [0, 0, 0, 0], kept := [0, 0, 0, 0], nakDue := false }
  let s := p.unacked.foldl
    (fun s e =>
      if e.txn.typ = 2 then
        sendAnswer (releaseIngress s e) (nodeId s) (ackFor e.txn 6 (BitVec.allOnes 64)) none none
      else moveTxn s n true e) s
  p.wait.foldl (fun s e => moveTxn s n false e) s

/-! ### Training, retraining and loss (R317, R320, R452, R503) -/

/-- The credits that a link partner advertises at training (R320). -/
def peerCredits (t : PortUp) : List Nat := [t.vc0.toNat, t.vc1.toNat, t.vc2.toNat, t.vc3.toNat]

/-- The credits that this node advertises for a channel: what the estate image gives, within its range (R320). -/
def advertised (n vc : Nat) : Nat := min 65535 (max (if vc = 1 ∨ vc = 2 then 1024 else 256) (Config.portCredits n vc))

/-- PORT_TRAIN: a port that is not trained trains, once an image has been applied (R443). With no light nothing trains. -/
def portTrained (s : State) (n : Nat) (peer : BitVec 16) (t : PortUp) : State :=
  let p := getPort s n
  let w := t.up &&& ~~~p.dropped
  if loaded s && !p.trained && !p.held && !p.lost && w != 0 then
    let s := sendOut s (.advert n ((List.range 4).map (advertised n)))
    pump (setPort s n { p.unlinked with
      trained := true, everTrained := true, retrain := false, up := w, peer := peer, rxSeq := 0, nakDue := false,
      owed := [0, 0, 0, 0], kept := [0, 0, 0, 0], credits := peerCredits t, replays := 0 }) n
  else s

/-- A retrain begins: the port sends no new flit until it ends (R317). -/
def beginRetrain (s : State) (n : Nat) : State :=
  bump (setPort s n { (getPort s n).restreamed with retrain := true, replays := 0 }) (0x8418 + 32 * n) 1

/-- WAVELENGTH_DROP (R317). -/
def wavelengthDrop (s : State) (n w : Nat) : State :=
  let p := getPort s n
  let b : BitVec 8 := 1#8 <<< w
  if p.trained && !p.held && !p.lost && (p.up &&& b) != 0 then
    beginRetrain (setPort s n { p with up := p.up &&& ~~~b, dropped := p.dropped ||| b }) n
  else s

/-- Every unacknowledged flit sent again, in order and as it was (R317, R319). -/
def replayFlits (s : State) (n : Nat) : State :=
  let l := (getPort s n).flits
  bump (l.foldl (fun s b => layFlit s n b) s) (0x8414 + 32 * n) l.length

/-- RETRAIN_DONE: of the wavelengths still up, those that trained carry the port on, and every unacknowledged flit is
replayed; with none it stays in its retrain (R317). -/
def retrainDone (s : State) (n : Nat) (up : BitVec 8) : State :=
  let p := getPort s n
  if p.retrain && !p.held && !p.lost then
    let w := p.up &&& up
    let p := { p with up := w, dropped := p.dropped ||| (p.up &&& ~~~up) }
    if w = 0 then setPort s n p
    else
      -- credits that came due meanwhile return now
      let s := replayFlits (setPort s n { p with retrain := false }) n
      pump (if p.owed.any (0 < ·) || p.nakDue then answerLink s n else s) n
  else s

/-- PORT_LOST: a retrain has left no wavelength trained for 100 ms (R317, R404). -/
def portLost (s : State) (n : Nat) : State :=
  let p := getPort s n
  if p.retrain && !p.held && !p.lost && p.up == 0 then
    let s := movePort (setPort s n { p with lost := true, trained := false, retrain := false }) n
    judgeReplace (emitFault s { code := 0x26, kind := 3, unit := n, args := [(portStatus s n).toNat] })
  else s

/-- Link reset (R452): the port is held, its transactions move, its lost state and dropped wavelengths are cleared. -/
def linkHold (s : State) (n : Nat) : State :=
  let p := getPort s n
  movePort (setPort s n { p with held := true, trained := false, retrain := false, lost := false, up := 0, dropped := 0 }) n

/-- A port released from link reset trains anew (R452). -/
def linkRelease (s : State) (n : Nat) : State := setPort s n { (getPort s n) with held := false }

/-! ### Flits (R318 to R320) -/

/-- An own transaction has been sent with its last copy, and an ingress block is released with it (R41, R319). -/
def sentOne (s : State) (e : TxEntry) : State :=
  let s := releaseIngress s e
  match e.own.bind (getOut s) with
  | none => s
  | some o =>
    if s.fab.ports.any (fun q => (q.2.wait ++ q.2.unacked).any (fun x => x.own == some o.key)) then s
    else retireOut (setOut s { o with sent := true }) o.key

/-- ACKSEQ and NAK of a received flit (R318, R319). -/
def linkAck (s : State) (n ackseq : Nat) (nak : Bool) : State :=
  let p := getPort s n
  let total := p.formed
  let next := p.acked + (ackseq + 1 + 4096 - p.acked % 4096) % 4096
  let ok := next ≤ total
  let acked := if ok then next else p.acked
  let done := p.unacked.filter (fun e => e.lastFlit < acked)
  let s := setPort s n { p with acked := acked, flits := p.flits.drop (acked - p.acked), unacked := p.unacked.filter (fun e => !(e.lastFlit < acked)),
                                replays := if p.acked < acked then 0 else p.replays }
  let s := done.foldl sentOne s
  if nak && acked < total then
    let p := getPort s n
    if p.replays + 1 < 8 then replayFlits (setPort s n { p with replays := p.replays + 1 }) n
    else beginRetrain (replayFlits s n) n
  else s

/-- A flit with a wrong CRC or out of order is NAKed (R319). -/
def nakFlit (s : State) (n : Nat) : State := answerLink (setPort s n { (getPort s n) with nakDue := true }) n

/-- A flit accepted in order, with its acknowledgement, its credits and its transaction bytes; transactions that these complete wait to be
taken (R318 to R320). -/
def flitReceived (s : State) (n : Nat) (bs : List Byte) : State :=
  let p := getPort s n
  if usable s n then
    if bs.length ≠ 256 ∨ wordAt bs 252 ≠ crc32c (bs.take 252) then nakFlit (bump s (0x8410 + 32 * n) 1) n
    else if leNat ((bs.drop 240).take 2) % 4096 ≠ p.rxSeq.toNat then nakFlit s n
    else
      let cr := leNat ((bs.drop 244).take 6)
      let body := bs.take 240
      let rx := p.rxBytes ++ body
      let got := splitTxns rx rx.length
      let idle := body.all (· == 0#8) && p.rxBytes.isEmpty
      let a := leNat ((bs.drop 242).take 2)
      let s := setPort s n { p with
        rxSeq := p.rxSeq + 1,
        credits := (List.range 4).map (fun v => nth p.credits v 0 + cr / 4096 ^ v % 4096),
        rxBytes := got.2, rxIn := p.rxIn ++ got.1 }
      let s := linkAck s n (a % 4096) (a / 4096 % 2 == 1)
      pump (if idle then s else answerLink s n) n
  else s

/-! ### Codewords received (R316, R317) -/

/-- The flits of the received bits, each handled in turn; `fuel` bounds them. -/
def cutFlits (s : State) (n : Nat) : Nat → State
  | 0 => s
  | k + 1 =>
    let p := getPort s n
    if p.rxHave < 2048 then s
    else
      let s := setPort s n { p with rxBits := p.rxBits / 2 ^ 2048, rxHave := p.rxHave - 2048 }
      cutFlits (flitReceived s n (leBytes 256 (p.rxBits % 2 ^ 2048))) n k

/-- Codeword payloads whose wavelength's turn has come, laid behind the bits already received; `fuel` bounds them. -/
def takeTurns (s : State) (n : Nat) : Nat → State
  | 0 => s
  | k + 1 =>
    let p := getPort s n
    let up := lanesUp p.up
    let w := nth up (p.rxLane % up.length) 0
    match smGet p.rxCodes w [] with
    | [] => s
    | v :: rest =>
      let p := { p with rxCodes := smPut p.rxCodes w rest, rxLane := p.rxLane + 1, rxBits := p.rxBits + v * 2 ^ p.rxHave,
                        rxHave := p.rxHave + 5140 }
      takeTurns (cutFlits (setPort s n p) n 4) n k

/-- A wavelength that has delivered more than 16 uncorrectable codewords in 1 ms is dropped (R317). -/
def feedUe (s : State) (n w : Nat) : State :=
  let p := getPort s n
  let now := s.time.clocks
  let l := (p.fecUes.filter (fun e => now - e.2 < holdClocks)) ++ [(w, now)]
  let s := setPort (bump s (0x840C + 32 * n) 1) n { p with fecUes := l }
  if 16 < (l.filter (·.1 == w)).length then wavelengthDrop s n w else s

/-- A codeword received on a wavelength (R316): corrected or not, its payload goes on in the wavelength's turn. -/
def codewordReceived (s : State) (n w : Nat) (symbols : List Nat) : State :=
  let p := getPort s n
  if usable s n && p.up.getLsbD w then
    let r := (List.range 544).map (fun i => nth symbols i 0)
    let d := rsDecode r
    let v := symbolsPayload ((d.map (·.1)).getD r)
    let s := setPort s n { p with rxCodes := smPut p.rxCodes w (smGet p.rxCodes w [] ++ [v]) }
    let s := takeTurns s n ((p.rxCodes.map (·.2.length)).sum + 1)
    match d with
    | some e => if e.2 = 0 then s else bump s (0x8408 + 32 * n) 1
    | none => feedUe s n w
  else s

/-! ### The commands -/

/-- FLIT (R319): what the port receives, a flit or the codewords that carry flits (R316). -/
def execFlit (port : Fin 48) (rx : LinkIn) (s : State) : Res :=
  .next (match rx with
    | .flit bytes => flitReceived s port.val bytes
    | .codeword w symbols => codewordReceived s port.val w.val (symbols.map (·.toNat)))
/-- WAVELENGTH_DROP (R317). -/
def execWavelengthDrop (port : Fin 48) (wavelength : Fin 8) (s : State) : Res :=
  .next (wavelengthDrop s port.val wavelength.val)
/-- RETRAIN_DONE (R317). -/
def execRetrainDone (port : Fin 48) (up : BitVec 8) (s : State) : Res := .next (retrainDone s port.val up)
/-- PORT_LOST (R317). -/
def execPortLost (port : Fin 48) (s : State) : Res := .next (portLost s port.val)
/-- PORT_TRAIN (R443, R452, R503). -/
def execPortTrain (port : Fin 48) (peer : BitVec 16) (up : PortUp) (s : State) : Res :=
  .next (portTrained s port.val peer up)
/-- ACK_TIMEOUT (R339). -/
def execAckTimeout (blockId : Word) (s : State) : Res := .next (ackTimeout s blockId)

end Sys2Proof.Machine
end

