-- ==== Sys2Proof/Machine/Regs.lean ====
section
/-!
DEFINITION. Machine/Regs.lean: register accesses (R7 to R9, R460 to R466): reads with their shadows, writes with the effect
of each access code, REGS entries of the estate image, and the staged values of a slot edge (R130, R38).
-/
namespace Sys2Proof.Machine

/-! ### Sources and shadows (R462) -/

/-- The shadow of a source: one for each matrix master, one for each door module, one for all fabric requesters. -/
def srcKey : Source → Nat
  | .cellarMaster => 0
  | .bootLoader => 1
  | .agent => 2
  | .cooper => 4
  | .door m => 16 + m.val
  | .fabric _ _ => 32

/-- The control-matrix master that a source is, if any. -/
def srcMaster : Source → Option Nat
  | .cellarMaster => some 0
  | .bootLoader => some 1
  | .agent => some 2
  | .cooper => some 4
  | _ => none

/-- The _LO word of a 64-bit register value (R9): FTIME, PRESS_RESET, EPOCH, CORKED, PRUNE, and LINEAGE and STMT_SEQ of the
tally (R427). -/
def isLo (off : Nat) : Bool :=
  off == 0x0008 || off == 0x0028 || off == 0x1020 || off == 0xD014 || off == 0x10020 || off == 0x10028
    || (0x9000 ≤ off && off < 0xA000 && off % 16 == 0)

/-- The shadow list without the one of a source's register. -/
def dropShadow (l : List ((Nat × Nat) × Word)) (k : Nat × Nat) : List ((Nat × Nat) × Word) := l.filter (fun e => e.1 != k)

/-- A register read (R460): a _LO word latches the shadow of its _HI word, and the next read of that _HI returns it. -/
def regRead (s : State) (src : Source) (off : Nat) : State × Word :=
  let off := off / 4 * 4
  let k := srcKey src
  let setSh := fun (l : List ((Nat × Nat) × Word)) => { s with regs := { s.regs with shadows := l } }
  if isLo off then
    (setSh (((k, off + 4), regLive s (off + 4)) :: dropShadow s.regs.shadows (k, off + 4)), regLive s off)
  else
    match s.regs.shadows.find? (fun e => e.1 == (k, off)) with
    | some e => (setSh (dropShadow s.regs.shadows (k, off)), e.2)
    | none => (s, regLive s off)

/-! ### Writes -/

/-- `a` with the bits of a mask taken from `b`. -/
def takeBits (a b : Word) (mask : Nat) : Word :=
  let m : Word := BitVec.ofNat 32 mask
  (a &&& ~~~m) ||| (b &&& m)

/-- A count field cleared by a write of all ones to it (R461). -/
def clearCounts (w v : Word) (cnt : List (Nat × Nat)) : Word :=
  cnt.foldl (fun w c => if fld v c.1 c.2 = 2 ^ c.2 - 1 then setFld w c.1 c.2 0 else w) w

/-- The value in effect after the RW and W1C fields of a row have taken a write. -/
def rowWritten (r : RegRow) (w v : Word) : Word :=
  clearCounts (takeBits w v r.rw &&& ~~~(v &&& BitVec.ofNat 32 r.w1c)) v r.cnt

/-- What the control clock of a write has set stays set although the write clears it: a W1C bit reads 1 (R7), and a count keeps what
the clock has added (R142). -/
def keepSame (r : RegRow) (before now after : Word) : Word :=
  r.cnt.foldl
    (fun w c => if fld after c.1 c.2 = 0 then setFld w c.1 c.2 (fld now c.1 c.2 - fld before c.1 c.2) else w)
    (after ||| (now &&& ~~~before &&& BitVec.ofNat 32 r.w1c))

/-- The value in effect after a write of a row by an access: one that falls on a control clock whose start is known keeps what that
clock has set. -/
def rowAfter (s : State) (r : RegRow) (off : Nat) (v : Word) : Word :=
  let w := rowWritten r (rget s off) v
  match s.regs.before with
  | none => w
  | some b => keepSame r (smGet b off (resetVal off)) (rget s off) w

/-- The RWS fields of a row take a write as pending (R7). -/
def stage (s : State) (off : Nat) (v : Word) (mask : Nat) : State :=
  if mask = 0 then s
  else
    { s with regs := { s.regs with
        staged := smPut s.regs.staged off (takeBits (smGet s.regs.staged off 0) v mask),
        stagedMask := smPut s.regs.stagedMask off (smGet s.regs.stagedMask off 0 ||| BitVec.ofNat 32 mask) } }

/-- A write that would change a reserved bit, which reads 0, leaves the manual's bounds (R8): the bits are ignored, and the
state remembers it (log 3). -/
def noteReserved (s : State) (r : RegRow) (v : Word) : State :=
  if v &&& r.rsv = 0 then s else { s with outside := true }

/-- Ports whose link-reset bit rises or falls with a write of LINK_RESET_LO or LINK_RESET_HI (R452). -/
def linkResets (s : State) (off : Nat) (old new : Word) : State :=
  let base := if off = 0x30 then 0 else 32
  let n := if off = 0x30 then 32 else 16
  (List.range n).foldl
    (fun s i =>
      if bitAt new i && !bitAt old i then linkHold s (base + i)
      else if bitAt old i && !bitAt new i then linkRelease s (base + i)
      else s) s

/-- A write of one register word, without the start of a door boot. Writes into the TALLY window are attempts (R418), and
reserved offsets ignore writes (R467). `key` is the source of a held CAL.EPOCH_LO (R463). -/
def regWriteCore (key : Nat) (s : State) (off : Nat) (v : Word) : State :=
  let off := off / 4 * 4
  if 0x10000 ≤ off then (if off < 0x20000 then tallyAttempt s else s)
  else
    match regRow off with
    | none => s
    | some r =>
      let s := noteReserved s r v
      let keep := v &&& ~~~r.rsv
      if off = 0x01D4 then vcmdPush s keep
      else if off = 0xE000 then coopCommand s keep
      else if off = 0x0030 ∨ off = 0x0034 then
        let old := rget s off
        linkResets (rset s off keep) off old keep
      else if off = 0x1020 then { s with regs := { s.regs with heldLo := smPut s.regs.heldLo key v } }
      else if off = 0x1024 then
        let s := rset s off v
        if smHas s.regs.heldLo key then
          let lo := smGet s.regs.heldLo key 0
          { (rset s 0x1020 lo) with regs := { (rset s 0x1020 lo).regs with heldLo := smDel s.regs.heldLo key } }
        else s
      else if r.rw = 0 ∧ r.w1c = 0 ∧ r.cnt = [] then stage s off v r.rws
      else stage (rset s off (rowAfter s r off v)) off v r.rws

/-- A REGS entry of the estate image (R434, R463, R465): RW, RWS and image-written fields take the value at once. -/
def imageWrite (s : State) (off : Nat) (v : Word) : State :=
  let off := off / 4 * 4
  if 0x10000 ≤ off then (if off < 0x20000 then tallyAttempt s else s)
  else
    match regRow off with
    | none => s
    | some r =>
      let old := lambda s
      if off = 0x01D4 ∨ off = 0xE000 ∨ off = 0x0030 ∨ off = 0x0034 then regWriteCore 1 s off v
      else
        let s := noteReserved s r v
        let s := rset s off (takeBits (rowWritten r (rget s off) v) v (r.rws ||| r.img))
        if off = 0x1008 then takeRole (if lambda s = old then s else planEdge s) else s

/-! ### The staged values of a slot edge (R130) -/

/-- The part of a pending value that may take effect at this edge: a held OWNER, and that of a pool bin, stays pending (R38, R56). -/
def dueMask (s : State) (off : Nat) (mask : Word) : Word :=
  if 0x2100 ≤ off ∧ off < 0x2200 then
    let m := (off - 0x2100) / 4
    if rbit s off 9 || vintageHolds s m || destroying s m then mask &&& ~~~0xF#32 else mask
  else mask

/-- One staged register applied. -/
def applyOne (s : State) (off : Nat) : State :=
  let mask := smGet s.regs.stagedMask off 0
  let due := dueMask s off mask
  let v := smGet s.regs.staged off 0
  let left := mask &&& ~~~due
  let s := rset s off (takeBits (rget s off) v due.toNat)
  if left = 0 then
    { s with regs := { s.regs with staged := smDel s.regs.staged off, stagedMask := smDel s.regs.stagedMask off } }
  else { s with regs := { s.regs with stagedMask := smPut s.regs.stagedMask off left } }

/-- Every staged value applied (R130). -/
def applyStaged (s : State) : State := (s.regs.stagedMask.map (·.1)).foldl applyOne s

/-! ### Press reset (R451) -/

/-- Offset of the PRESS_RESET word of press `p`. -/
def presetOff (p : Nat) : Nat := if p < 32 then 0x28 else 0x2C

/-- A requested reset of press `p` ends: the press is IDLE and its bit reads 0. -/
def pressResetEnd (s : State) (p : Nat) : State :=
  rsetBit (setPress s p { (getPress s p) with state := .idle, left := 0 }) (presetOff p) (p % 32) false

/-- PRESS_RESET_START: at a slot edge at which a requested press is IDLE, holds no frame and is not to be tasted, it enters
RESET for 64 press clocks, 16 control clocks. A corked press is cleared and stays CORKED. -/
def pressResetStart (s : State) (p : Nat) : State :=
  let x := getPress s p
  if s.time.atEdge && rbit s (presetOff p) (p % 32) then
    if isCorked s p then rsetBit (setPress s p (clearPress x)) (presetOff p) (p % 32) false
    else if x.state == .idle && x.saved.isNone && s.coop.pending != some p && s.coop.tasting != some p then
      setPress s p { (clearPress x) with state := .reset, left := 16 }
    else s
  else s

/-- Control clocks of presses in RESET pass. -/
def resetClocks (s : State) (n : Nat) : State :=
  (s.presses.filter (fun e => e.2.state == .reset)).foldl
    (fun s e => if e.2.left ≤ n then pressResetEnd s e.1 else setPress s e.1 { (getPress s e.1) with left := e.2.left - n }) s

end Sys2Proof.Machine
end

