-- ==== Sys2Proof/Machine/Serve.lean ====
section
/-!
DEFINITION. Machine/Serve.lean: local accesses that arrive over the fabric and the cellar door: rights (R37, R40, R154, R323),
vintages (R308), READ, WRITE, ATOMIC_ADD and MULTICAST_WRITE (R335 to R338, R346, R348, R352), and MRD and MWR (R365).
-/
namespace Sys2Proof.Machine

/-! ### Rights -/

/-- A right of the tasting-room map over a line (R154, R436). -/
def trLine (s : State) (right : TrWin → Bool) (line : Nat) : Bool :=
  s.boot.trmap.any (fun w => right w && (line + 524288 - w.first) % 524288 < w.len)

/-- Whether node `n` matches a window (R436). -/
def winNode (w : TrWin) (n : BitVec 16) : Bool := ((n ^^^ w.nval) &&& w.nmask) == 0

/-- The lines of a list of byte addresses, each once. -/
def linesTouched (as : List Nat) : List Nat := (as.map (· / 64)).eraseDups

/-- Tasting-room line number of a local line number. -/
def trLineNo (l : Nat) : Nat := l % 0x4000000

/-- EXPORT that a transaction type needs (R40). -/
def exportNeed (typ : BitVec 4) : Nat := if typ = 0 then 1 else if typ = 2 then 3 else 2

/-- One UNMAPPED event for each line of an access (R16). -/
def evUnmappedLines (s : State) (w : Who) (lines : List Nat) (snode : Nat) : State :=
  lines.foldl (fun s l => evUnmapped s w (64 * l) snode) s

/-- What a local access of a transaction from `node` meets at the line numbers it touches, all in the region of address `a` (R323,
R395): the reach, with the events of a refusal. An access is one line (log 86); the register window is judged apart. -/
def fabGrant (s : State) (port : Nat) (t : Txn) (a : Nat) (lines : List Nat) : State × Reach :=
  match region a with
  | .unmapped => (evUnmappedLines s (whoPort port) lines t.snode.toNat, .unmapped)
  | .cellar m =>
    if exportNeed t.typ ≤ binExport s m && !destroying s m then (s, .ok)
    else (evForeign s (whoPort port) (64 * lines.headD (a / 64)) lines.length, .refused)
  | .tasting =>
    let right := fun (w : TrWin) => winNode w t.snode && (if t.typ = 0 then w.fabR else w.fabW)
    if (t.typ = 0 || t.typ = 1) && lines.all (fun l => trLine s right (trLineNo l)) then (s, .ok)
    else (evTrDenied s (whoPort port) (64 * lines.headD (a / 64)) t.snode.toNat, .refused)
  | .window => (s, .refused)

/-- FAB.REGWIN admits a node (R323). -/
def regwinAdmits (s : State) (node : Nat) : Bool :=
  let w := rget s 0x8014
  rbit s 0x8018 0 && Nat.land (Nat.xor node (fld w 0 16)) (fld w 16 16) == 0

/-- The status of a reach (R326, R363). -/
def reachCode : Reach → Nat
  | .ok => 0
  | .refused => 1
  | .unmapped => 2

/-! ### Vintages at the serving node (R308) -/

/-- The base that a transaction's TABLE resolves to, with its tag and the pin of a read, or none. -/
def serveBase (s : State) (t : Txn) : Option (Nat × Word × Option Pin) :=
  let h := t.table.toNat
  if h = 0 then some (0, 0, none)
  else if (t.typ = 1 || t.typ = 2) && t.dvx then
    let sl := getSlot (getHandle s h) t.dvin.toNat
    if h ≤ vtabCount s ∧ sl.st = .filling then some (sl.base, sl.tag, none) else none
  else
    match currentSlot s h with
    | some sl => some (sl.base, sl.tag, some ⟨h, (getHandle s h).cur, false⟩)
    | none => none

/-- The local address of a transaction. -/
def serveAddr (t : Txn) (base : Nat) : Nat := (base + t.addr.toNat / 64 * 64) % 2 ^ 48

/-- VINTAGE_GONE at the serving node (R308, R483). -/
def vintageGone (s : State) (t : Txn) : State :=
  emit s { code := 0x13, kind := 8, unit := t.table.toNat, args := [t.snode.toNat, t.ident.toNat] }

/-! ### READ (R335) -/

/-- The registers of a window read, in ascending order (R323). -/
def readWindow (s : State) (port : Fin 48) (node : BitVec 16) (off n : Nat) : State × List Byte :=
  (List.range (n / 4)).foldl
    (fun acc i =>
      let r := regRead acc.1 (.fabric port node) (off + 4 * i)
      (r.1, acc.2 ++ leBytes 4 r.2.toNat))
    (s, [])

/-- A local READ served: whatever its answer, it carries the tag of the slot that TABLE resolved to, and holds its pin until it has been
sent (R308, R335). -/
def serveRead (s : State) (port : Fin 48) (t : Txn) : State :=
  let me := nodeId s
  match serveBase s t with
  | none => sendAnswer s me (rspZero t 1 0) none none
  | some (base, tag, pin) =>
    let a := serveAddr t base
    let n := 64 * (t.lenM1.toNat + 1)
    if region a = .window then
      let off := a - 0x180000000
      if regwinAdmits s t.snode.toNat then
        let r := readWindow s port t.snode off n
        sendAnswer r.1 me (rspFor t 0 tag sbUnchecked r.2) pin none
      else sendAnswer (evRegDenied s (whoPort port.val) off t.snode.toNat) me (rspZero t 1 tag) pin none
    else
      let g := fabGrant s port.val t a ((List.range (t.lenM1.toNat + 1)).map (fun i => a / 64 + i))
      if g.2 = .ok then
        let s := g.1
        let ues := localUe s a n
        let blk := blockOf (physOf s a)
        let s := countSbUe (recordUes (countCe s (physOf s a) n) (whoPort port.val) ues) (whoPort port.val) blk
        let lot := if a < 0x100000000 then sbGet s.mem blk else sbUnchecked
        sendAnswer s me (rspFor t (if ues.isEmpty then 0 else 5) tag lot (localBytes s a n)) pin none
      else sendAnswer g.1 me (rspZero t (reachCode g.2) tag) pin none

/-! ### WRITE (R336) -/

/-- Payload byte `i` of a transaction, and whether it is enabled (R327). -/
def txnByte (t : Txn) (i : Nat) : Byte := nth t.data i 0#8
def txnEnabled (t : Txn) (i : Nat) : Bool := !t.partialW || (nth t.bmasks (i / 64) 0#64).getLsbD (i % 64)

/-- The enabled bytes of a transaction's payload at address `a`. -/
def txnBytesAt (t : Txn) (a : Nat) : List (Nat × Byte) :=
  ((List.range (64 * (t.lenM1.toNat + 1))).filter (txnEnabled t)).map (fun i => (a + i, txnByte t i))

/-- Bytes stored for a performed WRITE or MULTICAST_WRITE with the LOT that it carries (R378). The answer says whether a
merge left a word unchanged (R47). -/
def storeTxn (s : State) (port : Nat) (t : Txn) (bs : List (Nat × Byte)) : State × Bool :=
  let ps := physWrites s bs
  let s := correctMerges s ps
  let r := storeBytes s.mem ps
  let blks := (ps.map (fun e => blockOf e.1)).eraseDups
  let m := blks.foldl (fun m b => sbWrite m b (coversBlock ps b) (t.lotM, t.lotP)) r.1
  (recordUeBlends (setMem s m) (whoPort port) r.2, !r.2.isEmpty)

/-- The block of a performed write remembered for a RECALL (R352). -/
def notePerformed (s : State) (t : Txn) (a : Nat) : State :=
  { s with fab := { s.fab with performed := s.fab.performed ++ [(t.snode.toNat, t.ident, a / 2048)] } }

/-- A RECALL has named this write (R352). -/
def recalled (s : State) (t : Txn) : Bool := s.fab.recalls.any (fun e => e == (t.snode.toNat, t.ident))

/-- The words of a window write: enabled whole words, or none where a word is enabled in part (R323). -/
def windowWords (bs : List (Nat × Byte)) : Option (List (Nat × Word)) :=
  let ws := (bs.map (fun e => e.1 / 4)).eraseDups
  if ws.all (fun w => (bs.filter (fun e => e.1 / 4 == w)).length == 4) then
    some (ws.map (fun w => (4 * w, BitVec.ofNat 32 (leNat ((bs.filter (fun e => e.1 / 4 == w)).map (·.2))))))
  else none

/-- A local WRITE, with its status (R326). -/
def serveWrite (rw : RegWr) (s : State) (port : Nat) (t : Txn) : State × Nat :=
  if recalled s t then (s, 7)
  else
    match serveBase s t with
    | none => (vintageGone s t, 4)
    | some (base, _, _) =>
      let a := serveAddr t base
      let bs := txnBytesAt t a
      if region a = .window then
        let off := a - 0x180000000
        match regwinAdmits s t.snode.toNat, windowWords bs with
        | true, some ws => (ws.foldl (fun s w => rw s (w.1 - 0x180000000) w.2) s, 0)
        | _, _ => (evRegDenied s (whoPort port) off t.snode.toNat, 1)
      else
        let g := fabGrant s port t a (linesTouched (bs.map (·.1)))
        if g.2 = .ok then
          let r := storeTxn g.1 port t bs
          (notePerformed r.1 t a, if r.2 then 5 else 0)
        else (g.1, reachCode g.2)

/-! ### ATOMIC_ADD (R338) -/

/-- Lanes of a line in a destination format (R114). -/
def lanesOf (f : Nat) : Nat := 64 / laneBytes f

/-- The contribution of the k-th enabled lane. -/
def contribAt (t : Txn) (f k : Nat) : Nat := leNat ((t.data.drop (contribBytes f * k)).take (contribBytes f))

/-- A local ATOMIC_ADD, with its status and the lanes not applied (R47, R116, R338). -/
def serveAtomic (s : State) (port : Nat) (t : Txn) : State × Nat × BitVec 64 :=
  match serveBase s t with
  | none => (vintageGone s t, 4, t.mask)
  | some (base, _, _) =>
    let a := serveAddr t base
    if region a = .window then (evRegDenied s (whoPort port) (a - 0x180000000) t.snode.toNat, 1, t.mask)
    else
      let g := fabGrant s port t a [a / 64]
      if g.2 = .ok then
        let f := fmtRead t.code.toNat
        if blendable f then
          let lanes := (maskBits t.mask).filter (· < lanesOf f)
          let s := if lanes.isEmpty then g.1 else correctRows g.1 [physOf g.1 a / 64] []
          let s := recordUeBlends s (whoPort port) (blendUes s f (lanes.map (fun l => a + laneBytes f * l)))
          let r := (lanes.zip (List.range lanes.length)).foldl
            (fun acc e =>
              let b := blendLane acc.1 f (a + laneBytes f * e.1) (contribAt t f e.2)
              (b.1, if b.2 then acc.2 else acc.2 ++ [e.1]))
            (s, [])
          let s := setMem r.1 (sbWrite r.1.mem (blockOf (physOf s a)) false sbUnchecked)
          (s, 0, maskOf r.2)
        else (g.1, 0, t.mask)
      else (g.1, reachCode g.2, t.mask)

/-! ### MULTICAST_WRITE at a receiver (R346, R348) -/

/-- Serial-number comparison modulo 2^32 (R324): `a` is at or after `b`. -/
def atOrAfter (a b : Word) : Bool := !(a - b).slt 0

/-- The key of a multicast block (R348). -/
def sameKey (e : GapEntry) (t : Txn) : Bool :=
  e.snode == t.snode.toNat && e.stream == t.stream.toNat && e.group == t.group.toNat

/-- A multicast block that a gap or a recall discards (R348, R352). -/
def discards (s : State) (t : Txn) : Bool :=
  s.fab.gaps.any (fun e => sameKey e t && atOrAfter t.ident e.ident && !t.rejoin) || recalled s t

/-- A block with REJOIN clears its key's gap entry (R348). -/
def rejoinKey (s : State) (t : Txn) : State :=
  if t.rejoin then { s with fab := { s.fab with gaps := s.fab.gaps.filter (fun e => !sameKey e t) } } else s

/-- The block remembered as the last performed of its key. -/
def noteLast (s : State) (t : Txn) : State :=
  let mark : GapEntry := ⟨t.snode.toNat, t.stream.toNat, t.group.toNat, t.ident⟩
  { s with fab := { s.fab with lastMc := s.fab.lastMc.filter (fun e => !sameKey e t) ++ [mark] } }

/-- A MULTICAST_WRITE at a receiver of this node, with its status. -/
def serveMulti (s : State) (port : Nat) (t : Txn) : State × Nat :=
  if discards s t then (s, 7)
  else
    let s := rejoinKey s t
    match serveBase s t with
    | none => (vintageGone s t, 4)
    | some (base, _, _) =>
      let a := serveAddr t base
      let bs := txnBytesAt t a
      if region a = .window then (evRegDenied s (whoPort port) (a - 0x180000000) t.snode.toNat, 1)
      else
        let g := fabGrant s port t a (linesTouched (bs.map (·.1)))
        if g.2 = .ok then
          let r := storeTxn g.1 port t bs
          (noteLast (notePerformed r.1 t a) t, if r.2 then 5 else 0)
        else (g.1, reachCode g.2)

/-! ### Messages to the integrator (R361 to R364) -/

/-- Payload beats of a message. -/
def outBeats : Out → Nat
  | .mcpl _ _ _ _ d => ceilDiv d.length 64
  | .door _ _ _ t => ceilDiv t.data.length 64
  | .evt _ _ => 1
  | _ => 0

/-- Credits returned to the integrator; a CRD needs none itself (R364). -/
def returnCredits (s : State) (m beats headers : Nat) : State := sendOut s (.crd m beats headers)

/-- The exported request of a module with a door tag. -/
def getX (s : State) (m : Nat) (tag : BitVec 12) : Option XReq := (getMod s m).xreqs.find? (fun r => r.tag == tag)

/-- The pool block of an exported request is released. -/
def dropBlock (s : State) (x : XReq) : State :=
  match x.block with
  | some k => dropPool s x.port k
  | none => s

/-- What follows the sending of a message: the credits of an MRD return with its last MCPL beat (R364), and the pool block of an exported
write is released (R41). -/
def sentMessage (s : State) (m : Nat) : Out → State
  | .mcpl .. => returnCredits s m 0 1
  | .door _ _ tag t =>
    match getX s m tag with
    | some x =>
      if t.typ = 0 then s
      else
        let y := getMod s m
        dropBlock (setMod s m { y with xreqs := y.xreqs.map (fun r => if r.tag = tag then { r with block := none } else r) }) x
    | none => s
  | _ => s

/-- Waiting messages leave while the integrator's credits last; `fuel` is their number. -/
def pumpDoor (s : State) (m : Nat) : Nat → State
  | 0 => s
  | k + 1 =>
    let x := getMod s m
    match x.outq with
    | [] => s
    | o :: rest =>
      if x.trained && 1 ≤ x.hdrCredits && outBeats o ≤ x.beatCredits then
        let x := { x with outq := rest, hdrCredits := x.hdrCredits - 1, beatCredits := x.beatCredits - outBeats o }
        pumpDoor (sentMessage (sendOut (setMod s m x) o) m o) m k
      else s

/-- A message queued on a module. -/
def doorSend (s : State) (m : Nat) (o : Out) : State :=
  let x := getMod s m
  pumpDoor (setMod s m { x with outq := x.outq ++ [o] }) m (x.outq.length + 1)

/-! ### The queue of register messages (R366) -/

/-- A register message enters the queue, and its header credit returns. -/
def enterReg (s : State) (x : RegMsg) : State :=
  returnCredits { s with door := { s.door with regq := s.door.regq ++ [x], regTurn := x.m.val } } x.m.val 0 1

/-- The module whose waiting register message enters the queue next: round-robin, from the one after the last that entered. -/
def nextReg (s : State) : Option (RegMsg × Nat) :=
  ((List.range 16).map (fun i => (s.door.regTurn + 1 + i) % 16)).findSome? (fun m => (getMod s m).regWait.head?.map (fun x => (x, m)))

/-- Waiting register messages enter the queue while it has room; `fuel` bounds them. -/
def refillReg (s : State) : Nat → State
  | 0 => s
  | n + 1 =>
    if s.door.regq.length < 64 then
      match nextReg s with
      | none => s
      | some (x, m) =>
        let y := getMod s m
        refillReg (enterReg (setMod s m { y with regWait := y.regWait.drop 1 }) x) n
    else s

/-! ### MRD and MWR (R365) -/

/-- The domain of a door module (R36); before an image is applied every bin is open (R52). -/
def doorDomain (s : State) (m : Nat) : Nat :=
  if s.boot.mapped then rfld s (0x2020 + 4 * (m / 8)) (4 * (m % 8)) 4 else 0

/-- The line addresses of a burst, which wraps within its 2 KiB block. -/
def burstLines (addr beats : Nat) : List Nat :=
  (List.range beats).map (fun i => addr / 2048 * 2048 + 64 * ((addr / 64 + i) % 32))

/-- The reach of a door access to lines, given by their numbers in the order of the accesses, with the events of a refusal (R37, R154,
R16). The register window is judged apart. -/
def doorGrant (s : State) (m a : Nat) (write : Bool) (lines : List Nat) : State × Reach :=
  match region a with
  | .unmapped => (evUnmappedLines s (whoDoor m) lines 0, .unmapped)
  | .cellar b =>
    if mayUse s (doorDomain s m) b then (s, .ok)
    else (evForeign s (whoDoor m) (64 * lines.headD (a / 64)) lines.length, .refused)
  | .tasting =>
    let right := fun (w : TrWin) => if write then w.doorW else w.doorR
    if !s.boot.mapped || lines.all (fun l => trLine s right (trLineNo l)) then (s, .ok)
    else (evTrDenied s (whoDoor m) (64 * lines.headD (a / 64)) 0, .refused)
  | .window => (s, .refused)

/-- A door memory read performed and answered. -/
def doorRead (s : State) (x : HeldAcc) : State :=
  let ls := burstLines x.addr.toNat (x.lenM1.toNat + 1)
  let a := x.addr.toNat / 64 * 64
  let zero := List.replicate (64 * ls.length) (0#8 : Byte)
  let done := fun (s : State) (code : Nat) (d : List Byte) =>
    doorSend s x.m (.mcpl x.m x.tag code a d)
  if region a = .window then done s 4 zero
  else
    let g := doorGrant s x.m a false (ls.map (· / 64))
    if g.2 = .ok then
      let s := ls.foldl (fun s l => countCe s (physOf s l) 64) g.1
      let ues := ls.flatMap (fun l => localUe s l 64)
      done (recordUes s (whoDoor x.m) ues) (if ues.isEmpty then 0 else 3) (ls.flatMap (fun l => localBytes s l 64))
    else done g.1 (reachCode g.2) zero

/-- The enabled bytes of a door write. -/
def accBytes (x : HeldAcc) (ls : List Nat) : List (Nat × Byte) :=
  (ls.zip (List.range ls.length)).flatMap (fun e =>
    ((List.range 64).filter (fun b => !x.partialW || (nth x.masks e.2 0#64).getLsbD b)).map
      (fun b => (e.1 + b, nth x.data (64 * e.2 + b) 0#8)))

/-- Line numbers in rising order, in which an MWR is performed (R365). -/
def risingLines (ls : List Nat) : List Nat := ls.mergeSort (fun a b => decide (a ≤ b))

/-- A committed door write performed line by line, and acknowledged if asked. -/
def doorWrite (s : State) (x : HeldAcc) : State :=
  let ls := burstLines x.addr.toNat (x.lenM1.toNat + 1)
  let a := x.addr.toNat / 64 * 64
  let done := fun (s : State) (code : Nat) =>
    let s := if x.ackReq then doorSend s x.m (.mack x.m x.tag code) else s
    returnCredits s x.m ls.length 1
  if region a = .window then done s 4
  else
    let bs := accBytes x ls
    let g := doorGrant s x.m a true (risingLines (linesTouched (bs.map (·.1))))
    if g.2 = .ok then
      let r := storeUnchecked (correctMerges g.1 (physWrites g.1 bs)) bs
      done (recordUeBlends r.1 (whoDoor x.m) r.2) (if r.2.isEmpty then 0 else 3)
    else done g.1 (reachCode g.2)

/-- A door memory access performed. -/
def doorAccess (s : State) (x : HeldAcc) : State := if x.isWrite then doorWrite s x else doorRead s x

/-- Whether door accesses to memory are held (R52). -/
def doorHolds (s : State) : Bool := !ready s || (strapBoot s < 2 && !loaded s)

/-- A held access reaches memory, so that R52 holds it; others are judged at once. -/
def holdsHere (a : Nat) : Bool :=
  match region a with
  | .cellar _ => true
  | .tasting => true
  | _ => false

/-- Held door accesses proceed in arrival order (R52). -/
def releaseDoor (s : State) : State :=
  if doorHolds s then s
  else s.door.heldAcc.foldl doorAccess { s with door := { s.door with heldAcc := [] } }

end Sys2Proof.Machine
end

