-- ==== Sys2Proof/Machine/Export.lean ====
section
/-!
DEFINITION. Machine/Export.lean: local fabric transactions performed and answered (R329, R335 to R338, R52), exported
integrator memory (R337, R367 to R369), and the master reset of a door module (R370).
-/
namespace Sys2Proof.Machine

/-! ### Local transactions -/

/-- A local READ, WRITE, ATOMIC_ADD, or MULTICAST_WRITE for the receiver left in its MASK, performed and answered. -/
def performTxn (rw : RegWr) (s : State) (port : Fin 48) (t : Txn) : State :=
  let me := nodeId s
  if t.typ = 0 then serveRead s port t
  else if t.typ = 1 then
    let r := serveWrite rw s port.val t
    sendAnswer r.1 me (ackFor t r.2 0) none none
  else if t.typ = 2 then
    let r := serveAtomic s port.val t
    sendAnswer r.1 me (ackFor t r.2.1 r.2.2) none none
  else if t.typ = 3 then
    let r := serveMulti s port.val t
    sendAnswer r.1 me (ackFor t r.2 t.mask) none none
  else s

/-- Whether a transaction addresses memory that R52 holds, or follows a held one of its flow (R328). -/
def fabHolds (s : State) (t : Txn) : Bool :=
  !ready s && (t.table != 0 || holdsHere t.addr.toNat
    || (t.typ != 0 && s.door.heldTxn.any (fun h => h.txn.typ != 0 && sameFlow h.txn t)))

/-- A local transaction performed, or held until READY. -/
def localTxn (rw : RegWr) (s : State) (port : Fin 48) (t : Txn) : State :=
  if fabHolds s t then { s with door := { s.door with heldTxn := s.door.heldTxn ++ [⟨port.val, t⟩] } }
  else performTxn rw s port t

/-- A port number within range. -/
def finPort (n : Nat) : Fin 48 := Fin.ofNat 48 n

/-- Held fabric transactions proceed in arrival order (R52). -/
def releaseFabric (rw : RegWr) (s : State) : State :=
  if ready s then
    s.door.heldTxn.foldl (fun s h => performTxn rw s (finPort h.port) h.txn) { s with door := { s.door with heldTxn := [] } }
  else s

/-! ### Exported integrator memory (R367) -/

/-- FAB.DOOR_NODE.NODE, where it is enabled (R321). -/
def doorNode (s : State) : Option Nat := if rbit s 0x8004 31 then some (rfld s 0x8004 0 16) else none

/-- The trained modules of DOOR.EXPORT_CFG.MODULES, in rising number. -/
def exportModules (s : State) : List Nat := (List.range 16).filter (fun m => rbit s 0xC004 m && (getMod s m).trained)

/-- The module that carries the transactions of a source node. -/
def exportModule (s : State) (snode : Nat) : Option Nat :=
  let l := exportModules s
  l[snode % l.length]?

/-- The free door tag of a module, from the next one on. -/
def freeDoorTag (x : Module) : Option (BitVec 12) :=
  ((List.range 4096).map (fun i => x.nextTag + BitVec.ofNat 12 i)).find? (fun t => !x.xreqs.any (fun r => r.tag == t))

/-- A flow must wait: transactions of it are in flight on another module, or earlier ones wait. -/
def flowWaits (s : State) (t : Txn) (m : Nat) : Bool :=
  s.door.mods.any (fun e => e.1 != m && e.2.xreqs.any (fun r => r.txn.snode == t.snode))
    || s.door.xwait.any (fun r => r.txn.snode == t.snode)

/-- The answer of an exported transaction on the fabric, from the DOOR_NODE. -/
def answerX (s : State) (t : Txn) (status : Nat) (lanes : BitVec 64) (data : Option (List Byte)) (ingress : Option (Nat × Nat)) :
    State :=
  let me := (doorNode s).getD (nodeId s)
  if t.typ = 0 then
    match data with
    | some d => sendAnswer s me (rspFor t status 0 sbUnchecked d) none ingress
    | none => sendAnswer s me (rspZero t status 0) none none
  else if t.typ = 2 then sendAnswer s me (ackFor t status lanes) none none
  else if t.typ = 3 then sendAnswer s me (ackFor t status t.mask) none none
  else sendAnswer s me (ackFor t status 0) none none

/-- The door message of an exported transaction. -/
def doorType (typ : BitVec 4) : Nat := if typ = 0 then 0x10 else if typ = 2 then 0x12 else 0x11

/-- Lanes of a line in the destination format of an ATOMIC_ADD. -/
def enabledLanes (t : Txn) : BitVec 64 :=
  let f := fmtRead t.code.toNat
  if blendable f then t.mask &&& maskOf (List.range (lanesOf f)) else t.mask

/-- A transaction that needs a pool block while it passes: one that carries data, and a READ for those that it brings (R17, R41). -/
def needsBlock (t : Txn) : Bool := t.typ == 0 || !t.data.isEmpty

/-- The credits of a pass-through transaction return, or are kept back while its port is at its quota (R42). A MULTICAST_WRITE, whose
MASK may be reduced by now, has left the receive side before. -/
def passedRx (s : State) (port : Nat) (t : Txn) : State :=
  takeRx s port (vcOf t.typ) (txnBytes t) (overqPort s port) (fun x => t.typ != 3 && txnStream x == txnStream t)

/-- An exported transaction leaves on its module, waits, or is answered where no module is trained (R367). Its data, or the place for the
data of a READ, take a pool block of the ingress port (R17, R41, R42). `owes` says that its credits are still to return. -/
def exportTxn (s : State) (port : Nat) (t : Txn) (owes : Bool) : State :=
  let wait := { s with door := { s.door with xwait := s.door.xwait ++ [{ tag := 0, port := port, txn := t, owes := owes }] } }
  let give := fun (s : State) => if owes then passedRx s port t else s
  match exportModule s t.snode.toNat with
  | none => give (answerX (bump s 0xC054 1) t 3 (enabledLanes t) none none)
  | some m =>
    match freeDoorTag (getMod s m) with
    | some tag =>
      if flowWaits s t m || (needsBlock t && poolFree s == 0) then wait
      else
        let b := if needsBlock t then
            let y := takePool s port
            (fillPool y.1 y.2 t.data, some y.2)
          else (s, none)
        let s := b.1
        let x := getMod s m
        let out := match b.2 with
          | some k => fromPool s k t
          | none => t
        give (doorSend (setMod s m { x with xreqs := x.xreqs ++ [{ tag := tag, port := port, txn := t, block := b.2 }],
                                            nextTag := tag + 1 }) m (.door m (doorType t.typ) tag out))
    | none => wait

/-- Waiting exported transactions tried again in arrival order. -/
def drainExport (s : State) : State :=
  s.door.xwait.foldl (fun s x => exportTxn s x.port x.txn x.owes) { s with door := { s.door with xwait := [] } }

/-- An exported request leaves its module. -/
def dropX (s : State) (m : Nat) (x : XReq) : State :=
  let y := getMod s m
  setMod s m { y with xreqs := y.xreqs.filter (fun r => r.tag != x.tag) }

/-- The lanes that an XACK names (R369). -/
def xackLanes (t : Txn) (groups : BitVec 16) : BitVec 64 :=
  let f := fmtRead t.code.toNat
  let per := if blendable f then lanesOf f / 16 else 1
  let per := if per = 0 then 1 else per
  t.mask &&& maskOf ((List.range 64).filter (fun l => l / per < 16 && groups.getLsbD (l / per)))

/-- The fabric status of a door status (R326, R363): anything but OK, REFUSED and UNMAPPED counts as UE. For WRONG_PATH, which R363 lists
and R326 does not, that is a choice (log 42). -/
def doorStatus (b : Byte) : Nat := if b = 0 then 0 else if b = 1 then 1 else if b = 2 then 2 else 5

/-- XTMO_EXPIRY (R368): counted, and answered on the fabric. -/
def expireX (s : State) (m : Nat) (x : XReq) : State :=
  let s := bump (dropBlock (dropX s m x) x) 0xC04C 1
  if x.txn.typ = 0 then answerX s x.txn 3 0 none none
  else if x.txn.typ = 2 then answerX s x.txn 6 (enabledLanes x.txn) none none
  else answerX s x.txn 3 0 none none

/-- The data of an exported read: the XCPL's, cut to the length asked for; bytes it does not carry are free (log 42). -/
def xcplData (n : Nat) (data : List Byte) : List Byte :=
  data.take n ++ (List.range (n - data.length)).map Config.shortAnswer

/-- XCPL: exported read data returned (R367); its credits go back (R364). -/
def takeXcpl (s : State) (m : Nat) (tag : BitVec 12) (status : Byte) (lenM1 : BitVec 5) (data : List Byte) : State :=
  if (getMod s m).trained then
    let s := returnCredits s m (lenM1.toNat + 1) 1
    match getX s m tag with
    | none => s
    | some x =>
      if x.txn.typ = 0 then
        let d := xcplData (64 * (x.txn.lenM1.toNat + 1)) (data.take (64 * (lenM1.toNat + 1)))
        let s := match x.block with
          | some k => fillPool s k d
          | none => s
        drainExport (answerX (dropX s m x) x.txn (doorStatus status) 0 (some d) (x.block.map (fun k => (x.port, k))))
      else s
  else s

/-- XACK: an exported write or add performed (R367, R369); its credit goes back. -/
def takeXack (s : State) (m : Nat) (tag : BitVec 12) (status : Byte) (lanes : BitVec 16) : State :=
  if (getMod s m).trained then
    let s := returnCredits s m 0 1
    match getX s m tag with
    | none => s
    | some x =>
      if x.txn.typ = 0 then s
      else
        let code := doorStatus status
        -- a refused ATOMIC_ADD has applied none (R338)
        let l := if code = 1 ∨ code = 2 then enabledLanes x.txn else xackLanes x.txn lanes
        drainExport (answerX (dropX s m x) x.txn code l none none)
  else s

/-! ### Master reset of a module (R370) -/

/-- Reads of module `m` in flight: those held, and answers that have not left. -/
def readsOpen (s : State) (m : Nat) : Nat :=
  (s.door.heldAcc.filter (fun h => h.m == m && !h.isWrite)).length
    + ((getMod s m).outq.filter (fun o => match o with
        | .mcpl .. => true
        | _ => false)).length

/-- The register messages of module `m` leave the queue; the one that holds the control matrix goes on without a response (R370). -/
def cutReg (s : State) (m : Nat) : State :=
  let quiet := fun (x : RegMsg) => if x.m.val = m then { x with quiet := true } else x
  refillReg { s with door := { s.door with regq := s.door.regq.filter (fun x => x.m.val != m), matrix := s.door.matrix.map quiet } } 64

/-- The master reset of a bonded module. Its committed MWRs that R52 holds are still performed, without MACK, unless
`drop`, as for the dormant state (R439). -/
def masterReset (s : State) (m : Nat) (drop : Bool) : State :=
  if bonded s m then
    let x := getMod s m
    let s := if x.part.isSome then bump s 0xC044 1 else s
    let s := bump s 0xC048 (readsOpen s m)
    let kept := s.door.heldAcc.filterMap (fun h =>
      if h.m == m then (if h.isWrite && !drop then some { h with ackReq := false } else none) else some h)
    let s := { s with door := { s.door with heldAcc := kept } }
    let s := setMod s m { resets := x.resets + 1, repaired := x.repaired, nextTag := x.nextTag, xreqs := x.xreqs }
    let s := x.xreqs.foldl (fun s r => expireX s m r) (cutReg s m)
    drainExport s
  else s

end Sys2Proof.Machine
end

