-- ==== Sys2Proof/Machine/Boot.lean ====
section
/-!
DEFINITION. Machine/Boot.lean: resets (R447 to R450, R493), the wake and warm-reset marches (R51 to R53), the estate image
(R431 to R439) with its copies (R438), the door boot (R444), and recovery from a reset during a DECANT (R453 to R455).
-/
namespace Sys2Proof.Machine

/-- The block is out of reset: its agents run and its registers can be reached. -/
def alive (s : State) : Bool := s.boot.power == .march || s.boot.power == .up

/-! ### The image (R432, R433) -/

/-- `n` bytes of an image from an offset; what lies beyond the bytes given reads as erased, all ones. -/
def imgBytes (bs : List Byte) (o n : Nat) : List Byte :=
  let l := (bs.drop o).take n
  l ++ List.replicate (n - l.length) 0xFF#8

/-- A 32-bit word of an image. -/
def imgWord (bs : List Byte) (o : Nat) : Word := BitVec.ofNat 32 (leNat (imgBytes bs o 4))

/-- A section: TYPE, FLAGS, destination, size, CRC, and where its entry and its bytes lie. -/
structure Sect where
  typ : Nat
  flags : Nat
  dest : Nat
  size : Nat
  crc : Word
  entry : Nat
  off : Nat

/-- NSECT and LENGTH. -/
def imgNsect (bs : List Byte) : Nat := (imgWord bs 0x10).toNat
def imgLength (bs : List Byte) : Nat := (imgWord bs 0x0C).toNat

/-- The sections from entry `j` on, the first at offset `off`. -/
def sectsFrom (bs : List Byte) (j off : Nat) : Nat → List Sect
  | 0 => []
  | n + 1 =>
    let e := 0x40 + 64 * j
    let w0 := imgWord bs e
    let size := (imgWord bs (e + 8)).toNat
    { typ := fld w0 24 8, flags := fld w0 16 8, dest := fld w0 0 16 * 2 ^ 32 + (imgWord bs (e + 4)).toNat, size := size,
      crc := imgWord bs (e + 12), entry := e, off := off } :: sectsFrom bs (j + 1) (64 * ceilDiv (off + size) 64) n

/-- Every section (R432). -/
def imgSects (bs : List Byte) : List Sect := sectsFrom bs 0 0x2000 (min 64 (imgNsect bs))

/-- The bytes of a section. -/
def Sect.body (x : Sect) (bs : List Byte) : List Byte := imgBytes bs x.off x.size

/-- Resident section types (R434). -/
def Sect.resident (x : Sect) : Bool := x.typ == 1 || x.typ == 2 || x.typ == 4 || x.typ == 5 || x.typ == 6

/-- DIGEST of a section holds. -/
def Sect.digestOk (x : Sect) (bs : List Byte) : Bool := Config.sha384 (x.body bs) == imgBytes bs (x.entry + 16) 48

/-- The signature of the header verifies against the key in the fuses (R432, R439). -/
def keyOk (bs : List Byte) : Bool := Config.sha384 (imgBytes bs 0x1040 96) == Config.imageKeyHash
def sigOk (bs : List Byte) : Bool := Config.p384Verify (imgBytes bs 0x1040 96) (imgBytes bs 0 0x10A0) (imgBytes bs 0x10A0 96)

/-- LAYOUT (R439); `room` is the room that the medium gives an image. -/
def layoutOk (bs : List Byte) (room : Nat) : Bool :=
  decide (1 ≤ imgNsect bs ∧ imgNsect bs ≤ 64) && decide (imgLength bs ≤ 0x800000) && decide (imgLength bs ≤ room)
    && (imgSects bs).all (fun x => decide (x.off + x.size ≤ imgLength bs))
    && decide (0x2000 + (((imgSects bs).filter Sect.resident).map (·.size)).sum ≤ 458752)

/-- The code of the first check of the header that fails (R439), 0 for none. -/
def headerCode (bs : List Byte) (room : Nat) : Nat :=
  if imgWord bs 0 ≠ 0xE57A7E1A#32 then 1
  else if imgWord bs 4 ≠ 0x00020001#32 then 2
  else if !layoutOk bs room then 3
  else if !keyOk bs then 4
  else if !sigOk bs then 5
  else 0

/-- The code of the first check of the sections that fails, 0 for none. -/
def sectionCode (bs : List Byte) : Nat :=
  if (imgSects bs).any (fun x => crc32c (x.body bs) != x.crc) then 6
  else if (imgSects bs).any (fun x => !x.digestOk bs) then 7
  else 0

/-! ### Sections (R434) -/

/-- The REGS entries of an image in order, as (offset, value). -/
def imgRegs (bs : List Byte) : List (Nat × Word) :=
  ((imgSects bs).filter (fun x => x.typ == 2)).flatMap (fun x =>
    let b := x.body bs
    (List.range (x.size / 8)).map (fun i => (fld (wordAt b (8 * i)) 0 20 / 4 * 4, wordAt b (8 * i + 4))))

/-- What the REGS entries of an image leave in a register that only the image writes. -/
def imgReg (bs : List Byte) (off : Nat) : Word :=
  (((imgRegs bs).filter (fun e => e.1 == off)).getLast?.map (·.2)).getD 0

/-- Bytes that a re-read image skips at a warm load (R449): the handle-table lines, and word 1 of the ring-table entries. -/
def warmSkips (bs : List Byte) (a : Nat) : Bool :=
  let o := (a + 0x2000000 - 0x100000000 % 0x2000000) % 0x2000000
  let v := imgReg bs 0x01D0
  let h := (o / 64 + 524288 - fld v 0 19) % 524288
  let r := (o + 0x2000000 - 64 * fld (imgReg bs 0x0088) 0 19) % 0x2000000
  decide (0x100000000 ≤ a ∧ a < 0x102000000) && (decide (1 ≤ h ∧ h ≤ fld v 19 12) || (decide (r < 32768) && r % 16 / 4 == 1))

/-- The words of a list of bytes in the register window, written word by word; one that is covered in part is discarded with its
event (R460). -/
def placeWindow (s : State) (win : List (Nat × Byte)) : State :=
  (wordsTouched win).foldl
    (fun s w =>
      let off := 4 * w - 0x180000000
      if coversAll win w then
        regWriteCore 1 s off (BitVec.ofNat 32 (leNat ((win.filter (fun e => e.1 / 4 == w)).map (·.2))))
      else evRegDenied s (whoMatrix 1) off 0)
    s

/-- The bytes of one PLACE section written as they are read (R434). Refused and unmapped accesses, one for each line (log 86), are
recorded as R16 and R37 say. -/
def placeSect (bs : List Byte) (warm : Bool) (s : State) (x : Sect) : State :=
  let all := (byteRun 0 (x.body bs)).map (fun e => ((x.dest + e.1) % 2 ^ 48, e.2))
  let l := all.filter (fun e => !(warm && warmSkips bs e.1))
  let mem := l.filter (fun e => reach s 0 false e.1 == .ok)
  let lost := linesTouched ((l.filter (fun e => region e.1 == .unmapped)).map (·.1))
  let shut := linesTouched ((l.filter (fun e => reach s 0 false e.1 == .refused && region e.1 != .window)).map (·.1))
  let r := storeUnchecked (correctMerges s (physWrites s mem)) mem
  let s := recordUeBlends r.1 (whoMatrix 1) r.2
  let s := evUnmappedLines s (whoMatrix 1) lost 0
  let s := if shut.isEmpty then s else evForeign s (whoMatrix 1) (64 * shut.headD 0) shut.length
  placeWindow s (l.filter (fun e => region e.1 == .window))

/-- Every PLACE section of a copy (R434, R439). -/
def placeAll (s : State) (bs : List Byte) (warm : Bool) : State :=
  ((imgSects bs).filter (fun x => x.typ == 3)).foldl (placeSect bs warm) s

/-- The tasting-room map (R436). -/
def imgTrmap (bs : List Byte) : List TrWin :=
  match (imgSects bs).find? (fun x => x.typ == 4) with
  | none => []
  | some x =>
    let b := x.body bs
    (List.range (min 32 (x.size / 16))).filterMap (fun i =>
      let w := fun j => wordAt b (16 * i + 4 * j)
      let len := fld (w 1) 0 20
      if len = 0 then none
      else
        some { first := fld (w 0) 0 19, len := len, nmask := BitVec.ofNat 16 (fld (w 2) 16 16),
               nval := BitVec.ofNat 16 (fld (w 2) 0 16), doorR := bitAt (w 3) 3, doorW := bitAt (w 3) 2,
               fabR := bitAt (w 3) 1, fabW := bitAt (w 3) 0 })

/-- The recovery policy (R437). -/
def imgPolicy (bs : List Byte) : Policy :=
  match (imgSects bs).find? (fun x => x.typ == 5) with
  | none => {}
  | some x =>
    let b := x.body bs
    if fld (wordAt b 0) 16 16 = 0x9071 then
      { discard := bitAt (wordAt b 0) 0, jbase := fld (wordAt b 4) 0 19, jcount := fld (wordAt b 8) 0 16,
        rring := fld (wordAt b 12) 0 10 }
    else {}

/-- Route memory copied from the tasting room (R331): ALT fields by node, entries of zero not listed. -/
def loadRoutes (s : State) : State :=
  let base := trAddr (64 * rfld s 0x8008 0 19)
  let at' := fun (k : Nat) => (k + 0x2000000 - base) % 0x2000000
  let cells := s.mem.cells.filter (fun c => decide (0x100000000 ≤ c.1 ∧ c.1 < 0x102000000) && decide (at' c.1 < 262144)
    && at' c.1 % 4 != 3)
  let route := cells.foldl
    (fun m c =>
      let n := at' c.1 / 4
      smPut m n (smGet m n 0 + c.2.toNat * 256 ^ (at' c.1 % 4)))
    ([] : SMap Nat)
  { s with fab := { s.fab with route := route } }

/-! ### Start-up and recovery copies (R438, R201) -/

/-- A copy's record with the base of its handle's current vintage; none where there is none (R438). -/
def copyRec (s : State) (ws : List Word) : Option LRec :=
  let h := (recOf ws).table
  if h = 0 then some { words := ws }
  else (currentSlot s h).map (fun sl => { words := ws, res := .pinned sl.base sl.tag })

/-- Formats that the slow strided path admits (R201). -/
def slowFmt (f : Nat) : Bool := !fmtCrated f && (fmtBits f == 8 || fmtBits f == 16 || fmtBits f == 32)

/-- COPY_SKIPPED (R201, R438, R483). -/
def copySkipped (s : State) (i n : Nat) : State := emit s { code := 0x14, args := [i, n] }

/-- One copy, number `i` of its section. -/
def runCopy (s : State) (i : Nat) (ws : List Word) : State :=
  let op := opOf ws
  if op = 0x01 ∨ op = 0x02 then
    let a := masterLine s (recOff s (wFld ws 3 0 16))
    let b := masterLine a.1 (recOff s (wFld ws 3 16 16))
    let s := b.1
    match copyRec s a.2.1, copyRec s b.2.1 with
    | some src, some dst =>
      let f := src.tensor.fmt
      if f = dst.tensor.fmt ∧ slowFmt f then
        let x := stageExt op ws src.tensor dst.tensor (recOf []) (recOf [])
        let r := slowCopy (regWriteCore 0) s (opPerm op ws) src dst (dStart ws) (dDstart op ws) x
        if r.2 = 0 then r.1 else copySkipped r.1 i r.2
      else copySkipped s i 0xFFFFFFFF
    | _, _ => copySkipped s i 0xFFFFFFFF
  else copySkipped s i 0xFFFFFFFF

/-- The COPIES sections of a cold or warm load, in entry order. -/
def runCopies (s : State) (bs : List Byte) (warm : Bool) : State :=
  ((imgSects bs).filter (fun x => x.typ == 6 && x.flags / (if warm then 2 else 1) % 2 == 1)).foldl
    (fun s x =>
      let b := x.body bs
      (List.range (x.size / 64)).foldl (fun s i => runCopy s i (wordsOf 16 (b.drop (64 * i)))) s)
    s

/-! ### Recovery from a reset mid-DECANT (R453 to R455) -/

/-- A journal line that a reset cut off: MARK and CRC valid, STATE RUNNING. -/
def cutOff (bs : List Byte) : Bool :=
  fld (wordAt bs 0) 16 16 == 0xDECA && wordAt bs 60 == crc32c (bs.take 60) && fld (wordAt bs 0) 8 8 == 1

/-- DECANT_ORPHAN. -/
def orphan (s : State) (w1 : Word) (line : Nat) : State :=
  emit s { code := 0x15, kind := 5, unit := fld w1 12 10, args := [fld w1 0 12, line] }

/-- The copies of a load so far, and whether the recovery ring has run out of room. -/
structure Recovery where
  s : State
  copies : Nat := 0
  full : Bool := false

/-- The words of a re-armed DECANT (R454). -/
def recoveryWords (s : State) (ws : List Word) (gen : Nat) : List Word :=
  let w0 := setFld (setBit (nth ws 0 0#32) 31 false) 0 16 gen
  let dl := s.time.ftime.setWidth 32 + 0x7FFFFFFF#32
  ((ws.set 0 w0).set 11 dl).set 12 (setBit (dOpa ws) 19 true)

/-- One cut-off journal under RESUME (R454). -/
def resumeJournal (z : Recovery) (bs : List Byte) (line : Nat) : Recovery :=
  let s := z.s
  let w1 := wordAt bs 4
  let x := getDRing s (fld w1 12 10)
  let y := masterLine s (x.off (fld w1 0 12))
  let s := y.1
  let ws := y.2.1
  if !y.2.2 && opOf ws == 0x28 && genOf ws == fld (wordAt bs 12) 16 16 && fld (dOpa ws) 0 19 == line then
    let r := getDRing s s.boot.policy.rring
    let j := (r.pos + z.copies) % r.size
    let armed := fld (wordAt (trBytes s (r.off j) 4) 0) 0 16 == r.expects j
    if z.full || r.size ≤ z.copies || armed then { z with s := orphan s w1 line, full := true }
    else
      let ws := recoveryWords s ws (r.expects j)
      { z with s := trStore s (r.off j) (bytesOf ws), copies := z.copies + 1 }
  else { z with s := orphan s w1 line }

/-- One cut-off journal under DISCARD (R455). -/
def discardJournal (s : State) (bs : List Byte) (line : Nat) : State :=
  let w0 := wordAt bs 0
  let v := fld w0 0 2
  let y := masterLine s (recOff s (fld (wordAt bs 8) 16 16))
  let h := (recOf y.2.1).table
  let s := y.1
  let x := getHandle s h
  let sl := getSlot x v
  let s :=
    if bitAt w0 2 && h != 0 && h ≤ vtabCount s && sl.st == .filling then
      writeBack (setHandle s h (setSlot x v { sl with st := .empty })) h v
    else s
  emit s { code := 0x16, kind := 8, unit := h, args := [v, line] }

/-- The journal area scanned at a warm load (R453). -/
def scanJournals (s : State) : State :=
  let p := s.boot.policy
  ((List.range p.jcount).foldl
    (fun z i =>
      let line := (p.jbase + i) % 524288
      let y := masterLine z.s (64 * line)
      let bs := bytesOf y.2.1
      let z := { z with s := y.1 }
      if !y.2.2 && cutOff bs then
        if p.discard then { z with s := discardJournal z.s bs line } else resumeJournal z bs line
      else z)
    ({ s := s } : Recovery)).s

/-! ### Applying an image (R434, R443, R449, R459) -/

/-- A checked image applied: REGS, TRMAP and POLICY, handles and rings, journals of a warm load, and its copies. -/
def applyImage (s : State) (bs : List Byte) (source : Nat) (reused : Bool) : State :=
  let warm := s.boot.warm
  let s := (imgRegs bs).foldl (fun s e => imageWrite s e.1 e.2) s
  let s := { s with boot := { s.boot with trmap := imgTrmap bs, mapped := true, policy := imgPolicy bs,
                                          resident := some bs, residentFrom := source,
                                          wsUe := if reused then s.boot.wsUe else none,
                                          wsCe := if reused then s.boot.wsCe else [] },
                    coop := { s.coop with refsFormed := false, refusedSeen := false } }
  let s := readRings (buildHandles (loadRoutes s))
  let s := if warm then scanJournals s else s
  let s := runCopies s bs warm
  let s := rsetFld s 0x0014 0 2 source
  let s := rsetBit (rsetBit s 0x0014 4 reused) 0x0014 2 true
  let s := rset (rset s 0x0024 (imgWord bs 8)) 0x001C 1
  releaseDoor s

/-- The resident copy passes the checks of R448. -/
def residentOk (s : State) : Bool :=
  match s.boot.resident with
  | none => false
  | some bs =>
    s.boot.warm && s.boot.wsUe.isNone && keyOk bs && sigOk bs
      && (imgSects bs).all (fun x => !x.resident || x.digestOk bs)

/-- The resident copy reused (R448). -/
def reuse (s : State) : State :=
  match s.boot.resident with
  | none => s
  | some bs => applyImage s bs s.boot.residentFrom true

/-- One copy tried: the code of its failure, with the bytes that its PLACE sections have written. -/
def tryCopy (s : State) (bs : Option (List Byte)) (room : Nat) : State × Nat :=
  match bs with
  | none => (s, 8)
  | some bs =>
    let h := headerCode bs room
    if h ≠ 0 then (s, h) else (placeAll s bs s.boot.warm, sectionCode bs)

/-- The dormant state (R439): the door modules return to reset, and the agent alone answers. -/
def goDormant (s : State) : State :=
  let s := rsetBit (rsetBit s 0x0014 3 true) 0xD000 6 true
  let s := (List.range 16).foldl (fun s m => masterReset s m true) s
  emit s { code := 0x30, args := [(rget s 0x0014).toNat] }

/-- Copy A, then copy B, then the dormant state (R431, R439). -/
def flashLoad (s : State) (copyA copyB : Option (List Byte)) : State :=
  let a := tryCopy s copyA 0x800000
  match a.2, copyA with
  | 0, some bs => applyImage a.1 bs 1 false
  | _, _ =>
    let s := rsetFld a.1 0x0014 8 8 a.2
    let b := tryCopy s copyB 0x800000
    match b.2, copyB with
    | 0, some bs => applyImage b.1 bs 2 false
    | _, _ => goDormant (rsetFld b.1 0x0014 16 8 b.2)

/-- The boot loader has an image to load. -/
def loaderWaits (s : State) : Bool := s.boot.power == .up && ready s && !loaded s && !dormant s

/-- The resident copy read for its check: each word of working SRAM with a single-bit error is corrected and counted (R374). -/
def checkResident (s : State) : State :=
  if s.boot.warm && s.boot.resident.isSome then bump s 0xD050 s.boot.wsCe.length else s

/-- IMAGE_LOAD: a second parity error of the boot ROM, from which code address 0 is fetched, ends the boot (R441, R446); otherwise the resident copy is reused where it
passes (R448), or the flash copies are tried. -/
def imageLoad (s : State) (romParity : Bool) (copyA copyB : Option (List Byte)) : State :=
  if loaderWaits s then
    if romParity && codeSpace (rbit s 0x001C 0) 0 == some .bootRom then goDormant (rsetFld s 0x0014 8 8 9)
    else if strapBoot s = 3 then s
    else
      let s := checkResident s
      if residentOk s then reuse s
      else if strapBoot s < 2 then flashLoad s copyA copyB
      else s
  else s

/-- VTALLY_WAIT_TIMEOUT (R498): each flash copy fails with code READ. -/
def vtallyTimeout (s : State) : State :=
  if loaderWaits s && strapBoot s < 2 && !residentOk s then flashLoad s none none else s

/-! ### The door boot (R444) -/

/-- The image that BOOT_GO names, read through the tasting-room window and checked. -/
def doorBoot (s : State) : State :=
  if loaderWaits s && strapBoot s == 2 && rbit s 0x0038 31 then
    let o := 64 * rfld s 0x0038 0 19
    let read := fun (s : State) (n : Nat) => recordUes s (whoMatrix 1) ((List.range (ceilDiv n 4)).filterMap (fun i =>
      let w := trAddr (o + 4 * i) / 4
      if s.mem.ueWords.contains w then some w else none))
    let room := 0x2000000 - o
    let head := trBytes s o 0x2000
    let code := headerCode head room
    let fail := fun (s : State) (c : Nat) => rsetBit (rsetFld s 0x0014 8 8 c) 0x0038 31 false
    if code ≠ 0 then fail (read s 0x2000) code
    else
      let bs := trBytes s o (imgLength head)
      let r := tryCopy (read s (imgLength head)) (some bs) room
      if r.2 = 0 then applyImage (rsetFld r.1 0x0014 8 8 0) bs 3 false else fail r.1 r.2
  else s

/-! ### Cold reset (R447) -/

/-- CTL.STRAPS (R458). -/
def strapWord (x : Straps) : Word :=
  BitVec.ofNat 32 (x.boot.toNat + x.slot.toNat * 8 + x.node.toNat * 64 + x.door.toNat * 1024
    + (if x.heritage then 16384 else 0) + (if x.warm then 32768 else 0))

/-- The registers that the straps set (R429, R456, R458): CTL.STRAPS, CTL.HERITAGE, CAL.TIME_CFG.SLOT_LEN, FAB.NODE. -/
def strapRegs (s : State) (w : Word) : State :=
  let h := if bitAt w 14 then 3 else 0
  let s := rset (rset s 0x0010 w) 0x0020 (BitVec.ofNat 32 h)
  rsetFld (rset s 0x8000 (BitVec.ofNat 32 (fld w 6 4))) 0x1008 5 3 (fld w 3 3)

/-- Everything that a cold reset clears, cleared; the tally, the test access port and the thermal trip stay (R447, R502). -/
def cleared (s : State) (power : Power) : State :=
  { State.reset with pending := s.pending, draw := s.draw, outbox := s.outbox, tally := s.tally, jtag := s.jtag,
                     thermTrip := s.thermTrip, regs := {}, boot := { power := power, porstLow := s.boot.porstLow } }

/-- The cold power-up march and boot begin with latched straps (R51, R443). -/
def startCold (s : State) (w : Word) : State := rset (strapRegs (cleared s .march) w) 0x2000 4

/-- COLD_RESET: the rising edge of PORST_N latches the straps; a lock or rail fault still holds the block (R493). -/
def coldReset (s : State) (x : Straps) : State :=
  let held := s.boot.power == .faultHeld
  let s := { s with boot := { s.boot with porstLow := false } }
  if held then strapRegs (cleared s .faultHeld) (strapWord x) else startCold s (strapWord x)

/-- COLD_RESET_START: PORST_N falls. -/
def coldResetStart (s : State) : State :=
  let held := s.boot.power == .faultHeld
  cleared { s with boot := { s.boot with porstLow := true } } (if held then .faultHeld else .coldHeld)

/-- RAIL_OR_PLL_FAULT: a cold reset that lasts until lock and rails are restored (R493); the straps stay as latched. -/
def railFault (s : State) : State := strapRegs (cleared s .faultHeld) (rget s 0x0010)

/-- RAILS_RESTORED (R493). -/
def railsRestored (s : State) : State :=
  if s.boot.power == .faultHeld then
    if s.boot.porstLow then cleared s .coldHeld else startCold s (rget s 0x0010)
  else s

/-! ### Warm reset (R447, R448) -/

/-- What a warm reset keeps of a press: its cork and its failures. -/
def warmPress (x : Press) : Press :=
  { state := if x.state == .corked then .corked else .idle, fails := x.fails, total := x.total }

/-- What a warm reset keeps of the cooper: remaps under way and the error counts of R391. -/
def warmCoop (x : Coop) : Coop :=
  { remapQ := x.remapQ, remap := x.remap, remapDone := x.remapDone, binUe := x.binUe, binCe := x.binCe }

/-- A warm reset with CAUSE 1 (WRST_N) or 2 (WS_UE): a preserve-mode march runs where STRAP_WARM asks for it (R53). -/
def warmReset (s : State) (cause : Nat) (straps : Word) : State :=
  let count := rfld s 0x0018 16 16 + 1
  let march := bitAt straps 15
  let keep := fun (r : State) (off : Nat) => rset r off (rget s off)
  let z : State :=
    { pending := s.pending, draw := s.draw, outside := s.outside, outbox := s.outbox, mem := s.mem, book := s.book,
      time := { edges := s.time.edges }, nextId := s.nextId, presses := s.presses.map (fun e => (e.1, warmPress e.2)),
      coop := warmCoop s.coop, mgmt := s.mgmt, tally := s.tally,
      boot := { power := .march, porstLow := s.boot.porstLow, warm := true, resident := s.boot.resident,
                residentFrom := s.boot.residentFrom, wsUe := s.boot.wsUe, wsCe := s.boot.wsCe },
      -- committed writes that R52 holds are still performed, without MACK (R370)
      door := { heldAcc := (s.door.heldAcc.filter (·.isWrite)).map (fun h => { h with ackReq := false }) },
      jtag := s.jtag, thermTrip := s.thermTrip }
  let z := strapRegs z straps
  let z := rset z 0x0018 (BitVec.ofNat 32 (count % 2 ^ 16 * 2 ^ 16 + cause))
  let z := keep (keep (keep (keep z 0x201C) 0xD00C) 0xD014) 0xD018
  let z := rset z 0xD000 (rget s 0xD000 &&& 0x20#32)
  let z := (List.range 64).foldl (fun z m => rset z (0x2100 + 4 * m) (rget s (0x2100 + 4 * m) &&& 0x1C0#32)) z
  rset z 0x2000 (BitVec.ofNat 32 (2 + (if march then 4 else 0)))

/-- WARM_RESET: a low pulse on WRST_N, with STRAP_WARM latched at its rising edge (R430, R448). -/
def warmPulse (s : State) (strapWarm : Bool) : State :=
  if alive s then warmReset s 1 (setBit (rget s 0x0010) 15 strapWarm) else s

/-- An uncorrectable error in working SRAM met while the image is in use (R375, R450). -/
def wsFault (s : State) : State :=
  match s.boot.wsUe with
  | none => s
  | some off =>
    if s.boot.power == .up && loaded s then
      emitFault (bump (warmReset s 2 (rget s 0x0010)) 0xD054 1) { code := 0x29, args := [off] }
    else s

/-! ### The end of the march (R51 to R53, R443) -/

/-- MARCH_FAIL of a march before READY (R404). -/
def wakeFail (s : State) (op m bank row : Nat) : State :=
  emitFault (bump s 0xE048 1) { code := 0x27, kind := 2, unit := m, args := [32 * m + bank, row, op] }

/-- A bin found failed at cold power-up is remapped before READY (R25, R51), once however many rows of it fail. -/
def remapCold (s : State) (m : Nat) : State :=
  if rbit s (0x2100 + 4 * m) 8 then s
  else
  match chooseSpare s m with
  | none => binFailed s m 0
  | some k =>
    let off := 0x2100 + 4 * m
    judgeReplace (rsetBit (rsetBit (rsetFld s off 6 2 k) off 8 true) 0x201C k true)

/-- The remap copies that run before READY (R53); `fuel` bounds their number. -/
def finishCopies (s : State) : Nat → State
  | 0 => s
  | n + 1 => if s.coop.remap.isSome then finishCopies (remapCopied s) n else s

/-- The preserve-mode march of STRAP_WARM (R53, R396) over every bin: a bin is scrubbed up to the first row in which it fails. -/
def warmMarch (s : State) (failed : List (Nat × Nat × Nat)) : State :=
  (List.range 64).foldl
    (fun s m => scrubBin s m (((failed.filter (fun e => e.1 == m)).map (·.2.2)).foldl min 32768)) s

/-- CELLAR_READY: the end of boot. Time counts, what is due at instant 0 takes effect (`edge`), held accesses proceed, and a door
boot already asked for begins. -/
def cellarReady (edge : State → State) (s : State) (failed : List (Nat × Nat × Nat)) : State :=
  if s.boot.power == .march then
    let warm := s.boot.warm
    let marched := rbit s 0x2000 2
    let failed := if marched then failed else []
    let s := if warm && marched then warmMarch s failed else s
    let s := failed.foldl
      (fun s e =>
        let s := wakeFail s (if warm then 2 else 1) e.1 e.2.1 e.2.2
        if warm then failBin s e.1 0 else remapCold s e.1) s
    let s := if warm && !failed.isEmpty then finishCopies s 68 else s
    let s := rsetBit (rsetBit s 0x2000 2 false) 0x2000 0 true
    let s := { s with boot := { s.boot with power := .up }, time := { s.time with counting := true, nextEdge := 0 } }
    doorBoot (releaseFabric (regWriteCore 32) (releaseDoor (edge (takeRole s))))
  else s

/-! ### The commands -/

/-- COLD_RESET (R447). -/
def execColdReset (straps : Straps) (s : State) : Res := .next (coldReset s straps)
/-- COLD_RESET_START (R447, R502). -/
def execColdResetStart (s : State) : Res := .next (coldResetStart s)
/-- WARM_RESET (R448). -/
def execWarmReset (strapWarm : Bool) (s : State) : Res := .next (warmPulse s strapWarm)
/-- RAIL_OR_PLL_FAULT (R493). -/
def execRailOrPllFault (s : State) : Res := .next (railFault s)
/-- RAILS_RESTORED (R493). -/
def execRailsRestored (s : State) : Res := .next (railsRestored s)
/-- THERM_TRIP (R500): THERM_TRIP_N goes low and stays low; nothing else happens. -/
def execThermTrip (s : State) : Res := .next { s with thermTrip := true }
/-- IMAGE_LOAD (R443). -/
def execImageLoad (romParity : Bool) (copyA copyB : Option (List Byte)) (s : State) : Res :=
  .next (imageLoad s romParity copyA copyB)
/-- VTALLY_WAIT_TIMEOUT (R498). -/
def execVtallyWaitTimeout (s : State) : Res := .next (vtallyTimeout s)

end Sys2Proof.Machine
end

