-- ==== Sys2Proof/Machine/Access.lean ====
section
/-!
DEFINITION. Machine/Access.lean: register accesses by their routes (R460) and the commands that are register writes: vintage
commands (R301), cooper commands (R394), press and link resets (R451, R452), REACQUIRE (R123) and BOOT_GO (R444).
-/
namespace Sys2Proof.Machine

/-- A register write with every effect, the start of a door boot included (R444). -/
def regWrite (key : Nat) (s : State) (off : Nat) (v : Word) : State :=
  let s := regWriteCore key s off v
  if off / 4 * 4 = 0x0038 then doorBoot s else s

/-- Whether an access of a source reaches the register window (R323, R359, R460). -/
def reaches (s : State) : Source → Bool
  | .door m => alive s && (getMod s m.val).trained
  | .fabric port node => alive s && usable s port.val && regwinAdmits s node.toNat
  | src => alive s && hasPath ((srcMaster src).getD 3) .registers

/-- MATRIX_NOPATH (R440, R483), of an access to the register window. -/
def evNoPath (s : State) (master off : Nat) : State :=
  emit s { code := 0x05, kind := 10, unit := master, args := addrArgs (0x180000000 + off) }

/-- The access turned away: one REG_DENIED event for a fabric requester that R323 does not admit, and one MATRIX_NOPATH event for a
master without a path. -/
def turnedAway (s : State) (src : Source) (off : Nat) : State :=
  match src with
  | .fabric port node => if alive s && usable s port.val then evRegDenied s (whoPort port.val) off node.toNat else s
  | src => if alive s && !hasPath ((srcMaster src).getD 3) .registers then evNoPath s ((srcMaster src).getD 3) off else s

/-- Byte enables that do not cover the word: the write of a matrix master or of a fabric requester is discarded (R323, R460).
An RWR always covers its word. -/
def partialDenied (s : State) (src : Source) (off : Nat) : State :=
  match src with
  | .fabric port node => evRegDenied s (whoPort port.val) off node.toNat
  | _ => evRegDenied s (whoMatrix ((srcMaster src).getD 0)) off 0

/-- Whether a source's write covers its word. -/
def coversWord (src : Source) (enables : BitVec 4) : Bool :=
  enables == 0xF || (match src with
    | .door _ => true
    | _ => false)

/-- A register write of a source (R460, R461). -/
def srcWrite (s : State) (src : Source) (off : Nat) (v : Word) (enables : BitVec 4) : State :=
  if reaches s src then
    if coversWord src enables then regWrite (srcKey src) s off v else partialDenied s src off
  else turnedAway s src off

/-- A register read of a source, whose value goes back on its own route (R460, R462). -/
def srcRead (s : State) (src : Source) (off : Nat) : State :=
  if reaches s src then (regRead s src off).1 else turnedAway s src off

/-- The word of a vintage command (R312). -/
def vcWord (cmd h : Nat) (slot : Fin 4) : Word := BitVec.ofNat 32 (cmd * 2 ^ 28 + slot.val * 2 ^ 26 + h)
/-- The word of a cooper command (R408). -/
def coopWord (cmd target : Nat) : Word := BitVec.ofNat 32 (cmd * 2 ^ 28 + target)

/-- The LINK_RESET word of a port, with its bit. -/
def lresetOff (n : Nat) : Nat := if n < 32 then 0x30 else 0x34

/-! ### The commands -/

/-- REGISTER_WRITE (R461). -/
def execRegisterWrite (src : Source) (off : BitVec 20) (value : Word) (enables : BitVec 4) (s : State) : Res :=
  .next (srcWrite s src off.toNat value enables)
/-- LO_READ (R9). -/
def execLoRead (src : Source) (off : BitVec 20) (s : State) : Res := .next (srcRead s src off.toNat)
/-- OPEN (R301, R302): the write of CTL.VCMD. -/
def execVcOpen (src : Source) (handle : BitVec 12) (slot : Fin 4) (s : State) : Res :=
  .next (srcWrite s src 0x01D4 (vcWord 1 handle.toNat slot) 0xF)
/-- FLIP (R301, R302). -/
def execVcFlip (src : Source) (handle : BitVec 12) (slot : Fin 4) (s : State) : Res :=
  .next (srcWrite s src 0x01D4 (vcWord 2 handle.toNat slot) 0xF)
/-- DISCARD (R301, R302). -/
def execVcDiscard (src : Source) (handle : BitVec 12) (slot : Fin 4) (s : State) : Res :=
  .next (srcWrite s src 0x01D4 (vcWord 3 handle.toNat slot) 0xF)
/-- RETIRE (R301, R302). -/
def execVcRetire (src : Source) (handle : BitVec 12) (slot : Fin 4) (s : State) : Res :=
  .next (srcWrite s src 0x01D4 (vcWord 4 handle.toNat slot) 0xF)
/-- MARCH_DESTROY (R394, R395): the write of COOP.CMD. -/
def execMarchDestroy (src : Source) (bin : Fin 64) (s : State) : Res := .next (srcWrite s src 0xE000 (coopWord 1 bin.val) 0xF)
/-- MARCH_PRESERVE (R394, R396). -/
def execMarchPreserve (src : Source) (bin : Fin 64) (s : State) : Res :=
  .next (srcWrite s src 0xE000 (coopWord 2 bin.val) 0xF)
/-- TASTE (R394, R398). -/
def execTaste (src : Source) (p : Fin 64) (s : State) : Res := .next (srcWrite s src 0xE000 (coopWord 3 p.val) 0xF)
/-- PRESS_RESET (R451): the write of PRESS_RESET_LO or PRESS_RESET_HI. -/
def execPressReset (src : Source) (hi : Bool) (value : Word) (s : State) : Res :=
  .next (srcWrite s src (if hi then 0x2C else 0x28) value 0xF)
/-- PRESS_RESET_START (R451). -/
def execPressResetStart (p : Fin 64) (s : State) : Res := .next (pressResetStart s p.val)
/-- LINK_RESET (R452): the bit of a port written 1, the others as they stand. -/
def execLinkReset (src : Source) (port : Fin 48) (s : State) : Res :=
  .next (srcWrite s src (lresetOff port.val) (setBit (rget s (lresetOff port.val)) (port.val % 32) true) 0xF)
/-- LINK_RELEASE (R452): the bit of a port written 0. -/
def execLinkRelease (src : Source) (port : Fin 48) (s : State) : Res :=
  .next (srcWrite s src (lresetOff port.val) (setBit (rget s (lresetOff port.val)) (port.val % 32) false) 0xF)
/-- REACQUIRE (R123, R143): the bit of CAL.CTRL written 1, RUN as it is pending or in effect. The step that it permits waits for the
offset of the next exchange or pulse: an offset measured before is not used again (log 84). -/
def execReacquire (src : Source) (s : State) : Res :=
  let run := if bitAt (smGet s.regs.stagedMask 0x1000 0) 0 then bitAt (smGet s.regs.staged 0x1000 0) 0 else rbit s 0x1000 0
  .next (srcWrite s src 0x1000 (setBit 2#32 0 run) 0xF)
/-- BOOT_GO (R444). -/
def execBootGo (src : Source) (line : BitVec 19) (s : State) : Res :=
  .next (srcWrite s src 0x0038 (BitVec.ofNat 32 (2 ^ 31 + line.toNat)) 0xF)

end Sys2Proof.Machine
end

