-- ==== Sys2Proof/Machine/Fabric.lean ====
section
/-!
DEFINITION. Machine/Fabric.lean: transactions that arrive on an optical port (R322, R325, R333, R341 to R352).
-/
namespace Sys2Proof.Machine

/-! ### Pass-through (R322, R41, R42) -/

/-- A transaction passed on; its data stand in a pool block of the ingress port until their last flit has been sent (R17, R41). -/
def passOn (s : State) (port : Nat) (t : Txn) : State :=
  let s := if t.data.isEmpty then (forwardTxn s port t none).1
    else
      let y := takePool s port
      let s := fillPool y.1 y.2 t.data
      let r := forwardTxn s port t (some (port, y.2))
      if r.2 then r.1 else dropPool r.1 port y.2
  passedRx s port t

/-- Transactions of the port wait for the pool. -/
def portWaits (s : State) (port : Nat) : Bool := s.fab.poolWait.any (fun h => h.port == port)

/-- A pass-through transaction waits where the pool has no free block, or behind one of its port that waits (R42). -/
def passThrough (s : State) (port : Nat) (t : Txn) : State :=
  if !t.data.isEmpty && (poolFree s == 0 || portWaits s port) then
    { s with fab := { s.fab with poolWait := s.fab.poolWait ++ [⟨port, t⟩] } }
  else passOn s port t

/-- Copies of a multicast block towards the receivers of its MASK that are elsewhere, each with HOPS lowered (R333, R346); the block is
charged to its ingress port until the last copy has been sent (R41). -/
def multiOn (s : State) (port : Nat) (t : Txn) : State :=
  let rs := copyReceivers s t
  if t.hops = 0 then countUnrouted s port t.dnode true
  else
    let y := takePool s port
    let s := fillPool y.1 y.2 t.data
    let r := sendMulticast s { t with hops := t.hops - 1 } rs (some (port, y.2)) none
    if r.2.length = rs.length then dropPool r.1 port y.2 else r.1

/-- The part of a multicast block for receivers elsewhere leaves, or waits as other pass-through does. -/
def multiThrough (s : State) (port : Nat) (t : Txn) : State :=
  if t.mask = 0 then passedRx s port t
  else if t.hops != 0 && (poolFree s == 0 || portWaits s port) then
    { s with fab := { s.fab with poolWait := s.fab.poolWait ++ [⟨port, t⟩] } }
  else passedRx (multiOn s port t) port t

/-- Waiting pass-through transactions tried again in arrival order, and exported ones with them. -/
def drainPool (s : State) : State :=
  let w := s.fab.poolWait
  drainExport (w.foldl (fun s h => if h.txn.typ = 3 then multiThrough s h.port h.txn else passThrough s h.port h.txn) { s with fab := { s.fab with poolWait := [] } })

/-! ### Requests -/

/-- A transaction that the block has taken in gives its credits back. -/
def taken (s : State) (port : Nat) (t : Txn) : State :=
  takeRx s port (vcOf t.typ) (txnBytes t) false (fun x => txnStream x == txnStream t)

/-- A READ, WRITE or ATOMIC_ADD by its DNODE (R322): local, over the door, or passed through. -/
def request (s : State) (port : Fin 48) (t : Txn) : State :=
  if usable s port.val then
    if t.dnode.toNat = nodeId s then taken (localTxn (regWrite 32) s port t) port.val t
    else if doorNode s = some t.dnode.toNat then
      if t.typ = 1 ∧ recalled s t then answerX (taken s port.val t) t 7 0 none none else exportTxn s port.val t true
    else passThrough s port.val t
  else s

/-! ### MULTICAST_WRITE (R346) -/

/-- The part of a multicast block for one receiver on this node or its DOOR_NODE. -/
def multiHere (s : State) (port : Fin 48) (t : Txn) (r : Nat × Nat) : State :=
  let one := { t with mask := maskOf [r.1], dnode := BitVec.ofNat 16 r.2 }
  if r.2 = nodeId s then localTxn (regWrite 32) s port one
  else if discards s one then answerX s one 7 0 none none
  else exportTxn (noteLast (rejoinKey s one) one) port.val one false

/-- A transaction leaves the receive side of its port. -/
def leaveRx (s : State) (n : Nat) (t : Txn) : State :=
  let p := getPort s n
  setPort s n { p with rxIn := p.rxIn.eraseP (fun x => txnStream x == txnStream t) }

/-- A MULTICAST_WRITE: written at once for the receivers here, in the order of its flow (R328, R329), and forwarded towards the others,
with MASK reduced to them. -/
def multicastIn (s : State) (port : Fin 48) (t : Txn) : State :=
  if usable s port.val then
    let rs := copyReceivers s t
    let here := fun (r : Nat × Nat) => r.2 == nodeId s || doorNode s == some r.2
    let s := (rs.filter here).foldl (fun s r => multiHere s port t r) (leaveRx s port.val t)
    multiThrough s port.val { t with mask := maskOf ((rs.filter (fun r => !here r)).map (·.1)) }
  else s

/-! ### RECALL and GAP (R348, R352) -/

/-- The payload beat of a RECALL event message (R371). -/
def recallBeat (t : Txn) : List Byte :=
  leBytes 2 t.snode.toNat ++ leBytes 2 0 ++ leBytes 4 t.ident.toNat ++ leBytes 6 t.addr.toNat ++ leBytes 1 t.lenM1.toNat
    ++ List.replicate 49 0#8

/-- A RECALL taken: performed blocks marked, the block remembered, counted and recorded. -/
def takeRecall (s : State) (t : Txn) : State :=
  let hit := s.fab.performed.filter (fun e => e.1 == t.snode.toNat && e.2.1 == t.ident)
  let s := hit.foldl (fun s e => setMem s (sbPut s.mem (blockOf (physOf s (2048 * e.2.2))) sbRecall)) s
  let l := s.fab.recalls ++ [(t.snode.toNat, t.ident)]
  let s := { s with fab := { s.fab with recalls := l.drop (l.length - 4096) } }
  let s := if doorNode s = some t.dnode.toNat then
      queueEvt s ((exportModule s t.snode.toNat).getD 0) { code := 2, body := recallBeat t }
    else s
  emit (bump s 0x805C 1) { code := 0x1D, args := [t.snode.toNat, t.ident.toNat] }

/-- The last BLOCKID of a key that this node performed; free where there is none (log 41). -/
def lastOf (s : State) (t : Txn) : Word :=
  match s.fab.lastMc.find? (fun e => sameKey e t) with
  | some e => e.ident
  | none => Config.noLastBlock

/-- A GAP taken (R348): its key's entry, the oldest one dropped from a full table. -/
def takeGap (s : State) (t : Txn) : State :=
  let key := fun (snode group : Nat) => snode * 65536 + group
  let l := s.fab.gaps.filter (fun e => !sameKey e t)
  let e : GapEntry := ⟨t.snode.toNat, t.stream.toNat, t.group.toNat, t.ident⟩
  let s := emit (bump s 0x8064 1)
    { code := 0x1B, kind := 6, unit := t.stream.toNat,
      args := [key t.snode.toNat t.group.toNat, t.ident.toNat, (lastOf s t).toNat] }
  match l with
  | old :: rest =>
    if l.length < 256 then { s with fab := { s.fab with gaps := l ++ [e] } }
    else
      emit { s with fab := { s.fab with gaps := rest ++ [e] } }
        { code := 0x1C, kind := 6, unit := old.stream, args := [key old.snode old.group] }
  | [] => { s with fab := { s.fab with gaps := [e] } }

/-- A transaction for this node or its DOOR_NODE taken by `f`; any other passes through. -/
def takeOr (s : State) (port : Fin 48) (t : Txn) (f : State → State) : State :=
  if usable s port.val then
    if t.dnode.toNat = nodeId s ∨ doorNode s = some t.dnode.toNat then f (taken s port.val t)
    else passThrough s port.val t
  else s

/-- A transaction of reserved TYPE is skipped and counted (R325). -/
def reservedTxn (s : State) (port : Nat) (t : Txn) : State :=
  if usable s port then bump (takeRx s port 3 (48 + 64 * (t.lenM1.toNat + 1)) false (fun x => headerWords x == headerWords t)) 0x8048 1 else s

/-- RECALL_TABLE_EXPIRY: the oldest entry is dropped (R352). -/
def recallExpiry (s : State) : State := { s with fab := { s.fab with recalls := s.fab.recalls.drop 1 } }

/-! ### The commands -/

/-- READ (R335). -/
def execFabRead (port : Fin 48) (t : Txn) (s : State) : Res := .next (request s port { t with typ := 0, data := [], bmasks := [] })
/-- WRITE (R336). -/
def execFabWrite (port : Fin 48) (t : Txn) (s : State) : Res := .next (request s port { t with typ := 1 })
/-- ATOMIC_ADD (R338). -/
def execAtomicAdd (port : Fin 48) (t : Txn) (s : State) : Res := .next (request s port { t with typ := 2 })
/-- MULTICAST_WRITE (R346). -/
def execMulticastWrite (port : Fin 48) (t : Txn) (s : State) : Res := .next (multicastIn s port { t with typ := 3, partialW := false })
/-- RECALL (R352). -/
def execRecall (port : Fin 48) (t : Txn) (s : State) : Res :=
  let t := { t with typ := 4, data := [] }
  .next (takeOr s port t (fun s => takeRecall s t))
/-- GAP (R348). -/
def execGap (port : Fin 48) (t : Txn) (s : State) : Res :=
  let t := { t with typ := 5, data := [] }
  .next (takeOr s port t (fun s => takeGap s t))
/-- READ_RSP (R178, R199). -/
def execReadRsp (port : Fin 48) (t : Txn) (s : State) : Res :=
  let t := { t with typ := 8 }
  .next (takeOr s port t (fun s => rspReceived s t))
/-- ACK (R339). -/
def execAck (port : Fin 48) (t : Txn) (s : State) : Res :=
  let t := { t with typ := 9, data := [] }
  .next (takeOr s port t (fun s => drainPool (ackReceived s t)))
/-- FAB_RESERVED_TYPE (R325). -/
def execFabReservedType (port : Fin 48) (t : Txn) (s : State) : Res := .next (reservedTxn s port.val t)
/-- RECALL_TABLE_EXPIRY (R352). -/
def execRecallTableExpiry (s : State) : Res := .next (recallExpiry s)

end Sys2Proof.Machine
end

