-- ==== Sys2Proof/Machine/Door.lean ====
section
/-!
DEFINITION. Machine/Door.lean: the messages and events of the cellar door (R358 to R373). A message that arrives on a module
which does not carry messages has no effect (R359, R373).
-/
namespace Sys2Proof.Machine

/-- Module `m` carries messages (R373). -/
def carries (s : State) (m : Nat) : Bool := (getMod s m).trained

/-! ### MRD and MWR (R365, R52) -/

/-- A memory access performed, or held until READY or LOADED. -/
def takeAccess (s : State) (x : HeldAcc) : State :=
  if doorHolds s && holdsHere x.addr.toNat then { s with door := { s.door with heldAcc := s.door.heldAcc ++ [x] } }
  else doorAccess s x

/-- A tag still in flight: its MRD is held, or its MCPL has not left. -/
def tagInFlight (s : State) (m : Nat) (tag : BitVec 12) : Bool :=
  s.door.heldAcc.any (fun h => h.m == m && !h.isWrite && h.tag == tag)
    || (getMod s m).outq.any (fun o => match o with
        | .mcpl _ g _ _ _ => g == tag
        | _ => false)

/-- MRD: performed, held, or answered with zeros and REFUSED where its tag is in flight. -/
def takeMrd (s : State) (m : Nat) (addr : BitVec 48) (lenM1 : BitVec 5) (tag : BitVec 12) : State :=
  if carries s m then
    if tagInFlight s m tag then
      doorSend s m (.mcpl m tag 1 (addr.toNat / 64 * 64) (List.replicate (64 * (lenM1.toNat + 1)) 0#8))
    else takeAccess s { m := m, isWrite := false, addr := addr, lenM1 := lenM1, tag := tag }
  else s

/-- Every beat of an MWR, and every mask where PARTIAL = 1, has arrived. -/
def burstComplete (x : HeldAcc) : Bool :=
  decide (64 * (x.lenM1.toNat + 1) ≤ x.data.length) && (!x.partialW || decide (x.lenM1.toNat + 1 ≤ x.masks.length))

/-- MWR: committed once its last beat and mask have arrived; until then it is kept in part. -/
def takeMwr (s : State) (x : HeldAcc) : State :=
  if carries s x.m then
    if burstComplete x then takeAccess (setMod s x.m { (getMod s x.m) with part := none }) x
    else setMod s x.m { (getMod s x.m) with part := some x }
  else s

/-! ### RRD and RWR (R366) -/

/-- The window offset of a register message, where its address lies in the window. -/
def winOff (addr : BitVec 48) : Option Nat :=
  if region addr.toNat = .window then some ((addr.toNat - 0x180000000) / 4 * 4) else none

/-- The RCPL of a register message, unless its module has been reset since. -/
def rcplFor (s : State) (x : RegMsg) (code : Nat) (v : Word) : State :=
  if x.quiet then s else doorSend s x.m.val (.rcpl x.m.val x.tag code v)

/-- A register message received: it enters the queue of 64, or waits in its module's receive buffer while the queue is full. -/
def takeReg (s : State) (x : RegMsg) : State :=
  let y := getMod s x.m.val
  if y.trained then
    if s.door.regq.length < 64 then enterReg s x else setMod s x.m.val { y with regWait := y.regWait ++ [x] }
  else s

/-- The access of a register message, with its answer: one register word read through the host window, or written and echoed. -/
def performReg (s : State) (x : RegMsg) (off : Nat) : State :=
  let r := match x.value with
    | none => regRead s (.door x.m) off
    | some v => (regWrite (srcKey (.door x.m)) s off v, v)
  rcplFor r.1 x 0 r.2

/-- The next register message leaves the queue: it takes the control matrix, or is answered with WRONG_PATH. -/
def grantReg (s : State) : State :=
  match s.door.regq with
  | [] => s
  | x :: rest =>
    let s := refillReg { s with door := { s.door with regq := rest } } 1
    match x.off with
    | none => rcplFor s x 4 0
    | some _ => { s with door := { s.door with matrix := some x } }

/-- One control clock of the host window: an access takes two, the grant and the one on which it is performed (R442). -/
def matrixClock (s : State) : State :=
  match s.door.matrix with
  | none => grantReg s
  | some x => performReg { s with door := { s.door with matrix := none } } x (x.off.getD 0)

/-- Register messages are under way. -/
def regBusy (s : State) : Bool := s.door.matrix.isSome || !s.door.regq.isEmpty
/-- Register messages that wait or are under way. -/
def regLoad (s : State) : Nat := s.door.regq.length + (s.door.mods.map (fun e => e.2.regWait.length)).sum + 1

/-! ### Credits and reserved messages (R362, R364) -/

/-- CRD: the integrator's credits, with which waiting messages leave. -/
def takeCrd (s : State) (m beats headers : Nat) : State :=
  let x := getMod s m
  if x.trained then
    pumpDoor (setMod s m { x with hdrCredits := x.hdrCredits + headers, beatCredits := x.beatCredits + beats }) m x.outq.length
  else s

/-- Message types that the integrator sends (R362). -/
def inboundType (typ : Nat) : Bool := [0x01, 0x02, 0x03, 0x04, 0x07, 0x18, 0x19, 0x1D].contains typ

/-- Payload beats skipped after a header of a type that the block does not take. -/
def skippedBeats (typ lenM1 : Nat) : Nat := if typ = 0x09 ∨ typ = 0x0A ∨ typ = 0x10 then 0 else lenM1 + 1

/-- A reserved type, or one of the other direction: skipped and counted. -/
def takeReserved (s : State) (m typ lenM1 : Nat) : State :=
  if carries s m && !inboundType typ then returnCredits (bump s 0xC040 1) m (skippedBeats typ lenM1) 1 else s

/-! ### Training, faults and power states (R358 to R360) -/

/-- Modules may train: from the end of boot, and not in the dormant state (R359, R439). -/
def doorLives (s : State) : Bool := s.boot.power == .up && !dormant s

/-- MODULE_TRAINED: a bonded module comes up with empty queues and full credits, and flows may move to it (R367). -/
def moduleUp (s : State) (m : Nat) (rate repaired : BitVec 4) : State :=
  if doorLives s && bonded s m && !carries s m then
    let x := getMod s m
    let x : Module := { trained := true, rate := rate, repaired := repaired, resets := x.resets, nextTag := x.nextTag,
                        xreqs := x.xreqs, hdrCredits := rfld s 0xC00C 0 16, beatCredits := rfld s 0xC00C 16 16 }
    drainExport (returnCredits (setMod s m x) m 512 64)
  else s

/-- MODULE_LINK_FAULT: LinkReset, LinkError, exhausted retry or failed training (R360). -/
def moduleFault (s : State) (m : Nat) : State := if doorLives s then masterReset s m false else s

/-- MRST (R366). -/
def takeMrst (s : State) (m : Nat) : State := if carries s m then masterReset s m false else s

/-- XTMO_EXPIRY of an exported request in flight (R368). -/
def takeXtmo (s : State) (m : Nat) (tag : BitVec 12) : State :=
  match getX s m tag with
  | some x => drainExport (expireX s m x)
  | none => s

/-! ### Event messages (R371) -/

/-- The oldest event message of a module leaves, where the integrator's credits allow it. -/
def pumpEvt (s : State) (m : Nat) : State :=
  let x := getMod s m
  match x.evq with
  | [] => s
  | e :: rest =>
    if x.trained && x.outq.isEmpty && 1 ≤ x.hdrCredits && 1 ≤ x.beatCredits then
      sendOut (setMod s m { x with evq := rest, hdrCredits := x.hdrCredits - 1, beatCredits := x.beatCredits - 1 }) (.evt m e)
    else s

/-- One event message of each module. -/
def pumpEvts (s : State) : State := (List.range 16).foldl pumpEvt s

/-! ### The commands -/

/-- MRD (R365). -/
def execMrd (m : Fin 16) (addr : BitVec 48) (lenM1 : BitVec 5) (tag : BitVec 12) (s : State) : Res :=
  .next (takeMrd s m.val addr lenM1 tag)
/-- MWR (R365). -/
def execMwr (m : Fin 16) (addr : BitVec 48) (lenM1 : BitVec 5) (tag : BitVec 12) (partialW ackReq : Bool)
    (data : List Byte) (masks : List (BitVec 64)) (s : State) : Res :=
  .next (takeMwr s { m := m.val, isWrite := true, addr := addr, lenM1 := lenM1, tag := tag, ackReq := ackReq,
                     data := data, masks := masks, partialW := partialW })
/-- RRD (R366). -/
def execRrd (m : Fin 16) (addr : BitVec 48) (tag : BitVec 12) (s : State) : Res :=
  .next (takeReg s { m := m, off := winOff addr, tag := tag })
/-- RWR (R366). -/
def execRwr (m : Fin 16) (addr : BitVec 48) (tag : BitVec 12) (value : Word) (s : State) : Res :=
  .next (takeReg s { m := m, off := winOff addr, tag := tag, value := some value })
/-- MRST (R366, R370). -/
def execMrst (m : Fin 16) (s : State) : Res := .next (takeMrst s m.val)
/-- XCPL (R367). -/
def execXcpl (m : Fin 16) (tag : BitVec 12) (status : Byte) (lenM1 : BitVec 5) (data : List Byte) (s : State) : Res :=
  .next (takeXcpl s m.val tag status lenM1 data)
/-- XACK (R367, R369). -/
def execXack (m : Fin 16) (tag : BitVec 12) (status : Byte) (lanes : BitVec 16) (s : State) : Res :=
  .next (takeXack s m.val tag status lanes)
/-- CRD (R364). -/
def execCrd (m : Fin 16) (beats headers : BitVec 16) (s : State) : Res := .next (takeCrd s m.val beats.toNat headers.toNat)
/-- DOOR_RESERVED_TYPE (R362). -/
def execDoorReservedType (m : Fin 16) (typ lenM1 : BitVec 5) (s : State) : Res :=
  .next (takeReserved s m.val typ.toNat lenM1.toNat)
/-- MODULE_LINK_FAULT (R360, R370). -/
def execModuleLinkFault (m : Fin 16) (s : State) : Res := .next (moduleFault s m.val)
/-- MODULE_TRAINED (R359, R373). -/
def execModuleTrained (m : Fin 16) (rate repaired : BitVec 4) (s : State) : Res := .next (moduleUp s m.val rate repaired)
/-- XTMO_EXPIRY (R368). -/
def execXtmoExpiry (m : Fin 16) (tag : BitVec 12) (s : State) : Res := .next (takeXtmo s m.val tag)
/-- L1 (R358, R373): the link of a module that carries messages enters or leaves L1. -/
def execL1 (m : Fin 16) (enter : Bool) (s : State) : Res :=
  .next (if carries s m.val then setMod s m.val { (getMod s m.val) with l1 := enter } else s)

end Sys2Proof.Machine
end

