-- ==== Sys2Proof/Machine/Mgmt.lean ====
section
/-!
DEFINITION. Machine/Mgmt.lean: the management agent (R474 to R479, R484, R485) and the cellar book (R480 to R483). PORST_N
alone resets the agent; while it holds the block, the agent answers nothing.
-/
namespace Sys2Proof.Machine

/-! ### Records (R481) -/

/-- The 8 words of a record. -/
def recWords (r : BookRec) : List Word :=
  let e := r.ev
  let w0 := e.code % 256 * 2 ^ 24 + (if e.loss then 2 ^ 19 else 0) + (if e.fault then 2 ^ 18 else 0) + e.kind % 16 * 4096
    + e.unit % 4096
  BitVec.ofNat 32 w0 :: r.seq :: e.time.setWidth 32 :: (e.time >>> 32).setWidth 32
    :: (List.range 4).map (fun i => BitVec.ofNat 32 (nth e.args i 0))

/-- A record from its 8 words. -/
def recOfWords (ws : List Word) : BookRec :=
  let w := fun i => nth ws i 0#32
  { seq := w 1,
    ev := { code := fld (w 0) 24 8, kind := fld (w 0) 12 4, unit := fld (w 0) 0 12, args := (ws.drop 4).map (·.toNat),
            fault := bitAt (w 0) 18, loss := bitAt (w 0) 19, time := BitVec.ofNat 64 ((w 2).toNat + 2 ^ 32 * (w 3).toNat) } }

/-- Class A events (R483). -/
def classA (code : Nat) : Bool :=
  [0x0A, 0x0B, 0x11, 0x15, 0x16, 0x21, 0x22, 0x24, 0x25, 0x26, 0x27, 0x28, 0x29, 0x2B, 0x30].contains code

/-! ### MCTP packets in MGMT frames (R355, R479) -/

/-- The header of a Tatramond message: CODE, RSP, TAG (R476). -/
def tatHead (code rsp : Nat) (tag : BitVec 16) : List Byte := [BitVec.ofNat 8 code, BitVec.ofNat 8 rsp] ++ leBytes 2 tag.toNat

/-- An MCTP packet from its header onward, with SOM and EOM set: addresses, flags and a Tatramond message. -/
def mctpPacket (s : State) (peer : Byte) (flags : BitVec 6) (msg : List Byte) : List Byte :=
  [0x01#8, peer, s.mgmt.eid, 0xC0#8 ||| flags.setWidth 8] ++ [0x7F#8, 0x00#8, 0x00#8, 0xD1#8, 0xA7#8] ++ msg

/-- A MGMT frame to another node. -/
def sendMgmt (s : State) (node : BitVec 16) (packet : List Byte) : State :=
  let line := (BitVec.ofNat 8 packet.length :: packet) ++ List.replicate (63 - packet.length) 0#8
  let t : Txn := { typ := 7, dnode := node, snode := BitVec.ofNat 16 (nodeId s), data := line }
  match chooseRoute s t with
  | some n => enqueue s n { txn := t }
  | none => countUnrouted s 0 node false

/-- What a MGMT frame holds: a Tatramond message with the sender's endpoint ID and packet flags. -/
structure Packet where
  peer : Byte
  flags : Byte
  code : Nat
  rsp : Bool
  tag : BitVec 16
  payload : List Byte

/-- The packet of a frame's payload line; none for one that the agent discards (R475, R476, R479). -/
def readPacket (line : List Byte) : Option Packet :=
  let p := (line.drop 1).take (nth line 0 0#8).toNat
  if 13 ≤ p.length ∧ nth p 3 0#8 &&& 0xC0#8 = 0xC0#8 ∧ (p.drop 4).take 5 = [0x7F#8, 0x00#8, 0x00#8, 0xD1#8, 0xA7#8] then
    some { peer := nth p 2 0#8, flags := nth p 3 0#8, code := (nth p 9 0#8).toNat, rsp := (nth p 10 0#8).getLsbD 0,
           tag := BitVec.ofNat 16 (leNat ((p.drop 11).take 2)), payload := p.drop 13 }
  else none

/-! ### Events sent (R482, R484, R485) -/

/-- The node that is to receive events as well, where it is another one (R485). -/
def evtNode (s : State) : Option (BitVec 16) :=
  let w := rget s 0xF014
  if bitAt w 31 && fld w 0 16 != nodeId s then some (w.setWidth 16) else none

/-- The EVENT message of an event. -/
def eventMsg (e : SendEv) : List Byte :=
  tatHead 1 0 0 ++ leBytes 2 e.origin.toNat ++ [0#8, 0#8] ++ bytesOf (recWords e.item)

/-- An event queued for sending, and sent once to MGMT.EVT_NODE; or dropped where 64 are queued. -/
def queueSend (s : State) (e : SendEv) : State :=
  if s.book.send.length < 64 then
    let s := { s with book := { s.book with send := s.book.send ++ [e] } }
    match evtNode s with
    | some n => sendMgmt s n (mctpPacket s (Config.mctpPeer n.toNat) Config.mctpFlags (eventMsg e))
    | none => s
  else rsetBit (bump s 0xF040 1) 0xF000 8 true

/-- BOOK_WRITE: the first queued event becomes the next record, and is sent by its class. -/
def bookWrite (s : State) : State :=
  match s.book.queue with
  | [] => s
  | e :: rest =>
    let r : BookRec := { seq := s.book.head, ev := e }
    let s := { s with book := { s.book with queue := rest, recs := smPut s.book.recs (s.book.head.toNat % 8192) r,
                                            head := s.book.head + 1 } }
    if classA e.code || rbit s 0xF004 31 then queueSend s { origin := BitVec.ofNat 16 (nodeId s), item := r } else s

/-- An IBI is raised (R484). -/
def ibiRaised (s : State) : Bool := alive s && s.mgmt.ibi && !s.book.send.isEmpty

/-- The first undelivered event marked as delivered. -/
def deliverFirst : List SendEv → List SendEv
  | [] => []
  | e :: rest => if e.delivered then e :: deliverFirst rest else { e with delivered := true, again := false } :: rest

/-- PRIVATE_READ: the oldest undelivered event, while an IBI is raised. -/
def privateRead (s : State) : State :=
  if ibiRaised s then
    match s.book.send.find? (fun e => !e.delivered) with
    | none => s
    | some e =>
      let s := if e.again then bump s 0xF048 1 else s
      sendOut { s with book := { s.book with send := deliverFirst s.book.send } } (.mgmtEvent e.origin e.item)
  else s

/-- EVENT_RESEND: delivered events that no EVENT_ACK has covered are to be sent again, from the oldest. -/
def eventResend (s : State) : State :=
  { s with book := { s.book with send := s.book.send.map (fun e =>
      if e.delivered then { e with delivered := false, again := true } else e) } }

/-- EVENT_ACK: every event up to and including SEQ leaves the queue. -/
def eventAck (s : State) (seq : Word) : State :=
  if alive s then
    { s with book := { s.book with send := s.book.send.filter (fun e => !atOrAfter seq e.item.seq) } }
  else s

/-! ### Requests (R476 to R478) -/

/-- CODE of a request. -/
def reqCode : MgmtReq → Nat
  | .statusGet => 0x10
  | .regRead _ _ => 0x11
  | .regWrite _ _ => 0x12
  | .bookRead _ => 0x13
  | .other c => c.toNat

/-- The registers of STATUS_GET. -/
def statusRegs : List Nat := [0xD000, 0xD010, 0xD00C, 0x0014, 0x1004, 0x10004, 0xF000, 0xF010]

/-- A window offset, read modulo the size of the window. -/
def winWord (off : Word) : Nat := off.toNat % 0x100000 / 4 * 4

/-- Registers read by the agent, one word at a time. -/
def agentReads (s : State) (offs : List Nat) : State × List Word :=
  offs.foldl (fun acc off =>
    let r := regRead acc.1 .agent off
    (r.1, acc.2 ++ [r.2])) (s, [])

/-- A request performed: STATUS and the words of its response. -/
def performReq (s : State) (r : MgmtReq) : State × Nat × List Word :=
  match r with
  | .statusGet =>
    if ready s then
      let x := agentReads s statusRegs
      (x.1, 0, x.2)
    else (s, 1, [])
  | .regRead off count =>
    if ready s then
      let n := if count = 0 then 1 else min 8 count.toNat
      let x := agentReads s ((List.range n).map (fun i => (winWord off + 4 * i) % 0x100000))
      (x.1, 0, x.2)
    else (s, 1, [])
  | .regWrite off v => if ready s then (regWrite (srcKey .agent) s (winWord off) v, 0, []) else (s, 1, [])
  | .bookRead seq =>
    match s.book.recs.find? (fun e => e.2.seq == seq) with
    | some e => (s, 0, recWords e.2)
    | none => (s, 2, [])
  | .other _ => (s, 3, [])

/-- A request of the controller, performed and answered. -/
def answerReq (s : State) (tag : BitVec 16) (r : MgmtReq) : State :=
  if alive s then
    let x := performReq s r
    sendOut x.1 (.mgmtRsp (reqCode r) tag x.2.1 x.2.2)
  else s

/-- A response with its header. -/
def rspMsg (code : Nat) (tag : BitVec 16) (status : Nat) (ws : List Word) : List Byte :=
  tatHead code 1 tag ++ [BitVec.ofNat 8 status, 0#8, 0#8, 0#8] ++ bytesOf ws

/-- The bytes of an inner request. -/
def reqMsg (tag : BitVec 16) (r : MgmtReq) : List Byte :=
  tatHead (reqCode r) 0 tag ++
    match r with
    | .regRead off count => leBytes 4 off.toNat ++ [count]
    | .regWrite off v => leBytes 4 off.toNat ++ leBytes 4 v.toNat
    | .bookRead seq => leBytes 4 seq.toNat
    | _ => []

/-- The request that a CODE and a payload make. -/
def readReq (code : Nat) (p : List Byte) : MgmtReq :=
  if code = 0x10 then .statusGet
  else if code = 0x11 ∧ 5 ≤ p.length then .regRead (wordAt p 0) (nth p 4 0#8)
  else if code = 0x12 ∧ 8 ≤ p.length then .regWrite (wordAt p 0) (wordAt p 4)
  else if code = 0x13 ∧ 4 ≤ p.length then .bookRead (wordAt p 0)
  else .other (BitVec.ofNat 8 code)

/-- FORWARD (R479): performed here, sent to another node, or refused. -/
def forwardReq (s : State) (tag dnode innerTag : BitVec 16) (r : MgmtReq) : State :=
  let bad := match r with
    | .other _ => true
    | _ => false
  if alive s then
    if !ready s then sendOut s (.mgmtFwdRsp tag 1 [])
    else if bad then sendOut s (.mgmtFwdRsp tag 3 [])
    else if dnode.toNat = nodeId s then
      let x := performReq s r
      sendOut x.1 (.mgmtFwdRsp tag 0 (rspMsg (reqCode r) innerTag x.2.1 x.2.2))
    else
      let f : Fwd := { tag := tag, dnode := dnode, innerTag := innerTag, code := reqCode r }
      sendMgmt { s with mgmt := { s.mgmt with forwards := s.mgmt.forwards ++ [f] } } dnode
        (mctpPacket s (Config.mctpPeer dnode.toNat) Config.mctpFlags (reqMsg innerTag r))
  else s

/-- FWD_TIMEOUT: a FORWARD that still awaits its response. -/
def forwardLate (s : State) (tag : BitVec 16) : State :=
  match s.mgmt.forwards.find? (fun f => f.tag == tag) with
  | some f => sendOut { s with mgmt := { s.mgmt with forwards := s.mgmt.forwards.erase f } } (.mgmtFwdRsp tag 5 [])
  | none => s

/-! ### MGMT frames received (R355, R479, R485) -/

/-- MGMT.CFG.FWD_EN and MGMT.FWD admit a requester's node. -/
def fwdAdmits (s : State) (node : Nat) : Bool :=
  rbit s 0xF004 30 && Nat.land (Nat.xor node (rfld s 0xF018 0 16)) (rfld s 0xF018 16 16) == 0

/-- The response to a FORWARD of this node goes back to the controller; FWD_DENIED is its STATUS where the other agent
refused it. -/
def forwardAnswered (s : State) (node : BitVec 16) (p : Packet) : State :=
  match s.mgmt.forwards.find? (fun f => f.dnode == node && f.innerTag == p.tag && f.code == p.code) with
  | some f =>
    let code := if nth p.payload 0 0#8 = 4 then 4 else 0
    sendOut { s with mgmt := { s.mgmt with forwards := s.mgmt.forwards.erase f } }
      (.mgmtFwdRsp f.tag code (tatHead p.code 1 p.tag ++ p.payload))
  | none => s

/-- An EVENT of another node, queued as this node's own with its ORIGIN. -/
def takeEvent (s : State) (p : Packet) : State :=
  if 36 ≤ p.payload.length then
    queueSend s { origin := BitVec.ofNat 16 (leNat (p.payload.take 2)), item := recOfWords (wordsOf 8 (p.payload.drop 4)) }
  else s

/-- The request of another node's agent, performed where MGMT.FWD admits it, and answered. -/
def serveForward (s : State) (node : BitVec 16) (p : Packet) : State :=
  let r := readReq p.code p.payload
  let x := if fwdAdmits s node.toNat then performReq s r else (s, 4, [])
  sendMgmt x.1 node (mctpPacket s p.peer (p.flags.setWidth 6 &&& 0x07#6) (rspMsg p.code p.tag x.2.1 x.2.2))

/-- A MGMT frame for this node's agent. -/
def takeMgmt (s : State) (t : Txn) : State :=
  match readPacket t.data with
  | none => s
  | some p =>
    if p.rsp then forwardAnswered s t.snode p
    else if p.code = 1 then takeEvent s p
    else serveForward s t.snode p

/-- A MGMT frame by its DNODE (R322): the DOOR_NODE has no agent, and no door message carries the frame. -/
def mgmtIn (s : State) (port : Fin 48) (t : Txn) : State :=
  takeOr s port t (fun s => if t.dnode.toNat = nodeId s then takeMgmt s t else s)

/-! ### MCTP control messages (R475) -/

/-- A control response of the agent: the command's code, then its completion code and data. -/
def mctpAnswer (s : State) (code : Nat) (body : List Byte) : State := if alive s then sendOut s (.mctp code body) else s

/-- Set Endpoint ID: 0x00 and 0xFF are no endpoint IDs, and are answered as invalid data. -/
def setEid (s : State) (eid : Byte) : State :=
  if alive s then
    if eid = 0x00#8 ∨ eid = 0xFF#8 then mctpAnswer s 0x01 [0x02#8]
    else mctpAnswer { s with mgmt := { s.mgmt with eid := eid } } 0x01 [0x00#8, 0x00#8, eid, 0x00#8]
  else s

/-- Get Vendor Defined Message Support: the one set is the enterprise number of R476. -/
def vendorSupport (s : State) (selector : Byte) : State :=
  if selector = 0 then
    mctpAnswer s 0x06 ([0x00#8, 0xFF#8, 0x01#8, 0x00#8, 0x00#8, 0xD1#8, 0xA7#8] ++ beBytes 2 Config.mctpVendorSet.toNat)
  else mctpAnswer s 0x06 [0x02#8]

/-! ### I3C common commands (R474) -/

/-- The dynamic address, the IBI enable and the lengths changed while the agent runs. -/
def setMgmt (s : State) (f : Mgmt → Mgmt) : State := if alive s then { s with mgmt := f s.mgmt } else s

/-- What the target returns on the bus for a common command. -/
def i3cAnswer (s : State) (code : Nat) (body : List Byte) : State := if alive s then sendOut s (.i3c code body) else s

/-- ENTDAA: a target with no dynamic address sends its identity and takes the address. -/
def entdaa (s : State) (a : BitVec 7) : State :=
  if s.mgmt.da.isNone then
    i3cAnswer (setMgmt s (fun m => { m with da := some a })) 0x07
      (beBytes 6 Config.i3cPid.toNat ++ [Config.i3cBcr, Config.i3cDcr])
  else s

/-- The greatest write and read length, 69 B. -/
def capLength (n : BitVec 16) : BitVec 16 := if n.toNat ≤ 69 then n else 69

/-! ### The commands -/

/-- BOOK_WRITE (R482). -/
def execBookWrite (s : State) : Res := .next (bookWrite s)
/-- PRIVATE_READ (R484). -/
def execPrivateRead (s : State) : Res := .next (privateRead s)
/-- EVENT_RESEND (R484). -/
def execEventResend (s : State) : Res := .next (eventResend s)
/-- EVENT (R485). -/
def execEvent (port : Fin 48) (t : Txn) (s : State) : Res := .next (mgmtIn s port { t with typ := 7 })
/-- EVENT_ACK (R476, R484). -/
def execEventAck (seq : Word) (s : State) : Res := .next (eventAck s seq)
/-- STATUS_GET (R476). -/
def execStatusGet (tag : BitVec 16) (s : State) : Res := .next (answerReq s tag .statusGet)
/-- REG_READ (R476, R478). -/
def execRegRead (tag : BitVec 16) (off : Word) (count : Byte) (s : State) : Res := .next (answerReq s tag (.regRead off count))
/-- REG_WRITE (R476, R478). -/
def execRegWrite (tag : BitVec 16) (off value : Word) (s : State) : Res := .next (answerReq s tag (.regWrite off value))
/-- BOOK_READ (R476, R477). -/
def execBookRead (tag : BitVec 16) (seq : Word) (s : State) : Res := .next (answerReq s tag (.bookRead seq))
/-- FORWARD (R479). -/
def execForward (tag dnode innerTag : BitVec 16) (inner : MgmtReq) (s : State) : Res :=
  .next (forwardReq s tag dnode innerTag inner)
/-- FWD_TIMEOUT (R477). -/
def execFwdTimeout (tag : BitVec 16) (s : State) : Res := .next (forwardLate s tag)
/-- BAD_REQ (R476). -/
def execBadReq (tag : BitVec 16) (code : Byte) (s : State) : Res := .next (answerReq s tag (.other code))
/-- MGMT (R355). -/
def execMgmt (port : Fin 48) (t : Txn) (s : State) : Res := .next (mgmtIn s port { t with typ := 7 })
/-- Set Endpoint ID (R475). -/
def execSetEndpointId (eid : Byte) (s : State) : Res := .next (setEid s eid)
/-- Get Endpoint ID (R475). -/
def execGetEndpointId (s : State) : Res := .next (mctpAnswer s 0x02 [0x00#8, s.mgmt.eid, 0x00#8, 0x00#8])
/-- Get MCTP Version Support (R475). -/
def execGetMctpVersionSupport (s : State) : Res := .next (mctpAnswer s 0x04 (0x00#8 :: Config.mctpVersions))
/-- Get Message Type Support (R475): 0x00 and 0x7F. -/
def execGetMessageTypeSupport (s : State) : Res := .next (mctpAnswer s 0x05 [0x00#8, 0x02#8, 0x00#8, 0x7F#8])
/-- Get Vendor Defined Message Support (R475). -/
def execGetVendorDefinedMessageSupport (selector : Byte) (s : State) : Res := .next (vendorSupport s selector)
/-- ENTDAA (R474). -/
def execEntdaa (addr : BitVec 7) (s : State) : Res := .next (entdaa s addr)
/-- SETDASA (R474): the target takes a dynamic address where it has none. -/
def execSetdasa (addr : BitVec 7) (s : State) : Res :=
  .next (setMgmt s (fun m => if m.da.isNone then { m with da := some addr } else m))
/-- RSTDAA (R474). -/
def execRstdaa (s : State) : Res := .next (setMgmt s (fun m => { m with da := none }))
/-- ENEC (R474): bit 0 enables IBIs. -/
def execEnec (events : Byte) (s : State) : Res :=
  .next (setMgmt s (fun m => if events.getLsbD 0 then { m with ibi := true } else m))
/-- DISEC (R474): bit 0 disables IBIs. -/
def execDisec (events : Byte) (s : State) : Res :=
  .next (setMgmt s (fun m => if events.getLsbD 0 then { m with ibi := false } else m))
/-- GETPID (R474). -/
def execGetpid (s : State) : Res := .next (i3cAnswer s 0x8D (beBytes 6 Config.i3cPid.toNat))
/-- GETBCR (R474). -/
def execGetbcr (s : State) : Res := .next (i3cAnswer s 0x8E [Config.i3cBcr])
/-- GETDCR (R474). -/
def execGetdcr (s : State) : Res := .next (i3cAnswer s 0x8F [Config.i3cDcr])
/-- GETSTATUS (R474). -/
def execGetstatus (s : State) : Res := .next (i3cAnswer s 0x90 (beBytes 2 (Config.i3cStatus s.book.send.length).toNat))
/-- GETMWL (R474). -/
def execGetmwl (s : State) : Res := .next (i3cAnswer s 0x8B (beBytes 2 s.mgmt.mwl.toNat))
/-- GETMRL (R474). -/
def execGetmrl (s : State) : Res := .next (i3cAnswer s 0x8C (beBytes 2 s.mgmt.mrl.toNat ++ [Config.i3cIbiSize]))
/-- SETMWL (R474). -/
def execSetmwl (len : BitVec 16) (s : State) : Res := .next (setMgmt s (fun m => { m with mwl := capLength len }))
/-- SETMRL (R474). -/
def execSetmrl (len : BitVec 16) (s : State) : Res := .next (setMgmt s (fun m => { m with mrl := capLength len }))

end Sys2Proof.Machine
end

