-- ==== Sys2Proof/Machine/Calendar.lean ====
section
/-!
DEFINITION. Machine/Calendar.lean: the slot edge (R127 to R137), what is due at it, and the control clock that passes while no
command waits (log 1).
-/
namespace Sys2Proof.Machine

/-! ### The revolution boundary (R33, R391) -/

/-- MOVER_STARVED of each bin that reaches the threshold. -/
def starveAlarms (s : State) : State :=
  let lim := rfld s 0x2008 0 16
  let hit := s.coop.starved.filter (fun e => lim != 0 && lim ≤ e.2)
  let s := hit.foldl (fun s e => emit (rsetBit s 0x2000 5 true) { code := 0x0A, kind := 2, unit := e.1, args := [e.2] }) s
  { s with coop := { s.coop with starved := [] } }

/-- Bins whose corrected errors of the revolution reach the limit fail. -/
def ceLimits (s : State) : State :=
  let lim := rfld s 0xD008 16 16
  let hit := s.coop.binCe.filter (fun e => lim != 0 && lim ≤ e.2)
  hit.foldl (fun s e => failBin s e.1 2) { s with coop := { s.coop with binCe := [] } }

/-- The actions of a revolution boundary. -/
def revolution (s : State) : State := ceLimits (starveAlarms s)

/-! ### Pruning (R347) -/

/-- A receiver of a block is pruned at this edge: it lags, or the block's ACK timeout has passed. -/
def pruneDue (s : State) (o : OutTxn) : Bool :=
  let lag := rfld s 0x8010 0 8
  o.multicast && !o.acked && (o.late ||
    (match o.firstAckEdge with
     | some e => lag != 0 && decide (e + lag ≤ s.time.edges)
     | none => false))

/-- The blocks of a stream and a group. -/
def ofGroup (o : OutTxn) (st group : Nat) : Bool := o.multicast && o.stream == st && o.txn.group.toNat == group

/-- The receivers of a MULTICAST stage without a pruned one. -/
def Flight.dropReceiver (f : Flight) (st group r : Nat) : Flight :=
  if f.stream = st then
    { f with stages := f.stages.map (fun g =>
        if g.op = 0x20 ∧ fld (dOpa g.words) 20 12 = group then { g with recv := g.recv.filter (·.1 != r) } else g) }
  else f

/-- A pruned receiver is awaited for no block of the stream, and blocks and copies not yet sent leave with its bit clear. A block that is
still held waits for its check all the same. -/
def forgetReceiver (s : State) (st group r : Nat) : State :=
  let keep : BitVec 64 := ~~~(1#64 <<< r)
  let mine := fun (k : Nat) => s.fab.outs.any (fun o => o.key == k && ofGroup o st group)
  let outs := s.fab.outs.map (fun o =>
    if ofGroup o st group then
      let o := { o with receivers := o.receivers.filter (·.1 != r) }
      let wm := o.waitMask &&& keep
      if o.held then o
      else { o with waitMask := wm, acked := o.acked || wm == 0, txn := { o.txn with mask := o.txn.mask &&& keep } }
    else o)
  let flights := s.flights.map (fun (f : Flight) => f.dropReceiver st group r)
  let cut := fun (e : TxEntry) =>
    match e.own with
    | some k => if mine k then { e with txn := { e.txn with mask := e.txn.mask &&& keep } } else e
    | none => e
  let ports := s.fab.ports.map (fun (q : Nat × Port) => (q.1, { q.2 with wait := (q.2.wait.map cut).filter (fun e =>
    !(e.txn.typ == 3 && e.own.any mine && e.txn.mask == 0)) }))
  let s := { s with flights := flights, fab := { s.fab with outs := outs, ports := ports } }
  (outs.filter (fun o => ofGroup o st group)).foldl (fun s o => retireOut s o.key) s

/-- One receiver pruned: FAB.PRUNE, the card's count, FAB.GAP_TX, and the GAP that names its oldest block. -/
def pruneOne (s : State) (st group r node : Nat) : State :=
  match s.fab.outs.find? (fun o => ofGroup o st group && !o.held && o.waitMask.getLsbD r) with
  | none => s
  | some o =>
    let base := 0x9000 + 16 * st
    let s := if rbit s (base + 8) 31 && rfld s (base + 8) 0 12 == group then
        rsetBit s (if r < 32 then base else base + 4) (r % 32) true
      else s
    let s := updCnt (bump s 0x8060 1) o.fid (fun c =>
      { c with pruned := smPut c.pruned o.stage (smGet c.pruned o.stage 0 + 1) })
    let t : Txn := { typ := 5, dnode := BitVec.ofNat 16 node, stream := BitVec.ofNat 8 st, group := BitVec.ofNat 12 group,
                     ident := o.ident, mask := maskOf [r] }
    forgetReceiver (sendTxn s t none none).1 st group r

/-- Every receiver that is due, block by block. -/
def pruneAll (s : State) : State :=
  let due := (s.fab.outs.filter (pruneDue s)).flatMap (fun o =>
    (o.receivers.filter (fun r => o.waitMask.getLsbD r.1)).map (fun r => (o.stream, o.txn.group.toNat, r.1, r.2)))
  due.eraseDups.foldl (fun s d => pruneOne s d.1 d.2.1 d.2.2.1 d.2.2.2) s

/-! ### The slot entry (R131, R132) -/

/-- Entry `k`: its words, and whether it holds an uncorrectable error. The line that holds it is read as one access, so errors in its
other half are counted and recorded too; they do not spoil the entry (log 85). -/
def slotEntry (s : State) (k : Nat) : State × List Word × Bool :=
  let o := 64 * rfld s 0x100C 0 19 + 32 * k
  let y := masterLine s (o / 64 * 64)
  (y.1, (y.2.1.drop (o % 64 / 4)).take 8, trUe s o 32)

/-- The marks of an entry (R132): SYNC with its tiles, and COOP. -/
def slotMarks (s : State) (w6 : Word) : State :=
  let s := if bitAt w6 0 then syncMark s (fld w6 8 6) else s
  if bitAt w6 1 then coopTick s else s

/-! ### The edge (R129, R130, R144) -/

/-- CAL.STATUS.RUNNING judged at an edge. -/
def judgeRunning (s : State) : State :=
  let run := rbit s 0x1000 0
  if !run then rsetBit s 0x1004 1 false
  else if rbit s 0x1004 2 && loaded s then
    rsetBit { s with time := { s.time with runSeen := true } } 0x1004 1 true
  else s

/-- The quotas in effect from this edge let ports and waiting transactions go on (R42, R44). -/
def quotaEdge (s : State) : State := drainPool ((List.range 48).foldl resumeCredits s)

/-- What takes effect on the edge's control clock: vintage commands and releases, staged values, the revolution's actions
and the moves of decode. -/
def edgeEffects (s : State) (k : Nat) : State :=
  let s := quotaEdge (judgeRunning (applyStaged (vintageEdge s)))
  moveDecode (if k = 0 then revolution s else s)

/-- The cellar master's slot: the entry is read once the image is applied, its marks are issued, and while RUNNING its visits
are made from the fifth clock on (R134, R443). -/
def masterSlot (s : State) (k rev : Nat) : State :=
  if loaded s then
    let y := slotEntry s k
    let s := y.1
    let s := if y.2.2 then s else slotMarks s (nth y.2.1 6 0)
    let s := pruneAll (tasteReturn (preemptAll s))
    beginVisits s k rev (if running s && !y.2.2 then y.2.1.take 6 else [])
  else s

/-- The edge at `nextEdge` takes effect. -/
def edgeNow (s : State) : State :=
  let e := s.time.nextEdge
  let lam := lambda s
  let s := { s with time := { s.time with nextEdge := e + lam, edges := s.time.edges + 1, atEdge := true } }
  let k := slotAt lam e
  masterSlot (edgeEffects s k) k (revAt lam e)

/-- The next edge is due on this control clock, or has been reached (R21). -/
def edgeDue (s : State) : Bool := s.time.counting && decide (s.time.nextEdge ≤ s.time.ftime.toNat)

/-- The edge, if it is due. -/
def edgeIfDue (s : State) : State := if edgeDue s then edgeNow s else s

/-! ### Control clocks -/

/-- Event messages leave, one of each module on each of `n` control clocks. -/
def pumpClocks (s : State) (n : Nat) : State :=
  (List.range (min n ((s.door.mods.map (fun e => e.2.evq.length)).foldl max 0))).foldl (fun s _ => pumpEvts s) s

/-- What a control clock brings beside counting, `n` clocks having passed since fabric time was `old`: the pulse, press resets, the
event queues, the tally, a working-SRAM error, which is a warm reset (R450), the edge, if it is due, and after it the access of a register
message that completes on this clock (R130, R366). -/
def clockEffects (s : State) (old n : Nat) : State :=
  let s := tallyRuns (wsFault (resetClocks (pumpClocks (pulseSince s old) n) n)) n
  matrixClock (masterClock (if edgeDue s then edgeNow s else drainPool s))

/-- One control clock. -/
def oneClock (s : State) : State := clockEffects (countClock s) s.time.ftime.toNat 1

/-- The control clocks until fabric time reaches the next edge, while slewing goes on; `fuel` bounds them. -/
def runToEdge (s : State) : Nat → State
  | 0 => s
  | n + 1 => if s.time.nextEdge ≤ s.time.ftime.toNat then s else runToEdge (countClock s) n

/-- Fabric time on the control clock of the next edge (R21). -/
def toEdge (s : State) : State :=
  let target := s.time.nextEdge
  if target ≤ s.time.ftime.toNat then s
  else if s.time.slew = 0 ∧ rbit s 0x1004 4 = false then
    let n := ceilDiv (target * unitsPerNs - timeUnits s) unitsPerClock
    let s := setTimeUnits s (timeUnits s + n * unitsPerClock : Nat)
    { s with time := { s.time with clocks := s.time.clocks + n } }
  else runToEdge s (target - s.time.ftime.toNat)

/-- The cellar master or the host window is at work, or fabric time steps on the next clock. -/
def clockByClock (s : State) : Bool := (getMaster s).stage != .idle || s.time.stepDue.isSome || regBusy s

/-- The control clocks on which the visits of the slot in progress are made, before any edge after `e` edges; `fuel` bounds them. -/
def leadClocks (s : State) (e : Nat) : Nat → State
  | 0 => s
  | n + 1 => if clockByClock s && s.time.edges = e then leadClocks (oneClock s) e n else s

/-- The next control clock is that of a slot edge. -/
def edgeAhead (s : State) : Bool := edgeDue (countClock s)

/-- The control clocks of the visits of a slot, short of the next edge; `fuel` bounds them. -/
def visitClocks (s : State) : Nat → State
  | 0 => s
  | n + 1 => if clockByClock s && !edgeAhead s then visitClocks (oneClock s) n else s

/-- The most control clocks that the visits of one slot take (R134): 4, and 2 and 4 for each of 16 entries in each of six visits. -/
def slotFuel : Nat := 400

/-- Time runs on until the next edge has taken effect. -/
def reachEdge (s : State) : State :=
  let e := s.time.edges
  let s := leadClocks s e (slotFuel + 2 * regLoad s)
  if s.time.edges = e ∧ s.time.counting then
    let t := toEdge s
    clockEffects t s.time.ftime.toNat (t.time.clocks - s.time.clocks)
  else s

/-- SLOT_EDGE: time runs to the next edge, which takes effect, and on to the end of the slot's visits or the clock before the next
edge (log 1). The edge's own clock is still `atEdge` for the commands that a slot edge permits. Before the end of boot there is no
edge. -/
def slotEdge (s : State) : State :=
  if s.time.counting then
    let s := reachEdge { s with time := { s.time with atEdge := false }, regs := { s.regs with before := none } }
    let edge := s.time.atEdge
    let s := visitClocks s (slotFuel + 2 * regLoad s)
    { s with time := { s.time with atEdge := edge } }
  else s

/-- One control clock with no command waiting (log 1); the commands that come before the next step of time fall on it (log 87). -/
def clockTick (s : State) : State :=
  if alive s then
    oneClock { s with time := { s.time with atEdge := false }, regs := { s.regs with before := some s.regs.vals } }
  else s

/-! ### The commands -/

/-- SLOT_EDGE (R129). -/
def execSlotEdge (s : State) : Res := .next (slotEdge s)
/-- CELLAR_READY (R52): the edge at instant 0 takes effect on the control clock of the end of boot (R119). -/
def execCellarReady (failed : List (Fin 64 × Fin 32 × BitVec 15)) (s : State) : Res :=
  .next (cellarReady edgeIfDue s (failed.map (fun e => (e.1.val, e.2.1.val, e.2.2.toNat))))
/-- FTIME_PULSE_IN (R121, R494). -/
def execFtimePulseIn (stayedHigh : Bool) (s : State) : Res := .next (edgeIfDue (pulseReceived s stayedHigh))

end Sys2Proof.Machine
end

