-- ==== Sys2Proof/Machine/Jtag.lean ====
section
/-!
DEFINITION. Machine/Jtag.lean: the test access port (R506, R507). An instruction acts on pins only while PORST_N is low.
-/
namespace Sys2Proof.Machine

/-- An instruction selected; the port is no longer in Test-Logic-Reset. -/
def selectIr (s : State) (i : JInstr) : State := { s with jtag := { s.jtag with ir := i, inReset := false } }

/-- What the pins are driven with from the boundary scan register, if anything: EXTEST and CLAMP while PORST_N is low. -/
def pinsDriven (s : State) : Option Nat :=
  if s.boot.porstLow && (s.jtag.ir == .extest || s.jtag.ir == .clamp) then some s.jtag.bsr else none

/-- The outputs are released by HIGHZ. -/
def pinsReleased (s : State) : Bool := s.boot.porstLow && s.jtag.ir == .highz

/-- The pins as the test access port drives them now. -/
def showPins (s : State) : State :=
  match pinsDriven s with
  | some v => sendOut s (.jtagPins v)
  | none => s

/-- The device identification (R506). -/
def idWord : Word := 0x26D146BF#32

/-- SAMPLE/PRELOAD: the register takes what is shifted in, or what the pins present (log 33). -/
def samplePreload (s : State) : Option Nat → State
  | some v => { s with jtag := { s.jtag with bsr := v } }
  | none =>
    let v := Config.pinSample s.draw
    sendOut { drawn s with jtag := { s.jtag with bsr := v } } (.jtagPins v)

/-! ### The commands -/

/-- EXTEST (R506, R507). -/
def execExtest (s : State) : Res := .next (showPins (selectIr s .extest))
/-- IDCODE (R506). -/
def execIdcode (s : State) : Res := .next (sendOut (selectIr s .idcode) (.jtagId idWord))
/-- SAMPLE/PRELOAD (R506). -/
def execSamplePreload (load : Option Nat) (s : State) : Res := .next (samplePreload (selectIr s .sample) load)
/-- CLAMP (R506, R507). -/
def execClamp (s : State) : Res := .next (showPins (selectIr s .clamp))
/-- HIGHZ (R506, R507). -/
def execHighz (s : State) : Res := .next (selectIr s .highz)
/-- BYPASS (R506). -/
def execBypass (s : State) : Res := .next (selectIr s .bypass)
/-- TEST_LOGIC_RESET (R506): IDCODE is selected. -/
def execTestLogicReset (s : State) : Res := .next { s with jtag := { s.jtag with ir := .idcode, inReset := true } }

end Sys2Proof.Machine
end

