-- ==== Sys2Proof/Machine/Dispatch.lean ====
section
/-!
DEFINITION. Machine/Dispatch.lean: the effect of every command on everything but the queue, one arm for each row of
spec/opcode_table.json.
-/
namespace Sys2Proof.Machine

def exec (i : Instr) (s : State) : Host.Outcome State Fault Refusal :=
  match i with
  | .coldReset straps => Sys2Proof.Machine.execColdReset straps s
  | .warmReset strapWarm => Sys2Proof.Machine.execWarmReset strapWarm s
  | .railOrPllFault => Sys2Proof.Machine.execRailOrPllFault s
  | .thermTrip => Sys2Proof.Machine.execThermTrip s
  | .cellarReady failed => Sys2Proof.Machine.execCellarReady failed s
  | .imageLoad romParity copyA copyB => Sys2Proof.Machine.execImageLoad romParity copyA copyB s
  | .vtallyWaitTimeout => Sys2Proof.Machine.execVtallyWaitTimeout s
  | .bootGo src line => Sys2Proof.Machine.execBootGo src line s
  | .slotEdge => Sys2Proof.Machine.execSlotEdge s
  | .ftimePulseOut => Sys2Proof.Machine.execFtimePulseOut s
  | .ftimePulseIn stayedHigh => Sys2Proof.Machine.execFtimePulseIn stayedHigh s
  | .altInUse => Sys2Proof.Machine.execAltInUse s
  | .holdover => Sys2Proof.Machine.execHoldover s
  | .reacquire src => Sys2Proof.Machine.execReacquire src s
  | .dispatch terrace => Sys2Proof.Machine.execDispatch terrace s
  | .rack p => Sys2Proof.Machine.execRack p s
  | .riddle p => Sys2Proof.Machine.execRiddle p s
  | .permute p => Sys2Proof.Machine.execPermute p s
  | .fill p => Sys2Proof.Machine.execFill p s
  | .decant p => Sys2Proof.Machine.execDecant p s
  | .gather p => Sys2Proof.Machine.execGather p s
  | .scatter p => Sys2Proof.Machine.execScatter p s
  | .scatterAdd p => Sys2Proof.Machine.execScatterAdd p s
  | .pool p => Sys2Proof.Machine.execPool p s
  | .interact p => Sys2Proof.Machine.execInteract p s
  | .sort p => Sys2Proof.Machine.execSort p s
  | .topk p => Sys2Proof.Machine.execTopk p s
  | .egress p => Sys2Proof.Machine.execEgress p s
  | .multicast p => Sys2Proof.Machine.execMulticast p s
  | .blend p => Sys2Proof.Machine.execBlend p s
  | .fence st => Sys2Proof.Machine.execFence st s
  | .fenceComplete st => Sys2Proof.Machine.execFenceComplete st s
  | .nop st => Sys2Proof.Machine.execNop st s
  | .opReserved st => Sys2Proof.Machine.execOpReserved st s
  | .loadLineReturn p => Sys2Proof.Machine.execLoadLineReturn p s
  | .fabricReadTimeout p tag => Sys2Proof.Machine.execFabricReadTimeout p tag s
  | .stagingCopyDone p => Sys2Proof.Machine.execStagingCopyDone p s
  | .sortTableGrant terrace => Sys2Proof.Machine.execSortTableGrant terrace s
  | .passStore p boardUe => Sys2Proof.Machine.execPassStore p boardUe s
  | .lotVerdict p fault => Sys2Proof.Machine.execLotVerdict p fault s
  | .saveFrameDone p => Sys2Proof.Machine.execSaveFrameDone p s
  | .resume p => Sys2Proof.Machine.execResume p s
  | .cardWrite st => Sys2Proof.Machine.execCardWrite st s
  | .tapRecord st uncorrectable => Sys2Proof.Machine.execTapRecord st uncorrectable s
  | .periodicCheckpoint => Sys2Proof.Machine.execPeriodicCheckpoint s
  | .statement => Sys2Proof.Machine.execStatement s
  | .finalCheckpoint completes => Sys2Proof.Machine.execFinalCheckpoint completes s
  | .tallyRestore => Sys2Proof.Machine.execTallyRestore s
  | .tallyHoldup => Sys2Proof.Machine.execTallyHoldup s
  | .tallyWriteAttempt src off => Sys2Proof.Machine.execTallyWriteAttempt src off s
  | .vcOpen src handle slot => Sys2Proof.Machine.execVcOpen src handle slot s
  | .vcFlip src handle slot => Sys2Proof.Machine.execVcFlip src handle slot s
  | .vcDiscard src handle slot => Sys2Proof.Machine.execVcDiscard src handle slot s
  | .vcRetire src handle slot => Sys2Proof.Machine.execVcRetire src handle slot s
  | .marchDestroy src bin => Sys2Proof.Machine.execMarchDestroy src bin s
  | .marchPreserve src bin => Sys2Proof.Machine.execMarchPreserve src bin s
  | .marchComplete mismatch => Sys2Proof.Machine.execMarchComplete mismatch s
  | .remapCopyDone => Sys2Proof.Machine.execRemapCopyDone s
  | .taste src p => Sys2Proof.Machine.execTaste src p s
  | .stressEnter => Sys2Proof.Machine.execStressEnter s
  | .tasteComplete fails => Sys2Proof.Machine.execTasteComplete fails s
  | .pressReset src hi value => Sys2Proof.Machine.execPressReset src hi value s
  | .pressResetStart p => Sys2Proof.Machine.execPressResetStart p s
  | .linkReset src port => Sys2Proof.Machine.execLinkReset src port s
  | .linkRelease src port => Sys2Proof.Machine.execLinkRelease src port s
  | .registerWrite src off value enables => Sys2Proof.Machine.execRegisterWrite src off value enables s
  | .loRead src off => Sys2Proof.Machine.execLoRead src off s
  | .flit port bytes => Sys2Proof.Machine.execFlit port bytes s
  | .wavelengthDrop port wavelength => Sys2Proof.Machine.execWavelengthDrop port wavelength s
  | .retrainDone port up => Sys2Proof.Machine.execRetrainDone port up s
  | .portLost port => Sys2Proof.Machine.execPortLost port s
  | .portTrain port peer up => Sys2Proof.Machine.execPortTrain port peer up s
  | .fabRead port t => Sys2Proof.Machine.execFabRead port t s
  | .fabWrite port t => Sys2Proof.Machine.execFabWrite port t s
  | .atomicAdd port t => Sys2Proof.Machine.execAtomicAdd port t s
  | .multicastWrite port t => Sys2Proof.Machine.execMulticastWrite port t s
  | .recallTxn port t => Sys2Proof.Machine.execRecall port t s
  | .gap port t => Sys2Proof.Machine.execGap port t s
  | .mgmt port t => Sys2Proof.Machine.execMgmt port t s
  | .readRsp port t => Sys2Proof.Machine.execReadRsp port t s
  | .ack port t => Sys2Proof.Machine.execAck port t s
  | .fabReservedType port t => Sys2Proof.Machine.execFabReservedType port t s
  | .sync port seqId => Sys2Proof.Machine.execSync port seqId s
  | .followUp port seqId t1 => Sys2Proof.Machine.execFollowUp port seqId t1 s
  | .delayReq port seqId => Sys2Proof.Machine.execDelayReq port seqId s
  | .delayResp port seqId t4 => Sys2Proof.Machine.execDelayResp port seqId t4 s
  | .ackTimeout blockId => Sys2Proof.Machine.execAckTimeout blockId s
  | .recallTableExpiry => Sys2Proof.Machine.execRecallTableExpiry s
  | .mrd m addr lenM1 tag => Sys2Proof.Machine.execMrd m addr lenM1 tag s
  | .mwr m addr lenM1 tag partialW ackReq data masks => Sys2Proof.Machine.execMwr m addr lenM1 tag partialW ackReq data masks s
  | .rrd m addr tag => Sys2Proof.Machine.execRrd m addr tag s
  | .rwr m addr tag value => Sys2Proof.Machine.execRwr m addr tag value s
  | .mrst m => Sys2Proof.Machine.execMrst m s
  | .xcpl m tag status lenM1 data => Sys2Proof.Machine.execXcpl m tag status lenM1 data s
  | .xack m tag status lanes => Sys2Proof.Machine.execXack m tag status lanes s
  | .crd m beats headers => Sys2Proof.Machine.execCrd m beats headers s
  | .doorReservedType m typ lenM1 => Sys2Proof.Machine.execDoorReservedType m typ lenM1 s
  | .moduleLinkFault m => Sys2Proof.Machine.execModuleLinkFault m s
  | .moduleTrained m rate repaired => Sys2Proof.Machine.execModuleTrained m rate repaired s
  | .xtmoExpiry m tag => Sys2Proof.Machine.execXtmoExpiry m tag s
  | .bookWrite => Sys2Proof.Machine.execBookWrite s
  | .privateRead => Sys2Proof.Machine.execPrivateRead s
  | .eventResend => Sys2Proof.Machine.execEventResend s
  | .event port t => Sys2Proof.Machine.execEvent port t s
  | .eventAck seq => Sys2Proof.Machine.execEventAck seq s
  | .statusGet tag => Sys2Proof.Machine.execStatusGet tag s
  | .regRead tag off count => Sys2Proof.Machine.execRegRead tag off count s
  | .regWrite tag off value => Sys2Proof.Machine.execRegWrite tag off value s
  | .bookRead tag seq => Sys2Proof.Machine.execBookRead tag seq s
  | .forward tag dnode innerTag inner => Sys2Proof.Machine.execForward tag dnode innerTag inner s
  | .fwdTimeout tag => Sys2Proof.Machine.execFwdTimeout tag s
  | .setEndpointId eid => Sys2Proof.Machine.execSetEndpointId eid s
  | .getEndpointId => Sys2Proof.Machine.execGetEndpointId s
  | .getMctpVersionSupport => Sys2Proof.Machine.execGetMctpVersionSupport s
  | .getMessageTypeSupport => Sys2Proof.Machine.execGetMessageTypeSupport s
  | .getVendorDefinedMessageSupport selector => Sys2Proof.Machine.execGetVendorDefinedMessageSupport selector s
  | .entdaa addr => Sys2Proof.Machine.execEntdaa addr s
  | .setdasa addr => Sys2Proof.Machine.execSetdasa addr s
  | .rstdaa => Sys2Proof.Machine.execRstdaa s
  | .enec events => Sys2Proof.Machine.execEnec events s
  | .disec events => Sys2Proof.Machine.execDisec events s
  | .getpid => Sys2Proof.Machine.execGetpid s
  | .getbcr => Sys2Proof.Machine.execGetbcr s
  | .getdcr => Sys2Proof.Machine.execGetdcr s
  | .getstatus => Sys2Proof.Machine.execGetstatus s
  | .getmwl => Sys2Proof.Machine.execGetmwl s
  | .getmrl => Sys2Proof.Machine.execGetmrl s
  | .setmwl len => Sys2Proof.Machine.execSetmwl len s
  | .setmrl len => Sys2Proof.Machine.execSetmrl len s
  | .extest => Sys2Proof.Machine.execExtest s
  | .idcode => Sys2Proof.Machine.execIdcode s
  | .samplePreload load => Sys2Proof.Machine.execSamplePreload load s
  | .clamp => Sys2Proof.Machine.execClamp s
  | .highz => Sys2Proof.Machine.execHighz s
  | .bypass => Sys2Proof.Machine.execBypass s
  | .testLogicReset => Sys2Proof.Machine.execTestLogicReset s
  | .coldResetStart => Sys2Proof.Machine.execColdResetStart s
  | .railsRestored => Sys2Proof.Machine.execRailsRestored s
  | .refclkRestored => Sys2Proof.Machine.execRefclkRestored s
  | .tallyWait => Sys2Proof.Machine.execTallyWait s
  | .badReq tag code => Sys2Proof.Machine.execBadReq tag code s
  | .l1 m enter => Sys2Proof.Machine.execL1 m enter s

end Sys2Proof.Machine
end

