-- ==== Sys2Proof/WellFormed.lean ====
section
/-!
DEFINITION. WellFormed.lean: the commands that the spec's encodings can spell: a payload as long as its header says, a
reserved TYPE or CODE where the row is about one, a register number on a word, a link rate that exists. The meanings are
total; an ill-formed command is one that no sender of the block can form.
-/
namespace Sys2Proof

/-- The number of set bits of a mask. -/
def maskCount (m : BitVec 64) : Nat := (List.range 64).countP (fun i => m.getLsbD i)

/-- The payload bytes of `lenM1 + 1` units of 64 B (R324, R361). -/
def payloadLen (lenM1 : BitVec 5) : Nat := 64 * (lenM1.toNat + 1)

/-- The bytes of one contribution of destination format `dfmt` (R114, R338). -/
def laneLen (dfmt : BitVec 8) : Nat := if dfmt = 0x12 then 8 else 4

/-- No payload follows the header (R325). -/
def Txn.bare (t : Txn) : Bool := t.data.isEmpty && t.bmasks.isEmpty

/-- `LEN_M1 + 1` lines follow the header, and no byte masks (R325). -/
def Txn.lines (t : Txn) : Bool := t.data.length == payloadLen t.lenM1 && t.bmasks.isEmpty

/-- The payload of a WRITE: lines, then one byte mask a line if PARTIAL is set (R325, R327). -/
def Txn.writeShape (t : Txn) : Bool :=
  t.data.length == payloadLen t.lenM1 && t.bmasks.length == (if t.partialW then t.lenM1.toNat + 1 else 0)

/-- The payload of an ATOMIC_ADD: one contribution for each enabled lane, padded to whole lines (R338). -/
def Txn.addShape (t : Txn) : Bool :=
  t.data.length == 64 * ((laneLen t.code * maskCount t.mask + 63) / 64) && t.bmasks.isEmpty

/-- The request codes that R476 admits. -/
def mgmtCodes : List Nat := [0x02, 0x10, 0x11, 0x12, 0x13, 0x14]

/-- An inner request that R476 admits, or one that carries a code which the table does not admit there. -/
def MgmtReq.wf : MgmtReq → Bool
  | .statusGet => true
  | .regRead _ _ => true
  | .regWrite _ _ => true
  | .bookRead _ => true
  | .other code => !([0x10, 0x11, 0x12, 0x13].contains code.toNat)

/-- The door types that carry no row of their own: reserved ones, and those of the other direction (R362). -/
def doorBadTypes (typ : Nat) : Bool := !([0x01, 0x02, 0x03, 0x04, 0x07, 0x18, 0x19, 0x1D].contains typ)

/-- The command can be formed. -/
def Instr.wf : Instr → Bool
  | .registerWrite _ off _ _ => off.toNat % 4 == 0
  | .loRead _ off => off.toNat % 4 == 0
  | .flit _ (.flit bytes) => bytes.length == 256
  | .flit _ (.codeword _ symbols) => symbols.length == 544
  | .retrainDone _ _ => true
  | .portTrain _ _ t => t.up != 0
  | .fabRead _ t => t.typ == 0 && t.bare
  | .fabWrite _ t => t.typ == 1 && t.writeShape
  | .atomicAdd _ t => t.typ == 2 && t.addShape
  | .multicastWrite _ t => t.typ == 3 && t.lines
  | .recallTxn _ t => t.typ == 4 && t.bare
  | .gap _ t => t.typ == 5 && t.bare
  | .mgmt _ t => t.typ == 7 && t.lines
  | .readRsp _ t => t.typ == 8 && t.lines
  | .ack _ t => t.typ == 9 && t.bare
  | .fabReservedType _ t => decide (10 ≤ t.typ.toNat)
  | .mwr _ _ lenM1 _ partialW _ data masks =>
    data.length == payloadLen lenM1 && masks.length == (if partialW then lenM1.toNat + 1 else 0)
  | .xcpl _ _ _ lenM1 data => data.length == payloadLen lenM1
  | .doorReservedType _ typ _ => doorBadTypes typ.toNat
  | .moduleTrained _ rate _ => decide (1 ≤ rate.toNat) && decide (rate.toNat ≤ 6)
  | .event _ t => t.typ == 7 && t.lines
  | .forward _ _ _ inner => inner.wf
  | .badReq _ code => !(mgmtCodes.contains code.toNat)
  | .coldReset _ | .warmReset _ | .railOrPllFault | .thermTrip | .cellarReady _ | .imageLoad _ _ _ | .vtallyWaitTimeout
  | .bootGo _ _ | .slotEdge | .ftimePulseOut | .ftimePulseIn _ | .altInUse | .holdover | .reacquire _ | .dispatch _
  | .rack _ | .riddle _ | .permute _ | .fill _ | .decant _ | .gather _ | .scatter _ | .scatterAdd _ | .pool _
  | .interact _ | .sort _ | .topk _ | .egress _ | .multicast _ | .blend _ | .fence _ | .fenceComplete _ | .nop _
  | .opReserved _ | .loadLineReturn _ | .fabricReadTimeout _ _ | .stagingCopyDone _ | .sortTableGrant _
  | .passStore _ _ | .lotVerdict _ _ | .saveFrameDone _ | .resume _ | .cardWrite _ | .tapRecord _ _
  | .periodicCheckpoint | .statement | .finalCheckpoint _ | .tallyRestore | .tallyHoldup | .tallyWriteAttempt _ _
  | .vcOpen _ _ _ | .vcFlip _ _ _ | .vcDiscard _ _ _ | .vcRetire _ _ _ | .marchDestroy _ _ | .marchPreserve _ _
  | .marchComplete _ | .remapCopyDone | .taste _ _ | .stressEnter | .tasteComplete _ | .pressReset _ _ _
  | .pressResetStart _ | .linkReset _ _ | .linkRelease _ _ | .wavelengthDrop _ _ | .portLost _ | .sync _ _
  | .followUp _ _ _ | .delayReq _ _ | .delayResp _ _ _ | .ackTimeout _ | .recallTableExpiry | .mrd _ _ _ _ | .rrd _ _ _
  | .rwr _ _ _ _ | .mrst _ | .xack _ _ _ _ | .crd _ _ _ | .moduleLinkFault _ | .xtmoExpiry _ _ | .bookWrite
  | .privateRead | .eventResend | .eventAck _ | .statusGet _ | .regRead _ _ _ | .regWrite _ _ _ | .bookRead _ _
  | .fwdTimeout _ | .setEndpointId _ | .getEndpointId | .getMctpVersionSupport | .getMessageTypeSupport
  | .getVendorDefinedMessageSupport _ | .entdaa _ | .setdasa _ | .rstdaa | .enec _ | .disec _ | .getpid | .getbcr
  | .getdcr | .getstatus | .getmwl | .getmrl | .setmwl _ | .setmrl _ | .extest | .idcode | .samplePreload _ | .clamp
  | .highz | .bypass | .testLogicReset | .coldResetStart | .railsRestored | .refclkRestored | .tallyWait | .l1 _ _ => true

end Sys2Proof
end

