-- ==== Sys2Proof/Safety.lean ====
section
/-!
DEFINITION. Safety.lean: what counts as a safe run: only commands that can be formed wait in the queue, and no reserved
register bit has been changed (R8 gives nothing for what follows such a write; log 3).
-/
namespace Sys2Proof.Safety
open Sys2Proof.Machine

/-- Every waiting command can be formed. -/
def queueWf (s : State) : Bool := s.pending.all Instr.wf

/-- No reserved register bit has been changed (R8). -/
def inScope (s : State) : Bool := !s.outside

/-- A state from which the spec states every effect of the next command. -/
def safe (s : State) : Bool := queueWf s && inScope s

/-- The tally once every record it has accepted is counted, its count of write attempts apart (R415, R418). -/
def settledTally (t : Tally) : Tally := { drainFifo t with writeAttempts := 0 }

/-- A step ends in a next state. -/
def steps (s : State) : Prop := ∃ t, step s = .next t

end Sys2Proof.Safety
end

