-- ==== Sys2Proof/Certificates/Slice0/Obligations.lean ====
section
/-!
DEFINITION. Certificates/Slice0/Obligations.lean: the statements for the provers.
-/
namespace Sys2Proof.Claims
open Sys2Proof.Machine

/-- The commands of the test access port (R506). -/
def tapCommand : Instr → Bool
  | .extest | .idcode | .samplePreload _ | .clamp | .highz | .bypass | .testLogicReset => true
  | _ => false

/-- The commands by which the tally itself acts (R415, R419, R420, R422, R423, R493). -/
def tallyCommand : Instr → Bool
  | .tapRecord _ _ | .periodicCheckpoint | .statement | .finalCheckpoint _ | .tallyRestore | .tallyHoldup
  | .refclkRestored => true
  | _ => false

/-- The ops of a press with their codes (R148). -/
def opCommands (p : Fin 64) : List (Instr × Nat) :=
  [(.rack p, 0x01), (.riddle p, 0x02), (.permute p, 0x03), (.fill p, 0x04), (.gather p, 0x08), (.scatter p, 0x09),
    (.scatterAdd p, 0x0A), (.pool p, 0x0B), (.interact p, 0x10), (.sort p, 0x18), (.topk p, 0x19), (.multicast p, 0x20),
    (.egress p, 0x21), (.decant p, 0x28), (.blend p, 0x30)]

/-- The commands by which presses and the dispatch of descriptors work. -/
def pressCommand : Instr → Bool
  | .rack _ | .riddle _ | .permute _ | .fill _ | .decant _ | .gather _ | .scatter _ | .scatterAdd _ | .pool _ | .interact _
  | .sort _ | .topk _ | .egress _ | .multicast _ | .blend _ | .loadLineReturn _ | .passStore _ _ | .lotVerdict _ _
  | .fabricReadTimeout _ _ | .stagingCopyDone _ | .sortTableGrant _ | .saveFrameDone _ | .resume _ | .dispatch _
  | .nop _ | .opReserved _ | .fence _ | .fenceComplete _ => true
  | _ => false

/-- The machine with everything cleared that a cold reset clears: all but the command queue, the tally, the test access port
and the thermal trip (R447, R502); the registers are at their reset values and the block is in phase `p`. -/
def coldCleared (s : State) (p : Power) (low : Bool) : State :=
  { State.reset with
    pending := s.pending, draw := s.draw, outbox := s.outbox, tally := s.tally, jtag := s.jtag, thermTrip := s.thermTrip
    regs := {}, boot := { power := p, porstLow := low } }

/-- What a warm reset keeps, the registers apart (R53, R370, R447): memory, book, tally, agent, corks and the failures behind them,
remaps under way, bin error counts, the resident image with its error counts, and door writes already committed, which are performed
without acknowledgement; all else starts afresh, with the march before it. -/
def warmKept (s : State) : State where
  pending := s.pending
  draw := s.draw
  outside := s.outside
  outbox := s.outbox
  mem := s.mem
  book := s.book
  time := { edges := s.time.edges }
  nextId := s.nextId
  presses := s.presses.map (fun e =>
    (e.1, { state := if e.2.state == .corked then .corked else .idle, fails := e.2.fails, total := e.2.total }))
  coop := { remapQ := s.coop.remapQ, remap := s.coop.remap, remapDone := s.coop.remapDone, binUe := s.coop.binUe,
            binCe := s.coop.binCe }
  mgmt := s.mgmt
  tally := s.tally
  boot := { power := .march, porstLow := s.boot.porstLow, warm := true, resident := s.boot.resident,
            residentFrom := s.boot.residentFrom, wsUe := s.boot.wsUe, wsCe := s.boot.wsCe }
  door := { heldAcc := (s.door.heldAcc.filter (·.isWrite)).map (fun h => { h with ackReq := false }) }
  jtag := s.jtag
  thermTrip := s.thermTrip

/-- A block at rest: no image is applied, no vintage map is built, nothing is in flight in the cooper, the fabric and the door, no press
is in reset, and the tally, the cellar master and the correction of fabric time have nothing to do. -/
structure AtRest (s : State) : Prop where
  image : loaded s = false
  vintages : s.vint.built = false
  cooper : s.coop = {}
  fabric : s.fab = {}
  host : s.door = {}
  presses : s.presses.all (fun e => e.2.state != .reset) = true
  tally : s.tally.fifo = []
  master : s.time.master = {}
  step : s.time.stepDue = none
  slew : s.time.slew = 0

/-- What the register word at `off` held at the start of the control clock on which the next command falls; what it holds now where
no clock has been marked since (log 87). -/
def startWord (s : State) (off : Nat) : Word :=
  match s.regs.before with
  | none => rget s off
  | some b => smGet b off (resetVal off)

/-- The place of the next descriptor to finish in the order in which descriptors finish (R162): above all so far. -/
def nextFinish (s : State) : Nat := (s.flights.map (·.finish)).foldl max 0 + 1

/-- `n` raised by `k` in a 32-bit count that saturates (R424). -/
def satAdd (n k : Nat) : Nat := min 0xFFFFFFFF (n + k)

/-- `n` raised by `k` in a 64-bit counter that saturates (R416). -/
def satAdd64 (n k : Nat) : Nat := min (2 ^ 64 - 1) (n + k)

/-- A transaction that this node sends leaves at once on port `n`: the port is the one that its route names, is usable and has nothing
waiting, and holds the credits and the room for it (R318 to R320, R332). -/
structure GoesOut (s : State) (n : Nat) (t : Txn) : Prop where
  route : chooseRoute s t = some n
  works : usable s n = true
  free : (getPort s n).wait = []
  credits : txnUnits t ≤ nth (getPort s n).credits (vcOf t.typ) 0
  room : flitRoom (getPort s n) t = true

/-- The memory is canonical and holds no error. -/
structure Sound (m : Mem) : Prop where
  canonical : Memory.wf m = true
  words : m.ueWords = []
  single : m.ceWords = []
  side : m.sbUe = []

/-- A request of another node for lines of this node's cellar, in bin `m` and within one 2 KiB block, that EXPORT permits, on a usable
port after READY, for a table without vintages (R40, R322, R323, R324). -/
structure ToCellar (s : State) (port : Fin 48) (t : Txn) (m : Nat) : Prop where
  works : usable s port.val = true
  here : t.dnode.toNat = nodeId s
  other : t.snode.toNat ≠ nodeId s
  up : ready s = true
  plain : t.table = 0
  bin : region (t.addr.toNat / 64 * 64) = .cellar m
  granted : exportNeed t.typ ≤ binExport s m
  kept : destroying s m = false
  block : t.addr.toNat / 64 * 64 % 2048 + 64 * (t.lenM1.toNat + 1) ≤ 2048

/-- The ACK of a transaction: it echoes STREAM and BLOCKID (R326, R336, R338, R346). -/
def ackOf (s : State) (t : Txn) (status : Nat) (mask : BitVec 64) : Txn :=
  { typ := 9, hops := 63, dnode := t.snode, snode := BitVec.ofNat 16 (nodeId s), stream := t.stream, ident := t.ident
    code := BitVec.ofNat 8 status, mask := mask }

/-- The READ_RSP of a READ: it echoes TAG (R326, R335). -/
def rspOf (s : State) (t : Txn) (lot : Word × Word) (data : List Byte) : Txn :=
  { typ := 8, hops := 63, dnode := t.snode, snode := BitVec.ofNat 16 (nodeId s), tag := t.tag, lenM1 := t.lenM1
    lotM := lot.1, lotP := lot.2, data := data }

end Sys2Proof.Claims

open Sys2Proof Sys2Proof.Machine Sys2Proof.Claims

/-! ### The queue, reset and the invariants of every step -/

/-- A step takes the command at the front of the queue and answers what `exec` answers with the queue's rest. -/
def Obligations.StepRunsFrontCommand : Prop :=
  ∀ (s : State) (c : Instr) (rest : List Instr), step { s with pending := c :: rest } = exec c { s with pending := rest }

/-- With no command waiting one control clock passes (the model's choice, log 1), and a block that PORST_N or the rails hold
stands still. -/
def Obligations.EmptyQueueIsOneClock : Prop :=
  (∀ s : State, s.pending = [] → step s = .next (clockTick s)) ∧
  (∀ s : State, s.pending = [] → alive s = false → step s = .next s)

/-- No command ends in a fault or a refusal (R150): every command and every step answers a next state. -/
def Obligations.EveryCommandAnswersNext : Prop :=
  (∀ (c : Instr) (s : State), ∃ t, exec c s = .next t) ∧ ∀ s : State, ∃ t, step s = .next t

/-- The queue is first in, first out, and no command's effect touches it. -/
def Obligations.QueueIsFirstInFirstOut : Prop :=
  (∀ (c : Instr) (s t : State), exec c s = .next t → t.pending = s.pending) ∧
  ∀ s t : State, step s = .next t → t.pending = s.pending.tail

/-- Every step keeps the memory in its canonical form. -/
def Obligations.StepKeepsMemoryCanonical : Prop :=
  ∀ s t : State, Memory.wf s.mem = true → step s = .next t → Memory.wf t.mem = true

/-- R506: a test access port in Test-Logic-Reset has IDCODE selected. Every step keeps that, and only the seven
instructions of the port change its state at all. -/
def Obligations.StepKeepsTestLogicReset : Prop :=
  (∀ s t : State, (s.jtag.inReset = true → s.jtag.ir = .idcode) → step s = .next t →
    (t.jtag.inReset = true → t.jtag.ir = .idcode)) ∧
  ∀ (c : Instr) (s t : State), tapCommand c = false → exec c s = .next t → t.jtag = s.jtag

/-- R500: THERM_TRIP_N goes low on a trip, which changes nothing else, and every later step leaves it low. -/
def Obligations.ThermTripStaysLow : Prop :=
  (∀ s : State, exec .thermTrip s = .next { s with thermTrip := true }) ∧
  ∀ s t : State, s.thermTrip = true → step s = .next t → t.thermTrip = true

/-- The invariants hold right after reset: an empty queue, a canonical memory, IDCODE selected in Test-Logic-Reset (R506).
The march of R51 clears every word: every byte of memory reads zero, and no block carries sideband. -/
def Obligations.ResetMeetsInvariants : Prop :=
  State.reset.pending = [] ∧ Memory.wf State.reset.mem = true ∧
  State.reset.jtag.inReset = true ∧ State.reset.jtag.ir = .idcode ∧
  (∀ k : Nat, memByte State.reset.mem k = 0#8) ∧ ∀ b : Nat, sbGet State.reset.mem b = (0#32, 0#32)

/-- Registers right after a cold reset with every strap low, as a read returns them. -/
def Obligations.ResetRegistersRead : Prop :=
  [0x0000, 0x0014, 0x0090, 0x1000, 0x1004, 0x1008, 0x2004, 0x2008, 0x2100, 0x2300, 0x2800, 0x4000, 0x8000, 0x8010, 0x8400,
    0xC008, 0xC00C, 0xC100, 0xD000, 0xD004, 0xD008, 0xE004, 0xE008, 0xF000, 0xF00C, 0x10000].map (regLive State.reset) =
  [0x00020004#32, 0#32, 0x00330400#32, 0#32, 0#32, 0x003F0000#32, 0x200#32, 0x10#32, 0#32, 0x3FFFFF#32, 0x3FFFFF#32, 0#32,
    0#32, 0x00140004#32, 0#32, 0x14#32, 0x02000040#32, 1#32, 0#32, 0x31000#32, 0x04000004#32, 0#32, 0x00141465#32, 0#32,
    0#32, 0#32]

/-! ### The test access port -/

/-- R506 and R507: selecting EXTEST, IDCODE, CLAMP, HIGHZ or BYPASS changes the selected instruction and nothing else of
the machine; IDCODE shifts out 0x26D1_46BF, and EXTEST and CLAMP drive the pins from the boundary scan register only while
PORST_N is low. PRELOAD takes what is shifted in; SAMPLE takes what the pins present, one free value (log 33), and shifts it
out. -/
def Obligations.TapInstructionsSelect : Prop :=
  ∀ s : State,
    exec .idcode s = .next { s with jtag := { s.jtag with ir := .idcode, inReset := false },
                                    outbox := .jtagId 0x26D146BF#32 :: s.outbox } ∧
    exec .highz s = .next { s with jtag := { s.jtag with ir := .highz, inReset := false } } ∧
    exec .bypass s = .next { s with jtag := { s.jtag with ir := .bypass, inReset := false } } ∧
    exec .extest s = .next { s with jtag := { s.jtag with ir := .extest, inReset := false },
                                    outbox := (if s.boot.porstLow then [.jtagPins s.jtag.bsr] else []) ++ s.outbox } ∧
    exec .clamp s = .next { s with jtag := { s.jtag with ir := .clamp, inReset := false },
                                   outbox := (if s.boot.porstLow then [.jtagPins s.jtag.bsr] else []) ++ s.outbox } ∧
    exec .testLogicReset s = .next { s with jtag := { s.jtag with ir := .idcode, inReset := true } } ∧
    (∀ v : Nat, exec (.samplePreload (some v)) s =
      .next { s with jtag := { ir := .sample, inReset := false, bsr := v } }) ∧
    ∃ v : Nat, exec (.samplePreload none) s =
      .next { s with jtag := { ir := .sample, inReset := false, bsr := v }, draw := s.draw + 1,
                     outbox := .jtagPins v :: s.outbox }

/-! ### The management port -/

/-- R474: ENTDAA and SETDASA give the target its dynamic address where it has none, RSTDAA takes it away; ENTDAA alone sends the
target's identity. Bit 0 of ENEC and DISEC enables and disables in-band interrupts, and SETMWL and SETMRL set the lengths, of which 69
B is the greatest. -/
def Obligations.I3cCommands : Prop :=
  (∀ (s : State) (a : BitVec 7), alive s = true →
     (s.mgmt.da = none →
       exec (.setdasa a) s = .next { s with mgmt := { s.mgmt with da := some a } } ∧
       ∃ body : List Byte, body.length = 8 ∧
         exec (.entdaa a) s =
           .next { s with mgmt := { s.mgmt with da := some a }, outbox := .i3c 0x07 body :: s.outbox }) ∧
     (∀ b : BitVec 7, s.mgmt.da = some b → exec (.setdasa a) s = .next s ∧ exec (.entdaa a) s = .next s) ∧
     exec .rstdaa s = .next { s with mgmt := { s.mgmt with da := none } }) ∧
  (∀ (s : State) (e : Byte) (n : BitVec 16), alive s = true →
     exec (.enec e) s = .next { s with mgmt := { s.mgmt with ibi := s.mgmt.ibi || e.getLsbD 0 } } ∧
     exec (.disec e) s = .next { s with mgmt := { s.mgmt with ibi := s.mgmt.ibi && !e.getLsbD 0 } } ∧
     exec (.setmwl n) s = .next { s with mgmt := { s.mgmt with mwl := if n.toNat ≤ 69 then n else 69 } } ∧
     exec (.setmrl n) s = .next { s with mgmt := { s.mgmt with mrl := if n.toNat ≤ 69 then n else 69 } })

/-- R474: GETPID, GETBCR, GETDCR, GETSTATUS, GETMWL and GETMRL are answered on the bus and change nothing else; GETMWL and
GETMRL answer the length, its high byte first. The contents that R474 does not give are free (log 10). -/
def Obligations.I3cQueriesAnswer : Prop :=
  ∀ s : State, alive s = true →
    (∃ b : List Byte, b.length = 6 ∧ exec .getpid s = .next { s with outbox := .i3c 0x8D b :: s.outbox }) ∧
    (∃ b : Byte, exec .getbcr s = .next { s with outbox := .i3c 0x8E [b] :: s.outbox }) ∧
    (∃ b : Byte, exec .getdcr s = .next { s with outbox := .i3c 0x8F [b] :: s.outbox }) ∧
    (∃ b : List Byte, b.length = 2 ∧ exec .getstatus s = .next { s with outbox := .i3c 0x90 b :: s.outbox }) ∧
    exec .getmwl s = .next { s with outbox := .i3c 0x8B (beBytes 2 s.mgmt.mwl.toNat) :: s.outbox } ∧
    ∃ b : Byte, exec .getmrl s = .next { s with outbox := .i3c 0x8C (beBytes 2 s.mgmt.mrl.toNat ++ [b]) :: s.outbox }

/-- R475: the control messages that the endpoint answers. Set Endpoint ID takes every ID but 0x00 and 0xFF; the message
types reported are 0x00 and 0x7F; the one vendor set is the enterprise number of R476. Layouts are DSP0236's (log 10). -/
def Obligations.MctpControlAnswers : Prop :=
  ∀ (s : State) (e : Byte), alive s = true →
    (e ≠ 0x00#8 → e ≠ 0xFF#8 →
      exec (.setEndpointId e) s =
        .next { s with mgmt := { s.mgmt with eid := e }, outbox := .mctp 0x01 [0#8, 0#8, e, 0#8] :: s.outbox }) ∧
    ((e = 0x00#8 ∨ e = 0xFF#8) → exec (.setEndpointId e) s = .next { s with outbox := .mctp 0x01 [2#8] :: s.outbox }) ∧
    exec .getEndpointId s = .next { s with outbox := .mctp 0x02 [0#8, s.mgmt.eid, 0#8, 0#8] :: s.outbox } ∧
    exec .getMessageTypeSupport s = .next { s with outbox := .mctp 0x05 [0#8, 2#8, 0x00#8, 0x7F#8] :: s.outbox } ∧
    (∃ v : List Byte, exec .getMctpVersionSupport s = .next { s with outbox := .mctp 0x04 (0#8 :: v) :: s.outbox }) ∧
    (∃ v : List Byte, v.length = 2 ∧ exec (.getVendorDefinedMessageSupport 0#8) s =
      .next { s with outbox := .mctp 0x06 ([0#8, 0xFF#8, 1#8, 0x00#8, 0x00#8, 0xD1#8, 0xA7#8] ++ v) :: s.outbox }) ∧
    (e ≠ 0#8 → exec (.getVendorDefinedMessageSupport e) s = .next { s with outbox := .mctp 0x06 [2#8] :: s.outbox })

/-- R482, R483, R484: the oldest queued event becomes the next record of the book, at its SEQ modulo 8,192. One that is not
sent (class B, with MGMT.CFG.SEND_B clear) leaves everything else as it was; a class A event enters the send queue as well,
with this node as its ORIGIN, where fewer than 64 wait and no other node is named in MGMT.EVT_NODE. -/
def Obligations.BookWriteAppends : Prop :=
  ∀ (s : State) (e : Event) (rest : List Event), s.book.queue = e :: rest →
    (classA e.code = false → rbit s 0xF004 31 = false →
      exec .bookWrite s = .next { s with book := { s.book with
        queue := rest, head := s.book.head + 1,
        recs := smPut s.book.recs (s.book.head.toNat % 8192) { seq := s.book.head, ev := e } } }) ∧
    (classA e.code = true → s.book.send.length < 64 → rbit s 0xF014 31 = false →
      exec .bookWrite s = .next { s with book := { s.book with
        queue := rest, head := s.book.head + 1,
        recs := smPut s.book.recs (s.book.head.toNat % 8192) { seq := s.book.head, ev := e },
        send := s.book.send ++ [{ origin := BitVec.ofNat 16 (nodeId s), item := { seq := s.book.head, ev := e } }] } })

/-- R484: a private read takes the oldest undelivered event while in-band interrupts are enabled, EVENT_ACK removes every
event up to and including its SEQ, and what is delivered and not acknowledged is sent again from the oldest on. -/
def Obligations.EventQueueDelivers : Prop :=
  ∀ s : State, alive s = true →
    (∀ (e : SendEv) (rest : List SendEv), s.mgmt.ibi = true → s.book.send = e :: rest → e.delivered = false → e.again = false →
      exec .privateRead s = .next { s with
        book := { s.book with send := { e with delivered := true } :: rest },
        outbox := .mgmtEvent e.origin e.item :: s.outbox }) ∧
    (∀ n : Word, exec (.eventAck n) s = .next { s with
      book := { s.book with send := s.book.send.filter (fun e => (n - e.item.seq).slt 0) } }) ∧
    exec .eventResend s = .next { s with
      book := { s.book with send := s.book.send.map (fun e =>
        if e.delivered then { e with delivered := false, again := true } else e) } }

/-- R476, R477: BOOK_READ answers a record that is held, and GONE for one that is not; a CODE that the table does not admit is answered
BAD_REQ; both at any time, and neither changes anything else. Until CELLAR.STATUS.READY is set, STATUS_GET, REG_READ, REG_WRITE and
FORWARD are answered BUSY and nothing is done for them. -/
def Obligations.BookReadAndBusy : Prop :=
  (∀ (s : State) (tag : BitVec 16), alive s = true →
     (∀ (q : Word) (k : Nat) (r : BookRec), s.book.recs.find? (fun e => e.2.seq == q) = some (k, r) →
       exec (.bookRead tag q) s = .next { s with outbox := .mgmtRsp 0x13 tag 0 (recWords r) :: s.outbox }) ∧
     (∀ q : Word, s.book.recs.find? (fun e => e.2.seq == q) = none →
       exec (.bookRead tag q) s = .next { s with outbox := .mgmtRsp 0x13 tag 2 [] :: s.outbox }) ∧
     ∀ c : Byte, exec (.badReq tag c) s = .next { s with outbox := .mgmtRsp c.toNat tag 3 [] :: s.outbox }) ∧
  (∀ (s : State) (tag d i : BitVec 16) (off v : Word) (n : Byte) (r : MgmtReq), alive s = true → ready s = false →
     exec (.statusGet tag) s = .next { s with outbox := .mgmtRsp 0x10 tag 1 [] :: s.outbox } ∧
     exec (.regRead tag off n) s = .next { s with outbox := .mgmtRsp 0x11 tag 1 [] :: s.outbox } ∧
     exec (.regWrite tag off v) s = .next { s with outbox := .mgmtRsp 0x12 tag 1 [] :: s.outbox } ∧
     exec (.forward tag d i r) s = .next { s with outbox := .mgmtFwdRsp tag 1 [] :: s.outbox })

/-- R476, R478: with READY set, STATUS_GET answers its eight registers as they read, where no _HI shadow of the agent
stands; REG_READ of one register that is no _LO word answers its value; REG_WRITE has the effect of the register write. -/
def Obligations.AgentReadsAndWrites : Prop :=
  ∀ (s : State) (tag : BitVec 16) (off v : Word), alive s = true → ready s = true → s.regs.shadows = [] →
    exec (.statusGet tag) s = .next (sendOut s (.mgmtRsp 0x10 tag 0
      ([0xD000, 0xD010, 0xD00C, 0x0014, 0x1004, 0x10004, 0xF000, 0xF010].map (regLive s)))) ∧
    (isLo (off.toNat % 0x100000 / 4 * 4) = false →
      exec (.regRead tag off 1) s = .next { s with
        outbox := .mgmtRsp 0x11 tag 0 [regLive s (off.toNat % 0x100000 / 4 * 4)] :: s.outbox }) ∧
    exec (.regWrite tag off v) s =
      .next (sendOut (regWrite 2 s (off.toNat % 0x100000 / 4 * 4) v) (.mgmtRsp 0x12 tag 0 []))

/-- R477, R479: a FORWARD whose DNODE is this node is performed locally, here a BOOK_READ of a record that is held; one that
no remote response has met for 1 ms is answered FWD_TIMEOUT and no longer awaited. -/
def Obligations.ForwardLocalAndTimeout : Prop :=
  (∀ (s : State) (tag d i : BitVec 16) (q : Word) (k : Nat) (r : BookRec), alive s = true → ready s = true →
    d.toNat = nodeId s → s.book.recs.find? (fun e => e.2.seq == q) = some (k, r) →
    exec (.forward tag d i (.bookRead q)) s = .next (sendOut s (.mgmtFwdRsp tag 0
      ([0x13#8, 1#8] ++ leBytes 2 i.toNat ++ [0#8, 0#8, 0#8, 0#8] ++ bytesOf (recWords r))))) ∧
  ∀ (s : State) (f : Fwd) (l : List Fwd), s.mgmt.forwards = f :: l →
    exec (.fwdTimeout f.tag) s = .next { s with mgmt := { s.mgmt with forwards := l },
                                                outbox := .mgmtFwdRsp f.tag 5 [] :: s.outbox }

/-- R411, R415, R418: apart from the tally's own commands nothing that any command or any control clock does changes a counter, a
statement, a slot of the flash or the service of the tally, as it stands once every accepted record is counted; a write from any path
can only be counted as an attempt. -/
def Obligations.OnlyTheTallyChangesTheTally : Prop :=
  (∀ (c : Instr) (s t : State), tallyCommand c = false → exec c s = .next t →
    Safety.settledTally t.tally = Safety.settledTally s.tally) ∧
  ∀ s t : State, (∀ c, s.pending.head? = some c → tallyCommand c = false) → step s = .next t →
    Safety.settledTally t.tally = Safety.settledTally s.tally

/-! ### Reset, power and boot -/

/-- R429, R447, R456, R493, R502: the falling edge of PORST_N, a lock or rail fault, and the end of a fault with PORST_N low clear
everything but the tally, the test access port and the thermal trip. The rising edge of PORST_N latches the straps, which set SLOT_LEN,
the node and heritage mode, and the cold power-up march begins; every other register stands at its reset value. The end of a fault with
PORST_N high begins it with the straps as latched. -/
def Obligations.ColdResets : Prop :=
  ((∀ s : State, s.boot.power ≠ .faultHeld → exec .coldResetStart s = .next (coldCleared s .coldHeld true)) ∧
   (∀ s : State, s.boot.power = .faultHeld → exec .coldResetStart s = .next (coldCleared s .faultHeld true)) ∧
   (∀ s : State, ∃ t, exec .railOrPllFault s = .next t ∧ rget t 0x0010 = rget s 0x0010 ∧
     { t with regs := {} } = coldCleared s .faultHeld s.boot.porstLow) ∧
   (∀ s : State, s.boot.power = .faultHeld → s.boot.porstLow = true →
     exec .railsRestored s = .next (coldCleared s .coldHeld true)) ∧
   ∀ s : State, s.boot.power ≠ .faultHeld → exec .railsRestored s = .next s) ∧
  ((∀ (s : State) (x : Straps), s.boot.power ≠ .faultHeld → ∃ t, exec (.coldReset x) s = .next t ∧
     { t with regs := {} } = coldCleared s .march false ∧ t.regs.staged = [] ∧ t.regs.stagedMask = [] ∧ t.regs.shadows = [] ∧
     strapBoot t = x.boot.toNat ∧ rfld t 0x0010 3 3 = x.slot.toNat ∧ rfld t 0x0010 6 4 = x.node.toNat ∧
     rfld t 0x0010 10 4 = x.door.toNat ∧ rbit t 0x0010 14 = x.heritage ∧ rbit t 0x0010 15 = x.warm ∧
     rfld t 0x1008 5 3 = x.slot.toNat ∧ nodeId t = x.node.toNat ∧ heritage t = x.heritage ∧ rget t 0x2000 = 4#32 ∧
     ∀ off : Nat, off ∉ [0x0010, 0x0020, 0x1008, 0x2000, 0x8000] → rget t off = resetVal off) ∧
   ∀ s : State, s.boot.power = .faultHeld → s.boot.porstLow = false → ∃ t, exec .railsRestored s = .next t ∧
     { t with regs := {} } = coldCleared s .march false ∧ rget t 0x0010 = rget s 0x0010 ∧ rget t 0x2000 = 4#32)

/-- R447, R448: a warm reset counts itself with its cause and keeps memory, book, tally, corks, remaps and the failed presses'
counts; descriptors in flight, vintages, ring state, ports and the calendar are lost. -/
def Obligations.WarmResetKeeps : Prop :=
  ∀ (s : State) (b : Bool), alive s = true → ∃ t, exec (.warmReset b) s = .next t ∧
    { t with regs := {} } = warmKept s ∧
    rget t 0x0018 = BitVec.ofNat 32 ((rfld s 0x0018 16 16 + 1) % 65536 * 65536 + 1) ∧
    rget t 0x0010 = setBit (rget s 0x0010) 15 b ∧
    rget t 0xD014 = rget s 0xD014 ∧ rget t 0xD018 = rget s 0xD018 ∧ rget t 0x201C = rget s 0x201C ∧
    rget t 0xD000 = rget s 0xD000 &&& 0x20#32 ∧
    (∀ m : Nat, m < 64 → rget t (0x2100 + 4 * m) = rget s (0x2100 + 4 * m) &&& 0x1C0#32) ∧
    rget t 0x2000 = (if b then 6#32 else 2#32) ∧ t.regs.staged = []

/-- R52, R119, R120, R443: READY ends the boot; fabric time begins to count, time of role FREE is valid and locked at once, and the
slot edge at instant 0 takes effect on the same clock (here for a block that a cold reset has left with nothing waiting and nothing
staged), so that the next edge is one slot length on; nothing else changes. -/
def Obligations.CellarReadyEndsBoot : Prop :=
  ∀ s : State, s.boot.power = .march → s.boot.warm = false → s.time = {} → s.door = {} → s.coop = {} → s.fab = {} →
    s.vint.built = false → s.regs.staged = [] → s.regs.stagedMask = [] → loaded s = false → strapBoot s ≠ 2 →
    ∃ t, exec (.cellarReady []) s = .next t ∧ ready t = true ∧ rbit t 0x2000 2 = false ∧
      t.boot = { s.boot with power := .up } ∧
      t.time = { counting := true, nextEdge := slotNs (rfld s 0x1008 5 3), edges := 1, atEdge := true } ∧
      (timeRole s = 0 → rbit t 0x1004 2 = true ∧ rbit t 0x1004 3 = true) ∧
      (timeRole s ≠ 0 → rbit t 0x1004 2 = rbit s 0x1004 2 ∧ rbit t 0x1004 3 = rbit s 0x1004 3) ∧
      rbit t 0x1004 1 = (rbit s 0x1004 1 && rbit s 0x1000 0) ∧
      (∀ o : Nat, o ≠ 0x1004 → o ≠ 0x2000 → rget t o = rget s o) ∧
      { t with regs := s.regs, boot := s.boot, time := s.time } = s

/-- R438, R439, R443: copy A that passes every check is applied: LOADED, REMAP and SOURCE are set, and the held accesses
proceed; whether an image passes rests on the free signature functions (log 9). With copy A failing on its header and copy B
unreadable the block is dormant with both codes, and FAULT is set. -/
def Obligations.ImageLoadOutcomes : Prop :=
  ∀ (s : State) (a : List Byte) (b : Option (List Byte)), loaderWaits s = true → strapBoot s < 2 →
    residentOk (checkResident s) = false →
    (headerCode a 0x800000 = 0 → sectionCode a = 0 → ∃ u, exec (.imageLoad false (some a) b) s = .next (releaseDoor u) ∧
      loaded u = true ∧ rfld u 0x0014 0 2 = 1 ∧ rbit u 0x0014 4 = false ∧ rget u 0x001C = 1#32 ∧ rget u 0x0024 = imgWord a 8) ∧
    (headerCode a 0x800000 ≠ 0 → s.door = {} → ∃ t, exec (.imageLoad false (some a) none) s = .next t ∧
      dormant t = true ∧ loaded t = false ∧ rfld t 0x0014 8 8 = headerCode a 0x800000 ∧ rfld t 0x0014 16 8 = 8 ∧
      rbit t 0xD000 6 = true ∧ t.boot = s.boot ∧ t.mem = s.mem)

/-- R441, R446, R498: a second parity error of the boot ROM, from which code address 0 is fetched while REMAP is 0, leaves the block
dormant with code 9 whatever the strap; a VTALLY that stays out of tolerance leaves it dormant with code READ of both copies. -/
def Obligations.BootFailsDormant : Prop :=
  ∀ s : State, loaderWaits s = true → s.door = {} →
    (rbit s 0x001C 0 = false → ∀ a b : Option (List Byte), ∃ t, exec (.imageLoad true a b) s = .next t ∧
      dormant t = true ∧ rfld t 0x0014 8 8 = 9 ∧ rbit t 0xD000 6 = true ∧ t.boot = s.boot ∧ t.mem = s.mem) ∧
    (strapBoot s < 2 → residentOk s = false → ∃ t, exec .vtallyWaitTimeout s = .next t ∧
      dormant t = true ∧ rfld t 0x0014 8 8 = 8 ∧ rfld t 0x0014 16 8 = 8 ∧ rbit t 0xD000 6 = true ∧
      t.boot = s.boot ∧ t.mem = s.mem)

/-- R444: BOOT_GO reads the image at its line. One that fails on its header sets its code in A_FAIL and clears GO, and the
loader waits for the next one; one that passes every check is applied with SOURCE 3. -/
def Obligations.BootGoReadsTheImage : Prop :=
  ∀ (s : State) (src : Source) (line : BitVec 19), loaderWaits s = true → strapBoot s = 2 → reaches s src = true →
    s.mem.ueWords = [] →
    (∀ c : Nat, headerCode (trBytes s (64 * line.toNat) 0x2000) (0x2000000 - 64 * line.toNat) = c → c ≠ 0 →
      ∃ t, exec (.bootGo src line) s = .next t ∧ rfld t 0x0014 8 8 = c ∧ rfld t 0x0038 0 19 = line.toNat ∧ rbit t 0x0038 31 = false ∧
        loaded t = false ∧ dormant t = false ∧ { t with regs := s.regs } = s) ∧
    (headerCode (trBytes s (64 * line.toNat) 0x2000) (0x2000000 - 64 * line.toNat) = 0 →
      sectionCode (trBytes s (64 * line.toNat) (imgLength (trBytes s (64 * line.toNat) 0x2000))) = 0 →
      headerCode (trBytes s (64 * line.toNat) (imgLength (trBytes s (64 * line.toNat) 0x2000))) (0x2000000 - 64 * line.toNat) = 0 →
      ∃ u, exec (.bootGo src line) s = .next (releaseDoor u) ∧ loaded u = true ∧ rfld u 0x0014 0 2 = 3)

/-! ### The bonded tally -/

/-- R414, R415: in service and with its tap open, the tally accepts the record of the stream's next card into its FIFO of 64, at the
time of the next control clock, which the card carries; with the FIFO full, with the tap closed and out of service it accepts nothing,
and the card waits. -/
def Obligations.TapRecordAccepted : Prop :=
  ∀ (s : State) (st : Fin 256) (u : Bool),
    (∀ f : Flight, cardNext s st.val = some f → s.tally.inService = true → s.tally.tapOpen = true → f.tapped = false →
      s.tally.fifo.length < 64 →
      exec (.tapRecord st u) s = .next { s with
        flights := s.flights.map (fun g =>
          if g.id == f.id then { f with tapped := true, tdone := (countClock s).time.ftime } else g),
        tally := { s.tally with
          records := s.tally.records + 1,
          fifo := s.tally.fifo ++ [tapRec { f with tapped := true, tdone := (countClock s).time.ftime } u] } }) ∧
    (64 ≤ s.tally.fifo.length ∨ s.tally.tapOpen = false ∨ s.tally.inService = false ∨ cardNext s st.val = none →
      exec (.tapRecord st u) s = .next s)

/-- R416, R417: what a record of a descriptor with one stage adds when a tally clock takes it from the FIFO, to its billing domain
STREAM div 4: one with an uncorrectable error 1 to TAP_UE and nothing else; one that does not bill nothing; a TOPK one call (where it
emitted candidates) and its candidates, an EGRESS or a MULTICAST its bytes, every other op nothing. -/
def Obligations.TapRecordBills : Prop :=
  ∀ (t : Tally) (f : Flight) (g : Stage) (r : TapRec), t.fifo = [r] → (∀ n : Nat, takeRecords t (n + 1) = drainFifo t) ∧
    (drainFifo t).fifo = [] ∧
    (r = tapRec f true → drainFifo t = { t with fifo := [], tapUe := satAdd t.tapUe 1 }) ∧
    (r = tapRec f false → (lotFailOf f = true ∨ statusOf f ∉ [0x00, 0x01, 0x02, 0x03, 0x0B]) →
      drainFifo t = { t with fifo := [] }) ∧
    (r = tapRec f false → f.stages = [g] → f.cnt.stageDone.length ≤ 1 → lotFailOf f = false →
      statusOf f ∈ [0x00, 0x01, 0x02, 0x03, 0x0B] →
      (drainFifo t).lastTdone = f.tdone ∧ (drainFifo t).tapUe = t.tapUe ∧
      (∀ d : Nat, d ≠ f.stream / 4 → smGet (drainFifo t).calls d 0 = smGet t.calls d 0 ∧
        smGet (drainFifo t).candidates d 0 = smGet t.candidates d 0 ∧ smGet (drainFifo t).bytes d 0 = smGet t.bytes d 0) ∧
      smGet (drainFifo t).calls (f.stream / 4) 0 = satAdd64 (smGet t.calls (f.stream / 4) 0)
        (if g.op = 0x19 ∧ sat32 (doneCount f) ≠ 0 then 1 else 0) ∧
      smGet (drainFifo t).candidates (f.stream / 4) 0 = satAdd64 (smGet t.candidates (f.stream / 4) 0)
        (if g.op = 0x19 then sat32 (doneCount f) else 0) ∧
      smGet (drainFifo t).bytes (f.stream / 4) 0 = satAdd64 (smGet t.bytes (f.stream / 4) 0)
        (if g.op = 0x20 ∨ g.op = 0x21 then ceilDiv (sat32 (doneCount f) * fmtBits g.dst.tensor.fmt) 8 else 0))

/-- R415, R419, R420, R423, R424: a statement of 2,048 B takes the next STMT_SEQ and goes into the buffer that does not hold the
newest one; a checkpoint counts what the FIFO holds first and is written into the next slot too; after the final one the tap is closed
and the tally out of service. -/
def Obligations.StatementsAndCheckpoints : Prop :=
  ∀ s : State, s.tally.inService = true → s.tally.bufA ≠ [] → (∀ c : Bool, c = s.tally.cur →
    (∃ bs : List Byte, bs.length = 2048 ∧ (bs.drop 0x10).take 8 = leBytes 8 (s.tally.stmtSeq + 1) ∧
      exec .statement s = .next { s with draw := s.draw + 1, tally := { s.tally with
        stmtSeq := s.tally.stmtSeq + 1, ticks := s.tally.ticks + 100000000, cur := !c,
        bufA := if c then bs else s.tally.bufA, bufB := if c then s.tally.bufB else bs } }) ∧
    (s.tally.tapOpen = true → ∃ (bs : List Byte) (t : State), bs.length = 2048 ∧
      (bs.drop 0x18).take 8 = leBytes 8 (s.tally.ckptSeq + 1) ∧ exec .periodicCheckpoint s = .next t ∧
      t.tally.stmtSeq = s.tally.stmtSeq + 1 ∧ t.tally.ckptSeq = s.tally.ckptSeq + 1 ∧ t.tally.cur = !c ∧
      smGet t.tally.flash (s.tally.nextSlot % 1024) [] = bs ∧ t.tally.nextSlot = (s.tally.nextSlot % 1024 + 1) % 1024 ∧
      t.tally.fifo = [] ∧ t.tally.calls = (drainFifo s.tally).calls ∧ t.tally.records = s.tally.records ∧ { t with tally := s.tally, draw := s.draw } = s) ∧
    (s.tally.tapOpen = true → ∀ b : Bool, ∃ t, exec (.finalCheckpoint b) s = .next t ∧ t.tally.tapOpen = false ∧
      t.tally.inService = false ∧ t.tally.nextSlot = (s.tally.nextSlot % 1024 + 1) % 1024 ∧
      t.tally.fifo = [] ∧ t.tally.calls = (drainFifo s.tally).calls ∧
      t.tally.candidates = (drainFifo s.tally).candidates ∧ t.tally.bytes = (drainFifo s.tally).bytes ∧
      t.tally.ckptSeq = (if b then s.tally.ckptSeq + 1 else s.tally.ckptSeq) ∧
      { t with tally := s.tally, draw := s.draw } = s))

/-- R422: a restore with no valid record starts a new lineage from the free entropy source with every counter at 0; one with
a valid record resumes from the record of the highest CKPT_SEQ and counts a loss where it is not FINAL. -/
def Obligations.TallyRestores : Prop :=
  ∀ s : State, s.tally.inService = false →
    (bestSlot s.tally.flash = none → ∃ t, exec .tallyRestore s = .next t ∧ t.tally.inService = true ∧ t.tally.tapOpen = true ∧
      t.tally.newLineage = true ∧ t.tally.lineage = Config.tallyEntropy s.draw ∧ t.tally.stmtSeq = 0 ∧ t.tally.records = 0 ∧
      t.tally.writeAttempts = 0 ∧ t.tally.tapUe = 0 ∧ t.tally.ckptLoss = 0 ∧ t.tally.calls = [] ∧ t.tally.candidates = [] ∧
      t.tally.bytes = [] ∧ t.tally.flashReject = s.tally.flash.length ∧ t.tally.flash = s.tally.flash ∧
      { t with tally := s.tally, draw := s.draw } = s) ∧
    ∀ (j : Nat) (bs : List Byte), bestSlot s.tally.flash = some (j, bs) → ∃ t, exec .tallyRestore s = .next t ∧
      t.tally.inService = true ∧ t.tally.newLineage = false ∧ t.tally.lineage = BitVec.ofNat 64 (recNum bs 8 8) ∧
      t.tally.stmtSeq = recNum bs 0x10 8 ∧ t.tally.records = recNum bs 0x48 8 ∧
      t.tally.lossSeen = !(recNum bs 0x50 4 / 2 % 2 == 1) ∧
      t.tally.ckptLoss = satAdd (recNum bs 0x38 4) (if recNum bs 0x50 4 / 2 % 2 = 1 then 0 else 1)

/-- R418, R428, R493, R415: a write into the TALLY window is counted and does nothing else; HOLDUP follows REFCLK; cards that
wait for a tally that is not in service are reported with its status and their number. -/
def Obligations.TallyWindowAndHoldup : Prop :=
  (∀ (s : State) (src : Source) (off : BitVec 16), s.tally.inService = true →
    exec (.tallyWriteAttempt src off) s =
      .next { s with tally := { s.tally with writeAttempts := satAdd s.tally.writeAttempts 1 } }) ∧
  (∀ s : State, exec .tallyHoldup s = .next { s with tally := { s.tally with holdup := true } } ∧
    exec .refclkRestored s = .next { s with tally := { s.tally with holdup := false } }) ∧
  (∀ (s : State) (st : Fin 256) (f : Flight), s.tally.inService = false → cardReady s st.val = some f → f.tapped = false →
    s.book.queue = [] → exec .tallyWait s = .next { s with book := { s.book with lossNext := false, queue :=
      [{ code := 0x0B, args := [(tallyRead s 4).toNat, cardsWaiting s], time := s.time.ftime, loss := s.book.lossNext }] } }) ∧
  ∀ s : State, s.tally.inService = true → exec .tallyWait s = .next s

/-! ### Register accesses -/

/-- R7, R460, R461: a write of a whole register word acts on each field under its access code: RW bits take the written bits,
RWS bits take them as pending, a single-bit W1C field is cleared by a 1 unless the same control clock has set it, a count is cleared by
all ones alone and keeps what the same clock has added (R142), and every other bit stays. The registers whose write is a command, and the two words of CAL.EPOCH (R463), have rules of their own. -/
def Obligations.RegisterWriteByAccessCode : Prop :=
  ∀ (s : State) (src : Source) (off : BitVec 20) (v : Word) (r : RegRow), reaches s src = true → off.toNat % 4 = 0 →
    off.toNat < 0x10000 → regRow off.toNat = some r →
    off.toNat ∉ [0x0030, 0x0034, 0x0038, 0x01D4, 0x1020, 0x1024, 0xE000] → v &&& r.rsv = 0 →
    ∃ t, exec (.registerWrite src off v 0xF#4) s = .next t ∧ { t with regs := s.regs } = s ∧
      t.regs.shadows = s.regs.shadows ∧ t.regs.heldLo = s.regs.heldLo ∧
      (∀ o : Nat, o ≠ off.toNat → rget t o = rget s o ∧ smGet t.regs.staged o 0 = smGet s.regs.staged o 0 ∧
        smGet t.regs.stagedMask o 0 = smGet s.regs.stagedMask o 0) ∧
      (∀ i : Nat, i < 32 → r.rw.testBit i = true → bitAt (rget t off.toNat) i = bitAt v i) ∧
      (∀ i : Nat, i < 32 → r.w1c.testBit i = true → bitAt (rget t off.toNat) i =
        (bitAt (rget s off.toNat) i && !(bitAt v i && bitAt (startWord s off.toNat) i))) ∧
      (∀ c ∈ r.cnt, fld (rget t off.toNat) c.1 c.2 =
        if fld v c.1 c.2 = 2 ^ c.2 - 1 then fld (rget s off.toNat) c.1 c.2 - fld (startWord s off.toNat) c.1 c.2
        else fld (rget s off.toNat) c.1 c.2) ∧
      (∀ i : Nat, i < 32 → (r.ro ||| r.rws).testBit i = true → bitAt (rget t off.toNat) i = bitAt (rget s off.toNat) i) ∧
      ∀ i : Nat, i < 32 → r.rws.testBit i = true → bitAt (smGet t.regs.staged off.toNat 0) i = bitAt v i ∧
        bitAt (smGet t.regs.stagedMask off.toNat 0) i = true

/-- R323, R460, R467: a write of a matrix master that does not cover its word is discarded with one REG_DENIED event that
names the master, and one of a reserved offset is ignored. -/
def Obligations.RegisterWriteDiscarded : Prop :=
  (∀ (s : State) (off : BitVec 20) (v : Word) (en : BitVec 4), alive s = true → en ≠ 0xF#4 → s.book.queue = [] →
    exec (.registerWrite .cooper off v en) s = .next { s with book := { s.book with lossNext := false, queue :=
      [{ code := 0x04, kind := 10, unit := 4, args := [off.toNat, 0, nodeId s], time := s.time.ftime,
         loss := s.book.lossNext }] } }) ∧
  ∀ (s : State) (src : Source) (off : BitVec 20) (v : Word), reaches s src = true →
    (off.toNat < 0x10000 → regRow (off.toNat / 4 * 4) = none → exec (.registerWrite src off v 0xF#4) s = .next s) ∧
    (0x20000 ≤ off.toNat → exec (.registerWrite src off v 0xF#4) s = .next s)

/-- R9, R462: a read of a _LO word latches its _HI word for its source and changes nothing else, and the next read of that
_HI by the same source returns what was latched; without one a _HI reads live. -/
def Obligations.LoReadLatchesHi : Prop :=
  ∀ (s : State) (src : Source) (off : BitVec 20), reaches s src = true → off.toNat % 4 = 0 → isLo off.toNat = true →
    (∀ l : List ((Nat × Nat) × Word), l = ((srcKey src, off.toNat + 4), regLive s (off.toNat + 4)) ::
        s.regs.shadows.filter (fun e => e.1 != (srcKey src, off.toNat + 4)) →
      exec (.loRead src off) s = .next { s with regs := { s.regs with shadows := l } }) ∧
    (∀ t u : State, exec (.loRead src off) s = .next t →
      u = { t with time := u.time, tally := u.tally } → (regRead u src (off.toNat + 4)).2 = regLive s (off.toNat + 4)) ∧
    ∀ u : State, u.regs.shadows = [] → regRead u src (off.toNat + 4) = (u, regLive u (off.toNat + 4))

/-! ### Vintages -/

/-- R301: a write of CTL.VCMD pushes its command into the queue of 16; one that finds it full is dropped and counted. -/
def Obligations.VintageCommandsQueue : Prop :=
  ∀ (s : State) (src : Source) (h : BitVec 12) (v : Fin 4) (k : Nat) (c : Instr), reaches s src = true →
    (k, c) ∈ [(1, Instr.vcOpen src h v), (2, .vcFlip src h v), (3, .vcDiscard src h v), (4, .vcRetire src h v)] →
    (s.vint.queue.length < 16 → ∃ t, exec c s = .next t ∧
      t.vint = { s.vint with queue := s.vint.queue ++ [BitVec.ofNat 32 (k * 2 ^ 28 + v.val * 2 ^ 26 + h.toNat)] } ∧
      rget t 0x01D4 = BitVec.ofNat 32 (k * 2 ^ 28 + v.val * 2 ^ 26 + h.toNat) ∧
      (∀ o : Nat, o ≠ 0x01D4 → rget t o = rget s o) ∧ { t with vint := s.vint, regs := s.regs } = s) ∧
    (16 ≤ s.vint.queue.length → ∃ t, exec c s = .next t ∧ rfld t 0x01D8 24 8 = min 255 (rfld s 0x01D8 24 8 + 1) ∧
      (∀ o : Nat, o ≠ 0x01D8 → rget t o = rget s o) ∧ { t with regs := s.regs } = s)

/-- R299, R301, R302: what each command does to its handle at the slot edge where its required state holds and no writer
holds a pin; a handle out of range, and a state that does not hold, refuse it, which changes no handle. -/
def Obligations.VintageCommandsApply : Prop :=
  ∀ (s : State) (h v : Nat), 1 ≤ h → h ≤ vtabCount s → h < 4096 → v < 4 → (getHandle s h).slots.length = 4 →
    (∀ w : Word, vcmdHandle w = h → vcmdSlot w = v →
      (vcmdOp w = 1 → (getSlot (getHandle s h) v).st = .empty → ∃ t, vcmdApply s w = some t ∧
        (getSlot (getHandle t h) v).st = .filling ∧ (getHandle t h).lastTag =
          (if (getHandle s h).lastTag = 0xFFFFFFFF#32 then 1 else (getHandle s h).lastTag + 1) ∧
        (getSlot (getHandle t h) v).tag = (getHandle t h).lastTag ∧ (getHandle t h).cv = (getHandle s h).cv) ∧
      (vcmdOp w = 2 → (getSlot (getHandle s h) v).st = .filling → writerPinned s h v = false → ∃ t, vcmdApply s w = some t ∧
        (getSlot (getHandle t h) v).st = .current ∧ (getHandle t h).cur = v ∧ (getHandle t h).cv = true ∧
        (getHandle t h).flipseq = (getHandle s h).flipseq + 1 ∧
        ((getHandle s h).cv = true → (getHandle s h).cur < 4 → (getHandle s h).cur ≠ v →
          (getSlot (getHandle t h) (getHandle s h).cur).st = .draining)) ∧
      (vcmdOp w = 2 ∨ vcmdOp w = 3 → (getSlot (getHandle s h) v).st = .filling → writerPinned s h v = true →
        vcmdApply s w = none) ∧
      (vcmdOp w = 3 → (getSlot (getHandle s h) v).st = .filling → writerPinned s h v = false → ∃ t, vcmdApply s w = some t ∧
        (getSlot (getHandle t h) v).st = .empty ∧ (getHandle t h).flipseq = (getHandle s h).flipseq) ∧
      (vcmdOp w = 4 → (getSlot (getHandle s h) v).st = .current → ∃ t, vcmdApply s w = some t ∧
        (getSlot (getHandle t h) v).st = .draining ∧ (getHandle t h).cv = false ∧
        (getHandle t h).flipseq = (getHandle s h).flipseq + 1) ∧
      ((vcmdOp w = 1 ∧ (getSlot (getHandle s h) v).st ≠ .empty) ∨ (vcmdOp w = 4 ∧ (getSlot (getHandle s h) v).st ≠ .current) →
        ∃ t, vcmdApply s w = some t ∧ t.vint = s.vint ∧ t.mem = s.mem ∧
          rfld t 0x01D8 16 8 = min 255 (rfld s 0x01D8 16 8 + 1))) ∧
    ∀ w : Word, vtabCount s < vcmdHandle w → ∃ t, vcmdApply s w = some t ∧ t.vint = s.vint ∧ t.mem = s.mem

/-! ### Resets of one part -/

/-- R451: a write of PRESS_RESET becomes pending; at a slot edge a requested press that is IDLE, holds no frame and is not to
be tasted enters RESET with its boards, vat, masks and tags cleared, and a corked one is cleared, stays CORKED and its bit
reads 0. -/
def Obligations.PressResets : Prop :=
  (∀ (s : State) (src : Source) (hi : Bool) (v : Word), reaches s src = true →
    exec (.pressReset src hi v) s = .next { s with regs := { s.regs with
      staged := smPut s.regs.staged (if hi then 0x2C else 0x28) v,
      stagedMask := smPut s.regs.stagedMask (if hi then 0x2C else 0x28) 0xFFFFFFFF#32 } }) ∧
  ∀ (s : State) (p : Fin 64), s.time.atEdge = true → rbit s (if p.val < 32 then 0x28 else 0x2C) (p.val % 32) = true →
    (isCorked s p.val = false → (getPress s p.val).state = .idle → (getPress s p.val).saved = none →
      s.coop.pending ≠ some p.val → s.coop.tasting ≠ some p.val →
      exec (.pressResetStart p) s = .next (setPress s p.val
        { (getPress s p.val) with front := {}, back := {}, vat := [], state := .reset, left := 16 })) ∧
    (isCorked s p.val = true → ∃ t, exec (.pressResetStart p) s = .next t ∧
      getPress t p.val = { (getPress s p.val) with front := {}, back := {}, vat := [] } ∧
      rbit t (if p.val < 32 then 0x28 else 0x2C) (p.val % 32) = false ∧
      { t with presses := s.presses, regs := s.regs } = s)

/-- R452: link reset holds the port, makes it unusable and clears its lost state and dropped wavelengths; a port with nothing
to move changes nothing else. A release lets it train again. -/
def Obligations.LinkResets : Prop :=
  ∀ (s : State) (src : Source) (n : Fin 48), reaches s src = true →
    (rbit s (if n.val < 32 then 0x30 else 0x34) (n.val % 32) = false → (getPort s n.val).wait = [] →
      (getPort s n.val).unacked = [] → rget s 0x34 &&& 0xFFFF0000#32 = 0 →
      ∃ t, exec (.linkReset src n) s = .next t ∧ usable t n.val = false ∧ (getPort t n.val).held = true ∧
        (getPort t n.val).trained = false ∧ (getPort t n.val).lost = false ∧ (getPort t n.val).dropped = 0 ∧
        rbit t (if n.val < 32 then 0x30 else 0x34) (n.val % 32) = true ∧
        (∀ k : Nat, k ≠ n.val → getPort t k = getPort s k) ∧ { t with fab := s.fab, regs := s.regs } = s) ∧
    (rbit s (if n.val < 32 then 0x30 else 0x34) (n.val % 32) = true → rget s 0x34 &&& 0xFFFF0000#32 = 0 →
      ∃ t, exec (.linkRelease src n) s = .next t ∧ getPort t n.val = { (getPort s n.val) with held := false } ∧
        rbit t (if n.val < 32 then 0x30 else 0x34) (n.val % 32) = false ∧
        (∀ k : Nat, k ≠ n.val → getPort t k = getPort s k) ∧ { t with fab := s.fab, regs := s.regs } = s)

/-! ### Fabric time and the calendar -/

/-- R21, R127, R129, R130: at a slot edge of a block at rest, fabric time stands on the first control clock at or after it, the
next edge is one slot length on, and the pending value of a staged register takes effect; CAL.STATUS.RUNNING falls where RUN is
clear. Nothing else changes. -/
def Obligations.SlotEdgeAppliesStaged : Prop :=
  ∀ (s : State) (off : Nat) (v m : Word), AtRest s → s.time.counting = true → rbit s 0x1004 4 = false →
    s.time.ftime.toNat < s.time.nextEdge → s.time.nextEdge < 2 ^ 63 → s.time.frac < 21 * 10 ^ 9 →
    s.regs.stagedMask = [(off, m)] → s.regs.staged = [(off, v)] →
    off ∉ [0x0014, 0x1004, 0x1008] → (off < 0x2100 ∨ 0x2200 ≤ off) →
    ∃ t, exec .slotEdge s = .next t ∧ s.time.nextEdge ≤ t.time.ftime.toNat ∧ t.time.ftime.toNat ≤ s.time.nextEdge + 1 ∧
      t.time.nextEdge = s.time.nextEdge + slotNs (rfld s 0x1008 5 3) ∧ t.time.edges = s.time.edges + 1 ∧
      t.time.atEdge = true ∧ rget t off = (rget s off &&& ~~~m) ||| (v &&& m) ∧ t.regs.staged = [] ∧
      t.regs.stagedMask = [] ∧ rbit t 0x1004 1 = (rbit s 0x1004 1 && rbit t 0x1000 0) ∧
      (∀ o : Nat, o ≠ off → o ≠ 0x1004 → rget t o = rget s o) ∧ { t with time := s.time, regs := s.regs } = s

/-- R121, R123, R125, R126, R143, R494: FTIME_PULSE_OUT rises on the control clock of an instant that POUT selects, until the first
control clock by which 100 ns have passed (53 clocks, log 82), and on no other; the first pulse of a grandmaster sets fabric time to
CAL.EPOCH (here no slot edge) and makes it valid, and one that did not stay high, or came within 100 µs (52,500 clocks), is ignored; a
follower whose source has completed no exchange for 256 µs takes its alternate, and one that has completed none for 1 ms enters
holdover with its event. A write of 1 to REACQUIRE of CAL.CTRL sets it at once, and leaves RUN as it is pending, or in effect. -/
def Obligations.PulsesAndSources : Prop :=
  ((∀ s : State, s.time.counting = true → atInstant s = true → exec .ftimePulseOut s =
     .next { s with time := { s.time with pulseOutEnd := some (s.time.clocks + 53) } }) ∧
   (∀ s : State, (s.time.counting = false ∨ atInstant s = false) → exec .ftimePulseOut s = .next s) ∧
   (∀ s : State, rfld s 0x1008 3 2 = 0 → exec .ftimePulseOut s = .next s) ∧
   (∀ s : State, s.time.counting = true → s.time.lastPulse = none → s.time.pulsed = false → timeRole s = 1 →
     epoch s % lambda s ≠ 0 →
     ∃ t, exec (.ftimePulseIn true) s = .next t ∧
       t.time.ftime = BitVec.ofNat 64 ((rget s 0x1020).toNat + 2 ^ 32 * (rget s 0x1024).toNat) ∧ t.time.frac = 0 ∧
       t.time.nextEdge = (epoch s / lambda s + 1) * lambda s ∧ t.time.pulsed = true ∧
       t.time.lastPulse = some s.time.clocks ∧ rbit t 0x1004 2 = true ∧
       (∀ o : Nat, o ≠ 0x1004 → rget t o = rget s o) ∧ { t with time := s.time, regs := s.regs } = s) ∧
   (∀ s : State, edgeDue s = false → exec (.ftimePulseIn false) s = .next s) ∧
   (∀ (s : State) (p : Nat), edgeDue s = false → s.time.lastPulse = some p → s.time.clocks < p + 52500 →
     exec (.ftimePulseIn true) s = .next s) ∧
   (∀ s : State, timeRole s = 2 → rfld s 0x1008 16 6 < 48 → rbit s 0x1004 5 = false →
     s.time.srcAt + 134400 ≤ s.time.clocks → ∃ t, exec .altInUse s = .next t ∧
     rbit t 0x1004 5 = true ∧ t.time = { s.time with srcStreak := 0 } ∧ (∀ o : Nat, o ≠ 0x1004 → rget t o = rget s o) ∧
     { t with time := s.time, regs := s.regs } = s) ∧
   (∀ s : State, s.time.clocks < s.time.srcAt + 134400 → exec .altInUse s = .next s) ∧
   (∀ s : State, timeRole s = 2 → s.time.counting = true → rbit s 0x1004 4 = false → s.book.queue = [] →
     s.time.linkAt + 525000 ≤ s.time.clocks →
     ∃ t, exec .holdover s = .next t ∧ rbit t 0x1004 4 = true ∧ rbit t 0x1004 6 = true ∧
       t.time = { s.time with streak := 0 } ∧ t.book.queue.map (fun e => (e.code, e.kind, e.unit, e.args)) =
         [(0x11, 3, timePort s, [(rget s 0x1014).toNat])] ∧ (∀ o : Nat, o ≠ 0x1004 → rget t o = rget s o)) ∧
   ∀ s : State, timeRole s = 2 → s.time.clocks < s.time.linkAt + 525000 → exec .holdover s = .next s) ∧
  (∀ (s : State) (src : Source), reaches s src = true → ∃ t, exec (.reacquire src) s = .next t ∧ rbit t 0x1000 1 = true ∧
     rbit t 0x1000 0 = rbit s 0x1000 0 ∧
     bitAt (smGet t.regs.staged 0x1000 0) 0 = (if bitAt (smGet s.regs.stagedMask 0x1000 0) 0
       then bitAt (smGet s.regs.staged 0x1000 0) 0 else rbit s 0x1000 0) ∧
     (∀ o : Nat, o ≠ 0x1000 → rget t o = rget s o) ∧ { t with regs := s.regs } = s)

/-- R122, R354: on a usable source port with nothing waiting, a Sync records t2 and is answered with a Delay_Req, whose leaving
is t3, and a Follow_Up and a Delay_Resp of the same sequenceId record t1 and t4 of an exchange that is not complete; a port
that is no source answers a Delay_Req with its time. Each frame takes 7 units of credit. -/
def Obligations.TimeExchange : Prop :=
  ∀ (s : State) (n : Fin 48) (q : BitVec 16) (t1 : BitVec 64), usable s n.val = true → (getPort s n.val).wait = [] →
    7 ≤ nth (getPort s n.val).credits 3 0 → (getPort s n.val).credits.length = 4 → (getPort s n.val).txBuf = [] →
    (getPort s n.val).flits.length < 2047 →
    (isSource s n.val = true → ∃ t, exec (.sync n q) s = .next t ∧
      smGet t.time.exch n.val {} = { seqId := q, t2 := some s.time.ftime, t3 := some s.time.ftime } ∧
      .frame n.val { typ := 6, hops := 0, snode := BitVec.ofNat 16 (nodeId s), data := timeFrame 1 q 0 } ∈ t.outbox ∧
      nth (getPort t n.val).credits 3 0 = nth (getPort s n.val).credits 3 0 - 7 ∧ t.regs = s.regs ∧ t.mem = s.mem) ∧
    (isSource s n.val = true → (smGet s.time.exch n.val {}).t2.isSome = true → (smGet s.time.exch n.val {}).seqId = q →
      (smGet s.time.exch n.val {}).t4 = none → ∃ t, exec (.followUp n q t1) s = .next t ∧
        smGet t.time.exch n.val {} = { (smGet s.time.exch n.val {}) with t1 := some t1 } ∧ t.time.ftime = s.time.ftime ∧
        t.regs = s.regs) ∧
    (isSource s n.val = true → (smGet s.time.exch n.val {}).t3.isSome = true → (smGet s.time.exch n.val {}).seqId = q →
      (smGet s.time.exch n.val {}).t1 = none → ∃ t, exec (.delayResp n q t1) s = .next t ∧
        smGet t.time.exch n.val {} = { (smGet s.time.exch n.val {}) with t4 := some t1 } ∧ t.time.ftime = s.time.ftime ∧
        t.regs = s.regs) ∧
    (isSource s n.val = false → ∃ t, exec (.delayReq n q) s = .next t ∧ t.time = s.time ∧ t.regs = s.regs ∧
      .frame n.val { typ := 6, hops := 0, snode := BitVec.ofNat 16 (nodeId s), data := timeFrame 9 q s.time.ftime.toNat }
        ∈ t.outbox)

/-! ### The cooper -/

/-- R394, R395, R396, R398: what COOP.CMD starts, and what it refuses. -/
def Obligations.CooperCommands : Prop :=
  ∀ (s : State) (src : Source), reaches s src = true → s.coop.pending = none → s.coop.tasting = none →
    (s.coop.busy = true → ∀ b : Fin 64, ∃ t, exec (.marchDestroy src b) s = .next t ∧ rbit t 0xE004 11 = true ∧
      t.coop = s.coop ∧ t.mem = s.mem) ∧
    (s.coop.busy = false → ∀ b : Fin 64,
      (binOwner s b.val = 15 → ∃ t, exec (.marchDestroy src b) s = .next t ∧
        t.coop = { s.coop with busy := true, op := 1, target := b.val } ∧
        rget t 0xE000 = BitVec.ofNat 32 (2 ^ 28 + b.val) ∧ { t with coop := s.coop, regs := s.regs } = s) ∧
      (binOwner s b.val ≠ 15 → ∃ t, exec (.marchDestroy src b) s = .next t ∧ t.coop = s.coop ∧ rbit t 0xE004 11 = true ∧
        t.mem = s.mem) ∧
      (s.coop.remap = none → s.coop.remapDone = [] → ∃ t, exec (.marchPreserve src b) s = .next t ∧
        t.coop = { s.coop with busy := true, op := 2, target := b.val } ∧
        rget t 0xE000 = BitVec.ofNat 32 (2 * 2 ^ 28 + b.val) ∧ { t with coop := s.coop, regs := s.regs } = s) ∧
      (isCorked s b.val = true → ∃ t, exec (.taste src b) s = .next t ∧ t.coop = s.coop ∧ rbit t 0xE004 11 = true) ∧
      (isCorked s b.val = false → setValidR s = true → s.coop.refsFormed = true →
        ∃ t, exec (.taste src b) s = .next t ∧ t.coop.pending = some b.val ∧
          rget t 0xE000 = BitVec.ofNat 32 (3 * 2 ^ 28 + b.val) ∧ { t with coop := s.coop, regs := s.regs } = s))

/-- R395, R396: a destroy-mode march ends with every byte of the bin zero and its sideband unchecked, and the other bins as
they were; a preserve-mode march of a bin that holds no uncorrectable word leaves every byte as it was. Either leaves the
cooper idle. -/
def Obligations.MarchesComplete : Prop :=
  ∀ (s : State) (m : Fin 64), s.coop.busy = true → s.coop.target = m.val →
    (s.coop.op = 1 → ∃ t, exec (.marchComplete none) s = .next t ∧
      t.coop = { s.coop with busy := false, op := 0, target := 0 } ∧
      (∀ k : Nat, binKey s m.val ≤ k → k < binKey s m.val + 0x4000000 → memByte t.mem k = 0#8) ∧
      (∀ k : Nat, (k < binKey s m.val ∨ binKey s m.val + 0x4000000 ≤ k) →
        memByte t.mem k = memByte s.mem k) ∧
      { t with coop := s.coop, mem := s.mem } = s) ∧
    (s.coop.op = 2 → s.mem.ueWords = [] → s.mem.ceWords = [] → exec (.marchComplete none) s =
      .next { s with coop := { s.coop with busy := false, op := 0, target := 0 } })

/-- R392: a remap copy that is done leaves every byte of the bin readable in its spare, and decode still to move. -/
def Obligations.RemapCopies : Prop :=
  ∀ (s : State) (m k : Nat), s.coop.remap = some (m, k) → s.coop.remapQ = [] → m < 64 → k < 4 → Memory.wf s.mem = true →
    rbit s (0x2100 + 4 * m) 8 = false →
    ∃ t, exec .remapCopyDone s = .next t ∧ t.coop.remap = none ∧ t.coop.remapDone = s.coop.remapDone ++ [(m, k)] ∧
      (∀ i : Nat, i < 0x4000000 → memByte t.mem (spareKey k + i) = memByte s.mem (m * 0x4000000 + i)) ∧
      (∀ a : Nat, a < 0x200000000 → memByte t.mem a = memByte s.mem a) ∧
      { t with coop := s.coop, mem := s.mem } = s

/-- R398, R399, R402: at a slot edge the pending press, IDLE and without a frame, enters STRESS with boards and vat cleared; a
tasting that passes is counted, recorded and the press returned at the next edge, and one that fails, by its own checks or by a
pattern result that differs from its reference (R400, R401, log 102), with FAILACT = 1 is counted as a failure and returned
too. -/
def Obligations.StressTasting : Prop :=
  (∀ (s : State) (p : Nat), s.coop.pending = some p → s.time.atEdge = true → (getPress s p).state = .idle →
    (getPress s p).saved = none → isCorked s p = false → ∃ t, exec .stressEnter s = .next t ∧
      getPress t p = { (getPress s p) with front := {}, back := {}, vat := [], state := .stress } ∧
      t.coop = { s.coop with pending := none, tasting := some p, busy := true, op := 3, target := p } ∧
      { t with coop := s.coop, presses := s.presses } = s) ∧
  ∀ (s : State) (p : Nat) (b f : Bool), s.coop.tasting = some p → p < 64 → f = (b || patternFails s.draw s.coop.buffer) →
    (f = true → rbit s 0xE008 31 = true) →
    ∃ t, exec (.tasteComplete b) s = .next t ∧ t.coop.tasting = none ∧ t.coop.busy = false ∧ t.coop.returning = some p ∧
      rget t 0xE014 = BitVec.ofNat 32 (p + if f then 2 ^ 31 else 0) ∧
      rget t (if f then 0xE044 else 0xE040) =
        BitVec.ofNat 32 (min 0xFFFFFFFF ((rget s (if f then 0xE044 else 0xE040)).toNat + 1)) ∧
      t.mem = s.mem ∧ (∀ q : Nat, q ≠ p → getPress t q = getPress s q)

/-! ### The shared pool, and descriptors that no press runs -/

/-- R43: the over-quota bit of a port or a stream, as a read of its register returns it, is 1 where the occupancy (22 bits) is
equal to or above the quota in effect, and 0 otherwise; ANY_OVERQ of CELLAR.STATUS is the OR of all of them. -/
def Obligations.OverQuotaBits : Prop :=
  ∀ s : State,
    (∀ n : Nat, n < 48 → bitAt (regLive s (0x2028 + 4 * (n / 32))) (n % 32) =
      decide (rfld s (0x2300 + 4 * n) 0 22 ≤ rfld s (0x2400 + 4 * n) 0 22)) ∧
    (∀ k : Nat, k < 256 → bitAt (regLive s (0x2030 + 4 * (k / 32))) (k % 32) =
      decide (rfld s (0x2800 + 4 * k) 0 22 ≤ rfld s (0x2C00 + 4 * k) 0 22)) ∧
    (bitAt (regLive s 0x2000) 6 = true ↔
      (∃ n : Nat, n < 48 ∧ bitAt (regLive s (0x2028 + 4 * (n / 32))) (n % 32) = true) ∨
      ∃ k : Nat, k < 256 ∧ bitAt (regLive s (0x2030 + 4 * (k / 32))) (k % 32) = true)

/-- R149, R164, R508: the cellar master completes the oldest NOP of a stream (status DONE, no element) and the oldest
descriptor with a reserved op code (OP_RESERVED), each the last so far in the order in which descriptors finish, with nothing
else changed; a FENCE once no earlier descriptor of its stream
is in flight and, with REMOTE, everything that earlier ones sent is acknowledged, and until then it waits. -/
def Obligations.MasterCompletes : Prop :=
  ∀ (s : State) (st : Fin 256) (f : Flight),
    (latched s st.val (fun op => op == 0x3F) = some f → exec (.nop st) s =
      .next { s with flights := s.flights.map (fun g => if g.id == f.id then { f with early := none, phase := .finished, finish := nextFinish s } else g) }) ∧
    (latched s st.val (fun op => !([0x01, 0x02, 0x03, 0x04, 0x08, 0x09, 0x0A, 0x0B, 0x10, 0x18, 0x19, 0x20, 0x21, 0x28, 0x30,
        0x38, 0x3F].contains op)) = some f → exec (.opReserved st) s =
      .next { s with flights := s.flights.map (fun g => if g.id == f.id then
        { f with early := some 0x0F, phase := .finished, finish := nextFinish s } else g) }) ∧
    (latched s st.val (fun op => op == 0x38) = some f → ∀ c ∈ [Instr.fence st, .fenceComplete st],
      ((∀ g ∈ s.flights, g.stream = f.stream → f.id ≤ g.id) →
        (bitAt (nth f.words 12 0#32) 0 = true → ∀ o ∈ s.fab.outs, o.stream = f.stream → o.fid < f.id → o.acked = true) →
        exec c s = .next { s with flights := s.flights.map (fun g => if g.id == f.id then
          { f with early := none, phase := .finished, finish := nextFinish s } else g) }) ∧
      (∀ g ∈ s.flights, g.stream = f.stream → g.id < f.id → exec c s = .next s) ∧
      (bitAt (nth f.words 12 0#32) 0 = true → ∀ o ∈ s.fab.outs, o.stream = f.stream → o.fid < f.id → o.acked = false →
        exec c s = .next s))

/-- R162, R175, R176: the foremost descriptor of a terrace's queue that stream order permits goes to the eligible press with
the lowest number, which begins its setup for it; here one stage of an op whose operands are not checked for overlap. Where
the queue holds one and no press that serves it is eligible, or the queue is empty and no press of the terrace is, nothing
happens. -/
def Obligations.DispatchGives : Prop :=
  ∀ (s : State) (k : Fin 8),
    (∀ (f : Flight) (g : Stage) (t p : Nat), nextOf s (queueOf s k.val) = some f → serving s k.val f = some t →
      p < 8 → freePress s (8 * t + p) = true → (∀ q : Nat, q < p → freePress s (8 * t + q) = false) →
      f.stages = [g] → g.op ∈ [0x04, 0x08, 0x09, 0x10, 0x18, 0x19, 0x20, 0x21] →
      ∃ u, exec (.dispatch k) s = .next u ∧
        u.flights = s.flights.map (fun x => if x.id == f.id then
          { f with phase := .running (8 * t + p), press := 8 * t + p } else x) ∧
        (getPress u (8 * t + p)).state = .setup ∧
        (getPress u (8 * t + p)).run.map (fun r => (r.fid, r.stage, r.startEdge)) = some (f.id, 0, s.time.edges) ∧
        (∀ q : Nat, q ≠ 8 * t + p → getPress u q = getPress s q) ∧
        { u with flights := s.flights, presses := s.presses } = s) ∧
    (∀ (f : Flight) (t : Nat), nextOf s (queueOf s k.val) = some f → serving s k.val f = some t →
      (∀ q : Nat, q < 8 → freePress s (8 * t + q) = false) → exec (.dispatch k) s = .next s) ∧
    (queueOf s k.val = [] → (∀ q : Nat, q < 8 → freePress s (8 * k.val + q) = false) → exec (.dispatch k) s = .next s)

/-- R152, R165, R166, R167: the card of the descriptor that is next in stream order, finished, sent and accepted by the tap,
stands at TAIL of its completion ring; TAIL and CLAP move on, in the ring table too; the descriptor leaves flight, and every
other byte of memory stays. Here for a card with no chain, no event message and no event, in lines that do not wrap. -/
def Obligations.CardWritten : Prop :=
  ∀ (s : State) (st : Fin 256),
    (cardNext s st.val = none → exec (.cardWrite st) s = .next s) ∧
    ∀ f : Flight, cardNext s st.val = some f →
      (f.tapped = false → exec (.cardWrite st) s = .next s) ∧
      ∀ (c : Nat) (x : CRing) (size at' word1 : Nat), c = fld (nth f.words 1 0#32) 16 10 → x = getCRing s c →
        size = (if heritage s then 16 else 32) → at' = 64 * x.base + size * x.pos → word1 = ringOff s (1024 + c) + 4 →
        f.tapped = true → bitAt (nth f.words 13 0#32) 31 = false → bitAt (nth f.words 0 0#32) 27 = false → x.evt = 0 →
        f.cnt.refFirst = none → f.cnt.failCause = none → Memory.wf s.mem = true → s.mem.ueWords = [] →
        at' + size ≤ 0x2000000 → word1 + 4 ≤ 0x2000000 → (at' + size ≤ word1 ∨ word1 + 4 ≤ at') →
        ∃ t, exec (.cardWrite st) s = .next t ∧
          trBytes t at' size = (cardWords (heritage s) f x.lap).flatMap (leBytes 4) ∧
          getCRing t c = { x with tail := if x.pos + 1 = x.size then 0 else x.pos + 1,
                                  clap := if x.pos + 1 = x.size then (if x.lap = 255 then 1 else x.lap + 1) else x.lap } ∧
          trBytes t word1 4 = leBytes 4 ((getCRing t c).clap * 65536 + (getCRing t c).tail) ∧
          (∀ k : Nat, (k < 0x100000000 + at' ∨ 0x100000000 + at' + size ≤ k) →
            (k < 0x100000000 + word1 ∨ 0x100000000 + word1 + 4 ≤ k) → memByte t.mem k = memByte s.mem k) ∧
          t.flights = s.flights.filter (fun g => g.id != f.id) ∧
          { t with mem := s.mem, crings := s.crings, flights := s.flights } = s

/-! ### Presses -/

/-- R186, R188, R218: a press that runs a descriptor with the op of the command loads and stores until neither a load nor a
store can go on; each load is what LOAD_LINE_RETURN does, each store what PASS_STORE does. A press that runs another op, or
none, is left as it is, as is the whole machine. -/
def Obligations.OpsRun : Prop :=
  ∀ (s : State) (p : Fin 64),
    (∀ (c : Instr) (op : Nat), (c, op) ∈ opCommands p →
      (∀ (r : Run) (f : Flight), (getPress s p.val).run = some r → getFlight s r.fid = some f →
        (opOf f.words = op → exec c s =
          .next (advance (startRun s p.val) p.val (workBound (startRun s p.val) p.val))) ∧
        (opOf f.words ≠ op → exec c s = .next s)) ∧
      ((getPress s p.val).run = none → exec c s = .next s)) ∧
    (∀ k : Nat, advance s p.val (k + 1) =
      if (loadUnit s p.val).2 then advance (settle (loadUnit s p.val).1 p.val) p.val k
      else if (storeUnit (loadUnit s p.val).1 p.val).2 then
        advance (settle (storeUnit (loadUnit s p.val).1 p.val).1 p.val) p.val k
      else (storeUnit (loadUnit s p.val).1 p.val).1) ∧
    exec (.loadLineReturn p) s = .next (settle (loadUnit (startRun s p.val) p.val).1 p.val) ∧
    exec (.passStore p .clean) s = .next (settle (storeUnit (startRun s p.val) p.val).1 p.val) ∧
    ((getPress s p.val).run = none → (getPress s p.val).state ≠ .setup →
      exec (.loadLineReturn p) s = .next s ∧ ∀ b : BoardRead, exec (.passStore p b) s = .next s)

/-- Over every state: no op, load, store, verdict, preemption, dispatch or fence changes the rings, the vintages, the cellar door,
the management agent, the tally, the boot state, the test access port, the thermal trip or the queue, nor fabric time but for
the exchanges of its ports, where a returned credit lets a Delay_Req leave. -/
def Obligations.PressCommandsFrame : Prop :=
  ∀ (c : Instr) (s t : State), pressCommand c = true → exec c s = .next t →
    { t.time with exch := [] } = { s.time with exch := [] } ∧ t.drings = s.drings ∧ t.crings = s.crings ∧ t.vint = s.vint ∧ t.door = s.door ∧ t.mgmt = s.mgmt ∧
    t.tally = s.tally ∧ t.boot = s.boot ∧ t.jtag = s.jtag ∧ t.thermTrip = s.thermTrip ∧ t.pending = s.pending

/-- R183: the first uncorrectable error of a complete board unit stops the pass before any store and clears the board's
row-valid mask, so that the pass is loaded once more, and nothing else changes; PRESS.BOARD_UE counts the second (R183). Here
for a descriptor of one stage whose operands are on this node. -/
def Obligations.BoardErrorReloads : Prop :=
  ∀ (s : State) (p : Fin 64) (r : Run) (f : Flight) (g : Stage) (c : SCtx) (u : WUnit) (b : Bool),
    (getPress s p.val).state = .run → (getPress s p.val).run = some r → r.loading = true → r.boardUeOnce = false →
    getFlight s r.fid = some f → f.stages = [g] → g.op ≠ 0x28 → r.stage = 0 → c = stageCtx s p.val f 0 →
    looksAhead s c = false → u = unitOf s p.val f r c r.unit → u.kind = 0 → b = useBack c r.unit u →
    (∀ k : Nat, k < u.rows → (getBoard (getPress s p.val) b).valid.getLsbD k = true) →
    ∃ t, exec (.passStore p .uncorrectable) s = .next t ∧
      getPress t p.val = { setBoard (getPress s p.val) b { getBoard (getPress s p.val) b with valid := 0 } with
        run := some { r with boardUeOnce := true, accM := 0, accP := 0, vtags := [], barred := false } } ∧
      (∀ q : Nat, q ≠ p.val → getPress t q = getPress s q) ∧ { t with presses := s.presses } = s

/-- R167, R378, R383, R384, R386: the verdict on the last stored pass of a descriptor of one stage whose press has stored all.
A pass gives each block its sideband, where the pass wrote the whole block or it carries no mark; a store-leg difference gives
each the FAIL mark, and is counted for the descriptor and the press (here below its cork threshold). Either way the blocks
count, no byte of memory changes, the descriptor is finished and the press is IDLE. -/
def Obligations.LotVerdicts : Prop :=
  ∀ (s : State) (p : Fin 64) (r : Run) (f : Flight) (g : Stage) (w : PassRec), getPress s p.val =
      { (getPress s p.val) with state := .finish, run := some r, saved := none, waits := [w] } →
    getFlight s w.fid = some f → r.fid = w.fid → f.phase = .running p.val → f.stages = [g] → g.op ≠ 0x28 → w.stage = 0 →
    w.blend = false → w.keys = [] → w.refused = false → w.unapplied = false → (w.blocks.map (·.1)).Nodup →
    (s.flights.map (·.id)).Nodup →
    (∀ e ∈ w.blocks, e.1 < 0x100000000 / 2048) →
    (∃ t, exec (.lotVerdict p none) s = .next t ∧
      t.flights = s.flights.map (fun h => if h.id == f.id then
        { f with phase := .finished, finish := nextFinish s, press := p.val,
                 cnt := { f.cnt with lotBlocks := f.cnt.lotBlocks + w.nblocks,
                                     lotChecked := f.cnt.lotChecked || decide (0 < w.nblocks) } } else h) ∧
      getPress t p.val = { (getPress s p.val) with state := .idle, run := none, waits := [] } ∧
      (∀ q : Nat, q ≠ p.val → getPress t q = getPress s q) ∧
      (∀ e ∈ w.blocks, e.2.2.1 ≠ 0xFFFFFFFF#32 →
        sbGet t.mem e.1 = if e.2.1 || (sbGet s.mem e.1).1 != 0xFFFFFFFF#32 then e.2.2 else sbGet s.mem e.1) ∧
      (∀ b : Nat, b ∉ w.blocks.map (·.1) → sbGet t.mem b = sbGet s.mem b) ∧ (∀ k : Nat, memByte t.mem k = memByte s.mem k) ∧
      { t with flights := s.flights, presses := s.presses, mem := s.mem } = s) ∧
    (((getPress s p.val).fails.filter (fun e => decide (s.time.edges - e < max 1 (rfld s 0xD004 0 16)))).length + 1 <
        max 1 (rfld s 0xD004 16 4) →
      ∃ t, exec (.lotVerdict p (some .storeLeg)) s = .next t ∧
        t.flights = s.flights.map (fun h => if h.id == f.id then
          { f with phase := .finished, finish := nextFinish s, press := p.val,
                   cnt := { f.cnt with lotBlocks := f.cnt.lotBlocks + w.nblocks,
                                       lotChecked := f.cnt.lotChecked || decide (0 < w.nblocks), lotFail := true,
                                       failCause := some (f.cnt.failCause.getD 1), failPasses := f.cnt.failPasses + 1 } }
          else h) ∧
        getPress t p.val = { (getPress s p.val) with
          state := .idle, run := none, waits := [], fails := s.time.edges :: (getPress s p.val).fails,
          total := (getPress s p.val).total + 1 } ∧
        (∀ q : Nat, q ≠ p.val → getPress t q = getPress s q) ∧
        (∀ e ∈ w.blocks, sbGet t.mem e.1 = (0xFFFFFFFF#32, 1#32)) ∧
        (∀ b : Nat, b ∉ w.blocks.map (·.1) → sbGet t.mem b = sbGet s.mem b) ∧
        (∀ k : Nat, memByte t.mem k = memByte s.mem k) ∧
        rget t 0xD040 = BitVec.ofNat 32 (min 0xFFFFFFFF ((rget s 0xD040).toNat + 1)) ∧
        (∀ o : Nat, o ≠ 0xD040 → rget t o = rget s o) ∧
        { t with flights := s.flights, presses := s.presses, mem := s.mem, regs := s.regs } = s)

/-! ### The optical links -/

/-- R318, R324, R325, R327: for every transaction whose payload is as long as its TYPE, LEN_M1 and PARTIAL say, its 48-byte header
and its whole stream read back as the transaction, every field at every value; a transaction that a flit of zeros follows is
the one that the received bytes split into (log 98). R361, R362: the header of each message that the integrator sends reads
back as its command. -/
def Obligations.HeadersRoundTrip : Prop :=
  (∀ (t : Txn) (rest : List Byte), t.data.length = 64 * payloadLines t.typ.toNat t.lenM1.toNat →
    t.bmasks.length = (if hasMasks t.typ.toNat t.partialW then payloadLines t.typ.toNat t.lenM1.toNat else 0) →
    (headerBytes t).length = 48 ∧ readHeader (txnStream t ++ rest) = { t with data := [], bmasks := [] } ∧
      rxLen { t with data := [], bmasks := [] } = txnBytes t ∧ readTxnBytes (txnStream t ++ rest) = t ∧
      (txnStream t).length = txnBytes t ∧
      ((txnStream t).all (· == 0#8) = false → ∀ k : Nat, splitTxns (txnStream t ++ List.replicate k 0#8) (k + 2) = ([t], []))) ∧
  ∀ (m : Fin 16) (addr : BitVec 48) (lenM1 : BitVec 5) (tag : BitVec 12),
    doorCommand m (doorHeader 0x01 false false lenM1.toNat 0 tag addr.toNat 0) = some (.mrd m addr lenM1 tag) ∧
    (∀ (q : Bool) (data : List Byte), data.length = 64 * (lenM1.toNat + 1) →
      doorCommand m (doorHeader 0x02 false q lenM1.toNat 0 tag addr.toNat 0 ++ data) =
        some (.mwr m addr lenM1 tag false q data [])) ∧
    doorCommand m (doorHeader 0x03 false false 0 0 tag addr.toNat 0) = some (.rrd m addr tag) ∧
    (∀ v : Word, doorCommand m (doorHeader 0x04 false false 0 0 tag addr.toNat v.toNat) = some (.rwr m addr tag v)) ∧
    doorCommand m (doorHeader 0x07 false false 0 0 tag addr.toNat 0) = some (.mrst m) ∧
    (∀ (st : Byte) (data : List Byte), data.length = 64 * (lenM1.toNat + 1) →
      doorCommand m (doorHeader 0x18 false false lenM1.toNat st.toNat tag 0 0 ++ data) = some (.xcpl m tag st lenM1 data)) ∧
    (∀ (st : Byte) (lanes : BitVec 16),
      doorCommand m (doorHeader 0x19 false false 0 st.toNat tag 0 lanes.toNat) = some (.xack m tag st lanes)) ∧
    ∀ beats headers : BitVec 16,
      doorCommand m (doorHeader 0x1D false false 0 0 tag 0 (beats.toNat * 2 ^ 16 + headers.toNat)) =
        some (.crd m beats headers)

/-! ### What a press waits for -/

/-- R199, R200, R214, R260: the table of a terrace, once no press holds it, is granted to the waiting press that follows the last granted
one in round-robin order of number, and to none while it is held or nobody waits. A read that has failed fewer than FAB_RETRY + 1 times
is asked for again, and the reissue is counted; one that has failed that often is dead. A staged copy is complete once every remote line
of its footprints has landed: the local ones then stand copied, and no store of the descriptor waits for it any more. -/
def Obligations.PressWaits : Prop :=
  (∀ (s : State) (x : Fin 8),
    ((getTable s x.val).owner ≠ none ∨ (getTable s x.val).waiting = [] → exec (.sortTableGrant x) s = .next s) ∧
    ∀ p ∈ (getTable s x.val).waiting, (getTable s x.val).owner = none → (getTable s x.val).last < 8 →
      (∀ q ∈ (getTable s x.val).waiting, q % 8 = p % 8 → q = p) →
      (∀ q ∈ (getTable s x.val).waiting, (p + 7 - (getTable s x.val).last) % 8 ≤ (q + 7 - (getTable s x.val).last) % 8) →
      exec (.sortTableGrant x) s = .next (setTable s x.val
        { getTable s x.val with
            owner := some p, waiting := (getTable s x.val).waiting.filter (· != p), last := p % 8, pairs := [] })) ∧
  ∀ (s : State) (p : Fin 64) (r : Run) (f : Flight),
    (getPress s p.val).state = .setup → (getPress s p.val).run = some r → getFlight s r.fid = some f →
    (nth f.stages 0 {}).op ≠ 0x28 →
    (∀ tag : BitVec 18, (∀ e ∈ r.reads, e.tag = tag.toNat → e.flying = false) →
      exec (.fabricReadTimeout p tag) s = .next s) ∧
    (∀ e ∈ r.reads, e.flying = true → e.tag < 2 ^ 18 → (∀ y ∈ r.reads, y.tag = e.tag → y.flying = true → y = e) →
      (fabRetry s < e.fails + 1 → exec (.fabricReadTimeout p (BitVec.ofNat 18 e.tag)) s =
        .next (putRun s p.val { r with
          reads := r.reads.map (fun y => if y = e then { e with fails := e.fails + 1, dead := true } else y) })) ∧
      (∀ (t : Txn) (n : Nat), t = readTxn e.tag e.node e.addr e.lines e.table → e.fails + 1 ≤ fabRetry s →
        chooseRoute s { t with hops := 63, snode := BitVec.ofNat 16 (nodeId s) } = some n → usable s n = true →
        (getPort s n).wait = [] → txnUnits t ≤ nth (getPort s n).credits (vcOf t.typ) 0 → flitRoom (getPort s n) t = true →
        ∃ u, exec (.fabricReadTimeout p (BitVec.ofNat 18 e.tag)) s = .next u ∧
          u.presses = (putRun s p.val { r with
            reads := r.reads.map (fun y => if y = e then { e with fails := e.fails + 1 } else y) }).presses ∧
          .frame n { t with hops := 63, snode := BitVec.ofNat 16 (nodeId s) } ∈ u.outbox ∧
          u.regs = (bump s (0x4018 + 256 * p.val) 1).regs ∧ u.mem = s.mem ∧ u.flights = s.flights ∧ u.tables = s.tables ∧
          u.time = s.time)) ∧
    (∀ base : Nat, r.stagedWait = true → (∀ e ∈ r.reads, e.copy = true → e.landed = true ∨ e.dead = true) →
      stageBase s p.val (streamDomain s f.stream) = some base →
      (∀ e ∈ r.staged, ∀ i : Nat, i < e.2.1 / 64 → reach s (streamDomain s f.stream) false (64 * ((e.1 + 64 * i) / 64)) = .ok ∧
        reach s (streamDomain s f.stream) false (base + e.2.2 + 64 * i) = .ok) →
      exec (.stagingCopyDone p) s =
        .next (putRun (copyLines s (stageCtx s p.val f 0) base r.staged) p.val { r with stagedWait := false }))

/-! ### Preemption: the frame saved and restored -/

/-- R193, R194, R196, R197: a preempted press with a save area writes its frame, byte for byte, into its slot of the area and nowhere else,
keeps the descriptor in flight as saved, and takes the displacing descriptor; where that one has gone elsewhere, it is to restore
the frame at once. RESUME then reads the frame back: boards, vat and masks are the frame's bytes, the counts, accumulators and retry
count its words, and the press runs on in the pass that the cursor names. The resume is stated here for one stage, with no remote
operand, whose frame stands as it was written. -/
def Obligations.FrameSavedAndRestored : Prop :=
  ∀ (s : State) (p : Fin 64) (r : Run) (f : Flight) (dom a : Nat),
    getFlight s r.fid = some f → dom = streamDomain s f.stream → saveBase s p.val dom = some a → reach s dom false a = .ok →
    Memory.wf s.mem = true → s.mem.ueWords = [] →
    (∀ r' : Run, r' = { r with frame := frameWords s p.val f r } →
      (getPress s p.val).state = .save → (getPress s p.val).run = some r →
      ∃ u : State,
        u.presses = (setPress s p.val { getPress s p.val with run := none, saved := some r', state := .idle }).presses ∧
        u.flights = (setFlight s { f with phase := .saved p.val }).flights ∧
        (∀ i : Nat, i < 12544 → memByte u.mem (physOf s a + i) = (frameBytes s p.val f r').getD i 0#8) ∧
        (∀ k : Nat, k < physOf s a ∨ physOf s a + 12544 ≤ k → memByte u.mem k = memByte s.mem k) ∧
        { u with presses := s.presses, flights := s.flights, mem := s.mem } = s ∧
        ((getPress s p.val).waiting = none → exec (.saveFrameDone p) s =
          .next (setPress u p.val { getPress u p.val with state := .restore, waiting := none })) ∧
        (∀ (id : Nat) (g : Flight), (getPress s p.val).waiting = some id → getFlight s id = some g → id ≠ f.id →
          g.phase = .queued → exec (.saveFrameDone p) s = .next (accept u p.val g))) ∧
    (∀ (g : Stage) (w : Nat → Nat), (∀ i, w i = (wordAt (localBytes s a 12544) (0x3000 + 4 * i)).toNat) →
      (getPress s p.val).state = .restore → (getPress s p.val).saved = some r → r.loading = true → r.stage = 0 →
      f.stages = [g] → g.op ≠ 0x28 → looksAhead s (stageCtx s p.val f 0) = false → s.mem.ceWords = [] → r.frame.length = 20 →
      (∀ i, 2 ≤ i → i < 20 → w i = nth r.frame i 0) → w 19 % 16 = 0 →
      ∃ t, exec (.resume p) s = .next t ∧
        getPress t p.val = { getPress s p.val with
          saved := none, state := .run
          front := { (getPress s p.val).front with
            ent := gridOf ((localBytes s a 12544).take 4096), valid := BitVec.ofNat 32 (w 0) }
          back := { (getPress s p.val).back with
            ent := gridOf (((localBytes s a 12544).drop 4096).take 4096), valid := BitVec.ofNat 32 (w 1) }
          vat := gridOf (((localBytes s a 12544).drop 8192).take 4096)
          run := some { r with
            stored := w 7, retry := w 19 / 16 % 16, startEdge := s.time.edges, coal := [], order := [], barred := false
            accM := if (boardFmt (stageCtx s p.val f 0)).tags then 0 else
              BitVec.ofNat 32 (w (if bitAt (BitVec.ofNat 32 (w 2)) 3 then 17 else 15))
            accP := if (boardFmt (stageCtx s p.val f 0)).tags then 0 else
              BitVec.ofNat 32 (w (if bitAt (BitVec.ofNat 32 (w 2)) 3 then 18 else 16)) } } ∧
        (∀ q : Nat, q ≠ p.val → getPress t q = getPress s q) ∧
        t.flights = (setFlight s { f with phase := .running p.val }).flights ∧
        { t with presses := s.presses, flights := s.flights } = s)

/-! ### Optical ports -/

/-- R317, R318, R319, R320, R404: what the link of a port does on each of its events. An idle flit in order moves the sequence number
on and returns its credits; one with a wrong CRC is counted and NAKed, one out of order NAKed. A codeword waits for its
wavelength's turn, and a correction in it is counted; on a wavelength not in use it does nothing. A dropped wavelength begins a
retrain; when it ends the port runs on with what trained, each unacknowledged flit sent again and counted, and with nothing
trained stays in it. A port lost is recorded. A trained port holds the credits that its partner advertises, and advertises its own. -/
def Obligations.PortEvents : Prop :=
  ∀ (s : State) (n : Fin 48) (p : Port), p = getPort s n.val →
    (usable s n.val = false → ∀ rx : LinkIn, exec (.flit n rx) s = .next s) ∧
    (usable s n.val = true →
      (∀ bs : List Byte, bs.length = 256 → wordAt bs 252 = crc32c (bs.take 252) →
        leNat ((bs.drop 240).take 2) % 4096 = p.rxSeq.toNat → (∀ b ∈ bs.take 240, b = 0) →
        (leNat ((bs.drop 242).take 2) + 1) % 4096 = p.acked % 4096 → leNat ((bs.drop 242).take 2) / 4096 % 2 = 0 →
        p.rxBytes = [] → p.wait = [] → p.txBuf = [] → (∀ e ∈ p.unacked, p.acked ≤ e.lastFlit) →
        exec (.flit n (.flit bs)) s = .next (setPort s n.val { p with
          rxSeq := p.rxSeq + 1
          credits := (List.range 4).map (fun v =>
            nth p.credits v 0 + leNat ((bs.drop 244).take 6) / 4096 ^ v % 4096) })) ∧
      (∀ bs : List Byte, p.flits.length < 2048 →
        (bs.length ≠ 256 ∨ wordAt bs 252 ≠ crc32c (bs.take 252) ∨ leNat ((bs.drop 240).take 2) % 4096 ≠ p.rxSeq.toNat) →
        ∃ t, exec (.flit n (.flit bs)) s = .next t ∧ (getPort t n.val).rxSeq = p.rxSeq ∧
          (getPort t n.val).credits = p.credits ∧ (getPort t n.val).unacked = p.unacked ∧
          .flit n.val (flitBytes [] p.formed (p.rxSeq - 1).toNat true (p.owed.map (min 4095))) ∈ t.outbox ∧
          t.regs = (if bs.length = 256 ∧ wordAt bs 252 = crc32c (bs.take 252) then s
            else bump s (0x8410 + 32 * n.val) 1).regs ∧
          t.mem = s.mem ∧ (∀ k : Nat, k ≠ n.val → getPort t k = getPort s k)) ∧
      ∀ (w : Fin 8) (symbols : List (BitVec 10)),
        (p.up.getLsbD w.val = false → exec (.flit n (.codeword w symbols)) s = .next s) ∧
        ∀ (d : List Nat) (k : Nat), p.up.getLsbD w.val = true →
          rsDecode ((List.range 544).map (fun i => nth (symbols.map (·.toNat)) i 0)) = some (d, k) →
          nth (lanesUp p.up) (p.rxLane % (lanesUp p.up).length) 0 ≠ w.val →
          smGet p.rxCodes (nth (lanesUp p.up) (p.rxLane % (lanesUp p.up).length) 0) [] = [] →
          ∀ m : State, m = setPort s n.val { p with
              rxCodes := smPut p.rxCodes w.val (smGet p.rxCodes w.val [] ++ [symbolsPayload d]) } →
            exec (.flit n (.codeword w symbols)) s = .next (if k = 0 then m else bump m (0x8408 + 32 * n.val) 1)) ∧
    (∀ w : Fin 8,
      (p.trained = true → p.held = false → p.lost = false → p.up.getLsbD w.val = true →
        ∃ t, exec (.wavelengthDrop n w) s = .next t ∧ t.regs = (bump s (0x8418 + 32 * n.val) 1).regs ∧
          getPort t n.val = { p.restreamed with
            retrain := true, replays := 0, up := p.up &&& ~~~(1#8 <<< w.val), dropped := p.dropped ||| (1#8 <<< w.val) } ∧
          (∀ k : Nat, k ≠ n.val → getPort t k = getPort s k) ∧ t.mem = s.mem ∧ t.outbox = s.outbox) ∧
      (p.trained = false ∨ p.held = true ∨ p.lost = true ∨ p.up.getLsbD w.val = false →
        exec (.wavelengthDrop n w) s = .next s)) ∧
    (∀ up : BitVec 8,
      (p.retrain = false ∨ p.held = true ∨ p.lost = true → exec (.retrainDone n up) s = .next s) ∧
      (p.retrain = true → p.held = false → p.lost = false →
        (p.up &&& up = 0 → exec (.retrainDone n up) s =
          .next (setPort s n.val { p with up := p.up &&& up, dropped := p.dropped ||| (p.up &&& ~~~up) })) ∧
        (p.up &&& up ≠ 0 → p.wait = [] → p.txBuf = [] → (∀ v ∈ p.owed, v = 0) → p.nakDue = false →
          ∃ t, exec (.retrainDone n up) s = .next t ∧ (getPort t n.val).retrain = false ∧
            (getPort t n.val).up = p.up &&& up ∧ (getPort t n.val).dropped = p.dropped ||| (p.up &&& ~~~up) ∧
            (getPort t n.val).flits = p.flits ∧ (∀ b ∈ p.flits, .flit n.val b ∈ t.outbox) ∧
            t.regs = (bump s (0x8414 + 32 * n.val) p.flits.length).regs ∧ t.mem = s.mem ∧
            ∀ k : Nat, k ≠ n.val → getPort t k = getPort s k))) ∧
    ((p.retrain = false ∨ p.held = true ∨ p.lost = true ∨ p.up ≠ 0 → exec (.portLost n) s = .next s) ∧
      (p.retrain = true → p.held = false → p.lost = false → p.up = 0 → p.wait = [] → p.unacked = [] →
        ∃ t, exec (.portLost n) s = .next t ∧
          t.fab = (setPort s n.val { p.unlinked with
            lost := true, trained := false, retrain := false, wait := [], unacked := [], replays := 0, owed := [0, 0, 0, 0]
            kept := [0, 0, 0, 0], nakDue := false }).fab ∧
          rbit t 0xD000 6 = true ∧
          (s.book.queue.length < 16 → ∃ e ∈ t.book.queue, e.code = 0x26 ∧ e.kind = 3 ∧ e.unit = n.val ∧ e.fault = true))) ∧
    (∀ (peer : BitVec 16) (u : PortUp),
      (loaded s = false ∨ p.trained = true ∨ p.held = true ∨ p.lost = true ∨ u.up &&& ~~~p.dropped = 0 →
        exec (.portTrain n peer u) s = .next s) ∧
      (loaded s = true → p.trained = false → p.held = false → p.lost = false → u.up &&& ~~~p.dropped ≠ 0 → p.wait = [] →
        exec (.portTrain n peer u) s = .next (setPort
          { s with outbox := .advert n.val ((List.range 4).map (advertised n.val)) :: s.outbox } n.val
          { p.unlinked with
            trained := true, everTrained := true, retrain := false, up := u.up &&& ~~~p.dropped, peer := peer, rxSeq := 0
            nakDue := false, owed := [0, 0, 0, 0], kept := [0, 0, 0, 0], replays := 0
            credits := [u.vc0.toNat, u.vc1.toNat, u.vc2.toNat, u.vc3.toNat] })))

/-! ### Requests from the fabric -/

/-- R322, R327, R335, R336, R338, R346: what a request of another node for this node's cellar does. A READ changes no memory and no
register, and is answered with the lines, the block's sideband and its TAG. A WRITE stores its enabled bytes and no other, and its ACK
echoes STREAM and BLOCKID with STATUS OK. An ATOMIC_ADD adds each contribution, in lane order, to its lane and changes no other byte;
its ACK has MASK 0. A MULTICAST_WRITE for a receiver here is stored and acknowledged with the receiver's bit. On a port that is
not usable a request does nothing, and one for another node passes on with HOPS lowered. -/
def Obligations.FabricRequests : Prop :=
  (∀ (s : State) (port : Fin 48) (t : Txn), usable s port.val = false →
    exec (.fabRead port t) s = .next s ∧ exec (.fabWrite port t) s = .next s ∧ exec (.atomicAdd port t) s = .next s ∧
      exec (.multicastWrite port t) s = .next s) ∧
  (∀ (s : State) (port : Fin 48) (t : Txn) (n : Nat), t.typ = 0 → t.data = [] → t.bmasks = [] → usable s port.val = true →
    t.dnode.toNat ≠ nodeId s → doorNode s ≠ some t.dnode.toNat → t.hops ≠ 0 →
    GoesOut s n { t with hops := t.hops - 1 } →
    ∃ u, exec (.fabRead port t) s = .next u ∧ .frame n { t with hops := t.hops - 1 } ∈ u.outbox ∧ u.mem = s.mem ∧
      u.regs = s.regs) ∧
  ∀ (s : State) (port : Fin 48) (t : Txn) (m n a : Nat), ToCellar s port t m → Sound s.mem → a = t.addr.toNat / 64 * 64 →
    (t.typ = 0 → t.data = [] → t.bmasks = [] →
      GoesOut s n (rspOf s t (sbGet s.mem (blockOf (physOf s a))) (localBytes s a (64 * (t.lenM1.toNat + 1)))) →
      ∃ u, exec (.fabRead port t) s = .next u ∧
        .frame n (rspOf s t (sbGet s.mem (blockOf (physOf s a))) (localBytes s a (64 * (t.lenM1.toNat + 1)))) ∈ u.outbox ∧
        u.mem = s.mem ∧ u.regs = s.regs) ∧
    (t.typ = 1 → recalled s t = false → GoesOut s n (ackOf s t 0 0) →
      ∃ u, exec (.fabWrite port t) s = .next u ∧ .frame n (ackOf s t 0 0) ∈ u.outbox ∧
        (∀ i : Nat, i < 64 * (t.lenM1.toNat + 1) → memByte u.mem (physOf s a + i) =
          if !t.partialW || (nth t.bmasks (i / 64) 0#64).getLsbD (i % 64) then nth t.data i 0#8 else memByte s.mem (physOf s a + i)) ∧
        (∀ k : Nat, k < physOf s a ∨ physOf s a + 64 * (t.lenM1.toNat + 1) ≤ k → memByte u.mem k = memByte s.mem k) ∧
        u.regs = s.regs) ∧
    (∀ (f : Nat) (lanes : List Nat), t.typ = 2 → f = fmtRead t.code.toNat → blendable f = true →
      lanes = (maskBits t.mask).filter (· < 64 / fmtBytes f) → GoesOut s n (ackOf s t 0 0) →
      ∃ u, exec (.atomicAdd port t) s = .next u ∧ .frame n (ackOf s t 0 0) ∈ u.outbox ∧
        (∀ (j l : Nat), lanes[j]? = some l → memBytes u.mem (physOf s a + fmtBytes f * l) (fmtBytes f) = leBytes (fmtBytes f)
          (blendAdd f (leNat (memBytes s.mem (physOf s a + fmtBytes f * l) (fmtBytes f)))
            (leNat ((t.data.drop (contribBytes f * j)).take (contribBytes f))))) ∧
        (∀ k : Nat, (∀ l ∈ lanes, k < physOf s a + fmtBytes f * l ∨ physOf s a + fmtBytes f * (l + 1) ≤ k) →
          memByte u.mem k = memByte s.mem k) ∧
        u.regs = s.regs) ∧
    (∀ r : Nat, t.typ = 3 → t.partialW = false → maskBits t.mask = [r] → groupNode s t.group.toNat r = nodeId s →
      discards s t = false → t.rejoin = false → GoesOut s n (ackOf s t 0 t.mask) →
      ∃ u, exec (.multicastWrite port t) s = .next u ∧ .frame n (ackOf s t 0 t.mask) ∈ u.outbox ∧
        (∀ i : Nat, i < 64 * (t.lenM1.toNat + 1) → memByte u.mem (physOf s a + i) = nth t.data i 0#8) ∧
        (∀ k : Nat, k < physOf s a ∨ physOf s a + 64 * (t.lenM1.toNat + 1) ≤ k → memByte u.mem k = memByte s.mem k) ∧
        u.regs = s.regs)

/-! ### Answers and messages from the fabric -/

/-- R192, R325, R339, R348, R352, R355, R484, R485: messages of other nodes that concern this one. A reserved TYPE is counted and
its credits go back. A RECALL marks the blocks that it names and is remembered, counted and recorded. A GAP replaces its key's entry,
counted and recorded. A response to a retired tag is dropped, one to a read of this node lands in the staging area. An ACK that nothing
awaits is counted; one of an own WRITE retires it, as does its timeout, which is counted and recorded. The oldest recall expires. An
EVENT of another node joins the send queue and not the book, and a forwarded answer goes back to the controller. -/
def Obligations.FabricMessages : Prop :=
  (∀ (s : State) (n : Fin 48) (t : Txn) (p : Port), p = getPort s n.val → usable s n.val = true → p.flits.length < 2048 →
    ∃ u, exec (.fabReservedType n t) s = .next u ∧ u.regs = (bump s 0x8048 1).regs ∧ u.mem = s.mem ∧
      .flit n.val (flitBytes [] p.formed (p.rxSeq - 1).toNat p.nakDue
        ((p.owed.set 3 (nth p.owed 3 0 + (7 + 4 * t.lenM1.toNat))).map (min 4095))) ∈ u.outbox) ∧
  (∀ (s : State) (n : Fin 48) (t : Txn), usable s n.val = true → t.dnode.toNat = nodeId s →
    (doorNode s ≠ some t.dnode.toNat →
      ∃ u, exec (.recallTxn n t) s = .next u ∧ rget u 0x805C = BitVec.ofNat 32 (min 0xFFFFFFFF ((rget s 0x805C).toNat + 1)) ∧
        (t.snode.toNat, t.ident) ∈ u.fab.recalls ∧ u.fab.recalls.length = min 4096 (s.fab.recalls.length + 1) ∧
        (∀ k : Nat, memByte u.mem k = memByte s.mem k) ∧
        (∀ e ∈ s.fab.performed, e.1 = t.snode.toNat → e.2.1 = t.ident → blockOf (physOf s (2048 * e.2.2)) < 0x100000000 / 2048 →
          (∀ y ∈ s.fab.performed, blockOf (physOf s (2048 * y.2.2)) < 0x100000000 / 2048) →
          sbGet u.mem (blockOf (physOf s (2048 * e.2.2))) = (0xFFFFFFFF#32, 2#32)) ∧
        (s.book.queue.length < 16 → ∃ e ∈ u.book.queue, e.code = 0x1D ∧ e.args = [t.snode.toNat, t.ident.toNat])) ∧
    (∃ u, exec (.gap n t) s = .next u ∧ rget u 0x8064 = BitVec.ofNat 32 (min 0xFFFFFFFF ((rget s 0x8064).toNat + 1)) ∧
      ⟨t.snode.toNat, t.stream.toNat, t.group.toNat, t.ident⟩ ∈ u.fab.gaps ∧ (∀ g ∈ u.fab.gaps, sameKey g t = true → g.ident = t.ident) ∧
      (s.fab.gaps.length < 256 → ∀ g ∈ s.fab.gaps, sameKey g t = false → g ∈ u.fab.gaps) ∧ u.mem = s.mem ∧
      (s.book.queue.length < 16 → ∃ e ∈ u.book.queue, e.code = 0x1B ∧ e.unit = t.stream.toNat)) ∧
    (outstanding s (t.tag.toNat / 4096) t.tag.toNat = none → ∃ u, exec (.readRsp n t) s = .next u ∧ u.mem = s.mem ∧
      u.regs = s.regs ∧
      ((getPress s (t.tag.toNat / 4096)).retired.contains t.tag.toNat = true → u.presses = (setPress s (t.tag.toNat / 4096)
        { getPress s (t.tag.toNat / 4096) with
            retired := (getPress s (t.tag.toNat / 4096)).retired.erase t.tag.toNat }).presses) ∧
      ((getPress s (t.tag.toNat / 4096)).retired.contains t.tag.toNat = false → u.presses = s.presses)) ∧
    (∀ (p base m : Nat) (r : Run) (f : Flight) (e : FRead), p = t.tag.toNat / 4096 → (getPress s p).state = .setup →
      (getPress s p).run = some r → getFlight s r.fid = some f → (nth f.stages 0 {}).op ≠ 0x28 → e ∈ r.reads →
      e.flying = true → e.tag = t.tag.toNat → (∀ y ∈ r.reads, y.tag = e.tag → y.flying = true → y = e) →
      stageBase s p (streamDomain s f.stream) = some base → reach s (streamDomain s f.stream) false (base + e.stageOff) = .ok →
      region (base + e.stageOff) = .cellar m → (base + e.stageOff) % 0x4000000 + 64 * e.lines ≤ 0x4000000 → Sound s.mem →
      t.code = 0 → t.data.length = 64 * e.lines →
      ∃ u, exec (.readRsp n t) s = .next u ∧
        memBytes u.mem (physOf s (base + e.stageOff)) (64 * e.lines) = t.data ∧
        (∀ k : Nat, k < physOf s (base + e.stageOff) ∨ physOf s (base + e.stageOff) + 64 * e.lines ≤ k →
          memByte u.mem k = memByte s.mem k) ∧
        u.presses = (putRun s p { r with
          reads := r.reads.map (fun y => if y = e then { e with landed := true, vtag := t.ident } else y) }).presses) ∧
    (s.fab.poolWait = [] → s.door.xwait = [] →
      (outByIdent s t.ident = none → ∃ u, exec (.ack n t) s = .next u ∧ u.regs = (bump s 0x8050 1).regs ∧
        u.fab.outs = s.fab.outs ∧ u.mem = s.mem) ∧
      (∀ o : OutTxn, outByIdent s t.ident = some o → o.queued = true → o.acked = false → o.multicast = false → o.txn.typ = 1 →
        o.toPass = [] → (∀ f, getFlight s o.fid = some f → ∀ p, f.phase ≠ .running p) → (∀ x ∈ s.fab.outs, x.key = o.key → x = o) →
        ∃ u, exec (.ack n t) s = .next u ∧ u.fab.outs = s.fab.outs.filter (fun x => x.key != o.key) ∧ u.mem = s.mem ∧
          u.regs = if o.poolBlock then (rsetFld s (0x2C00 + 4 * o.stream) 0 22 (streamOcc s o.stream - 1)).regs else s.regs)) ∧
    (∀ (c : Instr) (p : Packet), c ∈ [Instr.mgmt n t, Instr.event n t] → readPacket t.data = some p →
      (p.rsp = false → p.code = 1 → 36 ≤ p.payload.length → s.book.send.length < 64 → evtNode s = none →
        ∃ u, exec c s = .next u ∧ u.book = { s.book with send := s.book.send ++
          [{ origin := BitVec.ofNat 16 (leNat (p.payload.take 2)), item := recOfWords (wordsOf 8 (p.payload.drop 4)) }] }) ∧
      (∀ f : Fwd, p.rsp = true →
        s.mgmt.forwards.find? (fun f => f.dnode == t.snode && f.innerTag == p.tag && f.code == p.code) = some f →
        ∃ u, exec c s = .next u ∧ u.mgmt = { s.mgmt with forwards := s.mgmt.forwards.erase f } ∧
          .mgmtFwdRsp f.tag (if nth p.payload 0 0#8 = 4 then 4 else 0) (tatHead p.code 1 p.tag ++ p.payload) ∈ u.outbox))) ∧
  ∀ (s : State) (b : Word),
    exec .recallTableExpiry s = .next { s with fab := { s.fab with recalls := s.fab.recalls.drop 1 } } ∧
    (outByIdent s b = none → exec (.ackTimeout b) s = .next s) ∧
    ∀ o : OutTxn, outByIdent s b = some o → o.sent = true → o.acked = false → o.late = false → o.multicast = false →
      o.toPass = [] → o.poolBlock = false → (∀ f, getFlight s o.fid = some f → ∀ p, f.phase ≠ .running p) →
      s.book.queue.length < 16 → (∀ x ∈ s.fab.outs, x.key = o.key → x = o) →
      ∃ u, exec (.ackTimeout b) s = .next u ∧ u.fab.outs = s.fab.outs.filter (fun x => x.key != o.key) ∧
        u.regs = (bump s 0x804C 1).regs ∧ u.mem = s.mem ∧
        ∃ e ∈ u.book.queue, e.code = 0x19 ∧ e.unit = o.stream ∧ e.args = [b.toNat, o.txn.dnode.toNat]

/-! ### Messages on the cellar door -/

/-- R358, R362, R364, R365, R366: what the integrator's messages do on a module that carries messages. An MRD of a cellar bin of the
module's domain is answered by an MCPL with its lines and STATUS OK, and one that reuses a tag in flight by zeros and REFUSED. An MWR is
kept until its last beat and mask have arrived; it then stores its enabled bytes and no other, its MACK leaves where it asks for one, and
its credits go back. A register message enters the queue of 64 or, where that is full, waits in its module's buffer and keeps its
credit. CRD adds the integrator's credits. A reserved TYPE, or one of the other direction, is counted and its credits go back. L1 is
entered and left. On a module that does not carry messages none of these has an effect. -/
def Obligations.DoorRequests : Prop :=
  (∀ (s : State) (m : Fin 16) (c : Instr) (a : BitVec 48) (l : BitVec 5) (g : BitVec 12) (pw ar e : Bool) (d : List Byte)
    (ms : List (BitVec 64)) (v : Word) (b h : BitVec 16) (ty : BitVec 5), (getMod s m.val).trained = false →
    c ∈ [Instr.mrd m a l g, .mwr m a l g pw ar d ms, .rrd m a g, .rwr m a g v, .crd m b h, .doorReservedType m ty l, .l1 m e] →
    exec c s = .next s) ∧
  ∀ (s : State) (m : Fin 16) (x : Module), x = getMod s m.val → x.trained = true →
    (∀ e : Bool, exec (.l1 m e) s = .next (setMod s m.val { x with l1 := e })) ∧
    (∀ ty l : BitVec 5, ty.toNat ∉ [0x01, 0x02, 0x03, 0x04, 0x07, 0x18, 0x19, 0x1D] →
      ∃ u, exec (.doorReservedType m ty l) s = .next u ∧ u.regs = (bump s 0xC040 1).regs ∧ u.mem = s.mem ∧ u.door = s.door ∧
        u.outbox = .crd m.val (if ty = 0x09 ∨ ty = 0x0A ∨ ty = 0x10 then 0 else l.toNat + 1) 1 :: s.outbox) ∧
    (x.outq = [] → ∀ b h : BitVec 16, exec (.crd m b h) s = .next (setMod s m.val
      { x with hdrCredits := x.hdrCredits + h.toNat, beatCredits := x.beatCredits + b.toNat })) ∧
    (∀ (a : BitVec 48) (g : BitVec 12) (v : Word) (c : Instr) (msg : RegMsg),
      (c = .rrd m a g ∧ msg.value = none ∨ c = .rwr m a g v ∧ msg.value = some v) → msg.m = m → msg.tag = g → msg.quiet = false →
      (0x180000000 ≤ a.toNat → a.toNat < 0x180100000 → msg.off = some ((a.toNat - 0x180000000) / 4 * 4)) →
      (¬(0x180000000 ≤ a.toNat ∧ a.toNat < 0x180100000) → msg.off = none) →
      (s.door.regq.length < 64 → ∃ u, exec c s = .next u ∧ u.door.regq = s.door.regq ++ [msg] ∧ u.mem = s.mem ∧ u.regs = s.regs ∧
        u.outbox = .crd m.val 0 1 :: s.outbox) ∧
      (64 ≤ s.door.regq.length → exec c s = .next (setMod s m.val { x with regWait := x.regWait ++ [msg] }))) ∧
    (∀ (a : BitVec 48) (l : BitVec 5) (g : BitVec 12) (pw ar : Bool) (d : List Byte) (ms : List (BitVec 64)),
      (d.length < 64 * (l.toNat + 1) ∨ pw = true ∧ ms.length < l.toNat + 1) →
      ∃ u, exec (.mwr m a l g pw ar d ms) s = .next u ∧ u.mem = s.mem ∧ u.regs = s.regs ∧ u.outbox = s.outbox ∧
        (getMod u m.val).part.isSome = true) ∧
    ∀ (a : BitVec 48) (l : BitVec 5) (g : BitVec 12) (k bin : Nat), k = a.toNat / 64 * 64 → x.outq = [] →
      (tagInFlight s m.val g = true → 1 ≤ x.hdrCredits → l.toNat + 1 ≤ x.beatCredits →
        ∃ u, exec (.mrd m a l g) s = .next u ∧ .mcpl m.val g 1 k (List.replicate (64 * (l.toNat + 1)) 0#8) ∈ u.outbox ∧
          u.mem = s.mem ∧ u.regs = s.regs) ∧
      (ready s = true → (strapBoot s < 2 → loaded s = true) → region k = .cellar bin →
        mayUse s (doorDomain s m.val) bin = true → k % 2048 + 64 * (l.toNat + 1) ≤ 2048 → Sound s.mem →
        (tagInFlight s m.val g = false → 1 ≤ x.hdrCredits → l.toNat + 1 ≤ x.beatCredits →
          ∃ u, exec (.mrd m a l g) s = .next u ∧ .mcpl m.val g 0 k (localBytes s k (64 * (l.toNat + 1))) ∈ u.outbox ∧
            u.mem = s.mem ∧ u.regs = s.regs) ∧
        ∀ (pw ar : Bool) (d : List Byte) (ms : List (BitVec 64)), 64 * (l.toNat + 1) ≤ d.length →
          (pw = true → l.toNat + 1 ≤ ms.length) → 1 ≤ x.hdrCredits →
          ∃ u, exec (.mwr m a l g pw ar d ms) s = .next u ∧ (ar = true → .mack m.val g 0 ∈ u.outbox) ∧
            .crd m.val (l.toNat + 1) 1 ∈ u.outbox ∧ u.regs = s.regs ∧
            (∀ i : Nat, i < 64 * (l.toNat + 1) → memByte u.mem (physOf s k + i) =
              if !pw || (nth ms (i / 64) 0#64).getLsbD (i % 64) then nth d i 0#8 else memByte s.mem (physOf s k + i)) ∧
            ∀ q : Nat, q < physOf s k ∨ physOf s k + 64 * (l.toNat + 1) ≤ q → memByte u.mem q = memByte s.mem q)

/-! ### Modules of the cellar door -/

/-- R359, R363, R367, R368, R369, R370: a bonded module trains with empty queues and full credits. A fault of its link, and MRST, are a
master reset: a part-arrived MWR is counted in DOOR.BURST_DISCARD, the reads in flight in DOOR.READ_ABANDON and are dropped, committed
writes stay without MACK, queued register messages leave and the one at work goes on without a response, and RESETS counts. An XCPL is
answered on the fabric by a READ_RSP with its data, an XACK by an ACK with its lanes not applied, both from the DOOR_NODE, and their
credits go back. An expired request is counted, and answered UNREACHABLE, or LINK_LOST with every enabled lane marked for an ATOMIC_ADD. -/
def Obligations.DoorModules : Prop :=
  (∀ (s : State) (m : Fin 16) (rate rep : BitVec 4) (x : Module), x = getMod s m.val → s.boot.power = .up → dormant s = false →
    m.val ≤ rfld s 0x0010 10 4 → x.trained = false → s.door.xwait = [] →
    exec (.moduleTrained m rate rep) s = .next { setMod s m.val { trained := true, rate := rate, repaired := rep, resets := x.resets
                                                                  nextTag := x.nextTag, xreqs := x.xreqs
                                                                  hdrCredits := rfld s 0xC00C 0 16, beatCredits := rfld s 0xC00C 16 16 } with
      outbox := .crd m.val 512 64 :: s.outbox }) ∧
  (∀ (s : State) (m : Fin 16) (x : Module) (c : Instr), x = getMod s m.val → m.val ≤ rfld s 0x0010 10 4 → x.xreqs = [] →
    s.door.xwait = [] → (∀ k : Nat, (getMod s k).regWait = []) →
    (c = .moduleLinkFault m ∧ s.boot.power = .up ∧ dormant s = false ∨ c = .mrst m ∧ x.trained = true) →
    ∃ u, exec c s = .next u ∧ u.mem = s.mem ∧ u.outbox = s.outbox ∧
      getMod u m.val = { resets := x.resets + 1, repaired := x.repaired, nextTag := x.nextTag } ∧
      (∀ k : Nat, k ≠ m.val → getMod u k = getMod s k) ∧
      u.regs = (bump (if x.part.isSome then bump s 0xC044 1 else s) 0xC048 (readsOpen s m.val)).regs ∧
      u.door.heldAcc = s.door.heldAcc.filterMap (fun h =>
        if h.m = m.val then (if h.isWrite then some { h with ackReq := false } else none) else some h) ∧
      u.door.regq = s.door.regq.filter (fun y => y.m != m) ∧
      u.door.matrix = s.door.matrix.map (fun y => if y.m = m then { y with quiet := true } else y)) ∧
  (∀ (s : State) (m : Fin 16) (g : BitVec 12) (st : Byte) (l : BitVec 5) (d : List Byte) (ln : BitVec 16), getX s m.val g = none →
    (getMod s m.val).trained = true →
    exec (.xcpl m g st l d) s = .next { s with outbox := .crd m.val (l.toNat + 1) 1 :: s.outbox } ∧
    exec (.xack m g st ln) s = .next { s with outbox := .crd m.val 0 1 :: s.outbox } ∧
    exec (.xtmoExpiry m g) s = .next s) ∧
  ∀ (s : State) (m : Fin 16) (g : BitVec 12) (x : XReq) (node n : Nat), getX s m.val g = some x → doorNode s = some node →
    x.txn.snode.toNat ≠ nodeId s → s.door.xwait = [] →
    (∀ (k b : Nat) (d : List Byte), (getMod s m.val).trained = true → x.txn.typ = 0 → x.block = some k →
      d.length = 64 * (x.txn.lenM1.toNat + 1) → Sound s.mem → region (poolAddr s k) = .cellar b →
      GoesOut s n { rspOf s x.txn (0, 0) d with snode := BitVec.ofNat 16 node } →
      ∃ u, exec (.xcpl m g 0 x.txn.lenM1 d) s = .next u ∧ u.regs = s.regs ∧ getX u m.val x.tag = none ∧
        .crd m.val (x.txn.lenM1.toNat + 1) 1 ∈ u.outbox ∧
        .frame n { rspOf s x.txn (0, 0) d with snode := BitVec.ofNat 16 node } ∈ u.outbox) ∧
    (∀ (st : Byte) (ln : BitVec 16) (code : Nat) (mask : BitVec 64), (getMod s m.val).trained = true →
      (code = 0 ∧ st = 0 ∨ code = 5 ∧ st = 3) → (x.txn.typ = 1 ∧ mask = 0 ∨ x.txn.typ = 2 ∧ mask = xackLanes x.txn ln ∨
        x.txn.typ = 3 ∧ mask = x.txn.mask) →
      GoesOut s n { ackOf s x.txn code mask with snode := BitVec.ofNat 16 node } →
      ∃ u, exec (.xack m g st ln) s = .next u ∧ u.regs = s.regs ∧ u.mem = s.mem ∧ getX u m.val x.tag = none ∧
        .crd m.val 0 1 ∈ u.outbox ∧ .frame n { ackOf s x.txn code mask with snode := BitVec.ofNat 16 node } ∈ u.outbox) ∧
    (∀ (k : Nat) (t : Txn), x.block = some k → x.port < 48 → (getPort s x.port).kept.all (· == 0) = true → x.txn.typ = 0 →
      t = { rspOf s x.txn (0, 0) (List.replicate (64 * (x.txn.lenM1.toNat + 1)) 0#8) with code := 3, snode := BitVec.ofNat 16 node } →
      GoesOut s n t →
      ∃ u, exec (.xtmoExpiry m g) s = .next u ∧ rget u 0xC04C = BitVec.ofNat 32 (satAdd (rget s 0xC04C).toNat 1) ∧ u.mem = s.mem ∧
        getX u m.val x.tag = none ∧ .frame n t ∈ u.outbox) ∧
    ∀ t : Txn, x.block = none → (x.txn.typ = 1 ∧ t = ackOf s x.txn 3 0 ∨ x.txn.typ = 2 ∧ t = ackOf s x.txn 6 (enabledLanes x.txn) ∨
        x.txn.typ = 3 ∧ t = ackOf s x.txn 3 x.txn.mask) →
      GoesOut s n { t with snode := BitVec.ofNat 16 node } →
      ∃ u, exec (.xtmoExpiry m g) s = .next u ∧ u.regs = (bump s 0xC04C 1).regs ∧ u.mem = s.mem ∧ getX u m.val x.tag = none ∧
        .frame n { t with snode := BitVec.ofNat 16 node } ∈ u.outbox
end

