-- ==== Sys2Proof/Laws/State.lean ====
section
/-!
SUPPORT. Laws/State.lean: what each plain update leaves of every field of the state, and reading after writing for the
sparse maps, the registers and the memory.
-/
namespace Sys2Proof.Machine

/-! ### Sparse maps -/

@[simp] theorem smGet_smPut_self {α : Type} (m : SMap α) (k : Nat) (v d : α) : smGet (smPut m k v) k d = v := by
  induction m with
  | nil => simp [smPut, smGet]
  | cons e r ih =>
    unfold smPut
    split
    · simp [smGet]
    · split
      · simp [smGet]
      · unfold smGet
        split
        · exact absurd ‹_› ‹_›
        · exact ih

theorem smGet_smPut_ne {α : Type} (m : SMap α) {k j : Nat} (h : j ≠ k) (v d : α) :
    smGet (smPut m k v) j d = smGet m j d := by
  induction m with
  | nil => simp [smPut, smGet, h]
  | cons e r ih =>
    unfold smPut
    split
    · simp [smGet, h]
    · split
      · next h1 => subst h1; simp [smGet, h]
      · unfold smGet
        split
        · rfl
        · exact ih

/-! ### Registers -/

@[simp] theorem rget_rset_self (s : State) (off : Nat) (v : Word) : rget (rset s off v) off = v :=
  smGet_smPut_self _ _ _ _

theorem rget_rset_ne (s : State) {off o : Nat} (h : o ≠ off) (v : Word) : rget (rset s off v) o = rget s o :=
  smGet_smPut_ne _ h _ _

/-- Registers are read from the register map alone. -/
theorem rget_congr {s t : State} (h : t.regs = s.regs) (off : Nat) : rget t off = rget s off := by
  unfold rget
  rw [h]

/-! ### Presses, ports and modules by number -/

@[simp] theorem getPress_setPress_self (s : State) (p : Nat) (x : Press) : getPress (setPress s p x) p = x :=
  smGet_smPut_self _ _ _ _
theorem getPress_setPress_ne (s : State) {p q : Nat} (h : q ≠ p) (x : Press) :
    getPress (setPress s p x) q = getPress s q := smGet_smPut_ne _ h _ _
@[simp] theorem getPort_setPort_self (s : State) (n : Nat) (x : Port) : getPort (setPort s n x) n = x :=
  smGet_smPut_self _ _ _ _
theorem getPort_setPort_ne (s : State) {n q : Nat} (h : q ≠ n) (x : Port) :
    getPort (setPort s n x) q = getPort s q := smGet_smPut_ne _ h _ _
@[simp] theorem getMod_setMod_self (s : State) (n : Nat) (x : Module) : getMod (setMod s n x) n = x :=
  smGet_smPut_self _ _ _ _
theorem getMod_setMod_ne (s : State) {n q : Nat} (h : q ≠ n) (x : Module) :
    getMod (setMod s n x) q = getMod s q := smGet_smPut_ne _ h _ _
@[simp] theorem getTable_setTable_self (s : State) (k : Nat) (x : SortTable) : getTable (setTable s k x) k = x :=
  smGet_smPut_self _ _ _ _
@[simp] theorem getHandle_setHandle_self (s : State) (h : Nat) (x : Handle) : getHandle (setHandle s h x) h = x :=
  smGet_smPut_self _ _ _ _

/-! ### Memory -/

@[simp] theorem cellGet_cellPut_self (c : List Host.Cell) (k : Nat) (b : Byte) (lo : Nat) (w : cellsWf lo c = true) :
    cellGet (cellPut c k b) k = b := by
  have below : ∀ (l : List Host.Cell) (m : Nat), cellsWf m l = true → k < m → smGet l k cellDefault = cellDefault := by
    intro l
    induction l with
    | nil => intro m _ _; rfl
    | cons e r ih =>
      intro m h lt
      simp only [cellsWf, Bool.and_eq_true, decide_eq_true_eq] at h
      unfold smGet
      split
      · omega
      · exact ih _ h.2 (by omega)
  unfold cellGet
  induction c generalizing lo with
  | nil =>
    unfold cellPut
    split
    · next h => simp [smGet, h]
    · simp [smGet]
  | cons e r ih =>
    obtain ⟨k', b'⟩ := e
    simp only [cellsWf, Bool.and_eq_true, decide_eq_true_eq] at w
    unfold cellPut
    split
    · split
      · next h1 h => rw [h]; unfold smGet; split
                     · omega
                     · exact below _ _ w.2 (by omega)
      · simp [smGet]
    · split
      · split
        · next h2 h => rw [h]; exact below _ _ w.2 (by omega)
        · simp [smGet]
      · unfold smGet
        split
        · omega
        · exact ih _ w.2

theorem cellGet_cellPut_ne (c : List Host.Cell) {k j : Nat} (h : j ≠ k) (b : Byte) (lo : Nat) (w : cellsWf lo c = true) :
    cellGet (cellPut c k b) j = cellGet c j := by
  unfold cellGet
  induction c generalizing lo with
  | nil =>
    unfold cellPut
    split
    · rfl
    · simp [smGet, h]
  | cons e r ih =>
    obtain ⟨k', b'⟩ := e
    simp only [cellsWf, Bool.and_eq_true, decide_eq_true_eq] at w
    unfold cellPut
    split
    · split
      · rfl
      · simp [smGet, h]
    · split
      · next h1 =>
          split
          · subst h1; simp [smGet, h]
          · subst h1; simp [smGet, h]
      · simp only [smGet]
        split
        · rfl
        · exact ih _ w.2

/-! ### Plain updates, field by field -/

@[simp] theorem rset_pending (s : State) (off : Nat) (v : Word) : (rset s off v).pending = s.pending := rfl
@[simp] theorem rset_draw (s : State) (off : Nat) (v : Word) : (rset s off v).draw = s.draw := rfl
@[simp] theorem rset_outside (s : State) (off : Nat) (v : Word) : (rset s off v).outside = s.outside := rfl
@[simp] theorem rset_outbox (s : State) (off : Nat) (v : Word) : (rset s off v).outbox = s.outbox := rfl
@[simp] theorem rset_mem (s : State) (off : Nat) (v : Word) : (rset s off v).mem = s.mem := rfl
@[simp] theorem rset_book (s : State) (off : Nat) (v : Word) : (rset s off v).book = s.book := rfl
@[simp] theorem rset_time (s : State) (off : Nat) (v : Word) : (rset s off v).time = s.time := rfl
@[simp] theorem rset_drings (s : State) (off : Nat) (v : Word) : (rset s off v).drings = s.drings := rfl
@[simp] theorem rset_crings (s : State) (off : Nat) (v : Word) : (rset s off v).crings = s.crings := rfl
@[simp] theorem rset_flights (s : State) (off : Nat) (v : Word) : (rset s off v).flights = s.flights := rfl
@[simp] theorem rset_nextId (s : State) (off : Nat) (v : Word) : (rset s off v).nextId = s.nextId := rfl
@[simp] theorem rset_presses (s : State) (off : Nat) (v : Word) : (rset s off v).presses = s.presses := rfl
@[simp] theorem rset_tables (s : State) (off : Nat) (v : Word) : (rset s off v).tables = s.tables := rfl
@[simp] theorem rset_vint (s : State) (off : Nat) (v : Word) : (rset s off v).vint = s.vint := rfl
@[simp] theorem rset_fab (s : State) (off : Nat) (v : Word) : (rset s off v).fab = s.fab := rfl
@[simp] theorem rset_door (s : State) (off : Nat) (v : Word) : (rset s off v).door = s.door := rfl
@[simp] theorem rset_coop (s : State) (off : Nat) (v : Word) : (rset s off v).coop = s.coop := rfl
@[simp] theorem rset_mgmt (s : State) (off : Nat) (v : Word) : (rset s off v).mgmt = s.mgmt := rfl
@[simp] theorem rset_tally (s : State) (off : Nat) (v : Word) : (rset s off v).tally = s.tally := rfl
@[simp] theorem rset_boot (s : State) (off : Nat) (v : Word) : (rset s off v).boot = s.boot := rfl
@[simp] theorem rset_jtag (s : State) (off : Nat) (v : Word) : (rset s off v).jtag = s.jtag := rfl
@[simp] theorem rset_thermTrip (s : State) (off : Nat) (v : Word) : (rset s off v).thermTrip = s.thermTrip := rfl

@[simp] theorem drawn_pending (s : State) : (drawn s).pending = s.pending := rfl
@[simp] theorem drawn_outside (s : State) : (drawn s).outside = s.outside := rfl
@[simp] theorem drawn_outbox (s : State) : (drawn s).outbox = s.outbox := rfl
@[simp] theorem drawn_mem (s : State) : (drawn s).mem = s.mem := rfl
@[simp] theorem drawn_regs (s : State) : (drawn s).regs = s.regs := rfl
@[simp] theorem drawn_book (s : State) : (drawn s).book = s.book := rfl
@[simp] theorem drawn_time (s : State) : (drawn s).time = s.time := rfl
@[simp] theorem drawn_drings (s : State) : (drawn s).drings = s.drings := rfl
@[simp] theorem drawn_crings (s : State) : (drawn s).crings = s.crings := rfl
@[simp] theorem drawn_flights (s : State) : (drawn s).flights = s.flights := rfl
@[simp] theorem drawn_nextId (s : State) : (drawn s).nextId = s.nextId := rfl
@[simp] theorem drawn_presses (s : State) : (drawn s).presses = s.presses := rfl
@[simp] theorem drawn_tables (s : State) : (drawn s).tables = s.tables := rfl
@[simp] theorem drawn_vint (s : State) : (drawn s).vint = s.vint := rfl
@[simp] theorem drawn_fab (s : State) : (drawn s).fab = s.fab := rfl
@[simp] theorem drawn_door (s : State) : (drawn s).door = s.door := rfl
@[simp] theorem drawn_coop (s : State) : (drawn s).coop = s.coop := rfl
@[simp] theorem drawn_mgmt (s : State) : (drawn s).mgmt = s.mgmt := rfl
@[simp] theorem drawn_tally (s : State) : (drawn s).tally = s.tally := rfl
@[simp] theorem drawn_boot (s : State) : (drawn s).boot = s.boot := rfl
@[simp] theorem drawn_jtag (s : State) : (drawn s).jtag = s.jtag := rfl
@[simp] theorem drawn_thermTrip (s : State) : (drawn s).thermTrip = s.thermTrip := rfl

@[simp] theorem sendOut_pending (s : State) (o : Out) : (sendOut s o).pending = s.pending := rfl
@[simp] theorem sendOut_draw (s : State) (o : Out) : (sendOut s o).draw = s.draw := rfl
@[simp] theorem sendOut_outside (s : State) (o : Out) : (sendOut s o).outside = s.outside := rfl
@[simp] theorem sendOut_mem (s : State) (o : Out) : (sendOut s o).mem = s.mem := rfl
@[simp] theorem sendOut_regs (s : State) (o : Out) : (sendOut s o).regs = s.regs := rfl
@[simp] theorem sendOut_book (s : State) (o : Out) : (sendOut s o).book = s.book := rfl
@[simp] theorem sendOut_time (s : State) (o : Out) : (sendOut s o).time = s.time := rfl
@[simp] theorem sendOut_drings (s : State) (o : Out) : (sendOut s o).drings = s.drings := rfl
@[simp] theorem sendOut_crings (s : State) (o : Out) : (sendOut s o).crings = s.crings := rfl
@[simp] theorem sendOut_flights (s : State) (o : Out) : (sendOut s o).flights = s.flights := rfl
@[simp] theorem sendOut_nextId (s : State) (o : Out) : (sendOut s o).nextId = s.nextId := rfl
@[simp] theorem sendOut_presses (s : State) (o : Out) : (sendOut s o).presses = s.presses := rfl
@[simp] theorem sendOut_tables (s : State) (o : Out) : (sendOut s o).tables = s.tables := rfl
@[simp] theorem sendOut_vint (s : State) (o : Out) : (sendOut s o).vint = s.vint := rfl
@[simp] theorem sendOut_fab (s : State) (o : Out) : (sendOut s o).fab = s.fab := rfl
@[simp] theorem sendOut_door (s : State) (o : Out) : (sendOut s o).door = s.door := rfl
@[simp] theorem sendOut_coop (s : State) (o : Out) : (sendOut s o).coop = s.coop := rfl
@[simp] theorem sendOut_mgmt (s : State) (o : Out) : (sendOut s o).mgmt = s.mgmt := rfl
@[simp] theorem sendOut_tally (s : State) (o : Out) : (sendOut s o).tally = s.tally := rfl
@[simp] theorem sendOut_boot (s : State) (o : Out) : (sendOut s o).boot = s.boot := rfl
@[simp] theorem sendOut_jtag (s : State) (o : Out) : (sendOut s o).jtag = s.jtag := rfl
@[simp] theorem sendOut_thermTrip (s : State) (o : Out) : (sendOut s o).thermTrip = s.thermTrip := rfl

@[simp] theorem setMem_pending (s : State) (m : Mem) : (setMem s m).pending = s.pending := rfl
@[simp] theorem setMem_draw (s : State) (m : Mem) : (setMem s m).draw = s.draw := rfl
@[simp] theorem setMem_outside (s : State) (m : Mem) : (setMem s m).outside = s.outside := rfl
@[simp] theorem setMem_outbox (s : State) (m : Mem) : (setMem s m).outbox = s.outbox := rfl
@[simp] theorem setMem_regs (s : State) (m : Mem) : (setMem s m).regs = s.regs := rfl
@[simp] theorem setMem_book (s : State) (m : Mem) : (setMem s m).book = s.book := rfl
@[simp] theorem setMem_time (s : State) (m : Mem) : (setMem s m).time = s.time := rfl
@[simp] theorem setMem_drings (s : State) (m : Mem) : (setMem s m).drings = s.drings := rfl
@[simp] theorem setMem_crings (s : State) (m : Mem) : (setMem s m).crings = s.crings := rfl
@[simp] theorem setMem_flights (s : State) (m : Mem) : (setMem s m).flights = s.flights := rfl
@[simp] theorem setMem_nextId (s : State) (m : Mem) : (setMem s m).nextId = s.nextId := rfl
@[simp] theorem setMem_presses (s : State) (m : Mem) : (setMem s m).presses = s.presses := rfl
@[simp] theorem setMem_tables (s : State) (m : Mem) : (setMem s m).tables = s.tables := rfl
@[simp] theorem setMem_vint (s : State) (m : Mem) : (setMem s m).vint = s.vint := rfl
@[simp] theorem setMem_fab (s : State) (m : Mem) : (setMem s m).fab = s.fab := rfl
@[simp] theorem setMem_door (s : State) (m : Mem) : (setMem s m).door = s.door := rfl
@[simp] theorem setMem_coop (s : State) (m : Mem) : (setMem s m).coop = s.coop := rfl
@[simp] theorem setMem_mgmt (s : State) (m : Mem) : (setMem s m).mgmt = s.mgmt := rfl
@[simp] theorem setMem_tally (s : State) (m : Mem) : (setMem s m).tally = s.tally := rfl
@[simp] theorem setMem_boot (s : State) (m : Mem) : (setMem s m).boot = s.boot := rfl
@[simp] theorem setMem_jtag (s : State) (m : Mem) : (setMem s m).jtag = s.jtag := rfl
@[simp] theorem setMem_thermTrip (s : State) (m : Mem) : (setMem s m).thermTrip = s.thermTrip := rfl

@[simp] theorem setPress_pending (s : State) (p : Nat) (x : Press) : (setPress s p x).pending = s.pending := rfl
@[simp] theorem setPress_draw (s : State) (p : Nat) (x : Press) : (setPress s p x).draw = s.draw := rfl
@[simp] theorem setPress_outside (s : State) (p : Nat) (x : Press) : (setPress s p x).outside = s.outside := rfl
@[simp] theorem setPress_outbox (s : State) (p : Nat) (x : Press) : (setPress s p x).outbox = s.outbox := rfl
@[simp] theorem setPress_mem (s : State) (p : Nat) (x : Press) : (setPress s p x).mem = s.mem := rfl
@[simp] theorem setPress_regs (s : State) (p : Nat) (x : Press) : (setPress s p x).regs = s.regs := rfl
@[simp] theorem setPress_book (s : State) (p : Nat) (x : Press) : (setPress s p x).book = s.book := rfl
@[simp] theorem setPress_time (s : State) (p : Nat) (x : Press) : (setPress s p x).time = s.time := rfl
@[simp] theorem setPress_drings (s : State) (p : Nat) (x : Press) : (setPress s p x).drings = s.drings := rfl
@[simp] theorem setPress_crings (s : State) (p : Nat) (x : Press) : (setPress s p x).crings = s.crings := rfl
@[simp] theorem setPress_flights (s : State) (p : Nat) (x : Press) : (setPress s p x).flights = s.flights := rfl
@[simp] theorem setPress_nextId (s : State) (p : Nat) (x : Press) : (setPress s p x).nextId = s.nextId := rfl
@[simp] theorem setPress_tables (s : State) (p : Nat) (x : Press) : (setPress s p x).tables = s.tables := rfl
@[simp] theorem setPress_vint (s : State) (p : Nat) (x : Press) : (setPress s p x).vint = s.vint := rfl
@[simp] theorem setPress_fab (s : State) (p : Nat) (x : Press) : (setPress s p x).fab = s.fab := rfl
@[simp] theorem setPress_door (s : State) (p : Nat) (x : Press) : (setPress s p x).door = s.door := rfl
@[simp] theorem setPress_coop (s : State) (p : Nat) (x : Press) : (setPress s p x).coop = s.coop := rfl
@[simp] theorem setPress_mgmt (s : State) (p : Nat) (x : Press) : (setPress s p x).mgmt = s.mgmt := rfl
@[simp] theorem setPress_tally (s : State) (p : Nat) (x : Press) : (setPress s p x).tally = s.tally := rfl
@[simp] theorem setPress_boot (s : State) (p : Nat) (x : Press) : (setPress s p x).boot = s.boot := rfl
@[simp] theorem setPress_jtag (s : State) (p : Nat) (x : Press) : (setPress s p x).jtag = s.jtag := rfl
@[simp] theorem setPress_thermTrip (s : State) (p : Nat) (x : Press) : (setPress s p x).thermTrip = s.thermTrip := rfl

@[simp] theorem setTable_pending (s : State) (k : Nat) (x : SortTable) : (setTable s k x).pending = s.pending := rfl
@[simp] theorem setTable_draw (s : State) (k : Nat) (x : SortTable) : (setTable s k x).draw = s.draw := rfl
@[simp] theorem setTable_outside (s : State) (k : Nat) (x : SortTable) : (setTable s k x).outside = s.outside := rfl
@[simp] theorem setTable_outbox (s : State) (k : Nat) (x : SortTable) : (setTable s k x).outbox = s.outbox := rfl
@[simp] theorem setTable_mem (s : State) (k : Nat) (x : SortTable) : (setTable s k x).mem = s.mem := rfl
@[simp] theorem setTable_regs (s : State) (k : Nat) (x : SortTable) : (setTable s k x).regs = s.regs := rfl
@[simp] theorem setTable_book (s : State) (k : Nat) (x : SortTable) : (setTable s k x).book = s.book := rfl
@[simp] theorem setTable_time (s : State) (k : Nat) (x : SortTable) : (setTable s k x).time = s.time := rfl
@[simp] theorem setTable_drings (s : State) (k : Nat) (x : SortTable) : (setTable s k x).drings = s.drings := rfl
@[simp] theorem setTable_crings (s : State) (k : Nat) (x : SortTable) : (setTable s k x).crings = s.crings := rfl
@[simp] theorem setTable_flights (s : State) (k : Nat) (x : SortTable) : (setTable s k x).flights = s.flights := rfl
@[simp] theorem setTable_nextId (s : State) (k : Nat) (x : SortTable) : (setTable s k x).nextId = s.nextId := rfl
@[simp] theorem setTable_presses (s : State) (k : Nat) (x : SortTable) : (setTable s k x).presses = s.presses := rfl
@[simp] theorem setTable_vint (s : State) (k : Nat) (x : SortTable) : (setTable s k x).vint = s.vint := rfl
@[simp] theorem setTable_fab (s : State) (k : Nat) (x : SortTable) : (setTable s k x).fab = s.fab := rfl
@[simp] theorem setTable_door (s : State) (k : Nat) (x : SortTable) : (setTable s k x).door = s.door := rfl
@[simp] theorem setTable_coop (s : State) (k : Nat) (x : SortTable) : (setTable s k x).coop = s.coop := rfl
@[simp] theorem setTable_mgmt (s : State) (k : Nat) (x : SortTable) : (setTable s k x).mgmt = s.mgmt := rfl
@[simp] theorem setTable_tally (s : State) (k : Nat) (x : SortTable) : (setTable s k x).tally = s.tally := rfl
@[simp] theorem setTable_boot (s : State) (k : Nat) (x : SortTable) : (setTable s k x).boot = s.boot := rfl
@[simp] theorem setTable_jtag (s : State) (k : Nat) (x : SortTable) : (setTable s k x).jtag = s.jtag := rfl
@[simp] theorem setTable_thermTrip (s : State) (k : Nat) (x : SortTable) : (setTable s k x).thermTrip = s.thermTrip := rfl

@[simp] theorem setPort_pending (s : State) (n : Nat) (x : Port) : (setPort s n x).pending = s.pending := rfl
@[simp] theorem setPort_draw (s : State) (n : Nat) (x : Port) : (setPort s n x).draw = s.draw := rfl
@[simp] theorem setPort_outside (s : State) (n : Nat) (x : Port) : (setPort s n x).outside = s.outside := rfl
@[simp] theorem setPort_outbox (s : State) (n : Nat) (x : Port) : (setPort s n x).outbox = s.outbox := rfl
@[simp] theorem setPort_mem (s : State) (n : Nat) (x : Port) : (setPort s n x).mem = s.mem := rfl
@[simp] theorem setPort_regs (s : State) (n : Nat) (x : Port) : (setPort s n x).regs = s.regs := rfl
@[simp] theorem setPort_book (s : State) (n : Nat) (x : Port) : (setPort s n x).book = s.book := rfl
@[simp] theorem setPort_time (s : State) (n : Nat) (x : Port) : (setPort s n x).time = s.time := rfl
@[simp] theorem setPort_drings (s : State) (n : Nat) (x : Port) : (setPort s n x).drings = s.drings := rfl
@[simp] theorem setPort_crings (s : State) (n : Nat) (x : Port) : (setPort s n x).crings = s.crings := rfl
@[simp] theorem setPort_flights (s : State) (n : Nat) (x : Port) : (setPort s n x).flights = s.flights := rfl
@[simp] theorem setPort_nextId (s : State) (n : Nat) (x : Port) : (setPort s n x).nextId = s.nextId := rfl
@[simp] theorem setPort_presses (s : State) (n : Nat) (x : Port) : (setPort s n x).presses = s.presses := rfl
@[simp] theorem setPort_tables (s : State) (n : Nat) (x : Port) : (setPort s n x).tables = s.tables := rfl
@[simp] theorem setPort_vint (s : State) (n : Nat) (x : Port) : (setPort s n x).vint = s.vint := rfl
@[simp] theorem setPort_door (s : State) (n : Nat) (x : Port) : (setPort s n x).door = s.door := rfl
@[simp] theorem setPort_coop (s : State) (n : Nat) (x : Port) : (setPort s n x).coop = s.coop := rfl
@[simp] theorem setPort_mgmt (s : State) (n : Nat) (x : Port) : (setPort s n x).mgmt = s.mgmt := rfl
@[simp] theorem setPort_tally (s : State) (n : Nat) (x : Port) : (setPort s n x).tally = s.tally := rfl
@[simp] theorem setPort_boot (s : State) (n : Nat) (x : Port) : (setPort s n x).boot = s.boot := rfl
@[simp] theorem setPort_jtag (s : State) (n : Nat) (x : Port) : (setPort s n x).jtag = s.jtag := rfl
@[simp] theorem setPort_thermTrip (s : State) (n : Nat) (x : Port) : (setPort s n x).thermTrip = s.thermTrip := rfl

@[simp] theorem setMod_pending (s : State) (n : Nat) (x : Module) : (setMod s n x).pending = s.pending := rfl
@[simp] theorem setMod_draw (s : State) (n : Nat) (x : Module) : (setMod s n x).draw = s.draw := rfl
@[simp] theorem setMod_outside (s : State) (n : Nat) (x : Module) : (setMod s n x).outside = s.outside := rfl
@[simp] theorem setMod_outbox (s : State) (n : Nat) (x : Module) : (setMod s n x).outbox = s.outbox := rfl
@[simp] theorem setMod_mem (s : State) (n : Nat) (x : Module) : (setMod s n x).mem = s.mem := rfl
@[simp] theorem setMod_regs (s : State) (n : Nat) (x : Module) : (setMod s n x).regs = s.regs := rfl
@[simp] theorem setMod_book (s : State) (n : Nat) (x : Module) : (setMod s n x).book = s.book := rfl
@[simp] theorem setMod_time (s : State) (n : Nat) (x : Module) : (setMod s n x).time = s.time := rfl
@[simp] theorem setMod_drings (s : State) (n : Nat) (x : Module) : (setMod s n x).drings = s.drings := rfl
@[simp] theorem setMod_crings (s : State) (n : Nat) (x : Module) : (setMod s n x).crings = s.crings := rfl
@[simp] theorem setMod_flights (s : State) (n : Nat) (x : Module) : (setMod s n x).flights = s.flights := rfl
@[simp] theorem setMod_nextId (s : State) (n : Nat) (x : Module) : (setMod s n x).nextId = s.nextId := rfl
@[simp] theorem setMod_presses (s : State) (n : Nat) (x : Module) : (setMod s n x).presses = s.presses := rfl
@[simp] theorem setMod_tables (s : State) (n : Nat) (x : Module) : (setMod s n x).tables = s.tables := rfl
@[simp] theorem setMod_vint (s : State) (n : Nat) (x : Module) : (setMod s n x).vint = s.vint := rfl
@[simp] theorem setMod_fab (s : State) (n : Nat) (x : Module) : (setMod s n x).fab = s.fab := rfl
@[simp] theorem setMod_coop (s : State) (n : Nat) (x : Module) : (setMod s n x).coop = s.coop := rfl
@[simp] theorem setMod_mgmt (s : State) (n : Nat) (x : Module) : (setMod s n x).mgmt = s.mgmt := rfl
@[simp] theorem setMod_tally (s : State) (n : Nat) (x : Module) : (setMod s n x).tally = s.tally := rfl
@[simp] theorem setMod_boot (s : State) (n : Nat) (x : Module) : (setMod s n x).boot = s.boot := rfl
@[simp] theorem setMod_jtag (s : State) (n : Nat) (x : Module) : (setMod s n x).jtag = s.jtag := rfl
@[simp] theorem setMod_thermTrip (s : State) (n : Nat) (x : Module) : (setMod s n x).thermTrip = s.thermTrip := rfl

@[simp] theorem setDRing_pending (s : State) (r : Nat) (x : DRing) : (setDRing s r x).pending = s.pending := rfl
@[simp] theorem setDRing_draw (s : State) (r : Nat) (x : DRing) : (setDRing s r x).draw = s.draw := rfl
@[simp] theorem setDRing_outside (s : State) (r : Nat) (x : DRing) : (setDRing s r x).outside = s.outside := rfl
@[simp] theorem setDRing_outbox (s : State) (r : Nat) (x : DRing) : (setDRing s r x).outbox = s.outbox := rfl
@[simp] theorem setDRing_mem (s : State) (r : Nat) (x : DRing) : (setDRing s r x).mem = s.mem := rfl
@[simp] theorem setDRing_regs (s : State) (r : Nat) (x : DRing) : (setDRing s r x).regs = s.regs := rfl
@[simp] theorem setDRing_book (s : State) (r : Nat) (x : DRing) : (setDRing s r x).book = s.book := rfl
@[simp] theorem setDRing_time (s : State) (r : Nat) (x : DRing) : (setDRing s r x).time = s.time := rfl
@[simp] theorem setDRing_crings (s : State) (r : Nat) (x : DRing) : (setDRing s r x).crings = s.crings := rfl
@[simp] theorem setDRing_flights (s : State) (r : Nat) (x : DRing) : (setDRing s r x).flights = s.flights := rfl
@[simp] theorem setDRing_nextId (s : State) (r : Nat) (x : DRing) : (setDRing s r x).nextId = s.nextId := rfl
@[simp] theorem setDRing_presses (s : State) (r : Nat) (x : DRing) : (setDRing s r x).presses = s.presses := rfl
@[simp] theorem setDRing_tables (s : State) (r : Nat) (x : DRing) : (setDRing s r x).tables = s.tables := rfl
@[simp] theorem setDRing_vint (s : State) (r : Nat) (x : DRing) : (setDRing s r x).vint = s.vint := rfl
@[simp] theorem setDRing_fab (s : State) (r : Nat) (x : DRing) : (setDRing s r x).fab = s.fab := rfl
@[simp] theorem setDRing_door (s : State) (r : Nat) (x : DRing) : (setDRing s r x).door = s.door := rfl
@[simp] theorem setDRing_coop (s : State) (r : Nat) (x : DRing) : (setDRing s r x).coop = s.coop := rfl
@[simp] theorem setDRing_mgmt (s : State) (r : Nat) (x : DRing) : (setDRing s r x).mgmt = s.mgmt := rfl
@[simp] theorem setDRing_tally (s : State) (r : Nat) (x : DRing) : (setDRing s r x).tally = s.tally := rfl
@[simp] theorem setDRing_boot (s : State) (r : Nat) (x : DRing) : (setDRing s r x).boot = s.boot := rfl
@[simp] theorem setDRing_jtag (s : State) (r : Nat) (x : DRing) : (setDRing s r x).jtag = s.jtag := rfl
@[simp] theorem setDRing_thermTrip (s : State) (r : Nat) (x : DRing) : (setDRing s r x).thermTrip = s.thermTrip := rfl

@[simp] theorem setCRing_pending (s : State) (r : Nat) (x : CRing) : (setCRing s r x).pending = s.pending := rfl
@[simp] theorem setCRing_draw (s : State) (r : Nat) (x : CRing) : (setCRing s r x).draw = s.draw := rfl
@[simp] theorem setCRing_outside (s : State) (r : Nat) (x : CRing) : (setCRing s r x).outside = s.outside := rfl
@[simp] theorem setCRing_outbox (s : State) (r : Nat) (x : CRing) : (setCRing s r x).outbox = s.outbox := rfl
@[simp] theorem setCRing_mem (s : State) (r : Nat) (x : CRing) : (setCRing s r x).mem = s.mem := rfl
@[simp] theorem setCRing_regs (s : State) (r : Nat) (x : CRing) : (setCRing s r x).regs = s.regs := rfl
@[simp] theorem setCRing_book (s : State) (r : Nat) (x : CRing) : (setCRing s r x).book = s.book := rfl
@[simp] theorem setCRing_time (s : State) (r : Nat) (x : CRing) : (setCRing s r x).time = s.time := rfl
@[simp] theorem setCRing_drings (s : State) (r : Nat) (x : CRing) : (setCRing s r x).drings = s.drings := rfl
@[simp] theorem setCRing_flights (s : State) (r : Nat) (x : CRing) : (setCRing s r x).flights = s.flights := rfl
@[simp] theorem setCRing_nextId (s : State) (r : Nat) (x : CRing) : (setCRing s r x).nextId = s.nextId := rfl
@[simp] theorem setCRing_presses (s : State) (r : Nat) (x : CRing) : (setCRing s r x).presses = s.presses := rfl
@[simp] theorem setCRing_tables (s : State) (r : Nat) (x : CRing) : (setCRing s r x).tables = s.tables := rfl
@[simp] theorem setCRing_vint (s : State) (r : Nat) (x : CRing) : (setCRing s r x).vint = s.vint := rfl
@[simp] theorem setCRing_fab (s : State) (r : Nat) (x : CRing) : (setCRing s r x).fab = s.fab := rfl
@[simp] theorem setCRing_door (s : State) (r : Nat) (x : CRing) : (setCRing s r x).door = s.door := rfl
@[simp] theorem setCRing_coop (s : State) (r : Nat) (x : CRing) : (setCRing s r x).coop = s.coop := rfl
@[simp] theorem setCRing_mgmt (s : State) (r : Nat) (x : CRing) : (setCRing s r x).mgmt = s.mgmt := rfl
@[simp] theorem setCRing_tally (s : State) (r : Nat) (x : CRing) : (setCRing s r x).tally = s.tally := rfl
@[simp] theorem setCRing_boot (s : State) (r : Nat) (x : CRing) : (setCRing s r x).boot = s.boot := rfl
@[simp] theorem setCRing_jtag (s : State) (r : Nat) (x : CRing) : (setCRing s r x).jtag = s.jtag := rfl
@[simp] theorem setCRing_thermTrip (s : State) (r : Nat) (x : CRing) : (setCRing s r x).thermTrip = s.thermTrip := rfl

@[simp] theorem setHandle_pending (s : State) (h : Nat) (x : Handle) : (setHandle s h x).pending = s.pending := rfl
@[simp] theorem setHandle_draw (s : State) (h : Nat) (x : Handle) : (setHandle s h x).draw = s.draw := rfl
@[simp] theorem setHandle_outside (s : State) (h : Nat) (x : Handle) : (setHandle s h x).outside = s.outside := rfl
@[simp] theorem setHandle_outbox (s : State) (h : Nat) (x : Handle) : (setHandle s h x).outbox = s.outbox := rfl
@[simp] theorem setHandle_mem (s : State) (h : Nat) (x : Handle) : (setHandle s h x).mem = s.mem := rfl
@[simp] theorem setHandle_regs (s : State) (h : Nat) (x : Handle) : (setHandle s h x).regs = s.regs := rfl
@[simp] theorem setHandle_book (s : State) (h : Nat) (x : Handle) : (setHandle s h x).book = s.book := rfl
@[simp] theorem setHandle_time (s : State) (h : Nat) (x : Handle) : (setHandle s h x).time = s.time := rfl
@[simp] theorem setHandle_drings (s : State) (h : Nat) (x : Handle) : (setHandle s h x).drings = s.drings := rfl
@[simp] theorem setHandle_crings (s : State) (h : Nat) (x : Handle) : (setHandle s h x).crings = s.crings := rfl
@[simp] theorem setHandle_flights (s : State) (h : Nat) (x : Handle) : (setHandle s h x).flights = s.flights := rfl
@[simp] theorem setHandle_nextId (s : State) (h : Nat) (x : Handle) : (setHandle s h x).nextId = s.nextId := rfl
@[simp] theorem setHandle_presses (s : State) (h : Nat) (x : Handle) : (setHandle s h x).presses = s.presses := rfl
@[simp] theorem setHandle_tables (s : State) (h : Nat) (x : Handle) : (setHandle s h x).tables = s.tables := rfl
@[simp] theorem setHandle_fab (s : State) (h : Nat) (x : Handle) : (setHandle s h x).fab = s.fab := rfl
@[simp] theorem setHandle_door (s : State) (h : Nat) (x : Handle) : (setHandle s h x).door = s.door := rfl
@[simp] theorem setHandle_coop (s : State) (h : Nat) (x : Handle) : (setHandle s h x).coop = s.coop := rfl
@[simp] theorem setHandle_mgmt (s : State) (h : Nat) (x : Handle) : (setHandle s h x).mgmt = s.mgmt := rfl
@[simp] theorem setHandle_tally (s : State) (h : Nat) (x : Handle) : (setHandle s h x).tally = s.tally := rfl
@[simp] theorem setHandle_boot (s : State) (h : Nat) (x : Handle) : (setHandle s h x).boot = s.boot := rfl
@[simp] theorem setHandle_jtag (s : State) (h : Nat) (x : Handle) : (setHandle s h x).jtag = s.jtag := rfl
@[simp] theorem setHandle_thermTrip (s : State) (h : Nat) (x : Handle) : (setHandle s h x).thermTrip = s.thermTrip := rfl

@[simp] theorem setFlight_pending (s : State) (f : Flight) : (setFlight s f).pending = s.pending := rfl
@[simp] theorem setFlight_draw (s : State) (f : Flight) : (setFlight s f).draw = s.draw := rfl
@[simp] theorem setFlight_outside (s : State) (f : Flight) : (setFlight s f).outside = s.outside := rfl
@[simp] theorem setFlight_outbox (s : State) (f : Flight) : (setFlight s f).outbox = s.outbox := rfl
@[simp] theorem setFlight_mem (s : State) (f : Flight) : (setFlight s f).mem = s.mem := rfl
@[simp] theorem setFlight_regs (s : State) (f : Flight) : (setFlight s f).regs = s.regs := rfl
@[simp] theorem setFlight_book (s : State) (f : Flight) : (setFlight s f).book = s.book := rfl
@[simp] theorem setFlight_time (s : State) (f : Flight) : (setFlight s f).time = s.time := rfl
@[simp] theorem setFlight_drings (s : State) (f : Flight) : (setFlight s f).drings = s.drings := rfl
@[simp] theorem setFlight_crings (s : State) (f : Flight) : (setFlight s f).crings = s.crings := rfl
@[simp] theorem setFlight_nextId (s : State) (f : Flight) : (setFlight s f).nextId = s.nextId := rfl
@[simp] theorem setFlight_presses (s : State) (f : Flight) : (setFlight s f).presses = s.presses := rfl
@[simp] theorem setFlight_tables (s : State) (f : Flight) : (setFlight s f).tables = s.tables := rfl
@[simp] theorem setFlight_vint (s : State) (f : Flight) : (setFlight s f).vint = s.vint := rfl
@[simp] theorem setFlight_fab (s : State) (f : Flight) : (setFlight s f).fab = s.fab := rfl
@[simp] theorem setFlight_door (s : State) (f : Flight) : (setFlight s f).door = s.door := rfl
@[simp] theorem setFlight_coop (s : State) (f : Flight) : (setFlight s f).coop = s.coop := rfl
@[simp] theorem setFlight_mgmt (s : State) (f : Flight) : (setFlight s f).mgmt = s.mgmt := rfl
@[simp] theorem setFlight_tally (s : State) (f : Flight) : (setFlight s f).tally = s.tally := rfl
@[simp] theorem setFlight_boot (s : State) (f : Flight) : (setFlight s f).boot = s.boot := rfl
@[simp] theorem setFlight_jtag (s : State) (f : Flight) : (setFlight s f).jtag = s.jtag := rfl
@[simp] theorem setFlight_thermTrip (s : State) (f : Flight) : (setFlight s f).thermTrip = s.thermTrip := rfl

@[simp] theorem rsetFld_pending (s : State) (off lo width v : Nat) : (rsetFld s off lo width v).pending = s.pending := rfl
@[simp] theorem rsetFld_draw (s : State) (off lo width v : Nat) : (rsetFld s off lo width v).draw = s.draw := rfl
@[simp] theorem rsetFld_outside (s : State) (off lo width v : Nat) : (rsetFld s off lo width v).outside = s.outside := rfl
@[simp] theorem rsetFld_outbox (s : State) (off lo width v : Nat) : (rsetFld s off lo width v).outbox = s.outbox := rfl
@[simp] theorem rsetFld_mem (s : State) (off lo width v : Nat) : (rsetFld s off lo width v).mem = s.mem := rfl
@[simp] theorem rsetFld_book (s : State) (off lo width v : Nat) : (rsetFld s off lo width v).book = s.book := rfl
@[simp] theorem rsetFld_time (s : State) (off lo width v : Nat) : (rsetFld s off lo width v).time = s.time := rfl
@[simp] theorem rsetFld_drings (s : State) (off lo width v : Nat) : (rsetFld s off lo width v).drings = s.drings := rfl
@[simp] theorem rsetFld_crings (s : State) (off lo width v : Nat) : (rsetFld s off lo width v).crings = s.crings := rfl
@[simp] theorem rsetFld_flights (s : State) (off lo width v : Nat) : (rsetFld s off lo width v).flights = s.flights := rfl
@[simp] theorem rsetFld_nextId (s : State) (off lo width v : Nat) : (rsetFld s off lo width v).nextId = s.nextId := rfl
@[simp] theorem rsetFld_presses (s : State) (off lo width v : Nat) : (rsetFld s off lo width v).presses = s.presses := rfl
@[simp] theorem rsetFld_tables (s : State) (off lo width v : Nat) : (rsetFld s off lo width v).tables = s.tables := rfl
@[simp] theorem rsetFld_vint (s : State) (off lo width v : Nat) : (rsetFld s off lo width v).vint = s.vint := rfl
@[simp] theorem rsetFld_fab (s : State) (off lo width v : Nat) : (rsetFld s off lo width v).fab = s.fab := rfl
@[simp] theorem rsetFld_door (s : State) (off lo width v : Nat) : (rsetFld s off lo width v).door = s.door := rfl
@[simp] theorem rsetFld_coop (s : State) (off lo width v : Nat) : (rsetFld s off lo width v).coop = s.coop := rfl
@[simp] theorem rsetFld_mgmt (s : State) (off lo width v : Nat) : (rsetFld s off lo width v).mgmt = s.mgmt := rfl
@[simp] theorem rsetFld_tally (s : State) (off lo width v : Nat) : (rsetFld s off lo width v).tally = s.tally := rfl
@[simp] theorem rsetFld_boot (s : State) (off lo width v : Nat) : (rsetFld s off lo width v).boot = s.boot := rfl
@[simp] theorem rsetFld_jtag (s : State) (off lo width v : Nat) : (rsetFld s off lo width v).jtag = s.jtag := rfl
@[simp] theorem rsetFld_thermTrip (s : State) (off lo width v : Nat) : (rsetFld s off lo width v).thermTrip = s.thermTrip := rfl

@[simp] theorem rsetBit_pending (s : State) (off i : Nat) (b : Bool) : (rsetBit s off i b).pending = s.pending := rfl
@[simp] theorem rsetBit_draw (s : State) (off i : Nat) (b : Bool) : (rsetBit s off i b).draw = s.draw := rfl
@[simp] theorem rsetBit_outside (s : State) (off i : Nat) (b : Bool) : (rsetBit s off i b).outside = s.outside := rfl
@[simp] theorem rsetBit_outbox (s : State) (off i : Nat) (b : Bool) : (rsetBit s off i b).outbox = s.outbox := rfl
@[simp] theorem rsetBit_mem (s : State) (off i : Nat) (b : Bool) : (rsetBit s off i b).mem = s.mem := rfl
@[simp] theorem rsetBit_book (s : State) (off i : Nat) (b : Bool) : (rsetBit s off i b).book = s.book := rfl
@[simp] theorem rsetBit_time (s : State) (off i : Nat) (b : Bool) : (rsetBit s off i b).time = s.time := rfl
@[simp] theorem rsetBit_drings (s : State) (off i : Nat) (b : Bool) : (rsetBit s off i b).drings = s.drings := rfl
@[simp] theorem rsetBit_crings (s : State) (off i : Nat) (b : Bool) : (rsetBit s off i b).crings = s.crings := rfl
@[simp] theorem rsetBit_flights (s : State) (off i : Nat) (b : Bool) : (rsetBit s off i b).flights = s.flights := rfl
@[simp] theorem rsetBit_nextId (s : State) (off i : Nat) (b : Bool) : (rsetBit s off i b).nextId = s.nextId := rfl
@[simp] theorem rsetBit_presses (s : State) (off i : Nat) (b : Bool) : (rsetBit s off i b).presses = s.presses := rfl
@[simp] theorem rsetBit_tables (s : State) (off i : Nat) (b : Bool) : (rsetBit s off i b).tables = s.tables := rfl
@[simp] theorem rsetBit_vint (s : State) (off i : Nat) (b : Bool) : (rsetBit s off i b).vint = s.vint := rfl
@[simp] theorem rsetBit_fab (s : State) (off i : Nat) (b : Bool) : (rsetBit s off i b).fab = s.fab := rfl
@[simp] theorem rsetBit_door (s : State) (off i : Nat) (b : Bool) : (rsetBit s off i b).door = s.door := rfl
@[simp] theorem rsetBit_coop (s : State) (off i : Nat) (b : Bool) : (rsetBit s off i b).coop = s.coop := rfl
@[simp] theorem rsetBit_mgmt (s : State) (off i : Nat) (b : Bool) : (rsetBit s off i b).mgmt = s.mgmt := rfl
@[simp] theorem rsetBit_tally (s : State) (off i : Nat) (b : Bool) : (rsetBit s off i b).tally = s.tally := rfl
@[simp] theorem rsetBit_boot (s : State) (off i : Nat) (b : Bool) : (rsetBit s off i b).boot = s.boot := rfl
@[simp] theorem rsetBit_jtag (s : State) (off i : Nat) (b : Bool) : (rsetBit s off i b).jtag = s.jtag := rfl
@[simp] theorem rsetBit_thermTrip (s : State) (off i : Nat) (b : Bool) : (rsetBit s off i b).thermTrip = s.thermTrip := rfl

@[simp] theorem bump_pending (s : State) (off n : Nat) : (bump s off n).pending = s.pending := rfl
@[simp] theorem bump_draw (s : State) (off n : Nat) : (bump s off n).draw = s.draw := rfl
@[simp] theorem bump_outside (s : State) (off n : Nat) : (bump s off n).outside = s.outside := rfl
@[simp] theorem bump_outbox (s : State) (off n : Nat) : (bump s off n).outbox = s.outbox := rfl
@[simp] theorem bump_mem (s : State) (off n : Nat) : (bump s off n).mem = s.mem := rfl
@[simp] theorem bump_book (s : State) (off n : Nat) : (bump s off n).book = s.book := rfl
@[simp] theorem bump_time (s : State) (off n : Nat) : (bump s off n).time = s.time := rfl
@[simp] theorem bump_drings (s : State) (off n : Nat) : (bump s off n).drings = s.drings := rfl
@[simp] theorem bump_crings (s : State) (off n : Nat) : (bump s off n).crings = s.crings := rfl
@[simp] theorem bump_flights (s : State) (off n : Nat) : (bump s off n).flights = s.flights := rfl
@[simp] theorem bump_nextId (s : State) (off n : Nat) : (bump s off n).nextId = s.nextId := rfl
@[simp] theorem bump_presses (s : State) (off n : Nat) : (bump s off n).presses = s.presses := rfl
@[simp] theorem bump_tables (s : State) (off n : Nat) : (bump s off n).tables = s.tables := rfl
@[simp] theorem bump_vint (s : State) (off n : Nat) : (bump s off n).vint = s.vint := rfl
@[simp] theorem bump_fab (s : State) (off n : Nat) : (bump s off n).fab = s.fab := rfl
@[simp] theorem bump_door (s : State) (off n : Nat) : (bump s off n).door = s.door := rfl
@[simp] theorem bump_coop (s : State) (off n : Nat) : (bump s off n).coop = s.coop := rfl
@[simp] theorem bump_mgmt (s : State) (off n : Nat) : (bump s off n).mgmt = s.mgmt := rfl
@[simp] theorem bump_tally (s : State) (off n : Nat) : (bump s off n).tally = s.tally := rfl
@[simp] theorem bump_boot (s : State) (off n : Nat) : (bump s off n).boot = s.boot := rfl
@[simp] theorem bump_jtag (s : State) (off n : Nat) : (bump s off n).jtag = s.jtag := rfl
@[simp] theorem bump_thermTrip (s : State) (off n : Nat) : (bump s off n).thermTrip = s.thermTrip := rfl

@[simp] theorem bumpFld_pending (s : State) (off lo width n : Nat) : (bumpFld s off lo width n).pending = s.pending := rfl
@[simp] theorem bumpFld_draw (s : State) (off lo width n : Nat) : (bumpFld s off lo width n).draw = s.draw := rfl
@[simp] theorem bumpFld_outside (s : State) (off lo width n : Nat) : (bumpFld s off lo width n).outside = s.outside := rfl
@[simp] theorem bumpFld_outbox (s : State) (off lo width n : Nat) : (bumpFld s off lo width n).outbox = s.outbox := rfl
@[simp] theorem bumpFld_mem (s : State) (off lo width n : Nat) : (bumpFld s off lo width n).mem = s.mem := rfl
@[simp] theorem bumpFld_book (s : State) (off lo width n : Nat) : (bumpFld s off lo width n).book = s.book := rfl
@[simp] theorem bumpFld_time (s : State) (off lo width n : Nat) : (bumpFld s off lo width n).time = s.time := rfl
@[simp] theorem bumpFld_drings (s : State) (off lo width n : Nat) : (bumpFld s off lo width n).drings = s.drings := rfl
@[simp] theorem bumpFld_crings (s : State) (off lo width n : Nat) : (bumpFld s off lo width n).crings = s.crings := rfl
@[simp] theorem bumpFld_flights (s : State) (off lo width n : Nat) : (bumpFld s off lo width n).flights = s.flights := rfl
@[simp] theorem bumpFld_nextId (s : State) (off lo width n : Nat) : (bumpFld s off lo width n).nextId = s.nextId := rfl
@[simp] theorem bumpFld_presses (s : State) (off lo width n : Nat) : (bumpFld s off lo width n).presses = s.presses := rfl
@[simp] theorem bumpFld_tables (s : State) (off lo width n : Nat) : (bumpFld s off lo width n).tables = s.tables := rfl
@[simp] theorem bumpFld_vint (s : State) (off lo width n : Nat) : (bumpFld s off lo width n).vint = s.vint := rfl
@[simp] theorem bumpFld_fab (s : State) (off lo width n : Nat) : (bumpFld s off lo width n).fab = s.fab := rfl
@[simp] theorem bumpFld_door (s : State) (off lo width n : Nat) : (bumpFld s off lo width n).door = s.door := rfl
@[simp] theorem bumpFld_coop (s : State) (off lo width n : Nat) : (bumpFld s off lo width n).coop = s.coop := rfl
@[simp] theorem bumpFld_mgmt (s : State) (off lo width n : Nat) : (bumpFld s off lo width n).mgmt = s.mgmt := rfl
@[simp] theorem bumpFld_tally (s : State) (off lo width n : Nat) : (bumpFld s off lo width n).tally = s.tally := rfl
@[simp] theorem bumpFld_boot (s : State) (off lo width n : Nat) : (bumpFld s off lo width n).boot = s.boot := rfl
@[simp] theorem bumpFld_jtag (s : State) (off lo width n : Nat) : (bumpFld s off lo width n).jtag = s.jtag := rfl
@[simp] theorem bumpFld_thermTrip (s : State) (off lo width n : Nat) : (bumpFld s off lo width n).thermTrip = s.thermTrip := rfl

/-! ### Events -/

@[simp] theorem emit_pending (s : State) (e : Event) : (emit s e).pending = s.pending := by
  unfold emit; dsimp only; split <;> rfl
@[simp] theorem emit_draw (s : State) (e : Event) : (emit s e).draw = s.draw := by
  unfold emit; dsimp only; split <;> rfl
@[simp] theorem emit_outside (s : State) (e : Event) : (emit s e).outside = s.outside := by
  unfold emit; dsimp only; split <;> rfl
@[simp] theorem emit_outbox (s : State) (e : Event) : (emit s e).outbox = s.outbox := by
  unfold emit; dsimp only; split <;> rfl
@[simp] theorem emit_mem (s : State) (e : Event) : (emit s e).mem = s.mem := by
  unfold emit; dsimp only; split <;> rfl
@[simp] theorem emit_time (s : State) (e : Event) : (emit s e).time = s.time := by
  unfold emit; dsimp only; split <;> rfl
@[simp] theorem emit_drings (s : State) (e : Event) : (emit s e).drings = s.drings := by
  unfold emit; dsimp only; split <;> rfl
@[simp] theorem emit_crings (s : State) (e : Event) : (emit s e).crings = s.crings := by
  unfold emit; dsimp only; split <;> rfl
@[simp] theorem emit_flights (s : State) (e : Event) : (emit s e).flights = s.flights := by
  unfold emit; dsimp only; split <;> rfl
@[simp] theorem emit_nextId (s : State) (e : Event) : (emit s e).nextId = s.nextId := by
  unfold emit; dsimp only; split <;> rfl
@[simp] theorem emit_presses (s : State) (e : Event) : (emit s e).presses = s.presses := by
  unfold emit; dsimp only; split <;> rfl
@[simp] theorem emit_tables (s : State) (e : Event) : (emit s e).tables = s.tables := by
  unfold emit; dsimp only; split <;> rfl
@[simp] theorem emit_vint (s : State) (e : Event) : (emit s e).vint = s.vint := by
  unfold emit; dsimp only; split <;> rfl
@[simp] theorem emit_fab (s : State) (e : Event) : (emit s e).fab = s.fab := by
  unfold emit; dsimp only; split <;> rfl
@[simp] theorem emit_door (s : State) (e : Event) : (emit s e).door = s.door := by
  unfold emit; dsimp only; split <;> rfl
@[simp] theorem emit_coop (s : State) (e : Event) : (emit s e).coop = s.coop := by
  unfold emit; dsimp only; split <;> rfl
@[simp] theorem emit_mgmt (s : State) (e : Event) : (emit s e).mgmt = s.mgmt := by
  unfold emit; dsimp only; split <;> rfl
@[simp] theorem emit_tally (s : State) (e : Event) : (emit s e).tally = s.tally := by
  unfold emit; dsimp only; split <;> rfl
@[simp] theorem emit_boot (s : State) (e : Event) : (emit s e).boot = s.boot := by
  unfold emit; dsimp only; split <;> rfl
@[simp] theorem emit_jtag (s : State) (e : Event) : (emit s e).jtag = s.jtag := by
  unfold emit; dsimp only; split <;> rfl
@[simp] theorem emit_thermTrip (s : State) (e : Event) : (emit s e).thermTrip = s.thermTrip := by
  unfold emit; dsimp only; split <;> rfl
@[simp] theorem emitFault_pending (s : State) (e : Event) : (emitFault s e).pending = s.pending := by
  unfold emitFault; rw [emit_pending]; rfl
@[simp] theorem emitFault_draw (s : State) (e : Event) : (emitFault s e).draw = s.draw := by
  unfold emitFault; rw [emit_draw]; rfl
@[simp] theorem emitFault_outside (s : State) (e : Event) : (emitFault s e).outside = s.outside := by
  unfold emitFault; rw [emit_outside]; rfl
@[simp] theorem emitFault_outbox (s : State) (e : Event) : (emitFault s e).outbox = s.outbox := by
  unfold emitFault; rw [emit_outbox]; rfl
@[simp] theorem emitFault_mem (s : State) (e : Event) : (emitFault s e).mem = s.mem := by
  unfold emitFault; rw [emit_mem]; rfl
@[simp] theorem emitFault_time (s : State) (e : Event) : (emitFault s e).time = s.time := by
  unfold emitFault; rw [emit_time]; rfl
@[simp] theorem emitFault_drings (s : State) (e : Event) : (emitFault s e).drings = s.drings := by
  unfold emitFault; rw [emit_drings]; rfl
@[simp] theorem emitFault_crings (s : State) (e : Event) : (emitFault s e).crings = s.crings := by
  unfold emitFault; rw [emit_crings]; rfl
@[simp] theorem emitFault_flights (s : State) (e : Event) : (emitFault s e).flights = s.flights := by
  unfold emitFault; rw [emit_flights]; rfl
@[simp] theorem emitFault_nextId (s : State) (e : Event) : (emitFault s e).nextId = s.nextId := by
  unfold emitFault; rw [emit_nextId]; rfl
@[simp] theorem emitFault_presses (s : State) (e : Event) : (emitFault s e).presses = s.presses := by
  unfold emitFault; rw [emit_presses]; rfl
@[simp] theorem emitFault_tables (s : State) (e : Event) : (emitFault s e).tables = s.tables := by
  unfold emitFault; rw [emit_tables]; rfl
@[simp] theorem emitFault_vint (s : State) (e : Event) : (emitFault s e).vint = s.vint := by
  unfold emitFault; rw [emit_vint]; rfl
@[simp] theorem emitFault_fab (s : State) (e : Event) : (emitFault s e).fab = s.fab := by
  unfold emitFault; rw [emit_fab]; rfl
@[simp] theorem emitFault_door (s : State) (e : Event) : (emitFault s e).door = s.door := by
  unfold emitFault; rw [emit_door]; rfl
@[simp] theorem emitFault_coop (s : State) (e : Event) : (emitFault s e).coop = s.coop := by
  unfold emitFault; rw [emit_coop]; rfl
@[simp] theorem emitFault_mgmt (s : State) (e : Event) : (emitFault s e).mgmt = s.mgmt := by
  unfold emitFault; rw [emit_mgmt]; rfl
@[simp] theorem emitFault_tally (s : State) (e : Event) : (emitFault s e).tally = s.tally := by
  unfold emitFault; rw [emit_tally]; rfl
@[simp] theorem emitFault_boot (s : State) (e : Event) : (emitFault s e).boot = s.boot := by
  unfold emitFault; rw [emit_boot]; rfl
@[simp] theorem emitFault_jtag (s : State) (e : Event) : (emitFault s e).jtag = s.jtag := by
  unfold emitFault; rw [emit_jtag]; rfl
@[simp] theorem emitFault_thermTrip (s : State) (e : Event) : (emitFault s e).thermTrip = s.thermTrip := by
  unfold emitFault; rw [emit_thermTrip]; rfl

end Sys2Proof.Machine
end

