-- ==== Sys2Proof/Laws/Bits.lean ====
section
/-!
SUPPORT. Laws/Bits.lean: fields and bits of a word, and of a held register, after a field or a bit of it has been set.
-/
namespace Sys2Proof.Machine

theorem testBit_fld (w : Word) (lo n i : Nat) : (fld w lo n).testBit i = (decide (i < n) && w.getLsbD (lo + i)) := by
  unfold fld
  rw [Nat.testBit_mod_two_pow, Nat.testBit_div_two_pow, BitVec.getLsbD, Nat.add_comm]

theorem getLsbD_setFld (w : Word) (lo n v i : Nat) :
    (setFld w lo n v).getLsbD i =
      (decide (i < 32) && if lo ≤ i ∧ i < lo + n then v.testBit (i - lo) else w.getLsbD i) := by
  by_cases hi : i < 32
  · have e : (2 ^ n - 1) * 2 ^ lo = (2 ^ n - 1) <<< lo := (Nat.shiftLeft_eq _ _).symm
    have f : v % 2 ^ n * 2 ^ lo = (v % 2 ^ n) <<< lo := (Nat.shiftLeft_eq _ _).symm
    simp only [setFld, e, f, BitVec.getLsbD_or, BitVec.getLsbD_and, BitVec.getLsbD_not, BitVec.getLsbD_ofNat, hi,
      Nat.testBit_shiftLeft, Nat.testBit_two_pow_sub_one, Nat.testBit_mod_two_pow, decide_true, Bool.true_and]
    by_cases h1 : lo ≤ i
    · by_cases h2 : i < lo + n
      · have : i - lo < n := by omega
        simp [h1, h2, this]
      · have : ¬ i - lo < n := by omega
        simp [h1, h2, this]
    · simp [h1]
  · simp [BitVec.getLsbD_of_ge _ _ (Nat.le_of_not_lt hi), hi]

theorem fld_setFld_self (w : Word) {lo n : Nat} (h : lo + n ≤ 32) (v : Nat) : fld (setFld w lo n v) lo n = v % 2 ^ n := by
  apply Nat.eq_of_testBit_eq
  intro i
  rw [testBit_fld, getLsbD_setFld, Nat.testBit_mod_two_pow]
  by_cases hi : i < n
  · have h1 : lo + i < 32 := by omega
    have h2 : lo + i < lo + n := by omega
    simp [hi, h1]
  · simp [hi]

theorem fld_setFld_ne (w : Word) {lo n lo' n' : Nat} (h : lo' + n' ≤ lo ∨ lo + n ≤ lo') (v : Nat) :
    fld (setFld w lo n v) lo' n' = fld w lo' n' := by
  apply Nat.eq_of_testBit_eq
  intro i
  rw [testBit_fld, testBit_fld, getLsbD_setFld]
  by_cases hi : i < n'
  · by_cases hj : lo' + i < 32
    · have : ¬ (lo ≤ lo' + i ∧ lo' + i < lo + n) := by omega
      simp only [hi, hj, this, decide_true, Bool.true_and, if_false]
    · simp [hj, BitVec.getLsbD_of_ge _ _ (Nat.le_of_not_lt hj)]
  · simp [hi]

theorem bitAt_setFld_ne (w : Word) {lo n i : Nat} (h : i < lo ∨ lo + n ≤ i) (v : Nat) :
    bitAt (setFld w lo n v) i = bitAt w i := by
  unfold bitAt
  rw [getLsbD_setFld]
  by_cases hi : i < 32
  · have : ¬ (lo ≤ i ∧ i < lo + n) := by omega
    simp only [hi, this, decide_true, Bool.true_and, if_false]
  · simp [hi, BitVec.getLsbD_of_ge _ _ (Nat.le_of_not_lt hi)]

theorem bitAt_setBit_self (w : Word) {i : Nat} (h : i < 32) (b : Bool) : bitAt (setBit w i b) i = b := by
  unfold bitAt setBit
  rw [getLsbD_setFld]
  cases b <;> simp [h]

theorem bitAt_setBit_ne (w : Word) {i j : Nat} (h : j ≠ i) (b : Bool) : bitAt (setBit w i b) j = bitAt w j :=
  bitAt_setFld_ne w (by omega) _

theorem fld_setBit_ne (w : Word) {i lo n : Nat} (h : lo + n ≤ i ∨ i < lo) (b : Bool) : fld (setBit w i b) lo n = fld w lo n :=
  fld_setFld_ne w (by omega) _

/-! ### Held registers -/

@[simp] theorem rget_rsetFld_self (s : State) (off lo n v : Nat) : rget (rsetFld s off lo n v) off = setFld (rget s off) lo n v :=
  rget_rset_self _ _ _
theorem rget_rsetFld_ne (s : State) {off o : Nat} (h : o ≠ off) (lo n v : Nat) : rget (rsetFld s off lo n v) o = rget s o :=
  rget_rset_ne s h _
@[simp] theorem rget_rsetBit_self (s : State) (off i : Nat) (b : Bool) : rget (rsetBit s off i b) off = setBit (rget s off) i b :=
  rget_rset_self _ _ _
theorem rget_rsetBit_ne (s : State) {off o : Nat} (h : o ≠ off) (i : Nat) (b : Bool) : rget (rsetBit s off i b) o = rget s o :=
  rget_rset_ne s h _
@[simp] theorem rget_bump_self (s : State) (off n : Nat) :
    rget (bump s off n) off = BitVec.ofNat 32 (min 0xFFFFFFFF ((rget s off).toNat + n)) :=
  rget_rset_self _ _ _
theorem rget_bump_ne (s : State) {off o : Nat} (h : o ≠ off) (n : Nat) : rget (bump s off n) o = rget s o :=
  rget_rset_ne s h _

theorem rget_emit (s : State) (e : Event) {o : Nat} (h : o ≠ 0xF044) : rget (emit s e) o = rget s o := by
  unfold emit
  dsimp only
  split
  · rfl
  · rw [rget_bump_ne _ h]
    rfl

theorem rget_emitFault (s : State) (e : Event) {o : Nat} (h : o ≠ 0xF044) (h' : o ≠ 0xD000) :
    rget (emitFault s e) o = rget s o := by
  unfold emitFault
  rw [rget_emit _ _ h, rget_rsetBit_ne _ h']

end Sys2Proof.Machine
end

