-- ==== Sys2Proof/Laws/Keep.lean ====
section
/-!
SUPPORT. Laws/Keep.lean: what every operation of the block keeps, and how that composes.
-/
namespace Sys2Proof.Machine
open Sys2Proof.Safety

/-! ### The tally counts what it has accepted -/

theorem countRecord_attempts (t : Tally) (r : TapRec) (n : Nat) :
    countRecord { t with writeAttempts := n } r = { countRecord t r with writeAttempts := n } := by
  unfold countRecord
  split
  · rfl
  · split <;> rfl

theorem takeRecords_attempts (k : Nat) : ∀ (t : Tally) (n : Nat),
    takeRecords { t with writeAttempts := n } k = { takeRecords t k with writeAttempts := n } := by
  induction k with
  | zero => intro t n; rfl
  | succ k ih =>
    intro t n
    cases hf : t.fifo with
    | nil => simp only [takeRecords, hf]
    | cons r rest =>
      simp only [takeRecords, hf]
      rw [countRecord_attempts { t with fifo := rest } r n]
      exact ih _ n

theorem countRecord_fifo (t : Tally) (r : TapRec) : (countRecord t r).fifo = t.fifo := by
  unfold countRecord
  split
  · rfl
  · split <;> rfl

theorem takeRecords_all (k : Nat) : ∀ t : Tally, drainFifo (takeRecords t k) = drainFifo t := by
  induction k with
  | zero => intro t; rfl
  | succ k ih =>
    intro t
    cases hf : t.fifo with
    | nil => simp only [takeRecords, hf]
    | cons r rest =>
      simp only [takeRecords, hf]
      rw [ih]
      simp only [drainFifo, hf, List.length_cons, takeRecords, countRecord_fifo]

/-- Taking records from the FIFO leaves the settled tally. -/
theorem settled_takeRecords (t : Tally) (k : Nat) : settledTally (takeRecords t k) = settledTally t := by
  unfold settledTally
  rw [takeRecords_all]

/-- So does counting an attempt to write. -/
theorem settled_attempts (t : Tally) (n : Nat) : settledTally { t with writeAttempts := n } = settledTally t := by
  unfold settledTally drainFifo
  rw [takeRecords_attempts]

/-- `t` has the queue, the test access port, the thermal latch and, but for its count of write attempts, the settled tally of
`s`, and a canonical memory if `s` has one. -/
structure Keep (s t : State) : Prop where
  pending : t.pending = s.pending
  jtag : t.jtag = s.jtag
  therm : t.thermTrip = s.thermTrip
  tally : settledTally t.tally = settledTally s.tally
  mem : Memory.wf s.mem = true → Memory.wf t.mem = true

theorem Keep.refl {s : State} : Keep s s := ⟨rfl, rfl, rfl, rfl, id⟩

theorem Keep.trans {s t u : State} (h : Keep s t) (k : Keep t u) : Keep s u :=
  ⟨k.pending.trans h.pending, k.jtag.trans h.jtag, k.therm.trans h.therm, k.tally.trans h.tally, fun w => k.mem (h.mem w)⟩

theorem Keep.mk1 {s t : State} {draw outside outbox regs book time drings crings flights nextId presses tables vint fab door coop mgmt boot} (h : Keep s t) :
    Keep s (State.mk t.pending draw outside outbox t.mem regs book time drings crings flights nextId presses tables vint fab door coop mgmt t.tally boot t.jtag t.thermTrip) :=
  ⟨h.pending, h.jtag, h.therm, h.tally, h.mem⟩

theorem Keep.mk_iff {s t : State} {draw outside outbox regs book time drings crings flights nextId presses tables vint fab door coop mgmt boot} :
    Keep s (State.mk t.pending draw outside outbox t.mem regs book time drings crings flights nextId presses tables vint fab door coop mgmt t.tally boot t.jtag t.thermTrip) ↔ Keep s t :=
  ⟨fun h => ⟨h.pending, h.jtag, h.therm, h.tally, h.mem⟩, fun h => ⟨h.pending, h.jtag, h.therm, h.tally, h.mem⟩⟩

theorem Keep.mkMem {s t : State} {m draw outside outbox regs book time drings crings flights nextId presses tables vint fab door coop mgmt boot} (h : Keep s t)
    (hm : Memory.wf t.mem = true → Memory.wf m = true) :
    Keep s (State.mk t.pending draw outside outbox m regs book time drings crings flights nextId presses tables vint fab door coop mgmt t.tally boot t.jtag t.thermTrip) :=
  ⟨h.pending, h.jtag, h.therm, h.tally, fun w => hm (h.mem w)⟩

theorem Keep.ite {s a b : State} {c : Prop} [Decidable c] (ha : Keep s a) (hb : Keep s b) :
    Keep s (if c then a else b) := by
  split
  · exact ha
  · exact hb

theorem Keep.iteFst {α : Type} {s : State} {a b : State × α} {c : Prop} [Decidable c] (ha : Keep s a.1)
    (hb : Keep s b.1) : Keep s (if c then a else b).1 := by
  split
  · exact ha
  · exact hb

theorem Keep.foldl {α : Type} {s : State} {f : State → α → State} (hf : ∀ a x, Keep a (f a x)) (l : List α)
    {a : State} (h : Keep s a) : Keep s (l.foldl f a) := by
  induction l generalizing a with
  | nil => exact h
  | cons x r ih => exact ih (h.trans (hf a x))

theorem Keep.foldlFst {α β : Type} {s : State} {f : State × β → α → State × β}
    (hf : ∀ a x, Keep a.1 (f a x).1) (l : List α) {a : State × β} (h : Keep s a.1) :
    Keep s (l.foldl f a).1 := by
  induction l generalizing a with
  | nil => exact h
  | cons x r ih => exact ih (h.trans (hf a x))

/-- The same of an outcome. -/
def KeepOut (s : State) (o : Res) : Prop := ∀ t, o = .next t → Keep s t

theorem KeepOut.next {s t : State} (h : Keep s t) : KeepOut s (.next t) := by
  intro u hu
  cases hu
  exact h


/-! ### The canonical form of the cells -/

theorem cellsWf_mono {lo lo' : Nat} (h : lo' ≤ lo) {c : List Host.Cell} (w : cellsWf lo c = true) :
    cellsWf lo' c = true := by
  cases c with
  | nil => rfl
  | cons x r =>
    simp only [cellsWf, Bool.and_eq_true, decide_eq_true_eq] at w ⊢
    exact ⟨⟨by omega, w.1.2⟩, w.2⟩

theorem cellPut_wf {c : List Host.Cell} {lo k : Nat} (b : Byte) (h : lo ≤ k) (w : cellsWf lo c = true) :
    cellsWf lo (cellPut c k b) = true := by
  induction c generalizing lo with
  | nil =>
    unfold cellPut
    split
    · rfl
    · simp_all [cellsWf]
  | cons x r ih =>
    obtain ⟨k', b'⟩ := x
    simp only [cellsWf, Bool.and_eq_true, decide_eq_true_eq] at w
    unfold cellPut
    split
    · split
      · simp only [cellsWf, Bool.and_eq_true, decide_eq_true_eq]
        exact w
      · simp only [cellsWf, Bool.and_eq_true, decide_eq_true_eq]
        exact ⟨⟨h, ‹_›⟩, ⟨⟨by omega, w.1.2⟩, w.2⟩⟩
    · split
      · split
        · exact cellsWf_mono (by omega) w.2
        · simp only [cellsWf, Bool.and_eq_true, decide_eq_true_eq]
          exact ⟨⟨h, ‹_›⟩, cellsWf_mono (by omega) w.2⟩
      · simp only [cellsWf, Bool.and_eq_true, decide_eq_true_eq]
        exact ⟨w.1, ih (by omega) w.2⟩

theorem cellsFilter_wf {c : List Host.Cell} {lo : Nat} (f : Host.Cell → Bool) (w : cellsWf lo c = true) :
    cellsWf lo (c.filter f) = true := by
  induction c generalizing lo with
  | nil => rfl
  | cons x r ih =>
    simp only [cellsWf, Bool.and_eq_true, decide_eq_true_eq] at w
    have := ih w.2
    rw [List.filter_cons]
    split
    · simp only [cellsWf, Bool.and_eq_true, decide_eq_true_eq]
      exact ⟨w.1, this⟩
    · exact cellsWf_mono (by omega) this

theorem cellsMoved_wf (g : Host.Cell → Nat) (l : List Host.Cell) (c : List Host.Cell)
    (w : cellsWf 0 c = true) :
    cellsWf 0 (l.foldl (fun c x => cellPut c (g x) x.2) c) = true := by
  induction l generalizing c with
  | nil => exact w
  | cons x r ih => exact ih _ (cellPut_wf x.2 (Nat.zero_le _) w)

/-- What an operation on a memory keeps: the canonical form. -/
def MemKeep (m n : Mem) : Prop := Memory.wf m = true → Memory.wf n = true

theorem MemKeep.refl {m : Mem} : MemKeep m m := id
theorem MemKeep.trans {a b c : Mem} (h : MemKeep a b) (k : MemKeep b c) : MemKeep a c := fun w => k (h w)

theorem MemKeep.ite {s a b : Mem} {c : Prop} [Decidable c] (ha : MemKeep s a) (hb : MemKeep s b) :
    MemKeep s (if c then a else b) := by
  split
  · exact ha
  · exact hb

theorem MemKeep.cells {s m : Mem} (h : m.cells = s.cells) : MemKeep s m := by
  intro w
  unfold Memory.wf at w ⊢
  rw [h]
  exact w

theorem MemKeep.foldl {α : Type} {s : Mem} {f : Mem → α → Mem} (hf : ∀ a x, MemKeep a (f a x)) (l : List α)
    {a : Mem} (h : MemKeep s a) : MemKeep s (l.foldl f a) := by
  induction l generalizing a with
  | nil => exact h
  | cons x r ih => exact ih (h.trans (hf a x))

theorem MemKeep.foldlFst {α β : Type} {s : Mem} {f : Mem × β → α → Mem × β}
    (hf : ∀ a x, MemKeep a.1 (f a x).1) (l : List α) {a : Mem × β} (h : MemKeep s a.1) :
    MemKeep s (l.foldl f a).1 := by
  induction l generalizing a with
  | nil => exact h
  | cons x r ih => exact ih (h.trans (hf a x))

theorem memPutByte_keep (m : Mem) (k : Nat) (b : Byte) : MemKeep m (memPutByte m k b) :=
  fun w => cellPut_wf b (Nat.zero_le k) w

theorem memPutAll_keep (m : Mem) (l : List (Nat × Byte)) : MemKeep m (memPutAll m l) :=
  MemKeep.foldl (fun a x => memPutByte_keep a x.1 x.2) l MemKeep.refl

theorem memFresh_keep (m : Mem) (w : Nat) : MemKeep m (memFresh m w) := MemKeep.cells rfl

theorem storeWord_keep (m : Mem) (w : Nat) (bs : List (Nat × Byte)) : MemKeep m (storeWord m w bs).1 := by
  unfold storeWord
  split
  · exact (memPutAll_keep m bs).trans (memFresh_keep _ w)
  · exact MemKeep.refl

theorem storeBytes_keep (m : Mem) (bs : List (Nat × Byte)) : MemKeep m (storeBytes m bs).1 := by
  unfold storeBytes
  refine MemKeep.foldlFst (fun a w => ?_) _ MemKeep.refl
  dsimp only
  split <;> exact storeWord_keep _ _ _

theorem sbPut_keep (m : Mem) (blk : Nat) (v : Word × Word) : MemKeep m (sbPut m blk v) := by
  unfold sbPut
  split
  · exact MemKeep.refl
  · exact MemKeep.cells rfl

theorem sbWrite_keep (m : Mem) (blk : Nat) (whole : Bool) (v : Word × Word) : MemKeep m (sbWrite m blk whole v) := by
  unfold sbWrite
  split
  · exact sbPut_keep m blk v
  · exact MemKeep.refl

theorem keep_setMem {s t : State} {m : Mem} (h : Keep s t) (hm : MemKeep t.mem m) : Keep s (setMem t m) :=
  Keep.mkMem h hm

end Sys2Proof.Machine
end

