-- ==== Sys2Proof/Laws/KeepOps.lean ====
section
/-!
SUPPORT. Laws/KeepOps.lean: every operation of the shared operations, vintages, links and fabric time keeps the queue, the test access
port, the thermal latch, the settled tally and the canonical form of the memory.
-/
namespace Sys2Proof.Machine
open Sys2Proof.Safety

/-! ### Ops -/

theorem keep_rset {s₀ s : State} (hk : Keep s₀ s) (off v) :
    Keep s₀ (rset s off v) := by
  refine hk.trans ?_
  clear hk
  unfold rset
  dsimp only
  repeat' first
    | with_reducible apply Keep.refl
    | simp only [Keep.mk_iff]

theorem keep_rsetFld {s₀ s : State} (hk : Keep s₀ s) (off lo width v) :
    Keep s₀ (rsetFld s off lo width v) := by
  refine hk.trans ?_
  clear hk
  unfold rsetFld
  repeat' first
    | with_reducible apply Keep.refl
    | with_reducible apply keep_rset

theorem keep_rsetBit {s₀ s : State} (hk : Keep s₀ s) (off i b) :
    Keep s₀ (rsetBit s off i b) := by
  refine hk.trans ?_
  clear hk
  unfold rsetBit
  repeat' first
    | with_reducible apply Keep.refl
    | with_reducible apply keep_rset

theorem keep_bumpFld {s₀ s : State} (hk : Keep s₀ s) (off lo width n) :
    Keep s₀ (bumpFld s off lo width n) := by
  refine hk.trans ?_
  clear hk
  unfold bumpFld
  repeat' first
    | with_reducible apply Keep.refl
    | with_reducible apply keep_rsetFld

theorem keep_bump {s₀ s : State} (hk : Keep s₀ s) (off n) :
    Keep s₀ (bump s off n) := by
  refine hk.trans ?_
  clear hk
  unfold bump
  repeat' first
    | with_reducible apply Keep.refl
    | with_reducible apply keep_rset

theorem keep_setPress {s₀ s : State} (hk : Keep s₀ s) (p x) :
    Keep s₀ (setPress s p x) := by
  refine hk.trans ?_
  clear hk
  unfold setPress
  repeat' first
    | with_reducible apply Keep.refl
    | simp only [Keep.mk_iff]

theorem keep_setTable {s₀ s : State} (hk : Keep s₀ s) (k x) :
    Keep s₀ (setTable s k x) := by
  refine hk.trans ?_
  clear hk
  unfold setTable
  repeat' first
    | with_reducible apply Keep.refl
    | simp only [Keep.mk_iff]

theorem keep_setPort {s₀ s : State} (hk : Keep s₀ s) (n x) :
    Keep s₀ (setPort s n x) := by
  refine hk.trans ?_
  clear hk
  unfold setPort
  dsimp only
  repeat' first
    | with_reducible apply Keep.refl
    | simp only [Keep.mk_iff]

theorem keep_setMod {s₀ s : State} (hk : Keep s₀ s) (n x) :
    Keep s₀ (setMod s n x) := by
  refine hk.trans ?_
  clear hk
  unfold setMod
  dsimp only
  repeat' first
    | with_reducible apply Keep.refl
    | simp only [Keep.mk_iff]

theorem keep_setDRing {s₀ s : State} (hk : Keep s₀ s) (r x) :
    Keep s₀ (setDRing s r x) := by
  refine hk.trans ?_
  clear hk
  unfold setDRing
  repeat' first
    | with_reducible apply Keep.refl
    | simp only [Keep.mk_iff]

theorem keep_setCRing {s₀ s : State} (hk : Keep s₀ s) (r x) :
    Keep s₀ (setCRing s r x) := by
  refine hk.trans ?_
  clear hk
  unfold setCRing
  repeat' first
    | with_reducible apply Keep.refl
    | simp only [Keep.mk_iff]

theorem keep_setHandle {s₀ s : State} (hk : Keep s₀ s) (h x) :
    Keep s₀ (setHandle s h x) := by
  refine hk.trans ?_
  clear hk
  unfold setHandle
  dsimp only
  repeat' first
    | with_reducible apply Keep.refl
    | simp only [Keep.mk_iff]

theorem keep_drawn {s₀ s : State} (hk : Keep s₀ s) :
    Keep s₀ (drawn s) := by
  refine hk.trans ?_
  clear hk
  unfold drawn
  repeat' first
    | with_reducible apply Keep.refl
    | simp only [Keep.mk_iff]

theorem keep_sendOut {s₀ s : State} (hk : Keep s₀ s) (o) :
    Keep s₀ (sendOut s o) := by
  refine hk.trans ?_
  clear hk
  unfold sendOut
  repeat' first
    | with_reducible apply Keep.refl
    | simp only [Keep.mk_iff]

theorem keep_emit {s₀ s : State} (hk : Keep s₀ s) (e) :
    Keep s₀ (emit s e) := by
  refine hk.trans ?_
  clear hk
  unfold emit
  dsimp only
  repeat' first
    | with_reducible apply Keep.refl
    | with_reducible apply keep_bump
    | with_reducible apply Keep.ite
    | simp only [Keep.mk_iff]

theorem keep_emitFault {s₀ s : State} (hk : Keep s₀ s) (e) :
    Keep s₀ (emitFault s e) := by
  refine hk.trans ?_
  clear hk
  unfold emitFault
  repeat' first
    | with_reducible apply Keep.refl
    | with_reducible apply keep_emit
    | with_reducible apply keep_rsetBit

theorem keep_storeUnchecked {s₀ s : State} (hk : Keep s₀ s) (bs) : Keep s₀ (storeUnchecked s bs).1 := by
  refine hk.trans ?_
  unfold storeUnchecked
  dsimp only
  exact keep_setMem Keep.refl (MemKeep.foldl (fun m b => sbWrite_keep _ _ _ _) _ (storeBytes_keep _ _))

theorem keep_trStore {s₀ s : State} (hk : Keep s₀ s) (off bs) :
    Keep s₀ (trStore s off bs) := by
  refine hk.trans ?_
  clear hk
  unfold trStore
  repeat' first
    | with_reducible apply Keep.refl
    | with_reducible apply keep_storeUnchecked

/-! ### Flags -/

theorem keep_setFlight {s₀ s : State} (hk : Keep s₀ s) (f) :
    Keep s₀ (setFlight s f) := by
  refine hk.trans ?_
  clear hk
  unfold setFlight
  repeat' first
    | with_reducible apply Keep.refl
    | simp only [Keep.mk_iff]

/-! ### Integrity -/

theorem keep_evUnmapped {s₀ s : State} (hk : Keep s₀ s) (w a snode) :
    Keep s₀ (evUnmapped s w a snode) := by
  refine hk.trans ?_
  clear hk
  unfold evUnmapped
  repeat' first
    | with_reducible apply Keep.refl
    | with_reducible apply keep_emit

theorem keep_evForeign {s₀ s : State} (hk : Keep s₀ s) (w a count) :
    Keep s₀ (evForeign s w a count) := by
  refine hk.trans ?_
  clear hk
  unfold evForeign
  repeat' first
    | with_reducible apply Keep.refl
    | with_reducible apply keep_emit

theorem keep_evTrDenied {s₀ s : State} (hk : Keep s₀ s) (w a snode) :
    Keep s₀ (evTrDenied s w a snode) := by
  refine hk.trans ?_
  clear hk
  unfold evTrDenied
  repeat' first
    | with_reducible apply Keep.refl
    | with_reducible apply keep_emit

theorem keep_evRegDenied {s₀ s : State} (hk : Keep s₀ s) (w off snode) :
    Keep s₀ (evRegDenied s w off snode) := by
  refine hk.trans ?_
  clear hk
  unfold evRegDenied
  repeat' first
    | with_reducible apply Keep.refl
    | with_reducible apply keep_emit

theorem keep_needReplace {s₀ s : State} (hk : Keep s₀ s) (bit) :
    Keep s₀ (needReplace s bit) := by
  refine hk.trans ?_
  clear hk
  unfold needReplace
  dsimp only
  repeat' first
    | with_reducible apply Keep.refl
    | with_reducible apply keep_emit
    | with_reducible apply keep_rsetBit
    | with_reducible apply Keep.ite

theorem keep_judgeReplace {s₀ s : State} (hk : Keep s₀ s) :
    Keep s₀ (judgeReplace s) := by
  refine hk.trans ?_
  clear hk
  unfold judgeReplace
  dsimp only
  repeat' first
    | with_reducible apply Keep.refl
    | with_reducible apply keep_needReplace
    | with_reducible apply Keep.ite

theorem keep_binFailed {s₀ s : State} (hk : Keep s₀ s) (m cause) :
    Keep s₀ (binFailed s m cause) := by
  refine hk.trans ?_
  clear hk
  unfold binFailed
  repeat' first
    | with_reducible apply Keep.refl
    | with_reducible apply keep_emitFault
    | with_reducible apply keep_rsetBit

theorem keep_beginRemap {s₀ s : State} (hk : Keep s₀ s) (m k) :
    Keep s₀ (beginRemap s m k) := by
  refine hk.trans ?_
  clear hk
  unfold beginRemap
  dsimp only
  repeat' first
    | with_reducible apply Keep.refl
    | with_reducible apply keep_emit
    | simp only [Keep.mk_iff]

theorem keep_startRemapFrom {s₀ s : State} (hk : Keep s₀ s) (l) : Keep s₀ (startRemapFrom s l) := by
  refine hk.trans ?_
  clear hk
  induction l generalizing s with
  | nil => exact Keep.mk1 Keep.refl
  | cons q r ih =>
    unfold startRemapFrom
    split
    · exact (keep_binFailed Keep.refl _ _).trans ih
    · exact keep_beginRemap (Keep.mk1 Keep.refl) _ _

theorem keep_startRemap {s₀ s : State} (hk : Keep s₀ s) :
    Keep s₀ (startRemap s) := by
  refine hk.trans ?_
  clear hk
  unfold startRemap
  repeat' first
    | with_reducible apply Keep.refl
    | with_reducible apply keep_startRemapFrom
    | with_reducible apply Keep.ite

theorem keep_failBin {s₀ s : State} (hk : Keep s₀ s) (m cause) :
    Keep s₀ (failBin s m cause) := by
  refine hk.trans ?_
  clear hk
  unfold failBin
  dsimp only
  repeat' first
    | with_reducible apply Keep.refl
    | with_reducible apply keep_startRemap
    | with_reducible apply Keep.ite
    | simp only [Keep.mk_iff]

theorem keep_countUe {s₀ s : State} (hk : Keep s₀ s) (w) :
    Keep s₀ (countUe s w) := by
  refine hk.trans ?_
  clear hk
  unfold countUe
  dsimp only
  repeat' first
    | with_reducible apply Keep.refl
    | with_reducible apply keep_failBin
    | with_reducible apply keep_bump
    | with_reducible apply Keep.ite
    | simp only [Keep.mk_iff]
    | split

theorem keep_recordUe {s₀ s : State} (hk : Keep s₀ s) (who w) :
    Keep s₀ (recordUe s who w) := by
  refine hk.trans ?_
  clear hk
  unfold recordUe
  dsimp only
  repeat' first
    | with_reducible apply Keep.refl
    | with_reducible apply keep_countUe
    | with_reducible apply keep_emit
    | split

theorem keep_recordUeBlend {s₀ s : State} (hk : Keep s₀ s) (who w) :
    Keep s₀ (recordUeBlend s who w) := by
  refine hk.trans ?_
  clear hk
  unfold recordUeBlend
  dsimp only
  repeat' first
    | with_reducible apply Keep.refl
    | with_reducible apply keep_countUe
    | with_reducible apply keep_emit

theorem keep_countCeWord {s₀ s : State} (hk : Keep s₀ s) (w) :
    Keep s₀ (countCeWord s w) := by
  refine hk.trans ?_
  clear hk
  unfold countCeWord
  dsimp only
  repeat' first
    | with_reducible apply Keep.refl
    | with_reducible apply keep_bump
    | simp only [Keep.mk_iff]
    | split

theorem keep_countCe {s₀ s : State} (hk : Keep s₀ s) (k n) :
    Keep s₀ (countCe s k n) := by
  refine hk.trans ?_
  clear hk
  unfold countCe
  repeat' first
    | with_reducible apply Keep.refl
    | with_reducible apply keep_countCeWord
    | with_reducible apply Keep.foldl
    | intro _

theorem keep_correctRows {s₀ s : State} (hk : Keep s₀ s) (rows whole) :
    Keep s₀ (correctRows s rows whole) := by
  refine hk.trans ?_
  clear hk
  unfold correctRows
  dsimp only
  repeat' first
    | with_reducible apply Keep.refl
    | with_reducible apply keep_countCeWord
    | with_reducible apply Keep.foldl
    | with_reducible apply keep_setMem
    | exact MemKeep.cells rfl
    | intro _

theorem keep_correctMerges {s₀ s : State} (hk : Keep s₀ s) (ps) :
    Keep s₀ (correctMerges s ps) := by
  refine hk.trans ?_
  clear hk
  unfold correctMerges
  dsimp only
  repeat' first
    | with_reducible apply Keep.refl
    | with_reducible apply keep_correctRows

theorem keep_recordUes {s₀ s : State} (hk : Keep s₀ s) (who ws) :
    Keep s₀ (recordUes s who ws) := by
  refine hk.trans ?_
  clear hk
  unfold recordUes
  repeat' first
    | with_reducible apply Keep.refl
    | with_reducible apply keep_recordUe
    | with_reducible apply Keep.foldl
    | intro _

theorem keep_recordUeBlends {s₀ s : State} (hk : Keep s₀ s) (who ws) :
    Keep s₀ (recordUeBlends s who ws) := by
  refine hk.trans ?_
  clear hk
  unfold recordUeBlends
  repeat' first
    | with_reducible apply Keep.refl
    | with_reducible apply keep_recordUeBlend
    | with_reducible apply Keep.foldl
    | intro _

theorem keep_countSbUe {s₀ s : State} (hk : Keep s₀ s) (who blk) :
    Keep s₀ (countSbUe s who blk) := by
  refine hk.trans ?_
  clear hk
  unfold countSbUe
  dsimp only
  repeat' first
    | with_reducible apply Keep.refl
    | with_reducible apply keep_emit
    | with_reducible apply keep_bump
    | with_reducible apply Keep.ite

/-! ### Vintages -/

theorem keep_writeBack {s₀ s : State} (hk : Keep s₀ s) (h v) :
    Keep s₀ (writeBack s h v) := by
  refine hk.trans ?_
  clear hk
  unfold writeBack
  dsimp only
  repeat' first
    | with_reducible apply Keep.refl
    | with_reducible apply keep_trStore

theorem keep_vcmdPush {s₀ s : State} (hk : Keep s₀ s) (w) :
    Keep s₀ (vcmdPush s w) := by
  refine hk.trans ?_
  clear hk
  unfold vcmdPush
  dsimp only
  repeat' first
    | with_reducible apply Keep.refl
    | with_reducible apply keep_bumpFld
    | with_reducible apply keep_rset
    | with_reducible apply Keep.ite
    | simp only [Keep.mk_iff]

theorem keep_vcmdRefuse {s₀ s : State} (hk : Keep s₀ s) (w) :
    Keep s₀ (vcmdRefuse s w) := by
  refine hk.trans ?_
  clear hk
  unfold vcmdRefuse
  repeat' first
    | with_reducible apply Keep.refl
    | with_reducible apply keep_emit
    | with_reducible apply keep_bumpFld

theorem keep_vcmdApply {s₀ s t : State} (hk : Keep s₀ s) (w) (ht : vcmdApply s w = some t) : Keep s₀ t := by
  refine hk.trans ?_
  clear hk
  have opt : ∀ {c : Prop} [Decidable c] {a b : Option State} {t : State}, (∀ t, a = some t → Keep s t) →
      (∀ t, b = some t → Keep s t) → (if c then a else b) = some t → Keep s t := by
    intro c _ a b t ha hb h
    split at h
    · exact ha t h
    · exact hb t h
  revert ht
  unfold vcmdApply
  dsimp only
  repeat' first
    | with_reducible apply opt
    | (intro hu; injection hu with hu; subst hu; first
        | exact keep_vcmdRefuse Keep.refl _
        | exact keep_writeBack (keep_setHandle Keep.refl _ _) _ _)
    | (intro hu; exact absurd hu (by simp))
    | intro u

theorem keep_vcmdRun {s₀ s : State} (hk : Keep s₀ s) (l kept) : Keep s₀ (vcmdRun s l kept) := by
  refine hk.trans ?_
  clear hk
  induction l generalizing s kept with
  | nil => exact Keep.mk1 Keep.refl
  | cons w r ih =>
    unfold vcmdRun
    split
    · exact ih _
    · split
      · exact (keep_vcmdApply Keep.refl _ ‹_›).trans (ih _)
      · exact ih _

theorem keep_vintageEdge {s₀ s : State} (hk : Keep s₀ s) :
    Keep s₀ (vintageEdge s) := by
  refine hk.trans ?_
  clear hk
  unfold vintageEdge
  dsimp only
  repeat' first
    | with_reducible apply Keep.refl
    | with_reducible apply keep_vcmdRun
    | with_reducible apply keep_writeBack
    | with_reducible apply keep_setHandle
    | with_reducible apply Keep.ite
    | with_reducible apply Keep.foldl
    | intro _

theorem keep_buildHandles {s₀ s : State} (hk : Keep s₀ s) :
    Keep s₀ (buildHandles s) := by
  refine hk.trans ?_
  clear hk
  unfold buildHandles
  dsimp only
  repeat' first
    | with_reducible apply Keep.refl
    | simp only [Keep.mk_iff]

/-! ### Links -/

theorem keep_layFlit {s₀ s : State} (hk : Keep s₀ s) (n bytes) :
    Keep s₀ (layFlit s n bytes) := by
  refine hk.trans ?_
  clear hk
  unfold layFlit
  dsimp only
  repeat' first
    | with_reducible apply Keep.refl
    | with_reducible apply keep_sendOut
    | with_reducible apply keep_setPort
    | with_reducible apply Keep.ite

theorem keep_formFlit {s₀ s : State} (hk : Keep s₀ s) (n body) :
    Keep s₀ (formFlit s n body) := by
  refine hk.trans ?_
  clear hk
  unfold formFlit
  dsimp only
  repeat' first
    | with_reducible apply Keep.refl
    | with_reducible apply keep_layFlit
    | with_reducible apply keep_setPort

theorem keep_answerLink {s₀ s : State} (hk : Keep s₀ s) (n) :
    Keep s₀ (answerLink s n) := by
  refine hk.trans ?_
  clear hk
  unfold answerLink
  repeat' first
    | with_reducible apply Keep.refl
    | with_reducible apply keep_formFlit
    | with_reducible apply Keep.ite

theorem keep_packFlits {s₀ s : State} (hk : Keep s₀ s) (n a) :
    Keep s₀ (packFlits s n a) := by
  refine hk.trans ?_
  clear hk
  induction a generalizing s n with
  | zero => unfold packFlits; exact Keep.refl
  | succ kk ih =>
    have ihk : ∀ {s₀ s : State} (y1 : _), Keep s₀ s → Keep s₀ (packFlits s y1 kk) := by intros; exact Keep.trans ‹_› (ih ..)
    clear ih
    unfold packFlits
    dsimp only
    repeat' first
      | with_reducible apply Keep.refl
      | with_reducible apply ihk
      | with_reducible apply keep_formFlit
      | with_reducible apply keep_setPort
      | with_reducible apply Keep.ite

theorem keep_takeRx {s₀ s : State} (hk : Keep s₀ s) (n vc bytes keep mine) :
    Keep s₀ (takeRx s n vc bytes keep mine) := by
  refine hk.trans ?_
  clear hk
  unfold takeRx
  dsimp only
  repeat' first
    | with_reducible apply Keep.refl
    | with_reducible apply keep_answerLink
    | with_reducible apply keep_setPort

theorem keep_resumeCredits {s₀ s : State} (hk : Keep s₀ s) (n) :
    Keep s₀ (resumeCredits s n) := by
  refine hk.trans ?_
  clear hk
  unfold resumeCredits
  dsimp only
  repeat' first
    | with_reducible apply Keep.refl
    | with_reducible apply keep_answerLink
    | with_reducible apply keep_setPort
    | with_reducible apply Keep.ite

theorem keep_chargePort {s₀ s : State} (hk : Keep s₀ s) (n) :
    Keep s₀ (chargePort s n) := by
  refine hk.trans ?_
  clear hk
  unfold chargePort
  repeat' first
    | with_reducible apply Keep.refl
    | with_reducible apply keep_bumpFld

theorem keep_dischargePort {s₀ s : State} (hk : Keep s₀ s) (n) :
    Keep s₀ (dischargePort s n) := by
  refine hk.trans ?_
  clear hk
  unfold dischargePort
  repeat' first
    | with_reducible apply Keep.refl
    | with_reducible apply keep_resumeCredits
    | with_reducible apply keep_rsetFld

theorem keep_chargeStream {s₀ s : State} (hk : Keep s₀ s) (st) :
    Keep s₀ (chargeStream s st) := by
  refine hk.trans ?_
  clear hk
  unfold chargeStream
  repeat' first
    | with_reducible apply Keep.refl
    | with_reducible apply keep_bumpFld

theorem keep_dischargeStream {s₀ s : State} (hk : Keep s₀ s) (st) :
    Keep s₀ (dischargeStream s st) := by
  refine hk.trans ?_
  clear hk
  unfold dischargeStream
  repeat' first
    | with_reducible apply Keep.refl
    | with_reducible apply keep_rsetFld

theorem keep_takePool {s₀ s : State} (hk : Keep s₀ s) (port) :
    Keep s₀ (takePool s port).1 := by
  refine hk.trans ?_
  clear hk
  unfold takePool
  dsimp only
  repeat' first
    | with_reducible apply Keep.refl
    | with_reducible apply keep_chargePort
    | simp only [Keep.mk_iff]

theorem keep_fillPool {s₀ s : State} (hk : Keep s₀ s) (k data) :
    Keep s₀ (fillPool s k data) := by
  refine hk.trans ?_
  clear hk
  unfold fillPool
  repeat' first
    | with_reducible apply Keep.refl
    | with_reducible apply keep_storeUnchecked

theorem keep_dropPool {s₀ s : State} (hk : Keep s₀ s) (port k) :
    Keep s₀ (dropPool s port k) := by
  refine hk.trans ?_
  clear hk
  unfold dropPool
  dsimp only
  repeat' first
    | with_reducible apply Keep.refl
    | with_reducible apply keep_dischargePort
    | simp only [Keep.mk_iff]

theorem keep_stampTime {s₀ s : State} (hk : Keep s₀ s) (n p t) :
    Keep s₀ (stampTime s n p t).1 := by
  refine hk.trans ?_
  clear hk
  unfold stampTime
  dsimp only
  repeat' first
    | with_reducible apply Keep.refl
    | with_reducible apply Keep.iteFst
    | simp only [Keep.mk_iff]
    | split

theorem keep_frameOne {s₀ s : State} (hk : Keep s₀ s) (n p vc i) :
    Keep s₀ (frameOne s n p vc i) := by
  refine hk.trans ?_
  clear hk
  unfold frameOne
  dsimp only
  repeat' first
    | with_reducible apply Keep.refl
    | with_reducible apply keep_stampTime
    | with_reducible apply keep_sendOut
    | with_reducible apply keep_setPort
    | split

theorem keep_pumpPort {s₀ s : State} (hk : Keep s₀ s) (n k) : Keep s₀ (pumpPort s n k) := by
  refine hk.trans ?_
  clear hk
  induction k generalizing s with
  | zero => exact Keep.refl
  | succ k ih =>
    unfold pumpPort
    split
    · split
      · exact Keep.refl
      · exact (keep_frameOne Keep.refl _ _ _ _).trans ih
    · exact Keep.refl

theorem keep_pump {s₀ s : State} (hk : Keep s₀ s) (n) :
    Keep s₀ (pump s n) := by
  refine hk.trans ?_
  clear hk
  unfold pump
  dsimp only
  repeat' first
    | with_reducible apply Keep.refl
    | with_reducible apply keep_pumpPort
    | with_reducible apply keep_packFlits

theorem keep_enqueue {s₀ s : State} (hk : Keep s₀ s) (n e) :
    Keep s₀ (enqueue s n e) := by
  refine hk.trans ?_
  clear hk
  unfold enqueue
  dsimp only
  repeat' first
    | with_reducible apply Keep.refl
    | with_reducible apply keep_pump
    | with_reducible apply keep_setPort
    | simp only [Keep.mk_iff]

theorem keep_countUnrouted {s₀ s : State} (hk : Keep s₀ s) (port dnode hops) :
    Keep s₀ (countUnrouted s port dnode hops) := by
  refine hk.trans ?_
  clear hk
  unfold countUnrouted
  dsimp only
  repeat' first
    | with_reducible apply Keep.refl
    | with_reducible apply keep_emit
    | with_reducible apply keep_bump
    | with_reducible apply Keep.ite

theorem keep_sendTxn {s₀ s : State} (hk : Keep s₀ s) (t pin own) :
    Keep s₀ (sendTxn s t pin own).1 := by
  refine hk.trans ?_
  clear hk
  unfold sendTxn
  dsimp only
  repeat' first
    | with_reducible apply Keep.refl
    | with_reducible apply keep_countUnrouted
    | with_reducible apply keep_enqueue
    | split

theorem keep_takeIdent {s₀ s : State} (hk : Keep s₀ s) : Keep s₀ (takeIdent s).2 := Keep.mk1 hk

theorem keep_takeKey {s₀ s : State} (hk : Keep s₀ s) :
    Keep s₀ (takeKey s).2 := by
  refine hk.trans ?_
  clear hk
  unfold takeKey
  dsimp only
  repeat' first
    | with_reducible apply Keep.refl
    | simp only [Keep.mk_iff]

theorem keep_setOuts {s₀ s : State} (hk : Keep s₀ s) (os) :
    Keep s₀ (setOuts s os) := by
  refine hk.trans ?_
  clear hk
  unfold setOuts
  dsimp only
  repeat' first
    | with_reducible apply Keep.refl
    | simp only [Keep.mk_iff]

theorem keep_setOut {s₀ s : State} (hk : Keep s₀ s) (o) :
    Keep s₀ (setOut s o) := by
  refine hk.trans ?_
  clear hk
  unfold setOut
  repeat' first
    | with_reducible apply Keep.refl
    | with_reducible apply keep_setOuts

theorem keep_addOut {s₀ s : State} (hk : Keep s₀ s) (o) :
    Keep s₀ (addOut s o) := by
  refine hk.trans ?_
  clear hk
  unfold addOut
  repeat' first
    | with_reducible apply Keep.refl
    | with_reducible apply keep_setOuts

theorem keep_dropOut {s₀ s : State} (hk : Keep s₀ s) (key) :
    Keep s₀ (dropOut s key) := by
  refine hk.trans ?_
  clear hk
  unfold dropOut
  repeat' first
    | with_reducible apply Keep.refl
    | with_reducible apply keep_setOuts

theorem keep_retireOut {s₀ s : State} (hk : Keep s₀ s) (key) :
    Keep s₀ (retireOut s key) := by
  refine hk.trans ?_
  clear hk
  unfold retireOut
  dsimp only
  repeat' first
    | with_reducible apply Keep.refl
    | with_reducible apply keep_dropOut
    | with_reducible apply keep_setOut
    | with_reducible apply keep_dischargeStream
    | with_reducible apply Keep.ite
    | split

theorem keep_sendMulticast {s₀ s : State} (hk : Keep s₀ s) (t rs ingress own) :
    Keep s₀ (sendMulticast s t rs ingress own).1 := by
  refine hk.trans ?_
  clear hk
  unfold sendMulticast
  dsimp only
  repeat' first
    | with_reducible apply Keep.refl
    | with_reducible apply keep_countUnrouted
    | with_reducible apply keep_enqueue
    | with_reducible apply Keep.foldl
    | intro _

theorem keep_releaseOut {s₀ s : State} (hk : Keep s₀ s) (key) :
    Keep s₀ (releaseOut s key).1 := by
  refine hk.trans ?_
  clear hk
  unfold releaseOut
  dsimp only
  repeat' first
    | with_reducible apply Keep.refl
    | with_reducible apply keep_sendMulticast
    | with_reducible apply keep_retireOut
    | with_reducible apply keep_setOut
    | with_reducible apply keep_takeIdent
    | with_reducible apply keep_sendTxn
    | with_reducible apply Keep.iteFst
    | split

/-! ### Clock -/

theorem keep_setTimeUnits {s₀ s : State} (hk : Keep s₀ s) (u) :
    Keep s₀ (setTimeUnits s u) := by
  refine hk.trans ?_
  clear hk
  unfold setTimeUnits
  dsimp only
  repeat' first
    | with_reducible apply Keep.refl
    | simp only [Keep.mk_iff]

theorem keep_planEdge {s₀ s : State} (hk : Keep s₀ s) :
    Keep s₀ (planEdge s) := by
  refine hk.trans ?_
  clear hk
  unfold planEdge
  dsimp only
  repeat' first
    | with_reducible apply Keep.refl
    | simp only [Keep.mk_iff]

theorem keep_jumpEdge {s₀ s : State} (hk : Keep s₀ s) :
    Keep s₀ (jumpEdge s) := by
  refine hk.trans ?_
  clear hk
  unfold jumpEdge
  dsimp only
  repeat' first
    | with_reducible apply Keep.refl
    | simp only [Keep.mk_iff]

theorem keep_stepTime {s₀ s : State} (hk : Keep s₀ s) (off) :
    Keep s₀ (stepTime s off) := by
  refine hk.trans ?_
  clear hk
  unfold stepTime
  dsimp only
  repeat' first
    | with_reducible apply Keep.refl
    | with_reducible apply keep_jumpEdge
    | with_reducible apply keep_setTimeUnits
    | with_reducible apply keep_rsetBit
    | with_reducible apply keep_rset
    | with_reducible apply Keep.ite
    | simp only [Keep.mk_iff]

theorem keep_slewClock {s₀ s : State} (hk : Keep s₀ s) (extra) :
    Keep s₀ (slewClock s extra) := by
  refine hk.trans ?_
  clear hk
  unfold slewClock
  dsimp only
  repeat' first
    | with_reducible apply Keep.refl
    | simp only [Keep.mk_iff]

theorem keep_countClock {s₀ s : State} (hk : Keep s₀ s) :
    Keep s₀ (countClock s) := by
  refine hk.trans ?_
  clear hk
  unfold countClock
  dsimp only
  repeat' first
    | with_reducible apply Keep.refl
    | with_reducible apply keep_slewClock
    | with_reducible apply keep_stepTime
    | with_reducible apply keep_setTimeUnits
    | with_reducible apply Keep.ite
    | simp only [Keep.mk_iff]
    | split

theorem keep_setValid {s₀ s : State} (hk : Keep s₀ s) :
    Keep s₀ (setValid s) := by
  refine hk.trans ?_
  clear hk
  unfold setValid
  repeat' first
    | with_reducible apply Keep.refl
    | with_reducible apply keep_rsetBit

theorem keep_takeRole {s₀ s : State} (hk : Keep s₀ s) :
    Keep s₀ (takeRole s) := by
  refine hk.trans ?_
  clear hk
  unfold takeRole
  dsimp only
  repeat' first
    | with_reducible apply Keep.refl
    | with_reducible apply keep_setValid
    | with_reducible apply keep_rsetBit
    | with_reducible apply Keep.ite
    | simp only [Keep.mk_iff]

theorem keep_judgeLock {s₀ s : State} (hk : Keep s₀ s) (off) :
    Keep s₀ (judgeLock s off) := by
  refine hk.trans ?_
  clear hk
  unfold judgeLock
  dsimp only
  repeat' first
    | with_reducible apply Keep.refl
    | with_reducible apply keep_setValid
    | with_reducible apply keep_rsetBit
    | with_reducible apply Keep.ite
    | simp only [Keep.mk_iff]

theorem keep_slewTime {s₀ s : State} (hk : Keep s₀ s) (off) :
    Keep s₀ (slewTime s off) := by
  refine hk.trans ?_
  clear hk
  unfold slewTime
  dsimp only
  repeat' first
    | with_reducible apply Keep.refl
    | with_reducible apply keep_drawn
    | with_reducible apply keep_rset
    | with_reducible apply Keep.ite
    | simp only [Keep.mk_iff]

theorem keep_offsetShown {s₀ s : State} (hk : Keep s₀ s) (off) :
    Keep s₀ (offsetShown s off) := by
  refine hk.trans ?_
  clear hk
  unfold offsetShown
  dsimp only
  repeat' first
    | with_reducible apply Keep.refl
    | with_reducible apply keep_drawn
    | with_reducible apply keep_rset

theorem keep_correct {s₀ s : State} (hk : Keep s₀ s) (off) :
    Keep s₀ (correct s off) := by
  refine hk.trans ?_
  clear hk
  unfold correct
  dsimp only
  repeat' first
    | with_reducible apply Keep.refl
    | with_reducible apply keep_offsetShown
    | with_reducible apply keep_slewTime
    | with_reducible apply keep_judgeLock
    | with_reducible apply Keep.ite
    | simp only [Keep.mk_iff]

theorem keep_sendTime {s₀ s : State} (hk : Keep s₀ s) (n kind seqId stamp) :
    Keep s₀ (sendTime s n kind seqId stamp) := by
  refine hk.trans ?_
  clear hk
  unfold sendTime
  repeat' first
    | with_reducible apply Keep.refl
    | with_reducible apply keep_enqueue

theorem keep_syncMark {s₀ s : State} (hk : Keep s₀ s) (tiles) :
    Keep s₀ (syncMark s tiles) := by
  refine hk.trans ?_
  clear hk
  unfold syncMark
  dsimp only
  repeat' first
    | with_reducible apply Keep.refl
    | with_reducible apply keep_sendTime
    | with_reducible apply Keep.foldl
    | intro _
    | simp only [Keep.mk_iff]

theorem keep_setExch {s₀ s : State} (hk : Keep s₀ s) (n e) :
    Keep s₀ (setExch s n e) := by
  refine hk.trans ?_
  clear hk
  unfold setExch
  dsimp only
  repeat' first
    | with_reducible apply Keep.refl
    | simp only [Keep.mk_iff]

theorem keep_countSource {s₀ s : State} (hk : Keep s₀ s) (n) :
    Keep s₀ (countSource s n) := by
  refine hk.trans ?_
  clear hk
  unfold countSource
  dsimp only
  repeat' first
    | with_reducible apply Keep.refl
    | with_reducible apply keep_rsetBit
    | with_reducible apply Keep.ite
    | simp only [Keep.mk_iff]

theorem keep_exchangeAt {s₀ s : State} (hk : Keep s₀ s) (n) :
    Keep s₀ (exchangeAt s n) := by
  refine hk.trans ?_
  clear hk
  unfold exchangeAt
  dsimp only
  repeat' first
    | with_reducible apply Keep.refl
    | simp only [Keep.mk_iff]

theorem keep_exchangeDone {s₀ s : State} (hk : Keep s₀ s) (n t1 t2 t3 t4) :
    Keep s₀ (exchangeDone s n t1 t2 t3 t4) := by
  refine hk.trans ?_
  clear hk
  unfold exchangeDone
  dsimp only
  repeat' first
    | with_reducible apply Keep.refl
    | with_reducible apply keep_exchangeAt
    | with_reducible apply keep_countSource
    | with_reducible apply keep_setExch
    | with_reducible apply keep_correct
    | with_reducible apply keep_drawn
    | with_reducible apply keep_rset
    | with_reducible apply Keep.ite

theorem keep_tryExchange {s₀ s : State} (hk : Keep s₀ s) (n) :
    Keep s₀ (tryExchange s n) := by
  refine hk.trans ?_
  clear hk
  unfold tryExchange
  repeat' first
    | with_reducible apply Keep.refl
    | with_reducible apply keep_exchangeDone
    | split

theorem keep_takeTime {s₀ s : State} (hk : Keep s₀ s) (n kind) :
    Keep s₀ (takeTime s n kind) := by
  refine hk.trans ?_
  clear hk
  unfold takeTime
  repeat' first
    | with_reducible apply Keep.refl
    | with_reducible apply keep_takeRx

theorem keep_breakRow {s₀ s : State} (hk : Keep s₀ s) (n) :
    Keep s₀ (breakRow s n) := by
  refine hk.trans ?_
  clear hk
  unfold breakRow
  dsimp only
  repeat' first
    | with_reducible apply Keep.refl
    | with_reducible apply Keep.ite
    | simp only [Keep.mk_iff]

theorem keep_syncReceived {s₀ s : State} (hk : Keep s₀ s) (n q) :
    Keep s₀ (syncReceived s n q) := by
  refine hk.trans ?_
  clear hk
  unfold syncReceived
  dsimp only
  repeat' first
    | with_reducible apply Keep.refl
    | with_reducible apply keep_breakRow
    | with_reducible apply keep_takeTime
    | with_reducible apply keep_setExch
    | with_reducible apply keep_sendTime
    | with_reducible apply Keep.ite

theorem keep_followUpReceived {s₀ s : State} (hk : Keep s₀ s) (n q t1) :
    Keep s₀ (followUpReceived s n q t1) := by
  refine hk.trans ?_
  clear hk
  unfold followUpReceived
  dsimp only
  repeat' first
    | with_reducible apply Keep.refl
    | with_reducible apply keep_takeTime
    | with_reducible apply keep_tryExchange
    | with_reducible apply keep_setExch
    | with_reducible apply Keep.ite

theorem keep_delayReqReceived {s₀ s : State} (hk : Keep s₀ s) (n q) :
    Keep s₀ (delayReqReceived s n q) := by
  refine hk.trans ?_
  clear hk
  unfold delayReqReceived
  dsimp only
  repeat' first
    | with_reducible apply Keep.refl
    | with_reducible apply keep_takeTime
    | with_reducible apply keep_sendTime
    | with_reducible apply Keep.ite

theorem keep_delayRespReceived {s₀ s : State} (hk : Keep s₀ s) (n q t4) :
    Keep s₀ (delayRespReceived s n q t4) := by
  refine hk.trans ?_
  clear hk
  unfold delayRespReceived
  dsimp only
  repeat' first
    | with_reducible apply Keep.refl
    | with_reducible apply keep_takeTime
    | with_reducible apply keep_tryExchange
    | with_reducible apply keep_setExch
    | with_reducible apply Keep.ite

theorem keep_raisePulse {s₀ s : State} (hk : Keep s₀ s) :
    Keep s₀ (raisePulse s) := by
  refine hk.trans ?_
  clear hk
  unfold raisePulse
  dsimp only
  repeat' first
    | with_reducible apply Keep.refl
    | simp only [Keep.mk_iff]

theorem keep_pulseOut {s₀ s : State} (hk : Keep s₀ s) :
    Keep s₀ (pulseOut s) := by
  refine hk.trans ?_
  clear hk
  unfold pulseOut
  repeat' first
    | with_reducible apply Keep.refl
    | with_reducible apply keep_raisePulse
    | with_reducible apply Keep.ite

theorem keep_pulseSince {s₀ s : State} (hk : Keep s₀ s) (old) :
    Keep s₀ (pulseSince s old) := by
  refine hk.trans ?_
  clear hk
  unfold pulseSince
  repeat' first
    | with_reducible apply Keep.refl
    | with_reducible apply keep_raisePulse
    | with_reducible apply Keep.ite

theorem keep_pulseIn {s₀ s : State} (hk : Keep s₀ s) :
    Keep s₀ (pulseIn s) := by
  refine hk.trans ?_
  clear hk
  unfold pulseIn
  dsimp only
  repeat' first
    | with_reducible apply Keep.refl
    | with_reducible apply keep_pulseOut
    | with_reducible apply keep_correct
    | with_reducible apply keep_setValid
    | with_reducible apply keep_jumpEdge
    | with_reducible apply keep_setTimeUnits
    | with_reducible apply keep_drawn
    | with_reducible apply Keep.ite
    | simp only [Keep.mk_iff]

theorem keep_pulseReceived {s₀ s : State} (hk : Keep s₀ s) (stayedHigh) :
    Keep s₀ (pulseReceived s stayedHigh) := by
  refine hk.trans ?_
  clear hk
  unfold pulseReceived
  dsimp only
  repeat' first
    | with_reducible apply Keep.refl
    | with_reducible apply keep_pulseIn
    | with_reducible apply Keep.ite
    | simp only [Keep.mk_iff]

theorem keep_takeAlt {s₀ s : State} (hk : Keep s₀ s) :
    Keep s₀ (takeAlt s) := by
  refine hk.trans ?_
  clear hk
  unfold takeAlt
  dsimp only
  repeat' first
    | with_reducible apply Keep.refl
    | with_reducible apply keep_rsetBit
    | with_reducible apply Keep.ite
    | simp only [Keep.mk_iff]

theorem keep_enterHoldover {s₀ s : State} (hk : Keep s₀ s) :
    Keep s₀ (enterHoldover s) := by
  refine hk.trans ?_
  clear hk
  unfold enterHoldover
  dsimp only
  repeat' first
    | with_reducible apply Keep.refl
    | with_reducible apply keep_emit
    | with_reducible apply keep_rsetBit
    | with_reducible apply Keep.ite
    | simp only [Keep.mk_iff]

theorem keep_execSync (s : State) (port seqId) :
    KeepOut s (execSync port seqId s) := by
  unfold execSync
  repeat' first
    | with_reducible apply Keep.refl
    | with_reducible apply KeepOut.next
    | with_reducible apply keep_syncReceived

theorem keep_execFollowUp (s : State) (port seqId t1) :
    KeepOut s (execFollowUp port seqId t1 s) := by
  unfold execFollowUp
  repeat' first
    | with_reducible apply Keep.refl
    | with_reducible apply KeepOut.next
    | with_reducible apply keep_followUpReceived

theorem keep_execDelayReq (s : State) (port seqId) :
    KeepOut s (execDelayReq port seqId s) := by
  unfold execDelayReq
  repeat' first
    | with_reducible apply Keep.refl
    | with_reducible apply KeepOut.next
    | with_reducible apply keep_delayReqReceived

theorem keep_execDelayResp (s : State) (port seqId t4) :
    KeepOut s (execDelayResp port seqId t4 s) := by
  unfold execDelayResp
  repeat' first
    | with_reducible apply Keep.refl
    | with_reducible apply KeepOut.next
    | with_reducible apply keep_delayRespReceived

theorem keep_execFtimePulseOut (s : State) :
    KeepOut s (execFtimePulseOut s) := by
  unfold execFtimePulseOut
  repeat' first
    | with_reducible apply Keep.refl
    | with_reducible apply KeepOut.next
    | with_reducible apply keep_pulseOut

theorem keep_execAltInUse (s : State) :
    KeepOut s (execAltInUse s) := by
  unfold execAltInUse
  repeat' first
    | with_reducible apply Keep.refl
    | with_reducible apply KeepOut.next
    | with_reducible apply keep_takeAlt

theorem keep_execHoldover (s : State) :
    KeepOut s (execHoldover s) := by
  unfold execHoldover
  repeat' first
    | with_reducible apply Keep.refl
    | with_reducible apply KeepOut.next
    | with_reducible apply keep_enterHoldover

end Sys2Proof.Machine
end

