-- ==== Sys2Proof/Laws/KeepRun.lean ====
section
/-!
SUPPORT. Laws/KeepRun.lean: every operation of the presses: loads, stores, passes, journals and their commands keeps the queue, the test access
port, the thermal latch, the settled tally and the canonical form of the memory.
-/
namespace Sys2Proof.Machine
open Sys2Proof.Safety

/-! ### Fetch -/

theorem keep_ensureShards {s₀ s : State} (hk : Keep s₀ s) (p r l cs) :
    Keep s₀ (ensureShards s p r l cs).1 := by
  refine hk.trans ?_
  clear hk
  unfold ensureShards
  dsimp only
  repeat' first
    | with_reducible apply Keep.refl
    | with_reducible apply keep_recordUes
    | with_reducible apply Keep.ite
    | with_reducible apply Keep.iteFst
    | with_reducible apply Keep.foldlFst
    | intro _

theorem keep_trySend {s₀ s : State} (hk : Keep s₀ s) (p e n) : Keep s₀ (trySend s p e n).1 := by
  refine hk.trans ?_
  clear hk
  induction n generalizing s e with
  | zero => exact Keep.refl
  | succ n ih =>
    unfold trySend
    dsimp only
    split
    · exact keep_sendTxn Keep.refl _ _ _
    · split
      · exact (keep_sendTxn Keep.refl _ _ _).trans (ih _)
      · exact (keep_bump (keep_sendTxn Keep.refl _ _ _) _ _).trans (ih _)

theorem keep_issueRead {s₀ s : State} (hk : Keep s₀ s) (p r limit now e) :
    Keep s₀ (issueRead s p r limit now e).1 := by
  refine hk.trans ?_
  clear hk
  unfold issueRead
  dsimp only
  repeat' first
    | with_reducible apply Keep.refl
    | with_reducible apply keep_trySend
    | split

theorem keep_askLines {s₀ s : State} (hk : Keep s₀ s) (r c limit now w table ks) :
    Keep s₀ (askLines s r c limit now w table ks).1 := by
  refine hk.trans ?_
  clear hk
  unfold askLines
  dsimp only
  repeat' first
    | with_reducible apply Keep.refl
    | with_reducible apply keep_issueRead
    | with_reducible apply Keep.iteFst
    | with_reducible apply Keep.foldlFst
    | intro _

theorem keep_lineCheck {s₀ s : State} (hk : Keep s₀ s) (c la) :
    Keep s₀ (lineCheck s c la).1 := by
  refine hk.trans ?_
  clear hk
  unfold lineCheck
  dsimp only
  repeat' first
    | with_reducible apply Keep.refl
    | with_reducible apply keep_countSbUe
    | with_reducible apply keep_recordUes
    | with_reducible apply keep_countCe
    | split

theorem keep_noteRefused {s₀ s : State} (hk : Keep s₀ s) (fid a) :
    Keep s₀ (noteRefused s fid a) := by
  refine hk.trans ?_
  clear hk
  unfold noteRefused
  dsimp only
  repeat' first
    | with_reducible apply Keep.refl
    | with_reducible apply keep_setFlight
    | split

theorem keep_lineNote {s₀ s : State} (hk : Keep s₀ s) (c k la) :
    Keep s₀ (lineNote s c k la) := by
  refine hk.trans ?_
  clear hk
  unfold lineNote
  repeat' first
    | with_reducible apply Keep.refl
    | with_reducible apply keep_noteRefused
    | with_reducible apply keep_evUnmapped
    | split

theorem keep_askElems {s₀ s : State} (hk : Keep s₀ s) (r c w now cs) :
    Keep s₀ (askElems s r c w now cs).1 := by
  refine hk.trans ?_
  clear hk
  unfold askElems
  dsimp only
  repeat' first
    | with_reducible apply Keep.refl
    | with_reducible apply keep_askLines
    | with_reducible apply keep_ensureShards
    | with_reducible apply Keep.iteFst
    | split

theorem keep_readElems {s₀ s : State} (hk : Keep s₀ s) (r c w cs) :
    Keep s₀ (readElems s r c w cs).1 := by
  refine hk.trans ?_
  clear hk
  unfold readElems
  dsimp only
  repeat' first
    | with_reducible apply Keep.refl
    | with_reducible apply keep_lineNote
    | with_reducible apply keep_lineCheck
    | with_reducible apply keep_askLines
    | with_reducible apply keep_ensureShards
    | with_reducible apply Keep.iteFst
    | with_reducible apply Keep.foldl
    | with_reducible apply Keep.foldlFst
    | intro _
    | simp only [Keep.mk_iff]
    | split

theorem keep_addClamped {s₀ s : State} (hk : Keep s₀ s) (fid n) :
    Keep s₀ (addClamped s fid n) := by
  refine hk.trans ?_
  clear hk
  unfold addClamped
  dsimp only
  repeat' first
    | with_reducible apply Keep.refl
    | with_reducible apply keep_setFlight
    | split

theorem keep_ensureIdx {s₀ s : State} (hk : Keep s₀ s) (r c n ks) :
    Keep s₀ (ensureIdx s r c n ks).1 := by
  refine hk.trans ?_
  clear hk
  unfold ensureIdx
  dsimp only
  repeat' first
    | with_reducible apply Keep.refl
    | with_reducible apply keep_addClamped
    | with_reducible apply keep_readElems
    | with_reducible apply Keep.iteFst
    | split

theorem keep_ensureBags {s₀ s : State} (hk : Keep s₀ s) (r c g) :
    Keep s₀ (ensureBags s r c g).1 := by
  refine hk.trans ?_
  clear hk
  unfold ensureBags
  dsimp only
  repeat' first
    | with_reducible apply Keep.refl
    | with_reducible apply keep_addClamped
    | with_reducible apply keep_readElems
    | with_reducible apply Keep.iteFst
    | split

/-! ### Journal -/

theorem keep_journalUe {s₀ s : State} (hk : Keep s₀ s) (st) :
    Keep s₀ (journalUe s st) := by
  refine hk.trans ?_
  clear hk
  unfold journalUe
  dsimp only
  repeat' first
    | with_reducible apply Keep.refl
    | with_reducible apply keep_recordUes

theorem keep_writeJournal {s₀ s : State} (hk : Keep s₀ s) (f r state) :
    Keep s₀ (writeJournal s f r state) := by
  refine hk.trans ?_
  clear hk
  unfold writeJournal
  dsimp only
  repeat' first
    | with_reducible apply Keep.refl
    | with_reducible apply keep_trStore

/-! ### Faults -/

theorem keep_updCnt {s₀ s : State} (hk : Keep s₀ s) (fid g) :
    Keep s₀ (updCnt s fid g) := by
  refine hk.trans ?_
  clear hk
  unfold updCnt
  repeat' first
    | with_reducible apply Keep.refl
    | with_reducible apply keep_setFlight
    | split

theorem keep_addDone {s₀ s : State} (hk : Keep s₀ s) (fid j n) :
    Keep s₀ (addDone s fid j n) := by
  refine hk.trans ?_
  clear hk
  unfold addDone
  dsimp only
  repeat' first
    | with_reducible apply Keep.refl
    | with_reducible apply keep_updCnt

theorem keep_updRun {s₀ s : State} (hk : Keep s₀ s) (p fid g) :
    Keep s₀ (updRun s p fid g) := by
  refine hk.trans ?_
  clear hk
  unfold updRun
  dsimp only
  repeat' first
    | with_reducible apply Keep.refl
    | with_reducible apply keep_setPress

theorem keep_releaseTable {s₀ s : State} (hk : Keep s₀ s) (p) :
    Keep s₀ (releaseTable s p) := by
  refine hk.trans ?_
  clear hk
  unfold releaseTable
  dsimp only
  repeat' first
    | with_reducible apply Keep.refl
    | with_reducible apply keep_setTable
    | with_reducible apply Keep.ite

theorem keep_requestTable {s₀ s : State} (hk : Keep s₀ s) (p) :
    Keep s₀ (requestTable s p) := by
  refine hk.trans ?_
  clear hk
  unfold requestTable
  dsimp only
  repeat' first
    | with_reducible apply Keep.refl
    | with_reducible apply keep_setTable
    | with_reducible apply Keep.ite

theorem keep_orphanWaits {s₀ s : State} (hk : Keep s₀ s) (p fid) :
    Keep s₀ (orphanWaits s p fid) := by
  refine hk.trans ?_
  clear hk
  unfold orphanWaits
  dsimp only
  repeat' first
    | with_reducible apply Keep.refl
    | with_reducible apply keep_setOuts
    | with_reducible apply keep_setPress

theorem keep_dropOpen {s₀ s : State} (hk : Keep s₀ s) (fid) :
    Keep s₀ (dropOpen s fid) := by
  refine hk.trans ?_
  clear hk
  unfold dropOpen
  dsimp only
  repeat' first
    | with_reducible apply Keep.refl
    | with_reducible apply keep_dropOut
    | with_reducible apply keep_dischargeStream
    | with_reducible apply Keep.ite
    | with_reducible apply Keep.foldl
    | intro _

theorem keep_dropHandBlocks {s₀ s : State} (hk : Keep s₀ s) (st r) :
    Keep s₀ (dropHandBlocks s st r) := by
  refine hk.trans ?_
  clear hk
  unfold dropHandBlocks
  repeat' first
    | with_reducible apply Keep.refl
    | with_reducible apply keep_dischargeStream
    | with_reducible apply Keep.foldl
    | intro _

theorem keep_corkFlight {s₀ s : State} (hk : Keep s₀ s) (p r) :
    Keep s₀ (corkFlight s p r) := by
  refine hk.trans ?_
  clear hk
  unfold corkFlight
  dsimp only
  repeat' first
    | with_reducible apply Keep.refl
    | with_reducible apply keep_dropHandBlocks
    | with_reducible apply keep_dropOpen
    | with_reducible apply keep_orphanWaits
    | with_reducible apply keep_setFlight
    | with_reducible apply Keep.ite
    | split

theorem keep_cork {s₀ s : State} (hk : Keep s₀ s) (p cause) :
    Keep s₀ (cork s p cause) := by
  refine hk.trans ?_
  clear hk
  unfold cork
  dsimp only
  repeat' first
    | with_reducible apply Keep.refl
    | with_reducible apply keep_corkFlight
    | with_reducible apply keep_releaseTable
    | with_reducible apply keep_judgeReplace
    | with_reducible apply keep_emitFault
    | with_reducible apply keep_setPress
    | with_reducible apply keep_rsetBit
    | with_reducible apply Keep.ite
    | simp only [Keep.mk_iff]
    | split

theorem keep_chargePress {s₀ s : State} (hk : Keep s₀ s) (p cause) :
    Keep s₀ (chargePress s p cause) := by
  refine hk.trans ?_
  clear hk
  unfold chargePress
  dsimp only
  repeat' first
    | with_reducible apply Keep.refl
    | with_reducible apply keep_cork
    | with_reducible apply keep_setPress
    | with_reducible apply keep_bump
    | with_reducible apply Keep.ite

theorem keep_chargeTable {s₀ s : State} (hk : Keep s₀ s) (k) :
    Keep s₀ (chargeTable s k) := by
  refine hk.trans ?_
  clear hk
  unfold chargeTable
  dsimp only
  repeat' first
    | with_reducible apply Keep.refl
    | with_reducible apply keep_emitFault
    | with_reducible apply keep_setTable
    | with_reducible apply keep_bump
    | with_reducible apply Keep.ite

theorem keep_lotFailed {s₀ s : State} (hk : Keep s₀ s) (p fid cause) :
    Keep s₀ (lotFailed s p fid cause) := by
  refine hk.trans ?_
  clear hk
  unfold lotFailed
  dsimp only
  repeat' first
    | with_reducible apply Keep.refl
    | with_reducible apply keep_chargeTable
    | with_reducible apply keep_chargePress
    | with_reducible apply keep_updCnt
    | with_reducible apply keep_bump
    | with_reducible apply Keep.ite

/-! ### Store -/

theorem keep_needRemote {s₀ s : State} (hk : Keep s₀ s) (r c table as) :
    Keep s₀ (needRemote s r c table as).1 := by
  refine hk.trans ?_
  clear hk
  unfold needRemote
  dsimp only
  repeat' first
    | with_reducible apply Keep.refl
    | with_reducible apply keep_askLines
    | with_reducible apply Keep.iteFst
    | split

theorem keep_encodeUnit {s₀ s : State} (hk : Keep s₀ s) (r c t outs inWin) :
    Keep s₀ (encodeUnit s r c t outs inWin).1 := by
  refine hk.trans ?_
  clear hk
  unfold encodeUnit
  dsimp only
  repeat' first
    | with_reducible apply Keep.refl
    | with_reducible apply keep_needRemote
    | with_reducible apply keep_ensureShards
    | with_reducible apply Keep.iteFst
    | simp only [Keep.mk_iff]
    | split

theorem keep_noteStops {s₀ s : State} (hk : Keep s₀ s) (c as) :
    Keep s₀ (noteStops s c as) := by
  refine hk.trans ?_
  clear hk
  unfold noteStops
  dsimp only
  repeat' first
    | with_reducible apply Keep.refl
    | with_reducible apply keep_noteRefused
    | with_reducible apply keep_evUnmapped
    | with_reducible apply Keep.foldl
    | intro _
    | split

theorem keep_storeLocal {s₀ s : State} (hk : Keep s₀ s) (r c hand ps z) :
    Keep s₀ (storeLocal s r c hand ps z).1 := by
  refine hk.trans ?_
  clear hk
  unfold storeLocal
  dsimp only
  repeat' first
    | with_reducible apply Keep.refl
    | with_reducible apply keep_noteStops
    | with_reducible apply keep_recordUeBlends
    | with_reducible apply keep_correctMerges
    | with_reducible apply keep_setMem
    | with_reducible apply storeBytes_keep

theorem keep_blendLane {s₀ s : State} (hk : Keep s₀ s) (g a code) :
    Keep s₀ (blendLane s g a code).1 := by
  refine hk.trans ?_
  clear hk
  unfold blendLane
  dsimp only
  repeat' first
    | with_reducible apply Keep.refl
    | with_reducible apply Keep.iteFst
    | with_reducible apply keep_setMem
    | with_reducible apply MemKeep.foldl
    | with_reducible apply memPutAll_keep
    | exact MemKeep.cells rfl
    | intro _

theorem keep_blendLocal {s₀ s : State} (hk : Keep s₀ s) (r c g cs z) :
    Keep s₀ (blendLocal s r c g cs z).1 := by
  refine hk.trans ?_
  clear hk
  unfold blendLocal
  dsimp only
  repeat' first
    | with_reducible apply Keep.refl
    | with_reducible apply keep_blendLane
    | with_reducible apply keep_noteStops
    | with_reducible apply keep_recordUeBlends
    | with_reducible apply keep_correctRows
    | with_reducible apply Keep.foldlFst
    | with_reducible apply keep_setMem
    | with_reducible apply sbWrite_keep
    | with_reducible apply MemKeep.foldl
    | with_reducible apply MemKeep.refl
    | intro _
    | simp only [Keep.mk_iff]

theorem keep_closeOut {s₀ s : State} (hk : Keep s₀ s) (o) :
    Keep s₀ (closeOut s o).1 := by
  refine hk.trans ?_
  clear hk
  unfold closeOut
  dsimp only
  repeat' first
    | with_reducible apply Keep.refl
    | with_reducible apply Keep.ite
    | simp only [Keep.mk_iff]

theorem keep_letGo {s₀ s : State} (hk : Keep s₀ s) (key) :
    Keep s₀ (letGo s key) := by
  refine hk.trans ?_
  clear hk
  unfold letGo
  dsimp only
  repeat' first
    | with_reducible apply Keep.refl
    | with_reducible apply keep_addDone
    | with_reducible apply keep_updCnt
    | with_reducible apply keep_releaseOut
    | with_reducible apply keep_setOut
    | with_reducible apply Keep.ite
    | split

theorem keep_tryLetGo {s₀ s : State} (hk : Keep s₀ s) (key) :
    Keep s₀ (tryLetGo s key) := by
  refine hk.trans ?_
  clear hk
  unfold tryLetGo
  repeat' first
    | with_reducible apply Keep.refl
    | with_reducible apply keep_letGo
    | with_reducible apply keep_dropOut
    | with_reducible apply Keep.ite
    | split

theorem keep_storeRun {s₀ s : State} (hk : Keep s₀ s) (c n txn pool recv counts failed ps x) :
    Keep s₀ (storeRun s c n txn pool recv counts failed ps x).1 := by
  refine hk.trans ?_
  clear hk
  unfold storeRun
  dsimp only
  repeat' first
    | with_reducible apply Keep.refl
    | with_reducible apply keep_tryLetGo
    | with_reducible apply keep_closeOut
    | with_reducible apply keep_addOut
    | with_reducible apply keep_setOut
    | with_reducible apply keep_takeKey
    | with_reducible apply Keep.iteFst
    | simp only [Keep.mk_iff]
    | split

theorem keep_storeRuns {s₀ s : State} (hk : Keep s₀ s) (c n txn pool recv counts failed xs ps z) :
    Keep s₀ (storeRuns s c n txn pool recv counts failed xs ps z).1 := by
  refine hk.trans ?_
  clear hk
  unfold storeRuns
  dsimp only
  repeat' first
    | with_reducible apply Keep.refl
    | with_reducible apply keep_storeRun
    | with_reducible apply Keep.foldlFst
    | intro _

theorem keep_sendAtomics {s₀ s : State} (hk : Keep s₀ s) (c n g table cs z) :
    Keep s₀ (sendAtomics s c n g table cs z).1 := by
  refine hk.trans ?_
  clear hk
  unfold sendAtomics
  dsimp only
  repeat' first
    | with_reducible apply Keep.refl
    | with_reducible apply keep_addOut
    | with_reducible apply keep_takeKey
    | with_reducible apply Keep.foldlFst
    | intro _

theorem keep_leaveOuts {s₀ s : State} (hk : Keep s₀ s) (fid j n) :
    Keep s₀ (leaveOuts s fid j n) := by
  refine hk.trans ?_
  clear hk
  unfold leaveOuts
  dsimp only
  repeat' first
    | with_reducible apply Keep.refl
    | with_reducible apply keep_tryLetGo
    | with_reducible apply keep_closeOut
    | with_reducible apply keep_setOut
    | with_reducible apply Keep.iteFst
    | with_reducible apply Keep.foldl
    | intro _

theorem keep_takeBlocks {s₀ s : State} (hk : Keep s₀ s) (st r a) :
    Keep s₀ (takeBlocks s st r a).1 := by
  refine hk.trans ?_
  clear hk
  induction a generalizing s st r with
  | zero => unfold takeBlocks; exact Keep.refl
  | succ kk ih =>
    have ihk : ∀ {s₀ s : State} (y1 : _) (y2 : _), Keep s₀ s → Keep s₀ (takeBlocks s y1 y2 kk).1 := by intros; exact Keep.trans ‹_› (ih ..)
    clear ih
    unfold takeBlocks
    repeat' first
      | with_reducible apply Keep.refl
      | with_reducible apply ihk
      | with_reducible apply keep_chargeStream
      | with_reducible apply Keep.iteFst

theorem keep_returnBlocks {s₀ s : State} (hk : Keep s₀ s) (st n) :
    Keep s₀ (returnBlocks s st n) := by
  refine hk.trans ?_
  clear hk
  unfold returnBlocks
  repeat' first
    | with_reducible apply Keep.refl
    | with_reducible apply keep_dischargeStream
    | with_reducible apply Keep.foldl
    | intro _

/-! ### Engine -/

theorem keep_unitNeeds {s₀ s : State} (hk : Keep s₀ s) (p f r c n) :
    Keep s₀ (unitNeeds s p f r c n).1 := by
  refine hk.trans ?_
  clear hk
  unfold unitNeeds
  dsimp only
  repeat' first
    | with_reducible apply Keep.refl
    | with_reducible apply keep_ensureBags
    | with_reducible apply keep_ensureIdx
    | with_reducible apply Keep.iteFst
    | split

theorem keep_unitAnswer {s₀ s : State} (hk : Keep s₀ s) (p f r j n) :
    Keep s₀ (unitAnswer s p f r j n).1 := by
  refine hk.trans ?_
  clear hk
  unfold unitAnswer
  dsimp only
  repeat' first
    | with_reducible apply Keep.refl
    | with_reducible apply keep_unitNeeds
    | with_reducible apply Keep.iteFst
    | split

theorem keep_unitReady {s₀ s : State} (hk : Keep s₀ s) (p f r j n) :
    Keep s₀ (unitReady s p f r j n).1 := by
  refine hk.trans ?_
  clear hk
  unfold unitReady
  dsimp only
  repeat' first
    | with_reducible apply Keep.refl
    | with_reducible apply keep_unitAnswer
    | with_reducible apply Keep.iteFst
    | with_reducible apply Keep.foldlFst
    | intro _

theorem keep_firstReady {s₀ s : State} (hk : Keep s₀ s) (p f r j a) :
    Keep s₀ (firstReady s p f r j a).1 := by
  refine hk.trans ?_
  clear hk
  induction a generalizing s p f r j with
  | nil => unfold firstReady; exact Keep.refl
  | cons e kk ih =>
    have ihk : ∀ {s₀ s : State} (y1 : _) (y2 : _) (y3 : _) (y4 : _), Keep s₀ s → Keep s₀ (firstReady s y1 y2 y3 y4 kk).1 := by intros; exact Keep.trans ‹_› (ih ..)
    clear ih
    unfold firstReady
    dsimp only
    repeat' first
      | with_reducible apply Keep.refl
      | with_reducible apply ihk
      | with_reducible apply keep_unitReady
      | with_reducible apply Keep.iteFst

theorem keep_stageReady {s₀ s : State} (hk : Keep s₀ s) (p f r j) :
    Keep s₀ (stageReady s p f r j).1 := by
  refine hk.trans ?_
  clear hk
  unfold stageReady
  repeat' first
    | with_reducible apply Keep.refl
    | with_reducible apply keep_firstReady
    | with_reducible apply Keep.iteFst

theorem keep_ensureWeights {s₀ s : State} (hk : Keep s₀ s) (r c n ks) :
    Keep s₀ (ensureWeights s r c n ks).1 := by
  refine hk.trans ?_
  clear hk
  unfold ensureWeights
  dsimp only
  repeat' first
    | with_reducible apply Keep.refl
    | with_reducible apply keep_readElems
    | with_reducible apply Keep.iteFst
    | split

theorem keep_ensureUnit {s₀ s : State} (hk : Keep s₀ s) (r c n u) :
    Keep s₀ (ensureUnit s r c n u).1 := by
  refine hk.trans ?_
  clear hk
  unfold ensureUnit
  dsimp only
  repeat' first
    | with_reducible apply Keep.refl
    | with_reducible apply keep_ensureWeights
    | with_reducible apply keep_ensureBags
    | with_reducible apply keep_ensureIdx
    | with_reducible apply Keep.iteFst
    | split

theorem keep_loadRowAt {s₀ s : State} (hk : Keep s₀ s) (p r c u n i) :
    Keep s₀ (loadRowAt s p r c u n i).1 := by
  refine hk.trans ?_
  clear hk
  unfold loadRowAt
  dsimp only
  repeat' first
    | with_reducible apply Keep.refl
    | with_reducible apply keep_readElems
    | with_reducible apply keep_setPress
    | with_reducible apply keep_bump
    | split

theorem keep_loadAny {s₀ s : State} (hk : Keep s₀ s) (p c u n a) :
    Keep s₀ (loadAny s p c u n a).1 := by
  refine hk.trans ?_
  clear hk
  induction a generalizing s p c u n with
  | nil => unfold loadAny; exact Keep.refl
  | cons e kk ih =>
    have ihk : ∀ {s₀ s : State} (y1 : _) (y2 : _) (y3 : _) (y4 : _), Keep s₀ s → Keep s₀ (loadAny s y1 y2 y3 y4 kk).1 := by intros; exact Keep.trans ‹_› (ih ..)
    clear ih
    unfold loadAny
    dsimp only
    repeat' first
      | with_reducible apply Keep.refl
      | with_reducible apply ihk
      | with_reducible apply keep_loadRowAt
      | with_reducible apply Keep.iteFst
      | split

theorem keep_loadRow {s₀ s : State} (hk : Keep s₀ s) (p r c u n) :
    Keep s₀ (loadRow s p r c u n).1 := by
  refine hk.trans ?_
  clear hk
  unfold loadRow
  dsimp only
  repeat' first
    | with_reducible apply Keep.refl
    | with_reducible apply keep_loadAny
    | with_reducible apply keep_ensureUnit
    | with_reducible apply keep_setPress
    | split

theorem keep_macStep {s₀ s : State} (hk : Keep s₀ s) (p f r c u n) :
    Keep s₀ (macStep s p f r c u n) := by
  refine hk.trans ?_
  clear hk
  unfold macStep
  dsimp only
  repeat' first
    | with_reducible apply Keep.refl
    | with_reducible apply keep_setPress
    | with_reducible apply Keep.ite

theorem keep_askBlocks {s₀ s : State} (hk : Keep s₀ s) (r c t now bs) :
    Keep s₀ (askBlocks s r c t now bs).1 := by
  refine hk.trans ?_
  clear hk
  unfold askBlocks
  dsimp only
  repeat' first
    | with_reducible apply Keep.refl
    | with_reducible apply keep_askElems
    | with_reducible apply Keep.iteFst
    | with_reducible apply Keep.foldlFst
    | intro _

theorem keep_mayFeed {s₀ s : State} (hk : Keep s₀ s) (r c t) :
    Keep s₀ (mayFeed s r c t).1 := by
  refine hk.trans ?_
  clear hk
  unfold mayFeed
  dsimp only
  repeat' first
    | with_reducible apply Keep.refl
    | with_reducible apply keep_askBlocks
    | with_reducible apply Keep.iteFst

theorem keep_feedBlock {s₀ s : State} (hk : Keep s₀ s) (p r c u) :
    Keep s₀ (feedBlock s p r c u).1 := by
  refine hk.trans ?_
  clear hk
  unfold feedBlock
  dsimp only
  repeat' first
    | with_reducible apply Keep.refl
    | with_reducible apply keep_mayFeed
    | with_reducible apply keep_addClamped
    | with_reducible apply keep_readElems
    | with_reducible apply keep_setTable
    | with_reducible apply keep_bump
    | with_reducible apply Keep.iteFst
    | simp only [Keep.mk_iff]
    | split

theorem keep_knowAhead {s₀ s : State} (hk : Keep s₀ s) (r c w xs) (take : State → Run → State × Run × ROut)
    (ht : ∀ {s₀ s : State}, Keep s₀ s → ∀ r, Keep s₀ (take s r).1) : Keep s₀ (knowAhead s r c w xs take).1 := by
  refine hk.trans ?_
  clear hk
  unfold knowAhead
  dsimp only
  split
  · exact Keep.refl
  · split
    · exact ht (keep_askElems Keep.refl _ _ _ _ _) _
    · exact keep_askElems Keep.refl _ _ _ _ _

theorem keep_knowUnit {s₀ s : State} (hk : Keep s₀ s) (p f r c n) : Keep s₀ (knowUnit s p f r c n).1 := by
  refine hk.trans ?_
  clear hk
  unfold knowUnit
  dsimp only
  have hb : ∀ xs g, Keep s (knowAhead s r c { role := 4 } xs (fun s r => ensureBags s r c g)).1 := fun xs g =>
    keep_knowAhead Keep.refl _ _ _ _ _ (fun h _ => keep_ensureBags h _ _ _)
  specialize hb ((bagNeed r c (n / poolSpan / max 1 (poolRuns c))).map (ofLogical c.offs.tensor.ext))
    (n / poolSpan / max 1 (poolRuns c))
  generalize knowAhead s r c { role := 4 } _ _ = b at hb ⊢
  split
  · generalize (if usesIdx c.op = true then _ else ([] : List Nat)) = ks
    rw [apply_ite Prod.fst]
    split
    · exact hb
    · exact keep_knowAhead hb _ _ _ _ _ (fun h _ => keep_ensureIdx h _ _ _ _)
  · exact hb

theorem keep_askRows {s₀ s : State} (hk : Keep s₀ s) (p f r c n i) :
    Keep s₀ (askRows s p f r c n i).1 := by
  refine hk.trans ?_
  clear hk
  unfold askRows
  dsimp only
  repeat' first
    | with_reducible apply Keep.refl
    | with_reducible apply keep_askBlocks
    | with_reducible apply keep_askElems
    | with_reducible apply Keep.iteFst
    | with_reducible apply Keep.foldlFst
    | intro _

theorem keep_askUnits {s₀ s : State} (hk : Keep s₀ s) (p f r c stop k n i) :
    Keep s₀ (askUnits s p f r c stop k n i).1 := by
  refine hk.trans ?_
  clear hk
  induction k generalizing s r n i with
  | zero => exact Keep.refl
  | succ k ih =>
    unfold askUnits
    split
    · exact Keep.refl
    · dsimp only
      split
      · split
        · exact keep_askRows (keep_knowUnit Keep.refl _ _ _ _ _) _ _ _ _ _ _
        · exact (keep_askRows (keep_knowUnit Keep.refl _ _ _ _ _) _ _ _ _ _ _).trans (ih _ _ _)
      · exact keep_knowUnit Keep.refl _ _ _ _ _

theorem keep_askOrder {s₀ s : State} (hk : Keep s₀ s) (p f r c a) :
    Keep s₀ (askOrder s p f r c a).1 := by
  refine hk.trans ?_
  clear hk
  induction a generalizing s p f r c with
  | zero => unfold askOrder; exact Keep.refl
  | succ kk ih =>
    have ihk : ∀ {s₀ s : State} (y1 : _) (y2 : _) (y3 : _) (y4 : _), Keep s₀ s → Keep s₀ (askOrder s y1 y2 y3 y4 kk).1 := by intros; exact Keep.trans ‹_› (ih ..)
    clear ih
    unfold askOrder
    dsimp only
    repeat' first
      | with_reducible apply Keep.refl
      | with_reducible apply ihk
      | with_reducible apply keep_askElems
      | with_reducible apply Keep.iteFst
      | split

theorem keep_readAhead {s₀ s : State} (hk : Keep s₀ s) (p f r) :
    Keep s₀ (readAhead s p f r).1 := by
  refine hk.trans ?_
  clear hk
  unfold readAhead
  dsimp only
  repeat' first
    | with_reducible apply Keep.refl
    | with_reducible apply keep_askOrder
    | with_reducible apply keep_askUnits
    | with_reducible apply Keep.iteFst
    | with_reducible apply Keep.foldlFst
    | intro _

/-! ### Passes -/

theorem keep_putRun {s₀ s : State} (hk : Keep s₀ s) (p r) :
    Keep s₀ (putRun s p r) := by
  refine hk.trans ?_
  clear hk
  unfold putRun
  dsimp only
  repeat' first
    | with_reducible apply Keep.refl
    | with_reducible apply keep_setPress

theorem keep_markFallen {s₀ s : State} (hk : Keep s₀ s) (p fid j keys) :
    Keep s₀ (markFallen s p fid j keys) := by
  refine hk.trans ?_
  clear hk
  unfold markFallen
  dsimp only
  repeat' first
    | with_reducible apply Keep.refl
    | with_reducible apply keep_updRun
    | with_reducible apply keep_bumpFld
    | split

theorem keep_loseUnit {s₀ s : State} (hk : Keep s₀ s) (p f r c n) :
    Keep s₀ (loseUnit s p f r c n) := by
  refine hk.trans ?_
  clear hk
  unfold loseUnit
  dsimp only
  repeat' first
    | with_reducible apply Keep.refl
    | with_reducible apply keep_markFallen
    | with_reducible apply keep_updRun
    | with_reducible apply Keep.ite
    | split

theorem keep_loseOutputs {s₀ s : State} (hk : Keep s₀ s) (p f c n ds) :
    Keep s₀ (loseOutputs s p f c n ds) := by
  refine hk.trans ?_
  clear hk
  unfold loseOutputs
  dsimp only
  repeat' first
    | with_reducible apply Keep.refl
    | with_reducible apply keep_markFallen
    | with_reducible apply keep_updRun
    | with_reducible apply Keep.ite
    | split

theorem keep_closeGroup {s₀ s : State} (hk : Keep s₀ s) (p f r c n v) :
    Keep s₀ (closeGroup s p f r c n v) := by
  refine hk.trans ?_
  clear hk
  unfold closeGroup
  dsimp only
  repeat' first
    | with_reducible apply Keep.refl
    | with_reducible apply keep_updRun
    | with_reducible apply keep_setPress
    | with_reducible apply Keep.ite

theorem keep_advanceUnit {s₀ s : State} (hk : Keep s₀ s) (p f c n) :
    Keep s₀ (advanceUnit s p f c n) := by
  refine hk.trans ?_
  clear hk
  unfold advanceUnit
  dsimp only
  repeat' first
    | with_reducible apply Keep.refl
    | with_reducible apply keep_closeGroup
    | with_reducible apply keep_returnBlocks
    | with_reducible apply keep_updRun
    | with_reducible apply keep_setPress
    | split

theorem keep_stopDecant {s₀ s : State} (hk : Keep s₀ s) (p f c n) :
    Keep s₀ (stopDecant s p f c n) := by
  refine hk.trans ?_
  clear hk
  unfold stopDecant
  dsimp only
  repeat' first
    | with_reducible apply Keep.refl
    | with_reducible apply keep_updRun
    | with_reducible apply keep_writeJournal
    | with_reducible apply Keep.ite
    | split

theorem keep_abandonUnit {s₀ s : State} (hk : Keep s₀ s) (p f c n cause) :
    Keep s₀ (abandonUnit s p f c n cause) := by
  refine hk.trans ?_
  clear hk
  unfold abandonUnit
  dsimp only
  repeat' first
    | with_reducible apply Keep.refl
    | with_reducible apply keep_stopDecant
    | with_reducible apply keep_advanceUnit
    | with_reducible apply keep_loseUnit
    | with_reducible apply keep_leaveOuts
    | with_reducible apply keep_lotFailed
    | with_reducible apply keep_releaseTable
    | with_reducible apply keep_updCnt
    | with_reducible apply keep_bump
    | with_reducible apply Keep.ite
    | split

theorem keep_takeUnit {s₀ s : State} (hk : Keep s₀ s) (p f r j n) :
    Keep s₀ (takeUnit s p f r j n) := by
  refine hk.trans ?_
  clear hk
  unfold takeUnit
  dsimp only
  repeat' first
    | with_reducible apply Keep.refl
    | with_reducible apply keep_setPress

theorem keep_pickStage {s₀ s : State} (hk : Keep s₀ s) (p f a) :
    Keep s₀ (pickStage s p f a) := by
  refine hk.trans ?_
  clear hk
  induction a generalizing s p f with
  | zero => unfold pickStage; exact Keep.refl
  | succ kk ih =>
    have ihk : ∀ {s₀ s : State} (y1 : _) (y2 : _), Keep s₀ s → Keep s₀ (pickStage s y1 y2 kk) := by intros; exact Keep.trans ‹_› (ih ..)
    clear ih
    unfold pickStage
    dsimp only
    repeat' first
      | with_reducible apply Keep.refl
      | with_reducible apply ihk
      | with_reducible apply keep_takeUnit
      | with_reducible apply keep_abandonUnit
      | with_reducible apply keep_putRun
      | with_reducible apply keep_stageReady
      | with_reducible apply Keep.ite
      | split

theorem keep_pickUnit {s₀ s : State} (hk : Keep s₀ s) (p a) :
    Keep s₀ (pickUnit s p a) := by
  refine hk.trans ?_
  clear hk
  induction a generalizing s p with
  | zero => unfold pickUnit; exact Keep.refl
  | succ kk ih =>
    have ihk : ∀ {s₀ s : State} (y1 : _), Keep s₀ s → Keep s₀ (pickUnit s y1 kk) := by intros; exact Keep.trans ‹_› (ih ..)
    clear ih
    unfold pickUnit
    dsimp only
    repeat' first
      | with_reducible apply Keep.refl
      | with_reducible apply ihk
      | with_reducible apply keep_pickStage
      | with_reducible apply keep_putRun
      | with_reducible apply Keep.ite
      | split

theorem keep_commitTiles {s₀ s : State} (hk : Keep s₀ s) (p f a) :
    Keep s₀ (commitTiles s p f a) := by
  refine hk.trans ?_
  clear hk
  induction a generalizing s p f with
  | zero => unfold commitTiles; exact Keep.refl
  | succ kk ih =>
    have ihk : ∀ {s₀ s : State} (y1 : _) (y2 : _), Keep s₀ s → Keep s₀ (commitTiles s y1 y2 kk) := by intros; exact Keep.trans ‹_› (ih ..)
    clear ih
    unfold commitTiles
    dsimp only
    repeat' first
      | with_reducible apply Keep.refl
      | with_reducible apply ihk
      | with_reducible apply keep_updRun
      | with_reducible apply keep_writeJournal
      | with_reducible apply Keep.ite
      | split

theorem keep_commitFor {s₀ s : State} (hk : Keep s₀ s) (p fid) :
    Keep s₀ (commitFor s p fid) := by
  refine hk.trans ?_
  clear hk
  unfold commitFor
  repeat' first
    | with_reducible apply Keep.refl
    | with_reducible apply keep_commitTiles
    | with_reducible apply Keep.ite
    | split

theorem keep_completeFlight {s₀ s : State} (hk : Keep s₀ s) (p fid) :
    Keep s₀ (completeFlight s p fid) := by
  refine hk.trans ?_
  clear hk
  unfold completeFlight
  dsimp only
  repeat' first
    | with_reducible apply Keep.refl
    | with_reducible apply keep_setFlight
    | with_reducible apply keep_setPress
    | with_reducible apply Keep.ite
    | split

theorem keep_finishRun {s₀ s : State} (hk : Keep s₀ s) (p f r) :
    Keep s₀ (finishRun s p f r) := by
  refine hk.trans ?_
  clear hk
  unfold finishRun
  dsimp only
  repeat' first
    | with_reducible apply Keep.refl
    | with_reducible apply keep_completeFlight
    | with_reducible apply keep_dropHandBlocks
    | with_reducible apply keep_releaseTable
    | with_reducible apply keep_setPress
    | split

theorem keep_conclude {s₀ s : State} (hk : Keep s₀ s) (p) :
    Keep s₀ (conclude s p) := by
  refine hk.trans ?_
  clear hk
  unfold conclude
  dsimp only
  repeat' first
    | with_reducible apply Keep.refl
    | with_reducible apply keep_finishRun
    | with_reducible apply keep_completeFlight
    | with_reducible apply keep_commitTiles
    | with_reducible apply keep_pickUnit
    | with_reducible apply keep_putRun
    | with_reducible apply Keep.ite
    | split

theorem keep_settle {s₀ s : State} (hk : Keep s₀ s) (p) :
    Keep s₀ (settle s p) := by
  refine hk.trans ?_
  clear hk
  unfold settle
  dsimp only
  repeat' first
    | with_reducible apply Keep.refl
    | with_reducible apply keep_conclude
    | with_reducible apply keep_putRun
    | with_reducible apply keep_readAhead
    | split

theorem keep_storeHere {s₀ s : State} (hk : Keep s₀ s) (r w t ps) :
    Keep s₀ (storeHere s r w t ps).1 := by
  refine hk.trans ?_
  clear hk
  unfold storeHere
  dsimp only
  repeat' first
    | with_reducible apply Keep.refl
    | with_reducible apply keep_storeLocal
    | with_reducible apply keep_emit
    | with_reducible apply Keep.iteFst
    | split

theorem keep_storeTarget {s₀ s : State} (hk : Keep s₀ s) (r w t ps runs lost) :
    Keep s₀ (storeTarget s r w t ps runs lost).1 := by
  refine hk.trans ?_
  clear hk
  unfold storeTarget
  dsimp only
  repeat' first
    | with_reducible apply Keep.refl
    | with_reducible apply keep_storeHere
    | with_reducible apply keep_storeRuns
    | with_reducible apply keep_storeLocal
    | with_reducible apply Keep.iteFst

theorem keep_recordPass {s₀ s : State} (hk : Keep s₀ s) (p f c n blend z board) :
    Keep s₀ (recordPass s p f c n blend z board) := by
  refine hk.trans ?_
  clear hk
  unfold recordPass
  dsimp only
  repeat' first
    | with_reducible apply Keep.refl
    | with_reducible apply keep_updRun
    | with_reducible apply keep_addDone
    | with_reducible apply keep_setPress
    | with_reducible apply keep_rset

theorem keep_turnBoards {s₀ s : State} (hk : Keep s₀ s) (p c n u) :
    Keep s₀ (turnBoards s p c n u) := by
  refine hk.trans ?_
  clear hk
  unfold turnBoards
  dsimp only
  repeat' first
    | with_reducible apply Keep.refl
    | with_reducible apply keep_setPress
    | with_reducible apply Keep.ite

theorem keep_handOver {s₀ s : State} (hk : Keep s₀ s) (p f c n) :
    Keep s₀ (handOver s p f c n) := by
  refine hk.trans ?_
  clear hk
  unfold handOver
  dsimp only
  repeat' first
    | with_reducible apply Keep.refl
    | with_reducible apply keep_setPress
    | with_reducible apply Keep.ite
    | split

theorem keep_sendDirect {s₀ s : State} (hk : Keep s₀ s) (p f r c n) :
    Keep s₀ (sendDirect s p f r c n).1 := by
  refine hk.trans ?_
  clear hk
  unfold sendDirect
  dsimp only
  repeat' first
    | with_reducible apply Keep.refl
    | with_reducible apply keep_recordPass
    | with_reducible apply keep_advanceUnit
    | with_reducible apply keep_storeRuns
    | with_reducible apply keep_updRun
    | split

theorem keep_macUnit {s₀ s : State} (hk : Keep s₀ s) (p f r c u n) :
    Keep s₀ (macUnit s p f r c u n).1 := by
  refine hk.trans ?_
  clear hk
  unfold macUnit
  repeat' first
    | with_reducible apply Keep.refl
    | with_reducible apply keep_abandonUnit
    | with_reducible apply keep_advanceUnit
    | with_reducible apply keep_macStep
    | with_reducible apply Keep.iteFst

theorem keep_encodeAll {s₀ s : State} (hk : Keep s₀ s) (r c ts outs keys) :
    Keep s₀ (encodeAll s r c ts outs keys).1 := by
  refine hk.trans ?_
  clear hk
  unfold encodeAll
  dsimp only
  repeat' first
    | with_reducible apply Keep.refl
    | with_reducible apply keep_encodeUnit
    | with_reducible apply Keep.foldlFst
    | intro _
    | split

theorem keep_storeElems {s₀ s : State} (hk : Keep s₀ s) (p f r c u n) :
    Keep s₀ (storeElems s p f r c u n).1 := by
  refine hk.trans ?_
  clear hk
  unfold storeElems
  dsimp only
  repeat' first
    | with_reducible apply Keep.refl
    | with_reducible apply keep_encodeAll
    | with_reducible apply keep_handOver
    | with_reducible apply keep_turnBoards
    | with_reducible apply keep_recordPass
    | with_reducible apply keep_storeTarget
    | with_reducible apply keep_abandonUnit
    | with_reducible apply keep_advanceUnit
    | with_reducible apply keep_loseOutputs
    | with_reducible apply keep_putRun
    | with_reducible apply keep_takeBlocks
    | with_reducible apply keep_sendAtomics
    | with_reducible apply keep_blendLocal
    | with_reducible apply keep_releaseTable
    | with_reducible apply keep_writeJournal
    | with_reducible apply keep_ensureIdx
    | with_reducible apply keep_ensureShards
    | with_reducible apply Keep.ite
    | with_reducible apply Keep.iteFst
    | with_reducible apply Keep.foldlFst
    | intro _
    | simp only [Keep.mk_iff]
    | split

theorem keep_storeUnit {s₀ s : State} (hk : Keep s₀ s) (p) :
    Keep s₀ (storeUnit s p).1 := by
  refine hk.trans ?_
  clear hk
  unfold storeUnit
  dsimp only
  repeat' first
    | with_reducible apply Keep.refl
    | with_reducible apply keep_storeElems
    | with_reducible apply keep_macUnit
    | with_reducible apply keep_sendDirect
    | with_reducible apply Keep.iteFst
    | split

theorem keep_holdTable {s₀ s : State} (hk : Keep s₀ s) (p) :
    Keep s₀ (holdTable s p).1 := by
  refine hk.trans ?_
  clear hk
  unfold holdTable
  repeat' first
    | with_reducible apply Keep.refl
    | with_reducible apply keep_requestTable
    | with_reducible apply Keep.iteFst

theorem keep_ensureAllBags {s₀ s : State} (hk : Keep s₀ s) (r c) :
    Keep s₀ (ensureAllBags s r c).1 := by
  refine hk.trans ?_
  clear hk
  unfold ensureAllBags
  repeat' first
    | with_reducible apply Keep.refl
    | with_reducible apply keep_ensureBags
    | with_reducible apply Keep.foldlFst
    | intro _
    | split

theorem keep_coalSort {s₀ s : State} (hk : Keep s₀ s) (p f r c run) :
    Keep s₀ (coalSort s p f r c run).1 := by
  refine hk.trans ?_
  clear hk
  unfold coalSort
  dsimp only
  repeat' first
    | with_reducible apply Keep.refl
    | with_reducible apply keep_ensureAllBags
    | with_reducible apply keep_abandonUnit
    | with_reducible apply keep_putRun
    | with_reducible apply keep_releaseTable
    | with_reducible apply keep_ensureIdx
    | simp only [Keep.mk_iff]
    | split

theorem keep_loadAtHand {s₀ s : State} (hk : Keep s₀ s) (p r f) :
    Keep s₀ (loadAtHand s p r f).1 := by
  refine hk.trans ?_
  clear hk
  unfold loadAtHand
  dsimp only
  repeat' first
    | with_reducible apply Keep.refl
    | with_reducible apply keep_loadRow
    | with_reducible apply Keep.iteFst

theorem keep_loadUnit {s₀ s : State} (hk : Keep s₀ s) (p) :
    Keep s₀ (loadUnit s p).1 := by
  refine hk.trans ?_
  clear hk
  unfold loadUnit
  dsimp only
  repeat' first
    | with_reducible apply Keep.refl
    | with_reducible apply keep_loadAtHand
    | with_reducible apply keep_coalSort
    | with_reducible apply keep_holdTable
    | with_reducible apply keep_abandonUnit
    | with_reducible apply keep_putRun
    | with_reducible apply keep_feedBlock
    | with_reducible apply keep_loadRow
    | with_reducible apply keep_ensureBags
    | with_reducible apply Keep.iteFst
    | split

theorem keep_ensureDirect {s₀ s : State} (hk : Keep s₀ s) (p f a) :
    Keep s₀ (ensureDirect s p f a) := by
  refine hk.trans ?_
  clear hk
  induction a generalizing s p f with
  | zero => unfold ensureDirect; exact Keep.refl
  | succ kk ih =>
    have ihk : ∀ {s₀ s : State} (y1 : _) (y2 : _), Keep s₀ s → Keep s₀ (ensureDirect s y1 y2 kk) := by intros; exact Keep.trans ‹_› (ih ..)
    clear ih
    unfold ensureDirect
    dsimp only
    repeat' first
      | with_reducible apply Keep.refl
      | with_reducible apply ihk
      | with_reducible apply keep_putRun
      | with_reducible apply keep_lotFailed
      | with_reducible apply keep_ensureShards
      | with_reducible apply Keep.ite
      | split

theorem keep_startRun {s₀ s : State} (hk : Keep s₀ s) (p) :
    Keep s₀ (startRun s p) := by
  refine hk.trans ?_
  clear hk
  unfold startRun
  dsimp only
  repeat' first
    | with_reducible apply Keep.refl
    | with_reducible apply keep_ensureDirect
    | with_reducible apply keep_settle
    | with_reducible apply keep_setPress
    | with_reducible apply Keep.ite
    | split

theorem keep_sendRecall {s₀ s : State} (hk : Keep s₀ s) (o node) :
    Keep s₀ (sendRecall s o node) := by
  refine hk.trans ?_
  clear hk
  unfold sendRecall
  dsimp only
  repeat' first
    | with_reducible apply Keep.refl
    | with_reducible apply keep_sendTxn
    | with_reducible apply keep_bump

theorem keep_failTxn {s₀ s : State} (hk : Keep s₀ s) (unit key) :
    Keep s₀ (failTxn s unit key) := by
  refine hk.trans ?_
  clear hk
  unfold failTxn
  dsimp only
  repeat' first
    | with_reducible apply Keep.refl
    | with_reducible apply keep_sendRecall
    | with_reducible apply keep_tryLetGo
    | with_reducible apply keep_updCnt
    | with_reducible apply keep_retireOut
    | with_reducible apply keep_setOut
    | with_reducible apply keep_dischargeStream
    | with_reducible apply Keep.ite
    | with_reducible apply Keep.foldl
    | intro _
    | split

theorem keep_passTxn {s₀ s : State} (hk : Keep s₀ s) (unit key) :
    Keep s₀ (passTxn s unit key) := by
  refine hk.trans ?_
  clear hk
  unfold passTxn
  dsimp only
  repeat' first
    | with_reducible apply Keep.refl
    | with_reducible apply keep_tryLetGo
    | with_reducible apply keep_retireOut
    | with_reducible apply keep_setOut
    | with_reducible apply Keep.ite
    | split

theorem keep_judge {s₀ s : State} (hk : Keep s₀ s) (p w fault) :
    Keep s₀ (judge s p w fault) := by
  refine hk.trans ?_
  clear hk
  unfold judge
  dsimp only
  repeat' first
    | with_reducible apply Keep.refl
    | with_reducible apply keep_passTxn
    | with_reducible apply keep_failTxn
    | with_reducible apply keep_stopDecant
    | with_reducible apply keep_loseUnit
    | with_reducible apply keep_lotFailed
    | with_reducible apply keep_updRun
    | with_reducible apply keep_updCnt
    | with_reducible apply Keep.foldl
    | with_reducible apply keep_setMem
    | with_reducible apply sbWrite_keep
    | with_reducible apply sbPut_keep
    | with_reducible apply MemKeep.ite
    | with_reducible apply MemKeep.foldl
    | with_reducible apply MemKeep.refl
    | intro _
    | split

theorem keep_judgeOldest {s₀ s : State} (hk : Keep s₀ s) (p fault) :
    Keep s₀ (judgeOldest s p fault) := by
  refine hk.trans ?_
  clear hk
  unfold judgeOldest
  dsimp only
  repeat' first
    | with_reducible apply Keep.refl
    | with_reducible apply keep_judge
    | with_reducible apply keep_settle
    | with_reducible apply keep_completeFlight
    | with_reducible apply keep_commitFor
    | with_reducible apply keep_setPress
    | split

theorem keep_advance {s₀ s : State} (hk : Keep s₀ s) (p a) :
    Keep s₀ (advance s p a) := by
  refine hk.trans ?_
  clear hk
  induction a generalizing s p with
  | zero => unfold advance; exact Keep.refl
  | succ kk ih =>
    have ihk : ∀ {s₀ s : State} (y1 : _), Keep s₀ s → Keep s₀ (advance s y1 kk) := by intros; exact Keep.trans ‹_› (ih ..)
    clear ih
    unfold advance
    dsimp only
    repeat' first
      | with_reducible apply Keep.refl
      | with_reducible apply ihk
      | with_reducible apply keep_loadUnit
      | with_reducible apply keep_storeUnit
      | with_reducible apply keep_settle
      | with_reducible apply Keep.ite

theorem keep_runOp {s₀ s : State} (hk : Keep s₀ s) (p op) :
    Keep s₀ (runOp s p op) := by
  refine hk.trans ?_
  clear hk
  unfold runOp
  dsimp only
  repeat' first
    | with_reducible apply Keep.refl
    | with_reducible apply keep_advance
    | with_reducible apply keep_startRun
    | with_reducible apply Keep.ite
    | split

/-! ### Overlap -/

theorem keep_stageFoots {s₀ s : State} (hk : Keep s₀ s) (p r a) :
    Keep s₀ (stageFoots s p r a).1 := by
  refine hk.trans ?_
  clear hk
  induction a generalizing s p r with
  | nil => unfold stageFoots; exact Keep.refl
  | cons e kk ih =>
    have ihk : ∀ {s₀ s : State} (y1 : _) (y2 : _), Keep s₀ s → Keep s₀ (stageFoots s y1 y2 kk).1 := by intros; exact Keep.trans ‹_› (ih ..)
    clear ih
    unfold stageFoots
    dsimp only
    repeat' first
      | with_reducible apply Keep.refl
      | with_reducible apply ihk
      | with_reducible apply keep_issueRead
      | with_reducible apply Keep.iteFst
      | with_reducible apply Keep.foldlFst
      | intro _

theorem keep_turnAway {s₀ s : State} (hk : Keep s₀ s) (p f) :
    Keep s₀ (turnAway s p f) := by
  refine hk.trans ?_
  clear hk
  unfold turnAway
  dsimp only
  repeat' first
    | with_reducible apply Keep.refl
    | with_reducible apply keep_setFlight
    | with_reducible apply keep_setPress

theorem keep_accept {s₀ s : State} (hk : Keep s₀ s) (p f) :
    Keep s₀ (accept s p f) := by
  refine hk.trans ?_
  clear hk
  unfold accept
  dsimp only
  repeat' first
    | with_reducible apply Keep.refl
    | with_reducible apply keep_turnAway
    | with_reducible apply keep_stageFoots
    | with_reducible apply keep_markFallen
    | with_reducible apply keep_updCnt
    | with_reducible apply keep_setFlight
    | with_reducible apply keep_setPress
    | with_reducible apply keep_bump
    | with_reducible apply keep_bumpFld
    | with_reducible apply Keep.ite
    | with_reducible apply Keep.foldl
    | intro _

theorem keep_copyLines {s₀ s : State} (hk : Keep s₀ s) (c base foots) :
    Keep s₀ (copyLines s c base foots) := by
  refine hk.trans ?_
  clear hk
  unfold copyLines
  dsimp only
  repeat' first
    | with_reducible apply Keep.refl
    | with_reducible apply keep_noteStops
    | with_reducible apply keep_noteRefused
    | exact MemKeep.trans (memPutAll_keep _ _) (MemKeep.cells rfl)
    | with_reducible apply Keep.foldl
    | with_reducible apply keep_setMem
    | with_reducible apply sbPut_keep
    | with_reducible apply MemKeep.foldl
    | with_reducible apply MemKeep.refl
    | intro _
    | split

/-! ### Presses -/

theorem keep_execRack (s : State) (p) :
    KeepOut s (execRack p s) := by
  unfold execRack
  repeat' first
    | with_reducible apply Keep.refl
    | with_reducible apply KeepOut.next
    | with_reducible apply keep_runOp

theorem keep_execRiddle (s : State) (p) :
    KeepOut s (execRiddle p s) := by
  unfold execRiddle
  repeat' first
    | with_reducible apply Keep.refl
    | with_reducible apply KeepOut.next
    | with_reducible apply keep_runOp

theorem keep_execPermute (s : State) (p) :
    KeepOut s (execPermute p s) := by
  unfold execPermute
  repeat' first
    | with_reducible apply Keep.refl
    | with_reducible apply KeepOut.next
    | with_reducible apply keep_runOp

theorem keep_execFill (s : State) (p) :
    KeepOut s (execFill p s) := by
  unfold execFill
  repeat' first
    | with_reducible apply Keep.refl
    | with_reducible apply KeepOut.next
    | with_reducible apply keep_runOp

theorem keep_execDecant (s : State) (p) :
    KeepOut s (execDecant p s) := by
  unfold execDecant
  repeat' first
    | with_reducible apply Keep.refl
    | with_reducible apply KeepOut.next
    | with_reducible apply keep_runOp

theorem keep_execGather (s : State) (p) :
    KeepOut s (execGather p s) := by
  unfold execGather
  repeat' first
    | with_reducible apply Keep.refl
    | with_reducible apply KeepOut.next
    | with_reducible apply keep_runOp

theorem keep_execScatter (s : State) (p) :
    KeepOut s (execScatter p s) := by
  unfold execScatter
  repeat' first
    | with_reducible apply Keep.refl
    | with_reducible apply KeepOut.next
    | with_reducible apply keep_runOp

theorem keep_execScatterAdd (s : State) (p) :
    KeepOut s (execScatterAdd p s) := by
  unfold execScatterAdd
  repeat' first
    | with_reducible apply Keep.refl
    | with_reducible apply KeepOut.next
    | with_reducible apply keep_runOp

theorem keep_execPool (s : State) (p) :
    KeepOut s (execPool p s) := by
  unfold execPool
  repeat' first
    | with_reducible apply Keep.refl
    | with_reducible apply KeepOut.next
    | with_reducible apply keep_runOp

theorem keep_execInteract (s : State) (p) :
    KeepOut s (execInteract p s) := by
  unfold execInteract
  repeat' first
    | with_reducible apply Keep.refl
    | with_reducible apply KeepOut.next
    | with_reducible apply keep_runOp

theorem keep_execSort (s : State) (p) :
    KeepOut s (execSort p s) := by
  unfold execSort
  repeat' first
    | with_reducible apply Keep.refl
    | with_reducible apply KeepOut.next
    | with_reducible apply keep_runOp

theorem keep_execTopk (s : State) (p) :
    KeepOut s (execTopk p s) := by
  unfold execTopk
  repeat' first
    | with_reducible apply Keep.refl
    | with_reducible apply KeepOut.next
    | with_reducible apply keep_runOp

theorem keep_execEgress (s : State) (p) :
    KeepOut s (execEgress p s) := by
  unfold execEgress
  repeat' first
    | with_reducible apply Keep.refl
    | with_reducible apply KeepOut.next
    | with_reducible apply keep_runOp

theorem keep_execMulticast (s : State) (p) :
    KeepOut s (execMulticast p s) := by
  unfold execMulticast
  repeat' first
    | with_reducible apply Keep.refl
    | with_reducible apply KeepOut.next
    | with_reducible apply keep_runOp

theorem keep_execBlend (s : State) (p) :
    KeepOut s (execBlend p s) := by
  unfold execBlend
  repeat' first
    | with_reducible apply Keep.refl
    | with_reducible apply KeepOut.next
    | with_reducible apply keep_runOp

theorem keep_loadOnce {s₀ s : State} (hk : Keep s₀ s) (p) :
    Keep s₀ (loadOnce s p) := by
  refine hk.trans ?_
  clear hk
  unfold loadOnce
  dsimp only
  repeat' first
    | with_reducible apply Keep.refl
    | with_reducible apply keep_startRun
    | with_reducible apply keep_loadUnit
    | with_reducible apply keep_settle

theorem keep_execLoadLineReturn (s : State) (p) :
    KeepOut s (execLoadLineReturn p s) := by
  unfold execLoadLineReturn
  repeat' first
    | with_reducible apply Keep.refl
    | with_reducible apply KeepOut.next
    | with_reducible apply keep_loadOnce

theorem keep_boardError {s₀ s : State} (hk : Keep s₀ s) (p) :
    Keep s₀ (boardError s p) := by
  refine hk.trans ?_
  clear hk
  unfold boardError
  dsimp only
  repeat' first
    | with_reducible apply Keep.refl
    | with_reducible apply keep_storeUnit
    | with_reducible apply keep_abandonUnit
    | with_reducible apply keep_putRun
    | with_reducible apply keep_setTable
    | with_reducible apply keep_setPress
    | with_reducible apply keep_bump
    | with_reducible apply Keep.ite
    | split

theorem keep_boardCorrected {s₀ s : State} (hk : Keep s₀ s) (p n) :
    Keep s₀ (boardCorrected s p n) := by
  refine hk.trans ?_
  clear hk
  unfold boardCorrected
  dsimp only
  repeat' first
    | with_reducible apply Keep.refl
    | with_reducible apply keep_storeUnit
    | with_reducible apply keep_bump
    | with_reducible apply keep_bumpFld
    | with_reducible apply Keep.ite
    | split

theorem keep_execPassStore (s : State) (p read) :
    KeepOut s (execPassStore p read s) := by
  unfold execPassStore
  dsimp only
  repeat' first
    | with_reducible apply Keep.refl
    | with_reducible apply KeepOut.next
    | with_reducible apply keep_boardCorrected
    | with_reducible apply keep_boardError
    | with_reducible apply keep_startRun
    | with_reducible apply keep_storeUnit
    | with_reducible apply keep_settle
    | split

theorem keep_failInLoad {s₀ s : State} (hk : Keep s₀ s) (p cause) :
    Keep s₀ (failInLoad s p cause) := by
  refine hk.trans ?_
  clear hk
  unfold failInLoad
  dsimp only
  repeat' first
    | with_reducible apply Keep.refl
    | with_reducible apply keep_settle
    | with_reducible apply keep_abandonUnit
    | with_reducible apply keep_bump
    | with_reducible apply Keep.ite
    | split

theorem keep_execLotVerdict (s : State) (p fault) :
    KeepOut s (execLotVerdict p fault s) := by
  unfold execLotVerdict
  repeat' first
    | with_reducible apply Keep.refl
    | with_reducible apply KeepOut.next
    | with_reducible apply keep_failInLoad
    | with_reducible apply keep_judgeOldest
    | with_reducible apply Keep.ite
    | split

theorem keep_putRead {s₀ s : State} (hk : Keep s₀ s) (p e) :
    Keep s₀ (putRead s p e) := by
  refine hk.trans ?_
  clear hk
  unfold putRead
  dsimp only
  repeat' first
    | with_reducible apply Keep.refl
    | with_reducible apply keep_setPress

theorem keep_failRead {s₀ s : State} (hk : Keep s₀ s) (p e again) :
    Keep s₀ (failRead s p e again) := by
  refine hk.trans ?_
  clear hk
  unfold failRead
  dsimp only
  repeat' first
    | with_reducible apply Keep.refl
    | with_reducible apply keep_putRead
    | with_reducible apply keep_trySend
    | with_reducible apply keep_bump
    | with_reducible apply Keep.ite

theorem keep_execFabricReadTimeout (s : State) (p tag) :
    KeepOut s (execFabricReadTimeout p tag s) := by
  unfold execFabricReadTimeout
  repeat' first
    | with_reducible apply Keep.refl
    | with_reducible apply KeepOut.next
    | with_reducible apply keep_failRead
    | with_reducible apply keep_settle
    | split

theorem keep_noteLines {s₀ s : State} (hk : Keep s₀ s) (fid a n) :
    Keep s₀ (noteLines s fid a n) := by
  refine hk.trans ?_
  clear hk
  unfold noteLines
  repeat' first
    | with_reducible apply Keep.refl
    | with_reducible apply keep_noteRefused
    | with_reducible apply Keep.foldl
    | intro _

theorem keep_landRead {s₀ s : State} (hk : Keep s₀ s) (p e data vtag lot) :
    Keep s₀ (landRead s p e data vtag lot) := by
  refine hk.trans ?_
  clear hk
  unfold landRead
  dsimp only
  repeat' first
    | with_reducible apply Keep.refl
    | with_reducible apply keep_noteLines
    | with_reducible apply keep_putRead
    | with_reducible apply keep_correctMerges
    | with_reducible apply Keep.ite
    | with_reducible apply keep_setMem
    | with_reducible apply storeBytes_keep
    | with_reducible apply sbWrite_keep
    | with_reducible apply MemKeep.foldl
    | intro _
    | split

theorem keep_execStagingCopyDone (s : State) (p) :
    KeepOut s (execStagingCopyDone p s) := by
  unfold execStagingCopyDone
  dsimp only
  repeat' first
    | with_reducible apply Keep.refl
    | with_reducible apply KeepOut.next
    | with_reducible apply keep_copyLines
    | with_reducible apply keep_settle
    | with_reducible apply keep_putRun
    | with_reducible apply Keep.ite
    | split

theorem keep_execSortTableGrant (s : State) (terrace) :
    KeepOut s (execSortTableGrant terrace s) := by
  unfold execSortTableGrant
  dsimp only
  repeat' first
    | with_reducible apply Keep.refl
    | with_reducible apply KeepOut.next
    | with_reducible apply keep_setTable
    | split

theorem keep_writeFrame {s₀ s : State} (hk : Keep s₀ s) (p dom fid bs) :
    Keep s₀ (writeFrame s p dom fid bs) := by
  refine hk.trans ?_
  clear hk
  unfold writeFrame
  repeat' first
    | with_reducible apply Keep.refl
    | with_reducible apply keep_noteLines
    | with_reducible apply keep_storeUnchecked
    | with_reducible apply Keep.ite
    | split

theorem keep_execSaveFrameDone (s : State) (p) :
    KeepOut s (execSaveFrameDone p s) := by
  unfold execSaveFrameDone
  dsimp only
  repeat' first
    | with_reducible apply Keep.refl
    | with_reducible apply KeepOut.next
    | with_reducible apply keep_writeFrame
    | with_reducible apply keep_accept
    | with_reducible apply keep_setFlight
    | with_reducible apply keep_setPress
    | split

theorem keep_restoreWords {s₀ s : State} (hk : Keep s₀ s) (p f r w) :
    Keep s₀ (restoreWords s p f r w).1 := by
  refine hk.trans ?_
  clear hk
  unfold restoreWords
  dsimp only
  repeat' first
    | with_reducible apply Keep.refl
    | with_reducible apply keep_updCnt

theorem keep_execResume (s : State) (p) :
    KeepOut s (execResume p s) := by
  unfold execResume
  dsimp only
  repeat' first
    | with_reducible apply Keep.refl
    | with_reducible apply KeepOut.next
    | with_reducible apply keep_restoreWords
    | with_reducible apply keep_noteLines
    | with_reducible apply keep_settle
    | with_reducible apply keep_recordUes
    | with_reducible apply keep_countCe
    | with_reducible apply keep_setFlight
    | with_reducible apply keep_setPress
    | with_reducible apply Keep.ite
    | split

theorem keep_storeComplete {s₀ s : State} (hk : Keep s₀ s) (p) :
    Keep s₀ (storeComplete s p) := by
  refine hk.trans ?_
  clear hk
  unfold storeComplete
  dsimp only
  repeat' first
    | with_reducible apply Keep.refl
    | with_reducible apply keep_storeUnit
    | with_reducible apply keep_conclude
    | with_reducible apply Keep.ite
    | split

theorem keep_preempt {s₀ s : State} (hk : Keep s₀ s) (p fid) :
    Keep s₀ (preempt s p fid) := by
  refine hk.trans ?_
  clear hk
  unfold preempt
  dsimp only
  repeat' first
    | with_reducible apply Keep.refl
    | with_reducible apply keep_storeComplete
    | with_reducible apply keep_returnBlocks
    | with_reducible apply keep_releaseTable
    | with_reducible apply keep_setPress
    | with_reducible apply keep_bump
    | with_reducible apply Keep.ite
    | split

/-! ### Slow -/

theorem keep_masterRead {s₀ s : State} (hk : Keep s₀ s) (a) :
    Keep s₀ (masterRead s a).1 := by
  refine hk.trans ?_
  clear hk
  unfold masterRead
  dsimp only
  repeat' first
    | with_reducible apply Keep.refl
    | with_reducible apply keep_recordUes
    | with_reducible apply keep_countCe
    | with_reducible apply keep_evUnmapped
    | with_reducible apply Keep.iteFst
    | split

theorem keep_masterWrite {s₀ s : State} (hk : Keep s₀ s) (rw : RegWr) (hrw : ∀ {s₀ s : State}, Keep s₀ s → ∀ o v, Keep s₀ (rw s o v)) (a bs) :
    Keep s₀ (masterWrite rw s a bs).1 := by
  refine hk.trans ?_
  clear hk
  unfold masterWrite
  dsimp only
  repeat' first
    | with_reducible apply Keep.refl
    | with_reducible apply keep_recordUeBlends
    | with_reducible apply keep_correctMerges
    | with_reducible apply keep_evRegDenied
    | with_reducible apply keep_evUnmapped
    | with_reducible apply hrw
    | with_reducible apply Keep.iteFst
    | with_reducible apply keep_setMem
    | with_reducible apply storeBytes_keep
    | split

theorem keep_slowSideband {s₀ s : State} (hk : Keep s₀ s) (as) :
    Keep s₀ (slowSideband s as) := by
  refine hk.trans ?_
  clear hk
  unfold slowSideband
  dsimp only
  repeat' first
    | with_reducible apply Keep.refl
    | with_reducible apply keep_setMem
    | with_reducible apply sbWrite_keep
    | with_reducible apply MemKeep.foldl
    | with_reducible apply MemKeep.refl
    | intro _

theorem note_s (z : SlowAcc) (a r) : (z.note a r).s = z.s := by
  unfold SlowAcc.note
  split <;> rfl

theorem keep_slowElem {s₀ : State} (rw : RegWr) (hrw : ∀ {s₀ s : State}, Keep s₀ s → ∀ o v, Keep s₀ (rw s o v))
    (n src dst) {z : SlowAcc} (hk : Keep s₀ z.s) (x) : Keep s₀ (slowElem rw n src dst z x).s := by
  unfold slowElem
  dsimp only
  split
  · exact hk
  · split
    · rw [note_s]
      refine keep_masterWrite ?_ rw hrw _ _
      rw [note_s]
      exact keep_masterRead hk _
    · dsimp only
      rw [note_s]
      refine keep_masterWrite ?_ rw hrw _ _
      rw [note_s]
      exact keep_masterRead hk _

theorem keep_slowElems {s₀ : State} (rw : RegWr) (hrw : ∀ {s₀ s : State}, Keep s₀ s → ∀ o v, Keep s₀ (rw s o v))
    (n src dst) (l : List (Crd × Crd)) {z : SlowAcc} (hk : Keep s₀ z.s) :
    Keep s₀ (l.foldl (slowElem rw n src dst) z).s := by
  induction l generalizing z with
  | nil => exact hk
  | cons x r ih => exact ih (keep_slowElem rw hrw n src dst hk x)

theorem keep_slowCopy {s₀ s : State} (hk : Keep s₀ s) (rw : RegWr)
    (hrw : ∀ {s₀ s : State}, Keep s₀ s → ∀ o v, Keep s₀ (rw s o v)) (pm src dst st ds x) :
    Keep s₀ (slowCopy rw s pm src dst st ds x).1 := by
  have h : ∀ (l : List (Crd × Crd)) as, Keep s₀ (slowSideband (l.foldl (slowElem rw (fmtBytes src.tensor.fmt) src dst) { s := s }).s as) :=
    fun l as => keep_slowSideband (keep_slowElems rw hrw _ src dst l (z := { s := s }) hk) as
  unfold slowCopy
  dsimp only
  split
  · exact h _ _
  · exact keep_evForeign (h _ _) _ _ _

end Sys2Proof.Machine
end

