-- ==== Sys2Proof/Laws/KeepUnits.lean ====
section
/-!
SUPPORT. Laws/KeepUnits.lean: every operation of the rings, cards, tally, cooper, ports and register writes keeps the queue, the test access
port, the thermal latch, the settled tally and the canonical form of the memory.
-/
namespace Sys2Proof.Machine
open Sys2Proof.Safety

/-! ### Rings -/

theorem keep_readRings {s₀ s : State} (hk : Keep s₀ s) :
    Keep s₀ (readRings s) := by
  refine hk.trans ?_
  clear hk
  unfold readRings
  dsimp only
  repeat' first
    | with_reducible apply Keep.refl
    | simp only [Keep.mk_iff]

theorem keep_writeBackDRing {s₀ s : State} (hk : Keep s₀ s) (r) :
    Keep s₀ (writeBackDRing s r) := by
  refine hk.trans ?_
  clear hk
  unfold writeBackDRing
  dsimp only
  repeat' first
    | with_reducible apply Keep.refl
    | with_reducible apply keep_trStore

theorem keep_masterLine {s₀ s : State} (hk : Keep s₀ s) (off) :
    Keep s₀ (masterLine s off).1 := by
  refine hk.trans ?_
  clear hk
  unfold masterLine
  dsimp only
  repeat' first
    | with_reducible apply Keep.refl
    | with_reducible apply keep_recordUes
    | with_reducible apply keep_countCe

theorem keep_latchRec {s₀ : State} {z : Latch} (hk : Keep s₀ z.s) (named x dvx far) :
    Keep s₀ (latchRec z named x dvx far).1.s := by
  unfold latchRec
  dsimp only
  split
  · split
    · exact keep_masterLine hk _
    · split <;> exact keep_masterLine hk _
  · exact hk

theorem keep_latchStage {s₀ : State} {z : Latch} (hk : Keep s₀ z.s) (ws into) :
    Keep s₀ (latchStage z ws into).1.s := by
  unfold latchStage
  dsimp only
  exact keep_latchRec (keep_latchRec (keep_latchRec (keep_latchRec (keep_latchRec (keep_latchRec hk
    _ _ _ _) _ _ _ _) _ _ _ _) _ _ _ _) _ _ _ _) _ _ _ _

theorem keep_latchStages {s₀ s : State} (hk : Keep s₀ s) (ws) : Keep s₀ (latchStages s ws).1.s := by
  unfold latchStages
  have h : ∀ (l : List Nat) (acc : Latch × List Stage), Keep s₀ acc.1.s →
      Keep s₀ (l.foldl (fun acc j =>
        let y := latchStage acc.1 (nth ws j []) (handRole ws j)
        (y.1, acc.2 ++ [y.2])) acc).1.s := by
    intro l
    induction l with
    | nil => intro acc h; exact h
    | cons j r ih => intro acc h; exact ih _ (keep_latchStage h _ _)
  exact h _ _ hk

theorem keep_readStages {s₀ s : State} (hk : Keep s₀ s) (header) : Keep s₀ (readStages s header).1 := by
  unfold readStages
  refine Keep.foldlFst ?_ _ hk
  intro a x
  exact keep_masterLine Keep.refl _

theorem keep_formReceivers {s₀ s : State} (hk : Keep s₀ s) (st g) :
    Keep s₀ (formReceivers s st g).1 := by
  refine hk.trans ?_
  clear hk
  unfold formReceivers
  dsimp only
  repeat' first
    | with_reducible apply Keep.refl
    | with_reducible apply keep_rset
    | with_reducible apply Keep.iteFst

theorem keep_pickDecant {s₀ s : State} (hk : Keep s₀ s) (f) :
    Keep s₀ (pickDecant s f).1 := by
  refine hk.trans ?_
  clear hk
  unfold pickDecant
  repeat' first
    | with_reducible apply Keep.refl
    | with_reducible apply keep_journalUe
    | with_reducible apply Keep.iteFst
    | split

theorem keep_addFlight {s₀ s : State} (hk : Keep s₀ s) (f) :
    Keep s₀ (addFlight s f) := by
  refine hk.trans ?_
  clear hk
  unfold addFlight
  repeat' first
    | with_reducible apply Keep.refl
    | simp only [Keep.mk_iff]

theorem keep_endEarly {s₀ s : State} (hk : Keep s₀ s) (f code) :
    Keep s₀ (endEarly s f code) := by
  refine hk.trans ?_
  clear hk
  unfold endEarly
  dsimp only
  repeat' first
    | with_reducible apply Keep.refl
    | with_reducible apply keep_addFlight

theorem keep_judgeNew {s₀ s : State} (hk : Keep s₀ s) (f lines) :
    Keep s₀ (judgeNew s f lines) := by
  refine hk.trans ?_
  clear hk
  unfold judgeNew
  dsimp only
  repeat' first
    | with_reducible apply Keep.refl
    | with_reducible apply keep_endEarly
    | with_reducible apply keep_addFlight
    | with_reducible apply keep_pickDecant
    | with_reducible apply keep_formReceivers
    | with_reducible apply keep_latchStages
    | with_reducible apply Keep.ite
    | with_reducible apply Keep.foldlFst
    | intro _
    | split

theorem keep_pickup {s₀ s : State} (hk : Keep s₀ s) (r j ws) :
    Keep s₀ (pickup s r j ws) := by
  refine hk.trans ?_
  clear hk
  unfold pickup
  dsimp only
  repeat' first
    | with_reducible apply Keep.refl
    | with_reducible apply keep_judgeNew
    | with_reducible apply keep_endEarly
    | with_reducible apply keep_addFlight
    | with_reducible apply keep_readStages
    | with_reducible apply keep_bump
    | with_reducible apply Keep.ite
    | simp only [Keep.mk_iff]

theorem keep_setMaster {s₀ s : State} (hk : Keep s₀ s) (m) :
    Keep s₀ (setMaster s m) := by
  refine hk.trans ?_
  clear hk
  unfold setMaster
  dsimp only
  repeat' first
    | with_reducible apply Keep.refl
    | simp only [Keep.mk_iff]

theorem keep_overrun {s₀ s : State} (hk : Keep s₀ s) (k rev) :
    Keep s₀ (overrun s k rev) := by
  refine hk.trans ?_
  clear hk
  unfold overrun
  repeat' first
    | with_reducible apply Keep.refl
    | with_reducible apply keep_emit
    | with_reducible apply keep_bump
    | with_reducible apply keep_rsetBit

theorem keep_visitBack {s₀ s : State} (hk : Keep s₀ s) :
    Keep s₀ (visitBack s) := by
  refine hk.trans ?_
  clear hk
  unfold visitBack
  repeat' first
    | with_reducible apply Keep.refl
    | with_reducible apply keep_writeBackDRing
    | with_reducible apply Keep.ite

theorem keep_visitEnds {s₀ s : State} (hk : Keep s₀ s) :
    Keep s₀ (visitEnds s) := by
  refine hk.trans ?_
  clear hk
  unfold visitEnds
  dsimp only
  repeat' first
    | with_reducible apply Keep.refl
    | with_reducible apply keep_visitBack
    | with_reducible apply keep_overrun
    | with_reducible apply keep_setMaster
    | split

theorem keep_visitGoesOn {s₀ s : State} (hk : Keep s₀ s) :
    Keep s₀ (visitGoesOn s) := by
  refine hk.trans ?_
  clear hk
  unfold visitGoesOn
  dsimp only
  repeat' first
    | with_reducible apply Keep.refl
    | with_reducible apply keep_visitEnds
    | with_reducible apply keep_setMaster
    | with_reducible apply Keep.ite

theorem keep_readFirst {s₀ s : State} (hk : Keep s₀ s) :
    Keep s₀ (readFirst s) := by
  refine hk.trans ?_
  clear hk
  unfold readFirst
  dsimp only
  repeat' first
    | with_reducible apply Keep.refl
    | with_reducible apply keep_visitEnds
    | with_reducible apply keep_setMaster
    | with_reducible apply Keep.ite

theorem keep_readLine {s₀ s : State} (hk : Keep s₀ s) :
    Keep s₀ (readLine s) := by
  refine hk.trans ?_
  clear hk
  unfold readLine
  dsimp only
  repeat' first
    | with_reducible apply Keep.refl
    | with_reducible apply keep_setMaster
    | with_reducible apply keep_masterLine

theorem keep_readSecond {s₀ s : State} (hk : Keep s₀ s) :
    Keep s₀ (readSecond s) := by
  refine hk.trans ?_
  clear hk
  unfold readSecond
  dsimp only
  repeat' first
    | with_reducible apply Keep.refl
    | with_reducible apply keep_setMaster

theorem keep_latchEntry {s₀ s : State} (hk : Keep s₀ s) :
    Keep s₀ (latchEntry s) := by
  refine hk.trans ?_
  clear hk
  unfold latchEntry
  dsimp only
  repeat' first
    | with_reducible apply Keep.refl
    | with_reducible apply keep_visitGoesOn
    | with_reducible apply keep_visitEnds
    | with_reducible apply keep_setMaster
    | with_reducible apply keep_pickup
    | with_reducible apply keep_setDRing
    | with_reducible apply keep_bump
    | with_reducible apply Keep.ite

theorem keep_masterClock {s₀ s : State} (hk : Keep s₀ s) :
    Keep s₀ (masterClock s) := by
  refine hk.trans ?_
  clear hk
  unfold masterClock
  dsimp only
  repeat' first
    | with_reducible apply Keep.refl
    | with_reducible apply keep_latchEntry
    | with_reducible apply keep_readSecond
    | with_reducible apply keep_readLine
    | with_reducible apply keep_readFirst
    | with_reducible apply keep_visitGoesOn
    | with_reducible apply keep_setMaster
    | with_reducible apply Keep.ite
    | split

theorem keep_beginVisits {s₀ s : State} (hk : Keep s₀ s) (k rev ws) :
    Keep s₀ (beginVisits s k rev ws) := by
  refine hk.trans ?_
  clear hk
  unfold beginVisits
  dsimp only
  repeat' first
    | with_reducible apply Keep.refl
    | with_reducible apply keep_visitBack
    | with_reducible apply keep_overrun
    | with_reducible apply keep_setMaster
    | with_reducible apply Keep.ite

/-! ### Cards -/

theorem keep_failDispatch {s₀ s : State} (hk : Keep s₀ s) (f) :
    Keep s₀ (failDispatch s f) := by
  refine hk.trans ?_
  clear hk
  unfold failDispatch
  repeat' first
    | with_reducible apply Keep.refl
    | with_reducible apply keep_setFlight

theorem keep_pullAny {s₀ s : State} (hk : Keep s₀ s) (k) :
    Keep s₀ (pullAny s k) := by
  refine hk.trans ?_
  clear hk
  unfold pullAny
  repeat' first
    | with_reducible apply Keep.refl
    | with_reducible apply keep_accept
    | split

theorem keep_dispatchTerrace {s₀ s : State} (hk : Keep s₀ s) (k) :
    Keep s₀ (dispatchTerrace s k) := by
  refine hk.trans ?_
  clear hk
  unfold dispatchTerrace
  repeat' first
    | with_reducible apply Keep.refl
    | with_reducible apply keep_pullAny
    | with_reducible apply keep_failDispatch
    | with_reducible apply keep_accept
    | with_reducible apply Keep.ite
    | split

theorem keep_execDispatch (s : State) (terrace) :
    KeepOut s (execDispatch terrace s) := by
  unfold execDispatch
  repeat' first
    | with_reducible apply Keep.refl
    | with_reducible apply KeepOut.next
    | with_reducible apply keep_dispatchTerrace

theorem keep_preemptTerrace {s₀ s : State} (hk : Keep s₀ s) (k) :
    Keep s₀ (preemptTerrace s k) := by
  refine hk.trans ?_
  clear hk
  unfold preemptTerrace
  dsimp only
  repeat' first
    | with_reducible apply Keep.refl
    | with_reducible apply keep_preempt
    | with_reducible apply Keep.ite
    | split

theorem keep_preemptAll {s₀ s : State} (hk : Keep s₀ s) :
    Keep s₀ (preemptAll s) := by
  refine hk.trans ?_
  clear hk
  unfold preemptAll
  repeat' first
    | with_reducible apply Keep.refl
    | with_reducible apply keep_preemptTerrace
    | with_reducible apply Keep.foldl
    | intro _

theorem keep_completeLatched {s₀ s : State} (hk : Keep s₀ s) (f code) :
    Keep s₀ (completeLatched s f code) := by
  refine hk.trans ?_
  clear hk
  unfold completeLatched
  repeat' first
    | with_reducible apply Keep.refl
    | with_reducible apply keep_setFlight

theorem keep_execNop (s : State) (st) :
    KeepOut s (execNop st s) := by
  unfold execNop
  repeat' first
    | with_reducible apply Keep.refl
    | with_reducible apply KeepOut.next
    | with_reducible apply keep_completeLatched
    | split

theorem keep_execOpReserved (s : State) (st) :
    KeepOut s (execOpReserved st s) := by
  unfold execOpReserved
  repeat' first
    | with_reducible apply Keep.refl
    | with_reducible apply KeepOut.next
    | with_reducible apply keep_completeLatched
    | split

theorem keep_tryFence {s₀ s : State} (hk : Keep s₀ s) (st) :
    Keep s₀ (tryFence s st) := by
  refine hk.trans ?_
  clear hk
  unfold tryFence
  repeat' first
    | with_reducible apply Keep.refl
    | with_reducible apply keep_completeLatched
    | with_reducible apply Keep.ite
    | split

theorem keep_execFence (s : State) (st) :
    KeepOut s (execFence st s) := by
  unfold execFence
  repeat' first
    | with_reducible apply Keep.refl
    | with_reducible apply KeepOut.next
    | with_reducible apply keep_tryFence

theorem keep_execFenceComplete (s : State) (st) :
    KeepOut s (execFenceComplete st s) := by
  unfold execFenceComplete
  repeat' first
    | with_reducible apply Keep.refl
    | with_reducible apply KeepOut.next
    | with_reducible apply keep_tryFence

theorem keep_storeCard {s₀ s : State} (hk : Keep s₀ s) (f) :
    Keep s₀ (storeCard s f) := by
  refine hk.trans ?_
  clear hk
  unfold storeCard
  dsimp only
  repeat' first
    | with_reducible apply Keep.refl
    | with_reducible apply keep_trStore
    | with_reducible apply keep_setCRing

theorem keep_chain {s₀ s : State} (hk : Keep s₀ s) (f) :
    Keep s₀ (chain s f) := by
  refine hk.trans ?_
  clear hk
  unfold chain
  dsimp only
  repeat' first
    | with_reducible apply Keep.refl
    | with_reducible apply keep_recordUes
    | with_reducible apply keep_trStore
    | with_reducible apply Keep.ite

theorem keep_queueEvt {s₀ s : State} (hk : Keep s₀ s) (m e) :
    Keep s₀ (queueEvt s m e) := by
  refine hk.trans ?_
  clear hk
  unfold queueEvt
  dsimp only
  repeat' first
    | with_reducible apply Keep.refl
    | with_reducible apply keep_emit
    | with_reducible apply keep_setMod
    | with_reducible apply keep_bump
    | with_reducible apply Keep.ite
    | split

theorem keep_cardEvt {s₀ s : State} (hk : Keep s₀ s) (x f heri) :
    Keep s₀ (cardEvt s x f heri) := by
  refine hk.trans ?_
  clear hk
  unfold cardEvt
  dsimp only
  repeat' first
    | with_reducible apply Keep.refl
    | with_reducible apply keep_queueEvt
    | with_reducible apply Keep.ite

theorem keep_endEvents {s₀ s : State} (hk : Keep s₀ s) (f) :
    Keep s₀ (endEvents s f) := by
  refine hk.trans ?_
  clear hk
  unfold endEvents
  dsimp only
  repeat' first
    | with_reducible apply Keep.refl
    | with_reducible apply keep_evForeign
    | with_reducible apply keep_emit
    | split

theorem keep_writeCard {s₀ s : State} (hk : Keep s₀ s) (st) :
    Keep s₀ (writeCard s st) := by
  refine hk.trans ?_
  clear hk
  unfold writeCard
  dsimp only
  repeat' first
    | with_reducible apply Keep.refl
    | with_reducible apply keep_endEvents
    | with_reducible apply keep_cardEvt
    | with_reducible apply keep_chain
    | with_reducible apply keep_storeCard
    | with_reducible apply Keep.ite
    | simp only [Keep.mk_iff]
    | split

theorem keep_execCardWrite (s : State) (st) :
    KeepOut s (execCardWrite st s) := by
  unfold execCardWrite
  repeat' first
    | with_reducible apply Keep.refl
    | with_reducible apply KeepOut.next
    | with_reducible apply keep_writeCard

/-! ### Bonded -/

theorem keep_tallyRuns {s₀ s : State} (hk : Keep s₀ s) (n) : Keep s₀ (tallyRuns s n) :=
  hk.trans ⟨rfl, rfl, rfl, settled_takeRecords _ _, id⟩

theorem keep_tallyWait {s₀ s : State} (hk : Keep s₀ s) :
    Keep s₀ (tallyWait s) := by
  refine hk.trans ?_
  clear hk
  unfold tallyWait
  repeat' first
    | with_reducible apply Keep.refl
    | with_reducible apply keep_emit
    | with_reducible apply Keep.ite

theorem keep_tallyAttempt {s₀ s : State} (hk : Keep s₀ s) : Keep s₀ (tallyAttempt s) := by
  unfold tallyAttempt
  split
  · exact hk.trans ⟨rfl, rfl, rfl, settled_attempts _ _, id⟩
  · exact hk

theorem keep_execTallyWriteAttempt (s : State) (_src _off) :
    KeepOut s (execTallyWriteAttempt _src _off s) := by
  unfold execTallyWriteAttempt
  repeat' first
    | with_reducible apply Keep.refl
    | with_reducible apply KeepOut.next
    | with_reducible apply keep_tallyAttempt

theorem keep_execTallyWait (s : State) :
    KeepOut s (execTallyWait s) := by
  unfold execTallyWait
  repeat' first
    | with_reducible apply Keep.refl
    | with_reducible apply KeepOut.next
    | with_reducible apply keep_tallyWait

/-! ### Cooper -/

theorem keep_formRef {s₀ s : State} (hk : Keep s₀ s) (e) :
    Keep s₀ (formRef s e) := by
  refine hk.trans ?_
  clear hk
  unfold formRef
  dsimp only
  repeat' first
    | with_reducible apply Keep.refl
    | assumption
    | with_reducible apply keep_slowCopy
    | with_reducible apply Keep.ite
    | intro _

theorem keep_loadBuffer {s₀ s : State} (hk : Keep s₀ s) :
    Keep s₀ (loadBuffer s) := by
  refine hk.trans ?_
  clear hk
  unfold loadBuffer
  dsimp only
  repeat' first
    | with_reducible apply Keep.refl
    | with_reducible apply keep_formRef
    | with_reducible apply Keep.ite
    | with_reducible apply Keep.foldl
    | intro _
    | simp only [Keep.mk_iff]

theorem keep_coopReject {s₀ s : State} (hk : Keep s₀ s) :
    Keep s₀ (coopReject s) := by
  refine hk.trans ?_
  clear hk
  unfold coopReject
  repeat' first
    | with_reducible apply Keep.refl
    | with_reducible apply keep_rsetBit

theorem keep_coopRefuse {s₀ s : State} (hk : Keep s₀ s) (w) :
    Keep s₀ (coopRefuse s w) := by
  refine hk.trans ?_
  clear hk
  unfold coopRefuse
  repeat' first
    | with_reducible apply Keep.refl
    | with_reducible apply keep_coopReject
    | with_reducible apply keep_emit

theorem keep_startMarch {s₀ s : State} (hk : Keep s₀ s) (op bin) :
    Keep s₀ (startMarch s op bin) := by
  refine hk.trans ?_
  clear hk
  unfold startMarch
  dsimp only
  repeat' first
    | with_reducible apply Keep.refl
    | simp only [Keep.mk_iff]

theorem keep_startTaste {s₀ s : State} (hk : Keep s₀ s) (p) :
    Keep s₀ (startTaste s p) := by
  refine hk.trans ?_
  clear hk
  unfold startTaste
  dsimp only
  repeat' first
    | with_reducible apply Keep.refl
    | with_reducible apply keep_loadBuffer
    | simp only [Keep.mk_iff]

theorem keep_coopCommand {s₀ s : State} (hk : Keep s₀ s) (w) :
    Keep s₀ (coopCommand s w) := by
  refine hk.trans ?_
  clear hk
  unfold coopCommand
  dsimp only
  repeat' first
    | with_reducible apply Keep.refl
    | with_reducible apply keep_startTaste
    | with_reducible apply keep_startMarch
    | with_reducible apply keep_coopRefuse
    | with_reducible apply keep_coopReject
    | with_reducible apply keep_rset
    | with_reducible apply Keep.ite

theorem keep_clearBin {s₀ s : State} (hk : Keep s₀ s) (m) :
    Keep s₀ (clearBin s m) := by
  refine hk.trans ?_
  clear hk
  unfold clearBin
  dsimp only
  repeat' first
    | with_reducible apply Keep.refl
    | exact fun w => cellsFilter_wf _ w
    | with_reducible apply keep_setMem

theorem keep_scrubBin {s₀ s : State} (hk : Keep s₀ s) (m rows) :
    Keep s₀ (scrubBin s m rows) := by
  refine hk.trans ?_
  clear hk
  unfold scrubBin
  dsimp only
  repeat' first
    | with_reducible apply Keep.refl
    | with_reducible apply keep_recordUes
    | with_reducible apply keep_countCe
    | with_reducible apply keep_setMem
    | exact MemKeep.cells rfl

theorem keep_coopIdle {s₀ s : State} (hk : Keep s₀ s) :
    Keep s₀ (coopIdle s) := by
  refine hk.trans ?_
  clear hk
  unfold coopIdle
  dsimp only
  repeat' first
    | with_reducible apply Keep.refl
    | simp only [Keep.mk_iff]

theorem keep_marchFail {s₀ s : State} (hk : Keep s₀ s) (op m bank row) :
    Keep s₀ (marchFail s op m bank row) := by
  refine hk.trans ?_
  clear hk
  unfold marchFail
  dsimp only
  repeat' first
    | with_reducible apply Keep.refl
    | with_reducible apply keep_failBin
    | with_reducible apply keep_emitFault
    | with_reducible apply keep_bump

theorem keep_failInDestroy {s₀ s : State} (hk : Keep s₀ s) (m) :
    Keep s₀ (failInDestroy s m) := by
  refine hk.trans ?_
  clear hk
  unfold failInDestroy
  dsimp only
  repeat' first
    | with_reducible apply Keep.refl
    | with_reducible apply keep_binFailed
    | with_reducible apply keep_emit
    | exact fun w => cellsFilter_wf _ w
    | with_reducible apply keep_setMem
    | simp only [Keep.mk_iff]
    | split

theorem keep_marchDone {s₀ s : State} (hk : Keep s₀ s) (mismatch) :
    Keep s₀ (marchDone s mismatch) := by
  refine hk.trans ?_
  clear hk
  unfold marchDone
  dsimp only
  repeat' first
    | with_reducible apply Keep.refl
    | with_reducible apply keep_failInDestroy
    | with_reducible apply keep_marchFail
    | with_reducible apply keep_coopIdle
    | with_reducible apply keep_scrubBin
    | with_reducible apply keep_clearBin
    | with_reducible apply keep_emitFault
    | with_reducible apply keep_bump
    | with_reducible apply Keep.ite
    | split

theorem keep_copyBin {s₀ s : State} (hk : Keep s₀ s) (src dst) :
    Keep s₀ (copyBin s src dst) := by
  refine hk.trans ?_
  clear hk
  unfold copyBin
  dsimp only
  repeat' first
    | with_reducible apply Keep.refl
    | exact fun w => cellsMoved_wf _ _ _ (cellsFilter_wf _ w)
    | with_reducible apply keep_setMem

theorem keep_remapCopied {s₀ s : State} (hk : Keep s₀ s) :
    Keep s₀ (remapCopied s) := by
  refine hk.trans ?_
  clear hk
  unfold remapCopied
  dsimp only
  repeat' first
    | with_reducible apply Keep.refl
    | with_reducible apply keep_copyBin
    | with_reducible apply keep_startRemap
    | simp only [Keep.mk_iff]
    | split

theorem keep_moveOne {s₀ s : State} (hk : Keep s₀ s) (e) :
    Keep s₀ (moveOne s e) := by
  refine hk.trans ?_
  clear hk
  unfold moveOne
  dsimp only
  repeat' first
    | with_reducible apply Keep.refl
    | with_reducible apply keep_copyBin
    | with_reducible apply keep_judgeReplace
    | with_reducible apply keep_emitFault
    | with_reducible apply keep_rsetBit
    | with_reducible apply keep_rsetFld
    | simp only [Keep.mk_iff]

theorem keep_moveDecode {s₀ s : State} (hk : Keep s₀ s) :
    Keep s₀ (moveDecode s) := by
  refine hk.trans ?_
  clear hk
  unfold moveDecode
  dsimp only
  repeat' first
    | with_reducible apply Keep.refl
    | with_reducible apply keep_moveOne
    | with_reducible apply Keep.foldl
    | intro _
    | simp only [Keep.mk_iff]

theorem keep_tickSkip {s₀ s : State} (hk : Keep s₀ s) :
    Keep s₀ (tickSkip s) := by
  refine hk.trans ?_
  clear hk
  unfold tickSkip
  repeat' first
    | with_reducible apply Keep.refl
    | with_reducible apply keep_bump

theorem keep_rotTaste {s₀ s : State} (hk : Keep s₀ s) :
    Keep s₀ (rotTaste s) := by
  refine hk.trans ?_
  clear hk
  unfold rotTaste
  dsimp only
  repeat' first
    | with_reducible apply Keep.refl
    | with_reducible apply keep_tickSkip
    | with_reducible apply keep_startTaste
    | with_reducible apply keep_emit
    | with_reducible apply Keep.ite
    | simp only [Keep.mk_iff]
    | split

theorem keep_rotMarch {s₀ s : State} (hk : Keep s₀ s) :
    Keep s₀ (rotMarch s) := by
  refine hk.trans ?_
  clear hk
  unfold rotMarch
  dsimp only
  repeat' first
    | with_reducible apply Keep.refl
    | with_reducible apply keep_tickSkip
    | with_reducible apply keep_startMarch
    | simp only [Keep.mk_iff]
    | split

theorem keep_coopTick {s₀ s : State} (hk : Keep s₀ s) :
    Keep s₀ (coopTick s) := by
  refine hk.trans ?_
  clear hk
  unfold coopTick
  dsimp only
  repeat' first
    | with_reducible apply Keep.refl
    | with_reducible apply keep_rotMarch
    | with_reducible apply keep_rotTaste
    | with_reducible apply keep_tickSkip
    | with_reducible apply Keep.ite

theorem keep_stressEnter {s₀ s : State} (hk : Keep s₀ s) :
    Keep s₀ (stressEnter s) := by
  refine hk.trans ?_
  clear hk
  unfold stressEnter
  dsimp only
  repeat' first
    | with_reducible apply Keep.refl
    | with_reducible apply keep_setPress
    | with_reducible apply Keep.ite
    | simp only [Keep.mk_iff]
    | split

theorem keep_tasteDone {s₀ s : State} (hk : Keep s₀ s) (fails) :
    Keep s₀ (tasteDone s fails) := by
  refine hk.trans ?_
  clear hk
  unfold tasteDone
  dsimp only
  repeat' first
    | with_reducible apply Keep.refl
    | with_reducible apply keep_coopIdle
    | with_reducible apply keep_cork
    | with_reducible apply keep_emitFault
    | with_reducible apply keep_emit
    | with_reducible apply keep_drawn
    | with_reducible apply keep_setPress
    | with_reducible apply keep_bump
    | with_reducible apply keep_rset
    | with_reducible apply Keep.ite
    | simp only [Keep.mk_iff]
    | split

theorem keep_tasteReturn {s₀ s : State} (hk : Keep s₀ s) :
    Keep s₀ (tasteReturn s) := by
  refine hk.trans ?_
  clear hk
  unfold tasteReturn
  dsimp only
  repeat' first
    | with_reducible apply Keep.refl
    | with_reducible apply keep_setPress
    | with_reducible apply Keep.ite
    | simp only [Keep.mk_iff]
    | split

theorem keep_execMarchComplete (s : State) (mismatch) :
    KeepOut s (execMarchComplete mismatch s) := by
  unfold execMarchComplete
  repeat' first
    | with_reducible apply Keep.refl
    | with_reducible apply KeepOut.next
    | with_reducible apply keep_marchDone

theorem keep_execRemapCopyDone (s : State) :
    KeepOut s (execRemapCopyDone s) := by
  unfold execRemapCopyDone
  repeat' first
    | with_reducible apply Keep.refl
    | with_reducible apply KeepOut.next
    | with_reducible apply keep_remapCopied

theorem keep_execStressEnter (s : State) :
    KeepOut s (execStressEnter s) := by
  unfold execStressEnter
  repeat' first
    | with_reducible apply Keep.refl
    | with_reducible apply KeepOut.next
    | with_reducible apply keep_stressEnter

theorem keep_execTasteComplete (s : State) (fails) :
    KeepOut s (execTasteComplete fails s) := by
  unfold execTasteComplete
  repeat' first
    | with_reducible apply Keep.refl
    | with_reducible apply KeepOut.next
    | with_reducible apply keep_tasteDone

/-! ### Ports -/

theorem keep_rspReceived {s₀ s : State} (hk : Keep s₀ s) (t) :
    Keep s₀ (rspReceived s t) := by
  refine hk.trans ?_
  clear hk
  unfold rspReceived
  dsimp only
  repeat' first
    | with_reducible apply Keep.refl
    | with_reducible apply keep_landRead
    | with_reducible apply keep_failRead
    | with_reducible apply keep_settle
    | with_reducible apply keep_setPress
    | with_reducible apply Keep.ite
    | split

theorem keep_settleOwn {s₀ s : State} (hk : Keep s₀ s) (fid) :
    Keep s₀ (settleOwn s fid) := by
  refine hk.trans ?_
  clear hk
  unfold settleOwn
  repeat' first
    | with_reducible apply Keep.refl
    | with_reducible apply keep_settle
    | split

theorem keep_ackReceived {s₀ s : State} (hk : Keep s₀ s) (t) :
    Keep s₀ (ackReceived s t) := by
  refine hk.trans ?_
  clear hk
  unfold ackReceived
  dsimp only
  repeat' first
    | with_reducible apply Keep.refl
    | with_reducible apply keep_settleOwn
    | with_reducible apply keep_retireOut
    | with_reducible apply keep_setOut
    | with_reducible apply keep_emit
    | with_reducible apply keep_bump
    | with_reducible apply Keep.ite
    | split

theorem keep_ackTimeout {s₀ s : State} (hk : Keep s₀ s) (id) :
    Keep s₀ (ackTimeout s id) := by
  refine hk.trans ?_
  clear hk
  unfold ackTimeout
  dsimp only
  repeat' first
    | with_reducible apply Keep.refl
    | with_reducible apply keep_settleOwn
    | with_reducible apply keep_retireOut
    | with_reducible apply keep_setOut
    | with_reducible apply keep_emit
    | with_reducible apply keep_bump
    | with_reducible apply Keep.ite
    | split

theorem keep_releaseIngress {s₀ s : State} (hk : Keep s₀ s) (e) :
    Keep s₀ (releaseIngress s e) := by
  refine hk.trans ?_
  clear hk
  unfold releaseIngress
  dsimp only
  repeat' first
    | with_reducible apply Keep.refl
    | with_reducible apply keep_dropPool
    | with_reducible apply Keep.ite
    | split

theorem keep_sendAnswer {s₀ s : State} (hk : Keep s₀ s) (src t pin ingress) :
    Keep s₀ (sendAnswer s src t pin ingress) := by
  refine hk.trans ?_
  clear hk
  unfold sendAnswer
  dsimp only
  repeat' first
    | with_reducible apply Keep.refl
    | with_reducible apply keep_releaseIngress
    | with_reducible apply keep_ackReceived
    | with_reducible apply keep_rspReceived
    | with_reducible apply keep_countUnrouted
    | with_reducible apply keep_enqueue
    | with_reducible apply Keep.ite
    | split

theorem keep_answerUnreachable {s₀ s : State} (hk : Keep s₀ s) (src t) :
    Keep s₀ (answerUnreachable s src t) := by
  refine hk.trans ?_
  clear hk
  unfold answerUnreachable
  repeat' first
    | with_reducible apply Keep.refl
    | with_reducible apply keep_sendAnswer
    | with_reducible apply Keep.ite

theorem keep_forwardTxn {s₀ s : State} (hk : Keep s₀ s) (port t ingress) :
    Keep s₀ (forwardTxn s port t ingress).1 := by
  refine hk.trans ?_
  clear hk
  unfold forwardTxn
  repeat' first
    | with_reducible apply Keep.refl
    | with_reducible apply keep_answerUnreachable
    | with_reducible apply keep_countUnrouted
    | with_reducible apply keep_enqueue
    | with_reducible apply Keep.iteFst
    | split

theorem keep_strandOwn {s₀ s : State} (hk : Keep s₀ s) (e framed) :
    Keep s₀ (strandOwn s e framed) := by
  refine hk.trans ?_
  clear hk
  unfold strandOwn
  repeat' first
    | with_reducible apply Keep.refl
    | with_reducible apply keep_updCnt
    | with_reducible apply Keep.ite
    | split

theorem keep_moveTxn {s₀ s : State} (hk : Keep s₀ s) (n framed e) :
    Keep s₀ (moveTxn s n framed e) := by
  refine hk.trans ?_
  clear hk
  unfold moveTxn
  dsimp only
  repeat' first
    | with_reducible apply Keep.refl
    | with_reducible apply keep_strandOwn
    | with_reducible apply keep_answerUnreachable
    | with_reducible apply keep_releaseIngress
    | with_reducible apply keep_sendMulticast
    | with_reducible apply keep_retireOut
    | with_reducible apply keep_setOut
    | with_reducible apply keep_countUnrouted
    | with_reducible apply keep_enqueue
    | with_reducible apply Keep.ite
    | split

theorem keep_movePort {s₀ s : State} (hk : Keep s₀ s) (n) :
    Keep s₀ (movePort s n) := by
  refine hk.trans ?_
  clear hk
  unfold movePort
  dsimp only
  repeat' first
    | with_reducible apply Keep.refl
    | with_reducible apply keep_moveTxn
    | with_reducible apply keep_sendAnswer
    | with_reducible apply keep_releaseIngress
    | with_reducible apply keep_setPort
    | with_reducible apply Keep.ite
    | with_reducible apply Keep.foldl
    | intro _

theorem keep_portTrained {s₀ s : State} (hk : Keep s₀ s) (n peer t) :
    Keep s₀ (portTrained s n peer t) := by
  refine hk.trans ?_
  clear hk
  unfold portTrained
  dsimp only
  repeat' first
    | with_reducible apply Keep.refl
    | with_reducible apply keep_pump
    | with_reducible apply keep_sendOut
    | with_reducible apply keep_setPort
    | with_reducible apply Keep.ite

theorem keep_beginRetrain {s₀ s : State} (hk : Keep s₀ s) (n) :
    Keep s₀ (beginRetrain s n) := by
  refine hk.trans ?_
  clear hk
  unfold beginRetrain
  dsimp only
  repeat' first
    | with_reducible apply Keep.refl
    | with_reducible apply keep_setPort
    | with_reducible apply keep_bump

theorem keep_wavelengthDrop {s₀ s : State} (hk : Keep s₀ s) (n w) :
    Keep s₀ (wavelengthDrop s n w) := by
  refine hk.trans ?_
  clear hk
  unfold wavelengthDrop
  dsimp only
  repeat' first
    | with_reducible apply Keep.refl
    | with_reducible apply keep_beginRetrain
    | with_reducible apply keep_setPort
    | with_reducible apply Keep.ite

theorem keep_replayFlits {s₀ s : State} (hk : Keep s₀ s) (n) :
    Keep s₀ (replayFlits s n) := by
  refine hk.trans ?_
  clear hk
  unfold replayFlits
  dsimp only
  repeat' first
    | with_reducible apply Keep.refl
    | with_reducible apply keep_layFlit
    | with_reducible apply keep_bump
    | with_reducible apply Keep.foldl
    | intro _

theorem keep_retrainDone {s₀ s : State} (hk : Keep s₀ s) (n up) :
    Keep s₀ (retrainDone s n up) := by
  refine hk.trans ?_
  clear hk
  unfold retrainDone
  dsimp only
  repeat' first
    | with_reducible apply Keep.refl
    | with_reducible apply keep_replayFlits
    | with_reducible apply keep_pump
    | with_reducible apply keep_answerLink
    | with_reducible apply keep_setPort
    | with_reducible apply Keep.ite

theorem keep_portLost {s₀ s : State} (hk : Keep s₀ s) (n) :
    Keep s₀ (portLost s n) := by
  refine hk.trans ?_
  clear hk
  unfold portLost
  dsimp only
  repeat' first
    | with_reducible apply Keep.refl
    | with_reducible apply keep_movePort
    | with_reducible apply keep_judgeReplace
    | with_reducible apply keep_emitFault
    | with_reducible apply keep_setPort
    | with_reducible apply Keep.ite

theorem keep_linkHold {s₀ s : State} (hk : Keep s₀ s) (n) :
    Keep s₀ (linkHold s n) := by
  refine hk.trans ?_
  clear hk
  unfold linkHold
  dsimp only
  repeat' first
    | with_reducible apply Keep.refl
    | with_reducible apply keep_movePort
    | with_reducible apply keep_setPort

theorem keep_linkRelease {s₀ s : State} (hk : Keep s₀ s) (n) :
    Keep s₀ (linkRelease s n) := by
  refine hk.trans ?_
  clear hk
  unfold linkRelease
  dsimp only
  repeat' first
    | with_reducible apply Keep.refl
    | with_reducible apply keep_setPort

theorem keep_sentOne {s₀ s : State} (hk : Keep s₀ s) (e) :
    Keep s₀ (sentOne s e) := by
  refine hk.trans ?_
  clear hk
  unfold sentOne
  dsimp only
  repeat' first
    | with_reducible apply Keep.refl
    | with_reducible apply keep_releaseIngress
    | with_reducible apply keep_retireOut
    | with_reducible apply keep_setOut
    | with_reducible apply Keep.ite
    | split

theorem keep_linkAck {s₀ s : State} (hk : Keep s₀ s) (n ackseq nak) :
    Keep s₀ (linkAck s n ackseq nak) := by
  refine hk.trans ?_
  clear hk
  unfold linkAck
  dsimp only
  repeat' first
    | with_reducible apply Keep.refl
    | with_reducible apply keep_sentOne
    | with_reducible apply keep_replayFlits
    | with_reducible apply keep_beginRetrain
    | with_reducible apply keep_setPort
    | with_reducible apply Keep.ite
    | with_reducible apply Keep.foldl
    | intro _

theorem keep_nakFlit {s₀ s : State} (hk : Keep s₀ s) (n) :
    Keep s₀ (nakFlit s n) := by
  refine hk.trans ?_
  clear hk
  unfold nakFlit
  dsimp only
  repeat' first
    | with_reducible apply Keep.refl
    | with_reducible apply keep_answerLink
    | with_reducible apply keep_setPort

theorem keep_flitReceived {s₀ s : State} (hk : Keep s₀ s) (n bs) :
    Keep s₀ (flitReceived s n bs) := by
  refine hk.trans ?_
  clear hk
  unfold flitReceived
  dsimp only
  repeat' first
    | with_reducible apply Keep.refl
    | with_reducible apply keep_nakFlit
    | with_reducible apply keep_linkAck
    | with_reducible apply keep_pump
    | with_reducible apply keep_answerLink
    | with_reducible apply keep_setPort
    | with_reducible apply keep_bump
    | with_reducible apply Keep.ite

theorem keep_cutFlits {s₀ s : State} (hk : Keep s₀ s) (n a) :
    Keep s₀ (cutFlits s n a) := by
  refine hk.trans ?_
  clear hk
  induction a generalizing s n with
  | zero => unfold cutFlits; exact Keep.refl
  | succ kk ih =>
    have ihk : ∀ {s₀ s : State} (y1 : _), Keep s₀ s → Keep s₀ (cutFlits s y1 kk) := by intros; exact Keep.trans ‹_› (ih ..)
    clear ih
    unfold cutFlits
    dsimp only
    repeat' first
      | with_reducible apply Keep.refl
      | with_reducible apply ihk
      | with_reducible apply keep_flitReceived
      | with_reducible apply keep_setPort
      | with_reducible apply Keep.ite

theorem keep_takeTurns {s₀ s : State} (hk : Keep s₀ s) (n a) :
    Keep s₀ (takeTurns s n a) := by
  refine hk.trans ?_
  clear hk
  induction a generalizing s n with
  | zero => unfold takeTurns; exact Keep.refl
  | succ kk ih =>
    have ihk : ∀ {s₀ s : State} (y1 : _), Keep s₀ s → Keep s₀ (takeTurns s y1 kk) := by intros; exact Keep.trans ‹_› (ih ..)
    clear ih
    unfold takeTurns
    dsimp only
    repeat' first
      | with_reducible apply Keep.refl
      | with_reducible apply ihk
      | with_reducible apply keep_cutFlits
      | with_reducible apply keep_setPort
      | split

theorem keep_feedUe {s₀ s : State} (hk : Keep s₀ s) (n w) :
    Keep s₀ (feedUe s n w) := by
  refine hk.trans ?_
  clear hk
  unfold feedUe
  dsimp only
  repeat' first
    | with_reducible apply Keep.refl
    | with_reducible apply keep_wavelengthDrop
    | with_reducible apply keep_setPort
    | with_reducible apply keep_bump
    | with_reducible apply Keep.ite

theorem keep_codewordReceived {s₀ s : State} (hk : Keep s₀ s) (n w symbols) :
    Keep s₀ (codewordReceived s n w symbols) := by
  refine hk.trans ?_
  clear hk
  unfold codewordReceived
  dsimp only
  repeat' first
    | with_reducible apply Keep.refl
    | with_reducible apply keep_feedUe
    | with_reducible apply keep_takeTurns
    | with_reducible apply keep_setPort
    | with_reducible apply keep_bump
    | with_reducible apply Keep.ite
    | split

theorem keep_execFlit (s : State) (port rx) :
    KeepOut s (execFlit port rx s) := by
  unfold execFlit
  repeat' first
    | with_reducible apply Keep.refl
    | with_reducible apply KeepOut.next
    | with_reducible apply keep_codewordReceived
    | with_reducible apply keep_flitReceived
    | split

theorem keep_execWavelengthDrop (s : State) (port wavelength) :
    KeepOut s (execWavelengthDrop port wavelength s) := by
  unfold execWavelengthDrop
  repeat' first
    | with_reducible apply Keep.refl
    | with_reducible apply KeepOut.next
    | with_reducible apply keep_wavelengthDrop

theorem keep_execRetrainDone (s : State) (port up) :
    KeepOut s (execRetrainDone port up s) := by
  unfold execRetrainDone
  repeat' first
    | with_reducible apply Keep.refl
    | with_reducible apply KeepOut.next
    | with_reducible apply keep_retrainDone

theorem keep_execPortLost (s : State) (port) :
    KeepOut s (execPortLost port s) := by
  unfold execPortLost
  repeat' first
    | with_reducible apply Keep.refl
    | with_reducible apply KeepOut.next
    | with_reducible apply keep_portLost

theorem keep_execPortTrain (s : State) (port peer up) :
    KeepOut s (execPortTrain port peer up s) := by
  unfold execPortTrain
  repeat' first
    | with_reducible apply Keep.refl
    | with_reducible apply KeepOut.next
    | with_reducible apply keep_portTrained

theorem keep_execAckTimeout (s : State) (blockId) :
    KeepOut s (execAckTimeout blockId s) := by
  unfold execAckTimeout
  repeat' first
    | with_reducible apply Keep.refl
    | with_reducible apply KeepOut.next
    | with_reducible apply keep_ackTimeout

/-! ### Regs -/

theorem keep_regRead {s₀ s : State} (hk : Keep s₀ s) (src off) :
    Keep s₀ (regRead s src off).1 := by
  refine hk.trans ?_
  clear hk
  unfold regRead
  dsimp only
  repeat' first
    | with_reducible apply Keep.refl
    | with_reducible apply Keep.iteFst
    | simp only [Keep.mk_iff]
    | split

theorem keep_stage {s₀ s : State} (hk : Keep s₀ s) (off v mask) :
    Keep s₀ (stage s off v mask) := by
  refine hk.trans ?_
  clear hk
  unfold stage
  dsimp only
  repeat' first
    | with_reducible apply Keep.refl
    | with_reducible apply Keep.ite
    | simp only [Keep.mk_iff]

theorem keep_noteReserved {s₀ s : State} (hk : Keep s₀ s) (r v) :
    Keep s₀ (noteReserved s r v) := by
  refine hk.trans ?_
  clear hk
  unfold noteReserved
  repeat' first
    | with_reducible apply Keep.refl
    | with_reducible apply Keep.ite
    | simp only [Keep.mk_iff]

theorem keep_linkResets {s₀ s : State} (hk : Keep s₀ s) (off old new) :
    Keep s₀ (linkResets s off old new) := by
  refine hk.trans ?_
  clear hk
  unfold linkResets
  dsimp only
  repeat' first
    | with_reducible apply Keep.refl
    | with_reducible apply keep_linkRelease
    | with_reducible apply keep_linkHold
    | with_reducible apply Keep.ite
    | with_reducible apply Keep.foldl
    | intro _

theorem keep_regWriteCore {s₀ s : State} (hk : Keep s₀ s) (key off v) :
    Keep s₀ (regWriteCore key s off v) := by
  refine hk.trans ?_
  clear hk
  unfold regWriteCore
  dsimp only
  repeat' first
    | with_reducible apply Keep.refl
    | with_reducible apply keep_linkResets
    | with_reducible apply keep_noteReserved
    | with_reducible apply keep_stage
    | with_reducible apply keep_coopCommand
    | with_reducible apply keep_tallyAttempt
    | with_reducible apply keep_vcmdPush
    | with_reducible apply keep_rset
    | with_reducible apply Keep.ite
    | simp only [Keep.mk_iff]
    | split

theorem keep_imageWrite {s₀ s : State} (hk : Keep s₀ s) (off v) :
    Keep s₀ (imageWrite s off v) := by
  refine hk.trans ?_
  clear hk
  unfold imageWrite
  dsimp only
  repeat' first
    | with_reducible apply Keep.refl
    | with_reducible apply keep_regWriteCore
    | with_reducible apply keep_noteReserved
    | with_reducible apply keep_tallyAttempt
    | with_reducible apply keep_takeRole
    | with_reducible apply keep_planEdge
    | with_reducible apply keep_rset
    | with_reducible apply Keep.ite
    | split

theorem keep_applyOne {s₀ s : State} (hk : Keep s₀ s) (off) :
    Keep s₀ (applyOne s off) := by
  refine hk.trans ?_
  clear hk
  unfold applyOne
  dsimp only
  repeat' first
    | with_reducible apply Keep.refl
    | with_reducible apply keep_rset
    | with_reducible apply Keep.ite
    | simp only [Keep.mk_iff]

theorem keep_applyStaged {s₀ s : State} (hk : Keep s₀ s) :
    Keep s₀ (applyStaged s) := by
  refine hk.trans ?_
  clear hk
  unfold applyStaged
  repeat' first
    | with_reducible apply Keep.refl
    | with_reducible apply keep_applyOne
    | with_reducible apply Keep.foldl
    | intro _

theorem keep_pressResetEnd {s₀ s : State} (hk : Keep s₀ s) (p) :
    Keep s₀ (pressResetEnd s p) := by
  refine hk.trans ?_
  clear hk
  unfold pressResetEnd
  dsimp only
  repeat' first
    | with_reducible apply Keep.refl
    | with_reducible apply keep_setPress
    | with_reducible apply keep_rsetBit

theorem keep_pressResetStart {s₀ s : State} (hk : Keep s₀ s) (p) :
    Keep s₀ (pressResetStart s p) := by
  refine hk.trans ?_
  clear hk
  unfold pressResetStart
  dsimp only
  repeat' first
    | with_reducible apply Keep.refl
    | with_reducible apply keep_setPress
    | with_reducible apply keep_rsetBit
    | with_reducible apply Keep.ite

theorem keep_resetClocks {s₀ s : State} (hk : Keep s₀ s) (n) :
    Keep s₀ (resetClocks s n) := by
  refine hk.trans ?_
  clear hk
  unfold resetClocks
  dsimp only
  repeat' first
    | with_reducible apply Keep.refl
    | with_reducible apply keep_pressResetEnd
    | with_reducible apply keep_setPress
    | with_reducible apply Keep.ite
    | with_reducible apply Keep.foldl
    | intro _

end Sys2Proof.Machine
end

