-- ==== Sys2Proof/Laws/KeepMasters.lean ====
section
/-!
SUPPORT. Laws/KeepMasters.lean: every operation of fabric and door service, boot, management and the calendar keeps the queue, the test access
port, the thermal latch, the settled tally and the canonical form of the memory.
-/
namespace Sys2Proof.Machine
open Sys2Proof.Safety

/-! ### Serve -/

theorem keep_evUnmappedLines {s₀ s : State} (hk : Keep s₀ s) (w lines snode) :
    Keep s₀ (evUnmappedLines s w lines snode) := by
  refine hk.trans ?_
  clear hk
  unfold evUnmappedLines
  repeat' first
    | with_reducible apply Keep.refl
    | with_reducible apply keep_evUnmapped
    | with_reducible apply Keep.foldl
    | intro _

theorem keep_fabGrant {s₀ s : State} (hk : Keep s₀ s) (port t a lines) :
    Keep s₀ (fabGrant s port t a lines).1 := by
  refine hk.trans ?_
  clear hk
  unfold fabGrant
  dsimp only
  repeat' first
    | with_reducible apply Keep.refl
    | with_reducible apply keep_evUnmappedLines
    | with_reducible apply keep_evTrDenied
    | with_reducible apply keep_evForeign
    | with_reducible apply Keep.iteFst
    | split

theorem keep_vintageGone {s₀ s : State} (hk : Keep s₀ s) (t) :
    Keep s₀ (vintageGone s t) := by
  refine hk.trans ?_
  clear hk
  unfold vintageGone
  repeat' first
    | with_reducible apply Keep.refl
    | with_reducible apply keep_emit

theorem keep_readWindow {s₀ s : State} (hk : Keep s₀ s) (port node off n) :
    Keep s₀ (readWindow s port node off n).1 := by
  refine hk.trans ?_
  clear hk
  unfold readWindow
  dsimp only
  repeat' first
    | with_reducible apply Keep.refl
    | with_reducible apply keep_regRead
    | with_reducible apply Keep.foldlFst
    | intro _

theorem keep_serveRead {s₀ s : State} (hk : Keep s₀ s) (port t) :
    Keep s₀ (serveRead s port t) := by
  refine hk.trans ?_
  clear hk
  unfold serveRead
  dsimp only
  repeat' first
    | with_reducible apply Keep.refl
    | with_reducible apply keep_readWindow
    | with_reducible apply keep_fabGrant
    | with_reducible apply keep_sendAnswer
    | with_reducible apply keep_countSbUe
    | with_reducible apply keep_recordUes
    | with_reducible apply keep_countCe
    | with_reducible apply keep_evRegDenied
    | with_reducible apply Keep.ite
    | split

theorem keep_storeTxn {s₀ s : State} (hk : Keep s₀ s) (port t bs) :
    Keep s₀ (storeTxn s port t bs).1 := by
  refine hk.trans ?_
  clear hk
  unfold storeTxn
  dsimp only
  repeat' first
    | with_reducible apply Keep.refl
    | with_reducible apply keep_recordUeBlends
    | with_reducible apply keep_correctMerges
    | with_reducible apply keep_setMem
    | with_reducible apply storeBytes_keep
    | with_reducible apply sbWrite_keep
    | with_reducible apply MemKeep.foldl
    | intro _

theorem keep_notePerformed {s₀ s : State} (hk : Keep s₀ s) (t a) :
    Keep s₀ (notePerformed s t a) := by
  refine hk.trans ?_
  clear hk
  unfold notePerformed
  dsimp only
  repeat' first
    | with_reducible apply Keep.refl
    | simp only [Keep.mk_iff]

theorem keep_serveWrite {s₀ s : State} (hk : Keep s₀ s) (rw : RegWr) (hrw : ∀ {s₀ s : State}, Keep s₀ s → ∀ o v, Keep s₀ (rw s o v)) (port t) :
    Keep s₀ (serveWrite rw s port t).1 := by
  refine hk.trans ?_
  clear hk
  unfold serveWrite
  dsimp only
  repeat' first
    | with_reducible apply Keep.refl
    | with_reducible apply keep_notePerformed
    | with_reducible apply keep_storeTxn
    | with_reducible apply keep_vintageGone
    | with_reducible apply keep_fabGrant
    | with_reducible apply keep_evRegDenied
    | with_reducible apply hrw
    | with_reducible apply Keep.iteFst
    | with_reducible apply Keep.foldl
    | intro _
    | split

theorem keep_serveAtomic {s₀ s : State} (hk : Keep s₀ s) (port t) :
    Keep s₀ (serveAtomic s port t).1 := by
  refine hk.trans ?_
  clear hk
  unfold serveAtomic
  dsimp only
  repeat' first
    | with_reducible apply Keep.refl
    | with_reducible apply keep_vintageGone
    | with_reducible apply keep_fabGrant
    | with_reducible apply keep_blendLane
    | with_reducible apply keep_recordUeBlends
    | with_reducible apply keep_correctRows
    | with_reducible apply keep_evRegDenied
    | with_reducible apply Keep.ite
    | with_reducible apply Keep.iteFst
    | with_reducible apply Keep.foldlFst
    | with_reducible apply keep_setMem
    | with_reducible apply sbWrite_keep
    | intro _
    | split

theorem keep_rejoinKey {s₀ s : State} (hk : Keep s₀ s) (t) :
    Keep s₀ (rejoinKey s t) := by
  refine hk.trans ?_
  clear hk
  unfold rejoinKey
  dsimp only
  repeat' first
    | with_reducible apply Keep.refl
    | with_reducible apply Keep.ite
    | simp only [Keep.mk_iff]

theorem keep_noteLast {s₀ s : State} (hk : Keep s₀ s) (t) :
    Keep s₀ (noteLast s t) := by
  refine hk.trans ?_
  clear hk
  unfold noteLast
  dsimp only
  repeat' first
    | with_reducible apply Keep.refl
    | simp only [Keep.mk_iff]

theorem keep_serveMulti {s₀ s : State} (hk : Keep s₀ s) (port t) :
    Keep s₀ (serveMulti s port t).1 := by
  refine hk.trans ?_
  clear hk
  unfold serveMulti
  dsimp only
  repeat' first
    | with_reducible apply Keep.refl
    | with_reducible apply keep_noteLast
    | with_reducible apply keep_rejoinKey
    | with_reducible apply keep_notePerformed
    | with_reducible apply keep_storeTxn
    | with_reducible apply keep_vintageGone
    | with_reducible apply keep_fabGrant
    | with_reducible apply keep_evRegDenied
    | with_reducible apply Keep.iteFst
    | split

theorem keep_returnCredits {s₀ s : State} (hk : Keep s₀ s) (m beats headers) :
    Keep s₀ (returnCredits s m beats headers) := by
  refine hk.trans ?_
  clear hk
  unfold returnCredits
  repeat' first
    | with_reducible apply Keep.refl
    | with_reducible apply keep_sendOut

theorem keep_dropBlock {s₀ s : State} (hk : Keep s₀ s) (x) :
    Keep s₀ (dropBlock s x) := by
  refine hk.trans ?_
  clear hk
  unfold dropBlock
  repeat' first
    | with_reducible apply Keep.refl
    | with_reducible apply keep_dropPool
    | split

theorem keep_sentMessage {s₀ s : State} (hk : Keep s₀ s) (m a) :
    Keep s₀ (sentMessage s m a) := by
  refine hk.trans ?_
  clear hk
  unfold sentMessage
  dsimp only
  repeat' first
    | with_reducible apply Keep.refl
    | with_reducible apply keep_dropBlock
    | with_reducible apply keep_returnCredits
    | with_reducible apply keep_setMod
    | with_reducible apply Keep.ite
    | split

theorem keep_pumpDoor {s₀ s : State} (hk : Keep s₀ s) (m a) :
    Keep s₀ (pumpDoor s m a) := by
  refine hk.trans ?_
  clear hk
  induction a generalizing s m with
  | zero => unfold pumpDoor; exact Keep.refl
  | succ kk ih =>
    have ihk : ∀ {s₀ s : State} (y1 : _), Keep s₀ s → Keep s₀ (pumpDoor s y1 kk) := by intros; exact Keep.trans ‹_› (ih ..)
    clear ih
    unfold pumpDoor
    dsimp only
    repeat' first
      | with_reducible apply Keep.refl
      | with_reducible apply ihk
      | with_reducible apply keep_sentMessage
      | with_reducible apply keep_sendOut
      | with_reducible apply keep_setMod
      | with_reducible apply Keep.ite
      | split

theorem keep_doorSend {s₀ s : State} (hk : Keep s₀ s) (m o) :
    Keep s₀ (doorSend s m o) := by
  refine hk.trans ?_
  clear hk
  unfold doorSend
  dsimp only
  repeat' first
    | with_reducible apply Keep.refl
    | with_reducible apply keep_pumpDoor
    | with_reducible apply keep_setMod

theorem keep_enterReg {s₀ s : State} (hk : Keep s₀ s) (x) :
    Keep s₀ (enterReg s x) := by
  refine hk.trans ?_
  clear hk
  unfold enterReg
  dsimp only
  repeat' first
    | with_reducible apply Keep.refl
    | with_reducible apply keep_returnCredits
    | simp only [Keep.mk_iff]

theorem keep_refillReg {s₀ s : State} (hk : Keep s₀ s) (a) :
    Keep s₀ (refillReg s a) := by
  refine hk.trans ?_
  clear hk
  induction a generalizing s with
  | zero => unfold refillReg; exact Keep.refl
  | succ kk ih =>
    have ihk : ∀ {s₀ s : State}, Keep s₀ s → Keep s₀ (refillReg s kk) := by intros; exact Keep.trans ‹_› (ih ..)
    clear ih
    unfold refillReg
    dsimp only
    repeat' first
      | with_reducible apply Keep.refl
      | with_reducible apply ihk
      | with_reducible apply keep_enterReg
      | with_reducible apply keep_setMod
      | with_reducible apply Keep.ite
      | split

theorem keep_doorGrant {s₀ s : State} (hk : Keep s₀ s) (m a write lines) :
    Keep s₀ (doorGrant s m a write lines).1 := by
  refine hk.trans ?_
  clear hk
  unfold doorGrant
  dsimp only
  repeat' first
    | with_reducible apply Keep.refl
    | with_reducible apply keep_evUnmappedLines
    | with_reducible apply keep_evTrDenied
    | with_reducible apply keep_evForeign
    | with_reducible apply Keep.iteFst
    | split

theorem keep_doorRead {s₀ s : State} (hk : Keep s₀ s) (x) :
    Keep s₀ (doorRead s x) := by
  refine hk.trans ?_
  clear hk
  unfold doorRead
  dsimp only
  repeat' first
    | with_reducible apply Keep.refl
    | with_reducible apply keep_doorGrant
    | with_reducible apply keep_doorSend
    | with_reducible apply keep_recordUes
    | with_reducible apply keep_countCe
    | with_reducible apply Keep.ite
    | with_reducible apply Keep.foldl
    | intro _

theorem keep_doorWrite {s₀ s : State} (hk : Keep s₀ s) (x) :
    Keep s₀ (doorWrite s x) := by
  refine hk.trans ?_
  clear hk
  unfold doorWrite
  dsimp only
  repeat' first
    | with_reducible apply Keep.refl
    | with_reducible apply keep_doorGrant
    | with_reducible apply keep_doorSend
    | with_reducible apply keep_returnCredits
    | with_reducible apply keep_recordUeBlends
    | with_reducible apply keep_correctMerges
    | with_reducible apply keep_storeUnchecked
    | with_reducible apply Keep.ite

theorem keep_doorAccess {s₀ s : State} (hk : Keep s₀ s) (x) :
    Keep s₀ (doorAccess s x) := by
  refine hk.trans ?_
  clear hk
  unfold doorAccess
  repeat' first
    | with_reducible apply Keep.refl
    | with_reducible apply keep_doorWrite
    | with_reducible apply keep_doorRead
    | with_reducible apply Keep.ite

theorem keep_releaseDoor {s₀ s : State} (hk : Keep s₀ s) :
    Keep s₀ (releaseDoor s) := by
  refine hk.trans ?_
  clear hk
  unfold releaseDoor
  dsimp only
  repeat' first
    | with_reducible apply Keep.refl
    | with_reducible apply keep_doorAccess
    | with_reducible apply Keep.ite
    | with_reducible apply Keep.foldl
    | intro _
    | simp only [Keep.mk_iff]

/-! ### Export -/

theorem keep_performTxn {s₀ s : State} (hk : Keep s₀ s) (rw : RegWr) (hrw : ∀ {s₀ s : State}, Keep s₀ s → ∀ o v, Keep s₀ (rw s o v)) (port t) :
    Keep s₀ (performTxn rw s port t) := by
  refine hk.trans ?_
  clear hk
  unfold performTxn
  dsimp only
  repeat' first
    | with_reducible apply Keep.refl
    | assumption
    | with_reducible apply keep_serveMulti
    | with_reducible apply keep_serveAtomic
    | with_reducible apply keep_serveWrite
    | with_reducible apply keep_serveRead
    | with_reducible apply keep_sendAnswer
    | with_reducible apply Keep.ite

theorem keep_localTxn {s₀ s : State} (hk : Keep s₀ s) (rw : RegWr) (hrw : ∀ {s₀ s : State}, Keep s₀ s → ∀ o v, Keep s₀ (rw s o v)) (port t) :
    Keep s₀ (localTxn rw s port t) := by
  refine hk.trans ?_
  clear hk
  unfold localTxn
  dsimp only
  repeat' first
    | with_reducible apply Keep.refl
    | assumption
    | with_reducible apply keep_performTxn
    | with_reducible apply Keep.ite
    | simp only [Keep.mk_iff]

theorem keep_releaseFabric {s₀ s : State} (hk : Keep s₀ s) (rw : RegWr) (hrw : ∀ {s₀ s : State}, Keep s₀ s → ∀ o v, Keep s₀ (rw s o v)) :
    Keep s₀ (releaseFabric rw s) := by
  refine hk.trans ?_
  clear hk
  unfold releaseFabric
  dsimp only
  repeat' first
    | with_reducible apply Keep.refl
    | assumption
    | with_reducible apply keep_performTxn
    | with_reducible apply Keep.ite
    | with_reducible apply Keep.foldl
    | intro _
    | simp only [Keep.mk_iff]

theorem keep_answerX {s₀ s : State} (hk : Keep s₀ s) (t status lanes data ingress) :
    Keep s₀ (answerX s t status lanes data ingress) := by
  refine hk.trans ?_
  clear hk
  unfold answerX
  dsimp only
  repeat' first
    | with_reducible apply Keep.refl
    | with_reducible apply keep_sendAnswer
    | with_reducible apply Keep.ite
    | split

theorem keep_passedRx {s₀ s : State} (hk : Keep s₀ s) (port t) :
    Keep s₀ (passedRx s port t) := by
  refine hk.trans ?_
  clear hk
  unfold passedRx
  repeat' first
    | with_reducible apply Keep.refl
    | with_reducible apply keep_takeRx

theorem keep_exportTxn {s₀ s : State} (hk : Keep s₀ s) (port t owes) :
    Keep s₀ (exportTxn s port t owes) := by
  refine hk.trans ?_
  clear hk
  unfold exportTxn
  dsimp only
  repeat' first
    | with_reducible apply Keep.refl
    | with_reducible apply keep_passedRx
    | with_reducible apply keep_answerX
    | with_reducible apply keep_doorSend
    | with_reducible apply keep_fillPool
    | with_reducible apply keep_takePool
    | with_reducible apply keep_setMod
    | with_reducible apply keep_bump
    | with_reducible apply Keep.ite
    | with_reducible apply Keep.iteFst
    | simp only [Keep.mk_iff]
    | split

theorem keep_drainExport {s₀ s : State} (hk : Keep s₀ s) :
    Keep s₀ (drainExport s) := by
  refine hk.trans ?_
  clear hk
  unfold drainExport
  dsimp only
  repeat' first
    | with_reducible apply Keep.refl
    | with_reducible apply keep_exportTxn
    | with_reducible apply Keep.foldl
    | intro _
    | simp only [Keep.mk_iff]

theorem keep_dropX {s₀ s : State} (hk : Keep s₀ s) (m x) :
    Keep s₀ (dropX s m x) := by
  refine hk.trans ?_
  clear hk
  unfold dropX
  dsimp only
  repeat' first
    | with_reducible apply Keep.refl
    | with_reducible apply keep_setMod

theorem keep_expireX {s₀ s : State} (hk : Keep s₀ s) (m x) :
    Keep s₀ (expireX s m x) := by
  refine hk.trans ?_
  clear hk
  unfold expireX
  dsimp only
  repeat' first
    | with_reducible apply Keep.refl
    | with_reducible apply keep_dropX
    | with_reducible apply keep_answerX
    | with_reducible apply keep_dropBlock
    | with_reducible apply keep_bump
    | with_reducible apply Keep.ite

theorem keep_takeXcpl {s₀ s : State} (hk : Keep s₀ s) (m tag status lenM1 data) :
    Keep s₀ (takeXcpl s m tag status lenM1 data) := by
  refine hk.trans ?_
  clear hk
  unfold takeXcpl
  dsimp only
  repeat' first
    | with_reducible apply Keep.refl
    | with_reducible apply keep_dropX
    | with_reducible apply keep_drainExport
    | with_reducible apply keep_answerX
    | with_reducible apply keep_returnCredits
    | with_reducible apply keep_fillPool
    | with_reducible apply Keep.ite
    | split

theorem keep_takeXack {s₀ s : State} (hk : Keep s₀ s) (m tag status lanes) :
    Keep s₀ (takeXack s m tag status lanes) := by
  refine hk.trans ?_
  clear hk
  unfold takeXack
  dsimp only
  repeat' first
    | with_reducible apply Keep.refl
    | with_reducible apply keep_dropX
    | with_reducible apply keep_drainExport
    | with_reducible apply keep_answerX
    | with_reducible apply keep_returnCredits
    | with_reducible apply Keep.ite
    | split

theorem keep_cutReg {s₀ s : State} (hk : Keep s₀ s) (m) :
    Keep s₀ (cutReg s m) := by
  refine hk.trans ?_
  clear hk
  unfold cutReg
  dsimp only
  repeat' first
    | with_reducible apply Keep.refl
    | with_reducible apply keep_refillReg
    | simp only [Keep.mk_iff]

theorem keep_masterReset {s₀ s : State} (hk : Keep s₀ s) (m drop) :
    Keep s₀ (masterReset s m drop) := by
  refine hk.trans ?_
  clear hk
  unfold masterReset
  dsimp only
  repeat' first
    | with_reducible apply Keep.refl
    | with_reducible apply keep_cutReg
    | with_reducible apply keep_expireX
    | with_reducible apply keep_drainExport
    | with_reducible apply keep_setMod
    | with_reducible apply keep_bump
    | with_reducible apply Keep.ite
    | with_reducible apply Keep.foldl
    | intro _
    | simp only [Keep.mk_iff]

/-! ### Boot -/

theorem keep_placeWindow {s₀ s : State} (hk : Keep s₀ s) (win) :
    Keep s₀ (placeWindow s win) := by
  refine hk.trans ?_
  clear hk
  unfold placeWindow
  dsimp only
  repeat' first
    | with_reducible apply Keep.refl
    | with_reducible apply keep_regWriteCore
    | with_reducible apply keep_evRegDenied
    | with_reducible apply Keep.ite
    | with_reducible apply Keep.foldl
    | intro _

theorem keep_placeSect {s₀ s : State} (hk : Keep s₀ s) (bs warm x) :
    Keep s₀ (placeSect bs warm s x) := by
  refine hk.trans ?_
  clear hk
  unfold placeSect
  dsimp only
  repeat' first
    | with_reducible apply Keep.refl
    | with_reducible apply keep_placeWindow
    | with_reducible apply keep_evUnmappedLines
    | with_reducible apply keep_recordUeBlends
    | with_reducible apply keep_correctMerges
    | with_reducible apply keep_evForeign
    | with_reducible apply keep_storeUnchecked
    | with_reducible apply Keep.ite

theorem keep_placeAll {s₀ s : State} (hk : Keep s₀ s) (bs warm) :
    Keep s₀ (placeAll s bs warm) := by
  refine hk.trans ?_
  clear hk
  unfold placeAll
  repeat' first
    | with_reducible apply Keep.refl
    | with_reducible apply keep_placeSect
    | with_reducible apply Keep.foldl
    | intro _

theorem keep_loadRoutes {s₀ s : State} (hk : Keep s₀ s) :
    Keep s₀ (loadRoutes s) := by
  refine hk.trans ?_
  clear hk
  unfold loadRoutes
  dsimp only
  repeat' first
    | with_reducible apply Keep.refl
    | simp only [Keep.mk_iff]

theorem keep_copySkipped {s₀ s : State} (hk : Keep s₀ s) (i n) :
    Keep s₀ (copySkipped s i n) := by
  refine hk.trans ?_
  clear hk
  unfold copySkipped
  repeat' first
    | with_reducible apply Keep.refl
    | with_reducible apply keep_emit

theorem keep_runCopy {s₀ s : State} (hk : Keep s₀ s) (i ws) :
    Keep s₀ (runCopy s i ws) := by
  refine hk.trans ?_
  clear hk
  unfold runCopy
  dsimp only
  repeat' first
    | with_reducible apply Keep.refl
    | assumption
    | with_reducible apply keep_copySkipped
    | with_reducible apply keep_regWriteCore
    | with_reducible apply keep_masterLine
    | with_reducible apply keep_slowCopy
    | with_reducible apply Keep.ite
    | intro _
    | split

theorem keep_runCopies {s₀ s : State} (hk : Keep s₀ s) (bs warm) :
    Keep s₀ (runCopies s bs warm) := by
  refine hk.trans ?_
  clear hk
  unfold runCopies
  dsimp only
  repeat' first
    | with_reducible apply Keep.refl
    | with_reducible apply keep_runCopy
    | with_reducible apply Keep.foldl
    | intro _

theorem keep_orphan {s₀ s : State} (hk : Keep s₀ s) (w1 line) :
    Keep s₀ (orphan s w1 line) := by
  refine hk.trans ?_
  clear hk
  unfold orphan
  repeat' first
    | with_reducible apply Keep.refl
    | with_reducible apply keep_emit

theorem keep_discardJournal {s₀ s : State} (hk : Keep s₀ s) (bs line) :
    Keep s₀ (discardJournal s bs line) := by
  refine hk.trans ?_
  clear hk
  unfold discardJournal
  dsimp only
  repeat' first
    | with_reducible apply Keep.refl
    | with_reducible apply keep_masterLine
    | with_reducible apply keep_writeBack
    | with_reducible apply keep_emit
    | with_reducible apply keep_setHandle
    | with_reducible apply Keep.ite

theorem keep_resumeJournal {s₀ : State} {z : Recovery} (hk : Keep s₀ z.s) (bs line) :
    Keep s₀ (resumeJournal z bs line).s := by
  unfold resumeJournal
  dsimp only
  split
  · split
    · exact keep_orphan (keep_masterLine hk _) _ _
    · exact keep_trStore (keep_masterLine hk _) _ _
  · exact keep_orphan (keep_masterLine hk _) _ _

theorem keep_scanJournals {s₀ s : State} (hk : Keep s₀ s) : Keep s₀ (scanJournals s) := by
  unfold scanJournals
  have h : ∀ (f : Recovery → Nat → Recovery), (∀ z i, Keep s₀ z.s → Keep s₀ (f z i).s) →
      ∀ (l : List Nat) (z : Recovery), Keep s₀ z.s → Keep s₀ (l.foldl f z).s := by
    intro f hf l
    induction l with
    | nil => intro z hz; exact hz
    | cons i r ih => intro z hz; exact ih _ (hf z i hz)
  refine h _ ?_ _ _ hk
  intro z i hz
  dsimp only
  split
  · split
    · exact keep_discardJournal (keep_masterLine hz _) _ _
    · exact keep_resumeJournal (keep_masterLine hz _) _ _
  · exact keep_masterLine hz _

theorem keep_applyImage {s₀ s : State} (hk : Keep s₀ s) (bs source reused) :
    Keep s₀ (applyImage s bs source reused) := by
  refine hk.trans ?_
  clear hk
  unfold applyImage
  dsimp only
  repeat' first
    | with_reducible apply Keep.refl
    | with_reducible apply keep_scanJournals
    | with_reducible apply keep_runCopies
    | with_reducible apply keep_loadRoutes
    | with_reducible apply keep_releaseDoor
    | with_reducible apply keep_imageWrite
    | with_reducible apply keep_readRings
    | with_reducible apply keep_buildHandles
    | with_reducible apply keep_rsetBit
    | with_reducible apply keep_rsetFld
    | with_reducible apply keep_rset
    | with_reducible apply Keep.ite
    | with_reducible apply Keep.foldl
    | intro _
    | simp only [Keep.mk_iff]

theorem keep_reuse {s₀ s : State} (hk : Keep s₀ s) :
    Keep s₀ (reuse s) := by
  refine hk.trans ?_
  clear hk
  unfold reuse
  repeat' first
    | with_reducible apply Keep.refl
    | with_reducible apply keep_applyImage
    | split

theorem keep_tryCopy {s₀ s : State} (hk : Keep s₀ s) (bs room) :
    Keep s₀ (tryCopy s bs room).1 := by
  refine hk.trans ?_
  clear hk
  unfold tryCopy
  dsimp only
  repeat' first
    | with_reducible apply Keep.refl
    | with_reducible apply keep_placeAll
    | with_reducible apply Keep.iteFst
    | split

theorem keep_goDormant {s₀ s : State} (hk : Keep s₀ s) :
    Keep s₀ (goDormant s) := by
  refine hk.trans ?_
  clear hk
  unfold goDormant
  dsimp only
  repeat' first
    | with_reducible apply Keep.refl
    | with_reducible apply keep_masterReset
    | with_reducible apply keep_emit
    | with_reducible apply keep_rsetBit
    | with_reducible apply Keep.foldl
    | intro _

theorem keep_flashLoad {s₀ s : State} (hk : Keep s₀ s) (copyA copyB) :
    Keep s₀ (flashLoad s copyA copyB) := by
  refine hk.trans ?_
  clear hk
  unfold flashLoad
  dsimp only
  repeat' first
    | with_reducible apply Keep.refl
    | with_reducible apply keep_goDormant
    | with_reducible apply keep_tryCopy
    | with_reducible apply keep_applyImage
    | with_reducible apply keep_rsetFld
    | split

theorem keep_checkResident {s₀ s : State} (hk : Keep s₀ s) :
    Keep s₀ (checkResident s) := by
  refine hk.trans ?_
  clear hk
  unfold checkResident
  repeat' first
    | with_reducible apply Keep.refl
    | with_reducible apply keep_bump
    | with_reducible apply Keep.ite

theorem keep_imageLoad {s₀ s : State} (hk : Keep s₀ s) (romParity copyA copyB) :
    Keep s₀ (imageLoad s romParity copyA copyB) := by
  refine hk.trans ?_
  clear hk
  unfold imageLoad
  dsimp only
  repeat' first
    | with_reducible apply Keep.refl
    | with_reducible apply keep_checkResident
    | with_reducible apply keep_flashLoad
    | with_reducible apply keep_goDormant
    | with_reducible apply keep_reuse
    | with_reducible apply keep_rsetFld
    | with_reducible apply Keep.ite

theorem keep_vtallyTimeout {s₀ s : State} (hk : Keep s₀ s) :
    Keep s₀ (vtallyTimeout s) := by
  refine hk.trans ?_
  clear hk
  unfold vtallyTimeout
  repeat' first
    | with_reducible apply Keep.refl
    | with_reducible apply keep_flashLoad
    | with_reducible apply Keep.ite

theorem keep_doorBoot {s₀ s : State} (hk : Keep s₀ s) :
    Keep s₀ (doorBoot s) := by
  refine hk.trans ?_
  clear hk
  unfold doorBoot
  dsimp only
  repeat' first
    | with_reducible apply Keep.refl
    | with_reducible apply keep_tryCopy
    | with_reducible apply keep_applyImage
    | with_reducible apply keep_recordUes
    | with_reducible apply keep_rsetBit
    | with_reducible apply keep_rsetFld
    | with_reducible apply Keep.ite

theorem keep_strapRegs {s₀ s : State} (hk : Keep s₀ s) (w) :
    Keep s₀ (strapRegs s w) := by
  refine hk.trans ?_
  clear hk
  unfold strapRegs
  dsimp only
  repeat' first
    | with_reducible apply Keep.refl
    | with_reducible apply keep_rsetFld
    | with_reducible apply keep_rset

theorem keep_cleared {s₀ s : State} (hk : Keep s₀ s) (power) : Keep s₀ (cleared s power) :=
  hk.trans ⟨rfl, rfl, rfl, rfl, fun _ => rfl⟩

theorem keep_startCold {s₀ s : State} (hk : Keep s₀ s) (w) :
    Keep s₀ (startCold s w) := by
  refine hk.trans ?_
  clear hk
  unfold startCold
  repeat' first
    | with_reducible apply Keep.refl
    | with_reducible apply keep_cleared
    | with_reducible apply keep_strapRegs
    | with_reducible apply keep_rset

theorem keep_coldReset {s₀ s : State} (hk : Keep s₀ s) (x) :
    Keep s₀ (coldReset s x) := by
  refine hk.trans ?_
  clear hk
  unfold coldReset
  dsimp only
  repeat' first
    | with_reducible apply Keep.refl
    | with_reducible apply keep_startCold
    | with_reducible apply keep_cleared
    | with_reducible apply keep_strapRegs
    | with_reducible apply Keep.ite
    | simp only [Keep.mk_iff]

theorem keep_coldResetStart {s₀ s : State} (hk : Keep s₀ s) :
    Keep s₀ (coldResetStart s) := by
  refine hk.trans ?_
  clear hk
  unfold coldResetStart
  dsimp only
  repeat' first
    | with_reducible apply Keep.refl
    | with_reducible apply keep_cleared
    | simp only [Keep.mk_iff]

theorem keep_railFault {s₀ s : State} (hk : Keep s₀ s) :
    Keep s₀ (railFault s) := by
  refine hk.trans ?_
  clear hk
  unfold railFault
  repeat' first
    | with_reducible apply Keep.refl
    | with_reducible apply keep_cleared
    | with_reducible apply keep_strapRegs

theorem keep_railsRestored {s₀ s : State} (hk : Keep s₀ s) :
    Keep s₀ (railsRestored s) := by
  refine hk.trans ?_
  clear hk
  unfold railsRestored
  repeat' first
    | with_reducible apply Keep.refl
    | with_reducible apply keep_startCold
    | with_reducible apply keep_cleared
    | with_reducible apply Keep.ite

theorem keep_warmReset {s₀ s : State} (hk : Keep s₀ s) (cause straps) :
    Keep s₀ (warmReset s cause straps) := by
  refine hk.trans ?_
  clear hk
  unfold warmReset
  dsimp only
  repeat' first
    | with_reducible apply Keep.refl
    | with_reducible apply keep_strapRegs
    | with_reducible apply keep_rset
    | with_reducible apply Keep.foldl
    | intro _
    | simp only [Keep.mk_iff]

theorem keep_warmPulse {s₀ s : State} (hk : Keep s₀ s) (strapWarm) :
    Keep s₀ (warmPulse s strapWarm) := by
  refine hk.trans ?_
  clear hk
  unfold warmPulse
  repeat' first
    | with_reducible apply Keep.refl
    | with_reducible apply keep_warmReset
    | with_reducible apply Keep.ite

theorem keep_wsFault {s₀ s : State} (hk : Keep s₀ s) :
    Keep s₀ (wsFault s) := by
  refine hk.trans ?_
  clear hk
  unfold wsFault
  repeat' first
    | with_reducible apply Keep.refl
    | with_reducible apply keep_warmReset
    | with_reducible apply keep_emitFault
    | with_reducible apply keep_bump
    | with_reducible apply Keep.ite
    | split

theorem keep_wakeFail {s₀ s : State} (hk : Keep s₀ s) (op m bank row) :
    Keep s₀ (wakeFail s op m bank row) := by
  refine hk.trans ?_
  clear hk
  unfold wakeFail
  repeat' first
    | with_reducible apply Keep.refl
    | with_reducible apply keep_emitFault
    | with_reducible apply keep_bump

theorem keep_remapCold {s₀ s : State} (hk : Keep s₀ s) (m) :
    Keep s₀ (remapCold s m) := by
  refine hk.trans ?_
  clear hk
  unfold remapCold
  dsimp only
  repeat' first
    | with_reducible apply Keep.refl
    | with_reducible apply keep_binFailed
    | with_reducible apply keep_judgeReplace
    | with_reducible apply keep_rsetBit
    | with_reducible apply keep_rsetFld
    | with_reducible apply Keep.ite
    | split

theorem keep_finishCopies {s₀ s : State} (hk : Keep s₀ s) (a) :
    Keep s₀ (finishCopies s a) := by
  refine hk.trans ?_
  clear hk
  induction a generalizing s with
  | zero => unfold finishCopies; exact Keep.refl
  | succ kk ih =>
    have ihk : ∀ {s₀ s : State}, Keep s₀ s → Keep s₀ (finishCopies s kk) := by intros; exact Keep.trans ‹_› (ih ..)
    clear ih
    unfold finishCopies
    repeat' first
      | with_reducible apply Keep.refl
      | with_reducible apply ihk
      | with_reducible apply keep_remapCopied
      | with_reducible apply Keep.ite

theorem keep_warmMarch {s₀ s : State} (hk : Keep s₀ s) (failed) :
    Keep s₀ (warmMarch s failed) := by
  refine hk.trans ?_
  clear hk
  unfold warmMarch
  repeat' first
    | with_reducible apply Keep.refl
    | with_reducible apply keep_scrubBin
    | with_reducible apply Keep.foldl
    | intro _

theorem keep_cellarReady {s₀ s : State} (hk : Keep s₀ s) (edge : State → State)
    (he : ∀ {s₀ s : State}, Keep s₀ s → Keep s₀ (edge s)) (failed) : Keep s₀ (cellarReady edge s failed) := by
  refine hk.trans ?_
  clear hk
  unfold cellarReady
  dsimp only
  repeat' first
    | with_reducible apply Keep.refl
    | assumption
    | with_reducible apply he
    | with_reducible apply keep_warmMarch
    | with_reducible apply keep_finishCopies
    | with_reducible apply keep_remapCold
    | with_reducible apply keep_wakeFail
    | with_reducible apply keep_doorBoot
    | with_reducible apply keep_releaseFabric
    | with_reducible apply keep_releaseDoor
    | with_reducible apply keep_regWriteCore
    | with_reducible apply keep_takeRole
    | with_reducible apply keep_failBin
    | with_reducible apply keep_rsetBit
    | with_reducible apply Keep.ite
    | with_reducible apply Keep.foldl
    | intro _
    | simp only [Keep.mk_iff]

theorem keep_execColdReset (s : State) (straps) :
    KeepOut s (execColdReset straps s) := by
  unfold execColdReset
  repeat' first
    | with_reducible apply Keep.refl
    | with_reducible apply KeepOut.next
    | with_reducible apply keep_coldReset

theorem keep_execColdResetStart (s : State) :
    KeepOut s (execColdResetStart s) := by
  unfold execColdResetStart
  repeat' first
    | with_reducible apply Keep.refl
    | with_reducible apply KeepOut.next
    | with_reducible apply keep_coldResetStart

theorem keep_execWarmReset (s : State) (strapWarm) :
    KeepOut s (execWarmReset strapWarm s) := by
  unfold execWarmReset
  repeat' first
    | with_reducible apply Keep.refl
    | with_reducible apply KeepOut.next
    | with_reducible apply keep_warmPulse

theorem keep_execRailOrPllFault (s : State) :
    KeepOut s (execRailOrPllFault s) := by
  unfold execRailOrPllFault
  repeat' first
    | with_reducible apply Keep.refl
    | with_reducible apply KeepOut.next
    | with_reducible apply keep_railFault

theorem keep_execRailsRestored (s : State) :
    KeepOut s (execRailsRestored s) := by
  unfold execRailsRestored
  repeat' first
    | with_reducible apply Keep.refl
    | with_reducible apply KeepOut.next
    | with_reducible apply keep_railsRestored

theorem keep_execImageLoad (s : State) (romParity copyA copyB) :
    KeepOut s (execImageLoad romParity copyA copyB s) := by
  unfold execImageLoad
  repeat' first
    | with_reducible apply Keep.refl
    | with_reducible apply KeepOut.next
    | with_reducible apply keep_imageLoad

theorem keep_execVtallyWaitTimeout (s : State) :
    KeepOut s (execVtallyWaitTimeout s) := by
  unfold execVtallyWaitTimeout
  repeat' first
    | with_reducible apply Keep.refl
    | with_reducible apply KeepOut.next
    | with_reducible apply keep_vtallyTimeout

/-! ### Access -/

theorem keep_regWrite {s₀ s : State} (hk : Keep s₀ s) (key off v) :
    Keep s₀ (regWrite key s off v) := by
  refine hk.trans ?_
  clear hk
  unfold regWrite
  dsimp only
  repeat' first
    | with_reducible apply Keep.refl
    | with_reducible apply keep_doorBoot
    | with_reducible apply keep_regWriteCore
    | with_reducible apply Keep.ite

theorem keep_evNoPath {s₀ s : State} (hk : Keep s₀ s) (master off) :
    Keep s₀ (evNoPath s master off) := by
  refine hk.trans ?_
  clear hk
  unfold evNoPath
  repeat' first
    | with_reducible apply Keep.refl
    | with_reducible apply keep_emit

theorem keep_turnedAway {s₀ s : State} (hk : Keep s₀ s) (src off) :
    Keep s₀ (turnedAway s src off) := by
  refine hk.trans ?_
  clear hk
  unfold turnedAway
  repeat' first
    | with_reducible apply Keep.refl
    | with_reducible apply keep_evNoPath
    | with_reducible apply keep_evRegDenied
    | with_reducible apply Keep.ite
    | split

theorem keep_partialDenied {s₀ s : State} (hk : Keep s₀ s) (src off) :
    Keep s₀ (partialDenied s src off) := by
  refine hk.trans ?_
  clear hk
  unfold partialDenied
  repeat' first
    | with_reducible apply Keep.refl
    | with_reducible apply keep_evRegDenied
    | split

theorem keep_srcWrite {s₀ s : State} (hk : Keep s₀ s) (src off v enables) :
    Keep s₀ (srcWrite s src off v enables) := by
  refine hk.trans ?_
  clear hk
  unfold srcWrite
  repeat' first
    | with_reducible apply Keep.refl
    | with_reducible apply keep_partialDenied
    | with_reducible apply keep_turnedAway
    | with_reducible apply keep_regWrite
    | with_reducible apply Keep.ite

theorem keep_srcRead {s₀ s : State} (hk : Keep s₀ s) (src off) :
    Keep s₀ (srcRead s src off) := by
  refine hk.trans ?_
  clear hk
  unfold srcRead
  repeat' first
    | with_reducible apply Keep.refl
    | with_reducible apply keep_turnedAway
    | with_reducible apply keep_regRead
    | with_reducible apply Keep.ite

theorem keep_execRegisterWrite (s : State) (src off value enables) :
    KeepOut s (execRegisterWrite src off value enables s) := by
  unfold execRegisterWrite
  repeat' first
    | with_reducible apply Keep.refl
    | with_reducible apply KeepOut.next
    | with_reducible apply keep_srcWrite

theorem keep_execLoRead (s : State) (src off) :
    KeepOut s (execLoRead src off s) := by
  unfold execLoRead
  repeat' first
    | with_reducible apply Keep.refl
    | with_reducible apply KeepOut.next
    | with_reducible apply keep_srcRead

theorem keep_execVcOpen (s : State) (src handle slot) :
    KeepOut s (execVcOpen src handle slot s) := by
  unfold execVcOpen
  repeat' first
    | with_reducible apply Keep.refl
    | with_reducible apply KeepOut.next
    | with_reducible apply keep_srcWrite

theorem keep_execVcFlip (s : State) (src handle slot) :
    KeepOut s (execVcFlip src handle slot s) := by
  unfold execVcFlip
  repeat' first
    | with_reducible apply Keep.refl
    | with_reducible apply KeepOut.next
    | with_reducible apply keep_srcWrite

theorem keep_execVcDiscard (s : State) (src handle slot) :
    KeepOut s (execVcDiscard src handle slot s) := by
  unfold execVcDiscard
  repeat' first
    | with_reducible apply Keep.refl
    | with_reducible apply KeepOut.next
    | with_reducible apply keep_srcWrite

theorem keep_execVcRetire (s : State) (src handle slot) :
    KeepOut s (execVcRetire src handle slot s) := by
  unfold execVcRetire
  repeat' first
    | with_reducible apply Keep.refl
    | with_reducible apply KeepOut.next
    | with_reducible apply keep_srcWrite

theorem keep_execMarchDestroy (s : State) (src bin) :
    KeepOut s (execMarchDestroy src bin s) := by
  unfold execMarchDestroy
  repeat' first
    | with_reducible apply Keep.refl
    | with_reducible apply KeepOut.next
    | with_reducible apply keep_srcWrite

theorem keep_execMarchPreserve (s : State) (src bin) :
    KeepOut s (execMarchPreserve src bin s) := by
  unfold execMarchPreserve
  repeat' first
    | with_reducible apply Keep.refl
    | with_reducible apply KeepOut.next
    | with_reducible apply keep_srcWrite

theorem keep_execTaste (s : State) (src p) :
    KeepOut s (execTaste src p s) := by
  unfold execTaste
  repeat' first
    | with_reducible apply Keep.refl
    | with_reducible apply KeepOut.next
    | with_reducible apply keep_srcWrite

theorem keep_execPressReset (s : State) (src hi value) :
    KeepOut s (execPressReset src hi value s) := by
  unfold execPressReset
  repeat' first
    | with_reducible apply Keep.refl
    | with_reducible apply KeepOut.next
    | with_reducible apply keep_srcWrite

theorem keep_execPressResetStart (s : State) (p) :
    KeepOut s (execPressResetStart p s) := by
  unfold execPressResetStart
  repeat' first
    | with_reducible apply Keep.refl
    | with_reducible apply KeepOut.next
    | with_reducible apply keep_pressResetStart

theorem keep_execLinkReset (s : State) (src port) :
    KeepOut s (execLinkReset src port s) := by
  unfold execLinkReset
  repeat' first
    | with_reducible apply Keep.refl
    | with_reducible apply KeepOut.next
    | with_reducible apply keep_srcWrite

theorem keep_execLinkRelease (s : State) (src port) :
    KeepOut s (execLinkRelease src port s) := by
  unfold execLinkRelease
  repeat' first
    | with_reducible apply Keep.refl
    | with_reducible apply KeepOut.next
    | with_reducible apply keep_srcWrite

theorem keep_execReacquire (s : State) (src) :
    KeepOut s (execReacquire src s) := by
  unfold execReacquire
  dsimp only
  repeat' first
    | with_reducible apply Keep.refl
    | with_reducible apply KeepOut.next
    | with_reducible apply keep_srcWrite

theorem keep_execBootGo (s : State) (src line) :
    KeepOut s (execBootGo src line s) := by
  unfold execBootGo
  repeat' first
    | with_reducible apply Keep.refl
    | with_reducible apply KeepOut.next
    | with_reducible apply keep_srcWrite

/-! ### Fabric -/

theorem keep_passOn {s₀ s : State} (hk : Keep s₀ s) (port t) :
    Keep s₀ (passOn s port t) := by
  refine hk.trans ?_
  clear hk
  unfold passOn
  dsimp only
  repeat' first
    | with_reducible apply Keep.refl
    | with_reducible apply keep_passedRx
    | with_reducible apply keep_forwardTxn
    | with_reducible apply keep_dropPool
    | with_reducible apply keep_fillPool
    | with_reducible apply keep_takePool
    | with_reducible apply Keep.ite

theorem keep_passThrough {s₀ s : State} (hk : Keep s₀ s) (port t) :
    Keep s₀ (passThrough s port t) := by
  refine hk.trans ?_
  clear hk
  unfold passThrough
  dsimp only
  repeat' first
    | with_reducible apply Keep.refl
    | with_reducible apply keep_passOn
    | with_reducible apply Keep.ite
    | simp only [Keep.mk_iff]

theorem keep_multiOn {s₀ s : State} (hk : Keep s₀ s) (port t) :
    Keep s₀ (multiOn s port t) := by
  refine hk.trans ?_
  clear hk
  unfold multiOn
  dsimp only
  repeat' first
    | with_reducible apply Keep.refl
    | with_reducible apply keep_sendMulticast
    | with_reducible apply keep_countUnrouted
    | with_reducible apply keep_dropPool
    | with_reducible apply keep_fillPool
    | with_reducible apply keep_takePool
    | with_reducible apply Keep.ite

theorem keep_multiThrough {s₀ s : State} (hk : Keep s₀ s) (port t) :
    Keep s₀ (multiThrough s port t) := by
  refine hk.trans ?_
  clear hk
  unfold multiThrough
  dsimp only
  repeat' first
    | with_reducible apply Keep.refl
    | with_reducible apply keep_multiOn
    | with_reducible apply keep_passedRx
    | with_reducible apply Keep.ite
    | simp only [Keep.mk_iff]

theorem keep_drainPool {s₀ s : State} (hk : Keep s₀ s) :
    Keep s₀ (drainPool s) := by
  refine hk.trans ?_
  clear hk
  unfold drainPool
  dsimp only
  repeat' first
    | with_reducible apply Keep.refl
    | with_reducible apply keep_multiThrough
    | with_reducible apply keep_passThrough
    | with_reducible apply keep_drainExport
    | with_reducible apply Keep.ite
    | with_reducible apply Keep.foldl
    | intro _
    | simp only [Keep.mk_iff]

theorem keep_taken {s₀ s : State} (hk : Keep s₀ s) (port t) :
    Keep s₀ (taken s port t) := by
  refine hk.trans ?_
  clear hk
  unfold taken
  repeat' first
    | with_reducible apply Keep.refl
    | with_reducible apply keep_takeRx

theorem keep_request {s₀ s : State} (hk : Keep s₀ s) (port t) :
    Keep s₀ (request s port t) := by
  refine hk.trans ?_
  clear hk
  unfold request
  repeat' first
    | with_reducible apply Keep.refl
    | assumption
    | with_reducible apply keep_taken
    | with_reducible apply keep_passThrough
    | with_reducible apply keep_regWrite
    | with_reducible apply keep_exportTxn
    | with_reducible apply keep_answerX
    | with_reducible apply keep_localTxn
    | with_reducible apply Keep.ite
    | intro _

theorem keep_multiHere {s₀ s : State} (hk : Keep s₀ s) (port t r) :
    Keep s₀ (multiHere s port t r) := by
  refine hk.trans ?_
  clear hk
  unfold multiHere
  dsimp only
  repeat' first
    | with_reducible apply Keep.refl
    | assumption
    | with_reducible apply keep_regWrite
    | with_reducible apply keep_exportTxn
    | with_reducible apply keep_answerX
    | with_reducible apply keep_localTxn
    | with_reducible apply keep_noteLast
    | with_reducible apply keep_rejoinKey
    | with_reducible apply Keep.ite
    | intro _

theorem keep_leaveRx {s₀ s : State} (hk : Keep s₀ s) (n t) :
    Keep s₀ (leaveRx s n t) := by
  unfold leaveRx
  exact keep_setPort hk _ _

theorem keep_multicastIn {s₀ s : State} (hk : Keep s₀ s) (port t) :
    Keep s₀ (multicastIn s port t) := by
  refine hk.trans ?_
  clear hk
  unfold multicastIn
  dsimp only
  repeat' first
    | with_reducible apply Keep.refl
    | with_reducible apply keep_multiHere
    | with_reducible apply keep_multiThrough
    | with_reducible apply keep_leaveRx
    | with_reducible apply Keep.ite
    | with_reducible apply Keep.foldl
    | intro _

theorem keep_takeRecall {s₀ s : State} (hk : Keep s₀ s) (t) :
    Keep s₀ (takeRecall s t) := by
  refine hk.trans ?_
  clear hk
  unfold takeRecall
  dsimp only
  repeat' first
    | with_reducible apply Keep.refl
    | with_reducible apply keep_queueEvt
    | with_reducible apply keep_emit
    | with_reducible apply keep_bump
    | with_reducible apply Keep.ite
    | with_reducible apply Keep.foldl
    | with_reducible apply keep_setMem
    | with_reducible apply sbPut_keep
    | intro _
    | simp only [Keep.mk_iff]

theorem keep_takeGap {s₀ s : State} (hk : Keep s₀ s) (t) :
    Keep s₀ (takeGap s t) := by
  refine hk.trans ?_
  clear hk
  unfold takeGap
  dsimp only
  repeat' first
    | with_reducible apply Keep.refl
    | with_reducible apply keep_emit
    | with_reducible apply keep_bump
    | with_reducible apply Keep.ite
    | simp only [Keep.mk_iff]
    | split

theorem keep_takeOr {s₀ s : State} (hk : Keep s₀ s) (port t) (f : State → State)
    (hf : ∀ {s₀ s : State}, Keep s₀ s → Keep s₀ (f s)) : Keep s₀ (takeOr s port t f) := by
  unfold takeOr
  split
  · split
    · exact hf (keep_taken hk _ _)
    · exact keep_passThrough hk _ _
  · exact hk

theorem keep_reservedTxn {s₀ s : State} (hk : Keep s₀ s) (port t) :
    Keep s₀ (reservedTxn s port t) := by
  refine hk.trans ?_
  clear hk
  unfold reservedTxn
  repeat' first
    | with_reducible apply Keep.refl
    | with_reducible apply keep_takeRx
    | with_reducible apply keep_bump
    | with_reducible apply Keep.ite

theorem keep_recallExpiry {s₀ s : State} (hk : Keep s₀ s) :
    Keep s₀ (recallExpiry s) := by
  refine hk.trans ?_
  clear hk
  unfold recallExpiry
  dsimp only
  repeat' first
    | with_reducible apply Keep.refl
    | simp only [Keep.mk_iff]

theorem keep_execFabRead (s : State) (port t) :
    KeepOut s (execFabRead port t s) := by
  unfold execFabRead
  repeat' first
    | with_reducible apply Keep.refl
    | with_reducible apply KeepOut.next
    | with_reducible apply keep_request

theorem keep_execFabWrite (s : State) (port t) :
    KeepOut s (execFabWrite port t s) := by
  unfold execFabWrite
  repeat' first
    | with_reducible apply Keep.refl
    | with_reducible apply KeepOut.next
    | with_reducible apply keep_request

theorem keep_execAtomicAdd (s : State) (port t) :
    KeepOut s (execAtomicAdd port t s) := by
  unfold execAtomicAdd
  repeat' first
    | with_reducible apply Keep.refl
    | with_reducible apply KeepOut.next
    | with_reducible apply keep_request

theorem keep_execMulticastWrite (s : State) (port t) :
    KeepOut s (execMulticastWrite port t s) := by
  unfold execMulticastWrite
  repeat' first
    | with_reducible apply Keep.refl
    | with_reducible apply KeepOut.next
    | with_reducible apply keep_multicastIn

theorem keep_execRecall (s : State) (port t) :
    KeepOut s (execRecall port t s) := by
  unfold execRecall
  dsimp only
  repeat' first
    | with_reducible apply Keep.refl
    | assumption
    | with_reducible apply KeepOut.next
    | with_reducible apply keep_takeOr
    | with_reducible apply keep_takeRecall
    | intro _

theorem keep_execGap (s : State) (port t) :
    KeepOut s (execGap port t s) := by
  unfold execGap
  dsimp only
  repeat' first
    | with_reducible apply Keep.refl
    | assumption
    | with_reducible apply KeepOut.next
    | with_reducible apply keep_takeOr
    | with_reducible apply keep_takeGap
    | intro _

theorem keep_execReadRsp (s : State) (port t) :
    KeepOut s (execReadRsp port t s) := by
  unfold execReadRsp
  dsimp only
  repeat' first
    | with_reducible apply Keep.refl
    | assumption
    | with_reducible apply KeepOut.next
    | with_reducible apply keep_takeOr
    | with_reducible apply keep_rspReceived
    | intro _

theorem keep_execAck (s : State) (port t) :
    KeepOut s (execAck port t s) := by
  unfold execAck
  dsimp only
  repeat' first
    | with_reducible apply Keep.refl
    | assumption
    | with_reducible apply KeepOut.next
    | with_reducible apply keep_takeOr
    | with_reducible apply keep_drainPool
    | with_reducible apply keep_ackReceived
    | intro _

theorem keep_execFabReservedType (s : State) (port t) :
    KeepOut s (execFabReservedType port t s) := by
  unfold execFabReservedType
  repeat' first
    | with_reducible apply Keep.refl
    | with_reducible apply KeepOut.next
    | with_reducible apply keep_reservedTxn

theorem keep_execRecallTableExpiry (s : State) :
    KeepOut s (execRecallTableExpiry s) := by
  unfold execRecallTableExpiry
  repeat' first
    | with_reducible apply Keep.refl
    | with_reducible apply KeepOut.next
    | with_reducible apply keep_recallExpiry

/-! ### Door -/

theorem keep_takeAccess {s₀ s : State} (hk : Keep s₀ s) (x) :
    Keep s₀ (takeAccess s x) := by
  refine hk.trans ?_
  clear hk
  unfold takeAccess
  dsimp only
  repeat' first
    | with_reducible apply Keep.refl
    | with_reducible apply keep_doorAccess
    | with_reducible apply Keep.ite
    | simp only [Keep.mk_iff]

theorem keep_takeMrd {s₀ s : State} (hk : Keep s₀ s) (m addr lenM1 tag) :
    Keep s₀ (takeMrd s m addr lenM1 tag) := by
  refine hk.trans ?_
  clear hk
  unfold takeMrd
  repeat' first
    | with_reducible apply Keep.refl
    | with_reducible apply keep_takeAccess
    | with_reducible apply keep_doorSend
    | with_reducible apply Keep.ite

theorem keep_takeMwr {s₀ s : State} (hk : Keep s₀ s) (x) :
    Keep s₀ (takeMwr s x) := by
  refine hk.trans ?_
  clear hk
  unfold takeMwr
  dsimp only
  repeat' first
    | with_reducible apply Keep.refl
    | with_reducible apply keep_takeAccess
    | with_reducible apply keep_setMod
    | with_reducible apply Keep.ite

theorem keep_rcplFor {s₀ s : State} (hk : Keep s₀ s) (x code v) :
    Keep s₀ (rcplFor s x code v) := by
  refine hk.trans ?_
  clear hk
  unfold rcplFor
  repeat' first
    | with_reducible apply Keep.refl
    | with_reducible apply keep_doorSend
    | with_reducible apply Keep.ite

theorem keep_takeReg {s₀ s : State} (hk : Keep s₀ s) (x) :
    Keep s₀ (takeReg s x) := by
  refine hk.trans ?_
  clear hk
  unfold takeReg
  dsimp only
  repeat' first
    | with_reducible apply Keep.refl
    | with_reducible apply keep_enterReg
    | with_reducible apply keep_setMod
    | with_reducible apply Keep.ite

theorem keep_performReg {s₀ s : State} (hk : Keep s₀ s) (x off) :
    Keep s₀ (performReg s x off) := by
  refine hk.trans ?_
  clear hk
  unfold performReg
  dsimp only
  repeat' first
    | with_reducible apply Keep.refl
    | with_reducible apply keep_rcplFor
    | with_reducible apply keep_regWrite
    | with_reducible apply keep_regRead
    | split

theorem keep_grantReg {s₀ s : State} (hk : Keep s₀ s) :
    Keep s₀ (grantReg s) := by
  refine hk.trans ?_
  clear hk
  unfold grantReg
  dsimp only
  repeat' first
    | with_reducible apply Keep.refl
    | with_reducible apply keep_rcplFor
    | with_reducible apply keep_refillReg
    | simp only [Keep.mk_iff]
    | split

theorem keep_matrixClock {s₀ s : State} (hk : Keep s₀ s) :
    Keep s₀ (matrixClock s) := by
  refine hk.trans ?_
  clear hk
  unfold matrixClock
  dsimp only
  repeat' first
    | with_reducible apply Keep.refl
    | with_reducible apply keep_grantReg
    | with_reducible apply keep_performReg
    | simp only [Keep.mk_iff]
    | split

theorem keep_takeCrd {s₀ s : State} (hk : Keep s₀ s) (m beats headers) :
    Keep s₀ (takeCrd s m beats headers) := by
  refine hk.trans ?_
  clear hk
  unfold takeCrd
  dsimp only
  repeat' first
    | with_reducible apply Keep.refl
    | with_reducible apply keep_pumpDoor
    | with_reducible apply keep_setMod
    | with_reducible apply Keep.ite

theorem keep_takeReserved {s₀ s : State} (hk : Keep s₀ s) (m typ lenM1) :
    Keep s₀ (takeReserved s m typ lenM1) := by
  refine hk.trans ?_
  clear hk
  unfold takeReserved
  repeat' first
    | with_reducible apply Keep.refl
    | with_reducible apply keep_returnCredits
    | with_reducible apply keep_bump
    | with_reducible apply Keep.ite

theorem keep_moduleUp {s₀ s : State} (hk : Keep s₀ s) (m rate repaired) :
    Keep s₀ (moduleUp s m rate repaired) := by
  refine hk.trans ?_
  clear hk
  unfold moduleUp
  dsimp only
  repeat' first
    | with_reducible apply Keep.refl
    | with_reducible apply keep_drainExport
    | with_reducible apply keep_returnCredits
    | with_reducible apply keep_setMod
    | with_reducible apply Keep.ite

theorem keep_moduleFault {s₀ s : State} (hk : Keep s₀ s) (m) :
    Keep s₀ (moduleFault s m) := by
  refine hk.trans ?_
  clear hk
  unfold moduleFault
  repeat' first
    | with_reducible apply Keep.refl
    | with_reducible apply keep_masterReset
    | with_reducible apply Keep.ite

theorem keep_takeMrst {s₀ s : State} (hk : Keep s₀ s) (m) :
    Keep s₀ (takeMrst s m) := by
  refine hk.trans ?_
  clear hk
  unfold takeMrst
  repeat' first
    | with_reducible apply Keep.refl
    | with_reducible apply keep_masterReset
    | with_reducible apply Keep.ite

theorem keep_takeXtmo {s₀ s : State} (hk : Keep s₀ s) (m tag) :
    Keep s₀ (takeXtmo s m tag) := by
  refine hk.trans ?_
  clear hk
  unfold takeXtmo
  repeat' first
    | with_reducible apply Keep.refl
    | with_reducible apply keep_expireX
    | with_reducible apply keep_drainExport
    | split

theorem keep_pumpEvt {s₀ s : State} (hk : Keep s₀ s) (m) :
    Keep s₀ (pumpEvt s m) := by
  refine hk.trans ?_
  clear hk
  unfold pumpEvt
  dsimp only
  repeat' first
    | with_reducible apply Keep.refl
    | with_reducible apply keep_sendOut
    | with_reducible apply keep_setMod
    | with_reducible apply Keep.ite
    | split

theorem keep_pumpEvts {s₀ s : State} (hk : Keep s₀ s) :
    Keep s₀ (pumpEvts s) := by
  refine hk.trans ?_
  clear hk
  unfold pumpEvts
  repeat' first
    | with_reducible apply Keep.refl
    | with_reducible apply keep_pumpEvt
    | with_reducible apply Keep.foldl
    | intro _

theorem keep_execMrd (s : State) (m addr lenM1 tag) :
    KeepOut s (execMrd m addr lenM1 tag s) := by
  unfold execMrd
  repeat' first
    | with_reducible apply Keep.refl
    | with_reducible apply KeepOut.next
    | with_reducible apply keep_takeMrd

theorem keep_execMwr (s : State) (m addr lenM1 tag partialW ackReq data masks) :
    KeepOut s (execMwr m addr lenM1 tag partialW ackReq data masks s) := by
  unfold execMwr
  repeat' first
    | with_reducible apply Keep.refl
    | with_reducible apply KeepOut.next
    | with_reducible apply keep_takeMwr

theorem keep_execRrd (s : State) (m addr tag) :
    KeepOut s (execRrd m addr tag s) := by
  unfold execRrd
  repeat' first
    | with_reducible apply Keep.refl
    | with_reducible apply KeepOut.next
    | with_reducible apply keep_takeReg

theorem keep_execRwr (s : State) (m addr tag value) :
    KeepOut s (execRwr m addr tag value s) := by
  unfold execRwr
  repeat' first
    | with_reducible apply Keep.refl
    | with_reducible apply KeepOut.next
    | with_reducible apply keep_takeReg

theorem keep_execMrst (s : State) (m) :
    KeepOut s (execMrst m s) := by
  unfold execMrst
  repeat' first
    | with_reducible apply Keep.refl
    | with_reducible apply KeepOut.next
    | with_reducible apply keep_takeMrst

theorem keep_execXcpl (s : State) (m tag status lenM1 data) :
    KeepOut s (execXcpl m tag status lenM1 data s) := by
  unfold execXcpl
  repeat' first
    | with_reducible apply Keep.refl
    | with_reducible apply KeepOut.next
    | with_reducible apply keep_takeXcpl

theorem keep_execXack (s : State) (m tag status lanes) :
    KeepOut s (execXack m tag status lanes s) := by
  unfold execXack
  repeat' first
    | with_reducible apply Keep.refl
    | with_reducible apply KeepOut.next
    | with_reducible apply keep_takeXack

theorem keep_execCrd (s : State) (m beats headers) :
    KeepOut s (execCrd m beats headers s) := by
  unfold execCrd
  repeat' first
    | with_reducible apply Keep.refl
    | with_reducible apply KeepOut.next
    | with_reducible apply keep_takeCrd

theorem keep_execDoorReservedType (s : State) (m typ lenM1) :
    KeepOut s (execDoorReservedType m typ lenM1 s) := by
  unfold execDoorReservedType
  repeat' first
    | with_reducible apply Keep.refl
    | with_reducible apply KeepOut.next
    | with_reducible apply keep_takeReserved

theorem keep_execModuleLinkFault (s : State) (m) :
    KeepOut s (execModuleLinkFault m s) := by
  unfold execModuleLinkFault
  repeat' first
    | with_reducible apply Keep.refl
    | with_reducible apply KeepOut.next
    | with_reducible apply keep_moduleFault

theorem keep_execModuleTrained (s : State) (m rate repaired) :
    KeepOut s (execModuleTrained m rate repaired s) := by
  unfold execModuleTrained
  repeat' first
    | with_reducible apply Keep.refl
    | with_reducible apply KeepOut.next
    | with_reducible apply keep_moduleUp

theorem keep_execXtmoExpiry (s : State) (m tag) :
    KeepOut s (execXtmoExpiry m tag s) := by
  unfold execXtmoExpiry
  repeat' first
    | with_reducible apply Keep.refl
    | with_reducible apply KeepOut.next
    | with_reducible apply keep_takeXtmo

theorem keep_execL1 (s : State) (m enter) :
    KeepOut s (execL1 m enter s) := by
  unfold execL1
  dsimp only
  repeat' first
    | with_reducible apply Keep.refl
    | with_reducible apply KeepOut.next
    | with_reducible apply keep_setMod
    | with_reducible apply Keep.ite

/-! ### Mgmt -/

theorem keep_sendMgmt {s₀ s : State} (hk : Keep s₀ s) (node packet) :
    Keep s₀ (sendMgmt s node packet) := by
  refine hk.trans ?_
  clear hk
  unfold sendMgmt
  dsimp only
  repeat' first
    | with_reducible apply Keep.refl
    | with_reducible apply keep_countUnrouted
    | with_reducible apply keep_enqueue
    | split

theorem keep_queueSend {s₀ s : State} (hk : Keep s₀ s) (e) :
    Keep s₀ (queueSend s e) := by
  refine hk.trans ?_
  clear hk
  unfold queueSend
  dsimp only
  repeat' first
    | with_reducible apply Keep.refl
    | with_reducible apply keep_sendMgmt
    | with_reducible apply keep_bump
    | with_reducible apply keep_rsetBit
    | with_reducible apply Keep.ite
    | simp only [Keep.mk_iff]
    | split

theorem keep_bookWrite {s₀ s : State} (hk : Keep s₀ s) :
    Keep s₀ (bookWrite s) := by
  refine hk.trans ?_
  clear hk
  unfold bookWrite
  dsimp only
  repeat' first
    | with_reducible apply Keep.refl
    | with_reducible apply keep_queueSend
    | with_reducible apply Keep.ite
    | simp only [Keep.mk_iff]
    | split

theorem keep_privateRead {s₀ s : State} (hk : Keep s₀ s) :
    Keep s₀ (privateRead s) := by
  refine hk.trans ?_
  clear hk
  unfold privateRead
  dsimp only
  repeat' first
    | with_reducible apply Keep.refl
    | with_reducible apply keep_sendOut
    | with_reducible apply keep_bump
    | with_reducible apply Keep.ite
    | simp only [Keep.mk_iff]
    | split

theorem keep_eventResend {s₀ s : State} (hk : Keep s₀ s) :
    Keep s₀ (eventResend s) := by
  refine hk.trans ?_
  clear hk
  unfold eventResend
  dsimp only
  repeat' first
    | with_reducible apply Keep.refl
    | simp only [Keep.mk_iff]

theorem keep_eventAck {s₀ s : State} (hk : Keep s₀ s) (seq) :
    Keep s₀ (eventAck s seq) := by
  refine hk.trans ?_
  clear hk
  unfold eventAck
  dsimp only
  repeat' first
    | with_reducible apply Keep.refl
    | with_reducible apply Keep.ite
    | simp only [Keep.mk_iff]

theorem keep_agentReads {s₀ s : State} (hk : Keep s₀ s) (offs) :
    Keep s₀ (agentReads s offs).1 := by
  refine hk.trans ?_
  clear hk
  unfold agentReads
  dsimp only
  repeat' first
    | with_reducible apply Keep.refl
    | with_reducible apply keep_regRead
    | with_reducible apply Keep.foldlFst
    | intro _

theorem keep_performReq {s₀ s : State} (hk : Keep s₀ s) (r) :
    Keep s₀ (performReq s r).1 := by
  refine hk.trans ?_
  clear hk
  unfold performReq
  dsimp only
  repeat' first
    | with_reducible apply Keep.refl
    | with_reducible apply keep_agentReads
    | with_reducible apply keep_regWrite
    | with_reducible apply Keep.iteFst
    | split

theorem keep_answerReq {s₀ s : State} (hk : Keep s₀ s) (tag r) :
    Keep s₀ (answerReq s tag r) := by
  refine hk.trans ?_
  clear hk
  unfold answerReq
  dsimp only
  repeat' first
    | with_reducible apply Keep.refl
    | with_reducible apply keep_performReq
    | with_reducible apply keep_sendOut
    | with_reducible apply Keep.ite

theorem keep_forwardReq {s₀ s : State} (hk : Keep s₀ s) (tag dnode innerTag r) :
    Keep s₀ (forwardReq s tag dnode innerTag r) := by
  refine hk.trans ?_
  clear hk
  unfold forwardReq
  dsimp only
  repeat' first
    | with_reducible apply Keep.refl
    | with_reducible apply keep_performReq
    | with_reducible apply keep_sendMgmt
    | with_reducible apply keep_sendOut
    | with_reducible apply Keep.ite
    | simp only [Keep.mk_iff]

theorem keep_forwardLate {s₀ s : State} (hk : Keep s₀ s) (tag) :
    Keep s₀ (forwardLate s tag) := by
  refine hk.trans ?_
  clear hk
  unfold forwardLate
  dsimp only
  repeat' first
    | with_reducible apply Keep.refl
    | with_reducible apply keep_sendOut
    | simp only [Keep.mk_iff]
    | split

theorem keep_forwardAnswered {s₀ s : State} (hk : Keep s₀ s) (node p) :
    Keep s₀ (forwardAnswered s node p) := by
  refine hk.trans ?_
  clear hk
  unfold forwardAnswered
  dsimp only
  repeat' first
    | with_reducible apply Keep.refl
    | with_reducible apply keep_sendOut
    | simp only [Keep.mk_iff]
    | split

theorem keep_takeEvent {s₀ s : State} (hk : Keep s₀ s) (p) :
    Keep s₀ (takeEvent s p) := by
  refine hk.trans ?_
  clear hk
  unfold takeEvent
  repeat' first
    | with_reducible apply Keep.refl
    | with_reducible apply keep_queueSend
    | with_reducible apply Keep.ite

theorem keep_serveForward {s₀ s : State} (hk : Keep s₀ s) (node p) :
    Keep s₀ (serveForward s node p) := by
  refine hk.trans ?_
  clear hk
  unfold serveForward
  dsimp only
  repeat' first
    | with_reducible apply Keep.refl
    | with_reducible apply keep_performReq
    | with_reducible apply keep_sendMgmt
    | with_reducible apply Keep.iteFst

theorem keep_takeMgmt {s₀ s : State} (hk : Keep s₀ s) (t) :
    Keep s₀ (takeMgmt s t) := by
  refine hk.trans ?_
  clear hk
  unfold takeMgmt
  repeat' first
    | with_reducible apply Keep.refl
    | with_reducible apply keep_serveForward
    | with_reducible apply keep_takeEvent
    | with_reducible apply keep_forwardAnswered
    | with_reducible apply Keep.ite
    | split

theorem keep_mgmtIn {s₀ s : State} (hk : Keep s₀ s) (port t) : Keep s₀ (mgmtIn s port t) := by
  unfold mgmtIn
  refine keep_takeOr hk _ _ _ ?_
  intro _ _ h
  split
  · exact keep_takeMgmt h _
  · exact h

theorem keep_mctpAnswer {s₀ s : State} (hk : Keep s₀ s) (code body) :
    Keep s₀ (mctpAnswer s code body) := by
  refine hk.trans ?_
  clear hk
  unfold mctpAnswer
  repeat' first
    | with_reducible apply Keep.refl
    | with_reducible apply keep_sendOut
    | with_reducible apply Keep.ite

theorem keep_setEid {s₀ s : State} (hk : Keep s₀ s) (eid) :
    Keep s₀ (setEid s eid) := by
  refine hk.trans ?_
  clear hk
  unfold setEid
  dsimp only
  repeat' first
    | with_reducible apply Keep.refl
    | with_reducible apply keep_mctpAnswer
    | with_reducible apply Keep.ite
    | simp only [Keep.mk_iff]

theorem keep_vendorSupport {s₀ s : State} (hk : Keep s₀ s) (selector) :
    Keep s₀ (vendorSupport s selector) := by
  refine hk.trans ?_
  clear hk
  unfold vendorSupport
  repeat' first
    | with_reducible apply Keep.refl
    | with_reducible apply keep_mctpAnswer
    | with_reducible apply Keep.ite

theorem keep_setMgmt {s₀ s : State} (hk : Keep s₀ s) (f) :
    Keep s₀ (setMgmt s f) := by
  refine hk.trans ?_
  clear hk
  unfold setMgmt
  repeat' first
    | with_reducible apply Keep.refl
    | with_reducible apply Keep.ite
    | simp only [Keep.mk_iff]

theorem keep_i3cAnswer {s₀ s : State} (hk : Keep s₀ s) (code body) :
    Keep s₀ (i3cAnswer s code body) := by
  refine hk.trans ?_
  clear hk
  unfold i3cAnswer
  repeat' first
    | with_reducible apply Keep.refl
    | with_reducible apply keep_sendOut
    | with_reducible apply Keep.ite

theorem keep_entdaa {s₀ s : State} (hk : Keep s₀ s) (a) :
    Keep s₀ (entdaa s a) := by
  refine hk.trans ?_
  clear hk
  unfold entdaa
  repeat' first
    | with_reducible apply Keep.refl
    | with_reducible apply keep_i3cAnswer
    | with_reducible apply keep_setMgmt
    | with_reducible apply Keep.ite

theorem keep_execBookWrite (s : State) :
    KeepOut s (execBookWrite s) := by
  unfold execBookWrite
  repeat' first
    | with_reducible apply Keep.refl
    | with_reducible apply KeepOut.next
    | with_reducible apply keep_bookWrite

theorem keep_execPrivateRead (s : State) :
    KeepOut s (execPrivateRead s) := by
  unfold execPrivateRead
  repeat' first
    | with_reducible apply Keep.refl
    | with_reducible apply KeepOut.next
    | with_reducible apply keep_privateRead

theorem keep_execEventResend (s : State) :
    KeepOut s (execEventResend s) := by
  unfold execEventResend
  repeat' first
    | with_reducible apply Keep.refl
    | with_reducible apply KeepOut.next
    | with_reducible apply keep_eventResend

theorem keep_execEvent (s : State) (port t) :
    KeepOut s (execEvent port t s) := by
  unfold execEvent
  repeat' first
    | with_reducible apply Keep.refl
    | with_reducible apply KeepOut.next
    | with_reducible apply keep_mgmtIn

theorem keep_execEventAck (s : State) (seq) :
    KeepOut s (execEventAck seq s) := by
  unfold execEventAck
  repeat' first
    | with_reducible apply Keep.refl
    | with_reducible apply KeepOut.next
    | with_reducible apply keep_eventAck

theorem keep_execStatusGet (s : State) (tag) :
    KeepOut s (execStatusGet tag s) := by
  unfold execStatusGet
  repeat' first
    | with_reducible apply Keep.refl
    | with_reducible apply KeepOut.next
    | with_reducible apply keep_answerReq

theorem keep_execRegRead (s : State) (tag off count) :
    KeepOut s (execRegRead tag off count s) := by
  unfold execRegRead
  repeat' first
    | with_reducible apply Keep.refl
    | with_reducible apply KeepOut.next
    | with_reducible apply keep_answerReq

theorem keep_execRegWrite (s : State) (tag off value) :
    KeepOut s (execRegWrite tag off value s) := by
  unfold execRegWrite
  repeat' first
    | with_reducible apply Keep.refl
    | with_reducible apply KeepOut.next
    | with_reducible apply keep_answerReq

theorem keep_execBookRead (s : State) (tag seq) :
    KeepOut s (execBookRead tag seq s) := by
  unfold execBookRead
  repeat' first
    | with_reducible apply Keep.refl
    | with_reducible apply KeepOut.next
    | with_reducible apply keep_answerReq

theorem keep_execForward (s : State) (tag dnode innerTag inner) :
    KeepOut s (execForward tag dnode innerTag inner s) := by
  unfold execForward
  repeat' first
    | with_reducible apply Keep.refl
    | with_reducible apply KeepOut.next
    | with_reducible apply keep_forwardReq

theorem keep_execFwdTimeout (s : State) (tag) :
    KeepOut s (execFwdTimeout tag s) := by
  unfold execFwdTimeout
  repeat' first
    | with_reducible apply Keep.refl
    | with_reducible apply KeepOut.next
    | with_reducible apply keep_forwardLate

theorem keep_execBadReq (s : State) (tag code) :
    KeepOut s (execBadReq tag code s) := by
  unfold execBadReq
  repeat' first
    | with_reducible apply Keep.refl
    | with_reducible apply KeepOut.next
    | with_reducible apply keep_answerReq

theorem keep_execMgmt (s : State) (port t) :
    KeepOut s (execMgmt port t s) := by
  unfold execMgmt
  repeat' first
    | with_reducible apply Keep.refl
    | with_reducible apply KeepOut.next
    | with_reducible apply keep_mgmtIn

theorem keep_execSetEndpointId (s : State) (eid) :
    KeepOut s (execSetEndpointId eid s) := by
  unfold execSetEndpointId
  repeat' first
    | with_reducible apply Keep.refl
    | with_reducible apply KeepOut.next
    | with_reducible apply keep_setEid

theorem keep_execGetEndpointId (s : State) :
    KeepOut s (execGetEndpointId s) := by
  unfold execGetEndpointId
  repeat' first
    | with_reducible apply Keep.refl
    | with_reducible apply KeepOut.next
    | with_reducible apply keep_mctpAnswer

theorem keep_execGetMctpVersionSupport (s : State) :
    KeepOut s (execGetMctpVersionSupport s) := by
  unfold execGetMctpVersionSupport
  repeat' first
    | with_reducible apply Keep.refl
    | with_reducible apply KeepOut.next
    | with_reducible apply keep_mctpAnswer

theorem keep_execGetMessageTypeSupport (s : State) :
    KeepOut s (execGetMessageTypeSupport s) := by
  unfold execGetMessageTypeSupport
  repeat' first
    | with_reducible apply Keep.refl
    | with_reducible apply KeepOut.next
    | with_reducible apply keep_mctpAnswer

theorem keep_execGetVendorDefinedMessageSupport (s : State) (selector) :
    KeepOut s (execGetVendorDefinedMessageSupport selector s) := by
  unfold execGetVendorDefinedMessageSupport
  repeat' first
    | with_reducible apply Keep.refl
    | with_reducible apply KeepOut.next
    | with_reducible apply keep_vendorSupport

theorem keep_execEntdaa (s : State) (addr) :
    KeepOut s (execEntdaa addr s) := by
  unfold execEntdaa
  repeat' first
    | with_reducible apply Keep.refl
    | with_reducible apply KeepOut.next
    | with_reducible apply keep_entdaa

theorem keep_execSetdasa (s : State) (addr) :
    KeepOut s (execSetdasa addr s) := by
  unfold execSetdasa
  repeat' first
    | with_reducible apply Keep.refl
    | with_reducible apply KeepOut.next
    | with_reducible apply keep_setMgmt

theorem keep_execRstdaa (s : State) :
    KeepOut s (execRstdaa s) := by
  unfold execRstdaa
  repeat' first
    | with_reducible apply Keep.refl
    | with_reducible apply KeepOut.next
    | with_reducible apply keep_setMgmt

theorem keep_execEnec (s : State) (events) :
    KeepOut s (execEnec events s) := by
  unfold execEnec
  repeat' first
    | with_reducible apply Keep.refl
    | with_reducible apply KeepOut.next
    | with_reducible apply keep_setMgmt

theorem keep_execDisec (s : State) (events) :
    KeepOut s (execDisec events s) := by
  unfold execDisec
  repeat' first
    | with_reducible apply Keep.refl
    | with_reducible apply KeepOut.next
    | with_reducible apply keep_setMgmt

theorem keep_execGetpid (s : State) :
    KeepOut s (execGetpid s) := by
  unfold execGetpid
  repeat' first
    | with_reducible apply Keep.refl
    | with_reducible apply KeepOut.next
    | with_reducible apply keep_i3cAnswer

theorem keep_execGetbcr (s : State) :
    KeepOut s (execGetbcr s) := by
  unfold execGetbcr
  repeat' first
    | with_reducible apply Keep.refl
    | with_reducible apply KeepOut.next
    | with_reducible apply keep_i3cAnswer

theorem keep_execGetdcr (s : State) :
    KeepOut s (execGetdcr s) := by
  unfold execGetdcr
  repeat' first
    | with_reducible apply Keep.refl
    | with_reducible apply KeepOut.next
    | with_reducible apply keep_i3cAnswer

theorem keep_execGetstatus (s : State) :
    KeepOut s (execGetstatus s) := by
  unfold execGetstatus
  repeat' first
    | with_reducible apply Keep.refl
    | with_reducible apply KeepOut.next
    | with_reducible apply keep_i3cAnswer

theorem keep_execGetmwl (s : State) :
    KeepOut s (execGetmwl s) := by
  unfold execGetmwl
  repeat' first
    | with_reducible apply Keep.refl
    | with_reducible apply KeepOut.next
    | with_reducible apply keep_i3cAnswer

theorem keep_execGetmrl (s : State) :
    KeepOut s (execGetmrl s) := by
  unfold execGetmrl
  repeat' first
    | with_reducible apply Keep.refl
    | with_reducible apply KeepOut.next
    | with_reducible apply keep_i3cAnswer

theorem keep_execSetmwl (s : State) (len) :
    KeepOut s (execSetmwl len s) := by
  unfold execSetmwl
  repeat' first
    | with_reducible apply Keep.refl
    | with_reducible apply KeepOut.next
    | with_reducible apply keep_setMgmt

theorem keep_execSetmrl (s : State) (len) :
    KeepOut s (execSetmrl len s) := by
  unfold execSetmrl
  repeat' first
    | with_reducible apply Keep.refl
    | with_reducible apply KeepOut.next
    | with_reducible apply keep_setMgmt

/-! ### Calendar -/

theorem keep_starveAlarms {s₀ s : State} (hk : Keep s₀ s) :
    Keep s₀ (starveAlarms s) := by
  refine hk.trans ?_
  clear hk
  unfold starveAlarms
  dsimp only
  repeat' first
    | with_reducible apply Keep.refl
    | with_reducible apply keep_emit
    | with_reducible apply keep_rsetBit
    | with_reducible apply Keep.foldl
    | intro _
    | simp only [Keep.mk_iff]

theorem keep_ceLimits {s₀ s : State} (hk : Keep s₀ s) :
    Keep s₀ (ceLimits s) := by
  refine hk.trans ?_
  clear hk
  unfold ceLimits
  dsimp only
  repeat' first
    | with_reducible apply Keep.refl
    | with_reducible apply keep_failBin
    | with_reducible apply Keep.foldl
    | intro _
    | simp only [Keep.mk_iff]

theorem keep_revolution {s₀ s : State} (hk : Keep s₀ s) :
    Keep s₀ (revolution s) := by
  refine hk.trans ?_
  clear hk
  unfold revolution
  repeat' first
    | with_reducible apply Keep.refl
    | with_reducible apply keep_ceLimits
    | with_reducible apply keep_starveAlarms

theorem keep_forgetReceiver {s₀ s : State} (hk : Keep s₀ s) (st group r) :
    Keep s₀ (forgetReceiver s st group r) := by
  refine hk.trans ?_
  clear hk
  unfold forgetReceiver
  dsimp only
  repeat' first
    | with_reducible apply Keep.refl
    | with_reducible apply keep_retireOut
    | with_reducible apply Keep.foldl
    | intro _
    | simp only [Keep.mk_iff]

theorem keep_pruneOne {s₀ s : State} (hk : Keep s₀ s) (st group r node) :
    Keep s₀ (pruneOne s st group r node) := by
  refine hk.trans ?_
  clear hk
  unfold pruneOne
  dsimp only
  repeat' first
    | with_reducible apply Keep.refl
    | with_reducible apply keep_forgetReceiver
    | with_reducible apply keep_updCnt
    | with_reducible apply keep_sendTxn
    | with_reducible apply keep_bump
    | with_reducible apply keep_rsetBit
    | with_reducible apply Keep.ite
    | split

theorem keep_pruneAll {s₀ s : State} (hk : Keep s₀ s) :
    Keep s₀ (pruneAll s) := by
  refine hk.trans ?_
  clear hk
  unfold pruneAll
  dsimp only
  repeat' first
    | with_reducible apply Keep.refl
    | with_reducible apply keep_pruneOne
    | with_reducible apply Keep.foldl
    | intro _

theorem keep_slotEntry {s₀ s : State} (hk : Keep s₀ s) (k) :
    Keep s₀ (slotEntry s k).1 := by
  refine hk.trans ?_
  clear hk
  unfold slotEntry
  dsimp only
  repeat' first
    | with_reducible apply Keep.refl
    | with_reducible apply keep_masterLine

theorem keep_slotMarks {s₀ s : State} (hk : Keep s₀ s) (w6) :
    Keep s₀ (slotMarks s w6) := by
  refine hk.trans ?_
  clear hk
  unfold slotMarks
  dsimp only
  repeat' first
    | with_reducible apply Keep.refl
    | with_reducible apply keep_coopTick
    | with_reducible apply keep_syncMark
    | with_reducible apply Keep.ite

theorem keep_judgeRunning {s₀ s : State} (hk : Keep s₀ s) :
    Keep s₀ (judgeRunning s) := by
  refine hk.trans ?_
  clear hk
  unfold judgeRunning
  dsimp only
  repeat' first
    | with_reducible apply Keep.refl
    | with_reducible apply keep_rsetBit
    | with_reducible apply Keep.ite
    | simp only [Keep.mk_iff]

theorem keep_quotaEdge {s₀ s : State} (hk : Keep s₀ s) :
    Keep s₀ (quotaEdge s) := by
  refine hk.trans ?_
  clear hk
  unfold quotaEdge
  repeat' first
    | with_reducible apply Keep.refl
    | with_reducible apply keep_drainPool
    | with_reducible apply keep_resumeCredits
    | with_reducible apply Keep.foldl
    | intro _

theorem keep_edgeEffects {s₀ s : State} (hk : Keep s₀ s) (k) :
    Keep s₀ (edgeEffects s k) := by
  refine hk.trans ?_
  clear hk
  unfold edgeEffects
  dsimp only
  repeat' first
    | with_reducible apply Keep.refl
    | with_reducible apply keep_quotaEdge
    | with_reducible apply keep_judgeRunning
    | with_reducible apply keep_revolution
    | with_reducible apply keep_applyStaged
    | with_reducible apply keep_moveDecode
    | with_reducible apply keep_vintageEdge
    | with_reducible apply Keep.ite

theorem keep_masterSlot {s₀ s : State} (hk : Keep s₀ s) (k rev) :
    Keep s₀ (masterSlot s k rev) := by
  refine hk.trans ?_
  clear hk
  unfold masterSlot
  dsimp only
  repeat' first
    | with_reducible apply Keep.refl
    | with_reducible apply keep_slotMarks
    | with_reducible apply keep_slotEntry
    | with_reducible apply keep_pruneAll
    | with_reducible apply keep_tasteReturn
    | with_reducible apply keep_preemptAll
    | with_reducible apply keep_beginVisits
    | with_reducible apply Keep.ite

theorem keep_edgeNow {s₀ s : State} (hk : Keep s₀ s) :
    Keep s₀ (edgeNow s) := by
  refine hk.trans ?_
  clear hk
  unfold edgeNow
  dsimp only
  repeat' first
    | with_reducible apply Keep.refl
    | with_reducible apply keep_masterSlot
    | with_reducible apply keep_edgeEffects
    | simp only [Keep.mk_iff]

theorem keep_edgeIfDue {s₀ s : State} (hk : Keep s₀ s) :
    Keep s₀ (edgeIfDue s) := by
  refine hk.trans ?_
  clear hk
  unfold edgeIfDue
  repeat' first
    | with_reducible apply Keep.refl
    | with_reducible apply keep_edgeNow
    | with_reducible apply Keep.ite

theorem keep_pumpClocks {s₀ s : State} (hk : Keep s₀ s) (n) :
    Keep s₀ (pumpClocks s n) := by
  refine hk.trans ?_
  clear hk
  unfold pumpClocks
  repeat' first
    | with_reducible apply Keep.refl
    | with_reducible apply keep_pumpEvts
    | with_reducible apply Keep.foldl
    | intro _

theorem keep_clockEffects {s₀ s : State} (hk : Keep s₀ s) (old n) :
    Keep s₀ (clockEffects s old n) := by
  refine hk.trans ?_
  clear hk
  unfold clockEffects
  dsimp only
  repeat' first
    | with_reducible apply Keep.refl
    | with_reducible apply keep_pumpClocks
    | with_reducible apply keep_edgeNow
    | with_reducible apply keep_matrixClock
    | with_reducible apply keep_drainPool
    | with_reducible apply keep_wsFault
    | with_reducible apply keep_resetClocks
    | with_reducible apply keep_tallyRuns
    | with_reducible apply keep_masterClock
    | with_reducible apply keep_pulseSince
    | with_reducible apply Keep.ite

theorem keep_oneClock {s₀ s : State} (hk : Keep s₀ s) :
    Keep s₀ (oneClock s) := by
  refine hk.trans ?_
  clear hk
  unfold oneClock
  repeat' first
    | with_reducible apply Keep.refl
    | with_reducible apply keep_clockEffects
    | with_reducible apply keep_countClock

theorem keep_runToEdge {s₀ s : State} (hk : Keep s₀ s) (a) :
    Keep s₀ (runToEdge s a) := by
  refine hk.trans ?_
  clear hk
  induction a generalizing s with
  | zero => unfold runToEdge; exact Keep.refl
  | succ kk ih =>
    have ihk : ∀ {s₀ s : State}, Keep s₀ s → Keep s₀ (runToEdge s kk) := by intros; exact Keep.trans ‹_› (ih ..)
    clear ih
    unfold runToEdge
    repeat' first
      | with_reducible apply Keep.refl
      | with_reducible apply ihk
      | with_reducible apply keep_countClock
      | with_reducible apply Keep.ite

theorem keep_toEdge {s₀ s : State} (hk : Keep s₀ s) :
    Keep s₀ (toEdge s) := by
  refine hk.trans ?_
  clear hk
  unfold toEdge
  dsimp only
  repeat' first
    | with_reducible apply Keep.refl
    | with_reducible apply keep_runToEdge
    | with_reducible apply keep_setTimeUnits
    | with_reducible apply Keep.ite
    | simp only [Keep.mk_iff]

theorem keep_leadClocks {s₀ s : State} (hk : Keep s₀ s) (e a) :
    Keep s₀ (leadClocks s e a) := by
  refine hk.trans ?_
  clear hk
  induction a generalizing s e with
  | zero => unfold leadClocks; exact Keep.refl
  | succ kk ih =>
    have ihk : ∀ {s₀ s : State} (y1 : _), Keep s₀ s → Keep s₀ (leadClocks s y1 kk) := by intros; exact Keep.trans ‹_› (ih ..)
    clear ih
    unfold leadClocks
    repeat' first
      | with_reducible apply Keep.refl
      | with_reducible apply ihk
      | with_reducible apply keep_oneClock
      | with_reducible apply Keep.ite

theorem keep_visitClocks {s₀ s : State} (hk : Keep s₀ s) (a) :
    Keep s₀ (visitClocks s a) := by
  refine hk.trans ?_
  clear hk
  induction a generalizing s with
  | zero => unfold visitClocks; exact Keep.refl
  | succ kk ih =>
    have ihk : ∀ {s₀ s : State}, Keep s₀ s → Keep s₀ (visitClocks s kk) := by intros; exact Keep.trans ‹_› (ih ..)
    clear ih
    unfold visitClocks
    repeat' first
      | with_reducible apply Keep.refl
      | with_reducible apply ihk
      | with_reducible apply keep_oneClock
      | with_reducible apply Keep.ite

theorem keep_reachEdge {s₀ s : State} (hk : Keep s₀ s) :
    Keep s₀ (reachEdge s) := by
  refine hk.trans ?_
  clear hk
  unfold reachEdge
  dsimp only
  repeat' first
    | with_reducible apply Keep.refl
    | with_reducible apply keep_leadClocks
    | with_reducible apply keep_toEdge
    | with_reducible apply keep_clockEffects
    | with_reducible apply Keep.ite

theorem keep_slotEdge {s₀ s : State} (hk : Keep s₀ s) :
    Keep s₀ (slotEdge s) := by
  refine hk.trans ?_
  clear hk
  unfold slotEdge
  dsimp only
  repeat' first
    | with_reducible apply Keep.refl
    | with_reducible apply keep_reachEdge
    | with_reducible apply keep_visitClocks
    | with_reducible apply Keep.ite
    | simp only [Keep.mk_iff]

theorem keep_clockTick {s₀ s : State} (hk : Keep s₀ s) :
    Keep s₀ (clockTick s) := by
  refine hk.trans ?_
  clear hk
  unfold clockTick
  dsimp only
  repeat' first
    | with_reducible apply Keep.refl
    | with_reducible apply keep_oneClock
    | with_reducible apply Keep.ite
    | simp only [Keep.mk_iff]

theorem keep_execSlotEdge (s : State) :
    KeepOut s (execSlotEdge s) := by
  unfold execSlotEdge
  repeat' first
    | with_reducible apply Keep.refl
    | with_reducible apply KeepOut.next
    | with_reducible apply keep_slotEdge

theorem keep_execCellarReady (s : State) (failed) : KeepOut s (execCellarReady failed s) :=
  KeepOut.next (keep_cellarReady Keep.refl _ (fun h => keep_edgeIfDue h) _)

theorem keep_execFtimePulseIn (s : State) (stayedHigh) :
    KeepOut s (execFtimePulseIn stayedHigh s) := by
  unfold execFtimePulseIn
  repeat' first
    | with_reducible apply Keep.refl
    | with_reducible apply KeepOut.next
    | with_reducible apply keep_edgeIfDue
    | with_reducible apply keep_pulseReceived

/-! ### The dispatch -/

/-- The commands of the test access port and of the tally, and the thermal trip. -/
def outsideKeep : Instr → Bool
  | .extest | .idcode | .samplePreload _ | .clamp | .highz | .bypass | .testLogicReset | .thermTrip => true
  | .tapRecord _ _ | .periodicCheckpoint | .statement | .finalCheckpoint _ | .tallyRestore | .tallyHoldup | .refclkRestored => true
  | _ => false

theorem exec_keep (s : State) (c : Instr) (hc : outsideKeep c = false) : KeepOut s (exec c s) := by
  cases c with
  | coldReset => exact keep_execColdReset s _
  | warmReset => exact keep_execWarmReset s _
  | railOrPllFault => exact keep_execRailOrPllFault s
  | thermTrip => exact Bool.noConfusion (show true = false from hc)
  | cellarReady => exact keep_execCellarReady s _
  | imageLoad => exact keep_execImageLoad s _ _ _
  | vtallyWaitTimeout => exact keep_execVtallyWaitTimeout s
  | bootGo => exact keep_execBootGo s _ _
  | slotEdge => exact keep_execSlotEdge s
  | ftimePulseOut => exact keep_execFtimePulseOut s
  | ftimePulseIn => exact keep_execFtimePulseIn s _
  | altInUse => exact keep_execAltInUse s
  | holdover => exact keep_execHoldover s
  | reacquire => exact keep_execReacquire s _
  | dispatch => exact keep_execDispatch s _
  | rack => exact keep_execRack s _
  | riddle => exact keep_execRiddle s _
  | permute => exact keep_execPermute s _
  | fill => exact keep_execFill s _
  | decant => exact keep_execDecant s _
  | gather => exact keep_execGather s _
  | scatter => exact keep_execScatter s _
  | scatterAdd => exact keep_execScatterAdd s _
  | pool => exact keep_execPool s _
  | interact => exact keep_execInteract s _
  | sort => exact keep_execSort s _
  | topk => exact keep_execTopk s _
  | egress => exact keep_execEgress s _
  | multicast => exact keep_execMulticast s _
  | blend => exact keep_execBlend s _
  | fence => exact keep_execFence s _
  | fenceComplete => exact keep_execFenceComplete s _
  | nop => exact keep_execNop s _
  | opReserved => exact keep_execOpReserved s _
  | loadLineReturn => exact keep_execLoadLineReturn s _
  | fabricReadTimeout => exact keep_execFabricReadTimeout s _ _
  | stagingCopyDone => exact keep_execStagingCopyDone s _
  | sortTableGrant => exact keep_execSortTableGrant s _
  | passStore => exact keep_execPassStore s _ _
  | lotVerdict => exact keep_execLotVerdict s _ _
  | saveFrameDone => exact keep_execSaveFrameDone s _
  | resume => exact keep_execResume s _
  | cardWrite => exact keep_execCardWrite s _
  | tapRecord => exact Bool.noConfusion (show true = false from hc)
  | periodicCheckpoint => exact Bool.noConfusion (show true = false from hc)
  | statement => exact Bool.noConfusion (show true = false from hc)
  | finalCheckpoint => exact Bool.noConfusion (show true = false from hc)
  | tallyRestore => exact Bool.noConfusion (show true = false from hc)
  | tallyHoldup => exact Bool.noConfusion (show true = false from hc)
  | tallyWriteAttempt a b => exact keep_execTallyWriteAttempt s a b
  | vcOpen => exact keep_execVcOpen s _ _ _
  | vcFlip => exact keep_execVcFlip s _ _ _
  | vcDiscard => exact keep_execVcDiscard s _ _ _
  | vcRetire => exact keep_execVcRetire s _ _ _
  | marchDestroy => exact keep_execMarchDestroy s _ _
  | marchPreserve => exact keep_execMarchPreserve s _ _
  | marchComplete => exact keep_execMarchComplete s _
  | remapCopyDone => exact keep_execRemapCopyDone s
  | taste => exact keep_execTaste s _ _
  | stressEnter => exact keep_execStressEnter s
  | tasteComplete => exact keep_execTasteComplete s _
  | pressReset => exact keep_execPressReset s _ _ _
  | pressResetStart => exact keep_execPressResetStart s _
  | linkReset => exact keep_execLinkReset s _ _
  | linkRelease => exact keep_execLinkRelease s _ _
  | registerWrite => exact keep_execRegisterWrite s _ _ _ _
  | loRead => exact keep_execLoRead s _ _
  | flit => exact keep_execFlit s _ _
  | wavelengthDrop => exact keep_execWavelengthDrop s _ _
  | retrainDone => exact keep_execRetrainDone s _ _
  | portLost => exact keep_execPortLost s _
  | portTrain => exact keep_execPortTrain s _ _ _
  | fabRead => exact keep_execFabRead s _ _
  | fabWrite => exact keep_execFabWrite s _ _
  | atomicAdd => exact keep_execAtomicAdd s _ _
  | multicastWrite => exact keep_execMulticastWrite s _ _
  | recallTxn => exact keep_execRecall s _ _
  | gap => exact keep_execGap s _ _
  | mgmt => exact keep_execMgmt s _ _
  | readRsp => exact keep_execReadRsp s _ _
  | ack => exact keep_execAck s _ _
  | fabReservedType => exact keep_execFabReservedType s _ _
  | sync => exact keep_execSync s _ _
  | followUp => exact keep_execFollowUp s _ _ _
  | delayReq => exact keep_execDelayReq s _ _
  | delayResp => exact keep_execDelayResp s _ _ _
  | ackTimeout => exact keep_execAckTimeout s _
  | recallTableExpiry => exact keep_execRecallTableExpiry s
  | mrd => exact keep_execMrd s _ _ _ _
  | mwr => exact keep_execMwr s _ _ _ _ _ _ _ _
  | rrd => exact keep_execRrd s _ _ _
  | rwr => exact keep_execRwr s _ _ _ _
  | mrst => exact keep_execMrst s _
  | xcpl => exact keep_execXcpl s _ _ _ _ _
  | xack => exact keep_execXack s _ _ _ _
  | crd => exact keep_execCrd s _ _ _
  | doorReservedType => exact keep_execDoorReservedType s _ _ _
  | moduleLinkFault => exact keep_execModuleLinkFault s _
  | moduleTrained => exact keep_execModuleTrained s _ _ _
  | xtmoExpiry => exact keep_execXtmoExpiry s _ _
  | bookWrite => exact keep_execBookWrite s
  | privateRead => exact keep_execPrivateRead s
  | eventResend => exact keep_execEventResend s
  | event => exact keep_execEvent s _ _
  | eventAck => exact keep_execEventAck s _
  | statusGet => exact keep_execStatusGet s _
  | regRead => exact keep_execRegRead s _ _ _
  | regWrite => exact keep_execRegWrite s _ _ _
  | bookRead => exact keep_execBookRead s _ _
  | forward => exact keep_execForward s _ _ _ _
  | fwdTimeout => exact keep_execFwdTimeout s _
  | setEndpointId => exact keep_execSetEndpointId s _
  | getEndpointId => exact keep_execGetEndpointId s
  | getMctpVersionSupport => exact keep_execGetMctpVersionSupport s
  | getMessageTypeSupport => exact keep_execGetMessageTypeSupport s
  | getVendorDefinedMessageSupport => exact keep_execGetVendorDefinedMessageSupport s _
  | entdaa => exact keep_execEntdaa s _
  | setdasa => exact keep_execSetdasa s _
  | rstdaa => exact keep_execRstdaa s
  | enec => exact keep_execEnec s _
  | disec => exact keep_execDisec s _
  | getpid => exact keep_execGetpid s
  | getbcr => exact keep_execGetbcr s
  | getdcr => exact keep_execGetdcr s
  | getstatus => exact keep_execGetstatus s
  | getmwl => exact keep_execGetmwl s
  | getmrl => exact keep_execGetmrl s
  | setmwl => exact keep_execSetmwl s _
  | setmrl => exact keep_execSetmrl s _
  | extest => exact Bool.noConfusion (show true = false from hc)
  | idcode => exact Bool.noConfusion (show true = false from hc)
  | samplePreload => exact Bool.noConfusion (show true = false from hc)
  | clamp => exact Bool.noConfusion (show true = false from hc)
  | highz => exact Bool.noConfusion (show true = false from hc)
  | bypass => exact Bool.noConfusion (show true = false from hc)
  | testLogicReset => exact Bool.noConfusion (show true = false from hc)
  | coldResetStart => exact keep_execColdResetStart s
  | railsRestored => exact keep_execRailsRestored s
  | refclkRestored => exact Bool.noConfusion (show true = false from hc)
  | tallyWait => exact keep_execTallyWait s
  | badReq => exact keep_execBadReq s _ _
  | l1 => exact keep_execL1 s _ _

end Sys2Proof.Machine
end

