-- ==== Sys2Proof/Laws/Link.lean ====
section
/-!
SUPPORT. Laws/Link.lean: what queueing one transaction on an idle port does, and what the return of credits on a port leaves.
-/
namespace Sys2Proof.Machine

theorem smPut_smPut {α : Type} (m : SMap α) (k : Nat) (a b : α) : smPut (smPut m k a) k b = smPut m k b := by
  induction m with
  | nil => simp [smPut]
  | cons e r ih =>
    obtain ⟨e1, e2⟩ := e
    by_cases h : k < e1
    · simp [smPut, h]
    · by_cases h2 : k = e1
      · simp [smPut, h2]
      · simp [smPut, h, h2, ih]

theorem setPort_setPort (s : State) (n : Nat) (a b : Port) : setPort (setPort s n a) n b = setPort s n b := by
  unfold setPort; simp only [smPut_smPut]

/-- Two records of a port agree in what decides its use, its credits and its queues. -/
def sameLink (p q : Port) : Prop :=
  p.trained = q.trained ∧ p.retrain = q.retrain ∧ p.held = q.held ∧ p.lost = q.lost ∧ p.credits = q.credits ∧
    p.wait = q.wait ∧ p.unacked = q.unacked

theorem sameLink.refl (p : Port) : sameLink p p := ⟨rfl, rfl, rfl, rfl, rfl, rfl, rfl⟩

theorem sameLink.trans {p q r : Port} (h : sameLink p q) (k : sameLink q r) : sameLink p r := by
  obtain ⟨a, b, c, d, e, f, g⟩ := h
  obtain ⟨a', b', c', d', e', f', g'⟩ := k
  exact ⟨a.trans a', b.trans b', c.trans c', d.trans d', e.trans e', f.trans f', g.trans g'⟩

theorem usable_congr (s t : State) (n : Nat) (h : (getPort t n).trained = (getPort s n).trained ∧
    (getPort t n).retrain = (getPort s n).retrain ∧ (getPort t n).held = (getPort s n).held ∧
    (getPort t n).lost = (getPort s n).lost) : usable t n = usable s n := by
  unfold usable
  simp only [h]

/-- `t` is `s` with the flit side of port `n` and what it has put out changed, and nothing else. -/
def FlitOnly (s : State) (n : Nat) (t : State) : Prop :=
  ∃ (p : Port) (l : List Out), t = { setPort s n p with outbox := l ++ s.outbox } ∧ sameLink p (getPort s n)

theorem FlitOnly.port {s t : State} {n : Nat} (h : FlitOnly s n t) : sameLink (getPort t n) (getPort s n) := by
  obtain ⟨p, l, rfl, h⟩ := h
  have e : getPort { setPort s n p with outbox := l ++ s.outbox } n = p := getPort_setPort_self s n p
  rw [e]
  exact h

theorem FlitOnly.trans {s t u : State} {n : Nat} (h : FlitOnly s n t) (k : FlitOnly t n u) : FlitOnly s n u := by
  have hp := h.port
  obtain ⟨p, l, rfl, h⟩ := h
  obtain ⟨q, m, rfl, k⟩ := k
  refine ⟨q, m ++ l, ?_, k.trans hp⟩
  simp only [setPort, smPut_smPut, List.append_assoc]

theorem FlitOnly.usable {s t : State} {n : Nat} (h : FlitOnly s n t) : usable t n = usable s n := by
  obtain ⟨a, b, c, d, -⟩ := h.port
  exact usable_congr s t n ⟨a, b, c, d⟩

theorem layFlit_only (s : State) (n : Nat) (b : List Byte) : FlitOnly s n (layFlit s n b) := by
  unfold layFlit
  dsimp only
  split
  · exact ⟨_, [.flit n b], rfl, sameLink.refl _⟩
  · exact ⟨_, [_, .flit n b], rfl, sameLink.refl _⟩

theorem setPort_only (s : State) (n : Nat) (p : Port) (h : sameLink p (getPort s n)) : FlitOnly s n (setPort s n p) :=
  ⟨p, [], rfl, h⟩

theorem formFlit_only (s : State) (n : Nat) (b : List Byte) : FlitOnly s n (formFlit s n b) := by
  unfold formFlit
  exact (setPort_only _ _ _ (by exact sameLink.refl (getPort s n))).trans (layFlit_only _ _ _)

/-- The way back to the link partner changes the port's own record and sends flits, or nothing. -/
theorem answerLink_only (s : State) (n : Nat) : answerLink s n = s ∨ FlitOnly s n (answerLink s n) := by
  unfold answerLink
  split
  · exact .inr (formFlit_only _ _ _)
  · exact .inl rfl

theorem packFlits_only (k : Nat) : ∀ (s : State) (n : Nat), packFlits s n k = s ∨ FlitOnly s n (packFlits s n k) := by
  induction k with
  | zero => intro s n; exact .inl rfl
  | succ k ih =>
    intro s n
    unfold packFlits
    dsimp only
    split
    · exact .inl rfl
    · have h := (setPort_only s n { getPort s n with txBuf := (getPort s n).txBuf.drop 240 }
        (by exact sameLink.refl (getPort s n))).trans (formFlit_only _ n ((getPort s n).txBuf.take 240))
      rcases ih (formFlit (setPort s n { getPort s n with txBuf := (getPort s n).txBuf.drop 240 }) n
        ((getPort s n).txBuf.take 240)) n with e | e
      · rw [e]
        exact .inr h
      · exact .inr (h.trans e)

/-- Credits given back change the flit side of the port and what it has put out. -/
theorem takeRx_only (s : State) (n vc b : Nat) (k : Bool) (mine : Txn → Bool) : FlitOnly s n (takeRx s n vc b k mine) := by
  unfold takeRx
  dsimp only
  generalize hp : (if k = true then _ else _ : Port) = p
  have h : FlitOnly s n (setPort s n p) := setPort_only s n p (by subst hp; split <;> exact sameLink.refl (getPort s n))
  rcases answerLink_only (setPort s n p) n with e | e
  · rw [e]
    exact h
  · exact h.trans e

/-- The transaction that a port puts out for a waiting entry of this node: a TIME frame is dated as it leaves. -/
def leaving (s : State) (n : Nat) (t : Txn) : Txn := (stampTime s n (getPort s n) t).2.2

theorem stampTime_congr (s : State) (n : Nat) (p q : Port) (t : Txn) (h : p.syncAt = q.syncAt) :
    (stampTime s n p t).1 = (stampTime s n q t).1 ∧ (stampTime s n p t).2.2 = (stampTime s n q t).2.2 := by
  unfold stampTime
  dsimp only
  split
  · exact ⟨rfl, rfl⟩
  · split
    · exact ⟨rfl, rfl⟩
    · rw [h]
      exact ⟨rfl, rfl⟩
    · exact ⟨rfl, rfl⟩
    · exact ⟨rfl, rfl⟩

theorem stampTime_fab (s : State) (n : Nat) (p : Port) (t : Txn) (f : Fabric) :
    (stampTime { s with fab := f } n p t).1 = { (stampTime s n p t).1 with fab := f } := by
  unfold stampTime
  dsimp only
  split
  · rfl
  · split <;> rfl

theorem stampTime_txn_fab (s : State) (n : Nat) (p : Port) (t : Txn) (f : Fabric) :
    (stampTime { s with fab := f } n p t).2 = (stampTime s n p t).2 := by
  unfold stampTime
  dsimp only
  split
  · rfl
  · split <;> rfl

theorem stampTime_state (s : State) (n : Nat) (p : Port) (t : Txn) :
    ∃ x, (stampTime s n p t).1 = { s with time := { s.time with exch := x } } := by
  unfold stampTime
  dsimp only
  split
  · exact ⟨_, rfl⟩
  · split <;> exact ⟨_, rfl⟩

theorem stampTime_port (s : State) (n : Nat) (p : Port) (t : Txn) :
    ∃ v, (stampTime s n p t).2.1 = { p with syncAt := v } := by
  unfold stampTime
  dsimp only
  split
  · exact ⟨_, rfl⟩
  · split <;> exact ⟨_, rfl⟩

/-- What queueing a transaction of this node does on a usable port where nothing waits and the channel has the credits and the flits:
it is framed at once. -/
theorem enqueue_one (s : State) (n : Nat) (e : TxEntry) (hi : e.ingress = none) (hu : usable s n = true)
    (hw : (getPort s n).wait = []) (hc : txnUnits e.txn ≤ nth (getPort s n).credits (vcOf e.txn.typ) 0)
    (hf : flitRoom (getPort s n) e.txn = true) :
    ∃ (p : Port) (l : List Out) (k : Nat),
      enqueue s n e =
        { setPort { (stampTime s n (getPort s n) e.txn).1 with fab := { s.fab with nextOrder := s.fab.nextOrder + 1 } } n p with
          outbox := l ++ .frame n (leaving s n e.txn) :: s.outbox } ∧
      p.trained = (getPort s n).trained ∧ p.retrain = (getPort s n).retrain ∧ p.held = (getPort s n).held ∧
      p.lost = (getPort s n).lost ∧ p.wait = [] ∧
      p.credits = (getPort s n).credits.set (vcOf e.txn.typ)
        (nth (getPort s n).credits (vcOf e.txn.typ) 0 - txnUnits (leaving s n e.txn)) ∧
      p.unacked = (getPort s n).unacked ++
        [{ e with order := s.fab.nextOrder, txn := leaving s n e.txn, lastFlit := k }] := by
  obtain ⟨x, hx⟩ : ∃ x : TxEntry, x = { e with order := s.fab.nextOrder } := ⟨_, rfl⟩
  obtain ⟨q, hq⟩ : ∃ q : Port, q = { getPort s n with wait := [x] } := ⟨_, rfl⟩
  obtain ⟨u, huq⟩ : ∃ u : State, u = setPort { s with fab := { s.fab with nextOrder := s.fab.nextOrder + 1 } } n q := ⟨_, rfl⟩
  have hg : getPort u n = q := by
    subst huq
    exact getPort_setPort_self _ _ _
  have hxt : x.txn = e.txn := by rw [hx]
  have hu' : usable u n = true := by
    rw [usable_congr s u n (by rw [hg, hq]; exact ⟨rfl, rfl, rfl, rfl⟩), hu]
  have cs : ∀ v, canSend q v = if v = vcOf e.txn.typ then some 0 else none := by
    intro v
    unfold canSend firstOn
    have hfr : flitRoom q e.txn = true := by rw [hq]; exact hf
    have hcq : q.credits = (getPort s n).credits := by rw [hq]
    have hwq : q.wait = [x] := by rw [hq]
    simp only [hwq, List.findIdx?_cons, List.findIdx?_nil, hxt]
    by_cases h : v = vcOf e.txn.typ
    · subst h
      simp [hxt, hfr, hcq, hc]
    · have : (vcOf e.txn.typ == v) = false := by simpa using Ne.symm h
      simp [this, h]
  have nv : nextVc q = some (vcOf e.txn.typ, 0) := by
    have hl : vcOf e.txn.typ ≤ 3 := by unfold vcOf; split <;> decide
    generalize vcOf e.txn.typ = vc at cs hl ⊢
    unfold nextVc
    rw [cs 3]
    by_cases h3 : vc = 3
    · subst h3; rfl
    · rw [if_neg (Ne.symm h3)]
      simp only [List.findSome?_cons, List.findSome?_nil, cs]
      have h1 : vc < 3 := by omega
      generalize q.lastVc = L
      have : (L + 1) % 3 = vc ∨ (L + 2) % 3 = vc ∨ (L + 3) % 3 = vc := by omega
      by_cases a1 : (L + 1) % 3 = vc
      · simp [a1]
      · by_cases a2 : (L + 2) % 3 = vc
        · simp [a1, a2]
        · have a3 : (L + 3) % 3 = vc := by omega
          simp [a1, a2, a3]
  have henq : enqueue s n e = packFlits (frameOne u n q (vcOf e.txn.typ) 0) n
      ((getPort (frameOne u n q (vcOf e.txn.typ) 0) n).txBuf.length / 240 + 1) := by
    have h0 : enqueue s n e = pump u n := by
      unfold enqueue
      dsimp only
      rw [huq, hq, hx, hw]
      rfl
    rw [h0]
    unfold pump
    have hl : (getPort u n).wait.length = 1 := by rw [hg, hq]; rfl
    dsimp only
    rw [hl]
    unfold pumpPort
    rw [if_pos hu', hg, nv]
    dsimp only
    unfold pumpPort
    rfl
  have hfr : ∃ (p : Port) (k : Nat), frameOne u n q (vcOf e.txn.typ) 0 =
      { setPort { (stampTime s n (getPort s n) e.txn).1 with fab := { s.fab with nextOrder := s.fab.nextOrder + 1 } } n p with
        outbox := .frame n (leaving s n e.txn) :: s.outbox } ∧
      p.trained = (getPort s n).trained ∧ p.retrain = (getPort s n).retrain ∧ p.held = (getPort s n).held ∧
      p.lost = (getPort s n).lost ∧ p.wait = [] ∧
      p.credits = (getPort s n).credits.set (vcOf e.txn.typ)
        (nth (getPort s n).credits (vcOf e.txn.typ) 0 - txnUnits (leaving s n e.txn)) ∧
      p.unacked = (getPort s n).unacked ++
        [{ e with order := s.fab.nextOrder, txn := leaving s n e.txn, lastFlit := k }] := by
    have hs : (stampTime u n q e.txn).1 = { (stampTime s n (getPort s n) e.txn).1 with fab := u.fab } := by
      rw [huq]
      unfold setPort
      rw [stampTime_fab, stampTime_fab, (stampTime_congr s n q (getPort s n) e.txn (by rw [hq])).1]
    have ht : (stampTime u n q e.txn).2.2 = leaving s n e.txn := by
      rw [huq]
      unfold setPort leaving
      rw [stampTime_txn_fab, stampTime_txn_fab, (stampTime_congr s n q (getPort s n) e.txn (by rw [hq])).2]
    obtain ⟨v, hv⟩ := stampTime_port u n q e.txn
    obtain ⟨ex, hex⟩ := stampTime_state s n (getPort s n) e.txn
    unfold frameOne
    have hw0 : q.wait[0]? = some x := by rw [hq]; rfl
    have hxi : x.ingress = none := by rw [hx]; exact hi
    simp only [hw0, hxt, hxi, hs, ht, hv]
    refine ⟨{ q with
        syncAt := v, wait := q.wait.eraseIdx 0,
        credits := q.credits.set (vcOf e.txn.typ) (nth q.credits (vcOf e.txn.typ) 0 - txnUnits (leaving s n e.txn)),
        lastVc := if vcOf e.txn.typ = 3 then q.lastVc else vcOf e.txn.typ,
        txBuf := q.txBuf ++ txnStream (leaving s n e.txn),
        unacked := q.unacked ++ [{ x with
          ingress := none, txn := leaving s n e.txn,
          lastFlit := q.formed + ((q.txBuf ++ txnStream (leaving s n e.txn)).length - 1) / 240 }] },
      q.formed + ((q.txBuf ++ txnStream (leaving s n e.txn)).length - 1) / 240, ?_, ?_⟩
    · rw [hex, huq]
      simp only [setPort, sendOut, smPut_smPut]
      rfl
    · rw [hq, hx]
      rw [hi]
      exact ⟨rfl, rfl, rfl, rfl, rfl, rfl, rfl⟩
  obtain ⟨p, k, h1, h2⟩ := hfr
  rw [henq]
  rcases packFlits_only _ (frameOne u n q (vcOf e.txn.typ) 0) n with h | h
  · rw [h, h1]
    exact ⟨p, [], k, rfl, h2⟩
  · have hp := h.port
    obtain ⟨p', l, h3, h4⟩ := h
    rw [h3]
    have hg' : getPort (frameOne u n q (vcOf e.txn.typ) 0) n = p := by
      rw [h1]
      exact getPort_setPort_self _ _ _
    rw [hg'] at h4
    obtain ⟨a, b, c, d, f, g, i⟩ := h4
    refine ⟨p', l, k, ?_, a.trans h2.1, b.trans h2.2.1, c.trans h2.2.2.1, d.trans h2.2.2.2.1, g.trans h2.2.2.2.2.1,
      f.trans h2.2.2.2.2.2.1, i.trans h2.2.2.2.2.2.2⟩
    rw [h1]
    simp only [setPort, smPut_smPut]

end Sys2Proof.Machine
end

