-- ==== Sys2Proof/Laws/Memory.lean ====
section
/-!
SUPPORT. Laws/Memory.lean: what a write of bytes leaves in memory: every byte enabled reads as the last byte written to it, and
every other byte reads as before, where no word written to is uncorrectable.
-/
namespace Sys2Proof.Machine

/-- The byte at key `k` after some byte writes in order, `d` before them. -/
def lastByte (bs : List (Nat × Byte)) (k : Nat) (d : Byte) : Byte := bs.foldl (fun b e => if e.1 = k then e.2 else b) d

theorem lastByte_absent (bs : List (Nat × Byte)) (k : Nat) (d : Byte) (h : ∀ e ∈ bs, e.1 ≠ k) : lastByte bs k d = d := by
  unfold lastByte
  induction bs generalizing d with
  | nil => rfl
  | cons a r ih =>
    rw [List.foldl_cons, if_neg (h a (by simp))]
    exact ih d (fun e he => h e (by simp [he]))

theorem lastByte_filter (bs : List (Nat × Byte)) (p : Nat × Byte → Bool) (k : Nat) (d : Byte) (h : ∀ e ∈ bs, e.1 = k → p e = true) :
    lastByte (bs.filter p) k d = lastByte bs k d := by
  unfold lastByte
  induction bs generalizing d with
  | nil => rfl
  | cons a r ih =>
    have ih' := fun d => ih d (fun e he => h e (by simp [he]))
    by_cases hp : p a = true
    · rw [List.filter_cons_of_pos hp, List.foldl_cons, List.foldl_cons, ih']
    · rw [List.filter_cons_of_neg hp, List.foldl_cons, if_neg (fun e => hp (h a (by simp) e)), ih']

theorem cellsWf_putAll (bs : List (Nat × Byte)) (m : Mem) (w : Memory.wf m = true) : Memory.wf (memPutAll m bs) = true := by
  unfold memPutAll
  induction bs generalizing m with
  | nil => exact w
  | cons a r ih => rw [List.foldl_cons]; exact ih (memPutByte m a.1 a.2) (cellPut_wf _ (Nat.zero_le _) w)

theorem memPutAll_ue (bs : List (Nat × Byte)) (m : Mem) : (memPutAll m bs).ueWords = m.ueWords := by
  unfold memPutAll
  induction bs generalizing m with
  | nil => rfl
  | cons a r ih => rw [List.foldl_cons, ih]; rfl

theorem memByte_memPutAll (bs : List (Nat × Byte)) (m : Mem) (w : Memory.wf m = true) (k : Nat) :
    memByte (memPutAll m bs) k = lastByte bs k (memByte m k) := by
  unfold memPutAll lastByte
  induction bs generalizing m with
  | nil => rfl
  | cons a r ih =>
    rw [List.foldl_cons, List.foldl_cons, ih (memPutByte m a.1 a.2) (cellPut_wf _ (Nat.zero_le _) w)]
    congr 1
    show cellGet (cellPut m.cells a.1 a.2) k = _
    split
    · rename_i h; subst h; exact cellGet_cellPut_self _ _ _ 0 w
    · rename_i h; exact cellGet_cellPut_ne _ (fun e => h e.symm) _ 0 w

theorem nodup_eraseDups (l : List Nat) : l.eraseDups.Nodup := by
  have key : ∀ n (l : List Nat), l.length ≤ n → l.eraseDups.Nodup := by
    intro n
    induction n with
    | zero =>
      intro l h
      have : l = [] := List.length_eq_zero_iff.mp (by omega)
      subst this; simp
    | succ n ih =>
      intro l h
      cases l with
      | nil => simp
      | cons a r =>
        rw [List.eraseDups_cons, List.nodup_cons]
        refine ⟨by rw [List.mem_eraseDups]; simp, ih _ ?_⟩
        have := List.length_filter_le (fun b => !b == a) r
        simp only [List.length_cons] at h; omega
  exact key _ l (Nat.le_refl _)

theorem storeWords_get (ws : List Nat) (hn : ws.Nodup) (bs : List (Nat × Byte)) (m : Mem) (l : List Nat) (w : Memory.wf m = true)
    (hu : m.ueWords = []) :
    let r := ws.foldl (fun acc w => let r := storeWord acc.1 w (bs.filter (fun e => e.1 / 4 == w))
                                    if r.2 then (r.1, acc.2) else (r.1, acc.2 ++ [w])) (m, l)
    r.2 = l ∧ Memory.wf r.1 = true ∧ r.1.ueWords = [] ∧ r.1.sideband = m.sideband ∧ r.1.sbUe = m.sbUe ∧
      ∀ k, memByte r.1 k = if k / 4 ∈ ws then lastByte bs k (memByte m k) else memByte m k := by
  induction ws generalizing m with
  | nil => exact ⟨rfl, w, hu, rfl, rfl, fun k => by simp⟩
  | cons a r ih =>
    rw [List.nodup_cons] at hn
    have e : storeWord m a (bs.filter (fun e => e.1 / 4 == a)) =
        (memFresh (memPutAll m (bs.filter (fun e => e.1 / 4 == a))) a, true) := by
      unfold storeWord; rw [if_pos (by simp [hu])]
    have hw : Memory.wf (memFresh (memPutAll m (bs.filter (fun e => e.1 / 4 == a))) a) = true := cellsWf_putAll _ _ w
    have hu' : (memFresh (memPutAll m (bs.filter (fun e => e.1 / 4 == a))) a).ueWords = [] := by
      show (memPutAll m _).ueWords.filter _ = []; rw [memPutAll_ue, hu]; rfl
    have sb : ∀ bs : List (Nat × Byte), (memPutAll m bs).sideband = m.sideband ∧ (memPutAll m bs).sbUe = m.sbUe := by
      intro bs; unfold memPutAll; generalize m = m0
      induction bs generalizing m0 with
      | nil => exact ⟨rfl, rfl⟩
      | cons b t ih => rw [List.foldl_cons]; exact ih _
    have := ih hn.2 _ hw hu'
    dsimp only at this ⊢
    rw [List.foldl_cons, e]
    obtain ⟨h1, h2, h3, h4, h5, h6⟩ := this
    refine ⟨h1, h2, h3, h4.trans (sb _).1, h5.trans (sb _).2, fun k => (h6 k).trans ?_⟩
    have hb : memByte (memFresh (memPutAll m (bs.filter (fun e => e.1 / 4 == a))) a) k =
        lastByte (bs.filter (fun e => e.1 / 4 == a)) k (memByte m k) := memByte_memPutAll _ _ w k
    rw [hb]
    by_cases hk : k / 4 = a
    · subst hk
      rw [if_neg hn.1, if_pos (by simp), lastByte_filter _ _ _ _ (fun e _ he => by simp [he])]
    · have : lastByte (bs.filter (fun e => e.1 / 4 == a)) k (memByte m k) = memByte m k :=
        lastByte_absent _ _ _ (fun e he hk' => hk (by rw [← hk']; simpa using (List.mem_filter.mp he).2))
      rw [this]
      simp [hk]

/-- What `storeBytes` leaves where no word is uncorrectable. -/
theorem storeBytes_get (m : Mem) (bs : List (Nat × Byte)) (w : Memory.wf m = true) (hu : m.ueWords = []) :
    (storeBytes m bs).2 = [] ∧ Memory.wf (storeBytes m bs).1 = true ∧ (storeBytes m bs).1.ueWords = [] ∧
      (storeBytes m bs).1.sideband = m.sideband ∧ (storeBytes m bs).1.sbUe = m.sbUe ∧
      ∀ k, memByte (storeBytes m bs).1 k = lastByte bs k (memByte m k) := by
  obtain ⟨h1, h2, h3, h4, h5, h6⟩ := storeWords_get (wordsTouched bs) (by unfold wordsTouched; exact nodup_eraseDups _) bs m [] w hu
  refine ⟨h1, h2, h3, h4, h5, fun k => (h6 k).trans ?_⟩
  split
  · rfl
  · rename_i h
    rw [lastByte_absent]
    intro e he hk
    apply h
    unfold wordsTouched
    rw [List.mem_eraseDups, List.mem_map]
    exact ⟨e, he, by rw [hk]⟩

/-- Sideband writes leave every byte as it is. -/
theorem memByte_sbWrites (l : List Nat) (f : Nat → Bool) (v : Nat → Word × Word) (m : Mem) :
    let r := l.foldl (fun m b => sbWrite m b (f b) (v b)) m
    r.cells = m.cells ∧ r.ueWords = m.ueWords ∧ r.ceWords = m.ceWords := by
  induction l generalizing m with
  | nil => exact ⟨rfl, rfl, rfl⟩
  | cons a r ih =>
    have e : ∀ m b w v, (sbWrite m b w v).cells = m.cells ∧ (sbWrite m b w v).ueWords = m.ueWords ∧
        (sbWrite m b w v).ceWords = m.ceWords := by
      intro m b w v; unfold sbWrite sbPut; split
      · split <;> exact ⟨rfl, rfl, rfl⟩
      · exact ⟨rfl, rfl, rfl⟩
    dsimp only
    rw [List.foldl_cons]
    obtain ⟨h1, h2, h3⟩ := ih (sbWrite m a (f a) (v a))
    obtain ⟨e1, e2, e3⟩ := e m a (f a) (v a)
    exact ⟨h1.trans e1, h2.trans e2, h3.trans e3⟩

/-- The bytes of a run of consecutive addresses. -/
theorem lastByte_run (g : Nat → Nat) (hg : ∀ i j, g i = g j → i = j) (bs : List Byte) (k : Nat) (d : Byte) :
    (∀ i, i < bs.length → k = g i → lastByte (((List.range bs.length).zip bs).map (fun e => (g e.1, e.2))) k d = bs.getD i 0#8) ∧
    ((∀ i, i < bs.length → k ≠ g i) → lastByte (((List.range bs.length).zip bs).map (fun e => (g e.1, e.2))) k d = d) := by
  constructor
  · intro i hi hk
    have key : ∀ (l : List Byte) (b : Nat), b ≤ i → i < b + l.length → ∀ d,
        lastByte (((List.range' b l.length).zip l).map (fun e => (g e.1, e.2))) k d = l.getD (i - b) 0#8 := by
      intro l
      induction l with
      | nil => intro b h1 h2; simp at h2; omega
      | cons x r ih =>
        intro b h1 h2 d
        rw [List.length_cons, List.range'_succ, List.zip_cons_cons, List.map_cons]
        unfold lastByte; rw [List.foldl_cons]
        by_cases e : b = i
        · subst e; rw [if_pos hk.symm, Nat.sub_self]
          have := lastByte_absent (((List.range' (b + 1) r.length).zip r).map (fun e => (g e.1, e.2))) k x (by
            intro e he hk'
            obtain ⟨y, hy, rfl⟩ := List.mem_map.mp he
            have hm := (List.of_mem_zip hy).1
            rw [List.mem_range'_1] at hm
            have := hg _ _ (hk'.trans hk); omega)
          unfold lastByte at this; rw [this]; rfl
        · rw [if_neg (fun h => e (hg _ _ (h.trans hk)))]
          have := ih (b + 1) (by omega) (by simp only [List.length_cons] at h2; omega) d
          unfold lastByte at this; rw [this, show i - b = (i - (b + 1)) + 1 by omega]; rfl
    have := key bs 0 (by omega) (by omega) d
    rw [List.range_eq_range']; simpa using this
  · intro h
    apply lastByte_absent
    intro e he hk
    obtain ⟨y, hy, rfl⟩ := List.mem_map.mp he
    have hm := (List.of_mem_zip hy).1
    rw [List.mem_range] at hm
    exact h _ hm hk.symm

/-- What the block's own write into the tasting room leaves: the bytes written, which do not wrap, and all others as before;
nothing but the memory changes. -/
theorem trStore_get (s : State) (off : Nat) (bs : List Byte) (w : Memory.wf s.mem = true) (hu : s.mem.ueWords = [])
    (h : off + bs.length ≤ 0x2000000) :
    Memory.wf (trStore s off bs).mem = true ∧ (trStore s off bs).mem.ueWords = [] ∧
      { trStore s off bs with mem := s.mem } = s ∧
      (∀ i, i < bs.length → memByte (trStore s off bs).mem (0x100000000 + off + i) = bs.getD i 0#8) ∧
      ∀ k, (k < 0x100000000 + off ∨ 0x100000000 + off + bs.length ≤ k) → memByte (trStore s off bs).mem k = memByte s.mem k := by
  have hp : physWrites s ((byteRun 0 bs).map (fun e => (trAddr (off + e.1), e.2))) =
      ((List.range bs.length).zip bs).map (fun e => (0x100000000 + off + e.1, e.2)) := by
    unfold physWrites byteRun
    rw [List.map_map, List.map_map]
    apply List.map_congr_left
    intro e he
    have hm := (List.of_mem_zip he).1
    rw [List.mem_range] at hm
    have : trAddr (off + (0 + e.1)) = 0x100000000 + off + e.1 := by unfold trAddr; omega
    simp only [Function.comp, this]
    unfold physOf; rw [if_neg (by omega)]
  have hmem : (trStore s off bs).mem = (((((List.range bs.length).zip bs).map (fun e => (0x100000000 + off + e.1, e.2))).map (fun e => blockOf e.1)).eraseDups.foldl
      (fun m b => sbWrite m b (coversBlock (((List.range bs.length).zip bs).map (fun e => (0x100000000 + off + e.1, e.2))) b) sbUnchecked)
      (storeBytes s.mem (((List.range bs.length).zip bs).map (fun e => (0x100000000 + off + e.1, e.2)))).1) := by
    unfold trStore storeUnchecked; rw [hp]; rfl
  obtain ⟨h1, h2, h3, h4, h5, h6⟩ := storeBytes_get s.mem (((List.range bs.length).zip bs).map (fun e => (0x100000000 + off + e.1, e.2))) w hu
  obtain ⟨c1, c2, c3⟩ := memByte_sbWrites (((((List.range bs.length).zip bs).map (fun e => (0x100000000 + off + e.1, e.2))).map (fun e => blockOf e.1)).eraseDups)
    (coversBlock (((List.range bs.length).zip bs).map (fun e => (0x100000000 + off + e.1, e.2)))) (fun _ => sbUnchecked)
    (storeBytes s.mem (((List.range bs.length).zip bs).map (fun e => (0x100000000 + off + e.1, e.2)))).1
  have hb : ∀ k, memByte (trStore s off bs).mem k = lastByte (((List.range bs.length).zip bs).map (fun e => (0x100000000 + off + e.1, e.2))) k (memByte s.mem k) := by
    intro k; rw [← h6 k, hmem]; unfold memByte; rw [c1]
  have run := lastByte_run (fun i => 0x100000000 + off + i) (fun i j e => by simpa using e) bs
  refine ⟨?_, ?_, rfl, ?_, ?_⟩
  · rw [hmem]; unfold Memory.wf; rw [c1]; exact h2
  · rw [hmem, c2]; exact h3
  · intro i hi; rw [hb]; exact (run _ _).1 i hi rfl
  · intro k hk; rw [hb]; exact (run _ _).2 (fun i hi => by omega)

end Sys2Proof.Machine
end

