-- ==== Sys2Proof/Laws/Still.lean ====
section
/-!
SUPPORT. Laws/Still.lean: what no command of a press touches: fabric time (the times at which
waiting TIME frames leave apart) and the calendar, ring state, vintages, the cellar door,
the management agent, the tally and the boot state.
-/
namespace Sys2Proof.Machine

/-- `t` has these parts of `s`. -/
structure Still (s t : State) : Prop where
  time : { t.time with exch := [] } = { s.time with exch := [] }
  drings : t.drings = s.drings
  crings : t.crings = s.crings
  vint : t.vint = s.vint
  door : t.door = s.door
  mgmt : t.mgmt = s.mgmt
  tally : t.tally = s.tally
  boot : t.boot = s.boot

theorem Still.refl {s : State} : Still s s := ⟨rfl, rfl, rfl, rfl, rfl, rfl, rfl, rfl⟩

theorem Still.trans {s t u : State} (h : Still s t) (k : Still t u) : Still s u :=
  ⟨k.time.trans h.time, k.drings.trans h.drings, k.crings.trans h.crings, k.vint.trans h.vint, k.door.trans h.door, k.mgmt.trans h.mgmt, k.tally.trans h.tally, k.boot.trans h.boot⟩

theorem Still.mk_iff {s t : State} {pending draw outside outbox mem regs book flights nextId presses tables fab coop jtag thermTrip} :
    Still s (State.mk pending draw outside outbox mem regs book t.time t.drings t.crings flights nextId presses tables t.vint fab t.door coop t.mgmt t.tally t.boot jtag thermTrip) ↔ Still s t :=
  ⟨fun h => ⟨h.time, h.drings, h.crings, h.vint, h.door, h.mgmt, h.tally, h.boot⟩, fun h => ⟨h.time, h.drings, h.crings, h.vint, h.door, h.mgmt, h.tally, h.boot⟩⟩

theorem Still.mk1 {s t : State} {pending draw outside outbox mem regs book flights nextId presses tables fab coop jtag thermTrip} (h : Still s t) :
    Still s (State.mk pending draw outside outbox mem regs book t.time t.drings t.crings flights nextId presses tables t.vint fab t.door coop t.mgmt t.tally t.boot jtag thermTrip) :=
  ⟨h.time, h.drings, h.crings, h.vint, h.door, h.mgmt, h.tally, h.boot⟩

theorem Still.mkMem {s t : State} {m pending draw outside outbox regs book flights nextId presses tables fab coop jtag thermTrip} (h : Still s t) (_ : Memory.wf t.mem = true → Memory.wf m = true) :
    Still s (State.mk pending draw outside outbox m regs book t.time t.drings t.crings flights nextId presses tables t.vint fab t.door coop t.mgmt t.tally t.boot jtag thermTrip) :=
  ⟨h.time, h.drings, h.crings, h.vint, h.door, h.mgmt, h.tally, h.boot⟩

theorem Still.ite {s a b : State} {c : Prop} [Decidable c] (ha : Still s a) (hb : Still s b) :
    Still s (if c then a else b) := by
  split <;> assumption

theorem Still.iteFst {α : Type} {s : State} {a b : State × α} {c : Prop} [Decidable c] (ha : Still s a.1)
    (hb : Still s b.1) : Still s (if c then a else b).1 := by
  split <;> assumption

theorem Still.foldl {α : Type} {s : State} {f : State → α → State} (hf : ∀ a x, Still a (f a x)) (l : List α)
    {a : State} (h : Still s a) : Still s (l.foldl f a) := by
  induction l generalizing a with
  | nil => exact h
  | cons x r ih => exact ih (h.trans (hf a x))

theorem Still.foldlFst {α β : Type} {s : State} {f : State × β → α → State × β}
    (hf : ∀ a x, Still a.1 (f a x).1) (l : List α) {a : State × β} (h : Still s a.1) : Still s (l.foldl f a).1 := by
  induction l generalizing a with
  | nil => exact h
  | cons x r ih => exact ih (h.trans (hf a x))

/-- The same of an outcome. -/
def StillOut (s : State) (o : Res) : Prop := ∀ t, o = .next t → Still s t

theorem StillOut.next {s t : State} (h : Still s t) : StillOut s (.next t) := by
  intro u hu
  cases hu
  exact h

theorem still_setMem {s t : State} {m : Mem} (h : Still s t) (_ : MemKeep t.mem m) : Still s (setMem t m) :=
  ⟨h.time, h.drings, h.crings, h.vint, h.door, h.mgmt, h.tally, h.boot⟩

theorem still_stampTime {s₀ s : State} (hk : Still s₀ s) (n p t) : Still s₀ (stampTime s n p t).1 := by
  unfold stampTime
  dsimp only
  split
  · exact hk
  · split
    · exact hk
    · exact hk
    · exact ⟨hk.time, hk.drings, hk.crings, hk.vint, hk.door, hk.mgmt, hk.tally, hk.boot⟩
    · exact hk

theorem still_rset {s₀ s : State} (hk : Still s₀ s) (off v) :
    Still s₀ (rset s off v) := by
  refine hk.trans ?_
  clear hk
  unfold rset
  dsimp only
  repeat' first
    | with_reducible apply Still.refl
    | simp only [Still.mk_iff]

theorem still_rsetFld {s₀ s : State} (hk : Still s₀ s) (off lo width v) :
    Still s₀ (rsetFld s off lo width v) := by
  refine hk.trans ?_
  clear hk
  unfold rsetFld
  repeat' first
    | with_reducible apply Still.refl
    | with_reducible apply still_rset

theorem still_rsetBit {s₀ s : State} (hk : Still s₀ s) (off i b) :
    Still s₀ (rsetBit s off i b) := by
  refine hk.trans ?_
  clear hk
  unfold rsetBit
  repeat' first
    | with_reducible apply Still.refl
    | with_reducible apply still_rset

theorem still_bumpFld {s₀ s : State} (hk : Still s₀ s) (off lo width n) :
    Still s₀ (bumpFld s off lo width n) := by
  refine hk.trans ?_
  clear hk
  unfold bumpFld
  repeat' first
    | with_reducible apply Still.refl
    | with_reducible apply still_rsetFld

theorem still_bump {s₀ s : State} (hk : Still s₀ s) (off n) :
    Still s₀ (bump s off n) := by
  refine hk.trans ?_
  clear hk
  unfold bump
  repeat' first
    | with_reducible apply Still.refl
    | with_reducible apply still_rset

theorem still_setPress {s₀ s : State} (hk : Still s₀ s) (p x) :
    Still s₀ (setPress s p x) := by
  refine hk.trans ?_
  clear hk
  unfold setPress
  repeat' first
    | with_reducible apply Still.refl
    | simp only [Still.mk_iff]

theorem still_setTable {s₀ s : State} (hk : Still s₀ s) (k x) :
    Still s₀ (setTable s k x) := by
  refine hk.trans ?_
  clear hk
  unfold setTable
  repeat' first
    | with_reducible apply Still.refl
    | simp only [Still.mk_iff]

theorem still_setPort {s₀ s : State} (hk : Still s₀ s) (n x) :
    Still s₀ (setPort s n x) := by
  refine hk.trans ?_
  clear hk
  unfold setPort
  dsimp only
  repeat' first
    | with_reducible apply Still.refl
    | simp only [Still.mk_iff]

theorem still_sendOut {s₀ s : State} (hk : Still s₀ s) (o) :
    Still s₀ (sendOut s o) := by
  refine hk.trans ?_
  clear hk
  unfold sendOut
  repeat' first
    | with_reducible apply Still.refl
    | simp only [Still.mk_iff]

theorem still_emit {s₀ s : State} (hk : Still s₀ s) (e) :
    Still s₀ (emit s e) := by
  refine hk.trans ?_
  clear hk
  unfold emit
  dsimp only
  repeat' first
    | with_reducible apply Still.refl
    | with_reducible apply still_bump
    | with_reducible apply Still.ite
    | simp only [Still.mk_iff]

theorem still_emitFault {s₀ s : State} (hk : Still s₀ s) (e) :
    Still s₀ (emitFault s e) := by
  refine hk.trans ?_
  clear hk
  unfold emitFault
  repeat' first
    | with_reducible apply Still.refl
    | with_reducible apply still_emit
    | with_reducible apply still_rsetBit

theorem still_storeUnchecked {s₀ s : State} (hk : Still s₀ s) (bs) : Still s₀ (storeUnchecked s bs).1 := by
  refine hk.trans ?_
  unfold storeUnchecked
  dsimp only
  exact still_setMem Still.refl (MemKeep.foldl (fun m b => sbWrite_keep _ _ _ _) _ (storeBytes_keep _ _))

theorem still_trStore {s₀ s : State} (hk : Still s₀ s) (off bs) :
    Still s₀ (trStore s off bs) := by
  refine hk.trans ?_
  clear hk
  unfold trStore
  repeat' first
    | with_reducible apply Still.refl
    | with_reducible apply still_storeUnchecked

theorem still_setFlight {s₀ s : State} (hk : Still s₀ s) (f) :
    Still s₀ (setFlight s f) := by
  refine hk.trans ?_
  clear hk
  unfold setFlight
  repeat' first
    | with_reducible apply Still.refl
    | simp only [Still.mk_iff]

theorem still_evUnmapped {s₀ s : State} (hk : Still s₀ s) (w a snode) :
    Still s₀ (evUnmapped s w a snode) := by
  refine hk.trans ?_
  clear hk
  unfold evUnmapped
  repeat' first
    | with_reducible apply Still.refl
    | with_reducible apply still_emit

theorem still_needReplace {s₀ s : State} (hk : Still s₀ s) (bit) :
    Still s₀ (needReplace s bit) := by
  refine hk.trans ?_
  clear hk
  unfold needReplace
  dsimp only
  repeat' first
    | with_reducible apply Still.refl
    | with_reducible apply still_emit
    | with_reducible apply still_rsetBit
    | with_reducible apply Still.ite

theorem still_judgeReplace {s₀ s : State} (hk : Still s₀ s) :
    Still s₀ (judgeReplace s) := by
  refine hk.trans ?_
  clear hk
  unfold judgeReplace
  dsimp only
  repeat' first
    | with_reducible apply Still.refl
    | with_reducible apply still_needReplace
    | with_reducible apply Still.ite

theorem still_binFailed {s₀ s : State} (hk : Still s₀ s) (m cause) :
    Still s₀ (binFailed s m cause) := by
  refine hk.trans ?_
  clear hk
  unfold binFailed
  repeat' first
    | with_reducible apply Still.refl
    | with_reducible apply still_emitFault
    | with_reducible apply still_rsetBit

theorem still_beginRemap {s₀ s : State} (hk : Still s₀ s) (m k) :
    Still s₀ (beginRemap s m k) := by
  refine hk.trans ?_
  clear hk
  unfold beginRemap
  dsimp only
  repeat' first
    | with_reducible apply Still.refl
    | with_reducible apply still_emit
    | simp only [Still.mk_iff]

theorem still_startRemapFrom {s₀ s : State} (hk : Still s₀ s) (l) : Still s₀ (startRemapFrom s l) := by
  refine hk.trans ?_
  clear hk
  induction l generalizing s with
  | nil => exact Still.mk1 Still.refl
  | cons q r ih =>
    unfold startRemapFrom
    split
    · exact (still_binFailed Still.refl _ _).trans ih
    · exact still_beginRemap (Still.mk1 Still.refl) _ _

theorem still_startRemap {s₀ s : State} (hk : Still s₀ s) :
    Still s₀ (startRemap s) := by
  refine hk.trans ?_
  clear hk
  unfold startRemap
  repeat' first
    | with_reducible apply Still.refl
    | with_reducible apply still_startRemapFrom
    | with_reducible apply Still.ite

theorem still_failBin {s₀ s : State} (hk : Still s₀ s) (m cause) :
    Still s₀ (failBin s m cause) := by
  refine hk.trans ?_
  clear hk
  unfold failBin
  dsimp only
  repeat' first
    | with_reducible apply Still.refl
    | with_reducible apply still_startRemap
    | with_reducible apply Still.ite
    | simp only [Still.mk_iff]

theorem still_countUe {s₀ s : State} (hk : Still s₀ s) (w) :
    Still s₀ (countUe s w) := by
  refine hk.trans ?_
  clear hk
  unfold countUe
  dsimp only
  repeat' first
    | with_reducible apply Still.refl
    | with_reducible apply still_failBin
    | with_reducible apply still_bump
    | with_reducible apply Still.ite
    | simp only [Still.mk_iff]
    | split

theorem still_recordUe {s₀ s : State} (hk : Still s₀ s) (who w) :
    Still s₀ (recordUe s who w) := by
  refine hk.trans ?_
  clear hk
  unfold recordUe
  dsimp only
  repeat' first
    | with_reducible apply Still.refl
    | with_reducible apply still_countUe
    | with_reducible apply still_emit
    | split

theorem still_recordUeBlend {s₀ s : State} (hk : Still s₀ s) (who w) :
    Still s₀ (recordUeBlend s who w) := by
  refine hk.trans ?_
  clear hk
  unfold recordUeBlend
  dsimp only
  repeat' first
    | with_reducible apply Still.refl
    | with_reducible apply still_countUe
    | with_reducible apply still_emit

theorem still_countCeWord {s₀ s : State} (hk : Still s₀ s) (w) :
    Still s₀ (countCeWord s w) := by
  refine hk.trans ?_
  clear hk
  unfold countCeWord
  dsimp only
  repeat' first
    | with_reducible apply Still.refl
    | with_reducible apply still_bump
    | simp only [Still.mk_iff]
    | split

theorem still_countCe {s₀ s : State} (hk : Still s₀ s) (k n) :
    Still s₀ (countCe s k n) := by
  refine hk.trans ?_
  clear hk
  unfold countCe
  repeat' first
    | with_reducible apply Still.refl
    | with_reducible apply still_countCeWord
    | with_reducible apply Still.foldl
    | intro _

theorem still_correctRows {s₀ s : State} (hk : Still s₀ s) (rows whole) :
    Still s₀ (correctRows s rows whole) := by
  refine hk.trans ?_
  clear hk
  unfold correctRows
  dsimp only
  repeat' first
    | with_reducible apply Still.refl
    | with_reducible apply still_countCeWord
    | with_reducible apply Still.foldl
    | with_reducible apply still_setMem
    | exact MemKeep.cells rfl
    | intro _

theorem still_correctMerges {s₀ s : State} (hk : Still s₀ s) (ps) :
    Still s₀ (correctMerges s ps) := by
  refine hk.trans ?_
  clear hk
  unfold correctMerges
  dsimp only
  repeat' first
    | with_reducible apply Still.refl
    | with_reducible apply still_correctRows

theorem still_recordUes {s₀ s : State} (hk : Still s₀ s) (who ws) :
    Still s₀ (recordUes s who ws) := by
  refine hk.trans ?_
  clear hk
  unfold recordUes
  repeat' first
    | with_reducible apply Still.refl
    | with_reducible apply still_recordUe
    | with_reducible apply Still.foldl
    | intro _

theorem still_recordUeBlends {s₀ s : State} (hk : Still s₀ s) (who ws) :
    Still s₀ (recordUeBlends s who ws) := by
  refine hk.trans ?_
  clear hk
  unfold recordUeBlends
  repeat' first
    | with_reducible apply Still.refl
    | with_reducible apply still_recordUeBlend
    | with_reducible apply Still.foldl
    | intro _

theorem still_countSbUe {s₀ s : State} (hk : Still s₀ s) (who blk) :
    Still s₀ (countSbUe s who blk) := by
  refine hk.trans ?_
  clear hk
  unfold countSbUe
  dsimp only
  repeat' first
    | with_reducible apply Still.refl
    | with_reducible apply still_emit
    | with_reducible apply still_bump
    | with_reducible apply Still.ite

theorem still_layFlit {s₀ s : State} (hk : Still s₀ s) (n bytes) :
    Still s₀ (layFlit s n bytes) := by
  refine hk.trans ?_
  clear hk
  unfold layFlit
  dsimp only
  repeat' first
    | with_reducible apply Still.refl
    | with_reducible apply still_sendOut
    | with_reducible apply still_setPort
    | with_reducible apply Still.ite

theorem still_formFlit {s₀ s : State} (hk : Still s₀ s) (n body) :
    Still s₀ (formFlit s n body) := by
  refine hk.trans ?_
  clear hk
  unfold formFlit
  dsimp only
  repeat' first
    | with_reducible apply Still.refl
    | with_reducible apply still_layFlit
    | with_reducible apply still_setPort

theorem still_packFlits {s₀ s : State} (hk : Still s₀ s) (n a) :
    Still s₀ (packFlits s n a) := by
  refine hk.trans ?_
  clear hk
  induction a generalizing s n with
  | zero => unfold packFlits; exact Still.refl
  | succ kk ih =>
    have ihk : ∀ {s₀ s : State} (y1 : _), Still s₀ s → Still s₀ (packFlits s y1 kk) := by intros; exact Still.trans ‹_› (ih ..)
    clear ih
    unfold packFlits
    dsimp only
    repeat' first
      | with_reducible apply Still.refl
      | with_reducible apply ihk
      | with_reducible apply still_formFlit
      | with_reducible apply still_setPort
      | with_reducible apply Still.ite

theorem still_chargeStream {s₀ s : State} (hk : Still s₀ s) (st) :
    Still s₀ (chargeStream s st) := by
  refine hk.trans ?_
  clear hk
  unfold chargeStream
  repeat' first
    | with_reducible apply Still.refl
    | with_reducible apply still_bumpFld

theorem still_dischargeStream {s₀ s : State} (hk : Still s₀ s) (st) :
    Still s₀ (dischargeStream s st) := by
  refine hk.trans ?_
  clear hk
  unfold dischargeStream
  repeat' first
    | with_reducible apply Still.refl
    | with_reducible apply still_rsetFld

theorem still_frameOne {s₀ s : State} (hk : Still s₀ s) (n p vc i) :
    Still s₀ (frameOne s n p vc i) := by
  refine hk.trans ?_
  clear hk
  unfold frameOne
  dsimp only
  repeat' first
    | with_reducible apply Still.refl
    | with_reducible apply still_stampTime
    | with_reducible apply still_sendOut
    | with_reducible apply still_setPort
    | split

theorem still_pumpPort {s₀ s : State} (hk : Still s₀ s) (n k) : Still s₀ (pumpPort s n k) := by
  refine hk.trans ?_
  clear hk
  induction k generalizing s with
  | zero => exact Still.refl
  | succ k ih =>
    unfold pumpPort
    split
    · split
      · exact Still.refl
      · exact (still_frameOne Still.refl _ _ _ _).trans ih
    · exact Still.refl

theorem still_pump {s₀ s : State} (hk : Still s₀ s) (n) :
    Still s₀ (pump s n) := by
  refine hk.trans ?_
  clear hk
  unfold pump
  dsimp only
  repeat' first
    | with_reducible apply Still.refl
    | with_reducible apply still_pumpPort
    | with_reducible apply still_packFlits

theorem still_enqueue {s₀ s : State} (hk : Still s₀ s) (n e) :
    Still s₀ (enqueue s n e) := by
  refine hk.trans ?_
  clear hk
  unfold enqueue
  dsimp only
  repeat' first
    | with_reducible apply Still.refl
    | with_reducible apply still_pump
    | with_reducible apply still_setPort
    | simp only [Still.mk_iff]

theorem still_countUnrouted {s₀ s : State} (hk : Still s₀ s) (port dnode hops) :
    Still s₀ (countUnrouted s port dnode hops) := by
  refine hk.trans ?_
  clear hk
  unfold countUnrouted
  dsimp only
  repeat' first
    | with_reducible apply Still.refl
    | with_reducible apply still_emit
    | with_reducible apply still_bump
    | with_reducible apply Still.ite

theorem still_sendTxn {s₀ s : State} (hk : Still s₀ s) (t pin own) :
    Still s₀ (sendTxn s t pin own).1 := by
  refine hk.trans ?_
  clear hk
  unfold sendTxn
  dsimp only
  repeat' first
    | with_reducible apply Still.refl
    | with_reducible apply still_countUnrouted
    | with_reducible apply still_enqueue
    | split

theorem still_takeIdent {s₀ s : State} (hk : Still s₀ s) : Still s₀ (takeIdent s).2 := Still.mk1 hk

theorem still_takeKey {s₀ s : State} (hk : Still s₀ s) :
    Still s₀ (takeKey s).2 := by
  refine hk.trans ?_
  clear hk
  unfold takeKey
  dsimp only
  repeat' first
    | with_reducible apply Still.refl
    | simp only [Still.mk_iff]

theorem still_setOuts {s₀ s : State} (hk : Still s₀ s) (os) :
    Still s₀ (setOuts s os) := by
  refine hk.trans ?_
  clear hk
  unfold setOuts
  dsimp only
  repeat' first
    | with_reducible apply Still.refl
    | simp only [Still.mk_iff]

theorem still_setOut {s₀ s : State} (hk : Still s₀ s) (o) :
    Still s₀ (setOut s o) := by
  refine hk.trans ?_
  clear hk
  unfold setOut
  repeat' first
    | with_reducible apply Still.refl
    | with_reducible apply still_setOuts

theorem still_addOut {s₀ s : State} (hk : Still s₀ s) (o) :
    Still s₀ (addOut s o) := by
  refine hk.trans ?_
  clear hk
  unfold addOut
  repeat' first
    | with_reducible apply Still.refl
    | with_reducible apply still_setOuts

theorem still_dropOut {s₀ s : State} (hk : Still s₀ s) (key) :
    Still s₀ (dropOut s key) := by
  refine hk.trans ?_
  clear hk
  unfold dropOut
  repeat' first
    | with_reducible apply Still.refl
    | with_reducible apply still_setOuts

theorem still_retireOut {s₀ s : State} (hk : Still s₀ s) (key) :
    Still s₀ (retireOut s key) := by
  refine hk.trans ?_
  clear hk
  unfold retireOut
  dsimp only
  repeat' first
    | with_reducible apply Still.refl
    | with_reducible apply still_dropOut
    | with_reducible apply still_setOut
    | with_reducible apply still_dischargeStream
    | with_reducible apply Still.ite
    | split

theorem still_sendMulticast {s₀ s : State} (hk : Still s₀ s) (t rs ingress own) :
    Still s₀ (sendMulticast s t rs ingress own).1 := by
  refine hk.trans ?_
  clear hk
  unfold sendMulticast
  dsimp only
  repeat' first
    | with_reducible apply Still.refl
    | with_reducible apply still_countUnrouted
    | with_reducible apply still_enqueue
    | with_reducible apply Still.foldl
    | intro _

theorem still_releaseOut {s₀ s : State} (hk : Still s₀ s) (key) :
    Still s₀ (releaseOut s key).1 := by
  refine hk.trans ?_
  clear hk
  unfold releaseOut
  dsimp only
  repeat' first
    | with_reducible apply Still.refl
    | with_reducible apply still_sendMulticast
    | with_reducible apply still_retireOut
    | with_reducible apply still_setOut
    | with_reducible apply still_takeIdent
    | with_reducible apply still_sendTxn
    | with_reducible apply Still.iteFst
    | split

theorem still_ensureShards {s₀ s : State} (hk : Still s₀ s) (p r l cs) :
    Still s₀ (ensureShards s p r l cs).1 := by
  refine hk.trans ?_
  clear hk
  unfold ensureShards
  dsimp only
  repeat' first
    | with_reducible apply Still.refl
    | with_reducible apply still_recordUes
    | with_reducible apply Still.ite
    | with_reducible apply Still.iteFst
    | with_reducible apply Still.foldlFst
    | intro _

theorem still_trySend {s₀ s : State} (hk : Still s₀ s) (p e n) : Still s₀ (trySend s p e n).1 := by
  refine hk.trans ?_
  clear hk
  induction n generalizing s e with
  | zero => exact Still.refl
  | succ n ih =>
    unfold trySend
    dsimp only
    split
    · exact still_sendTxn Still.refl _ _ _
    · split
      · exact (still_sendTxn Still.refl _ _ _).trans (ih _)
      · exact (still_bump (still_sendTxn Still.refl _ _ _) _ _).trans (ih _)

theorem still_issueRead {s₀ s : State} (hk : Still s₀ s) (p r limit now e) :
    Still s₀ (issueRead s p r limit now e).1 := by
  refine hk.trans ?_
  clear hk
  unfold issueRead
  dsimp only
  repeat' first
    | with_reducible apply Still.refl
    | with_reducible apply still_trySend
    | split

theorem still_askLines {s₀ s : State} (hk : Still s₀ s) (r c limit now w table ks) :
    Still s₀ (askLines s r c limit now w table ks).1 := by
  refine hk.trans ?_
  clear hk
  unfold askLines
  dsimp only
  repeat' first
    | with_reducible apply Still.refl
    | with_reducible apply still_issueRead
    | with_reducible apply Still.iteFst
    | with_reducible apply Still.foldlFst
    | intro _

theorem still_lineCheck {s₀ s : State} (hk : Still s₀ s) (c la) :
    Still s₀ (lineCheck s c la).1 := by
  refine hk.trans ?_
  clear hk
  unfold lineCheck
  dsimp only
  repeat' first
    | with_reducible apply Still.refl
    | with_reducible apply still_countSbUe
    | with_reducible apply still_recordUes
    | with_reducible apply still_countCe
    | split

theorem still_noteRefused {s₀ s : State} (hk : Still s₀ s) (fid a) :
    Still s₀ (noteRefused s fid a) := by
  refine hk.trans ?_
  clear hk
  unfold noteRefused
  dsimp only
  repeat' first
    | with_reducible apply Still.refl
    | with_reducible apply still_setFlight
    | split

theorem still_lineNote {s₀ s : State} (hk : Still s₀ s) (c k la) :
    Still s₀ (lineNote s c k la) := by
  refine hk.trans ?_
  clear hk
  unfold lineNote
  repeat' first
    | with_reducible apply Still.refl
    | with_reducible apply still_noteRefused
    | with_reducible apply still_evUnmapped
    | split

theorem still_askElems {s₀ s : State} (hk : Still s₀ s) (r c w now cs) :
    Still s₀ (askElems s r c w now cs).1 := by
  refine hk.trans ?_
  clear hk
  unfold askElems
  dsimp only
  repeat' first
    | with_reducible apply Still.refl
    | with_reducible apply still_askLines
    | with_reducible apply still_ensureShards
    | with_reducible apply Still.iteFst
    | split

theorem still_readElems {s₀ s : State} (hk : Still s₀ s) (r c w cs) :
    Still s₀ (readElems s r c w cs).1 := by
  refine hk.trans ?_
  clear hk
  unfold readElems
  dsimp only
  repeat' first
    | with_reducible apply Still.refl
    | with_reducible apply still_lineNote
    | with_reducible apply still_lineCheck
    | with_reducible apply still_askLines
    | with_reducible apply still_ensureShards
    | with_reducible apply Still.iteFst
    | with_reducible apply Still.foldl
    | with_reducible apply Still.foldlFst
    | intro _
    | simp only [Still.mk_iff]
    | split

theorem still_addClamped {s₀ s : State} (hk : Still s₀ s) (fid n) :
    Still s₀ (addClamped s fid n) := by
  refine hk.trans ?_
  clear hk
  unfold addClamped
  dsimp only
  repeat' first
    | with_reducible apply Still.refl
    | with_reducible apply still_setFlight
    | split

theorem still_ensureIdx {s₀ s : State} (hk : Still s₀ s) (r c n ks) :
    Still s₀ (ensureIdx s r c n ks).1 := by
  refine hk.trans ?_
  clear hk
  unfold ensureIdx
  dsimp only
  repeat' first
    | with_reducible apply Still.refl
    | with_reducible apply still_addClamped
    | with_reducible apply still_readElems
    | with_reducible apply Still.iteFst
    | split

theorem still_ensureBags {s₀ s : State} (hk : Still s₀ s) (r c g) :
    Still s₀ (ensureBags s r c g).1 := by
  refine hk.trans ?_
  clear hk
  unfold ensureBags
  dsimp only
  repeat' first
    | with_reducible apply Still.refl
    | with_reducible apply still_addClamped
    | with_reducible apply still_readElems
    | with_reducible apply Still.iteFst
    | split

theorem still_writeJournal {s₀ s : State} (hk : Still s₀ s) (f r state) :
    Still s₀ (writeJournal s f r state) := by
  refine hk.trans ?_
  clear hk
  unfold writeJournal
  dsimp only
  repeat' first
    | with_reducible apply Still.refl
    | with_reducible apply still_trStore

theorem still_updCnt {s₀ s : State} (hk : Still s₀ s) (fid g) :
    Still s₀ (updCnt s fid g) := by
  refine hk.trans ?_
  clear hk
  unfold updCnt
  repeat' first
    | with_reducible apply Still.refl
    | with_reducible apply still_setFlight
    | split

theorem still_addDone {s₀ s : State} (hk : Still s₀ s) (fid j n) :
    Still s₀ (addDone s fid j n) := by
  refine hk.trans ?_
  clear hk
  unfold addDone
  dsimp only
  repeat' first
    | with_reducible apply Still.refl
    | with_reducible apply still_updCnt

theorem still_updRun {s₀ s : State} (hk : Still s₀ s) (p fid g) :
    Still s₀ (updRun s p fid g) := by
  refine hk.trans ?_
  clear hk
  unfold updRun
  dsimp only
  repeat' first
    | with_reducible apply Still.refl
    | with_reducible apply still_setPress

theorem still_releaseTable {s₀ s : State} (hk : Still s₀ s) (p) :
    Still s₀ (releaseTable s p) := by
  refine hk.trans ?_
  clear hk
  unfold releaseTable
  dsimp only
  repeat' first
    | with_reducible apply Still.refl
    | with_reducible apply still_setTable
    | with_reducible apply Still.ite

theorem still_requestTable {s₀ s : State} (hk : Still s₀ s) (p) :
    Still s₀ (requestTable s p) := by
  refine hk.trans ?_
  clear hk
  unfold requestTable
  dsimp only
  repeat' first
    | with_reducible apply Still.refl
    | with_reducible apply still_setTable
    | with_reducible apply Still.ite

theorem still_orphanWaits {s₀ s : State} (hk : Still s₀ s) (p fid) :
    Still s₀ (orphanWaits s p fid) := by
  refine hk.trans ?_
  clear hk
  unfold orphanWaits
  dsimp only
  repeat' first
    | with_reducible apply Still.refl
    | with_reducible apply still_setOuts
    | with_reducible apply still_setPress

theorem still_dropOpen {s₀ s : State} (hk : Still s₀ s) (fid) :
    Still s₀ (dropOpen s fid) := by
  refine hk.trans ?_
  clear hk
  unfold dropOpen
  dsimp only
  repeat' first
    | with_reducible apply Still.refl
    | with_reducible apply still_dropOut
    | with_reducible apply still_dischargeStream
    | with_reducible apply Still.ite
    | with_reducible apply Still.foldl
    | intro _

theorem still_dropHandBlocks {s₀ s : State} (hk : Still s₀ s) (st r) :
    Still s₀ (dropHandBlocks s st r) := by
  refine hk.trans ?_
  clear hk
  unfold dropHandBlocks
  repeat' first
    | with_reducible apply Still.refl
    | with_reducible apply still_dischargeStream
    | with_reducible apply Still.foldl
    | intro _

theorem still_corkFlight {s₀ s : State} (hk : Still s₀ s) (p r) :
    Still s₀ (corkFlight s p r) := by
  refine hk.trans ?_
  clear hk
  unfold corkFlight
  dsimp only
  repeat' first
    | with_reducible apply Still.refl
    | with_reducible apply still_dropHandBlocks
    | with_reducible apply still_dropOpen
    | with_reducible apply still_orphanWaits
    | with_reducible apply still_setFlight
    | with_reducible apply Still.ite
    | split

theorem still_cork {s₀ s : State} (hk : Still s₀ s) (p cause) :
    Still s₀ (cork s p cause) := by
  refine hk.trans ?_
  clear hk
  unfold cork
  dsimp only
  repeat' first
    | with_reducible apply Still.refl
    | with_reducible apply still_corkFlight
    | with_reducible apply still_releaseTable
    | with_reducible apply still_judgeReplace
    | with_reducible apply still_emitFault
    | with_reducible apply still_setPress
    | with_reducible apply still_rsetBit
    | with_reducible apply Still.ite
    | simp only [Still.mk_iff]
    | split

theorem still_chargePress {s₀ s : State} (hk : Still s₀ s) (p cause) :
    Still s₀ (chargePress s p cause) := by
  refine hk.trans ?_
  clear hk
  unfold chargePress
  dsimp only
  repeat' first
    | with_reducible apply Still.refl
    | with_reducible apply still_cork
    | with_reducible apply still_setPress
    | with_reducible apply still_bump
    | with_reducible apply Still.ite

theorem still_chargeTable {s₀ s : State} (hk : Still s₀ s) (k) :
    Still s₀ (chargeTable s k) := by
  refine hk.trans ?_
  clear hk
  unfold chargeTable
  dsimp only
  repeat' first
    | with_reducible apply Still.refl
    | with_reducible apply still_emitFault
    | with_reducible apply still_setTable
    | with_reducible apply still_bump
    | with_reducible apply Still.ite

theorem still_lotFailed {s₀ s : State} (hk : Still s₀ s) (p fid cause) :
    Still s₀ (lotFailed s p fid cause) := by
  refine hk.trans ?_
  clear hk
  unfold lotFailed
  dsimp only
  repeat' first
    | with_reducible apply Still.refl
    | with_reducible apply still_chargeTable
    | with_reducible apply still_chargePress
    | with_reducible apply still_updCnt
    | with_reducible apply still_bump
    | with_reducible apply Still.ite

theorem still_needRemote {s₀ s : State} (hk : Still s₀ s) (r c table as) :
    Still s₀ (needRemote s r c table as).1 := by
  refine hk.trans ?_
  clear hk
  unfold needRemote
  dsimp only
  repeat' first
    | with_reducible apply Still.refl
    | with_reducible apply still_askLines
    | with_reducible apply Still.iteFst
    | split

theorem still_encodeUnit {s₀ s : State} (hk : Still s₀ s) (r c t outs inWin) :
    Still s₀ (encodeUnit s r c t outs inWin).1 := by
  refine hk.trans ?_
  clear hk
  unfold encodeUnit
  dsimp only
  repeat' first
    | with_reducible apply Still.refl
    | with_reducible apply still_needRemote
    | with_reducible apply still_ensureShards
    | with_reducible apply Still.iteFst
    | simp only [Still.mk_iff]
    | split

theorem still_noteStops {s₀ s : State} (hk : Still s₀ s) (c as) :
    Still s₀ (noteStops s c as) := by
  refine hk.trans ?_
  clear hk
  unfold noteStops
  dsimp only
  repeat' first
    | with_reducible apply Still.refl
    | with_reducible apply still_noteRefused
    | with_reducible apply still_evUnmapped
    | with_reducible apply Still.foldl
    | intro _
    | split

theorem still_storeLocal {s₀ s : State} (hk : Still s₀ s) (r c hand ps z) :
    Still s₀ (storeLocal s r c hand ps z).1 := by
  refine hk.trans ?_
  clear hk
  unfold storeLocal
  dsimp only
  repeat' first
    | with_reducible apply Still.refl
    | with_reducible apply still_noteStops
    | with_reducible apply still_recordUeBlends
    | with_reducible apply still_correctMerges
    | with_reducible apply still_setMem
    | with_reducible apply storeBytes_keep

theorem still_blendLane {s₀ s : State} (hk : Still s₀ s) (g a code) :
    Still s₀ (blendLane s g a code).1 := by
  refine hk.trans ?_
  clear hk
  unfold blendLane
  dsimp only
  repeat' first
    | with_reducible apply Still.refl
    | with_reducible apply Still.iteFst
    | with_reducible apply still_setMem
    | with_reducible apply MemKeep.foldl
    | with_reducible apply memPutAll_keep
    | exact MemKeep.cells rfl
    | intro _

theorem still_blendLocal {s₀ s : State} (hk : Still s₀ s) (r c g cs z) :
    Still s₀ (blendLocal s r c g cs z).1 := by
  refine hk.trans ?_
  clear hk
  unfold blendLocal
  dsimp only
  repeat' first
    | with_reducible apply Still.refl
    | with_reducible apply still_blendLane
    | with_reducible apply still_noteStops
    | with_reducible apply still_recordUeBlends
    | with_reducible apply still_correctRows
    | with_reducible apply Still.foldlFst
    | with_reducible apply still_setMem
    | with_reducible apply sbWrite_keep
    | with_reducible apply MemKeep.foldl
    | with_reducible apply MemKeep.refl
    | intro _
    | simp only [Still.mk_iff]

theorem still_closeOut {s₀ s : State} (hk : Still s₀ s) (o) :
    Still s₀ (closeOut s o).1 := by
  refine hk.trans ?_
  clear hk
  unfold closeOut
  dsimp only
  repeat' first
    | with_reducible apply Still.refl
    | with_reducible apply Still.ite
    | simp only [Still.mk_iff]

theorem still_letGo {s₀ s : State} (hk : Still s₀ s) (key) :
    Still s₀ (letGo s key) := by
  refine hk.trans ?_
  clear hk
  unfold letGo
  dsimp only
  repeat' first
    | with_reducible apply Still.refl
    | with_reducible apply still_addDone
    | with_reducible apply still_updCnt
    | with_reducible apply still_releaseOut
    | with_reducible apply still_setOut
    | with_reducible apply Still.ite
    | split

theorem still_tryLetGo {s₀ s : State} (hk : Still s₀ s) (key) :
    Still s₀ (tryLetGo s key) := by
  refine hk.trans ?_
  clear hk
  unfold tryLetGo
  repeat' first
    | with_reducible apply Still.refl
    | with_reducible apply still_letGo
    | with_reducible apply still_dropOut
    | with_reducible apply Still.ite
    | split

theorem still_storeRun {s₀ s : State} (hk : Still s₀ s) (c n txn pool recv counts failed ps x) :
    Still s₀ (storeRun s c n txn pool recv counts failed ps x).1 := by
  refine hk.trans ?_
  clear hk
  unfold storeRun
  dsimp only
  repeat' first
    | with_reducible apply Still.refl
    | with_reducible apply still_tryLetGo
    | with_reducible apply still_closeOut
    | with_reducible apply still_addOut
    | with_reducible apply still_setOut
    | with_reducible apply still_takeKey
    | with_reducible apply Still.iteFst
    | simp only [Still.mk_iff]
    | split

theorem still_storeRuns {s₀ s : State} (hk : Still s₀ s) (c n txn pool recv counts failed xs ps z) :
    Still s₀ (storeRuns s c n txn pool recv counts failed xs ps z).1 := by
  refine hk.trans ?_
  clear hk
  unfold storeRuns
  dsimp only
  repeat' first
    | with_reducible apply Still.refl
    | with_reducible apply still_storeRun
    | with_reducible apply Still.foldlFst
    | intro _

theorem still_sendAtomics {s₀ s : State} (hk : Still s₀ s) (c n g table cs z) :
    Still s₀ (sendAtomics s c n g table cs z).1 := by
  refine hk.trans ?_
  clear hk
  unfold sendAtomics
  dsimp only
  repeat' first
    | with_reducible apply Still.refl
    | with_reducible apply still_addOut
    | with_reducible apply still_takeKey
    | with_reducible apply Still.foldlFst
    | intro _

theorem still_leaveOuts {s₀ s : State} (hk : Still s₀ s) (fid j n) :
    Still s₀ (leaveOuts s fid j n) := by
  refine hk.trans ?_
  clear hk
  unfold leaveOuts
  dsimp only
  repeat' first
    | with_reducible apply Still.refl
    | with_reducible apply still_tryLetGo
    | with_reducible apply still_closeOut
    | with_reducible apply still_setOut
    | with_reducible apply Still.iteFst
    | with_reducible apply Still.foldl
    | intro _

theorem still_takeBlocks {s₀ s : State} (hk : Still s₀ s) (st r a) :
    Still s₀ (takeBlocks s st r a).1 := by
  refine hk.trans ?_
  clear hk
  induction a generalizing s st r with
  | zero => unfold takeBlocks; exact Still.refl
  | succ kk ih =>
    have ihk : ∀ {s₀ s : State} (y1 : _) (y2 : _), Still s₀ s → Still s₀ (takeBlocks s y1 y2 kk).1 := by intros; exact Still.trans ‹_› (ih ..)
    clear ih
    unfold takeBlocks
    repeat' first
      | with_reducible apply Still.refl
      | with_reducible apply ihk
      | with_reducible apply still_chargeStream
      | with_reducible apply Still.iteFst

theorem still_returnBlocks {s₀ s : State} (hk : Still s₀ s) (st n) :
    Still s₀ (returnBlocks s st n) := by
  refine hk.trans ?_
  clear hk
  unfold returnBlocks
  repeat' first
    | with_reducible apply Still.refl
    | with_reducible apply still_dischargeStream
    | with_reducible apply Still.foldl
    | intro _

theorem still_unitNeeds {s₀ s : State} (hk : Still s₀ s) (p f r c n) :
    Still s₀ (unitNeeds s p f r c n).1 := by
  refine hk.trans ?_
  clear hk
  unfold unitNeeds
  dsimp only
  repeat' first
    | with_reducible apply Still.refl
    | with_reducible apply still_ensureBags
    | with_reducible apply still_ensureIdx
    | with_reducible apply Still.iteFst
    | split

theorem still_unitAnswer {s₀ s : State} (hk : Still s₀ s) (p f r j n) :
    Still s₀ (unitAnswer s p f r j n).1 := by
  refine hk.trans ?_
  clear hk
  unfold unitAnswer
  dsimp only
  repeat' first
    | with_reducible apply Still.refl
    | with_reducible apply still_unitNeeds
    | with_reducible apply Still.iteFst
    | split

theorem still_unitReady {s₀ s : State} (hk : Still s₀ s) (p f r j n) :
    Still s₀ (unitReady s p f r j n).1 := by
  refine hk.trans ?_
  clear hk
  unfold unitReady
  dsimp only
  repeat' first
    | with_reducible apply Still.refl
    | with_reducible apply still_unitAnswer
    | with_reducible apply Still.iteFst
    | with_reducible apply Still.foldlFst
    | intro _

theorem still_firstReady {s₀ s : State} (hk : Still s₀ s) (p f r j a) :
    Still s₀ (firstReady s p f r j a).1 := by
  refine hk.trans ?_
  clear hk
  induction a generalizing s p f r j with
  | nil => unfold firstReady; exact Still.refl
  | cons e kk ih =>
    have ihk : ∀ {s₀ s : State} (y1 : _) (y2 : _) (y3 : _) (y4 : _), Still s₀ s → Still s₀ (firstReady s y1 y2 y3 y4 kk).1 := by intros; exact Still.trans ‹_› (ih ..)
    clear ih
    unfold firstReady
    dsimp only
    repeat' first
      | with_reducible apply Still.refl
      | with_reducible apply ihk
      | with_reducible apply still_unitReady
      | with_reducible apply Still.iteFst

theorem still_stageReady {s₀ s : State} (hk : Still s₀ s) (p f r j) :
    Still s₀ (stageReady s p f r j).1 := by
  refine hk.trans ?_
  clear hk
  unfold stageReady
  repeat' first
    | with_reducible apply Still.refl
    | with_reducible apply still_firstReady
    | with_reducible apply Still.iteFst

theorem still_ensureWeights {s₀ s : State} (hk : Still s₀ s) (r c n ks) :
    Still s₀ (ensureWeights s r c n ks).1 := by
  refine hk.trans ?_
  clear hk
  unfold ensureWeights
  dsimp only
  repeat' first
    | with_reducible apply Still.refl
    | with_reducible apply still_readElems
    | with_reducible apply Still.iteFst
    | split

theorem still_ensureUnit {s₀ s : State} (hk : Still s₀ s) (r c n u) :
    Still s₀ (ensureUnit s r c n u).1 := by
  refine hk.trans ?_
  clear hk
  unfold ensureUnit
  dsimp only
  repeat' first
    | with_reducible apply Still.refl
    | with_reducible apply still_ensureWeights
    | with_reducible apply still_ensureBags
    | with_reducible apply still_ensureIdx
    | with_reducible apply Still.iteFst
    | split

theorem still_loadRowAt {s₀ s : State} (hk : Still s₀ s) (p r c u n i) :
    Still s₀ (loadRowAt s p r c u n i).1 := by
  refine hk.trans ?_
  clear hk
  unfold loadRowAt
  dsimp only
  repeat' first
    | with_reducible apply Still.refl
    | with_reducible apply still_readElems
    | with_reducible apply still_setPress
    | with_reducible apply still_bump
    | split

theorem still_loadAny {s₀ s : State} (hk : Still s₀ s) (p c u n a) :
    Still s₀ (loadAny s p c u n a).1 := by
  refine hk.trans ?_
  clear hk
  induction a generalizing s p c u n with
  | nil => unfold loadAny; exact Still.refl
  | cons e kk ih =>
    have ihk : ∀ {s₀ s : State} (y1 : _) (y2 : _) (y3 : _) (y4 : _), Still s₀ s → Still s₀ (loadAny s y1 y2 y3 y4 kk).1 := by intros; exact Still.trans ‹_› (ih ..)
    clear ih
    unfold loadAny
    dsimp only
    repeat' first
      | with_reducible apply Still.refl
      | with_reducible apply ihk
      | with_reducible apply still_loadRowAt
      | with_reducible apply Still.iteFst
      | split

theorem still_loadRow {s₀ s : State} (hk : Still s₀ s) (p r c u n) :
    Still s₀ (loadRow s p r c u n).1 := by
  refine hk.trans ?_
  clear hk
  unfold loadRow
  dsimp only
  repeat' first
    | with_reducible apply Still.refl
    | with_reducible apply still_loadAny
    | with_reducible apply still_ensureUnit
    | with_reducible apply still_setPress
    | split

theorem still_macStep {s₀ s : State} (hk : Still s₀ s) (p f r c u n) :
    Still s₀ (macStep s p f r c u n) := by
  refine hk.trans ?_
  clear hk
  unfold macStep
  dsimp only
  repeat' first
    | with_reducible apply Still.refl
    | with_reducible apply still_setPress
    | with_reducible apply Still.ite

theorem still_askBlocks {s₀ s : State} (hk : Still s₀ s) (r c t now bs) :
    Still s₀ (askBlocks s r c t now bs).1 := by
  refine hk.trans ?_
  clear hk
  unfold askBlocks
  dsimp only
  repeat' first
    | with_reducible apply Still.refl
    | with_reducible apply still_askElems
    | with_reducible apply Still.iteFst
    | with_reducible apply Still.foldlFst
    | intro _

theorem still_mayFeed {s₀ s : State} (hk : Still s₀ s) (r c t) :
    Still s₀ (mayFeed s r c t).1 := by
  refine hk.trans ?_
  clear hk
  unfold mayFeed
  dsimp only
  repeat' first
    | with_reducible apply Still.refl
    | with_reducible apply still_askBlocks
    | with_reducible apply Still.iteFst

theorem still_feedBlock {s₀ s : State} (hk : Still s₀ s) (p r c u) :
    Still s₀ (feedBlock s p r c u).1 := by
  refine hk.trans ?_
  clear hk
  unfold feedBlock
  dsimp only
  repeat' first
    | with_reducible apply Still.refl
    | with_reducible apply still_mayFeed
    | with_reducible apply still_addClamped
    | with_reducible apply still_readElems
    | with_reducible apply still_setTable
    | with_reducible apply still_bump
    | with_reducible apply Still.iteFst
    | simp only [Still.mk_iff]
    | split

theorem still_knowAhead {s₀ s : State} (hk : Still s₀ s) (r c w xs) (take : State → Run → State × Run × ROut)
    (ht : ∀ {s₀ s : State}, Still s₀ s → ∀ r, Still s₀ (take s r).1) : Still s₀ (knowAhead s r c w xs take).1 := by
  refine hk.trans ?_
  clear hk
  unfold knowAhead
  dsimp only
  split
  · exact Still.refl
  · split
    · exact ht (still_askElems Still.refl _ _ _ _ _) _
    · exact still_askElems Still.refl _ _ _ _ _

theorem still_knowUnit {s₀ s : State} (hk : Still s₀ s) (p f r c n) : Still s₀ (knowUnit s p f r c n).1 := by
  refine hk.trans ?_
  clear hk
  unfold knowUnit
  dsimp only
  have hb : ∀ xs g, Still s (knowAhead s r c { role := 4 } xs (fun s r => ensureBags s r c g)).1 := fun xs g =>
    still_knowAhead Still.refl _ _ _ _ _ (fun h _ => still_ensureBags h _ _ _)
  specialize hb ((bagNeed r c (n / poolSpan / max 1 (poolRuns c))).map (ofLogical c.offs.tensor.ext))
    (n / poolSpan / max 1 (poolRuns c))
  generalize knowAhead s r c { role := 4 } _ _ = b at hb ⊢
  split
  · generalize (if usesIdx c.op = true then _ else ([] : List Nat)) = ks
    rw [apply_ite Prod.fst]
    split
    · exact hb
    · exact still_knowAhead hb _ _ _ _ _ (fun h _ => still_ensureIdx h _ _ _ _)
  · exact hb

theorem still_askRows {s₀ s : State} (hk : Still s₀ s) (p f r c n i) :
    Still s₀ (askRows s p f r c n i).1 := by
  refine hk.trans ?_
  clear hk
  unfold askRows
  dsimp only
  repeat' first
    | with_reducible apply Still.refl
    | with_reducible apply still_askBlocks
    | with_reducible apply still_askElems
    | with_reducible apply Still.iteFst
    | with_reducible apply Still.foldlFst
    | intro _

theorem still_askUnits {s₀ s : State} (hk : Still s₀ s) (p f r c stop k n i) :
    Still s₀ (askUnits s p f r c stop k n i).1 := by
  refine hk.trans ?_
  clear hk
  induction k generalizing s r n i with
  | zero => exact Still.refl
  | succ k ih =>
    unfold askUnits
    split
    · exact Still.refl
    · dsimp only
      split
      · split
        · exact still_askRows (still_knowUnit Still.refl _ _ _ _ _) _ _ _ _ _ _
        · exact (still_askRows (still_knowUnit Still.refl _ _ _ _ _) _ _ _ _ _ _).trans (ih _ _ _)
      · exact still_knowUnit Still.refl _ _ _ _ _

theorem still_askOrder {s₀ s : State} (hk : Still s₀ s) (p f r c a) :
    Still s₀ (askOrder s p f r c a).1 := by
  refine hk.trans ?_
  clear hk
  induction a generalizing s p f r c with
  | zero => unfold askOrder; exact Still.refl
  | succ kk ih =>
    have ihk : ∀ {s₀ s : State} (y1 : _) (y2 : _) (y3 : _) (y4 : _), Still s₀ s → Still s₀ (askOrder s y1 y2 y3 y4 kk).1 := by intros; exact Still.trans ‹_› (ih ..)
    clear ih
    unfold askOrder
    dsimp only
    repeat' first
      | with_reducible apply Still.refl
      | with_reducible apply ihk
      | with_reducible apply still_askElems
      | with_reducible apply Still.iteFst
      | split

theorem still_readAhead {s₀ s : State} (hk : Still s₀ s) (p f r) :
    Still s₀ (readAhead s p f r).1 := by
  refine hk.trans ?_
  clear hk
  unfold readAhead
  dsimp only
  repeat' first
    | with_reducible apply Still.refl
    | with_reducible apply still_askOrder
    | with_reducible apply still_askUnits
    | with_reducible apply Still.iteFst
    | with_reducible apply Still.foldlFst
    | intro _

theorem still_putRun {s₀ s : State} (hk : Still s₀ s) (p r) :
    Still s₀ (putRun s p r) := by
  refine hk.trans ?_
  clear hk
  unfold putRun
  dsimp only
  repeat' first
    | with_reducible apply Still.refl
    | with_reducible apply still_setPress

theorem still_markFallen {s₀ s : State} (hk : Still s₀ s) (p fid j keys) :
    Still s₀ (markFallen s p fid j keys) := by
  refine hk.trans ?_
  clear hk
  unfold markFallen
  dsimp only
  repeat' first
    | with_reducible apply Still.refl
    | with_reducible apply still_updRun
    | with_reducible apply still_bumpFld
    | split

theorem still_loseUnit {s₀ s : State} (hk : Still s₀ s) (p f r c n) :
    Still s₀ (loseUnit s p f r c n) := by
  refine hk.trans ?_
  clear hk
  unfold loseUnit
  dsimp only
  repeat' first
    | with_reducible apply Still.refl
    | with_reducible apply still_markFallen
    | with_reducible apply still_updRun
    | with_reducible apply Still.ite
    | split

theorem still_loseOutputs {s₀ s : State} (hk : Still s₀ s) (p f c n ds) :
    Still s₀ (loseOutputs s p f c n ds) := by
  refine hk.trans ?_
  clear hk
  unfold loseOutputs
  dsimp only
  repeat' first
    | with_reducible apply Still.refl
    | with_reducible apply still_markFallen
    | with_reducible apply still_updRun
    | with_reducible apply Still.ite
    | split

theorem still_closeGroup {s₀ s : State} (hk : Still s₀ s) (p f r c n v) :
    Still s₀ (closeGroup s p f r c n v) := by
  refine hk.trans ?_
  clear hk
  unfold closeGroup
  dsimp only
  repeat' first
    | with_reducible apply Still.refl
    | with_reducible apply still_updRun
    | with_reducible apply still_setPress
    | with_reducible apply Still.ite

theorem still_advanceUnit {s₀ s : State} (hk : Still s₀ s) (p f c n) :
    Still s₀ (advanceUnit s p f c n) := by
  refine hk.trans ?_
  clear hk
  unfold advanceUnit
  dsimp only
  repeat' first
    | with_reducible apply Still.refl
    | with_reducible apply still_closeGroup
    | with_reducible apply still_returnBlocks
    | with_reducible apply still_updRun
    | with_reducible apply still_setPress
    | split

theorem still_stopDecant {s₀ s : State} (hk : Still s₀ s) (p f c n) :
    Still s₀ (stopDecant s p f c n) := by
  refine hk.trans ?_
  clear hk
  unfold stopDecant
  dsimp only
  repeat' first
    | with_reducible apply Still.refl
    | with_reducible apply still_updRun
    | with_reducible apply still_writeJournal
    | with_reducible apply Still.ite
    | split

theorem still_abandonUnit {s₀ s : State} (hk : Still s₀ s) (p f c n cause) :
    Still s₀ (abandonUnit s p f c n cause) := by
  refine hk.trans ?_
  clear hk
  unfold abandonUnit
  dsimp only
  repeat' first
    | with_reducible apply Still.refl
    | with_reducible apply still_stopDecant
    | with_reducible apply still_advanceUnit
    | with_reducible apply still_loseUnit
    | with_reducible apply still_leaveOuts
    | with_reducible apply still_lotFailed
    | with_reducible apply still_releaseTable
    | with_reducible apply still_updCnt
    | with_reducible apply still_bump
    | with_reducible apply Still.ite
    | split

theorem still_takeUnit {s₀ s : State} (hk : Still s₀ s) (p f r j n) :
    Still s₀ (takeUnit s p f r j n) := by
  refine hk.trans ?_
  clear hk
  unfold takeUnit
  dsimp only
  repeat' first
    | with_reducible apply Still.refl
    | with_reducible apply still_setPress

theorem still_pickStage {s₀ s : State} (hk : Still s₀ s) (p f a) :
    Still s₀ (pickStage s p f a) := by
  refine hk.trans ?_
  clear hk
  induction a generalizing s p f with
  | zero => unfold pickStage; exact Still.refl
  | succ kk ih =>
    have ihk : ∀ {s₀ s : State} (y1 : _) (y2 : _), Still s₀ s → Still s₀ (pickStage s y1 y2 kk) := by intros; exact Still.trans ‹_› (ih ..)
    clear ih
    unfold pickStage
    dsimp only
    repeat' first
      | with_reducible apply Still.refl
      | with_reducible apply ihk
      | with_reducible apply still_takeUnit
      | with_reducible apply still_abandonUnit
      | with_reducible apply still_putRun
      | with_reducible apply still_stageReady
      | with_reducible apply Still.ite
      | split

theorem still_pickUnit {s₀ s : State} (hk : Still s₀ s) (p a) :
    Still s₀ (pickUnit s p a) := by
  refine hk.trans ?_
  clear hk
  induction a generalizing s p with
  | zero => unfold pickUnit; exact Still.refl
  | succ kk ih =>
    have ihk : ∀ {s₀ s : State} (y1 : _), Still s₀ s → Still s₀ (pickUnit s y1 kk) := by intros; exact Still.trans ‹_› (ih ..)
    clear ih
    unfold pickUnit
    dsimp only
    repeat' first
      | with_reducible apply Still.refl
      | with_reducible apply ihk
      | with_reducible apply still_pickStage
      | with_reducible apply still_putRun
      | with_reducible apply Still.ite
      | split

theorem still_commitTiles {s₀ s : State} (hk : Still s₀ s) (p f a) :
    Still s₀ (commitTiles s p f a) := by
  refine hk.trans ?_
  clear hk
  induction a generalizing s p f with
  | zero => unfold commitTiles; exact Still.refl
  | succ kk ih =>
    have ihk : ∀ {s₀ s : State} (y1 : _) (y2 : _), Still s₀ s → Still s₀ (commitTiles s y1 y2 kk) := by intros; exact Still.trans ‹_› (ih ..)
    clear ih
    unfold commitTiles
    dsimp only
    repeat' first
      | with_reducible apply Still.refl
      | with_reducible apply ihk
      | with_reducible apply still_updRun
      | with_reducible apply still_writeJournal
      | with_reducible apply Still.ite
      | split

theorem still_commitFor {s₀ s : State} (hk : Still s₀ s) (p fid) :
    Still s₀ (commitFor s p fid) := by
  refine hk.trans ?_
  clear hk
  unfold commitFor
  repeat' first
    | with_reducible apply Still.refl
    | with_reducible apply still_commitTiles
    | with_reducible apply Still.ite
    | split

theorem still_completeFlight {s₀ s : State} (hk : Still s₀ s) (p fid) :
    Still s₀ (completeFlight s p fid) := by
  refine hk.trans ?_
  clear hk
  unfold completeFlight
  dsimp only
  repeat' first
    | with_reducible apply Still.refl
    | with_reducible apply still_setFlight
    | with_reducible apply still_setPress
    | with_reducible apply Still.ite
    | split

theorem still_finishRun {s₀ s : State} (hk : Still s₀ s) (p f r) :
    Still s₀ (finishRun s p f r) := by
  refine hk.trans ?_
  clear hk
  unfold finishRun
  dsimp only
  repeat' first
    | with_reducible apply Still.refl
    | with_reducible apply still_completeFlight
    | with_reducible apply still_dropHandBlocks
    | with_reducible apply still_releaseTable
    | with_reducible apply still_setPress
    | split

theorem still_conclude {s₀ s : State} (hk : Still s₀ s) (p) :
    Still s₀ (conclude s p) := by
  refine hk.trans ?_
  clear hk
  unfold conclude
  dsimp only
  repeat' first
    | with_reducible apply Still.refl
    | with_reducible apply still_finishRun
    | with_reducible apply still_completeFlight
    | with_reducible apply still_commitTiles
    | with_reducible apply still_pickUnit
    | with_reducible apply still_putRun
    | with_reducible apply Still.ite
    | split

theorem still_settle {s₀ s : State} (hk : Still s₀ s) (p) :
    Still s₀ (settle s p) := by
  refine hk.trans ?_
  clear hk
  unfold settle
  dsimp only
  repeat' first
    | with_reducible apply Still.refl
    | with_reducible apply still_conclude
    | with_reducible apply still_putRun
    | with_reducible apply still_readAhead
    | split

theorem still_storeHere {s₀ s : State} (hk : Still s₀ s) (r w t ps) :
    Still s₀ (storeHere s r w t ps).1 := by
  refine hk.trans ?_
  clear hk
  unfold storeHere
  dsimp only
  repeat' first
    | with_reducible apply Still.refl
    | with_reducible apply still_storeLocal
    | with_reducible apply still_emit
    | with_reducible apply Still.iteFst
    | split

theorem still_storeTarget {s₀ s : State} (hk : Still s₀ s) (r w t ps runs lost) :
    Still s₀ (storeTarget s r w t ps runs lost).1 := by
  refine hk.trans ?_
  clear hk
  unfold storeTarget
  dsimp only
  repeat' first
    | with_reducible apply Still.refl
    | with_reducible apply still_storeHere
    | with_reducible apply still_storeRuns
    | with_reducible apply still_storeLocal
    | with_reducible apply Still.iteFst

theorem still_recordPass {s₀ s : State} (hk : Still s₀ s) (p f c n blend z board) :
    Still s₀ (recordPass s p f c n blend z board) := by
  refine hk.trans ?_
  clear hk
  unfold recordPass
  dsimp only
  repeat' first
    | with_reducible apply Still.refl
    | with_reducible apply still_updRun
    | with_reducible apply still_addDone
    | with_reducible apply still_setPress
    | with_reducible apply still_rset

theorem still_turnBoards {s₀ s : State} (hk : Still s₀ s) (p c n u) :
    Still s₀ (turnBoards s p c n u) := by
  refine hk.trans ?_
  clear hk
  unfold turnBoards
  dsimp only
  repeat' first
    | with_reducible apply Still.refl
    | with_reducible apply still_setPress
    | with_reducible apply Still.ite

theorem still_handOver {s₀ s : State} (hk : Still s₀ s) (p f c n) :
    Still s₀ (handOver s p f c n) := by
  refine hk.trans ?_
  clear hk
  unfold handOver
  dsimp only
  repeat' first
    | with_reducible apply Still.refl
    | with_reducible apply still_setPress
    | with_reducible apply Still.ite
    | split

theorem still_sendDirect {s₀ s : State} (hk : Still s₀ s) (p f r c n) :
    Still s₀ (sendDirect s p f r c n).1 := by
  refine hk.trans ?_
  clear hk
  unfold sendDirect
  dsimp only
  repeat' first
    | with_reducible apply Still.refl
    | with_reducible apply still_recordPass
    | with_reducible apply still_advanceUnit
    | with_reducible apply still_storeRuns
    | with_reducible apply still_updRun
    | split

theorem still_macUnit {s₀ s : State} (hk : Still s₀ s) (p f r c u n) :
    Still s₀ (macUnit s p f r c u n).1 := by
  refine hk.trans ?_
  clear hk
  unfold macUnit
  repeat' first
    | with_reducible apply Still.refl
    | with_reducible apply still_abandonUnit
    | with_reducible apply still_advanceUnit
    | with_reducible apply still_macStep
    | with_reducible apply Still.iteFst

theorem still_encodeAll {s₀ s : State} (hk : Still s₀ s) (r c ts outs keys) :
    Still s₀ (encodeAll s r c ts outs keys).1 := by
  refine hk.trans ?_
  clear hk
  unfold encodeAll
  dsimp only
  repeat' first
    | with_reducible apply Still.refl
    | with_reducible apply still_encodeUnit
    | with_reducible apply Still.foldlFst
    | intro _
    | split

theorem still_storeElems {s₀ s : State} (hk : Still s₀ s) (p f r c u n) :
    Still s₀ (storeElems s p f r c u n).1 := by
  refine hk.trans ?_
  clear hk
  unfold storeElems
  dsimp only
  repeat' first
    | with_reducible apply Still.refl
    | with_reducible apply still_encodeAll
    | with_reducible apply still_handOver
    | with_reducible apply still_turnBoards
    | with_reducible apply still_recordPass
    | with_reducible apply still_storeTarget
    | with_reducible apply still_abandonUnit
    | with_reducible apply still_advanceUnit
    | with_reducible apply still_loseOutputs
    | with_reducible apply still_putRun
    | with_reducible apply still_takeBlocks
    | with_reducible apply still_sendAtomics
    | with_reducible apply still_blendLocal
    | with_reducible apply still_releaseTable
    | with_reducible apply still_writeJournal
    | with_reducible apply still_ensureIdx
    | with_reducible apply still_ensureShards
    | with_reducible apply Still.ite
    | with_reducible apply Still.iteFst
    | with_reducible apply Still.foldlFst
    | intro _
    | simp only [Still.mk_iff]
    | split

theorem still_storeUnit {s₀ s : State} (hk : Still s₀ s) (p) :
    Still s₀ (storeUnit s p).1 := by
  refine hk.trans ?_
  clear hk
  unfold storeUnit
  dsimp only
  repeat' first
    | with_reducible apply Still.refl
    | with_reducible apply still_storeElems
    | with_reducible apply still_macUnit
    | with_reducible apply still_sendDirect
    | with_reducible apply Still.iteFst
    | split

theorem still_holdTable {s₀ s : State} (hk : Still s₀ s) (p) :
    Still s₀ (holdTable s p).1 := by
  refine hk.trans ?_
  clear hk
  unfold holdTable
  repeat' first
    | with_reducible apply Still.refl
    | with_reducible apply still_requestTable
    | with_reducible apply Still.iteFst

theorem still_ensureAllBags {s₀ s : State} (hk : Still s₀ s) (r c) :
    Still s₀ (ensureAllBags s r c).1 := by
  refine hk.trans ?_
  clear hk
  unfold ensureAllBags
  repeat' first
    | with_reducible apply Still.refl
    | with_reducible apply still_ensureBags
    | with_reducible apply Still.foldlFst
    | intro _
    | split

theorem still_coalSort {s₀ s : State} (hk : Still s₀ s) (p f r c run) :
    Still s₀ (coalSort s p f r c run).1 := by
  refine hk.trans ?_
  clear hk
  unfold coalSort
  dsimp only
  repeat' first
    | with_reducible apply Still.refl
    | with_reducible apply still_ensureAllBags
    | with_reducible apply still_abandonUnit
    | with_reducible apply still_putRun
    | with_reducible apply still_releaseTable
    | with_reducible apply still_ensureIdx
    | simp only [Still.mk_iff]
    | split

theorem still_loadAtHand {s₀ s : State} (hk : Still s₀ s) (p r f) :
    Still s₀ (loadAtHand s p r f).1 := by
  refine hk.trans ?_
  clear hk
  unfold loadAtHand
  dsimp only
  repeat' first
    | with_reducible apply Still.refl
    | with_reducible apply still_loadRow
    | with_reducible apply Still.iteFst

theorem still_loadUnit {s₀ s : State} (hk : Still s₀ s) (p) :
    Still s₀ (loadUnit s p).1 := by
  refine hk.trans ?_
  clear hk
  unfold loadUnit
  dsimp only
  repeat' first
    | with_reducible apply Still.refl
    | with_reducible apply still_loadAtHand
    | with_reducible apply still_coalSort
    | with_reducible apply still_holdTable
    | with_reducible apply still_abandonUnit
    | with_reducible apply still_putRun
    | with_reducible apply still_feedBlock
    | with_reducible apply still_loadRow
    | with_reducible apply still_ensureBags
    | with_reducible apply Still.iteFst
    | split

theorem still_ensureDirect {s₀ s : State} (hk : Still s₀ s) (p f a) :
    Still s₀ (ensureDirect s p f a) := by
  refine hk.trans ?_
  clear hk
  induction a generalizing s p f with
  | zero => unfold ensureDirect; exact Still.refl
  | succ kk ih =>
    have ihk : ∀ {s₀ s : State} (y1 : _) (y2 : _), Still s₀ s → Still s₀ (ensureDirect s y1 y2 kk) := by intros; exact Still.trans ‹_› (ih ..)
    clear ih
    unfold ensureDirect
    dsimp only
    repeat' first
      | with_reducible apply Still.refl
      | with_reducible apply ihk
      | with_reducible apply still_putRun
      | with_reducible apply still_lotFailed
      | with_reducible apply still_ensureShards
      | with_reducible apply Still.ite
      | split

theorem still_startRun {s₀ s : State} (hk : Still s₀ s) (p) :
    Still s₀ (startRun s p) := by
  refine hk.trans ?_
  clear hk
  unfold startRun
  dsimp only
  repeat' first
    | with_reducible apply Still.refl
    | with_reducible apply still_ensureDirect
    | with_reducible apply still_settle
    | with_reducible apply still_setPress
    | with_reducible apply Still.ite
    | split

theorem still_sendRecall {s₀ s : State} (hk : Still s₀ s) (o node) :
    Still s₀ (sendRecall s o node) := by
  refine hk.trans ?_
  clear hk
  unfold sendRecall
  dsimp only
  repeat' first
    | with_reducible apply Still.refl
    | with_reducible apply still_sendTxn
    | with_reducible apply still_bump

theorem still_failTxn {s₀ s : State} (hk : Still s₀ s) (unit key) :
    Still s₀ (failTxn s unit key) := by
  refine hk.trans ?_
  clear hk
  unfold failTxn
  dsimp only
  repeat' first
    | with_reducible apply Still.refl
    | with_reducible apply still_sendRecall
    | with_reducible apply still_tryLetGo
    | with_reducible apply still_updCnt
    | with_reducible apply still_retireOut
    | with_reducible apply still_setOut
    | with_reducible apply still_dischargeStream
    | with_reducible apply Still.ite
    | with_reducible apply Still.foldl
    | intro _
    | split

theorem still_passTxn {s₀ s : State} (hk : Still s₀ s) (unit key) :
    Still s₀ (passTxn s unit key) := by
  refine hk.trans ?_
  clear hk
  unfold passTxn
  dsimp only
  repeat' first
    | with_reducible apply Still.refl
    | with_reducible apply still_tryLetGo
    | with_reducible apply still_retireOut
    | with_reducible apply still_setOut
    | with_reducible apply Still.ite
    | split

theorem still_judge {s₀ s : State} (hk : Still s₀ s) (p w fault) :
    Still s₀ (judge s p w fault) := by
  refine hk.trans ?_
  clear hk
  unfold judge
  dsimp only
  repeat' first
    | with_reducible apply Still.refl
    | with_reducible apply still_passTxn
    | with_reducible apply still_failTxn
    | with_reducible apply still_stopDecant
    | with_reducible apply still_loseUnit
    | with_reducible apply still_lotFailed
    | with_reducible apply still_updRun
    | with_reducible apply still_updCnt
    | with_reducible apply Still.foldl
    | with_reducible apply still_setMem
    | with_reducible apply sbWrite_keep
    | with_reducible apply sbPut_keep
    | with_reducible apply MemKeep.ite
    | with_reducible apply MemKeep.foldl
    | with_reducible apply MemKeep.refl
    | intro _
    | split

theorem still_judgeOldest {s₀ s : State} (hk : Still s₀ s) (p fault) :
    Still s₀ (judgeOldest s p fault) := by
  refine hk.trans ?_
  clear hk
  unfold judgeOldest
  dsimp only
  repeat' first
    | with_reducible apply Still.refl
    | with_reducible apply still_judge
    | with_reducible apply still_settle
    | with_reducible apply still_completeFlight
    | with_reducible apply still_commitFor
    | with_reducible apply still_setPress
    | split

theorem still_advance {s₀ s : State} (hk : Still s₀ s) (p a) :
    Still s₀ (advance s p a) := by
  refine hk.trans ?_
  clear hk
  induction a generalizing s p with
  | zero => unfold advance; exact Still.refl
  | succ kk ih =>
    have ihk : ∀ {s₀ s : State} (y1 : _), Still s₀ s → Still s₀ (advance s y1 kk) := by intros; exact Still.trans ‹_› (ih ..)
    clear ih
    unfold advance
    dsimp only
    repeat' first
      | with_reducible apply Still.refl
      | with_reducible apply ihk
      | with_reducible apply still_loadUnit
      | with_reducible apply still_storeUnit
      | with_reducible apply still_settle
      | with_reducible apply Still.ite

theorem still_runOp {s₀ s : State} (hk : Still s₀ s) (p op) :
    Still s₀ (runOp s p op) := by
  refine hk.trans ?_
  clear hk
  unfold runOp
  dsimp only
  repeat' first
    | with_reducible apply Still.refl
    | with_reducible apply still_advance
    | with_reducible apply still_startRun
    | with_reducible apply Still.ite
    | split

theorem still_stageFoots {s₀ s : State} (hk : Still s₀ s) (p r a) :
    Still s₀ (stageFoots s p r a).1 := by
  refine hk.trans ?_
  clear hk
  induction a generalizing s p r with
  | nil => unfold stageFoots; exact Still.refl
  | cons e kk ih =>
    have ihk : ∀ {s₀ s : State} (y1 : _) (y2 : _), Still s₀ s → Still s₀ (stageFoots s y1 y2 kk).1 := by intros; exact Still.trans ‹_› (ih ..)
    clear ih
    unfold stageFoots
    dsimp only
    repeat' first
      | with_reducible apply Still.refl
      | with_reducible apply ihk
      | with_reducible apply still_issueRead
      | with_reducible apply Still.iteFst
      | with_reducible apply Still.foldlFst
      | intro _

theorem still_turnAway {s₀ s : State} (hk : Still s₀ s) (p f) :
    Still s₀ (turnAway s p f) := by
  refine hk.trans ?_
  clear hk
  unfold turnAway
  dsimp only
  repeat' first
    | with_reducible apply Still.refl
    | with_reducible apply still_setFlight
    | with_reducible apply still_setPress

theorem still_accept {s₀ s : State} (hk : Still s₀ s) (p f) :
    Still s₀ (accept s p f) := by
  refine hk.trans ?_
  clear hk
  unfold accept
  dsimp only
  repeat' first
    | with_reducible apply Still.refl
    | with_reducible apply still_turnAway
    | with_reducible apply still_stageFoots
    | with_reducible apply still_markFallen
    | with_reducible apply still_updCnt
    | with_reducible apply still_setFlight
    | with_reducible apply still_setPress
    | with_reducible apply still_bump
    | with_reducible apply still_bumpFld
    | with_reducible apply Still.ite
    | with_reducible apply Still.foldl
    | intro _

theorem still_copyLines {s₀ s : State} (hk : Still s₀ s) (c base foots) :
    Still s₀ (copyLines s c base foots) := by
  refine hk.trans ?_
  clear hk
  unfold copyLines
  dsimp only
  repeat' first
    | with_reducible apply Still.refl
    | with_reducible apply still_noteStops
    | with_reducible apply still_noteRefused
    | exact MemKeep.trans (memPutAll_keep _ _) (MemKeep.cells rfl)
    | with_reducible apply Still.foldl
    | with_reducible apply still_setMem
    | with_reducible apply sbPut_keep
    | with_reducible apply MemKeep.foldl
    | with_reducible apply MemKeep.refl
    | intro _
    | split

theorem still_execRack (s : State) (p) :
    StillOut s (execRack p s) := by
  unfold execRack
  repeat' first
    | with_reducible apply Still.refl
    | with_reducible apply StillOut.next
    | with_reducible apply still_runOp

theorem still_execRiddle (s : State) (p) :
    StillOut s (execRiddle p s) := by
  unfold execRiddle
  repeat' first
    | with_reducible apply Still.refl
    | with_reducible apply StillOut.next
    | with_reducible apply still_runOp

theorem still_execPermute (s : State) (p) :
    StillOut s (execPermute p s) := by
  unfold execPermute
  repeat' first
    | with_reducible apply Still.refl
    | with_reducible apply StillOut.next
    | with_reducible apply still_runOp

theorem still_execFill (s : State) (p) :
    StillOut s (execFill p s) := by
  unfold execFill
  repeat' first
    | with_reducible apply Still.refl
    | with_reducible apply StillOut.next
    | with_reducible apply still_runOp

theorem still_execDecant (s : State) (p) :
    StillOut s (execDecant p s) := by
  unfold execDecant
  repeat' first
    | with_reducible apply Still.refl
    | with_reducible apply StillOut.next
    | with_reducible apply still_runOp

theorem still_execGather (s : State) (p) :
    StillOut s (execGather p s) := by
  unfold execGather
  repeat' first
    | with_reducible apply Still.refl
    | with_reducible apply StillOut.next
    | with_reducible apply still_runOp

theorem still_execScatter (s : State) (p) :
    StillOut s (execScatter p s) := by
  unfold execScatter
  repeat' first
    | with_reducible apply Still.refl
    | with_reducible apply StillOut.next
    | with_reducible apply still_runOp

theorem still_execScatterAdd (s : State) (p) :
    StillOut s (execScatterAdd p s) := by
  unfold execScatterAdd
  repeat' first
    | with_reducible apply Still.refl
    | with_reducible apply StillOut.next
    | with_reducible apply still_runOp

theorem still_execPool (s : State) (p) :
    StillOut s (execPool p s) := by
  unfold execPool
  repeat' first
    | with_reducible apply Still.refl
    | with_reducible apply StillOut.next
    | with_reducible apply still_runOp

theorem still_execInteract (s : State) (p) :
    StillOut s (execInteract p s) := by
  unfold execInteract
  repeat' first
    | with_reducible apply Still.refl
    | with_reducible apply StillOut.next
    | with_reducible apply still_runOp

theorem still_execSort (s : State) (p) :
    StillOut s (execSort p s) := by
  unfold execSort
  repeat' first
    | with_reducible apply Still.refl
    | with_reducible apply StillOut.next
    | with_reducible apply still_runOp

theorem still_execTopk (s : State) (p) :
    StillOut s (execTopk p s) := by
  unfold execTopk
  repeat' first
    | with_reducible apply Still.refl
    | with_reducible apply StillOut.next
    | with_reducible apply still_runOp

theorem still_execEgress (s : State) (p) :
    StillOut s (execEgress p s) := by
  unfold execEgress
  repeat' first
    | with_reducible apply Still.refl
    | with_reducible apply StillOut.next
    | with_reducible apply still_runOp

theorem still_execMulticast (s : State) (p) :
    StillOut s (execMulticast p s) := by
  unfold execMulticast
  repeat' first
    | with_reducible apply Still.refl
    | with_reducible apply StillOut.next
    | with_reducible apply still_runOp

theorem still_execBlend (s : State) (p) :
    StillOut s (execBlend p s) := by
  unfold execBlend
  repeat' first
    | with_reducible apply Still.refl
    | with_reducible apply StillOut.next
    | with_reducible apply still_runOp

theorem still_loadOnce {s₀ s : State} (hk : Still s₀ s) (p) :
    Still s₀ (loadOnce s p) := by
  refine hk.trans ?_
  clear hk
  unfold loadOnce
  dsimp only
  repeat' first
    | with_reducible apply Still.refl
    | with_reducible apply still_startRun
    | with_reducible apply still_loadUnit
    | with_reducible apply still_settle

theorem still_execLoadLineReturn (s : State) (p) :
    StillOut s (execLoadLineReturn p s) := by
  unfold execLoadLineReturn
  repeat' first
    | with_reducible apply Still.refl
    | with_reducible apply StillOut.next
    | with_reducible apply still_loadOnce

theorem still_boardError {s₀ s : State} (hk : Still s₀ s) (p) :
    Still s₀ (boardError s p) := by
  refine hk.trans ?_
  clear hk
  unfold boardError
  dsimp only
  repeat' first
    | with_reducible apply Still.refl
    | with_reducible apply still_storeUnit
    | with_reducible apply still_abandonUnit
    | with_reducible apply still_putRun
    | with_reducible apply still_setTable
    | with_reducible apply still_setPress
    | with_reducible apply still_bump
    | with_reducible apply Still.ite
    | split

theorem still_boardCorrected {s₀ s : State} (hk : Still s₀ s) (p n) :
    Still s₀ (boardCorrected s p n) := by
  refine hk.trans ?_
  clear hk
  unfold boardCorrected
  dsimp only
  repeat' first
    | with_reducible apply Still.refl
    | with_reducible apply still_storeUnit
    | with_reducible apply still_bump
    | with_reducible apply still_bumpFld
    | with_reducible apply Still.ite
    | split

theorem still_execPassStore (s : State) (p read) :
    StillOut s (execPassStore p read s) := by
  unfold execPassStore
  dsimp only
  repeat' first
    | with_reducible apply Still.refl
    | with_reducible apply StillOut.next
    | with_reducible apply still_boardCorrected
    | with_reducible apply still_boardError
    | with_reducible apply still_startRun
    | with_reducible apply still_storeUnit
    | with_reducible apply still_settle
    | split

theorem still_failInLoad {s₀ s : State} (hk : Still s₀ s) (p cause) :
    Still s₀ (failInLoad s p cause) := by
  refine hk.trans ?_
  clear hk
  unfold failInLoad
  dsimp only
  repeat' first
    | with_reducible apply Still.refl
    | with_reducible apply still_settle
    | with_reducible apply still_abandonUnit
    | with_reducible apply still_bump
    | with_reducible apply Still.ite
    | split

theorem still_execLotVerdict (s : State) (p fault) :
    StillOut s (execLotVerdict p fault s) := by
  unfold execLotVerdict
  repeat' first
    | with_reducible apply Still.refl
    | with_reducible apply StillOut.next
    | with_reducible apply still_failInLoad
    | with_reducible apply still_judgeOldest
    | with_reducible apply Still.ite
    | split

theorem still_putRead {s₀ s : State} (hk : Still s₀ s) (p e) :
    Still s₀ (putRead s p e) := by
  refine hk.trans ?_
  clear hk
  unfold putRead
  dsimp only
  repeat' first
    | with_reducible apply Still.refl
    | with_reducible apply still_setPress

theorem still_failRead {s₀ s : State} (hk : Still s₀ s) (p e again) :
    Still s₀ (failRead s p e again) := by
  refine hk.trans ?_
  clear hk
  unfold failRead
  dsimp only
  repeat' first
    | with_reducible apply Still.refl
    | with_reducible apply still_putRead
    | with_reducible apply still_trySend
    | with_reducible apply still_bump
    | with_reducible apply Still.ite

theorem still_execFabricReadTimeout (s : State) (p tag) :
    StillOut s (execFabricReadTimeout p tag s) := by
  unfold execFabricReadTimeout
  repeat' first
    | with_reducible apply Still.refl
    | with_reducible apply StillOut.next
    | with_reducible apply still_failRead
    | with_reducible apply still_settle
    | split

theorem still_noteLines {s₀ s : State} (hk : Still s₀ s) (fid a n) :
    Still s₀ (noteLines s fid a n) := by
  refine hk.trans ?_
  clear hk
  unfold noteLines
  repeat' first
    | with_reducible apply Still.refl
    | with_reducible apply still_noteRefused
    | with_reducible apply Still.foldl
    | intro _

theorem still_execStagingCopyDone (s : State) (p) :
    StillOut s (execStagingCopyDone p s) := by
  unfold execStagingCopyDone
  dsimp only
  repeat' first
    | with_reducible apply Still.refl
    | with_reducible apply StillOut.next
    | with_reducible apply still_copyLines
    | with_reducible apply still_settle
    | with_reducible apply still_putRun
    | with_reducible apply Still.ite
    | split

theorem still_execSortTableGrant (s : State) (terrace) :
    StillOut s (execSortTableGrant terrace s) := by
  unfold execSortTableGrant
  dsimp only
  repeat' first
    | with_reducible apply Still.refl
    | with_reducible apply StillOut.next
    | with_reducible apply still_setTable
    | split

theorem still_writeFrame {s₀ s : State} (hk : Still s₀ s) (p dom fid bs) :
    Still s₀ (writeFrame s p dom fid bs) := by
  refine hk.trans ?_
  clear hk
  unfold writeFrame
  repeat' first
    | with_reducible apply Still.refl
    | with_reducible apply still_noteLines
    | with_reducible apply still_storeUnchecked
    | with_reducible apply Still.ite
    | split

theorem still_execSaveFrameDone (s : State) (p) :
    StillOut s (execSaveFrameDone p s) := by
  unfold execSaveFrameDone
  dsimp only
  repeat' first
    | with_reducible apply Still.refl
    | with_reducible apply StillOut.next
    | with_reducible apply still_writeFrame
    | with_reducible apply still_accept
    | with_reducible apply still_setFlight
    | with_reducible apply still_setPress
    | split

theorem still_restoreWords {s₀ s : State} (hk : Still s₀ s) (p f r w) :
    Still s₀ (restoreWords s p f r w).1 := by
  refine hk.trans ?_
  clear hk
  unfold restoreWords
  dsimp only
  repeat' first
    | with_reducible apply Still.refl
    | with_reducible apply still_updCnt

theorem still_execResume (s : State) (p) :
    StillOut s (execResume p s) := by
  unfold execResume
  dsimp only
  repeat' first
    | with_reducible apply Still.refl
    | with_reducible apply StillOut.next
    | with_reducible apply still_restoreWords
    | with_reducible apply still_noteLines
    | with_reducible apply still_settle
    | with_reducible apply still_recordUes
    | with_reducible apply still_countCe
    | with_reducible apply still_setFlight
    | with_reducible apply still_setPress
    | with_reducible apply Still.ite
    | split

theorem still_failDispatch {s₀ s : State} (hk : Still s₀ s) (f) :
    Still s₀ (failDispatch s f) := by
  refine hk.trans ?_
  clear hk
  unfold failDispatch
  repeat' first
    | with_reducible apply Still.refl
    | with_reducible apply still_setFlight

theorem still_pullAny {s₀ s : State} (hk : Still s₀ s) (k) :
    Still s₀ (pullAny s k) := by
  refine hk.trans ?_
  clear hk
  unfold pullAny
  repeat' first
    | with_reducible apply Still.refl
    | with_reducible apply still_accept
    | split

theorem still_dispatchTerrace {s₀ s : State} (hk : Still s₀ s) (k) :
    Still s₀ (dispatchTerrace s k) := by
  refine hk.trans ?_
  clear hk
  unfold dispatchTerrace
  repeat' first
    | with_reducible apply Still.refl
    | with_reducible apply still_pullAny
    | with_reducible apply still_failDispatch
    | with_reducible apply still_accept
    | with_reducible apply Still.ite
    | split

theorem still_execDispatch (s : State) (terrace) :
    StillOut s (execDispatch terrace s) := by
  unfold execDispatch
  repeat' first
    | with_reducible apply Still.refl
    | with_reducible apply StillOut.next
    | with_reducible apply still_dispatchTerrace

theorem still_completeLatched {s₀ s : State} (hk : Still s₀ s) (f code) :
    Still s₀ (completeLatched s f code) := by
  refine hk.trans ?_
  clear hk
  unfold completeLatched
  repeat' first
    | with_reducible apply Still.refl
    | with_reducible apply still_setFlight

theorem still_execNop (s : State) (st) :
    StillOut s (execNop st s) := by
  unfold execNop
  repeat' first
    | with_reducible apply Still.refl
    | with_reducible apply StillOut.next
    | with_reducible apply still_completeLatched
    | split

theorem still_execOpReserved (s : State) (st) :
    StillOut s (execOpReserved st s) := by
  unfold execOpReserved
  repeat' first
    | with_reducible apply Still.refl
    | with_reducible apply StillOut.next
    | with_reducible apply still_completeLatched
    | split

theorem still_tryFence {s₀ s : State} (hk : Still s₀ s) (st) :
    Still s₀ (tryFence s st) := by
  refine hk.trans ?_
  clear hk
  unfold tryFence
  repeat' first
    | with_reducible apply Still.refl
    | with_reducible apply still_completeLatched
    | with_reducible apply Still.ite
    | split

theorem still_execFence (s : State) (st) :
    StillOut s (execFence st s) := by
  unfold execFence
  repeat' first
    | with_reducible apply Still.refl
    | with_reducible apply StillOut.next
    | with_reducible apply still_tryFence

theorem still_execFenceComplete (s : State) (st) :
    StillOut s (execFenceComplete st s) := by
  unfold execFenceComplete
  repeat' first
    | with_reducible apply Still.refl
    | with_reducible apply StillOut.next
    | with_reducible apply still_tryFence

end Sys2Proof.Machine
end

