-- ==== Sys2Proof/Laws/Tally.lean ====
section
/-!
SUPPORT. Laws/Tally.lean: what taking records from the tally's FIFO leaves of the tally.
-/
namespace Sys2Proof.Machine

/-- The parts of a tally that no record changes. -/
def Tally.still (t : Tally) : Tally :=
  { t with fifo := [], tapUe := 0, calls := [], candidates := [], bytes := [], lastTdone := 0 }

theorem countRecord_still (t : Tally) (r : TapRec) : (countRecord t r).still = t.still ∧ (countRecord t r).fifo = t.fifo := by
  unfold countRecord
  split
  · exact ⟨rfl, rfl⟩
  · split <;> exact ⟨rfl, rfl⟩

theorem takeRecords_still (k : Nat) : ∀ t : Tally, (takeRecords t k).still = t.still := by
  induction k with
  | zero => intro t; rfl
  | succ k ih =>
    intro t
    cases hf : t.fifo with
    | nil => simp only [takeRecords, hf]
    | cons r rest =>
      simp only [takeRecords, hf]
      rw [ih, (countRecord_still _ r).1]
      rfl

theorem takeRecords_fifo (k : Nat) : ∀ t : Tally, (takeRecords t k).fifo = t.fifo.drop k := by
  induction k with
  | zero => intro t; rfl
  | succ k ih =>
    intro t
    cases hf : t.fifo with
    | nil => simp only [takeRecords, hf, List.drop_nil]
    | cons r rest =>
      simp only [takeRecords, hf]
      rw [ih, (countRecord_still _ r).2, List.drop_succ_cons]

/-- A checkpoint leaves no record in the FIFO. -/
theorem drainFifo_fifo (t : Tally) : (drainFifo t).fifo = [] := by
  unfold drainFifo
  rw [takeRecords_fifo, List.drop_length]

theorem drainFifo_still (t : Tally) : (drainFifo t).still = t.still := takeRecords_still _ t

/-- What counting a record reads and writes. -/
def Tally.counted (t : Tally) : List TapRec × Nat × SMap Nat × SMap Nat × SMap Nat × BitVec 64 :=
  (t.fifo, t.tapUe, t.calls, t.candidates, t.bytes, t.lastTdone)

theorem countRecord_counted (t u : Tally) (r : TapRec) (h : t.counted = u.counted) :
    (countRecord t r).counted = (countRecord u r).counted := by
  simp only [Tally.counted, Prod.mk.injEq] at h
  obtain ⟨h1, h2, h3, h4, h5, h6⟩ := h
  unfold countRecord
  split
  · simp only [Tally.counted, h1, h2, h3, h4, h5, h6]
  · split <;> simp only [Tally.counted, h1, h2, h3, h4, h5, h6]

/-- Counting depends on nothing else. -/
theorem takeRecords_counted (k : Nat) : ∀ t u : Tally, t.counted = u.counted →
    (takeRecords t k).counted = (takeRecords u k).counted := by
  induction k with
  | zero => intro t u h; exact h
  | succ k ih =>
    intro t u h
    have h0 := h
    simp only [Tally.counted, Prod.mk.injEq] at h0
    cases hf : t.fifo with
    | nil => simpa only [takeRecords, hf, h0.1 ▸ hf] using h
    | cons r rest =>
      simp only [takeRecords, hf, h0.1 ▸ hf]
      refine ih _ _ (countRecord_counted _ _ r ?_)
      simp only [Tally.counted, h0.2.1, h0.2.2.1, h0.2.2.2.1, h0.2.2.2.2.1, h0.2.2.2.2.2]

/-- With no record in the FIFO, nothing is counted. -/
theorem takeRecords_nil (t : Tally) (h : t.fifo = []) (k : Nat) : takeRecords t k = t := by
  cases k with
  | zero => rfl
  | succ k => simp only [takeRecords, h]

end Sys2Proof.Machine
end

