-- ==== Sys2Proof/Tests/Slice0.lean ====
section
/-!
SUPPORT. Tests/Slice0.lean: small tests on one step each, and for every statement that has hypotheses a witness: a concrete state and
operands that meet all of them. Three clauses rest on a free function of Config and have none: an image that passes its signature
(log 9, two clauses) and a descriptor set of tastings.
-/
namespace Sys2Proof.Tests
set_option Elab.async false
open Sys2Proof Sys2Proof.Machine Sys2Proof.Claims

/-! ### Small states -/

/-- A block after boot with some registers set. -/
def upState (vals : SMap Word) : State := { State.reset with boot := { power := .up }, regs := { vals := vals } }
/-- A port that runs on one wavelength, with credits on every channel. -/
def linkPort : Port := { trained := true, up := 1, credits := [400, 400, 400, 400] }
/-- A block whose port 0 is usable; every route leads there. -/
def linkState (vals : SMap Word) : State := { upState vals with fab := { ports := [(0, linkPort)] } }
/-- A block whose door module 0 is trained and holds credits. -/
def doorState (vals : SMap Word) : State :=
  { upState vals with door := { mods := [(0, { trained := true, hdrCredits := 4, beatCredits := 8 })] } }
/-- A block on whose press 0 a descriptor of one stage is at work. -/
def pressState (x : Press) (f : Flight) : State := { upState [(0x0014, 4#32), (0x2000, 1#32)] with presses := [(0, x)], flights := [f] }

/-- What a command leaves has a property. -/
def after (r : Res) (f : State → Bool) : Bool :=
  match r with
  | .next t => f t
  | _ => false

/-! ### Well-formed commands: for each check one that it refuses -/

def line (n : Nat) : List Byte := List.replicate (64 * n) 0#8
theorem test_wf_register : Instr.wf (.registerWrite .agent 0x1008 0 0xF) = true ∧ Instr.wf (.registerWrite .agent 0x1009 0 0xF) = false ∧
    Instr.wf (.loRead .agent 0x1020) = true ∧ Instr.wf (.loRead .agent 0x1022) = false := by decide
theorem test_wf_flit : Instr.wf (.flit 0 (.flit (line 4))) = true ∧ Instr.wf (.flit 0 (.flit (line 3))) = false ∧
    Instr.wf (.flit 0 (.codeword 0 (List.replicate 544 0))) = true ∧ Instr.wf (.flit 0 (.codeword 0 [])) = false := by decide +kernel
theorem test_wf_read : Instr.wf (.fabRead 0 {}) = true ∧ Instr.wf (.fabRead 0 { data := line 1 }) = false ∧
    Instr.wf (.fabRead 0 { typ := 1 }) = false := by decide
theorem test_wf_write : Instr.wf (.fabWrite 0 { typ := 1, data := line 1 }) = true ∧ Instr.wf (.fabWrite 0 { typ := 1 }) = false ∧
    Instr.wf (.fabWrite 0 { typ := 1, partialW := true, data := line 1 }) = false ∧
    Instr.wf (.fabWrite 0 { typ := 1, partialW := true, data := line 1, bmasks := [1] }) = true := by decide
theorem test_wf_add : Instr.wf (.atomicAdd 0 { typ := 2, code := 0x12, mask := 0xFF, data := line 1 }) = true ∧
    Instr.wf (.atomicAdd 0 { typ := 2, code := 0x12, mask := 0x1FF, data := line 1 }) = false := by decide +kernel
theorem test_wf_others : Instr.wf (.multicastWrite 0 { typ := 3, data := line 1 }) = true ∧ Instr.wf (.multicastWrite 0 { typ := 3 }) = false ∧
    Instr.wf (.recallTxn 0 { typ := 4 }) = true ∧ Instr.wf (.recallTxn 0 {}) = false ∧ Instr.wf (.gap 0 { typ := 4 }) = false ∧
    Instr.wf (.mgmt 0 { typ := 7 }) = false ∧ Instr.wf (.event 0 { typ := 7, data := line 1 }) = true ∧ Instr.wf (.event 0 {}) = false ∧
    Instr.wf (.readRsp 0 { typ := 8 }) = false ∧ Instr.wf (.ack 0 { typ := 9 }) = true ∧ Instr.wf (.ack 0 { typ := 9, data := line 1 }) = false ∧
    Instr.wf (.fabReservedType 0 { typ := 10 }) = true ∧ Instr.wf (.fabReservedType 0 { typ := 9 }) = false := by decide
theorem test_wf_door : Instr.wf (.mwr 0 0 0 0 true false (line 1) []) = false ∧ Instr.wf (.mwr 0 0 0 0 true false (line 1) [1]) = true ∧
    Instr.wf (.xcpl 0 0 0 1 (line 1)) = false ∧ Instr.wf (.doorReservedType 0 0x01 0) = false ∧ Instr.wf (.doorReservedType 0 0x08 0) = true ∧
    Instr.wf (.moduleTrained 0 0 0) = false ∧ Instr.wf (.moduleTrained 0 6 0) = true ∧ Instr.wf (.moduleTrained 0 7 0) = false ∧
    Instr.wf (.portTrain 0 0 { up := 0 }) = false := by decide
theorem test_wf_agent : Instr.wf (.badReq 0 0x10) = false ∧ Instr.wf (.badReq 0 0x15) = true ∧ Instr.wf (.forward 0 0 0 (.other 0x13)) = false ∧
    Instr.wf (.forward 0 0 0 (.other 0x14)) = true := by decide
/-- The table gives no row bits: no word spells a command. -/
theorem test_decode : ∀ n w : Nat, decodeTableWord n w = none := fun _ _ => rfl

/-! ### The queue, reset and the invariants -/

theorem witness_EmptyQueueIsOneClock : State.reset.pending = [] ∧ alive { State.reset with boot := { power := .coldHeld } } = false := by
  decide
theorem witness_QueueIsFirstInFirstOut :
    (exec .thermTrip State.reset = .next { State.reset with thermTrip := true }) ∧
      step { State.reset with pending := [.thermTrip] } = .next { State.reset with thermTrip := true } := ⟨rfl, rfl⟩
theorem witness_StepKeepsMemoryCanonical : Memory.wf { cells := [⟨5, 1#8⟩] } = true ∧ Memory.wf State.reset.mem = true := by decide
theorem witness_StepKeepsTestLogicReset :
    State.reset.jtag.inReset = true ∧ State.reset.jtag.ir = .idcode ∧ tapCommand .thermTrip = false ∧
      exec .thermTrip State.reset = .next { State.reset with thermTrip := true } := ⟨rfl, rfl, rfl, rfl⟩
theorem witness_ThermTripStaysLow :
    step { State.reset with thermTrip := true, pending := [.highz] } =
      .next { State.reset with thermTrip := true, jtag := { State.reset.jtag with ir := .highz, inReset := false } } := rfl

/-! ### The management port -/

theorem witness_I3cCommands : alive State.reset = true ∧ State.reset.mgmt.da = none ∧
    ({ State.reset with mgmt := { da := some 0x7F } } : State).mgmt.da = some 0x7F := by decide
theorem test_setmwl : after (exec (.setmwl 68) State.reset) (fun t => t.mgmt.mwl == 68) = true ∧
    after (exec (.setmwl 70) State.reset) (fun t => t.mgmt.mwl == 69) = true := by decide +kernel
theorem witness_I3cQueriesAnswer : alive State.reset = true := by decide
theorem witness_MctpControlAnswers : alive State.reset = true ∧ (0x01#8 ≠ 0x00#8 ∧ 0x01#8 ≠ 0xFF#8) ∧ (0xFE#8 ≠ 0x00#8 ∧ 0xFE#8 ≠ 0xFF#8) := by
  decide
/-- An event of class B, and one of class A. -/
def eventB : Event := { code := 0x04 }
def eventA : Event := { code := 0x11 }
theorem witness_BookWriteAppends : classA eventB.code = false ∧ classA eventA.code = true ∧ rbit State.reset 0xF004 31 = false ∧
    rbit State.reset 0xF014 31 = false ∧ ({ State.reset with book := { queue := [eventB] } } : State).book.queue = eventB :: [] ∧
    ({ State.reset with book := { send := List.replicate 63 { origin := 0, item := { seq := 0, ev := eventA } } } } : State).book.send.length < 64 := by
  decide +kernel
theorem test_bookWrite_head_wraps :
    after (exec .bookWrite { State.reset with book := { queue := [eventB], head := 0xFFFFFFFF } })
      (fun t => t.book.head == 0 && t.book.queue == [] && t.book.recs.map (·.1) == [8191]) = true := by decide +kernel
def sendEvent : SendEv := { origin := 0, item := { seq := 5, ev := eventA } }
theorem witness_EventQueueDelivers : ({ State.reset with book := { send := [sendEvent] } } : State).mgmt.ibi = true ∧
    sendEvent.delivered = false ∧ sendEvent.again = false := by decide
theorem test_eventAck_keeps_later :
    after (exec (.eventAck 4) { State.reset with book := { send := [sendEvent] } }) (fun t => t.book.send == [sendEvent]) = true ∧
      after (exec (.eventAck 5) { State.reset with book := { send := [sendEvent] } }) (fun t => t.book.send == []) = true := by decide +kernel
def bookState : State := { upState [(0x2000, 1#32)] with book := { recs := [(3, { seq := 3, ev := eventB })] } }
theorem witness_BookReadAndBusy : alive State.reset = true ∧ ready State.reset = false ∧
    bookState.book.recs.find? (fun e => e.2.seq == 3) = some (3, { seq := 3, ev := eventB }) ∧
    bookState.book.recs.find? (fun e => e.2.seq == 4) = none := by decide +kernel
theorem witness_AgentReadsAndWrites : alive bookState = true ∧ ready bookState = true ∧ bookState.regs.shadows = [] ∧
    isLo ((0xFFFFFFFF#32).toNat % 0x100000 / 4 * 4) = false ∧ isLo ((0x1023#32).toNat % 0x100000 / 4 * 4) = true := by decide +kernel
theorem witness_ForwardLocalAndTimeout : alive bookState = true ∧ ready bookState = true ∧ (0#16).toNat = nodeId bookState ∧
    ({ State.reset with mgmt := { forwards := [{ tag := 1, dnode := 2, innerTag := 3, code := 0x10 }] } } : State).mgmt.forwards =
      { tag := 1, dnode := 2, innerTag := 3, code := 0x10 } :: [] := by decide +kernel
theorem witness_OnlyTheTallyChangesTheTally : tallyCommand .thermTrip = false ∧
    exec .thermTrip State.reset = .next { State.reset with thermTrip := true } ∧
    (∀ c, State.reset.pending.head? = some c → tallyCommand c = false) ∧ step State.reset = .next (clockTick State.reset) := by
  refine ⟨rfl, rfl, ?_, rfl⟩
  intro c h
  cases h

/-! ### Reset, power and boot -/

def faultState (low : Bool) : State := { State.reset with boot := { power := .faultHeld, porstLow := low } }
theorem witness_ColdResets : State.reset.boot.power ≠ .faultHeld ∧ (faultState true).boot.power = .faultHeld ∧
    (faultState true).boot.porstLow = true ∧ (faultState false).boot.porstLow = false := by decide
theorem test_coldReset_straps :
    after (exec (.coldReset { boot := 3, slot := 7, node := 15, door := 15, heritage := true, warm := true }) State.reset)
      (fun t => strapBoot t == 3 && rfld t 0x1008 5 3 == 7 && nodeId t == 15 && heritage t) = true := by decide +kernel
theorem witness_WarmResetKeeps : alive (upState []) = true ∧ alive State.reset = true := by decide
theorem witness_CellarReadyEndsBoot : State.reset.boot.power = .march ∧ State.reset.boot.warm = false ∧ State.reset.time = {} ∧
    State.reset.door = {} ∧ State.reset.coop = {} ∧ State.reset.fab = {} ∧ State.reset.vint.built = false ∧
    State.reset.regs.staged = [] ∧ State.reset.regs.stagedMask = [] ∧ loaded State.reset = false ∧ strapBoot State.reset ≠ 2 ∧
    timeRole State.reset = 0 ∧ timeRole { State.reset with regs := { vals := [(0x1008, 1#32)] } } ≠ 0 := by decide +kernel
def waitState (strap : Word) : State := upState [(0x0010, strap), (0x2000, 1#32)]
theorem witness_ImageLoadOutcomes : loaderWaits (waitState 0) = true ∧ strapBoot (waitState 1) < 2 ∧
    residentOk (checkResident (waitState 1)) = false ∧ headerCode [] 0x800000 ≠ 0 ∧ (waitState 1).door = {} := by decide +kernel
theorem witness_BootFailsDormant : loaderWaits (waitState 3) = true ∧ (waitState 3).door = {} ∧ rbit (waitState 3) 0x001C 0 = false ∧
    loaderWaits (waitState 1) = true ∧ strapBoot (waitState 1) < 2 ∧ residentOk (waitState 1) = false := by decide +kernel
theorem witness_BootGoReadsTheImage : loaderWaits (waitState 2) = true ∧ strapBoot (waitState 2) = 2 ∧
    reaches (waitState 2) .agent = true ∧ (waitState 2).mem.ueWords = [] := by decide +kernel
theorem test_image_no_magic : headerCode (List.replicate 8192 0#8) 0x2000000 ≠ 0 := by decide +kernel

/-! ### The bonded tally -/

/-- A descriptor that has finished, and a tally in service. -/
def doneFlight (op : Nat) : Flight := { id := 1, phase := .finished, stages := [{ op := op }], words := [BitVec.ofNat 32 (65536 * op)] }
def tallyState (n : Nat) : State :=
  { upState [] with
    flights := [doneFlight 0x19]
    tally := { inService := true, tapOpen := true, bufA := [0#8], fifo := List.replicate n { domain := 0, tdone := 0, uncorrectable := false, bills := none } } }
theorem witness_TapRecordAccepted : cardNext (tallyState 63) 0 = some (doneFlight 0x19) ∧ (tallyState 63).tally.fifo.length < 64 ∧
    (doneFlight 0x19).tapped = false ∧ 64 ≤ (tallyState 64).tally.fifo.length ∧ cardNext (tallyState 0) 1 = none ∧
    State.reset.tally.tapOpen = false ∧ State.reset.tally.inService = false := by decide +kernel
theorem witness_TapRecordBills : ({ fifo := [tapRec (doneFlight 0x19) true] } : Tally).fifo = [tapRec (doneFlight 0x19) true] ∧
    lotFailOf (doneFlight 0x19) = false ∧ statusOf (doneFlight 0x19) ∈ [0x00, 0x01, 0x02, 0x03, 0x0B] ∧
    (doneFlight 0x19).stages = [{ op := 0x19 }] ∧ (doneFlight 0x19).cnt.stageDone.length ≤ 1 ∧
    lotFailOf { doneFlight 0x20 with cnt := { lotFail := true } } = true := by decide +kernel
theorem test_drain_topk : smGet (drainFifo { fifo := [tapRec { doneFlight 0x19 with stream := 7, cnt := { done := 5 } } false] }).candidates 1 0 = 5 ∧
    (drainFifo { tapUe := 0xFFFFFFFF, fifo := [tapRec (doneFlight 0x19) true] }).tapUe = 0xFFFFFFFF := by decide +kernel
theorem witness_StatementsAndCheckpoints : (tallyState 0).tally.inService = true ∧ (tallyState 0).tally.bufA ≠ [] ∧
    (tallyState 0).tally.tapOpen = true := by decide
theorem witness_TallyRestores : State.reset.tally.inService = false ∧ bestSlot State.reset.tally.flash = none := by decide
theorem witness_TallyWindowAndHoldup : (tallyState 0).tally.inService = true ∧ State.reset.tally.inService = false ∧
    cardReady { State.reset with flights := [doneFlight 0x19] } 0 = some (doneFlight 0x19) ∧ (doneFlight 0x19).tapped = false ∧
    State.reset.book.queue = [] := by decide +kernel

/-! ### Register accesses -/

theorem witness_RegisterWriteByAccessCode : reaches (upState []) .agent = true ∧ (0x01D8#20).toNat % 4 = 0 ∧ (0x01D8#20).toNat < 0x10000 ∧
    (regRow 0x01D8).isSome = true ∧ (regRow 0x1008).isSome = true ∧ (regRow 0x1004).isSome = true ∧
    (0x01D8#20).toNat ∉ [0x0030, 0x0034, 0x0038, 0x01D4, 0x1020, 0x1024, 0xE000] ∧ ∀ r : RegRow, 0#32 &&& r.rsv = 0 := by
  refine ⟨?_, ?_, ?_, ?_, ?_, ?_, ?_, fun r => ?_⟩
  case refine_8 => simp
  all_goals decide +kernel
theorem test_write_clears_count :
    after (exec (.registerWrite .agent 0x01D8 0xFF000000 0xF) (upState [(0x01D8, 0x05000000#32)])) (fun t => rfld t 0x01D8 24 8 == 0) = true ∧
      after (exec (.registerWrite .agent 0x01D8 0xFE000000 0xF) (upState [(0x01D8, 0x05000000#32)])) (fun t => rfld t 0x01D8 24 8 == 5) = true := by
  decide +kernel
/-- A write that covers part of its word is discarded (R460). -/
theorem witness_RegisterWriteDiscarded : alive (upState []) = true ∧ 0x7#4 ≠ 0xF#4 ∧ (upState []).book.queue = [] ∧
    reaches (upState []) .cooper = true ∧ (0x0FFFC#20).toNat < 0x10000 ∧ regRow ((0x0FFFC#20).toNat / 4 * 4) = none ∧
    0x20000 ≤ (0x20000#20).toNat := by
  refine ⟨?_, ?_, ?_, ?_, ?_, ?_, ?_⟩
  case refine_6 => rfl
  all_goals decide +kernel
theorem witness_LoReadLatchesHi : reaches (upState []) .agent = true ∧ (0x1020#20).toNat % 4 = 0 ∧ isLo (0x1020#20).toNat = true ∧
    (upState []).regs.shadows = [] ∧ (∃ t, exec (.loRead .agent 0x1020) (upState []) = .next t) := by
  refine ⟨by decide +kernel, by decide, by decide, rfl, ⟨_, rfl⟩⟩

/-! ### Vintages -/

def vintState (n : Nat) (slots : List VSlot) : State :=
  { upState [(0x01D0, 0x00080000#32)] with
    vint := { built := true, queue := List.replicate n 0, handles := [(1, { slots := slots, cv := true, cur := 1 })] } }
theorem witness_VintageCommandsQueue : reaches (upState []) .agent = true ∧ (vintState 15 []).vint.queue.length < 16 ∧
    16 ≤ (vintState 16 []).vint.queue.length ∧
    (4, Instr.vcRetire .agent 0xFFF 3) ∈ [(1, Instr.vcOpen .agent 0xFFF 3), (2, .vcFlip .agent 0xFFF 3), (3, .vcDiscard .agent 0xFFF 3), (4, .vcRetire .agent 0xFFF 3)] := by
  decide +kernel
def fourSlots (v : VState) : List VSlot := [{}, { st := .current }, {}, { st := v }]
theorem witness_VintageCommandsApply : 1 ≤ vtabCount (vintState 0 (fourSlots .empty)) ∧ vtabCount (vintState 0 []) < vcmdHandle 2#32 ∧
    (∀ v ∈ [VState.empty, .filling, .current, .draining], (getHandle (vintState 0 (fourSlots v)) 1).slots.length = 4 ∧
      (getSlot (getHandle (vintState 0 (fourSlots v)) 1) 3).st = v ∧ writerPinned (vintState 0 (fourSlots v)) 1 3 = false) ∧
    (getHandle (vintState 0 (fourSlots .filling)) 1).cv = true ∧ (getHandle (vintState 0 (fourSlots .filling)) 1).cur = 1 ∧
    vcmdOp 0x1C000001#32 = 1 ∧ vcmdOp 0x2C000001#32 = 2 ∧ vcmdOp 0x3C000001#32 = 3 ∧ vcmdOp 0x4C000001#32 = 4 ∧
    vcmdHandle 0x4C000001#32 = 1 ∧ vcmdSlot 0x4C000001#32 = 3 := by decide +kernel
/-- A writer that holds a pin makes a FLIP wait (R304). -/
theorem witness_writer_pinned :
    writerPinned { vintState 0 (fourSlots .filling) with flights := [{ id := 1, pins := [⟨1, 3, true⟩] }] } 1 3 = true := by decide +kernel
theorem test_open_tag_skips_zero :
    after (match vcmdApply { vintState 0 [] with vint := { built := true, handles := [(1, { lastTag := 0xFFFFFFFF })] } } 0x1C000001#32 with
        | some t => .next t
        | none => .next State.reset) (fun t => (getHandle t 1).lastTag == 1) = true := by decide +kernel

/-! ### Resets of one part -/

def edgeState (vals : SMap Word) : State := { upState vals with time := { atEdge := true } }
theorem witness_PressResets : reaches (upState []) .agent = true ∧ (edgeState [(0x2C, 0x80000000#32)]).time.atEdge = true ∧
    rbit (edgeState [(0x2C, 0x80000000#32)]) (if (63 : Nat) < 32 then 0x28 else 0x2C) (63 % 32) = true ∧
    isCorked (edgeState [(0x2C, 0x80000000#32)]) 63 = false ∧ (getPress (edgeState []) 63).state = .idle ∧
    (getPress (edgeState []) 63).saved = none ∧ (edgeState []).coop.pending ≠ some 63 ∧ (edgeState []).coop.tasting ≠ some 63 ∧
    isCorked (edgeState [(0x28, 1#32), (0xD014, 1#32)]) 0 = true ∧
    rbit (edgeState [(0x28, 1#32), (0xD014, 1#32)]) (if (0 : Nat) < 32 then 0x28 else 0x2C) (0 % 32) = true := by decide +kernel
theorem witness_LinkResets : reaches (upState []) .agent = true ∧ rbit (upState []) 0x34 (47 % 32) = false ∧
    (getPort (upState []) 47).wait = [] ∧ (getPort (upState []) 47).unacked = [] ∧ rget (upState []) 0x34 &&& 0xFFFF0000#32 = 0 ∧
    rbit (upState [(0x34, 0x8000#32)]) 0x34 (47 % 32) = true ∧ rget (upState [(0x34, 0x8000#32)]) 0x34 &&& 0xFFFF0000#32 = 0 := by
  decide +kernel

/-! ### Fabric time and the calendar -/

def restState (vals : SMap Word) : State :=
  { upState vals with
    regs := { vals := vals, staged := [(0x1000, 1#32)], stagedMask := [(0x1000, 1#32)] }
    time := { counting := true, nextEdge := 5, frac := 20999999999 } }
theorem witness_SlotEdgeAppliesStaged : AtRest (restState []) ∧ (restState []).time.counting = true ∧ rbit (restState []) 0x1004 4 = false ∧
    (restState []).time.ftime.toNat < (restState []).time.nextEdge ∧ (restState []).time.nextEdge < 2 ^ 63 ∧
    (restState []).time.frac < 21 * 10 ^ 9 ∧ (restState []).regs.stagedMask = [(0x1000, 1#32)] ∧
    (restState []).regs.staged = [(0x1000, 1#32)] ∧ 0x1000 ∉ [0x0014, 0x1004, 0x1008] ∧ (0x1000 < 0x2100 ∨ 0x2200 ≤ 0x1000) := by
  refine ⟨⟨?_, ?_, ?_, ?_, ?_, ?_, ?_, ?_, ?_, ?_⟩, ?_, ?_, ?_, ?_, ?_, ?_, ?_, ?_, ?_⟩ <;> decide +kernel
def timeState (role : Word) (t : Time) : State := { upState [(0x1008, role), (0x1020, 7#32)] with time := t }
theorem witness_PulsesAndSources : atInstant (timeState 8#32 { counting := true }) = true ∧
    atInstant (timeState 8#32 { counting := true, ftime := 500 }) = false ∧ rfld (timeState 0#32 {}) 0x1008 3 2 = 0 ∧
    timeRole (timeState 1#32 {}) = 1 ∧ epoch (timeState 1#32 {}) % lambda (timeState 1#32 {}) ≠ 0 ∧
    edgeDue (timeState 1#32 {}) = false ∧
    (timeState 1#32 { lastPulse := some 0, clocks := 52499 }).time.clocks < 0 + 52500 ∧ timeRole (timeState 2#32 {}) = 2 ∧
    rfld (timeState 2#32 {}) 0x1008 16 6 < 48 ∧ rbit (timeState 2#32 {}) 0x1004 5 = false ∧ rbit (timeState 2#32 {}) 0x1004 4 = false ∧
    (timeState 2#32 { clocks := 134400 }).time.srcAt + 134400 ≤ (timeState 2#32 { clocks := 134400 }).time.clocks ∧
    (timeState 2#32 { clocks := 134399 }).time.clocks < (timeState 2#32 { clocks := 134399 }).time.srcAt + 134400 ∧
    (timeState 2#32 { clocks := 525000 }).time.linkAt + 525000 ≤ (timeState 2#32 { clocks := 525000 }).time.clocks ∧
    (timeState 2#32 { clocks := 524999 }).time.clocks < (timeState 2#32 { clocks := 524999 }).time.linkAt + 525000 ∧
    reaches (timeState 2#32 {}) .agent = true := by decide +kernel
def exchState (e : Exch) : State :=
  { linkState [(0x1008, 2#32)] with time := { counting := true, ftime := 1000, exch := [(0, e)] } }
theorem witness_TimeExchange : usable (exchState {}) 0 = true ∧ (getPort (exchState {}) 0).wait = [] ∧
    7 ≤ nth (getPort (exchState {}) 0).credits 3 0 ∧ (getPort (exchState {}) 0).credits.length = 4 ∧ (getPort (exchState {}) 0).txBuf = [] ∧
    (getPort (exchState {}) 0).flits.length < 2047 ∧ isSource (exchState {}) 0 = true ∧ isSource (linkState []) 0 = false ∧
    usable (linkState []) 0 = true ∧
    (smGet (exchState { seqId := 9, t2 := some 1, t3 := some 2 }).time.exch 0 {}).t2.isSome = true ∧
    (smGet (exchState { seqId := 9, t2 := some 1, t3 := some 2 }).time.exch 0 {}).t3.isSome = true ∧
    (smGet (exchState { seqId := 9, t2 := some 1, t3 := some 2 }).time.exch 0 {}).seqId = 9 ∧
    (smGet (exchState { seqId := 9, t2 := some 1, t3 := some 2 }).time.exch 0 {}).t4 = none ∧
    (smGet (exchState { seqId := 9, t2 := some 1, t3 := some 2 }).time.exch 0 {}).t1 = none := by decide +kernel

/-! ### The cooper -/

def coopState (c : Coop) (vals : SMap Word) : State := { upState vals with coop := c }
theorem witness_CooperCommands : reaches (coopState {} []) .agent = true ∧ (coopState {} []).coop.pending = none ∧
    (coopState {} []).coop.tasting = none ∧ (coopState { busy := true } []).coop.busy = true ∧ (coopState {} []).coop.busy = false ∧
    binOwner (coopState {} [(0x21FC, 15#32)]) 63 = 15 ∧ binOwner (coopState {} []) 63 ≠ 15 ∧ (coopState {} []).coop.remap = none ∧
    (coopState {} []).coop.remapDone = [] ∧ isCorked (coopState {} [(0xD018, 0x80000000#32)]) 63 = true ∧
    isCorked (coopState {} []) 63 = false := by decide +kernel
theorem witness_MarchesComplete : (coopState { busy := true, op := 1, target := 63 } []).coop.busy = true ∧
    (coopState { busy := true, op := 1, target := 63 } []).coop.target = (63 : Fin 64).val ∧
    (coopState { busy := true, op := 1, target := 63 } []).coop.op = 1 ∧ (coopState { busy := true, op := 2 } []).coop.op = 2 ∧
    (coopState { busy := true, op := 2 } []).mem.ueWords = [] ∧ (coopState { busy := true, op := 2 } []).mem.ceWords = [] := by decide
theorem witness_RemapCopies : (coopState { remap := some (63, 3) } []).coop.remap = some (63, 3) ∧
    (coopState { remap := some (63, 3) } []).coop.remapQ = [] ∧ Memory.wf (coopState { remap := some (63, 3) } []).mem = true ∧
    rbit (coopState { remap := some (63, 3) } []) (0x2100 + 4 * 63) 8 = false := by decide +kernel
theorem witness_StressTasting : ({ edgeState [] with coop := { pending := some 5 } } : State).coop.pending = some 5 ∧
    ({ edgeState [] with coop := { pending := some 5 } } : State).time.atEdge = true ∧
    (getPress (edgeState []) 5).state = .idle ∧ (getPress (edgeState []) 5).saved = none ∧ isCorked (edgeState []) 5 = false ∧
    (coopState { tasting := some 63 } [(0xE008, 0x80000000#32)]).coop.tasting = some 63 ∧
    rbit (coopState { tasting := some 63 } [(0xE008, 0x80000000#32)]) 0xE008 31 = true := by decide +kernel

/-! ### The shared pool, and descriptors that no press runs -/

theorem test_overquota_at_quota : bitAt (regLive (upState [(0x23BC, 1#32), (0x24BC, 1#32)]) 0x202C) 15 = true ∧
    bitAt (regLive (upState [(0x23BC, 2#32), (0x24BC, 1#32)]) 0x202C) 15 = false := by decide +kernel
def nopFlight (op : Nat) (w12 : Word) : Flight :=
  { id := 2, words := [BitVec.ofNat 32 (65536 * op), 0, 0, 0, 0, 0, 0, 0, 0, 0, 0, 0, w12] }
theorem witness_MasterCompletes :
    latched { upState [] with flights := [nopFlight 0x3F 0] } 0 (fun op => op == 0x3F) = some (nopFlight 0x3F 0) ∧
    latched { upState [] with flights := [nopFlight 0x05 0] } 0 (fun op => !([0x01, 0x02, 0x03, 0x04, 0x08, 0x09, 0x0A, 0x0B, 0x10,
      0x18, 0x19, 0x20, 0x21, 0x28, 0x30, 0x38, 0x3F].contains op)) = some (nopFlight 0x05 0) ∧
    latched { upState [] with flights := [nopFlight 0x38 1] } 0 (fun op => op == 0x38) = some (nopFlight 0x38 1) ∧
    bitAt (nth (nopFlight 0x38 1).words 12 0#32) 0 = true ∧
    (∀ g ∈ [nopFlight 0x38 1], g.stream = 0 → (nopFlight 0x38 1).id ≤ g.id) ∧
    latched { upState [] with flights := [{ id := 1, phase := .queued }, nopFlight 0x38 1] } 0 (fun op => op == 0x38) = some (nopFlight 0x38 1) := by
  decide +kernel
def queuedFlight : Flight := { id := 3, phase := .queued, stages := [{ op := 0x04 }], words := [0x00040000#32] }
theorem witness_DispatchGives :
    nextOf { upState [] with flights := [queuedFlight] } (queueOf { upState [] with flights := [queuedFlight] } 0) = some queuedFlight ∧
    serving { upState [] with flights := [queuedFlight] } 0 queuedFlight = some 0 ∧
    freePress { upState [] with flights := [queuedFlight] } (8 * 0 + 0) = true ∧
    (∀ q : Nat, q < 0 → freePress { upState [] with flights := [queuedFlight] } (8 * 0 + q) = false) ∧
    queueOf { upState [(0xD014, 0xFF#32)] with flights := [] } 0 = [] ∧
    (∀ q : Nat, q < 8 → freePress (upState [(0xD014, 0xFF#32)]) (8 * 0 + q) = false) := by
  refine ⟨by decide +kernel, by decide +kernel, by decide +kernel, fun q h => absurd h (Nat.not_lt_zero q), rfl, by decide +kernel⟩
def carded : Flight := { doneFlight 0x19 with tapped := true, words := List.replicate 16 0#32 }
def cardState : State := { upState [] with flights := [carded], crings := [(0, { log2n := 3, base := 64, clap := 255, tail := 7 })] }
theorem witness_CardWritten : cardNext cardState 1 = none ∧ cardNext cardState 0 = some carded ∧ (doneFlight 0x19).tapped = false ∧
    carded.tapped = true ∧ bitAt (nth carded.words 13 0#32) 31 = false ∧ bitAt (nth carded.words 0 0#32) 27 = false ∧
    (getCRing cardState 0).evt = 0 ∧ carded.cnt.refFirst = none ∧ carded.cnt.failCause = none ∧ Memory.wf cardState.mem = true ∧
    cardState.mem.ueWords = [] ∧ 64 * (getCRing cardState 0).base + 32 * (getCRing cardState 0).pos + 32 ≤ 0x2000000 ∧
    ringOff cardState (1024 + 0) + 4 + 4 ≤ 0x2000000 ∧
    (64 * (getCRing cardState 0).base + 32 * (getCRing cardState 0).pos + 32 ≤ ringOff cardState (1024 + 0) + 4 ∨
      ringOff cardState (1024 + 0) + 4 + 4 ≤ 64 * (getCRing cardState 0).base + 32 * (getCRing cardState 0).pos) := by decide +kernel

/-! ### Presses -/

def fillWords : List Word := [0x00040001#32, 0, 0, 0x00010000#32, 0, 0, 0, 0, 4, 1, 0x00010001#32, 0, 0, 0, 0xAB#32, 0]
/-- A plain FP8 tensor of rank 0 and `n` elements at local address `base`. -/
def plainRec (n base : Nat) : LRec :=
  { words := [0x03#32, 0, 0, BitVec.ofNat 32 n, 0, 0, 0, 0, 0, 0, BitVec.ofNat 32 base, 0, 0, 0, 0, 0] }
def fillStage : Stage := { op := 4, words := fillWords, dst := plainRec 4 0x1000, ext := [4, 1, 1, 1] }
def fillFlight (ph : FPhase) : Flight := { id := 1, words := fillWords, stages := [fillStage], phase := ph, press := 0 }
def fillRun : Run := { fid := 1, next := [0] }
def fillState : State := pressState { state := .setup, run := some fillRun } (fillFlight (.running 0))
theorem witness_OpsRun : (Instr.fill 0, 0x04) ∈ opCommands 0 ∧ (getPress fillState (0 : Fin 64).val).run = some fillRun ∧
    getFlight fillState fillRun.fid = some (fillFlight (.running 0)) ∧ opOf (fillFlight (.running 0)).words = 0x04 ∧
    opOf (fillFlight (.running 0)).words ≠ 0x01 ∧ (getPress (upState []) 63).run = none ∧ (getPress (upState []) 63).state ≠ .setup := by
  refine ⟨by simp [opCommands], by decide +kernel, by decide +kernel, by decide +kernel, by decide +kernel, by decide +kernel, by decide +kernel⟩
/-- FILL writes its constant into the four elements and no further (R224). -/
theorem test_fill : after (exec (.fill 0) fillState)
    (fun t => localBytes t 0xFFF 6 == [0x00#8, 0xAB#8, 0xAB#8, 0xAB#8, 0xAB#8, 0x00#8]) = true := by decide +kernel
theorem witness_PressCommandsFrame : pressCommand (.fill 0) = true ∧ ∃ t, exec (.fill 0) fillState = .next t := ⟨rfl, _, rfl⟩
def rackWords : List Word := fillWords.set 0 0x00010001#32
def rackFlight : Flight :=
  { id := 1, words := rackWords, phase := .running 0, press := 0,
    stages := [{ op := 1, words := rackWords, src := plainRec 4 0x2000, dst := plainRec 4 0x1000, ext := [4, 1, 1, 1] }] }
def rackRun : Run := { fillRun with loading := true }
def loadedState : State := pressState { state := .run, run := some rackRun, front := { valid := 0xFFFFFFFF }, back := { valid := 0xFFFFFFFF } } rackFlight
theorem witness_BoardErrorReloads : (getPress loadedState 0).state = .run ∧ (getPress loadedState 0).run = some rackRun ∧
    rackRun.boardUeOnce = false ∧ getFlight loadedState 1 = some rackFlight ∧ opOf rackWords ≠ 0x28 ∧ rackRun.stage = 0 ∧
    looksAhead loadedState (stageCtx loadedState 0 rackFlight 0) = false ∧
    (unitOf loadedState 0 rackFlight rackRun (stageCtx loadedState 0 rackFlight 0) 0).kind = 0 ∧
    (unitOf loadedState 0 rackFlight rackRun (stageCtx loadedState 0 rackFlight 0) 0).rows ≠ 0 ∧
    (∀ k : Nat, k < (unitOf loadedState 0 rackFlight rackRun (stageCtx loadedState 0 rackFlight 0) 0).rows →
      (getBoard (getPress loadedState 0) false).valid.getLsbD k = true) ∧
    (getBoard (getPress loadedState 0) true).valid = 0xFFFFFFFF := by decide +kernel
def storedPass : PassRec := { fid := 1, stage := 0, unit := 0, elems := 4, blocks := [(2, false, 5#32, 6#32)], nblocks := 1 }
def finishState : State :=
  pressState { state := .finish, run := some fillRun, waits := [storedPass] } (fillFlight (.running 0))
theorem witness_LotVerdicts : getPress finishState 0 =
      { (getPress finishState 0) with state := .finish, run := some fillRun, saved := none, waits := [storedPass] } ∧
    getFlight finishState storedPass.fid = some (fillFlight (.running 0)) ∧ fillRun.fid = storedPass.fid ∧
    (fillFlight (.running 0)).phase = .running 0 ∧ storedPass.stage = 0 ∧ storedPass.blend = false ∧ storedPass.keys = [] ∧
    storedPass.refused = false ∧ storedPass.unapplied = false ∧ (storedPass.blocks.map (·.1)).Nodup ∧ (finishState.flights.map (·.id)).Nodup ∧
    (∀ e ∈ storedPass.blocks, e.1 < 0x100000000 / 2048) ∧
    ((getPress finishState 0).fails.filter (fun e => decide (finishState.time.edges - e < max 1 (rfld finishState 0xD004 0 16)))).length + 1 <
      max 1 (rfld finishState 0xD004 16 4) := by decide +kernel

/-! ### The optical links -/

theorem witness_HeadersRoundTrip : (line 32).length = 64 * payloadLines 1 31 ∧ (line 1).length = 64 * ((0#5).toNat + 1) ∧
    (List.replicate 32 0#64).length = (if hasMasks 1 true then payloadLines 1 31 else 0) ∧
    (txnStream { typ := 1, data := line 1 }).all (· == 0#8) = false := by decide +kernel

/-! ### What a press waits for -/

def tableState (t : SortTable) : State := { upState [] with tables := [(7, t)] }
theorem witness_PressWaits_table : (getTable (tableState { owner := some 1 }) 7).owner ≠ none ∧ (getTable (tableState {}) 7).waiting = [] ∧
    57 ∈ (getTable (tableState { waiting := [63, 57], last := 0 }) 7).waiting ∧
    (getTable (tableState { waiting := [63, 57], last := 0 }) 7).owner = none ∧ (getTable (tableState { waiting := [63, 57], last := 0 }) 7).last < 8 ∧
    (∀ q ∈ (getTable (tableState { waiting := [63, 57], last := 0 }) 7).waiting, q % 8 = 57 % 8 → q = 57) ∧
    (∀ q ∈ (getTable (tableState { waiting := [63, 57], last := 0 }) 7).waiting, (57 + 7 - 0) % 8 ≤ (q + 7 - 0) % 8) := by decide +kernel
def oneRead : FRead := { tag := 4095, node := 1, addr := 0, lines := 1, stageOff := 0 }
def readRun : Run := { fillRun with reads := [oneRead], stagedWait := true, staged := [(0x1000, 64, 0)] }
def readState : State :=
  { linkState [(0x0014, 4#32), (0x0090, 0x00100000#32), (0x0100, 0x81#32), (0x2000, 1#32)] with
    presses := [(0, { state := .setup, run := some readRun })], flights := [fillFlight (.running 0)] }
theorem witness_PressWaits : (getPress readState (0 : Fin 64).val).state = .setup ∧ (getPress readState (0 : Fin 64).val).run = some readRun ∧
    getFlight readState readRun.fid = some (fillFlight (.running 0)) ∧ (nth (fillFlight (.running 0)).stages 0 {}).op ≠ 0x28 ∧
    (∀ e ∈ readRun.reads, e.tag = (7#18).toNat → e.flying = false) ∧ oneRead ∈ readRun.reads ∧ oneRead.flying = true ∧ oneRead.tag < 2 ^ 18 ∧
    (∀ y ∈ readRun.reads, y.tag = oneRead.tag → y.flying = true → y = oneRead) ∧ oneRead.fails + 1 ≤ fabRetry readState ∧
    fabRetry readState < { oneRead with fails := 1 }.fails + 1 ∧
    chooseRoute readState { readTxn 4095 1 0 1 0 with hops := 63, snode := BitVec.ofNat 16 (nodeId readState) } = some 0 ∧
    usable readState 0 = true ∧ (getPort readState 0).wait = [] ∧
    txnUnits (readTxn 4095 1 0 1 0) ≤ nth (getPort readState 0).credits (vcOf (readTxn 4095 1 0 1 0).typ) 0 ∧
    flitRoom (getPort readState 0) (readTxn 4095 1 0 1 0) = true ∧ readRun.stagedWait = true ∧
    (∀ e ∈ readRun.reads, e.copy = true → e.landed = true ∨ e.dead = true) ∧
    stageBase readState 0 (streamDomain readState 0) = some 0x4000000 ∧
    (∀ e ∈ readRun.staged, ∀ i : Nat, i < e.2.1 / 64 → reach readState (streamDomain readState 0) false (64 * ((e.1 + 64 * i) / 64)) = .ok ∧
      reach readState (streamDomain readState 0) false (0x4000000 + e.2.2 + 64 * i) = .ok) := by decide +kernel

/-! ### Preemption -/

def savedRun : Run := { fillRun with loading := true, frame := List.replicate 20 0 }
def saveState (x : Press) (ph : FPhase) : State :=
  { upState [(0x0014, 4#32), (0x00C0, 0x80000000#32), (0x2000, 1#32)] with presses := [(0, x)], flights := [fillFlight ph, { id := 2, phase := .queued }] }
theorem witness_FrameSaved : getFlight (saveState { state := .save, run := some savedRun, waiting := some 2 } (.running 0)) 1 = some (fillFlight (.running 0)) ∧
    saveBase (saveState {} (.saved 0)) 0 0 = some 0 ∧ streamDomain (saveState {} (.saved 0)) 0 = 0 ∧
    reach (saveState {} (.saved 0)) 0 false 0 = .ok ∧ Memory.wf (saveState {} (.saved 0)).mem = true ∧ (saveState {} (.saved 0)).mem.ueWords = [] ∧
    (getPress (saveState { state := .save, run := some savedRun, waiting := some 2 } (.running 0)) 0).state = .save ∧
    (getPress (saveState { state := .save, run := some savedRun, waiting := some 2 } (.running 0)) 0).waiting = some 2 ∧
    getFlight (saveState {} (.running 0)) 2 = some { id := 2, phase := .queued } ∧ 2 ≠ (fillFlight (.running 0)).id := by decide +kernel
def restoreState : State := saveState { state := .restore, saved := some savedRun } (.saved 0)
theorem witness_FrameRestored : (getPress restoreState 0).state = .restore ∧ (getPress restoreState 0).saved = some savedRun ∧
    savedRun.loading = true ∧ savedRun.stage = 0 ∧ (fillFlight (.saved 0)).stages = [fillStage] ∧ fillStage.op ≠ 0x28 ∧
    looksAhead restoreState (stageCtx restoreState 0 (fillFlight (.saved 0)) 0) = false ∧ restoreState.mem.ceWords = [] ∧
    savedRun.frame.length = 20 := by decide +kernel
/-- An empty save area holds the frame of `savedRun`. -/
theorem witness_frame_words (i : Nat) (h : i < 20) : (wordAt (localBytes restoreState 0 12544) (0x3000 + 4 * i)).toNat = nth savedRun.frame i 0 := by
  have z : localBytes restoreState 0 12544 = List.replicate 12544 0#8 := by
    unfold localBytes
    rw [show (fun i => memByte restoreState.mem (physOf restoreState (0 + i))) = fun _ => 0#8 from funext fun _ => rfl, List.map_const', List.length_range]
  have d : (0x3000 + 4 * i) + 4 ≤ 12544 := by omega
  rw [z, wordAt, List.drop_replicate, List.take_replicate, show min 4 (12544 - (0x3000 + 4 * i)) = 4 by omega]
  revert i
  decide

/-! ### Optical ports -/

def portState (p : Port) (vals : SMap Word) : State := { upState vals with fab := { ports := [(0, p)] } }
def idleFlit : List Byte := flitBytes [] 0 4095 false [1, 2, 3, 4]
theorem leNat_leBytes (v : Word) : BitVec.ofNat 32 (leNat (leBytes 4 v.toNat)) = v := by
  apply BitVec.eq_of_toNat_eq
  have := v.isLt
  simp [leNat, leBytes, BitVec.toNat_ofNat]
  omega
/-- The last four bytes of a flit are the CRC of the others (R318). -/
theorem test_flit_crc : wordAt idleFlit 252 = crc32c (idleFlit.take 252) := by
  have l : ∀ (h : List Byte) (v : Word), h.length = 252 → wordAt (h ++ leBytes 4 v.toNat) 252 = v ∧ (h ++ leBytes 4 v.toNat).take 252 = h := by
    intro h v e
    constructor
    · rw [wordAt, ← e, List.drop_left, List.take_of_length_le (by simp [leBytes]), leNat_leBytes]
    · rw [← e, List.take_left]
  obtain ⟨a, b⟩ := l _ (crc32c _) (show (([] : List Byte).take 240 ++ List.replicate (240 - ([] : List Byte).length) 0#8 ++ leBytes 2 (0 % 4096)
    ++ leBytes 2 (4095 % 4096 + (if false then 4096 else 0)) ++ leBytes 6 ((List.range 4).map (fun v => nth [1, 2, 3, 4] v 0 % 4096 * 4096 ^ v)).sum ++ [0#8, 0#8]).length = 252 by decide +kernel)
  exact a.trans (congrArg crc32c b.symm)
theorem witness_PortEvents_flit : usable (upState []) 0 = false ∧ usable (linkState []) 0 = true ∧ idleFlit.length = 256 ∧
    leNat ((idleFlit.drop 240).take 2) % 4096 = linkPort.rxSeq.toNat ∧
    (∀ b ∈ idleFlit.take 240, b = 0) ∧ (leNat ((idleFlit.drop 242).take 2) + 1) % 4096 = linkPort.acked % 4096 ∧
    leNat ((idleFlit.drop 242).take 2) / 4096 % 2 = 0 ∧ linkPort.rxBytes = [] ∧ linkPort.wait = [] ∧ linkPort.txBuf = [] ∧
    (∀ e ∈ linkPort.unacked, linkPort.acked ≤ e.lastFlit) ∧ linkPort.flits.length < 2048 ∧
    leNat (((flitBytes [] 1 4095 false []).drop 240).take 2) % 4096 ≠ linkPort.rxSeq.toNat := by decide +kernel
def twoLanes : Port := { linkPort with up := 3 }
theorem witness_PortEvents_codeword : twoLanes.up.getLsbD 2 = false ∧ twoLanes.up.getLsbD 1 = true ∧
    nth (lanesUp twoLanes.up) (twoLanes.rxLane % (lanesUp twoLanes.up).length) 0 ≠ 1 ∧
    smGet twoLanes.rxCodes (nth (lanesUp twoLanes.up) (twoLanes.rxLane % (lanesUp twoLanes.up).length) 0) [] = [] := by decide +kernel
theorem gfMul_zero (x : Nat) : gfMul x 0 = 0 := by
  have h : ∀ (k a : Nat), gfMulBits a 0 k = 0 := by
    intro k
    induction k with
    | zero => intro a; rfl
    | succ k ih => intro a; simp [gfMulBits, ih, Nat.xor]
  exact h 10 x
theorem gfEval_zero (x n : Nat) : gfEval (List.replicate n 0) x = 0 := by
  induction n with
  | zero => rfl
  | succ n ih =>
    rw [List.replicate_succ, gfEval, List.foldr_cons, show List.foldr _ 0 _ = gfEval (List.replicate n 0) x from rfl, ih, gfMul_zero]; rfl
theorem nth_zeros (n i : Nat) : nth (List.replicate n 0) i 0 = 0 := by
  rw [nth, List.getD_eq_getElem?_getD, List.getElem?_replicate]
  split <;> rfl
/-- A word of zeros is a codeword (R316). -/
theorem witness_PortEvents_decodes :
    rsDecode ((List.range 544).map (fun i => nth ((List.replicate 544 0#10).map (·.toNat)) i 0)) = some (List.replicate 544 0, 0) := by
  have z : (List.range 544).map (fun i => nth ((List.replicate 544 0#10).map (·.toNat)) i 0) = List.replicate 544 0 := by
    rw [List.map_replicate, show (0#10).toNat = 0 from rfl, show (fun i => nth (List.replicate 544 0) i 0) = fun _ => 0 from
      funext fun i => nth_zeros 544 i, List.map_const', List.length_range]
  have e : rsSyndromes (List.replicate 544 0) = List.replicate 30 0 := by
    rw [rsSyndromes, List.reverse_replicate, show (fun j => gfEval (List.replicate 544 0) (gfAlpha j)) = fun _ => 0 from
      funext fun j => gfEval_zero _ _, List.map_const', List.length_range]
  rw [z, rsDecode, e]
  rfl
def retrainPort (up : BitVec 8) : Port := { linkPort with retrain := true, up := up, flits := [line 4] }
theorem witness_PortEvents_retrain : (retrainPort 3).retrain = true ∧ (retrainPort 3).held = false ∧ (retrainPort 3).lost = false ∧
    (retrainPort 3).up &&& 4#8 = 0 ∧ (retrainPort 3).up &&& 2#8 ≠ 0 ∧ (retrainPort 3).wait = [] ∧ (retrainPort 3).txBuf = [] ∧
    (∀ v ∈ (retrainPort 3).owed, v = 0) ∧ (retrainPort 3).nakDue = false ∧ (retrainPort 0).up = 0 ∧ (retrainPort 0).unacked = [] ∧
    (upState []).book.queue.length < 16 := by decide
theorem witness_PortEvents_train : loaded (upState []) = false ∧ loaded (upState [(0x0014, 4#32)]) = true ∧ ({} : Port).trained = false ∧
    0x80#8 &&& ~~~({} : Port).dropped ≠ 0 ∧ 0x80#8 &&& ~~~({ dropped := 0x80 } : Port).dropped = 0 ∧ ({} : Port).wait = [] := by decide +kernel

/-! ### Requests from the fabric -/

def cellarState : State := linkState [(0x0014, 4#32), (0x2000, 1#32), (0x2100, 0xC00#32)]
/-- A request of node 1 for the last lines of a block of bin 0. -/
def reqTxn (typ : BitVec 4) (data : List Byte) : Txn := { typ := typ, snode := 1, addr := 0x7C0, data := data }
theorem goes (t : Txn) (h : chooseRoute cellarState t = some 0) (h2 : txnUnits t ≤ 400) (h3 : nth (getPort cellarState 0).credits (vcOf t.typ) 0 = 400)
    (h4 : flitRoom (getPort cellarState 0) t = true) : GoesOut cellarState 0 t :=
  ⟨h, rfl, rfl, by rw [h3]; exact h2, h4⟩
theorem toCellar (t : Txn) (h : t.dnode = 0 ∧ t.snode = 1 ∧ t.table = 0 ∧ t.addr = 0x7C0 ∧ t.lenM1 = 0) (h2 : t.typ ∈ [0#4, 1#4, 2#4, 3#4]) :
    ToCellar cellarState 0 t 0 := by
  obtain ⟨a, b, c, d, e⟩ := h
  refine ⟨by decide +kernel, by rw [a]; decide +kernel, by rw [b]; decide +kernel, by decide +kernel, c, by rw [d]; decide, ?_, by decide +kernel, by rw [d, e]; decide⟩
  simp only [List.mem_cons, List.not_mem_nil, or_false] at h2
  rcases h2 with h | h | h | h <;> rw [h] <;> decide +kernel
theorem witness_FabricRequests_read : ToCellar cellarState 0 (reqTxn 0 []) 0 ∧ Sound cellarState.mem ∧ (reqTxn 0 []).bmasks = [] ∧
    GoesOut cellarState 0 (rspOf cellarState (reqTxn 0 []) (sbGet cellarState.mem (blockOf (physOf cellarState 0x7C0))) (localBytes cellarState 0x7C0 64)) := by
  refine ⟨toCellar _ ⟨rfl, rfl, rfl, rfl, rfl⟩ (by decide), ⟨rfl, rfl, rfl, rfl⟩, rfl, goes _ ?_ ?_ ?_ ?_⟩ <;> decide +kernel
theorem witness_FabricRequests_ack : ToCellar cellarState 0 (reqTxn 1 (line 1)) 0 ∧ recalled cellarState (reqTxn 1 (line 1)) = false ∧
    GoesOut cellarState 0 (ackOf cellarState (reqTxn 1 (line 1)) 0 0) ∧ ToCellar cellarState 0 { reqTxn 2 (line 1) with code := 0x05, mask := 0x8001 } 0 ∧
    blendable (fmtRead (0x05#8).toNat) = true := by
  refine ⟨toCellar _ ⟨rfl, rfl, rfl, rfl, rfl⟩ (by decide), rfl, goes _ ?_ ?_ ?_ ?_, toCellar _ ⟨rfl, rfl, rfl, rfl, rfl⟩ (by simp [reqTxn]), ?_⟩ <;>
    decide +kernel
theorem witness_FabricRequests_multicast : ToCellar cellarState 0 { reqTxn 3 (line 1) with mask := 0x8000000000000000 } 0 ∧
    maskBits 0x8000000000000000#64 = [63] ∧ groupNode cellarState 0 63 = nodeId cellarState ∧ discards cellarState (reqTxn 3 (line 1)) = false ∧
    GoesOut cellarState 0 (ackOf cellarState (reqTxn 3 (line 1)) 0 0x8000000000000000#64) := by
  refine ⟨toCellar _ ⟨rfl, rfl, rfl, rfl, rfl⟩ (by decide), ?_, ?_, ?_, goes _ ?_ ?_ ?_ ?_⟩ <;> decide +kernel
theorem witness_FabricRequests_through : usable (upState []) 47 = false ∧ (2#16).toNat ≠ nodeId cellarState ∧ doorNode cellarState ≠ some (2#16).toNat ∧
    (1#6) ≠ 0 ∧ GoesOut cellarState 0 { dnode := 2, hops := 1 - 1 } := by
  refine ⟨?_, ?_, ?_, ?_, goes _ ?_ ?_ ?_ ?_⟩ <;> decide +kernel

/-! ### Answers and messages from the fabric -/

theorem witness_FabricMessages : usable cellarState 0 = true ∧ (getPort cellarState 0).flits.length < 2048 ∧ (0#16).toNat = nodeId cellarState ∧
    doorNode cellarState ≠ some (0#16).toNat ∧ cellarState.book.queue.length < 16 ∧ cellarState.fab.gaps.length < 256 ∧
    sameKey ⟨1, 2, 3, 4⟩ { snode := 1, stream := 2, group := 3 } = true ∧ sameKey ⟨1, 2, 3, 4⟩ { snode := 1, stream := 2, group := 4 } = false ∧
    blockOf (physOf cellarState (2048 * 7)) < 0x100000000 / 2048 ∧ outstanding cellarState 0 0 = none ∧
    ({ retired := [5] } : Press).retired.contains 5 = true ∧ cellarState.fab.poolWait = [] ∧ cellarState.door.xwait = [] ∧
    outByIdent cellarState 1 = none := by decide +kernel
theorem witness_FabricMessages_rsp : (getPress readState (4095 / 4096)).state = .setup ∧ (getPress readState (4095 / 4096)).run = some readRun ∧
    oneRead ∈ readRun.reads ∧ oneRead.flying = true ∧ oneRead.tag = (4095#18).toNat ∧
    stageBase readState 0 (streamDomain readState 0) = some 0x4000000 ∧
    reach readState (streamDomain readState 0) false (0x4000000 + oneRead.stageOff) = .ok ∧ region (0x4000000 + oneRead.stageOff) = .cellar 1 ∧
    (0x4000000 + oneRead.stageOff) % 0x4000000 + 64 * oneRead.lines ≤ 0x4000000 ∧ (line 1).length = 64 * oneRead.lines := by decide +kernel
def sentTxn : OutTxn := { key := 4, ident := 9, stream := 255, fid := 8, txn := { typ := 1 }, queued := true, sent := true }
def outState : State := { cellarState with fab := { cellarState.fab with outs := [sentTxn] } }
theorem witness_FabricMessages_ack : outByIdent outState 9 = some sentTxn ∧ sentTxn.queued = true ∧ sentTxn.acked = false ∧ sentTxn.multicast = false ∧
    sentTxn.txn.typ = 1 ∧ sentTxn.toPass = [] ∧ getFlight outState sentTxn.fid = none ∧ (∀ x ∈ outState.fab.outs, x.key = sentTxn.key → x = sentTxn) ∧
    sentTxn.sent = true ∧ sentTxn.late = false ∧ sentTxn.poolBlock = false := by decide +kernel
def mgmtLine (rsp : Byte) (code : Byte) (n : Nat) : List Byte :=
  (BitVec.ofNat 8 (13 + n) :: [0x01#8, 0x08#8, 0x00#8, 0xC8#8, 0x7F#8, 0x00#8, 0x00#8, 0xD1#8, 0xA7#8, code, rsp, 3#8, 0#8]) ++ List.replicate (50 - n) 0#8 ++ List.replicate n 0#8
theorem witness_FabricMessages_mgmt : (readPacket (mgmtLine 0 1 36)).isSome = true ∧
    (readPacket (mgmtLine 0 1 36)).map (fun p => (p.rsp, p.code, p.payload.length)) = some (false, 1, 36) ∧
    (readPacket (mgmtLine 1 0x10 4)).map (fun p => (p.rsp, p.code, p.tag)) = some (true, 0x10, 3) ∧ cellarState.book.send.length < 64 ∧
    evtNode cellarState = none ∧
    [({ tag := 1, dnode := 1, innerTag := 3, code := 0x10 } : Fwd)].find? (fun f => f.dnode == 1 && f.innerTag == 3 && f.code == 0x10) =
      some { tag := 1, dnode := 1, innerTag := 3, code := 0x10 } := by decide +kernel

/-! ### The cellar door -/

def poolState : State := doorState [(0x0014, 4#32), (0x2000, 1#32), (0x2100, 0x200#32)]
theorem witness_DoorRequests : (getMod (upState []) 15).trained = false ∧ (getMod poolState 0).trained = true ∧ (0x08#5).toNat ∉ [0x01, 0x02, 0x03, 0x04, 0x07, 0x18, 0x19, 0x1D] ∧
    (getMod poolState 0).outq = [] ∧ poolState.door.regq.length < 64 ∧ ready poolState = true ∧ loaded poolState = true ∧
    region (0x103FFFFC0#48).toNat = .unmapped ∧ region (0xFFFFFFFF#48).toNat = .cellar 63 ∧ mayUse poolState (doorDomain poolState 0) 63 = true ∧
    (0xFFFFFFC0#48).toNat / 64 * 64 % 2048 + 64 * ((0#5).toNat + 1) ≤ 2048 ∧ (0#48).toNat % 2048 + 64 * ((31#5).toNat + 1) ≤ 2048 ∧
    Memory.wf poolState.mem = true ∧ tagInFlight poolState 0 7 = false ∧ 1 ≤ (getMod poolState 0).hdrCredits ∧ (0#5).toNat + 1 ≤ (getMod poolState 0).beatCredits := by
  decide +kernel
theorem witness_DoorRequests_busy :
    tagInFlight { poolState with door := { poolState.door with heldAcc := [{ m := 0, isWrite := false, addr := 0, lenM1 := 0, tag := 7 }] } } 0 7 = true ∧
    64 ≤ ({ poolState.door with regq := List.replicate 64 { m := 0, off := none, tag := 0 } } : Door).regq.length := by decide +kernel
theorem witness_DoorModules_trained : (upState []).boot.power = .up ∧ dormant (upState []) = false ∧ (0 : Fin 16).val ≤ rfld (upState []) 0x0010 10 4 ∧
    (getMod (upState []) 0).trained = false ∧ (getMod (upState []) 0).xreqs = [] ∧ (upState []).door.xwait = [] ∧ getX (upState []) 0 4095 = none ∧
    (getMod poolState 0).xreqs = [] ∧ (getMod poolState 1).regWait = [] := by decide +kernel
/-- A request from port 0 on module 0, and a node whose door has node number 3 on the fabric. -/
def exported (typ : BitVec 4) (block : Option Nat) : XReq := { tag := 4095, port := 0, txn := { typ := typ, snode := 1, tag := 9, code := 5, mask := 3 }, block := block }
def exportState (x : XReq) : State :=
  { linkState [(0x0014, 4#32), (0x2000, 1#32), (0x2100, 0x200#32), (0x8004, 0x80000003#32)] with
    door := { mods := [(0, { trained := true, hdrCredits := 4, beatCredits := 8, xreqs := [x] })] } }
theorem goesOut (s : State) (t : Txn) (h : chooseRoute s t = some 0 ∧ usable s 0 = true ∧ (getPort s 0).wait = [] ∧
    txnUnits t ≤ nth (getPort s 0).credits (vcOf t.typ) 0 ∧ flitRoom (getPort s 0) t = true) : GoesOut s 0 t :=
  ⟨h.1, h.2.1, h.2.2.1, h.2.2.2.1, h.2.2.2.2⟩
theorem witness_DoorModules_read : getX (exportState (exported 0 (some 0))) 0 4095 = some (exported 0 (some 0)) ∧
    doorNode (exportState (exported 0 (some 0))) = some 3 ∧ (exported 0 none).txn.snode.toNat ≠ nodeId (exportState (exported 0 none)) ∧
    (exportState (exported 0 none)).door.xwait = [] ∧ region (poolAddr (exportState (exported 0 (some 0))) 0) = .cellar 0 ∧
    (getPort (exportState (exported 0 (some 0))) 0).kept.all (· == 0) = true ∧ Sound (exportState (exported 0 (some 0))).mem ∧
    GoesOut (exportState (exported 0 (some 0))) 0 { rspOf (exportState (exported 0 (some 0))) (exported 0 (some 0)).txn (0, 0) (line 1) with snode := 3 } ∧
    GoesOut (exportState (exported 0 (some 0))) 0
      { rspOf (exportState (exported 0 (some 0))) (exported 0 (some 0)).txn (0, 0) (line 1) with code := 3, snode := 3 } := by
  refine ⟨?_, ?_, ?_, ?_, ?_, ?_, ⟨rfl, rfl, rfl, rfl⟩, goesOut _ _ ?_, goesOut _ _ ?_⟩ <;> decide +kernel
theorem witness_DoorModules_write : getX (exportState (exported 1 none)) 0 4095 = some (exported 1 none) ∧ enabledLanes (exported 2 none).txn = 3 ∧
    GoesOut (exportState (exported 1 none)) 0 { ackOf (exportState (exported 1 none)) (exported 1 none).txn 5 0 with snode := 3 } ∧
    GoesOut (exportState (exported 2 none)) 0 { ackOf (exportState (exported 2 none)) (exported 2 none).txn 6 3 with snode := 3 } ∧
    GoesOut (exportState (exported 3 none)) 0 { ackOf (exportState (exported 3 none)) (exported 3 none).txn 3 3 with snode := 3 } := by
  refine ⟨?_, ?_, goesOut _ _ ?_, goesOut _ _ ?_, goesOut _ _ ?_⟩ <;> decide +kernel

end Sys2Proof.Tests
end

section
/-!
PROOFS. Register accesses: what a _LO read latches (R9, R462), and what a write of a register word leaves in each of its
fields (R7, R461).
-/
namespace Sys2Proof.Proofs.Registers
open Sys2Proof.Machine Sys2Proof.Claims

/-! ### Commands of a source that reaches the register window -/

/-- A word offset is its own word. -/
theorem word_of_aligned {off : Nat} (h : off % 4 = 0) : off / 4 * 4 = off := by omega

theorem exec_loRead_of_reaches {s : State} {src : Source} (h : reaches s src = true) (off : BitVec 20) :
    exec (.loRead src off) s = .next (regRead s src off.toNat).1 := by
  change Host.Outcome.next (srcRead s src off.toNat) = _
  rw [srcRead, if_pos h]

theorem exec_registerWrite_of_reaches {s : State} {src : Source} (h : reaches s src = true) (off : BitVec 20) (v : Word) :
    exec (.registerWrite src off v 0xF#4) s = .next (regWrite (srcKey src) s off.toNat v) := by
  change Host.Outcome.next (srcWrite s src off.toNat v 0xF#4) = _
  have full : coversWord src 0xF#4 = true := rfl
  rw [srcWrite, if_pos h, if_pos full]

/-! ### Reads and their shadows (R462) -/

/-- No _HI word is itself a _LO word: its read takes a shadow and never latches one. -/
theorem isLo_hi_of_isLo {off : Nat} (h : isLo off = true) : isLo (off + 4) = false := by
  rw [Bool.eq_false_iff]
  simp only [isLo, ne_eq, Bool.or_eq_true, Bool.and_eq_true, beq_iff_eq, decide_eq_true_eq] at h ⊢
  omega

theorem regRead_of_lo (s : State) (src : Source) {off : Nat} (ha : off % 4 = 0) (h : isLo off = true) :
    regRead s src off =
      ({ s with regs := { s.regs with
          shadows := ((srcKey src, off + 4), regLive s (off + 4)) :: dropShadow s.regs.shadows (srcKey src, off + 4) } },
        regLive s off) := by
  simp only [regRead, word_of_aligned ha, h, if_true]

theorem regRead_of_shadow {s : State} {src : Source} {off : Nat} {e : (Nat × Nat) × Word} (ha : off % 4 = 0)
    (h : isLo off = false) (he : s.regs.shadows.find? (fun e => e.1 == (srcKey src, off)) = some e) :
    (regRead s src off).2 = e.2 := by
  simp only [regRead, word_of_aligned ha, h, Bool.false_eq_true, if_false, he]

theorem regRead_of_no_shadow {s : State} {src : Source} {off : Nat} (ha : off % 4 = 0) (h : isLo off = false)
    (he : s.regs.shadows.find? (fun e => e.1 == (srcKey src, off)) = none) : regRead s src off = (s, regLive s off) := by
  simp only [regRead, word_of_aligned ha, h, Bool.false_eq_true, if_false, he]

/-- Settles O33: a _LO read puts the live _HI word at the head of the shadows, where the next read of that _HI finds it. -/
theorem loReadLatchesHi : Obligations.LoReadLatchesHi := by
  unfold Obligations.LoReadLatchesHi
  intro s src off hr ha hlo
  have hahi : (off.toNat + 4) % 4 = 0 := by omega
  have hhi := isLo_hi_of_isLo hlo
  have hexec := exec_loRead_of_reaches hr off
  rw [regRead_of_lo s src ha hlo] at hexec
  refine ⟨?latch, ?shadow, ?live⟩
  case latch =>
    rintro l rfl
    exact hexec
  case shadow =>
    intro t u ht hu
    rw [hexec] at ht
    have hregs : u.regs = t.regs := by rw [hu]
    obtain rfl := Host.Outcome.next.inj ht
    exact regRead_of_shadow (e := ((srcKey src, off.toNat + 4), regLive s (off.toNat + 4))) hahi hhi (by simp [hregs])
  case live =>
    intro u hu
    exact regRead_of_no_shadow hahi hhi (by simp [hu])

/-! ### Words with some of their count fields set -/

/-- Fields that share no bit. -/
def Apart (c d : Nat × Nat) : Prop := d.1 + d.2 ≤ c.1 ∨ c.1 + c.2 ≤ d.1

/-- `w` with each field of a list for which `p` holds set to what `g` gives it. -/
def setWhere (p : Nat × Nat → Prop) [DecidablePred p] (g : Nat × Nat → Nat) (l : List (Nat × Nat)) (w : Word) : Word :=
  l.foldl (fun w c => if p c then setFld w c.1 c.2 (g c) else w) w

section SetWhere
variable (p : Nat × Nat → Prop) [DecidablePred p] (g : Nat × Nat → Nat)

theorem setWhere_cons (c : Nat × Nat) (l : List (Nat × Nat)) (w : Word) :
    setWhere p g (c :: l) w = setWhere p g l (if p c then setFld w c.1 c.2 (g c) else w) := rfl

theorem bitAt_setWhere {l : List (Nat × Nat)} {i : Nat} (h : ∀ c ∈ l, i < c.1 ∨ c.1 + c.2 ≤ i) (w : Word) :
    bitAt (setWhere p g l w) i = bitAt w i := by
  induction l generalizing w with
  | nil => rfl
  | cons c l ih =>
    obtain ⟨hc, hl⟩ := List.forall_mem_cons.mp h
    rw [setWhere_cons, ih hl]
    split
    · exact bitAt_setFld_ne w hc _
    · rfl

theorem fld_setWhere_of_apart {l : List (Nat × Nat)} {d : Nat × Nat} (h : ∀ c ∈ l, Apart c d) (w : Word) :
    fld (setWhere p g l w) d.1 d.2 = fld w d.1 d.2 := by
  induction l generalizing w with
  | nil => rfl
  | cons c l ih =>
    obtain ⟨hc, hl⟩ := List.forall_mem_cons.mp h
    rw [setWhere_cons, ih hl]
    split
    · exact fld_setFld_ne w hc _
    · rfl

theorem fld_setWhere_of_mem {l : List (Nat × Nat)} (hap : l.Pairwise Apart) (hfit : ∀ c ∈ l, c.1 + c.2 ≤ 32)
    {d : Nat × Nat} (hd : d ∈ l) (w : Word) :
    fld (setWhere p g l w) d.1 d.2 = if p d then g d % 2 ^ d.2 else fld w d.1 d.2 := by
  induction l generalizing w with
  | nil => exact absurd hd (List.not_mem_nil)
  | cons c l ih =>
    obtain ⟨hc, hl⟩ := List.pairwise_cons.mp hap
    obtain ⟨hfc, hfl⟩ := List.forall_mem_cons.mp hfit
    rw [setWhere_cons]
    rcases List.mem_cons.mp hd with rfl | hdl
    · rw [fld_setWhere_of_apart p g (fun c' h' => (hc c' h').symm)]
      split
      · exact fld_setFld_self w hfc _
      · rfl
    · rw [ih hl hfl hdl]
      have : fld (if p c then setFld w c.1 c.2 (g c) else w) d.1 d.2 = fld w d.1 d.2 := by
        split
        · exact fld_setFld_ne w (hc d hdl) _
        · rfl
      rw [this]

end SetWhere

/-- Words that agree on the bits of a field have the same number in it. -/
theorem fld_congr_bits {a b : Word} {lo n : Nat} (h : ∀ i, lo ≤ i → i < lo + n → bitAt a i = bitAt b i) :
    fld a lo n = fld b lo n := by
  apply Nat.eq_of_testBit_eq
  intro i
  rw [testBit_fld, testBit_fld]
  by_cases hi : i < n
  · exact congrArg _ (h (lo + i) (by omega) (by omega))
  · simp [hi]

theorem fld_lt (w : Word) (lo n : Nat) : fld w lo n < 2 ^ n := Nat.mod_lt _ (Nat.two_pow_pos n)

/-! ### The fields of the register rows -/

/-- Every row of the register window. -/
def allRows : List RegRow := ctlRows ++ calRows ++ cellarRows ++ pressRows ++ fabRows ++ restRows

theorem mem_allRows_of_regRow {off : Nat} {r : RegRow} (h : regRow off = some r) : r ∈ allRows := by
  have hm := List.mem_of_find?_eq_some h
  simp only [allRows, List.mem_append]
  split_ifs at hm <;> tauto

/-- The bits of a row whose access code is RO, RWS, RW or W1C: those that are not in its counts. -/
def plainBits (r : RegRow) : Nat := r.ro ||| r.rws ||| r.rw ||| r.w1c

/-- No bit of a row has two access codes, and its counts lie within the word. -/
structure FieldsApart (r : RegRow) : Prop where
  written : r.rw &&& r.w1c = 0
  held : (r.ro ||| r.rws) &&& (r.rw ||| r.w1c) = 0
  plain : ∀ c ∈ r.cnt, plainBits r &&& (2 ^ c.2 - 1) <<< c.1 = 0
  fits : ∀ c ∈ r.cnt, c.1 + c.2 ≤ 32
  apart : r.cnt.Pairwise Apart

theorem fieldsApart_of_mem {r : RegRow} (h : r ∈ allRows) : FieldsApart r where
  written := (by decide +kernel : ∀ r ∈ allRows, r.rw &&& r.w1c = 0) r h
  held := (by decide +kernel : ∀ r ∈ allRows, (r.ro ||| r.rws) &&& (r.rw ||| r.w1c) = 0) r h
  plain := (by decide +kernel : ∀ r ∈ allRows, ∀ c ∈ r.cnt, plainBits r &&& (2 ^ c.2 - 1) <<< c.1 = 0) r h
  fits := (by decide +kernel : ∀ r ∈ allRows, ∀ c ∈ r.cnt, c.1 + c.2 ≤ 32) r h
  apart := (by unfold Apart; decide +kernel : ∀ r ∈ allRows, r.cnt.Pairwise Apart) r h

/-- Masks without a common bit. -/
theorem testBit_eq_false_of_and_eq_zero {a b i : Nat} (h : a &&& b = 0) (ha : a.testBit i = true) : b.testBit i = false := by
  have := congrArg (·.testBit i) h
  simpa [ha] using this

namespace FieldsApart
variable {r : RegRow} {i : Nat} (hr : FieldsApart r)
include hr

theorem w1c_of_rw (hi : r.rw.testBit i = true) : r.w1c.testBit i = false :=
  testBit_eq_false_of_and_eq_zero hr.written hi

theorem rw_of_w1c (hi : r.w1c.testBit i = true) : r.rw.testBit i = false :=
  testBit_eq_false_of_and_eq_zero (Nat.and_comm .. ▸ hr.written) hi

theorem rw_and_w1c_of_held (hi : (r.ro ||| r.rws).testBit i = true) : r.rw.testBit i = false ∧ r.w1c.testBit i = false := by
  simpa using testBit_eq_false_of_and_eq_zero hr.held hi

/-- A bit with an access code of its own lies in no count. -/
theorem outside_counts (hi : (plainBits r).testBit i = true) : ∀ c ∈ r.cnt, i < c.1 ∨ c.1 + c.2 ≤ i := by
  intro c hc
  have := testBit_eq_false_of_and_eq_zero (hr.plain c hc) hi
  simp only [Nat.testBit_shiftLeft, Nat.testBit_two_pow_sub_one, Bool.and_eq_false_iff, decide_eq_false_iff_not] at this
  omega

/-- A bit of a count has no access code of its own. -/
theorem plain_of_count {c : Nat × Nat} (hc : c ∈ r.cnt) (h1 : c.1 ≤ i) (h2 : i < c.1 + c.2) :
    r.rw.testBit i = false ∧ r.w1c.testBit i = false := by
  have hp : (plainBits r).testBit i = false := Bool.eq_false_iff.mpr fun hi => by
    have := hr.outside_counts hi c hc
    omega
  simp only [plainBits, Nat.testBit_or, Bool.or_eq_false_iff] at hp
  exact ⟨hp.1.2, hp.2⟩

end FieldsApart

/-! ### The value after a write -/

theorem bitAt_takeBits (a b : Word) (m : Nat) {i : Nat} (hi : i < 32) :
    bitAt (takeBits a b m) i = if m.testBit i then bitAt b i else bitAt a i := by
  simp only [bitAt, takeBits, BitVec.getLsbD_or, BitVec.getLsbD_and, BitVec.getLsbD_not, BitVec.getLsbD_ofNat, hi,
    decide_true, Bool.true_and]
  cases m.testBit i <;> simp

/-- The value that the RW and the W1C bits of a row take from a write, its counts as they were. -/
def bitsWritten (r : RegRow) (w v : Word) : Word := takeBits w v r.rw &&& ~~~(v &&& BitVec.ofNat 32 r.w1c)

theorem rowWritten_eq (r : RegRow) (w v : Word) :
    rowWritten r w v = setWhere (fun c => fld v c.1 c.2 = 2 ^ c.2 - 1) (fun _ => 0) r.cnt (bitsWritten r w v) := rfl

theorem keepSame_eq (r : RegRow) (b now a : Word) :
    keepSame r b now a = setWhere (fun c => fld a c.1 c.2 = 0) (fun c => fld now c.1 c.2 - fld b c.1 c.2) r.cnt
      (a ||| (now &&& ~~~b &&& BitVec.ofNat 32 r.w1c)) := rfl

theorem bitAt_bitsWritten (r : RegRow) (w v : Word) {i : Nat} (hi : i < 32) :
    bitAt (bitsWritten r w v) i =
      ((if r.rw.testBit i then bitAt v i else bitAt w i) && !(bitAt v i && r.w1c.testBit i)) := by
  rw [← bitAt_takeBits w v r.rw hi]
  simp only [bitsWritten, bitAt, BitVec.getLsbD_and, BitVec.getLsbD_not, BitVec.getLsbD_ofNat, hi, decide_true, Bool.true_and]

theorem bitAt_or_kept (r : RegRow) (b now a : Word) {i : Nat} (hi : i < 32) :
    bitAt (a ||| (now &&& ~~~b &&& BitVec.ofNat 32 r.w1c)) i =
      (bitAt a i || (bitAt now i && !bitAt b i && r.w1c.testBit i)) := by
  simp only [bitAt, BitVec.getLsbD_or, BitVec.getLsbD_and, BitVec.getLsbD_not, BitVec.getLsbD_ofNat, hi, decide_true,
    Bool.true_and]

section RowAfter
variable {r : RegRow} (hr : FieldsApart r) (s : State) (off : Nat) (v : Word)
include hr

/-- A bit outside the counts: what its access code makes of it, and what the same clock has set in a W1C field (R7). -/
theorem bitAt_rowAfter {i : Nat} (hi : i < 32) (hp : (plainBits r).testBit i = true) :
    bitAt (rowAfter s r off v) i =
      (((if r.rw.testBit i then bitAt v i else bitAt (rget s off) i) && !(bitAt v i && r.w1c.testBit i)) ||
        (bitAt (rget s off) i && !bitAt (startWord s off) i && r.w1c.testBit i)) := by
  have hout := hr.outside_counts hp
  have hw : bitAt (rowWritten r (rget s off) v) i = bitAt (bitsWritten r (rget s off) v) i := by
    rw [rowWritten_eq, bitAt_setWhere _ _ hout]
  rw [← bitAt_bitsWritten r _ v hi, ← hw]
  unfold rowAfter startWord
  cases s.regs.before with
  | none => simp
  | some b => exact (bitAt_setWhere _ _ hout _).trans (bitAt_or_kept r _ _ _ hi)

theorem fld_rowWritten {c : Nat × Nat} (hc : c ∈ r.cnt) (w : Word) :
    fld (rowWritten r w v) c.1 c.2 = if fld v c.1 c.2 = 2 ^ c.2 - 1 then 0 else fld w c.1 c.2 := by
  have hbits : fld (bitsWritten r w v) c.1 c.2 = fld w c.1 c.2 := by
    refine fld_congr_bits fun i h1 h2 => ?_
    obtain ⟨hrw, hw1c⟩ := hr.plain_of_count hc h1 h2
    have := hr.fits c hc
    simp [bitAt_bitsWritten r w v (show i < 32 by omega), hrw, hw1c]
  rw [rowWritten_eq, fld_setWhere_of_mem _ _ hr.apart hr.fits hc, hbits, Nat.zero_mod]

/-- A count is cleared by all ones alone, and keeps what the same clock has added (R142, R461). -/
theorem fld_rowAfter {c : Nat × Nat} (hc : c ∈ r.cnt) :
    fld (rowAfter s r off v) c.1 c.2 =
      if fld v c.1 c.2 = 2 ^ c.2 - 1 then fld (rget s off) c.1 c.2 - fld (startWord s off) c.1 c.2
      else fld (rget s off) c.1 c.2 := by
  have hw := fld_rowWritten hr v hc (rget s off)
  unfold rowAfter startWord
  cases s.regs.before with
  | none => simpa using hw
  | some b =>
    have hkept : ∀ x y a : Word, fld (a ||| (x &&& ~~~y &&& BitVec.ofNat 32 r.w1c)) c.1 c.2 = fld a c.1 c.2 := by
      refine fun x y a => fld_congr_bits fun i h1 h2 => ?_
      have := hr.fits c hc
      simp [bitAt_or_kept r y x a (show i < 32 by omega), (hr.plain_of_count hc h1 h2).2]
    have hlt := fld_lt (rget s off) c.1 c.2
    dsimp only
    rw [keepSame_eq, fld_setWhere_of_mem _ _ hr.apart hr.fits hc, hkept, hw, Nat.mod_eq_of_lt (by omega)]
    split_ifs <;> omega

end RowAfter

/-- A row without a field that a write changes at once keeps its value. -/
theorem rowAfter_of_no_fields {r : RegRow} (hrw : r.rw = 0) (hw1c : r.w1c = 0) (hcnt : r.cnt = []) (s : State) (off : Nat)
    (v : Word) : rowAfter s r off v = rget s off := by
  have hw : rowWritten r (rget s off) v = rget s off := by
    rw [rowWritten_eq, hcnt]
    refine BitVec.eq_of_getLsbD_eq fun i hi => (bitAt_bitsWritten r _ v hi).trans ?_
    simp [hrw, hw1c, bitAt]
  unfold rowAfter
  cases s.regs.before with
  | none => exact hw
  | some b =>
    dsimp only
    rw [keepSame_eq, hw, hcnt, hw1c]
    simp [setWhere]

/-! ### Staging (R7) -/

@[simp] theorem rget_stage (s : State) (off o : Nat) (v : Word) (m : Nat) : rget (stage s off v m) o = rget s o := by
  unfold stage
  split <;> rfl

/-- Staging changes the staged values and their mask alone. -/
theorem stage_eq (s : State) (off : Nat) (v : Word) (m : Nat) :
    stage s off v m = { s with regs := { s.regs with
      staged := (stage s off v m).regs.staged, stagedMask := (stage s off v m).regs.stagedMask } } := by
  unfold stage
  split <;> rfl

theorem staged_stage_ne (s : State) {off o : Nat} (h : o ≠ off) (v : Word) (m : Nat) :
    smGet (stage s off v m).regs.staged o 0 = smGet s.regs.staged o 0 ∧
      smGet (stage s off v m).regs.stagedMask o 0 = smGet s.regs.stagedMask o 0 := by
  unfold stage
  split
  · exact ⟨rfl, rfl⟩
  · exact ⟨smGet_smPut_ne _ h _ _, smGet_smPut_ne _ h _ _⟩

/-- A bit of the mask is pending with the bit written. -/
theorem staged_stage_self (s : State) (off : Nat) (v : Word) {m i : Nat} (hi : i < 32) (hm : m.testBit i = true) :
    bitAt (smGet (stage s off v m).regs.staged off 0) i = bitAt v i ∧
      bitAt (smGet (stage s off v m).regs.stagedMask off 0) i = true := by
  have hm0 : m ≠ 0 := by
    rintro rfl
    simp at hm
  simp only [stage, hm0, if_false, smGet_smPut_self]
  refine ⟨by rw [bitAt_takeBits _ _ _ hi, if_pos hm], ?_⟩
  simp only [bitAt, BitVec.getLsbD_or, BitVec.getLsbD_ofNat, hi, hm, decide_true, Bool.and_self, Bool.or_true]

/-! ### A write of a register word -/

/-- The registers whose write is a command, and the words of CAL.EPOCH (R463). -/
def ownRule : List Nat := [0x0030, 0x0034, 0x0038, 0x01D4, 0x1020, 0x1024, 0xE000]

/-- A write of any other register: the value in effect becomes `rowAfter`, and the RWS bits are then staged. -/
theorem regWrite_eq_stage (key : Nat) (s : State) {off : Nat} {r : RegRow} (v : Word) (ha : off % 4 = 0)
    (hlt : off < 0x10000) (hrow : regRow off = some r) (hown : off ∉ ownRule) (hrsv : v &&& r.rsv = 0) :
    ∃ u : State, regWrite key s off v = stage u off v r.rws ∧ rget u off = rowAfter s r off v ∧
      (∀ o, o ≠ off → rget u o = rget s o) ∧ u = { s with regs := { s.regs with vals := u.regs.vals } } := by
  simp only [ownRule, List.mem_cons, List.not_mem_nil, or_false, not_or] at hown
  obtain ⟨h30, h34, h38, h1d4, h1020, h1024, he000⟩ := hown
  have hcore : regWrite key s off v =
      if r.rw = 0 ∧ r.w1c = 0 ∧ r.cnt = [] then stage s off v r.rws
      else stage (rset s off (rowAfter s r off v)) off v r.rws := by
    simp only [regWrite, regWriteCore, word_of_aligned ha, hrow, noteReserved, hrsv, h30, h34, h38, h1d4, h1020, h1024,
      he000, Nat.not_le.mpr hlt, or_self, if_true, if_false]
  rw [hcore]
  split
  · next hno =>
    obtain ⟨hrw, hw1c, hcnt⟩ := hno
    exact ⟨s, rfl, (rowAfter_of_no_fields hrw hw1c hcnt s off v).symm, fun _ _ => rfl, rfl⟩
  · exact ⟨_, rfl, rget_rset_self _ _ _, fun o ho => rget_rset_ne _ ho _, rfl⟩

/-- Settles O31. A write leaves `rowAfter` in effect and stages the RWS bits; as no bit of a row has two access codes, each
clause is the value of `rowAfter` at a bit or a count. Which commands share a control clock is log 87's choice. -/
theorem registerWriteByAccessCode : Obligations.RegisterWriteByAccessCode := by
  unfold Obligations.RegisterWriteByAccessCode
  intro s src off v r hreach ha hlt hrow hown hrsv
  have hr := fieldsApart_of_mem (mem_allRows_of_regRow hrow)
  obtain ⟨u, hwrite, hval, hother, hframe⟩ := regWrite_eq_stage (srcKey src) s v ha hlt hrow hown hrsv
  have hstage := stage_eq u off.toNat v r.rws
  refine ⟨stage u off.toNat v r.rws, ?exec, ?frame, ?shadows, ?heldLo, ?others, ?rw, ?w1c, ?counts, ?held, ?staged⟩
  case exec => rw [exec_registerWrite_of_reaches hreach, hwrite]
  case frame => rw [hstage, hframe]
  case shadows => rw [hstage, hframe]
  case heldLo => rw [hstage, hframe]
  case others =>
    intro o ho
    have hpend := staged_stage_ne u ho v r.rws
    refine ⟨by rw [rget_stage, hother o ho], ?_, ?_⟩
    · rw [hpend.1, hframe]
    · rw [hpend.2, hframe]
  case rw =>
    intro i hi hrw
    rw [rget_stage, hval, bitAt_rowAfter hr s _ v hi (by simp [plainBits, hrw])]
    simp [hrw, hr.w1c_of_rw hrw]
  case w1c =>
    intro i hi hw1c
    rw [rget_stage, hval, bitAt_rowAfter hr s _ v hi (by simp [plainBits, hw1c]), hr.rw_of_w1c hw1c, hw1c]
    cases bitAt (rget s off.toNat) i <;> simp
  case counts =>
    intro c hc
    rw [rget_stage, hval, fld_rowAfter hr s _ v hc]
  case held =>
    intro i hi hheld
    obtain ⟨hrw, hw1c⟩ := hr.rw_and_w1c_of_held hheld
    have hp : (plainBits r).testBit i = true := by
      rw [plainBits, Nat.testBit_or, Nat.testBit_or, hheld, Bool.true_or, Bool.true_or]
    rw [rget_stage, hval, bitAt_rowAfter hr s _ v hi hp]
    simp [hrw, hw1c]
  case staged =>
    intro i hi hrws
    exact staged_stage_self u _ v hi hrws

end Sys2Proof.Proofs.Registers
end

section
/-!
PROOFS. Time passing on its own: the step of an empty queue (R20, R119), and the slot edge of a block at rest (R21, R127,
R129, R130, R144).
-/
namespace Sys2Proof.Proofs.Architecture
open Sys2Proof.Machine Sys2Proof.Claims

/-! ### A step with no command waiting -/

theorem step_of_pending_nil {s : State} (h : s.pending = []) : step s = .next (clockTick s) := by
  rw [step, h]

theorem clockTick_of_not_alive {s : State} (h : alive s = false) : clockTick s = s :=
  if_neg (Bool.eq_false_iff.mp h)

/-- Settles O2. That an empty queue is one control clock is the model's choice (log 1). -/
theorem emptyQueueIsOneClock : Obligations.EmptyQueueIsOneClock := by
  unfold Obligations.EmptyQueueIsOneClock
  refine ⟨fun s hnil => step_of_pending_nil hnil, fun s hnil hdead => ?_⟩
  rw [step_of_pending_nil hnil, clockTick_of_not_alive hdead]

/-! ### What keeps a block at rest -/

/-- Fabric time may run on while the cellar master and the correction of fabric time have nothing to do. -/
theorem atRest_with_time {s : State} (h : AtRest s) {t : Time} (hmaster : t.master = {}) (hstep : t.stepDue = none)
    (hslew : t.slew = 0) : AtRest { s with time := t } :=
  { h with master := hmaster, step := hstep, slew := hslew }

/-- Registers may change while no image counts as applied. -/
theorem atRest_with_regs {s : State} (h : AtRest s) {r : Regs} (himage : loaded { s with regs := r } = false) :
    AtRest { s with regs := r } :=
  { h with image := himage }

theorem loaded_rset_ne (s : State) {off : Nat} (h : off ≠ 0x0014) (v : Word) : loaded (rset s off v) = loaded s := by
  unfold loaded rbit
  rw [rget_rset_ne s h.symm]

theorem atRest_rset {s : State} (h : AtRest s) {off : Nat} (hoff : off ≠ 0x0014) (v : Word) : AtRest (rset s off v) :=
  atRest_with_regs h ((loaded_rset_ne s hoff v).trans h.image)

/-! ### What a control clock leaves of a block at rest -/

section Rest
variable {s : State} (h : AtRest s)
include h

theorem resetClocks_of_atRest (n : Nat) : resetClocks s n = s := by
  have hnone : s.presses.filter (fun e => e.2.state == .reset) = [] := by
    refine List.filter_eq_nil_iff.mpr fun e he => ?_
    simpa [bne] using List.all_eq_true.mp h.presses e he
  rw [resetClocks, hnone, List.foldl_nil]

theorem pumpClocks_of_atRest (n : Nat) : pumpClocks s n = s := by
  simp [pumpClocks, h.host]

theorem tallyRuns_of_atRest (n : Nat) : tallyRuns s n = s := by
  rw [tallyRuns, takeRecords_nil _ h.tally]

theorem wsFault_of_atRest : wsFault s = s := by
  unfold wsFault
  split
  · rfl
  · rw [h.image, Bool.and_false, if_neg Bool.false_ne_true]

theorem masterClock_of_atRest : masterClock s = s := by
  simp only [masterClock, getMaster, h.master]

theorem matrixClock_of_atRest : matrixClock s = s := by
  simp only [matrixClock, grantReg, h.host]

theorem clockByClock_of_atRest : clockByClock s = false := by
  simp [clockByClock, getMaster, regBusy, h.master, h.step, h.host]

theorem leadClocks_of_atRest (e fuel : Nat) : leadClocks s e fuel = s := by
  cases fuel with
  | zero => rfl
  | succ n => simp [leadClocks, clockByClock_of_atRest h]

theorem visitClocks_of_atRest (fuel : Nat) : visitClocks s fuel = s := by
  cases fuel with
  | zero => rfl
  | succ n => simp [visitClocks, clockByClock_of_atRest h]

theorem drainPool_of_atRest : drainPool s = s := by
  simp only [drainPool, drainExport, h.fabric, h.host, List.foldl_nil]
  rw [← h.fabric, ← h.host]

theorem resumeCredits_of_atRest (n : Nat) : resumeCredits s n = s := by
  have hkept : (getPort s n).kept = [0, 0, 0, 0] := by
    simp [getPort, h.fabric, smGet]
  simp [resumeCredits, hkept]

theorem quotaEdge_of_atRest : quotaEdge s = s := by
  have hports : ∀ l : List Nat, l.foldl resumeCredits s = s := by
    intro l
    induction l with
    | nil => rfl
    | cons n l ih => rw [List.foldl_cons, resumeCredits_of_atRest h, ih]
  rw [quotaEdge, hports, drainPool_of_atRest h]

theorem vintageEdge_of_atRest : vintageEdge s = s := by
  rw [vintageEdge, h.vintages, if_neg Bool.false_ne_true]

theorem revolution_of_atRest : revolution s = s := by
  have hstarve : starveAlarms s = s := by
    simp only [starveAlarms, h.cooper, List.filter_nil, List.foldl_nil]
    rw [← h.cooper]
  rw [revolution, hstarve]
  simp only [ceLimits, h.cooper, List.filter_nil, List.foldl_nil]
  rw [← h.cooper]

theorem moveDecode_of_atRest : moveDecode s = s := by
  simp only [moveDecode, h.cooper, List.filter_nil, List.foldl_nil]
  rw [← h.cooper]

theorem masterSlot_of_atRest (k rev : Nat) : masterSlot s k rev = s := by
  rw [masterSlot, h.image, if_neg Bool.false_ne_true]

/-- Without an image RUNNING cannot rise at an edge. -/
theorem judgeRunning_of_atRest :
    judgeRunning s = if rbit s 0x1000 0 = true then s else rsetBit s 0x1004 1 false := by
  cases hrun : rbit s 0x1000 0 <;> simp [judgeRunning, hrun, h.image]

theorem atRest_judgeRunning : AtRest (judgeRunning s) := by
  rw [judgeRunning_of_atRest h]
  split
  · exact h
  · exact atRest_rset h (by decide) _

/-- On the clock of an edge, staged values and RUNNING are all that a block at rest changes. -/
theorem edgeEffects_of_atRest (hstay : AtRest (applyStaged s)) (k : Nat) :
    edgeEffects s k = judgeRunning (applyStaged s) := by
  have hjudged := atRest_judgeRunning hstay
  simp only [edgeEffects, vintageEdge_of_atRest h, quotaEdge_of_atRest hjudged, revolution_of_atRest hjudged, ite_self]
  exact moveDecode_of_atRest hjudged

end Rest

/-! ### The verdict on RUNNING (R144) -/

theorem rget_judgeRunning_of_atRest {s : State} (h : AtRest s) {o : Nat} (ho : o ≠ 0x1004) :
    rget (judgeRunning s) o = rget s o := by
  rw [judgeRunning_of_atRest h]
  split
  · rfl
  · exact rget_rsetBit_ne s ho _ _

theorem running_judgeRunning_of_atRest {s : State} (h : AtRest s) :
    rbit (judgeRunning s) 0x1004 1 = (rbit s 0x1004 1 && rbit s 0x1000 0) := by
  rw [judgeRunning_of_atRest h]
  split
  · next hrun => rw [hrun, Bool.and_true]
  · next hrun =>
    rw [Bool.eq_false_iff.mpr hrun, Bool.and_false, rbit, rget_rsetBit_self]
    exact bitAt_setBit_self _ (by decide) _

/-- The verdict changes register values alone. -/
theorem judgeRunning_eq_with_vals {s : State} (h : AtRest s) :
    judgeRunning s = { s with regs := { s.regs with vals := (judgeRunning s).regs.vals } } := by
  rw [judgeRunning_of_atRest h]
  split <;> rfl

/-! ### One staged register (R130) -/

/-- The register at `off` alone has a pending value `v`, under the mask `m`; it is no bin's, and it holds neither LOADED nor
RUNNING. -/
structure OneStaged (s : State) (off : Nat) (v m : Word) : Prop where
  mask : s.regs.stagedMask = [(off, m)]
  value : s.regs.staged = [(off, v)]
  notBin : off < 0x2100 ∨ 0x2200 ≤ off
  notBoot : off ≠ 0x0014
  notStatus : off ≠ 0x1004

section Staged
variable {s : State} {off : Nat} {v m : Word} (hst : OneStaged s off v m)
include hst

/-- Outside the bins' registers the whole pending value is due, and none of it stays staged. -/
theorem applyStaged_of_oneStaged :
    applyStaged s = { s with regs := { s.regs with
      vals := smPut s.regs.vals off ((rget s off &&& ~~~m) ||| (v &&& m)), staged := [], stagedMask := [] } } := by
  have hnot := hst.notBin
  have hdue : dueMask s off m = m := if_neg (by omega)
  simp [applyStaged, applyOne, hst.mask, hst.value, smGet, smDel, hdue, takeBits, rset]

theorem rget_applyStaged_self : rget (applyStaged s) off = (rget s off &&& ~~~m) ||| (v &&& m) := by
  rw [applyStaged_of_oneStaged hst]
  exact smGet_smPut_self _ _ _ _

theorem rget_applyStaged_ne {o : Nat} (ho : o ≠ off) : rget (applyStaged s) o = rget s o := by
  rw [applyStaged_of_oneStaged hst]
  exact smGet_smPut_ne _ ho _ _

theorem atRest_applyStaged (h : AtRest s) : AtRest (applyStaged s) := by
  have himage : loaded (applyStaged s) = false := by
    rw [loaded, rbit, rget_applyStaged_ne hst hst.notBoot.symm]
    exact h.image
  rw [applyStaged_of_oneStaged hst] at himage ⊢
  exact atRest_with_regs h himage

variable (h : AtRest s)
include h

/-- An edge's effects on a block at rest are in its registers alone. -/
theorem judgeRunning_applyStaged_frame : { judgeRunning (applyStaged s) with regs := s.regs } = s := by
  rw [judgeRunning_eq_with_vals (atRest_applyStaged hst h), applyStaged_of_oneStaged hst]

/-- Nothing stays staged. -/
theorem staged_judgeRunning_applyStaged :
    (judgeRunning (applyStaged s)).regs.staged = [] ∧ (judgeRunning (applyStaged s)).regs.stagedMask = [] := by
  rw [judgeRunning_eq_with_vals (atRest_applyStaged hst h), applyStaged_of_oneStaged hst]
  exact ⟨rfl, rfl⟩

theorem rget_judgeRunning_applyStaged_self :
    rget (judgeRunning (applyStaged s)) off = (rget s off &&& ~~~m) ||| (v &&& m) := by
  rw [rget_judgeRunning_of_atRest (atRest_applyStaged hst h) hst.notStatus]
  exact rget_applyStaged_self hst

theorem rget_judgeRunning_applyStaged_ne {o : Nat} (ho : o ≠ off) (hstatus : o ≠ 0x1004) :
    rget (judgeRunning (applyStaged s)) o = rget s o := by
  rw [rget_judgeRunning_of_atRest (atRest_applyStaged hst h) hstatus]
  exact rget_applyStaged_ne hst ho

/-- RUN is judged as it stands once the edge has applied what was staged. -/
theorem running_judgeRunning_applyStaged :
    rbit (judgeRunning (applyStaged s)) 0x1004 1 =
      (rbit s 0x1004 1 && rbit (judgeRunning (applyStaged s)) 0x1000 0) := by
  have hstay := atRest_applyStaged hst h
  rw [running_judgeRunning_of_atRest hstay]
  unfold rbit
  rw [rget_applyStaged_ne hst hst.notStatus.symm, rget_judgeRunning_of_atRest hstay (by decide)]

end Staged

/-! ### The control clock of the next edge (R21) -/

theorem le_ceilDiv_mul (a : Nat) {b : Nat} (hb : 0 < b) : a ≤ ceilDiv a b * b := by
  have hdiv := Nat.div_add_mod (a + b - 1) b
  have hmod := Nat.mod_lt (a + b - 1) hb
  rw [Nat.mul_comm] at hdiv
  unfold ceilDiv
  omega

theorem ceilDiv_mul_lt (a : Nat) {b : Nat} (hb : 0 < b) : ceilDiv a b * b < a + b := by
  have hdiv := Nat.div_mul_le_self (a + b - 1) b
  unfold ceilDiv
  omega

/-- Short of the wrap of fabric time, the units set are the units held. -/
theorem ftime_setTimeUnits (s : State) {u : Nat} (hu : u < 2 ^ 64 * unitsPerNs) :
    (setTimeUnits s (u : Nat)).time.ftime.toNat = u / unitsPerNs := by
  have hmod : (u : Int) < 2 ^ 64 * (unitsPerNs : Int) := by
    have hcast := Int.ofNat_lt.mpr hu
    rwa [Nat.cast_mul, Nat.cast_pow, Nat.cast_ofNat] at hcast
  have hwrap : ((u : Int) % (2 ^ 64 * unitsPerNs : Int)).toNat = u := by
    rw [Int.emod_eq_of_lt (Int.natCast_nonneg u) hmod, Int.toNat_natCast]
  have hns : u / unitsPerNs < 2 ^ 64 := Nat.div_lt_of_lt_mul (by rwa [Nat.mul_comm])
  calc
    _ = (BitVec.ofNat 64 (((u : Int) % (2 ^ 64 * unitsPerNs : Int)).toNat / unitsPerNs)).toNat := rfl
    _ = u / unitsPerNs := by rw [hwrap, BitVec.toNat_ofNat, Nat.mod_eq_of_lt hns]

theorem setTimeUnits_eq_with_time (s : State) (u : Int) :
    ∃ now frac, setTimeUnits s u = { s with time := { s.time with ftime := now, frac := frac } } :=
  ⟨_, _, rfl⟩

/-- At the nominal rate fabric time stops on the first clock that is not before the edge, and a clock is shorter than 2 ns. -/
theorem toEdge_of_nominal_rate {s : State} (hslew : s.time.slew = 0) (hhold : rbit s 0x1004 4 = false)
    (hahead : s.time.ftime.toNat < s.time.nextEdge) (hbound : s.time.nextEdge < 2 ^ 63) (hfrac : s.time.frac < 21 * 10 ^ 9) :
    ∃ now frac clocks, toEdge s = { s with time := { s.time with ftime := now, frac := frac, clocks := clocks } } ∧
      s.time.nextEdge ≤ now.toNat ∧ now.toNat ≤ s.time.nextEdge + 1 := by
  have hbefore : timeUnits s < s.time.nextEdge * unitsPerNs := by
    simp only [timeUnits, unitsPerNs]
    omega
  have hle := le_ceilDiv_mul (s.time.nextEdge * unitsPerNs - timeUnits s) (b := unitsPerClock) (by decide)
  have hlt := ceilDiv_mul_lt (s.time.nextEdge * unitsPerNs - timeUnits s) (b := unitsPerClock) (by decide)
  obtain ⟨now, frac, hset⟩ := setTimeUnits_eq_with_time s
    (timeUnits s + ceilDiv (s.time.nextEdge * unitsPerNs - timeUnits s) unitsPerClock * unitsPerClock : Nat)
  have hnow := congrArg (fun t => t.time.ftime.toNat) hset
  refine ⟨now, frac, s.time.clocks + ceilDiv (s.time.nextEdge * unitsPerNs - timeUnits s) unitsPerClock, ?_, ?_⟩
  · rw [toEdge, if_neg (Nat.not_le.mpr hahead), if_pos ⟨hslew, hhold⟩]
    dsimp only
    rw [hset]
  · generalize ceilDiv (s.time.nextEdge * unitsPerNs - timeUnits s) unitsPerClock * unitsPerClock = passed at hle hlt hnow
    simp only [unitsPerNs, unitsPerClock] at hbefore hle hlt
    dsimp only at hnow
    rw [ftime_setTimeUnits s (by simp only [unitsPerNs]; omega), unitsPerNs] at hnow
    omega

/-! ### The slot edge (R129) -/

/-- The state on the control clock of the next edge, before the edge's effects: fabric time stands at `now`, and the edge after
it is planned. -/
def onEdgeClock (s : State) (now : BitVec 64) (frac clocks : Nat) (pulseEnd : Option Nat) : State :=
  { s with time := { s.time with
      ftime := now, frac := frac, clocks := clocks, pulseOutEnd := pulseEnd,
      nextEdge := s.time.nextEdge + lambda s, edges := s.time.edges + 1, atEdge := true } }

theorem atRest_onEdgeClock {s : State} (h : AtRest s) (now : BitVec 64) (frac clocks : Nat) (pulseEnd : Option Nat) :
    AtRest (onEdgeClock s now frac clocks pulseEnd) :=
  atRest_with_time h h.master h.step h.slew

/-- A pulse that falls due is raised and nothing more. -/
theorem pulseSince_eq_with_pulseOutEnd (s : State) (old : Nat) :
    ∃ p, pulseSince s old = { s with time := { s.time with pulseOutEnd := p } } := by
  unfold pulseSince
  split
  · exact ⟨_, rfl⟩
  · exact ⟨s.time.pulseOutEnd, rfl⟩

/-- The clock on which an edge is due brings a block at rest its pulse and the edge's effects. -/
theorem clockEffects_of_atRest {s : State} (h : AtRest s) (hdue : edgeDue s = true) (old n : Nat)
    (hstay : ∀ p, AtRest (applyStaged (onEdgeClock s s.time.ftime s.time.frac s.time.clocks p))) :
    ∃ p, clockEffects s old n = judgeRunning (applyStaged (onEdgeClock s s.time.ftime s.time.frac s.time.clocks p)) := by
  obtain ⟨p, hpulse⟩ := pulseSince_eq_with_pulseOutEnd s old
  have hrest : AtRest (pulseSince s old) := hpulse ▸ atRest_with_time h h.master h.step h.slew
  have hstill : edgeDue (pulseSince s old) = true := hpulse ▸ hdue
  have hafter := atRest_judgeRunning (hstay p)
  have hedge : edgeNow (pulseSince s old) =
      judgeRunning (applyStaged (onEdgeClock s s.time.ftime s.time.frac s.time.clocks p)) := by
    rw [hpulse]
    calc
      _ = masterSlot (edgeEffects (onEdgeClock s s.time.ftime s.time.frac s.time.clocks p) _) _ _ := rfl
      _ = _ := by rw [edgeEffects_of_atRest (atRest_onEdgeClock h _ _ _ p) (hstay p), masterSlot_of_atRest hafter]
  refine ⟨p, ?_⟩
  simp only [clockEffects, pumpClocks_of_atRest hrest, resetClocks_of_atRest hrest, wsFault_of_atRest hrest,
    tallyRuns_of_atRest hrest, hstill, if_true, hedge, masterClock_of_atRest hafter]
  exact matrixClock_of_atRest hafter

/-- Where a block at rest stands when SLOT_EDGE has run time to the edge's clock, and the edge has taken effect. -/
theorem reachEdge_of_atRest {s : State} (h : AtRest s) (hcounting : s.time.counting = true) (hhold : rbit s 0x1004 4 = false)
    (hahead : s.time.ftime.toNat < s.time.nextEdge) (hbound : s.time.nextEdge < 2 ^ 63) (hfrac : s.time.frac < 21 * 10 ^ 9)
    (hstay : ∀ now frac clocks p, AtRest (applyStaged (onEdgeClock s now frac clocks p))) :
    ∃ now frac clocks p, s.time.nextEdge ≤ now.toNat ∧ now.toNat ≤ s.time.nextEdge + 1 ∧
      reachEdge s = judgeRunning (applyStaged (onEdgeClock s now frac clocks p)) := by
  obtain ⟨now, frac, clocks, hto, hle, hlt⟩ := toEdge_of_nominal_rate h.slew hhold hahead hbound hfrac
  have hrest : AtRest (toEdge s) := hto ▸ atRest_with_time h h.master h.step h.slew
  have hdue : edgeDue (toEdge s) = true := by
    rw [hto, edgeDue, hcounting, Bool.true_and]
    exact decide_eq_true hle
  obtain ⟨p, hclock⟩ := clockEffects_of_atRest hrest hdue s.time.ftime.toNat ((toEdge s).time.clocks - s.time.clocks)
    (fun p => by rw [hto]; exact hstay _ _ _ p)
  refine ⟨now, frac, clocks, p, hle, hlt, ?_⟩
  simp only [reachEdge, leadClocks_of_atRest h, hcounting, and_self, if_true]
  rw [hclock, hto]
  rfl

/-- The state in which SLOT_EDGE lets time run: no command falls on the clocks that pass. -/
def withoutClockMarks (s : State) : State :=
  { s with time := { s.time with atEdge := false }, regs := { s.regs with before := none } }

theorem atRest_withoutClockMarks {s : State} (h : AtRest s) : AtRest (withoutClockMarks s) :=
  ⟨h.image, h.vintages, h.cooper, h.fabric, h.host, h.presses, h.tally, h.master, h.step, h.slew⟩

theorem oneStaged_onEdgeClock {s : State} {off : Nat} {v m : Word} (hst : OneStaged s off v m) (now : BitVec 64)
    (frac clocks : Nat) (pulseEnd : Option Nat) :
    OneStaged (onEdgeClock (withoutClockMarks s) now frac clocks pulseEnd) off v m :=
  ⟨hst.mask, hst.value, hst.notBin, hst.notBoot, hst.notStatus⟩

/-- After the edge a block at rest has no visits to make. -/
theorem slotEdge_of_atRest {s : State} (hcounting : s.time.counting = true) (h : AtRest (reachEdge (withoutClockMarks s))) :
    slotEdge s = reachEdge (withoutClockMarks s) := by
  have hkept : ∀ t, t = reachEdge (withoutClockMarks s) →
      { t with time := { t.time with atEdge := (reachEdge (withoutClockMarks s)).time.atEdge } } =
        reachEdge (withoutClockMarks s) := by
    rintro _ rfl
    rfl
  exact (if_pos hcounting).trans (hkept _ (visitClocks_of_atRest h _))

/-- Settles O38. The edge's clock finds a block at rest with nothing to do but to apply the staged value and to judge RUNNING. -/
theorem slotEdgeAppliesStaged : Obligations.SlotEdgeAppliesStaged := by
  unfold Obligations.SlotEdgeAppliesStaged
  intro s off v m h hcounting hhold hahead hbound hfrac hmask hval hoff hbin
  simp only [List.mem_cons, List.not_mem_nil, or_false, not_or] at hoff
  obtain ⟨hboot, hstatus, -⟩ := hoff
  have hbegin := atRest_withoutClockMarks h
  have hstaged := oneStaged_onEdgeClock ⟨hmask, hval, hbin, hboot, hstatus⟩
  obtain ⟨now, frac, clocks, p, hle, hlt, hreach⟩ := reachEdge_of_atRest hbegin hcounting hhold hahead hbound hfrac
    fun now frac clocks p => atRest_applyStaged (hstaged now frac clocks p) (atRest_onEdgeClock hbegin now frac clocks p)
  replace hstaged := hstaged now frac clocks p
  have hclock := atRest_onEdgeClock hbegin now frac clocks p
  have hedge := atRest_judgeRunning (atRest_applyStaged hstaged hclock)
  rw [← hreach] at hedge
  have hexec : exec .slotEdge s = .next (judgeRunning (applyStaged (onEdgeClock (withoutClockMarks s) now frac clocks p))) :=
    congrArg Host.Outcome.next ((slotEdge_of_atRest hcounting hedge).trans hreach)
  have hframe := judgeRunning_applyStaged_frame hstaged hclock
  have htime := congrArg State.time hframe
  obtain ⟨hvalues, hmasks⟩ := staged_judgeRunning_applyStaged hstaged hclock
  refine ⟨_, hexec, ?now, ?bound, ?next, ?edges, ?atEdge, ?value, hvalues, hmasks, ?running, ?others, ?frame⟩
  case now => exact hle.trans_eq (congrArg (·.ftime.toNat) htime).symm
  case bound => exact (congrArg (·.ftime.toNat) htime).trans_le hlt
  case next => exact congrArg Time.nextEdge htime
  case edges => exact congrArg Time.edges htime
  case atEdge => exact congrArg Time.atEdge htime
  case value => exact rget_judgeRunning_applyStaged_self hstaged hclock
  case running => exact running_judgeRunning_applyStaged hstaged hclock
  case others => exact fun o ho hrun => rget_judgeRunning_applyStaged_ne hstaged hclock ho hrun
  case frame => exact congrArg (fun u : State => { u with time := s.time, regs := s.regs }) hframe

end Sys2Proof.Proofs.Architecture
end

section
/-!
PROOFS. The canonical form of the memory (R24, R51): which commands the keeping lemmas leave out, and that these do not
write to it.
-/
namespace Sys2Proof.Proofs.CanonicalMemory
open Sys2Proof.Machine

theorem mem_showPins (s : State) : (showPins s).mem = s.mem := by
  unfold showPins
  split <;> rfl

theorem mem_samplePreload (s : State) (load : Option Nat) : (samplePreload s load).mem = s.mem := by
  cases load <;> rfl

theorem mem_tapRecord (s : State) (st : Nat) (uncorrectable : Bool) : (tapRecord s st uncorrectable).mem = s.mem := by
  unfold tapRecord
  split
  · rfl
  · dsimp only
    split <;> rfl

theorem mem_statement (s : State) : (statement s).mem = s.mem := by
  unfold statement
  split <;> rfl

theorem mem_periodic (s : State) : (periodic s).mem = s.mem := by
  unfold periodic
  split <;> rfl

theorem mem_finalCheckpoint (s : State) (completes : Bool) : (finalCheckpoint s completes).mem = s.mem := by
  unfold finalCheckpoint
  split <;> rfl

theorem mem_tallyRestore (s : State) : (tallyRestore s).mem = s.mem := by
  unfold tallyRestore
  split <;> rfl

/-- The test access port, the tally and the thermal trip do not write to the memory. -/
theorem mem_exec_of_outsideKeep {s t : State} {c : Instr} (hc : outsideKeep c = true) (h : exec c s = .next t) :
    t.mem = s.mem := by
  cases c with
  | thermTrip | tallyHoldup | refclkRestored | idcode | highz | bypass | testLogicReset =>
    obtain rfl := Host.Outcome.next.inj h
    rfl
  | extest | clamp => exact Host.Outcome.next.inj h ▸ mem_showPins _
  | samplePreload load => exact Host.Outcome.next.inj h ▸ mem_samplePreload _ load
  | tapRecord st uncorrectable => exact Host.Outcome.next.inj h ▸ mem_tapRecord s st uncorrectable
  | statement => exact Host.Outcome.next.inj h ▸ mem_statement s
  | periodicCheckpoint => exact Host.Outcome.next.inj h ▸ mem_periodic s
  | finalCheckpoint completes => exact Host.Outcome.next.inj h ▸ mem_finalCheckpoint s completes
  | tallyRestore => exact Host.Outcome.next.inj h ▸ mem_tallyRestore s
  | _ => exact Bool.noConfusion hc

/-- No command takes the memory out of its canonical form. -/
theorem exec_keeps_wf {s t : State} {c : Instr} (h : exec c s = .next t) (hwf : Memory.wf s.mem = true) :
    Memory.wf t.mem = true := by
  cases hc : outsideKeep c with
  | false => exact (exec_keep s c hc t h).mem hwf
  | true => exact mem_exec_of_outsideKeep hc h ▸ hwf

/-- Settles O5: a control clock keeps the canonical form, and so does the command at the front of the queue. -/
theorem stepKeepsMemoryCanonical : Obligations.StepKeepsMemoryCanonical := by
  unfold Obligations.StepKeepsMemoryCanonical
  intro s t hwf hstep
  unfold step at hstep
  split at hstep
  · obtain rfl := Host.Outcome.next.inj hstep
    exact (keep_clockTick Keep.refl).mem hwf
  · exact exec_keeps_wf hstep hwf

end Sys2Proof.Proofs.CanonicalMemory
end

section
/-!
PROOFS. The over-quota bits of ports and streams (R43, R55).
-/
namespace Sys2Proof.Proofs.OverQuota
open Sys2Proof.Machine

/-! ### Bits gathered into a word -/

/-- The number whose bits are those of `f` below `n`. -/
def bitsNat (f : Nat → Bool) (n : Nat) : Nat := ((List.range n).map (fun i => if f i then 2 ^ i else 0)).sum

theorem bitsWord_eq_ofNat (f : Nat → Bool) (n : Nat) : bitsWord f n = BitVec.ofNat 32 (bitsNat f n) := rfl

theorem bitsNat_succ (f : Nat → Bool) (n : Nat) : bitsNat f (n + 1) = bitsNat f n + if f n then 2 ^ n else 0 := by
  simp [bitsNat, List.range_succ]

theorem bitsNat_lt (f : Nat → Bool) (n : Nat) : bitsNat f n < 2 ^ n := by
  induction n with
  | zero => exact Nat.zero_lt_one
  | succ n ih =>
    rw [bitsNat_succ, Nat.pow_succ]
    split <;> omega

theorem testBit_bitsNat (f : Nat → Bool) {n i : Nat} (hi : i < n) : (bitsNat f n).testBit i = f i := by
  induction n with
  | zero => exact absurd hi (Nat.not_lt_zero i)
  | succ n ih =>
    rw [bitsNat_succ]
    rcases Nat.lt_succ_iff_lt_or_eq.mp hi with hlt | rfl
    · rw [← ih hlt]
      split
      · rw [Nat.add_comm, Nat.testBit_two_pow_add_gt hlt]
      · rfl
    · have htop := Nat.testBit_lt_two_pow (bitsNat_lt f i)
      cases hf : f i with
      | false => simpa using htop
      | true => simp [Nat.add_comm, Nat.testBit_two_pow_add_eq, htop]

theorem bitAt_bitsWord (f : Nat → Bool) {n i : Nat} (hi : i < n) (hn : n ≤ 32) : bitAt (bitsWord f n) i = f i := by
  rw [bitsWord_eq_ofNat, bitAt, BitVec.getLsbD_ofNat, testBit_bitsNat f hi, decide_eq_true (hi.trans_le hn), Bool.true_and]

/-! ### The registers of R43 -/

theorem regLive_overqPort_low (s : State) : regLive s 0x2028 = bitsWord (overqPort s) 32 := rfl

theorem regLive_overqPort_high (s : State) : regLive s 0x202C = bitsWord (fun i => overqPort s (32 + i)) 16 := rfl

theorem regLive_overqStream (s : State) {j : Nat} (hj : j < 8) :
    regLive s (0x2030 + 4 * j) = bitsWord (fun i => overqStream s (32 * j + i)) 32 := by
  interval_cases j <;> rfl

theorem regLive_cellarStatus (s : State) : regLive s 0x2000 = cellarStatus s := rfl

/-- The bit of port `n`. -/
theorem bitAt_overqPort (s : State) {n : Nat} (hn : n < 48) :
    bitAt (regLive s (0x2028 + 4 * (n / 32))) (n % 32) = overqPort s n := by
  rcases Nat.lt_or_ge n 32 with hlow | hhigh
  · rw [Nat.div_eq_of_lt hlow, Nat.mod_eq_of_lt hlow, regLive_overqPort_low]
    exact bitAt_bitsWord _ hlow le_rfl
  · have hdiv : n / 32 = 1 := by omega
    have hbit : n % 32 < 16 := by omega
    have hn : 32 + n % 32 = n := by omega
    rw [hdiv, regLive_overqPort_high, bitAt_bitsWord _ hbit (by decide), hn]

/-- The bit of stream `k`. -/
theorem bitAt_overqStream (s : State) {k : Nat} (hk : k < 256) :
    bitAt (regLive s (0x2030 + 4 * (k / 32))) (k % 32) = overqStream s k := by
  rw [regLive_overqStream s (Nat.div_lt_of_lt_mul hk), bitAt_bitsWord _ (Nat.mod_lt k (by decide)) le_rfl,
    Nat.div_add_mod]

/-- ANY_OVERQ. -/
theorem bitAt_cellarStatus_anyOverq (s : State) :
    bitAt (cellarStatus s) 6 = ((List.range 48).any (overqPort s) || (List.range 256).any (overqStream s)) := by
  rw [cellarStatus, bitAt, BitVec.getLsbD_or, BitVec.getLsbD_and, show (0x27#32).getLsbD 6 = false from rfl, Bool.and_false,
    Bool.false_or]
  generalize ((List.range 48).any (overqPort s) || (List.range 256).any (overqStream s)) = anyq
  split <;> cases anyq <;> rfl

/-- Settles O45: each bit compares occupancy and quota, and ANY_OVERQ gathers the same comparisons. -/
theorem overQuotaBits : Obligations.OverQuotaBits := by
  unfold Obligations.OverQuotaBits
  intro s
  refine ⟨fun n hn => bitAt_overqPort s hn, fun k hk => bitAt_overqStream s hk, ?any⟩
  case any =>
    rw [regLive_cellarStatus, bitAt_cellarStatus_anyOverq, Bool.or_eq_true, List.any_eq_true, List.any_eq_true]
    refine or_congr (exists_congr fun n => ?_) (exists_congr fun k => ?_)
    · rw [List.mem_range]
      exact and_congr_right fun hn => by rw [bitAt_overqPort s hn]
    · rw [List.mem_range]
      exact and_congr_right fun hk => by rw [bitAt_overqStream s hk]

end Sys2Proof.Proofs.OverQuota
end

section
/-!
PROOFS. The end of boot (R52, R119, R120, R443): what an edge leaves alone when nothing waits for it, and CELLAR_READY after
a cold reset.
-/
namespace Sys2Proof.Proofs.EndOfBoot
open Sys2Proof.Machine

/-! ### Parts of an edge that have nothing to do -/

theorem applyStaged_of_none_staged {s : State} (h : s.regs.stagedMask = []) : applyStaged s = s := by
  rw [applyStaged, h, List.map_nil, List.foldl_nil]

theorem vintageEdge_of_not_built {s : State} (h : s.vint.built = false) : vintageEdge s = s := by
  rw [vintageEdge, h, if_neg Bool.false_ne_true]

theorem resumeCredits_of_no_ports {s : State} (h : s.fab.ports = []) (n : Nat) : resumeCredits s n = s := by
  have hkept : (getPort s n).kept = [0, 0, 0, 0] := by rw [getPort, h, smGet]
  simp [resumeCredits, hkept]

theorem drainPool_of_none_waiting {s : State} (hpool : s.fab.poolWait = []) (hexport : s.door.xwait = []) :
    drainPool s = s := by
  rw [drainPool, hpool, List.foldl_nil, drainExport]
  simp only [hexport, List.foldl_nil]
  rw [← hpool, ← hexport]

theorem quotaEdge_of_no_ports {s : State} (hports : s.fab.ports = []) (hpool : s.fab.poolWait = [])
    (hexport : s.door.xwait = []) : quotaEdge s = s := by
  have hcredits : (List.range 48).foldl resumeCredits s = s := List.foldl_fixed' (resumeCredits_of_no_ports hports) _
  rw [quotaEdge, hcredits, drainPool_of_none_waiting hpool hexport]

theorem revolution_of_no_counts {s : State} (hstarved : s.coop.starved = []) (hce : s.coop.binCe = []) :
    revolution s = s := by
  have hstarve : starveAlarms s = s := by
    simp only [starveAlarms, hstarved, List.filter_nil, List.foldl_nil]
    rw [← hstarved]
  rw [revolution, hstarve]
  simp only [ceLimits, hce, List.filter_nil, List.foldl_nil]
  rw [← hce]

theorem moveDecode_of_none_done {s : State} (h : s.coop.remapDone = []) : moveDecode s = s := by
  simp only [moveDecode, h, List.filter_nil, List.foldl_nil]
  rw [← h]

theorem masterSlot_of_not_loaded {s : State} (h : loaded s = false) (k rev : Nat) : masterSlot s k rev = s := by
  rw [masterSlot, h, if_neg Bool.false_ne_true]

/-! ### A fresh block: no image, nothing waiting and nothing staged -/

/-- What READY finds after a cold reset. Unlike `Claims.AtRest` this says nothing of the presses and the tally, and it has nothing
staged. -/
structure Fresh (s : State) : Prop where
  image : loaded s = false
  vintages : s.vint.built = false
  cooper : s.coop = {}
  fabric : s.fab = {}
  host : s.door = {}
  staged : s.regs.stagedMask = []

section Fresh
variable {s : State} (h : Fresh s)
include h

theorem fresh_with_time_boot (t : Time) (b : Boot) : Fresh { s with time := t, boot := b } :=
  ⟨h.image, h.vintages, h.cooper, h.fabric, h.host, h.staged⟩

theorem fresh_rsetBit {off : Nat} (hoff : off ≠ 0x0014) (i : Nat) (b : Bool) : Fresh (rsetBit s off i b) :=
  ⟨(Architecture.loaded_rset_ne s hoff _).trans h.image, h.vintages, h.cooper, h.fabric, h.host, h.staged⟩

/-- RUNNING falls when RUN is clear, and without an image it does not rise (R144). -/
theorem judgeRunning_of_fresh : judgeRunning s = if rbit s 0x1000 0 = true then s else rsetBit s 0x1004 1 false := by
  cases hrun : rbit s 0x1000 0 <;> simp [judgeRunning, hrun, h.image]

theorem fresh_judgeRunning : Fresh (judgeRunning s) := by
  rw [judgeRunning_of_fresh h]
  split
  · exact h
  · exact fresh_rsetBit h (by decide) _ _

theorem judgeRunning_frame : { judgeRunning s with regs := s.regs } = s := by
  rw [judgeRunning_of_fresh h]
  split <;> rfl

theorem rget_judgeRunning_ne {o : Nat} (ho : o ≠ 0x1004) : rget (judgeRunning s) o = rget s o := by
  rw [judgeRunning_of_fresh h]
  split
  · rfl
  · exact rget_rsetBit_ne s ho _ _

theorem rbit_judgeRunning_running : rbit (judgeRunning s) 0x1004 1 = (rbit s 0x1004 1 && rbit s 0x1000 0) := by
  rw [judgeRunning_of_fresh h]
  split
  · next hrun => rw [hrun, Bool.and_true]
  · next hrun =>
    rw [Bool.eq_false_iff.mpr hrun, Bool.and_false, rbit, rget_rsetBit_self, bitAt_setBit_self _ (by decide)]

theorem rbit_judgeRunning_ne {i : Nat} (hi : i ≠ 1) : rbit (judgeRunning s) 0x1004 i = rbit s 0x1004 i := by
  rw [judgeRunning_of_fresh h]
  split
  · rfl
  · rw [rbit, rget_rsetBit_self, bitAt_setBit_ne _ hi, rbit]

/-- An edge judges RUNNING and does nothing more. -/
theorem edgeEffects_of_fresh (k : Nat) : edgeEffects s k = judgeRunning s := by
  have hj := fresh_judgeRunning h
  simp only [edgeEffects, vintageEdge_of_not_built h.vintages, applyStaged_of_none_staged h.staged,
    quotaEdge_of_no_ports (congrArg Fabric.ports hj.fabric) (congrArg Fabric.poolWait hj.fabric)
      (congrArg Door.xwait hj.host),
    revolution_of_no_counts (congrArg Coop.starved hj.cooper) (congrArg Coop.binCe hj.cooper), ite_self,
    moveDecode_of_none_done (congrArg Coop.remapDone hj.cooper)]

theorem releaseDoor_of_fresh : releaseDoor s = s := by
  unfold releaseDoor
  split
  · rfl
  · simp only [h.host, List.foldl_nil]
    rw [← h.host]

theorem releaseFabric_of_fresh (write : RegWr) : releaseFabric write s = s := by
  unfold releaseFabric
  split
  · simp only [h.host, List.foldl_nil]
    rw [← h.host]
  · rfl

end Fresh

theorem doorBoot_of_other_strap {s : State} (h : strapBoot s ≠ 2) : doorBoot s = s := by
  simp [doorBoot, h]

/-! ### The role of fabric time (R120) -/

/-- Role FREE makes fabric time valid and locked. -/
def roleTaken (s : State) : State :=
  if timeRole s = 0 then rsetBit (rsetBit s 0x1004 2 true) 0x1004 3 true else s

/-- The times of R125 count from the taking of the role. -/
theorem takeRole_of_counting {s : State} (h : s.time.counting = true) :
    takeRole s = roleTaken { s with time := { s.time with srcAt := s.time.clocks, linkAt := s.time.clocks } } := by
  simp only [takeRole, h, and_true]
  rfl

/-- On the first clock of counting those times stand at that clock already. -/
theorem takeRole_of_first_clock {s : State} (h : s.time = { counting := true }) : takeRole s = roleTaken s := by
  have hsame : { s.time with srcAt := s.time.clocks, linkAt := s.time.clocks } = s.time := by rw [h]
  exact (takeRole_of_counting (congrArg Time.counting h)).trans
    (congrArg (fun t => roleTaken { s with time := t }) hsame)

theorem rget_roleTaken_ne (s : State) {o : Nat} (ho : o ≠ 0x1004) : rget (roleTaken s) o = rget s o := by
  unfold roleTaken
  split
  · rw [rget_rsetBit_ne _ ho, rget_rsetBit_ne _ ho]
  · rfl

theorem rbit_roleTaken_running (s : State) : rbit (roleTaken s) 0x1004 1 = rbit s 0x1004 1 := by
  unfold roleTaken
  split
  · rw [rbit, rget_rsetBit_self, bitAt_setBit_ne _ (by decide), rget_rsetBit_self, bitAt_setBit_ne _ (by decide), rbit]
  · rfl

theorem rbit_roleTaken_of_free {s : State} (h : timeRole s = 0) :
    rbit (roleTaken s) 0x1004 2 = true ∧ rbit (roleTaken s) 0x1004 3 = true := by
  rw [roleTaken, if_pos h, rbit, rbit, rget_rsetBit_self, rget_rsetBit_self]
  exact ⟨(bitAt_setBit_ne _ (by decide) _).trans (bitAt_setBit_self _ (by decide) _), bitAt_setBit_self _ (by decide) _⟩

theorem roleTaken_of_not_free {s : State} (h : timeRole s ≠ 0) : roleTaken s = s := if_neg h

theorem roleTaken_frame (s : State) : { roleTaken s with regs := s.regs } = s := by
  unfold roleTaken
  split <;> rfl

theorem fresh_roleTaken {s : State} (h : Fresh s) : Fresh (roleTaken s) := by
  unfold roleTaken
  split
  · exact fresh_rsetBit (fresh_rsetBit h (by decide) _ _) (by decide) _ _
  · exact h

/-! ### The edge at instant 0 -/

/-- The state on the clock of the edge at `nextEdge`, before the edge's effects. -/
def atFirstEdge (s : State) : State :=
  { s with time := { s.time with nextEdge := s.time.nextEdge + lambda s, edges := s.time.edges + 1, atEdge := true } }

theorem fresh_atFirstEdge {s : State} (h : Fresh s) : Fresh (atFirstEdge s) := fresh_with_time_boot h _ s.boot

theorem edgeIfDue_of_fresh {s : State} (h : Fresh s) (hdue : edgeDue s = true) :
    edgeIfDue s = judgeRunning (atFirstEdge s) := by
  have hclock := fresh_atFirstEdge h
  calc
    edgeIfDue s = masterSlot (edgeEffects (atFirstEdge s) _) _ _ := if_pos hdue
    _ = judgeRunning (atFirstEdge s) := by
      rw [edgeEffects_of_fresh hclock, masterSlot_of_not_loaded (fresh_judgeRunning hclock).image]

/-! ### CELLAR_READY -/

/-- The march's end, and READY. -/
def readySet (s : State) : State := rsetBit (rsetBit s 0x2000 2 false) 0x2000 0 true

/-- The block at READY, before fabric time takes its role. -/
def booted (s : State) : State :=
  { readySet s with boot := { s.boot with power := .up }, time := { s.time with counting := true, nextEdge := 0 } }

theorem rget_booted_ne (s : State) {o : Nat} (ho : o ≠ 0x2000) : rget (booted s) o = rget s o :=
  (rget_rsetBit_ne (rsetBit s 0x2000 2 false) ho 0 true).trans (rget_rsetBit_ne s ho 2 false)

theorem rget_booted_status (s : State) : rget (booted s) 0x2000 = setBit (setBit (rget s 0x2000) 2 false) 0 true :=
  (rget_rsetBit_self (rsetBit s 0x2000 2 false) 0x2000 0 true).trans (by rw [rget_rsetBit_self])

theorem fresh_booted {s : State} (h : Fresh s) : Fresh (booted s) :=
  fresh_with_time_boot (fresh_rsetBit (fresh_rsetBit h (by decide) 2 false) (by decide) 0 true) _ _

theorem timeRole_booted (s : State) : timeRole (booted s) = timeRole s := by
  unfold timeRole rfld
  rw [rget_booted_ne s (by decide)]

/-- A cold boot without a failed row has nothing to remap or to scrub before READY. -/
theorem cellarReady_cold {s : State} (hpower : s.boot.power = .march) (hwarm : s.boot.warm = false) (edge : State → State) :
    cellarReady edge s [] =
      doorBoot (releaseFabric (regWriteCore 32) (releaseDoor (edge (takeRole (booted s))))) := by
  simp [cellarReady, hpower, hwarm, booted, readySet]

/-- The clock of the end of boot: the role taken, and the edge at instant 0 begun. -/
def firstClock (s : State) : State := atFirstEdge (roleTaken (booted s))

theorem fresh_firstClock {s : State} (h : Fresh s) : Fresh (firstClock s) :=
  fresh_atFirstEdge (fresh_roleTaken (fresh_booted h))

theorem rget_firstClock_ne (s : State) {o : Nat} (hcal : o ≠ 0x1004) (hcellar : o ≠ 0x2000) :
    rget (firstClock s) o = rget s o :=
  (rget_roleTaken_ne (booted s) hcal).trans (rget_booted_ne s hcellar)

theorem rget_firstClock_status (s : State) :
    rget (firstClock s) 0x2000 = setBit (setBit (rget s 0x2000) 2 false) 0 true :=
  (rget_roleTaken_ne (booted s) (by decide)).trans (rget_booted_status s)

theorem rbit_firstClock_running (s : State) : rbit (firstClock s) 0x1004 1 = rbit s 0x1004 1 :=
  (rbit_roleTaken_running (booted s)).trans (congrArg (bitAt · 1) (rget_booted_ne s (by decide)))

theorem rbit_firstClock_of_free {s : State} (h : timeRole s = 0) :
    rbit (firstClock s) 0x1004 2 = true ∧ rbit (firstClock s) 0x1004 3 = true :=
  rbit_roleTaken_of_free ((timeRole_booted s).trans h)

theorem rget_firstClock_of_not_free {s : State} (h : timeRole s ≠ 0) : rget (firstClock s) 0x1004 = rget s 0x1004 := by
  calc
    rget (firstClock s) 0x1004 = rget (roleTaken (booted s)) 0x1004 := rfl
    _ = rget (booted s) 0x1004 := by rw [roleTaken_of_not_free (timeRole_booted s ▸ h)]
    _ = rget s 0x1004 := rget_booted_ne s (by decide)

theorem lambda_roleTaken_booted (s : State) : lambda (roleTaken (booted s)) = slotNs (rfld s 0x1008 5 3) := by
  rw [lambda, rfld, rget_roleTaken_ne _ (by decide), rget_booted_ne s (by decide), rfld]

theorem boot_firstClock (s : State) : (firstClock s).boot = { s.boot with power := .up } :=
  congrArg State.boot (roleTaken_frame (booted s))

theorem firstClock_frame (s : State) : { firstClock s with regs := s.regs, boot := s.boot, time := s.time } = s :=
  congrArg (fun u : State => { u with regs := s.regs, boot := s.boot, time := s.time }) (roleTaken_frame (booted s))

section Cold
variable {s : State} (htime : s.time = {})
include htime

theorem time_booted : (booted s).time = { counting := true } := by
  rw [booted, htime]

theorem time_roleTaken_booted : (roleTaken (booted s)).time = { counting := true } :=
  (congrArg State.time (roleTaken_frame (booted s))).trans (time_booted htime)

theorem time_firstClock :
    (firstClock s).time = { counting := true, nextEdge := slotNs (rfld s 0x1008 5 3), edges := 1, atEdge := true } := by
  rw [firstClock, atFirstEdge, time_roleTaken_booted htime, lambda_roleTaken_booted, Nat.zero_add]

/-- READY of a fresh block that counts from instant 0: the edge of that clock judges RUNNING, and nothing waits to proceed. -/
theorem exec_cellarReady_of_fresh (hpower : s.boot.power = .march) (hwarm : s.boot.warm = false) (h : Fresh s)
    (hstrap : strapBoot s ≠ 2) : exec (.cellarReady []) s = .next (judgeRunning (firstClock s)) := by
  have htaken : takeRole (booted s) = roleTaken (booted s) :=
    takeRole_of_first_clock (time_booted htime)
  have hdue : edgeDue (roleTaken (booted s)) = true := by
    rw [edgeDue, time_roleTaken_booted htime]
    rfl
  have hedge : edgeIfDue (takeRole (booted s)) = judgeRunning (firstClock s) := by
    rw [htaken, edgeIfDue_of_fresh (fresh_roleTaken (fresh_booted h)) hdue, firstClock]
  have hclock := fresh_firstClock h
  have hafter := fresh_judgeRunning hclock
  have hother : strapBoot (judgeRunning (firstClock s)) ≠ 2 := by
    rw [strapBoot, rfld, rget_judgeRunning_ne hclock (by decide), rget_firstClock_ne s (by decide) (by decide)]
    exact hstrap
  calc
    exec (.cellarReady []) s = .next (cellarReady edgeIfDue s []) := rfl
    _ = .next (judgeRunning (firstClock s)) := by
      rw [cellarReady_cold hpower hwarm, hedge, releaseDoor_of_fresh hafter, releaseFabric_of_fresh hafter,
        doorBoot_of_other_strap hother]

end Cold

/-- Settles O22. The role is taken first, and the edge at instant 0 then judges RUNNING on the same clock. -/
theorem cellarReadyEndsBoot : Obligations.CellarReadyEndsBoot := by
  unfold Obligations.CellarReadyEndsBoot
  intro s hpower hwarm htime hdoor hcoop hfab hvint _ hmask himage hstrap
  have h : Fresh s := ⟨himage, hvint, hcoop, hfab, hdoor, hmask⟩
  have hclock := fresh_firstClock h
  have hframe := judgeRunning_frame hclock
  have hstatus : rget (judgeRunning (firstClock s)) 0x2000 = setBit (setBit (rget s 0x2000) 2 false) 0 true :=
    (rget_judgeRunning_ne hclock (by decide)).trans (rget_firstClock_status s)
  refine ⟨_, exec_cellarReady_of_fresh htime hpower hwarm h hstrap, ?ready, ?march, ?boot, ?time, ?free, ?otherRole,
    ?running, ?registers, ?frame⟩
  case ready =>
    rw [ready, rbit, hstatus, bitAt_setBit_self _ (by decide)]
  case march =>
    rw [rbit, hstatus, bitAt_setBit_ne _ (by decide), bitAt_setBit_self _ (by decide)]
  case boot => exact (congrArg State.boot hframe).trans (boot_firstClock s)
  case time => exact (congrArg State.time hframe).trans (time_firstClock htime)
  case free =>
    intro hrole
    rw [rbit_judgeRunning_ne hclock (by decide), rbit_judgeRunning_ne hclock (by decide)]
    exact rbit_firstClock_of_free hrole
  case otherRole =>
    intro hrole
    rw [rbit_judgeRunning_ne hclock (by decide), rbit_judgeRunning_ne hclock (by decide)]
    simp only [rbit, rget_firstClock_of_not_free hrole, and_self]
  case running =>
    rw [rbit_judgeRunning_running hclock, rbit_firstClock_running, rbit, rbit, rbit,
      rget_firstClock_ne s (by decide) (by decide)]
  case registers =>
    exact fun o hcal hcellar => (rget_judgeRunning_ne hclock hcal).trans (rget_firstClock_ne s hcal hcellar)
  case frame =>
    exact (congrArg (fun u : State => { u with regs := s.regs, boot := s.boot, time := s.time }) hframe).trans
      (firstClock_frame s)

end Sys2Proof.Proofs.EndOfBoot
end

section
/-!
PROOFS. Fabric time beside its counting: the pulses out and in (R121, R126, R494), the alternate source and holdover (R125),
and REACQUIRE (R123, R143).
-/
namespace Sys2Proof.Proofs.TimePulses
open Sys2Proof.Machine

/-! ### FTIME_PULSE_OUT (R126) -/

theorem poutPeriod_of_none_selected {s : State} (h : rfld s 0x1008 3 2 = 0) : poutPeriod s = 0 := by
  simp only [poutPeriod, h]

theorem atInstant_of_none_selected {s : State} (h : rfld s 0x1008 3 2 = 0) : atInstant s = false := by
  rw [atInstant, poutPeriod_of_none_selected h, bne_self_eq_false, Bool.false_and]

theorem pulseOut_of_instant {s : State} (hcounting : s.time.counting = true) (hinstant : atInstant s = true) :
    pulseOut s = raisePulse s := by
  rw [pulseOut, hcounting, hinstant, Bool.and_self, if_pos rfl]

theorem pulseOut_of_no_instant {s : State} (h : s.time.counting = false ∨ atInstant s = false) : pulseOut s = s := by
  rw [pulseOut, Bool.and_eq_false_iff.mpr h, if_neg Bool.false_ne_true]

/-- A pulse that is raised changes its own end and nothing else. -/
theorem pulseOut_eq_with_pulseOutEnd (s : State) :
    ∃ p, pulseOut s = { s with time := { s.time with pulseOutEnd := p } } := by
  unfold pulseOut
  split
  · exact ⟨_, rfl⟩
  · exact ⟨s.time.pulseOutEnd, rfl⟩

/-! ### CAL.EPOCH and the edge after it (R121, R130) -/

theorem epoch_lt (s : State) : epoch s < 2 ^ 64 := by
  have hlo := (rget s 0x1020).isLt
  have hhi := (rget s 0x1024).isLt
  unfold epoch
  omega

theorem lambda_pos (s : State) : 0 < lambda s := by
  unfold lambda slotNs
  split <;> decide

/-- A whole number of nanoseconds within fabric time is set as it is. -/
theorem setTimeUnits_of_whole (s : State) {n : Nat} (h : n < 2 ^ 64) :
    setTimeUnits s ((n * unitsPerNs : Nat) : Int) =
      { s with time := { s.time with ftime := BitVec.ofNat 64 n, frac := 0 } } := by
  have hpos : 0 < unitsPerNs := by decide
  have hlt : ((n * unitsPerNs : Nat) : Int) < 2 ^ 64 * (unitsPerNs : Int) := by
    exact_mod_cast Nat.mul_lt_mul_of_pos_right h hpos
  have hwrap : (((n * unitsPerNs : Nat) : Int) % (2 ^ 64 * unitsPerNs : Int)).toNat = n * unitsPerNs := by
    rw [Int.emod_eq_of_lt (Int.natCast_nonneg _) hlt, Int.toNat_natCast]
  simp only [setTimeUnits, hwrap, Nat.mul_div_cancel n hpos, Nat.mul_mod_left]

/-- In any unit, the multiple of `b` that is reached next from an `a` between two of them. -/
theorem ceilDiv_mul_mul_of_not_multiple {a b u : Nat} (hu : 0 < u) (hb : 0 < b) (h : a % b ≠ 0) :
    ceilDiv (a * u) (b * u) = a / b + 1 := by
  have hle := Architecture.le_ceilDiv_mul (a * u) (Nat.mul_pos hb hu)
  have hlt := Architecture.ceilDiv_mul_lt (a * u) (Nat.mul_pos hb hu)
  generalize ceilDiv (a * u) (b * u) = c at hle hlt ⊢
  rw [← Nat.mul_assoc] at hle hlt
  rw [← Nat.add_mul] at hlt
  have hle : a ≤ c * b := Nat.le_of_mul_le_mul_right hle hu
  have hlt : c * b < a + b := Nat.lt_of_mul_lt_mul_right hlt
  have hdiv := Nat.div_add_mod' a b
  have hmod := Nat.mod_lt a hb
  have hmore : a / b < c := Nat.lt_of_mul_lt_mul_right (a := b) (by omega)
  have hless : c < a / b + 2 := Nat.lt_of_mul_lt_mul_right (a := b) (by rw [Nat.add_mul]; omega)
  omega

/-! ### FTIME_PULSE_IN (R121, R494) -/

theorem edgeIfDue_of_not_due {s : State} (h : edgeDue s = false) : edgeIfDue s = s := by
  rw [edgeIfDue, h, if_neg Bool.false_ne_true]

theorem pulseReceived_of_dropped (s : State) : pulseReceived s false = s := rfl

theorem pulseReceived_of_too_soon {s : State} {p : Nat} (hlast : s.time.lastPulse = some p)
    (hsoon : s.time.clocks < p + 52500) (stayedHigh : Bool) : pulseReceived s stayedHigh = s := by
  have h : pulseTooSoon s = true := by
    simp only [pulseTooSoon, hlast, decide_eq_true_eq]
    omega
  rw [pulseReceived, h, Bool.not_true, Bool.and_false, if_neg Bool.false_ne_true]

/-- The first pulse taken: fabric time stands at CAL.EPOCH and is valid, and the edge after it is planned. -/
def firstPulse (s : State) (pulseEnd : Option Nat) : State :=
  { setValid s with time := { s.time with
      ftime := BitVec.ofNat 64 (epoch s), frac := 0, nextEdge := (epoch s / lambda s + 1) * lambda s, pulsed := true,
      pulseOutEnd := pulseEnd, lastPulse := some s.time.clocks, linkAt := s.time.clocks } }

/-- The first pulse before the edge is planned: fabric time is set and valid (R121). -/
def atEpoch (s : State) : State :=
  { setValid s with time := { s.time with ftime := BitVec.ofNat 64 (epoch s), frac := 0, pulsed := true } }

theorem rget_atEpoch_ne (s : State) {o : Nat} (ho : o ≠ 0x1004) : rget (atEpoch s) o = rget s o :=
  rget_rsetBit_ne s ho 2 true

theorem lambda_atEpoch (s : State) : lambda (atEpoch s) = lambda s := by
  rw [lambda, rfld, rget_atEpoch_ne s (by decide), lambda, rfld]

theorem timeUnits_atEpoch (s : State) : timeUnits (atEpoch s) = epoch s * unitsPerNs := by
  rw [timeUnits, atEpoch, BitVec.toNat_ofNat, Nat.mod_eq_of_lt (epoch_lt s), Nat.add_zero]

/-- An epoch between two edges plans the later one. -/
theorem jumpEdge_atEpoch {s : State} (hbetween : epoch s % lambda s ≠ 0) :
    jumpEdge (atEpoch s) = { atEpoch s with time := { (atEpoch s).time with
      nextEdge := (epoch s / lambda s + 1) * lambda s } } := by
  rw [jumpEdge, timeUnits_atEpoch, lambda_atEpoch,
    ceilDiv_mul_mul_of_not_multiple (by decide) (lambda_pos s) hbetween]

theorem pulseIn_of_first {s : State} (hrole : timeRole s = 1) (hpulsed : s.time.pulsed = false) :
    pulseIn s = pulseOut (jumpEdge (atEpoch s)) := by
  rw [pulseIn, if_pos hrole, hpulsed, if_neg Bool.false_ne_true, setTimeUnits_of_whole s (epoch_lt s)]
  rfl

theorem pulseReceived_of_first {s : State} (hcounting : s.time.counting = true) (hlast : s.time.lastPulse = none)
    (hpulsed : s.time.pulsed = false) (hrole : timeRole s = 1) (hbetween : epoch s % lambda s ≠ 0) :
    ∃ p, pulseReceived s true = firstPulse s p := by
  have hcounts : (true && s.time.counting && !pulseTooSoon s) = true := by rw [hcounting, pulseTooSoon, hlast]; rfl
  obtain ⟨p, hout⟩ := pulseOut_eq_with_pulseOutEnd (jumpEdge (atEpoch s))
  rw [← pulseIn_of_first hrole hpulsed, jumpEdge_atEpoch hbetween] at hout
  refine ⟨p, ?_⟩
  rw [pulseReceived, if_pos hcounts, hout]
  rfl

/-- The planned edge lies ahead of CAL.EPOCH. -/
theorem edgeDue_firstPulse (s : State) (p : Option Nat) : edgeDue (firstPulse s p) = false := by
  have hnow : (firstPulse s p).time.ftime.toNat = epoch s := by
    rw [firstPulse, BitVec.toNat_ofNat, Nat.mod_eq_of_lt (epoch_lt s)]
  have hahead : epoch s < (epoch s / lambda s + 1) * lambda s := by
    rw [Nat.mul_comm]
    exact Nat.lt_mul_div_succ _ (lambda_pos s)
  rw [edgeDue, hnow]
  exact Bool.and_eq_false_imp.mpr fun _ => decide_eq_false (Nat.not_le.mpr hahead)

/-! ### The alternate source and holdover (R125) -/

theorem takeAlt_of_due {s : State} (hrole : timeRole s = 2) (halt : rfld s 0x1008 16 6 < 48)
    (hfree : rbit s 0x1004 5 = false) (hdue : s.time.srcAt + 134400 ≤ s.time.clocks) :
    takeAlt s = rsetBit { s with time := { s.time with srcStreak := 0 } } 0x1004 5 true :=
  if_pos ⟨hrole, halt, hfree, hdue⟩

theorem takeAlt_of_early {s : State} (h : s.time.clocks < s.time.srcAt + 134400) : takeAlt s = s :=
  if_neg fun ⟨_, _, _, hdue⟩ => Nat.not_le.mpr h hdue

theorem holdoverDue_of_follower {s : State} (hrole : timeRole s = 2) :
    holdoverDue s = decide (s.time.linkAt + 525000 ≤ s.time.clocks) := by
  rw [holdoverDue, if_pos hrole, holdClocks]

/-- HOLDOVER and its W1C mark set, with the row of near offsets broken. -/
def heldOver (s : State) : State :=
  rsetBit (rsetBit { s with time := { s.time with streak := 0 } } 0x1004 4 true) 0x1004 6 true

theorem rget_heldOver_ne (s : State) {o : Nat} (ho : o ≠ 0x1004) : rget (heldOver s) o = rget s o :=
  (rget_rsetBit_ne _ ho 6 true).trans (rget_rsetBit_ne _ ho 4 true)

theorem rbit_heldOver_ne (s : State) {i : Nat} (h4 : i ≠ 4) (h6 : i ≠ 6) :
    rbit (heldOver s) 0x1004 i = rbit s 0x1004 i := by
  rw [rbit, heldOver, rget_rsetBit_self, bitAt_setBit_ne _ h6, rget_rsetBit_self, bitAt_setBit_ne _ h4]
  rfl

theorem rbit_heldOver (s : State) : rbit (heldOver s) 0x1004 4 = true ∧ rbit (heldOver s) 0x1004 6 = true := by
  rw [rbit, rbit, heldOver, rget_rsetBit_self, rget_rsetBit_self]
  exact ⟨(bitAt_setBit_ne _ (by decide) _).trans (bitAt_setBit_self _ (by decide) _), bitAt_setBit_self _ (by decide) _⟩

theorem timeRole_heldOver (s : State) : timeRole (heldOver s) = timeRole s := by
  rw [timeRole, rfld, rfld, rget_heldOver_ne s (by decide)]
  rfl

/-- Holdover leaves the port from which time is taken. -/
theorem timePort_heldOver (s : State) : timePort (heldOver s) = timePort s := by
  rw [timePort, rbit_heldOver_ne s (by decide) (by decide), altPort, srcPort, rfld, rfld, rget_heldOver_ne s (by decide)]
  rfl

theorem emit_of_empty_queue {s : State} (h : s.book.queue = []) (e : Event) :
    emit s e = { s with book := { s.book with
      queue := [{ e with time := s.time.ftime, loss := s.book.lossNext }], lossNext := false } } := by
  simp [emit, h, evInsert]

/-- HOLDOVER's event of a follower: the port it took time from, and CAL.OFFSET as it last read. -/
def holdoverEvent (s : State) : Event :=
  { code := 0x11, kind := 3, unit := timePort s, args := [(rget s 0x1014).toNat] }

theorem enterHoldover_of_due {s : State} (hrole : timeRole s = 2) (hcounting : s.time.counting = true)
    (hnot : rbit s 0x1004 4 = false) (hdue : s.time.linkAt + 525000 ≤ s.time.clocks) :
    enterHoldover s = emit (heldOver s) (holdoverEvent s) := by
  have hlate : holdoverDue s = true := (holdoverDue_of_follower hrole).trans (decide_eq_true hdue)
  have hunit : (if timeRole (heldOver s) = 2 then timePort (heldOver s) else 0) = timePort s := by
    rw [timeRole_heldOver, if_pos hrole, timePort_heldOver]
  calc
    enterHoldover s = emit (heldOver s)
        { code := 0x11, kind := 3, unit := if timeRole (heldOver s) = 2 then timePort (heldOver s) else 0,
          args := [(rget (heldOver s) 0x1014).toNat] } := if_pos ⟨hlate, hcounting, hnot⟩
    _ = emit (heldOver s) (holdoverEvent s) := by rw [hunit, rget_heldOver_ne s (by decide), holdoverEvent]

theorem enterHoldover_of_early {s : State} (hrole : timeRole s = 2) (h : s.time.clocks < s.time.linkAt + 525000) :
    enterHoldover s = s := by
  have hnot : holdoverDue s = false := (holdoverDue_of_follower hrole).trans (decide_eq_false (Nat.not_le.mpr h))
  exact if_neg fun ⟨hdue, _⟩ => Bool.false_ne_true (hnot.symm.trans hdue)

/-! ### REACQUIRE (R123, R143) -/

/-- RUN of CAL.CTRL as it is pending, or in effect. -/
def runAhead (s : State) : Bool :=
  if bitAt (smGet s.regs.stagedMask 0x1000 0) 0 then bitAt (smGet s.regs.staged 0x1000 0) 0 else rbit s 0x1000 0

/-- The command is a write of CAL.CTRL with REACQUIRE set and RUN as it was going to be. -/
theorem exec_reacquire (s : State) (src : Source) :
    exec (.reacquire src) s = exec (.registerWrite src 0x1000#20 (setBit 2#32 0 (runAhead s)) 0xF#4) s := rfl

/-- The row of CAL.CTRL: REACQUIRE is RW and RUN is RWS (R143). -/
def ctrlRow : RegRow := { name := "CAL.CTRL", base := 0x1000, rw := 0x2, rws := 0x1 }

theorem regRow_ctrl : regRow (0x1000#20).toNat = some ctrlRow := rfl

/-- Neither RUN nor REACQUIRE is a reserved bit. -/
theorem ctrl_keeps_reserved (run : Bool) : setBit 2#32 0 run &&& ctrlRow.rsv = 0 := by
  cases run <;> decide

/-- Settles O39. Each command is what its condition makes of it: a pulse out at an instant alone, the first pulse in as
`firstPulse`, R125's two times as comparisons of clocks, and REACQUIRE as a write of CAL.CTRL (O31). The 53 clocks are log 82's,
what holdover leaves of LOCKED is log 83's, and that no step begins on the write is log 84's. -/
theorem pulsesAndSources : Obligations.PulsesAndSources := by
  unfold Obligations.PulsesAndSources
  refine ⟨⟨?outAt, ?outElse, ?outNone, ?first, ?dropped, ?soon, ?alt, ?altEarly, ?hold, ?holdEarly⟩, ?reacquire⟩
  case outAt => exact fun s hcounting hinstant => congrArg Host.Outcome.next (pulseOut_of_instant hcounting hinstant)
  case outElse => exact fun s h => congrArg Host.Outcome.next (pulseOut_of_no_instant h)
  case outNone =>
    exact fun s h => congrArg Host.Outcome.next (pulseOut_of_no_instant (.inr (atInstant_of_none_selected h)))
  case first =>
    intro s hcounting hlast hpulsed hrole hbetween
    obtain ⟨p, hfirst⟩ := pulseReceived_of_first hcounting hlast hpulsed hrole hbetween
    have hexec : edgeIfDue (pulseReceived s true) = firstPulse s p := by
      rw [hfirst, edgeIfDue_of_not_due (edgeDue_firstPulse s p)]
    refine ⟨firstPulse s p, congrArg Host.Outcome.next hexec, rfl, rfl, rfl, rfl, rfl, ?valid, ?others, rfl⟩
    case valid => exact (congrArg (bitAt · 2) (rget_rsetBit_self s 0x1004 2 true)).trans (bitAt_setBit_self _ (by decide) _)
    case others => exact fun o ho => rget_rsetBit_ne s ho 2 true
  case dropped =>
    intro s hedge
    exact congrArg Host.Outcome.next ((congrArg edgeIfDue (pulseReceived_of_dropped s)).trans (edgeIfDue_of_not_due hedge))
  case soon =>
    intro s p hedge hlast hsoon
    exact congrArg Host.Outcome.next
      ((congrArg edgeIfDue (pulseReceived_of_too_soon hlast hsoon true)).trans (edgeIfDue_of_not_due hedge))
  case alt =>
    intro s hrole halt hfree hdue
    refine ⟨_, congrArg Host.Outcome.next (takeAlt_of_due hrole halt hfree hdue), ?bit, rfl, ?others, rfl⟩
    case bit => rw [rbit, rget_rsetBit_self, bitAt_setBit_self _ (by decide)]
    case others => exact fun o ho => rget_rsetBit_ne _ ho 5 true
  case altEarly => exact fun s h => congrArg Host.Outcome.next (takeAlt_of_early h)
  case hold =>
    intro s hrole hcounting hnot hqueue hdue
    have hemit := emit_of_empty_queue (s := heldOver s) hqueue (holdoverEvent s)
    obtain ⟨hbit, hmark⟩ := rbit_heldOver s
    refine ⟨_, congrArg Host.Outcome.next ((enterHoldover_of_due hrole hcounting hnot hdue).trans hemit),
      hbit, hmark, rfl, rfl, ?others⟩
    case others => exact fun o ho => rget_heldOver_ne s ho
  case holdEarly => exact fun s hrole h => congrArg Host.Outcome.next (enterHoldover_of_early hrole h)
  case reacquire =>
    intro s src hreach
    obtain ⟨t, hexec, hframe, -, -, hothers, hrw, -, -, hheld, hstaged⟩ :=
      Registers.registerWriteByAccessCode s src 0x1000#20 (setBit 2#32 0 (runAhead s)) ctrlRow hreach (by decide) (by decide)
        regRow_ctrl (by decide) (ctrl_keeps_reserved _)
    refine ⟨t, (exec_reacquire s src).trans hexec, ?set, ?run, ?pending, fun o ho => (hothers o ho).1, hframe⟩
    case set => exact (hrw 1 (by decide) (by decide)).trans (bitAt_setBit_ne _ (by decide) _)
    case run => exact hheld 0 (by decide) (by decide)
    case pending => exact (hstaged 0 (by decide) (by decide)).1.trans (bitAt_setBit_self _ (by decide) _)

end Sys2Proof.Proofs.TimePulses
end

section
/-!
PROOFS. The time exchange of a link (R122, R354): what a TIME frame that is received leaves of its port, what one that is sent
takes and stamps, and the timestamps that each frame of an exchange records.
-/
namespace Sys2Proof.Proofs.TimeFrames
open Sys2Proof.Machine

/-! ### The flit side of a port (R318, R319) -/

theorem getPort_sendOut (s : State) (o : Out) (n : Nat) : getPort (sendOut s o) n = getPort s n := rfl

/-- A flit put on the wire changes the bits on their way and the wavelengths' turns. -/
theorem getPort_layFlit (s : State) (n : Nat) (bytes : List Byte) :
    ∃ bits len lane, getPort (layFlit s n bytes) n =
      { getPort s n with txBits := bits, txHave := len, txLane := lane } := by
  unfold layFlit
  dsimp only
  split
  · exact ⟨_, _, _, getPort_setPort_self _ _ _⟩
  · rw [getPort_sendOut]
    exact ⟨_, _, _, getPort_setPort_self _ _ _⟩

/-- `p` has one flit more than `q` at most, and the same transaction bytes that are in none. -/
def OneFlitMore (p q : Port) : Prop := p.flits.length ≤ q.flits.length + 1 ∧ p.txBuf = q.txBuf

theorem oneFlitMore_formFlit (s : State) (n : Nat) (body : List Byte) :
    OneFlitMore (getPort (formFlit s n body) n) (getPort s n) := by
  unfold formFlit
  dsimp only
  obtain ⟨bits, len, lane, hlaid⟩ := getPort_layFlit (setPort s n _) n _
  rw [hlaid, getPort_setPort_self]
  exact ⟨List.length_append.le, rfl⟩

theorem oneFlitMore_answerLink (s : State) (n : Nat) : OneFlitMore (getPort (answerLink s n) n) (getPort s n) := by
  unfold answerLink
  split
  · exact oneFlitMore_formFlit s n []
  · exact ⟨Nat.le_succ _, rfl⟩

/-- The return of credits takes one flit at most. -/
theorem oneFlitMore_takeRx (s : State) (n vc bytes : Nat) (keep : Bool) (mine : Txn → Bool) :
    OneFlitMore (getPort (takeRx s n vc bytes keep mine) n) (getPort s n) := by
  unfold takeRx
  dsimp only
  generalize hp : (if keep = true then _ else _ : Port) = p
  have hport : p.flits = (getPort s n).flits ∧ p.txBuf = (getPort s n).txBuf := by
    subst hp
    split <;> exact ⟨rfl, rfl⟩
  obtain ⟨hflits, hbuf⟩ := oneFlitMore_answerLink (setPort s n p) n
  rw [getPort_setPort_self] at hflits hbuf
  exact ⟨hport.1 ▸ hflits, hbuf.trans hport.2⟩

/-! ### TIME frames (R354) -/

/-- A TIME frame of this node. -/
def timeTxn (s : State) (kind : Nat) (q : BitVec 16) (stamp : Nat) : Txn :=
  { typ := 6, hops := 0, snode := BitVec.ofNat 16 (nodeId s), data := timeFrame kind q stamp }

theorem length_leBytes (n v : Nat) : (leBytes n v).length = n := by
  induction n generalizing v with
  | zero => rfl
  | succ n ih => rw [leBytes, List.length_cons, ih]

theorem length_timeStamp (t : Nat) : (timeStamp t).length = 10 := by
  simp [timeStamp, beBytes, length_leBytes]

/-- A TIME frame carries one line. -/
theorem length_timeFrame (kind : Nat) (q : BitVec 16) (stamp : Nat) : (timeFrame kind q stamp).length = 64 := by
  simp [timeFrame, length_timeStamp, beBytes, length_leBytes]

/-- The messageType stands behind the timestamp. -/
theorem nth_timeFrame_messageType (kind : Nat) (q : BitVec 16) (stamp : Nat) :
    nth (timeFrame kind q stamp) 10 (0 : Byte) = BitVec.ofNat 8 kind := by
  simp [timeFrame, nth, length_timeStamp]

theorem txnBytes_timeTxn (s : State) (kind : Nat) (q : BitVec 16) (stamp : Nat) :
    txnBytes (timeTxn s kind q stamp) = 112 := by
  rw [txnBytes, timeTxn, length_timeFrame]
  rfl

theorem txnUnits_timeTxn (s : State) (kind : Nat) (q : BitVec 16) (stamp : Nat) :
    txnUnits (timeTxn s kind q stamp) = 7 := by
  rw [txnUnits, txnBytes_timeTxn]
  rfl

/-- A Delay_Req leaves as it is, and its leaving is t3 of the port's exchange. -/
theorem stampTime_delayReq (s : State) (n : Nat) (p : Port) (q : BitVec 16) (stamp : Nat) :
    stampTime s n p (timeTxn s 1 q stamp) =
      (setExch s n { getExch s n with t3 := some s.time.ftime }, p, timeTxn s 1 q stamp) := by
  simp only [stampTime, timeTxn, nth_timeFrame_messageType]
  rfl

/-- A Delay_Resp leaves as it is and stamps nothing. -/
theorem stampTime_delayResp (s : State) (n : Nat) (p : Port) (q : BitVec 16) (stamp : Nat) :
    stampTime s n p (timeTxn s 9 q stamp) = (s, p, timeTxn s 9 q stamp) := by
  simp only [stampTime, timeTxn, nth_timeFrame_messageType]
  rfl

/-! ### A port that may send a TIME frame at once -/

/-- The port is usable, nothing waits on it, and it has the credits and the flit of a TIME frame. -/
structure SendsTime (s : State) (n : Nat) : Prop where
  usable : usable s n = true
  idle : (getPort s n).wait = []
  credit : 7 ≤ nth (getPort s n).credits 3 0
  buffer : (getPort s n).txBuf = []
  flits : (getPort s n).flits.length < 2048

theorem sendsTime_with_time {s : State} {n : Nat} (h : SendsTime s n) (t : Time) : SendsTime { s with time := t } n :=
  ⟨h.usable, h.idle, h.credit, h.buffer, h.flits⟩

theorem flitRoom_of_sendsTime {s : State} {n : Nat} (h : SendsTime s n) (kind : Nat) (q : BitVec 16) (stamp : Nat) :
    flitRoom (getPort s n) (timeTxn s kind q stamp) = true := by
  have hflits := h.flits
  rw [flitRoom, h.buffer, txnBytes_timeTxn, decide_eq_true_eq]
  change (getPort s n).flits.length + 1 ≤ 2048
  omega

/-- `t` is a state that the leaving of a TIME frame `x` on port `n` makes of `s`; what the leaving stamps is not said here. -/
structure TimeSent (s : State) (n : Nat) (x : Txn) (t : State) : Prop where
  regs : t.regs = s.regs
  mem : t.mem = s.mem
  sent : .frame n x ∈ t.outbox
  credits : (getPort t n).credits = (getPort s n).credits.set 3 (nth (getPort s n).credits 3 0 - 7)

/-- A TIME frame that is not changed as it leaves is sent at once, for 7 units of credit (R320). -/
theorem timeSent_sendTime {s : State} {n : Nat} (h : SendsTime s n) {kind : Nat} {q : BitVec 16} {stamp : Nat}
    (hsame : leaving s n (timeTxn s kind q stamp) = timeTxn s kind q stamp) :
    TimeSent s n (timeTxn s kind q stamp) (sendTime s n kind q stamp) ∧
      (sendTime s n kind q stamp).time = (stampTime s n (getPort s n) (timeTxn s kind q stamp)).1.time := by
  have hunits := txnUnits_timeTxn s kind q stamp
  obtain ⟨p, l, k, hq, -, -, -, -, -, hcredits, -⟩ := enqueue_one s n { txn := timeTxn s kind q stamp } rfl h.usable h.idle
    (hunits.trans_le h.credit) (flitRoom_of_sendsTime h kind q stamp)
  obtain ⟨x, hstate⟩ := stampTime_state s n (getPort s n) (timeTxn s kind q stamp)
  rw [hsame, hunits] at hcredits
  rw [hsame, hstate] at hq
  have hsend : sendTime s n kind q stamp = _ := hq
  rw [hstate, hsend]
  refine ⟨⟨rfl, rfl, ?sent, ?credits⟩, rfl⟩
  case sent => exact List.mem_append_right l List.mem_cons_self
  case credits => exact (congrArg Port.credits (getPort_setPort_self _ n p)).trans hcredits

/-- A Delay_Req of this node leaves, and t3 is recorded. -/
theorem timeSent_delayReq {s : State} {n : Nat} (h : SendsTime s n) (q : BitVec 16) :
    TimeSent s n (timeTxn s 1 q 0) (sendTime s n 1 q 0) ∧
      (sendTime s n 1 q 0).time = (setExch s n { getExch s n with t3 := some s.time.ftime }).time := by
  have hstamp := stampTime_delayReq s n (getPort s n) q 0
  have hsent := timeSent_sendTime h (congrArg (·.2.2) hstamp)
  rwa [hstamp] at hsent

/-- A Delay_Resp of this node leaves, and nothing is recorded. -/
theorem timeSent_delayResp {s : State} {n : Nat} (h : SendsTime s n) (q : BitVec 16) (stamp : Nat) :
    TimeSent s n (timeTxn s 9 q stamp) (sendTime s n 9 q stamp) ∧ (sendTime s n 9 q stamp).time = s.time := by
  have hstamp := stampTime_delayResp s n (getPort s n) q stamp
  have hsent := timeSent_sendTime h (congrArg (·.2.2) hstamp)
  rwa [hstamp] at hsent

/-! ### A TIME frame received -/

theorem takeTime_only (s : State) (n kind : Nat) : FlitOnly s n (takeTime s n kind) := takeRx_only s n 3 112 false _

/-- The credits of a received TIME frame leave all but the port and what it has put out. -/
theorem takeTime_frame (s : State) (n kind : Nat) :
    (takeTime s n kind).time = s.time ∧ (takeTime s n kind).regs = s.regs ∧ (takeTime s n kind).mem = s.mem := by
  obtain ⟨p, l, heq, -⟩ := takeTime_only s n kind
  rw [heq]
  exact ⟨rfl, rfl, rfl⟩

theorem time_takeTime (s : State) (n kind : Nat) : (takeTime s n kind).time = s.time := (takeTime_frame s n kind).1

theorem regs_takeTime (s : State) (n kind : Nat) : (takeTime s n kind).regs = s.regs := (takeTime_frame s n kind).2.1

theorem credits_takeTime (s : State) (n kind : Nat) :
    (getPort (takeTime s n kind) n).credits = (getPort s n).credits := by
  obtain ⟨-, -, -, -, hcredits, -, -⟩ := (takeTime_only s n kind).port
  exact hcredits

theorem getExch_congr {s t : State} (h : t.time = s.time) (n : Nat) : getExch t n = getExch s n := by
  rw [getExch, h, getExch]

theorem getExch_takeTime (s : State) (n kind m : Nat) : getExch (takeTime s n kind) m = getExch s m :=
  getExch_congr (time_takeTime s n kind) m

theorem isSource_takeTime (s : State) (n kind m : Nat) : isSource (takeTime s n kind) m = isSource s m := by
  have hcfg : ∀ lo width, rfld (takeTime s n kind) 0x1008 lo width = rfld s 0x1008 lo width := fun lo width =>
    congrArg (fld · lo width) (rget_congr (regs_takeTime s n kind) 0x1008)
  simp only [isSource, timeRole, srcPort, altPort, hcfg]

/-- A port with one flit to spare may still send a TIME frame once it has returned a frame's credits. -/
theorem sendsTime_takeTime {s : State} {n : Nat} (husable : usable s n = true) (hidle : (getPort s n).wait = [])
    (hcredit : 7 ≤ nth (getPort s n).credits 3 0) (hbuf : (getPort s n).txBuf = [])
    (hflits : (getPort s n).flits.length < 2047) (kind : Nat) : SendsTime (takeTime s n kind) n := by
  obtain ⟨-, -, -, -, -, hwait, -⟩ := (takeTime_only s n kind).port
  obtain ⟨hmore, hsame⟩ := oneFlitMore_takeRx s n 3 112 false (fun t => t.typ == 6 && (nth t.data 10 0#8).toNat == kind)
  exact {
    usable := (takeTime_only s n kind).usable.trans husable
    idle := hwait.trans hidle
    credit := (credits_takeTime s n kind).symm ▸ hcredit
    buffer := hsame.trans hbuf
    flits := Nat.lt_of_le_of_lt hmore (Nat.succ_lt_succ hflits) }

/-! ### The timestamps of an exchange (R122) -/

theorem getExch_setExch_self (s : State) (n : Nat) (e : Exch) : getExch (setExch s n e) n = e :=
  smGet_smPut_self _ _ _ _

theorem tryExchange_of_incomplete {s : State} {n : Nat} (h : (getExch s n).t1 = none ∨ (getExch s n).t4 = none) :
    tryExchange s n = s := by
  unfold tryExchange
  split
  · next he =>
    rw [he] at h
    simp at h
  · rfl

/-- A Follow_Up of the exchange in progress records t1. -/
theorem followUpReceived_of_incomplete {s : State} {n : Nat} {q : BitVec 16} (t1 : BitVec 64)
    (hsource : isSource s n = true) (ht2 : (getExch s n).t2.isSome = true) (hseq : (getExch s n).seqId = q)
    (ht4 : (getExch s n).t4 = none) :
    followUpReceived s n q t1 = setExch (takeTime s n 8) n { getExch s n with t1 := some t1 } := by
  have hmatches : (isSource (takeTime s n 8) n && (getExch s n).t2.isSome && (getExch s n).seqId == q) = true := by
    rw [isSource_takeTime, hsource, ht2, hseq, beq_self_eq_true, Bool.and_self, Bool.and_self]
  rw [followUpReceived, getExch_takeTime, if_pos hmatches]
  exact tryExchange_of_incomplete (.inr ((congrArg Exch.t4 (getExch_setExch_self _ n _)).trans ht4))

/-- A Delay_Resp of the exchange in progress records t4. -/
theorem delayRespReceived_of_incomplete {s : State} {n : Nat} {q : BitVec 16} (t4 : BitVec 64)
    (hsource : isSource s n = true) (ht3 : (getExch s n).t3.isSome = true) (hseq : (getExch s n).seqId = q)
    (ht1 : (getExch s n).t1 = none) :
    delayRespReceived s n q t4 = setExch (takeTime s n 9) n { getExch s n with t4 := some t4 } := by
  have hmatches : (isSource (takeTime s n 9) n && (getExch s n).t3.isSome && (getExch s n).seqId == q) = true := by
    rw [isSource_takeTime, hsource, ht3, hseq, beq_self_eq_true, Bool.and_self, Bool.and_self]
  rw [delayRespReceived, getExch_takeTime, if_pos hmatches]
  exact tryExchange_of_incomplete (.inl ((congrArg Exch.t1 (getExch_setExch_self _ n _)).trans ht1))

/-- The state in which a source port answers a Sync: its exchange holds t2 alone. -/
def syncTaken (s : State) (n : Nat) (q : BitVec 16) : State :=
  setExch (breakRow s n) n { seqId := q, t2 := some s.time.ftime }

theorem getExch_syncTaken (s : State) (n : Nat) (q : BitVec 16) :
    getExch (syncTaken s n q) n = { seqId := q, t2 := some s.time.ftime } := getExch_setExch_self _ n _

/-- Only the exchange, and the row of exchanges that it breaks, have changed. -/
theorem syncTaken_eq_with_time (s : State) (n : Nat) (q : BitVec 16) :
    ∃ k x, syncTaken s n q = { s with time := { s.time with srcStreak := k, exch := x } } := by
  unfold syncTaken breakRow
  split
  · exact ⟨_, _, rfl⟩
  · exact ⟨s.time.srcStreak, _, rfl⟩

/-- The Delay_Req of a Sync leaves at once and completes the exchange's record of this node: t2 and t3. -/
theorem sendTime_syncTaken {s : State} {n : Nat} (h : SendsTime s n) (q : BitVec 16) :
    TimeSent s n (timeTxn s 1 q 0) (sendTime (syncTaken s n q) n 1 q 0) ∧
      getExch (sendTime (syncTaken s n q) n 1 q 0) n =
        { seqId := q, t2 := some s.time.ftime, t3 := some s.time.ftime } := by
  obtain ⟨k, x, htaken⟩ := syncTaken_eq_with_time s n q
  have hnow : (syncTaken s n q).time.ftime = s.time.ftime := by rw [htaken]
  have hsends : SendsTime (syncTaken s n q) n := htaken ▸ sendsTime_with_time h _
  obtain ⟨hsent, htime⟩ := timeSent_delayReq hsends q
  have hexch : getExch (sendTime (syncTaken s n q) n 1 q 0) n =
      { getExch (syncTaken s n q) n with t3 := some (syncTaken s n q).time.ftime } :=
    (getExch_congr htime n).trans (getExch_setExch_self _ n _)
  rw [getExch_syncTaken, hnow] at hexch
  refine ⟨?sent, hexch⟩
  rw [htaken] at hsent ⊢
  exact ⟨hsent.regs, hsent.mem, hsent.sent, hsent.credits⟩

theorem syncReceived_of_source {s : State} {n : Nat} {q : BitVec 16} (h : SendsTime (takeTime s n 0) n)
    (hsource : isSource s n = true) :
    syncReceived s n q = sendTime (syncTaken (takeTime s n 0) n q) n 1 q 0 := by
  have hanswers : (isSource (takeTime s n 0) n && usable (takeTime s n 0) n) = true := by
    rw [isSource_takeTime, hsource, h.usable, Bool.and_self]
  rw [syncReceived, if_pos hanswers]
  rfl

theorem delayReqReceived_of_master {s : State} {n : Nat} {q : BitVec 16} (h : SendsTime (takeTime s n 1) n)
    (hmaster : isSource s n = false) :
    delayReqReceived s n q = sendTime (takeTime s n 1) n 9 q s.time.ftime.toNat := by
  have hanswers : (usable (takeTime s n 1) n && !isSource (takeTime s n 1) n) = true := by
    rw [isSource_takeTime, hmaster, h.usable, Bool.not_false, Bool.and_self]
  rw [delayReqReceived, if_pos hanswers, time_takeTime]

/-- What a received frame's credits give back leaves the frame that answers it. -/
theorem timeTxn_takeTime (s : State) (n taken kind : Nat) (q : BitVec 16) (stamp : Nat) :
    timeTxn (takeTime s n taken) kind q stamp = timeTxn s kind q stamp := by
  rw [timeTxn, nodeId, rfld, rget_congr (regs_takeTime s n taken), timeTxn, nodeId, rfld]

/-- A timestamp put into the exchange once a received frame's credits have gone back: fabric time and the registers stay. -/
theorem setExch_takeTime_frame (s : State) (n kind : Nat) (e : Exch) :
    getExch (setExch (takeTime s n kind) n e) n = e ∧ (setExch (takeTime s n kind) n e).time.ftime = s.time.ftime ∧
      (setExch (takeTime s n kind) n e).regs = s.regs :=
  ⟨getExch_setExch_self _ n e, congrArg (·.ftime) (time_takeTime s n kind), regs_takeTime s n kind⟩

/-- Settles O40. Each frame first gives its credits back, which leaves the port able to send; then its timestamp is recorded, or
its answer leaves at once. That a Delay_Req carries the sequenceId of the Sync it answers is log 15's. -/
theorem timeExchange : Obligations.TimeExchange := by
  unfold Obligations.TimeExchange
  intro s n q stamp husable hidle hcredit hlength hbuf hflits
  have hsends := sendsTime_takeTime husable hidle hcredit hbuf hflits
  refine ⟨?sync, ?followUp, ?delayResp, ?delayReq⟩
  case sync =>
    intro hsource
    obtain ⟨hsent, hexch⟩ := sendTime_syncTaken (hsends 0) q
    rw [← syncReceived_of_source (hsends 0) hsource] at hsent hexch
    rw [time_takeTime] at hexch
    rw [timeTxn_takeTime] at hsent
    refine ⟨_, rfl, hexch, hsent.sent, ?credits, hsent.regs.trans (regs_takeTime s n 0),
      hsent.mem.trans (takeTime_frame s n 0).2.2⟩
    case credits =>
      rw [hsent.credits, credits_takeTime, nth, List.getD_eq_getElem _ _ (by rw [List.length_set, hlength]; decide),
        List.getElem_set_self]
  case followUp =>
    intro hsource ht2 hseq ht4
    exact ⟨_, congrArg Host.Outcome.next (followUpReceived_of_incomplete stamp hsource ht2 hseq ht4),
      setExch_takeTime_frame s n 8 _⟩
  case delayResp =>
    intro hsource ht3 hseq ht1
    exact ⟨_, congrArg Host.Outcome.next (delayRespReceived_of_incomplete stamp hsource ht3 hseq ht1),
      setExch_takeTime_frame s n 9 _⟩
  case delayReq =>
    intro hmaster
    obtain ⟨hsent, htime⟩ := timeSent_delayResp (hsends 1) q s.time.ftime.toNat
    rw [timeTxn_takeTime] at hsent
    exact ⟨_, congrArg Host.Outcome.next (delayReqReceived_of_master (hsends 1) hmaster), htime.trans (time_takeTime s n 1),
      hsent.regs.trans (regs_takeTime s n 1), hsent.sent⟩

end Sys2Proof.Proofs.TimeFrames
end

section
/-!
PROOFS. The command queue (log 1): a step takes the front command, every command answers a next state, and no command's
effect touches the queue.
-/
namespace Sys2Proof.Proofs.Queue
open Sys2Proof.Machine

/-! ### One step -/

theorem step_of_pending_cons (s : State) (c : Instr) (rest : List Instr) :
    step { s with pending := c :: rest } = exec c { s with pending := rest } := rfl

/-- Settles O1, for the queue of log 1. -/
theorem stepRunsFrontCommand : Obligations.StepRunsFrontCommand := by
  unfold Obligations.StepRunsFrontCommand
  exact step_of_pending_cons

/-- Every row of the table has a meaning that ends in a next state. -/
theorem exec_answers_next (c : Instr) (s : State) : ∃ t, exec c s = .next t := by
  cases c <;> exact ⟨_, rfl⟩

/-- Settles O3: a step is a control clock or the front command, and no command ends otherwise than in a next state (R150). -/
theorem everyCommandAnswersNext : Obligations.EveryCommandAnswersNext := by
  unfold Obligations.EveryCommandAnswersNext
  refine ⟨exec_answers_next, fun s => ?_⟩
  unfold step
  split
  · exact ⟨_, rfl⟩
  · exact exec_answers_next _ _

/-! ### The commands that the keeping lemmas leave out -/

theorem pending_showPins (s : State) : (showPins s).pending = s.pending := by
  unfold showPins
  split <;> rfl

theorem pending_samplePreload (s : State) (load : Option Nat) : (samplePreload s load).pending = s.pending := by
  cases load <;> rfl

theorem pending_tapRecord (s : State) (st : Nat) (uncorrectable : Bool) :
    (tapRecord s st uncorrectable).pending = s.pending := by
  unfold tapRecord
  split
  · rfl
  · dsimp only
    split <;> rfl

theorem pending_statement (s : State) : (statement s).pending = s.pending := by
  unfold statement
  split <;> rfl

theorem pending_periodic (s : State) : (periodic s).pending = s.pending := by
  unfold periodic
  split <;> rfl

theorem pending_finalCheckpoint (s : State) (completes : Bool) : (finalCheckpoint s completes).pending = s.pending := by
  unfold finalCheckpoint
  split <;> rfl

theorem pending_tallyRestore (s : State) : (tallyRestore s).pending = s.pending := by
  unfold tallyRestore
  split <;> rfl

/-- The test access port, the tally and the thermal trip do not touch the queue. -/
theorem pending_exec_of_outsideKeep {s t : State} {c : Instr} (hc : outsideKeep c = true) (h : exec c s = .next t) :
    t.pending = s.pending := by
  cases c with
  | thermTrip | tallyHoldup | refclkRestored | idcode | highz | bypass | testLogicReset =>
    obtain rfl := Host.Outcome.next.inj h
    rfl
  | extest | clamp => exact Host.Outcome.next.inj h ▸ pending_showPins _
  | samplePreload load => exact Host.Outcome.next.inj h ▸ pending_samplePreload _ load
  | tapRecord st uncorrectable => exact Host.Outcome.next.inj h ▸ pending_tapRecord s st uncorrectable
  | statement => exact Host.Outcome.next.inj h ▸ pending_statement s
  | periodicCheckpoint => exact Host.Outcome.next.inj h ▸ pending_periodic s
  | finalCheckpoint completes => exact Host.Outcome.next.inj h ▸ pending_finalCheckpoint s completes
  | tallyRestore => exact Host.Outcome.next.inj h ▸ pending_tallyRestore s
  | _ => exact Bool.noConfusion hc

/-! ### First in, first out -/

/-- No command's effect touches the queue. -/
theorem pending_exec {s t : State} {c : Instr} (h : exec c s = .next t) : t.pending = s.pending := by
  cases hc : outsideKeep c with
  | false => exact (exec_keep s c hc t h).pending
  | true => exact pending_exec_of_outsideKeep hc h

/-- Settles O4: a control clock leaves the empty queue empty, and a command leaves the rest behind it. -/
theorem queueIsFirstInFirstOut : Obligations.QueueIsFirstInFirstOut := by
  unfold Obligations.QueueIsFirstInFirstOut
  refine ⟨fun c s t h => pending_exec h, fun s t hstep => ?_⟩
  unfold step at hstep
  split at hstep
  case h_1 hempty =>
    obtain rfl := Host.Outcome.next.inj hstep
    rw [(keep_clockTick Keep.refl).pending, hempty, List.tail_nil]
  case h_2 c rest hfront =>
    rw [pending_exec hstep, hfront, List.tail_cons]

end Sys2Proof.Proofs.Queue
end

section
/-!
PROOFS. Descriptors that the cellar master completes itself (R149, R164, R508): NOP, FENCE and reserved op codes.
-/
namespace Sys2Proof.Proofs.MasterCompletes
open Sys2Proof.Machine Sys2Proof.Claims

/-- A completed descriptor changes in its status, its phase and its place in the order of finishing alone. -/
theorem completeLatched_eq (s : State) (f : Flight) (code : Option Nat) :
    completeLatched s f code = { s with flights := s.flights.map (fun g => if g.id == f.id then
      { f with early := code, phase := .finished, finish := nextFinish s } else g) } := rfl

theorem exec_nop_of_latched {s : State} {st : Fin 256} {f : Flight} (h : latched s st.val (· == 0x3F) = some f) :
    exec (.nop st) s = .next (completeLatched s f none) := by
  change execNop st s = _
  simp only [execNop, h]

theorem exec_opReserved_of_latched {s : State} {st : Fin 256} {f : Flight}
    (h : latched s st.val (fun op => !opKnown op) = some f) :
    exec (.opReserved st) s = .next (completeLatched s f (some 0x0F)) := by
  change execOpReserved st s = _
  simp only [execOpReserved, h]

/-! ### FENCE (R164) -/

/-- Both commands of a FENCE try it. -/
theorem exec_fence_eq {st : Fin 256} {c : Instr} (hc : c ∈ [Instr.fence st, .fenceComplete st]) (s : State) :
    exec c s = .next (tryFence s st.val) := by
  simp only [List.mem_cons, List.not_mem_nil, or_false] at hc
  obtain rfl | rfl := hc <;> rfl

theorem tryFence_of_latched {s : State} {st : Nat} {f : Flight} (h : latched s st (· == 0x38) = some f) :
    tryFence s st = if fenceMet s f then completeLatched s f none else s := by
  simp only [tryFence, h]

/-- The conditions of R164 as they stand in the state: no earlier descriptor of the stream is in flight and, with REMOTE, what
the earlier ones sent is acknowledged. -/
theorem fenceMet_iff (s : State) (f : Flight) :
    fenceMet s f = true ↔
      (∀ g ∈ s.flights, g.stream = f.stream → f.id ≤ g.id) ∧
      (bitAt (nth f.words 12 0#32) 0 = true →
        ∀ o ∈ s.fab.outs, o.stream = f.stream → o.fid < f.id → o.acked = true) := by
  have hearlier : (earlier s f).isEmpty = true ↔ ∀ g ∈ s.flights, g.stream = f.stream → f.id ≤ g.id := by
    simp only [earlier, streamFlights, List.isEmpty_iff, List.filter_eq_nil_iff, List.mem_filter, beq_iff_eq,
      decide_eq_true_eq, Nat.not_lt, and_imp]
  have hone : ∀ o : OutTxn, (o.stream != f.stream || f.id ≤ o.fid || o.acked) = true ↔
      (o.stream = f.stream → o.fid < f.id → o.acked = true) := by
    intro o
    simp only [Bool.or_eq_true, bne_iff_ne, decide_eq_true_eq, ← Nat.not_lt]
    tauto
  have hremote : (!bitAt (dOpa f.words) 0 || s.fab.outs.all (fun o => o.stream != f.stream || f.id ≤ o.fid || o.acked)) = true ↔
      (bitAt (nth f.words 12 0#32) 0 = true →
        ∀ o ∈ s.fab.outs, o.stream = f.stream → o.fid < f.id → o.acked = true) := by
    simp only [dOpa, Bool.or_eq_true, Bool.not_eq_true', ← Bool.not_eq_true, List.all_eq_true, hone, ← imp_iff_not_or]
  rw [fenceMet, Bool.and_eq_true, hearlier, hremote]

/-- Settles O46: each command takes the oldest such descriptor; a FENCE is completed where the conditions of R164 hold and is
left where one of them fails. -/
theorem masterCompletes : Obligations.MasterCompletes := by
  unfold Obligations.MasterCompletes
  intro s st f
  refine ⟨exec_nop_of_latched, exec_opReserved_of_latched, fun hf c hc => ?fence⟩
  case fence =>
    have hexec : exec c s = .next (if fenceMet s f then completeLatched s f none else s) := by
      rw [exec_fence_eq hc, tryFence_of_latched hf]
    have hwaits : ¬ fenceMet s f = true → exec c s = .next s := fun h => by rw [hexec, if_neg h]
    simp only [fenceMet_iff] at hwaits
    refine ⟨fun hearlier hremote => ?_, fun g hg hst hlt => ?_, fun hrem o ho hst hlt hacked => ?_⟩
    · rw [hexec, if_pos ((fenceMet_iff s f).mpr ⟨hearlier, hremote⟩), completeLatched_eq]
    · exact hwaits fun hmet => absurd (hmet.1 g hg hst) (Nat.not_le.mpr hlt)
    · exact hwaits fun hmet => absurd (hmet.2 hrem o ho hst hlt) (Bool.eq_false_iff.mp hacked)

end Sys2Proof.Proofs.MasterCompletes
end

section
/-!
PROOFS. DISPATCH (R162, R175, R176): which press a terrace's foremost descriptor goes to, and what its acceptance changes.
-/
namespace Sys2Proof.Proofs.Dispatch
open Sys2Proof.Machine Sys2Proof.Claims

/-! ### The eligible press with the lowest number (R175) -/

theorem eligible_of_lowest {s : State} {t p : Nat} (hp : p < 8) (hfree : freePress s (8 * t + p) = true)
    (hbelow : ∀ q, q < p → freePress s (8 * t + q) = false) : eligible s t = some (8 * t + p) := by
  have hfind : (List.range 8).find? (fun q => freePress s (8 * t + q)) = some p :=
    List.find?_range_eq_some.mpr ⟨hfree, List.mem_range.mpr hp, fun q hq => by simp [hbelow q hq]⟩
  simp only [eligible, pressesOf, List.find?_map, Function.comp_def, hfind, Option.map_some]

theorem eligible_of_none_free {s : State} {t : Nat} (h : ∀ q, q < 8 → freePress s (8 * t + q) = false) :
    eligible s t = none := by
  simp only [eligible, pressesOf, List.find?_map, Option.map_eq_none_iff, List.find?_eq_none, List.mem_range]
  exact fun q hq => Bool.eq_false_iff.mp (h q hq)

/-! ### The choice of DISPATCH -/

theorem queueOf_ne_nil_of_next {s : State} {k : Nat} {f : Flight} (h : nextOf s (queueOf s k) = some f) :
    queueOf s k ≠ [] := by
  intro hnil
  rw [hnil] at h
  cases h

section Next
variable {s : State} {k t : Nat} {f : Flight} (hnext : nextOf s (queueOf s k) = some f) (hserving : serving s k f = some t)
include hnext hserving

/-- The foremost descriptor of a queue goes to the eligible press of the terrace that serves it. -/
theorem dispatchTerrace_of_eligible {p : Nat} (h : eligible s t = some p) : dispatchTerrace s k = accept s p f := by
  simp [dispatchTerrace, queueOf_ne_nil_of_next hnext, hnext, hserving, h]

/-- Without an eligible press it waits. -/
theorem dispatchTerrace_of_not_eligible (h : eligible s t = none) : dispatchTerrace s k = s := by
  simp [dispatchTerrace, queueOf_ne_nil_of_next hnext, hnext, hserving, h]

end Next

theorem dispatchTerrace_of_idle {s : State} {k : Nat} (hqueue : queueOf s k = []) (hnone : eligible s k = none) :
    dispatchTerrace s k = s := by
  simp only [dispatchTerrace, hqueue, List.isEmpty_nil, if_true, pullAny, hnone]

/-! ### Acceptance of an op whose operands are not checked for overlap (R176, R214) -/

/-- The ops of a press whose operands are not checked for overlap and that blend nothing (R214, R245). -/
def uncheckedOps : List Nat := [0x04, 0x08, 0x09, 0x10, 0x18, 0x19, 0x20, 0x21]

theorem overlaps_of_unchecked (s : State) {g : Stage} (h : g.op ∈ uncheckedOps) : overlaps s g = [] := by
  have hops : ∀ op ∈ uncheckedOps, ¬ (op = 0x01 ∨ op = 0x02 ∨ op = 0x03 ∨ op = 0x28) := by decide
  exact if_neg fun hchecked => hops g.op h hchecked.1

theorem not_accumulating_of_unchecked {op : Nat} (h : op ∈ uncheckedOps) (ws : List Word) : accumulating op ws = false := by
  have hops : ∀ op ∈ uncheckedOps, (op == 0x0A) = false ∧ (op == 0x0B) = false := by decide
  simp only [accumulating, hops op h, Bool.false_and, Bool.or_false]

section OneStage
variable {f : Flight} {g : Stage} (hstages : f.stages = [g])
include hstages

theorem nth_stages_zero : nth f.stages 0 {} = g := by
  rw [hstages]
  rfl

/-- The context of a single stage is its own, with the tensors that it writes. -/
theorem stageCtx_of_one_stage (s : State) (p : Nat) :
    stageCtx s p f 0 = withDests f (baseCtx (heritage s) (streamDomain s f.stream) p f 0) :=
  if_pos (by rw [hstages, List.length_singleton])

theorem op_stageCtx_of_one_stage (s : State) (p : Nat) : (stageCtx s p f 0).op = g.op := by
  rw [stageCtx_of_one_stage hstages, ← nth_stages_zero hstages]
  rfl

variable (hop : g.op ∈ uncheckedOps)
include hop

theorem noCopyHere_of_unchecked (s : State) (p : Nat) : noCopyHere s p f = false := by
  simp only [noCopyHere, nth_stages_zero hstages, overlapTooLarge, overlaps_of_unchecked s hop, List.isEmpty_nil, Bool.not_true,
    Bool.false_and, Bool.and_false]

theorem stagedFoots_of_unchecked (s : State) : stagedFoots s (nth f.stages 0 {}) = [] := by
  rw [nth_stages_zero hstages, stagedFoots, overlaps_of_unchecked s hop]
  rfl

theorem blendRefused_of_unchecked (s : State) (p : Nat) : blendRefused s p f 0 = false := by
  rw [blendRefused, op_stageCtx_of_one_stage hstages, not_accumulating_of_unchecked hop, Bool.false_and, Bool.false_and]

end OneStage

/-- A descriptor as the press that accepts it holds it. -/
def accepted (p : Nat) (f : Flight) : Flight := { f with phase := .running p, press := p }

/-- A press as it begins its setup for a run (R176). -/
def inSetup (x : Press) (r : Run) : Press := { x with run := some r, state := .setup, waiting := none, vat := [] }

/-- The one gate of a single stage has nothing behind it to close. -/
theorem no_gates_of_one_stage (l : List (Nat × Nat)) : l.filter (fun e => decide (e.1 + 1 < 1)) = [] :=
  List.filter_eq_nil_iff.mpr fun e _ => by simp

/-- The press that accepts such a descriptor begins its setup, and the descriptor runs on it; nothing else changes. -/
theorem accept_of_unchecked {f : Flight} {g : Stage} (hstages : f.stages = [g]) (hop : g.op ∈ uncheckedOps) (s : State) (p : Nat) :
    accept s p f = setPress (setFlight s (accepted p f)) p
      (inSetup (getPress s p) (newRun (setFlight s (accepted p f)) p (accepted p f))) := by
  have hacc : (accepted p f).stages = [g] := hstages
  have hlen : (accepted p f).stages.length = 1 := by rw [hacc, List.length_singleton]
  have hfoots : ∀ u r, stageFoots u p r
      (if opOf (accepted p f).words = 0x30 then [] else stagedFoots u (nth (accepted p f).stages 0 {})) = (u, r) := by
    intro u r
    rw [stagedFoots_of_unchecked hacc hop, ite_self]
    rfl
  have hblends : ∀ u, (List.range 1).filter (blendRefused u p (accepted p f)) = [] := by
    intro u
    simp [blendRefused_of_unchecked hacc hop]
  unfold accept
  rw [if_neg (Bool.eq_false_iff.mp (noCopyHere_of_unchecked hstages hop s p))]
  extract_lets h u n r y x v bad gates opened judged
  have hh : h = accepted p f := rfl
  clear_value h
  subst hh
  have hn : n = 1 := hlen
  have hy : y = (u, r) := hfoots u r
  have hgates : gates = [] := by simp only [gates, hn, no_gates_of_one_stage, List.map_nil]
  have hbad : bad = [] := by simp only [bad, hn, hblends]
  have hopened : opened = v := by simp only [opened, hgates, List.foldl_nil]
  have hjudged : judged = v := by simp only [judged, hbad, hopened, List.isEmpty_nil, if_true]
  rw [if_pos (by omega), hjudged]
  simp only [v, x, hy]
  rfl

/-- Settles O47: the eligible press with the lowest number accepts the foremost descriptor; without one, or with an empty queue
and no press free for another's, DISPATCH does nothing. -/
theorem dispatchGives : Obligations.DispatchGives := by
  unfold Obligations.DispatchGives
  intro s k
  refine ⟨?gives, ?waits, ?idle⟩
  case gives =>
    intro f g t p hnext hserving hp hfree hbelow hstages hop
    have hexec : exec (.dispatch k) s = .next (accept s (8 * t + p) f) := by
      change Host.Outcome.next (dispatchTerrace s k.val) = _
      rw [dispatchTerrace_of_eligible hnext hserving (eligible_of_lowest hp hfree hbelow)]
    rw [accept_of_unchecked hstages hop] at hexec
    refine ⟨_, hexec, rfl, ?state, ?run, fun q hq => getPress_setPress_ne _ hq _, rfl⟩
    case state => rw [getPress_setPress_self, inSetup]
    case run =>
      rw [getPress_setPress_self]
      rfl
  case waits =>
    intro f t hnext hserving hnone
    change Host.Outcome.next (dispatchTerrace s k.val) = _
    rw [dispatchTerrace_of_not_eligible hnext hserving (eligible_of_none_free hnone)]
  case idle =>
    intro hqueue hnone
    change Host.Outcome.next (dispatchTerrace s k.val) = _
    rw [dispatchTerrace_of_idle hqueue (eligible_of_none_free hnone)]

end Sys2Proof.Proofs.Dispatch
end

section
/-!
PROOFS. CARD_WRITE (R152, R165 to R167): the card of the descriptor next in stream order at TAIL of its completion ring, and
the ring table's word behind it.
-/
namespace Sys2Proof.Proofs.CardWritten
open Sys2Proof.Machine Sys2Proof.Claims

/-! ### Bytes of the tasting room -/

/-- Without a wrap the bytes of a run stand at consecutive keys. -/
theorem trBytes_eq_map {s : State} {off n : Nat} (h : off + n ≤ 0x2000000) :
    trBytes s off n = (List.range n).map (fun i => memByte s.mem (0x100000000 + off + i)) := by
  refine List.map_congr_left fun i hi => ?_
  have hkey : trAddr (off + i) = 0x100000000 + off + i := by
    have := List.mem_range.mp hi
    simp only [trAddr]
    omega
  rw [hkey]

/-- What the block's own write leaves reads back. -/
theorem trBytes_trStore_self {s : State} {off n : Nat} {bs : List Byte} (hwf : Memory.wf s.mem = true)
    (hue : s.mem.ueWords = []) (hlen : bs.length = n) (h : off + n ≤ 0x2000000) : trBytes (trStore s off bs) off n = bs := by
  subst hlen
  obtain ⟨-, -, -, hbytes, -⟩ := trStore_get s off bs hwf hue h
  rw [trBytes_eq_map h]
  refine List.ext_getElem (by simp) fun i hi hi' => ?_
  rw [List.getElem_map, List.getElem_range, hbytes i hi', List.getD_eq_getElem _ _ hi']

theorem trBytes_of_mem_eq {s t : State} (h : t.mem = s.mem) (off n : Nat) : trBytes t off n = trBytes s off n := by
  simp only [trBytes, h]

/-- Runs whose bytes are the same in both states read the same. -/
theorem trBytes_congr {s t : State} {off n : Nat} (h : off + n ≤ 0x2000000)
    (hbytes : ∀ k, 0x100000000 + off ≤ k → k < 0x100000000 + off + n → memByte t.mem k = memByte s.mem k) :
    trBytes t off n = trBytes s off n := by
  rw [trBytes_eq_map h, trBytes_eq_map h]
  refine List.map_congr_left fun i hi => hbytes _ (by omega) ?_
  have := List.mem_range.mp hi
  omega

/-- A write into the tasting room changes the memory alone. -/
theorem trStore_eq_with_mem (s : State) (off : Nat) (bs : List Byte) : ∃ m, trStore s off bs = { s with mem := m } :=
  ⟨_, rfl⟩

/-! ### The card (R165, R166) -/

/-- The bytes of a card: its words, least significant byte first. -/
def cardBytes (heri : Bool) (f : Flight) (lap : Nat) : List Byte := (cardWords heri f lap).flatMap (leBytes 4)

theorem length_cardBytes (heri : Bool) (f : Flight) (lap : Nat) : (cardBytes heri f lap).length = if heri then 16 else 32 := by
  cases heri <;> rfl

/-- A completion ring after a card: TAIL moves on, and past the last place starts again in the next lap (R152). -/
def ringAfterCard (x : CRing) : CRing :=
  { x with tail := if x.pos + 1 = x.size then 0 else x.pos + 1,
           clap := if x.pos + 1 = x.size then (if x.lap = 255 then 1 else x.lap + 1) else x.lap }

/-- Where a card stands: at TAIL of its completion ring (R165). -/
def cardAt (s : State) (f : Flight) : Nat :=
  64 * (getCRing s (cringOf f)).base + (if heritage s then 16 else 32) * (getCRing s (cringOf f)).pos

/-- Where the ring table holds CLAP and TAIL of a card's completion ring (R151). -/
def ringWordAt (s : State) (f : Flight) : Nat := ringOff s (1024 + cringOf f) + 4

/-- CLAP and TAIL as the ring table holds them. -/
def ringWord (x : CRing) : List Byte := leBytes 4 (x.clap * 65536 + x.tail)

theorem length_ringWord (x : CRing) : (ringWord x).length = 4 := TimeFrames.length_leBytes 4 _

/-- The state with the card stored and its ring moved on, before the ring table's word is written back. -/
def cardStored (s : State) (f : Flight) : State :=
  setCRing (trStore s (cardAt s f) (cardBytes (heritage s) f (getCRing s (cringOf f)).lap)) (cringOf f)
    (ringAfterCard (getCRing s (cringOf f)))

theorem mem_cardStored_eq (s : State) (f : Flight) :
    (cardStored s f).mem = (trStore s (cardAt s f) (cardBytes (heritage s) f (getCRing s (cringOf f)).lap)).mem := by
  rw [cardStored, setCRing]

/-- The ring table stands where it stood. -/
theorem ringOff_cardStored (s : State) (f : Flight) (e : Nat) : ringOff (cardStored s f) e = ringOff s e := by
  obtain ⟨m, hstore⟩ := trStore_eq_with_mem s (cardAt s f) (cardBytes (heritage s) f (getCRing s (cringOf f)).lap)
  rw [cardStored, hstore]
  rfl

theorem storeCard_eq (s : State) (f : Flight) :
    storeCard s f = trStore (cardStored s f) (ringWordAt s f) (ringWord (ringAfterCard (getCRing s (cringOf f)))) := by
  unfold storeCard
  extract_lets c x heri u x' v
  have hx : x' = ringAfterCard x := by
    simp only [x', ringAfterCard]
    split <;> rfl
  have hv : v = cardStored s f := by
    simp only [v, hx]
    rfl
  have hat : ringOff (cardStored s f) (1024 + c) + 4 = ringWordAt s f := by rw [ringOff_cardStored, ringWordAt]
  rw [hx, hv, hat]
  rfl

theorem getCRing_storeCard (s : State) (f : Flight) :
    getCRing (storeCard s f) (cringOf f) = ringAfterCard (getCRing s (cringOf f)) := by
  obtain ⟨m, hstore⟩ := trStore_eq_with_mem (cardStored s f) (ringWordAt s f) (ringWord (ringAfterCard (getCRing s (cringOf f))))
  rw [storeCard_eq, hstore]
  exact smGet_smPut_self _ _ _ _

/-- The card and its ring's word change memory and the ring's state alone. -/
theorem storeCard_eq_with (s : State) (f : Flight) : ∃ m rings, storeCard s f = { s with mem := m, crings := rings } := by
  rw [storeCard_eq, cardStored]
  obtain ⟨m, hcard⟩ := trStore_eq_with_mem s (cardAt s f) (cardBytes (heritage s) f (getCRing s (cringOf f)).lap)
  rw [hcard]
  obtain ⟨m', hword⟩ := trStore_eq_with_mem (setCRing { s with mem := m } (cringOf f) (ringAfterCard (getCRing s (cringOf f))))
    (ringWordAt s f) (ringWord (ringAfterCard (getCRing s (cringOf f))))
  exact ⟨_, _, hword⟩

/-- A sound memory in which the card and its ring's word neither wrap nor meet. -/
structure CardFits (s : State) (f : Flight) : Prop where
  canonical : Memory.wf s.mem = true
  sound : s.mem.ueWords = []
  card : cardAt s f + (if heritage s then 16 else 32) ≤ 0x2000000
  word : ringWordAt s f + 4 ≤ 0x2000000
  apart : cardAt s f + (if heritage s then 16 else 32) ≤ ringWordAt s f ∨ ringWordAt s f + 4 ≤ cardAt s f

section Fits
variable {s : State} {f : Flight} (h : CardFits s f)
include h

/-- The write of the card: the memory stays sound, and bytes outside it stay. -/
theorem mem_cardStored : Memory.wf (cardStored s f).mem = true ∧ (cardStored s f).mem.ueWords = [] ∧
    ∀ k, (k < 0x100000000 + cardAt s f ∨ 0x100000000 + cardAt s f + (if heritage s then 16 else 32) ≤ k) →
      memByte (cardStored s f).mem k = memByte s.mem k := by
  have hlen := length_cardBytes (heritage s) f (getCRing s (cringOf f)).lap
  have hget := trStore_get s (cardAt s f) (cardBytes (heritage s) f (getCRing s (cringOf f)).lap) h.canonical h.sound
    (by rw [hlen]; exact h.card)
  rw [hlen, ← mem_cardStored_eq] at hget
  obtain ⟨hwf, hue, -, -, hframe⟩ := hget
  exact ⟨hwf, hue, hframe⟩

/-- The write of the ring's word: bytes outside it stay. -/
theorem memByte_storeCard_of_not_word {k : Nat}
    (hk : k < 0x100000000 + ringWordAt s f ∨ 0x100000000 + ringWordAt s f + 4 ≤ k) :
    memByte (storeCard s f).mem k = memByte (cardStored s f).mem k := by
  obtain ⟨hwf, hue, -⟩ := mem_cardStored h
  have hget := trStore_get (cardStored s f) (ringWordAt s f) (ringWord (ringAfterCard (getCRing s (cringOf f)))) hwf hue
    (by rw [length_ringWord]; exact h.word)
  rw [length_ringWord, ← storeCard_eq] at hget
  obtain ⟨-, -, -, -, hframe⟩ := hget
  exact hframe k hk

theorem trBytes_card : trBytes (storeCard s f) (cardAt s f) (if heritage s then 16 else 32) =
    cardBytes (heritage s) f (getCRing s (cringOf f)).lap := by
  have hapart := h.apart
  rw [trBytes_congr (s := cardStored s f) h.card fun k hlow hhigh => memByte_storeCard_of_not_word h (by omega),
    trBytes_of_mem_eq (mem_cardStored_eq s f)]
  exact trBytes_trStore_self h.canonical h.sound (length_cardBytes _ _ _) h.card

theorem trBytes_ringWord : trBytes (storeCard s f) (ringWordAt s f) 4 = ringWord (ringAfterCard (getCRing s (cringOf f))) := by
  obtain ⟨hwf, hue, -⟩ := mem_cardStored h
  rw [storeCard_eq]
  exact trBytes_trStore_self hwf hue (length_ringWord _) h.word

/-- Every byte outside the two stays. -/
theorem memByte_storeCard {k : Nat}
    (hcard : k < 0x100000000 + cardAt s f ∨ 0x100000000 + cardAt s f + (if heritage s then 16 else 32) ≤ k)
    (hword : k < 0x100000000 + ringWordAt s f ∨ 0x100000000 + ringWordAt s f + 4 ≤ k) :
    memByte (storeCard s f).mem k = memByte s.mem k := by
  obtain ⟨-, -, hframe⟩ := mem_cardStored h
  rw [memByte_storeCard_of_not_word h hword, hframe k hcard]

end Fits

/-! ### CARD_WRITE -/

/-- A card of this family: accepted by the tap, with no chain, no event message and no event behind it (R168, R170, R171). -/
structure PlainCard (s : State) (f : Flight) : Prop where
  tapped : f.tapped = true
  noChain : bitAt (nth f.words 13 0#32) 31 = false
  noMessage : bitAt (nth f.words 0 0#32) 27 = false
  ringSilent : (getCRing s (cringOf f)).evt = 0
  noRefusal : f.cnt.refFirst = none
  noFailure : f.cnt.failCause = none

theorem writeCard_of_none {s : State} {st : Nat} (h : cardNext s st = none) : writeCard s st = s := by
  simp only [writeCard, h]

theorem writeCard_of_not_tapped {s : State} {st : Nat} {f : Flight} (h : cardNext s st = some f) (htap : f.tapped = false) :
    writeCard s st = s := by
  simp only [writeCard, h, htap, Bool.false_eq_true, if_false]

theorem chain_of_unchained {f : Flight} (h : bitAt (nth f.words 13 0#32) 31 = false) (s : State) : chain s f = s := by
  simp only [chain, h, Bool.false_and, Bool.false_eq_true, if_false]

theorem cardEvt_of_silent {x : CRing} {f : Flight} (hflag : bitAt (nth f.words 0 0#32) 27 = false) (hevt : x.evt = 0)
    (s : State) (heri : Bool) : cardEvt s x f heri = s := by
  have hflag' : flagOf f.words 3 = false := hflag
  simp [cardEvt, wantsEvt, hflag', hevt]

theorem endEvents_of_none {f : Flight} (href : f.cnt.refFirst = none) (hfail : f.cnt.failCause = none) (s : State) :
    endEvents s f = s := by
  simp only [endEvents, href, hfail]

/-- Such a card is stored, and its descriptor leaves flight. -/
theorem writeCard_of_plain {s : State} {st : Nat} {f : Flight} (h : cardNext s st = some f) (hp : PlainCard s f) :
    writeCard s st = { storeCard s f with flights := s.flights.filter (fun g => g.id != f.id) } := by
  have hflights : (storeCard s f).flights = s.flights := by
    obtain ⟨m, rings, hstore⟩ := storeCard_eq_with s f
    rw [hstore]
  simp only [writeCard, h, hp.tapped, if_true, chain_of_unchained hp.noChain,
    cardEvt_of_silent hp.noMessage hp.ringSilent, endEvents_of_none hp.noRefusal hp.noFailure, hflights]

/-- Settles O48: the card is one write of the block and its ring's word another, apart from it. -/
theorem cardWritten : Obligations.CardWritten := by
  unfold Obligations.CardWritten
  intro s st
  refine ⟨fun hnone => congrArg Host.Outcome.next (writeCard_of_none hnone), fun f hnext =>
    ⟨fun htap => congrArg Host.Outcome.next (writeCard_of_not_tapped hnext htap), ?plain⟩⟩
  case plain =>
    rintro _ _ _ _ _ rfl rfl rfl rfl rfl htap hchain hflag hevt href hfail hwf hue hcard hword hapart
    have hfits : CardFits s f := ⟨hwf, hue, hcard, hword, hapart⟩
    have hexec : exec (.cardWrite st) s = .next (writeCard s st.val) := rfl
    rw [writeCard_of_plain hnext ⟨htap, hchain, hflag, hevt, href, hfail⟩] at hexec
    have hring := getCRing_storeCard s f
    have hcardBytes := trBytes_card hfits
    have hwordBytes := (trBytes_ringWord hfits).trans (congrArg ringWord hring.symm)
    have hframe := fun k => memByte_storeCard hfits (k := k)
    obtain ⟨m, rings, hstore⟩ := storeCard_eq_with s f
    rw [hstore] at hexec hring hcardBytes hwordBytes
    simp only [hstore] at hframe
    exact ⟨_, hexec, hcardBytes, hring, hwordBytes, hframe, rfl, rfl⟩

end Sys2Proof.Proofs.CardWritten
end

section
/-!
PROOFS. LOT_VERDICT (R378, R383 to R386): the sideband that a verdict leaves, and the end of the descriptor whose last pass
it judges.
-/
namespace Sys2Proof.Proofs.LotVerdicts
open Sys2Proof.Machine Sys2Proof.Claims

/-! ### Sideband (R376, R377) -/

theorem smGet_smDel_self {α : Type} (m : SMap α) (k : Nat) (d : α) : smGet (smDel m k) k d = d := by
  induction m with
  | nil => rfl
  | cons e m ih =>
    by_cases hk : e.1 = k
    · rwa [smDel, List.filter_cons_of_neg (by simpa using hk)]
    · rw [smDel, List.filter_cons_of_pos (by simpa using hk), smGet, if_neg (Ne.symm hk)]
      exact ih

theorem smGet_smDel_ne {α : Type} (m : SMap α) {k j : Nat} (h : j ≠ k) (d : α) : smGet (smDel m k) j d = smGet m j d := by
  induction m with
  | nil => rfl
  | cons e m ih =>
    by_cases hk : e.1 = k
    · rw [smDel, List.filter_cons_of_neg (by simpa using hk), smGet, if_neg (hk ▸ h)]
      exact ih
    · rw [smDel, List.filter_cons_of_pos (by simpa using hk), smGet, smGet]
      exact if_congr Iff.rfl rfl ih

theorem cells_sbPut (m : Mem) (b : Nat) (v : Word × Word) : (sbPut m b v).cells = m.cells := by
  unfold sbPut
  split <;> rfl

theorem cells_sbWrite (m : Mem) (b : Nat) (whole : Bool) (v : Word × Word) : (sbWrite m b whole v).cells = m.cells := by
  unfold sbWrite
  split
  · exact cells_sbPut m b v
  · rfl

/-- A block of the cellar reads back what was put; a mark other than RECALL reads as FAIL. -/
theorem sbGet_sbPut_self (m : Mem) {b : Nat} (hb : b < 0x100000000 / 2048) (v : Word × Word) :
    sbGet (sbPut m b v) b = if v.1 = 0xFFFFFFFF#32 ∧ v.2 ≠ 2#32 then sbFail else v := by
  have hval : smGet (if v = sbUnchecked then smDel m.sideband b else smPut m.sideband b v) b sbUnchecked = v := by
    split
    · next h => rw [smGet_smDel_self, h]
    · exact smGet_smPut_self _ _ _ _
  rw [sbPut, if_neg (by omega)]
  simp [sbGet, hval]

theorem sbGet_sbPut_ne (m : Mem) {b j : Nat} (h : j ≠ b) (v : Word × Word) : sbGet (sbPut m b v) j = sbGet m j := by
  unfold sbPut
  split
  · rfl
  · have hval : smGet (if v = sbUnchecked then smDel m.sideband b else smPut m.sideband b v) j sbUnchecked =
        smGet m.sideband j sbUnchecked := by
      split
      · exact smGet_smDel_ne _ h _
      · exact smGet_smPut_ne _ h _ _
    simp [sbGet, hval, h]

theorem sbGet_sbWrite_ne (m : Mem) {b j : Nat} (h : j ≠ b) (whole : Bool) (v : Word × Word) :
    sbGet (sbWrite m b whole v) j = sbGet m j := by
  unfold sbWrite
  split
  · exact sbGet_sbPut_ne m h v
  · rfl

/-- A checked block takes its sideband where the pass wrote all of it or it carries no mark (R378). -/
theorem sbGet_sbWrite_self (m : Mem) {b : Nat} (hb : b < 0x100000000 / 2048) (whole : Bool) {v : Word × Word}
    (hv : v.1 ≠ 0xFFFFFFFF#32) :
    sbGet (sbWrite m b whole v) b = if whole || (sbGet m b).1 != 0xFFFFFFFF#32 then v else sbGet m b := by
  unfold sbWrite sbMarked
  rw [← bne]
  split
  · rw [sbGet_sbPut_self m hb, if_neg fun h => hv h.1]
  · rfl

/-! ### A verdict's writes, block by block -/

/-- What a pass wrote in a physical block: its key, whether it is wholly covered, and its sideband. -/
abbrev BlockDigest : Type := Nat × Bool × Word × Word

/-- An operation on one block's sideband. -/
structure OneBlock (g : Mem → BlockDigest → Mem) : Prop where
  cells : ∀ m e, (g m e).cells = m.cells
  others : ∀ m e (b : Nat), b ≠ e.1 → sbGet (g m e) b = sbGet m b

/-- The memory with the sideband of some blocks written, as a pass leaves it (R378). -/
def sidebandWritten (l : List BlockDigest) (m : Mem) : Mem := l.foldl (fun m e => sbWrite m e.1 e.2.1 e.2.2) m

/-- The memory with the FAIL mark on some blocks (R384). -/
def failMarked (l : List BlockDigest) (m : Mem) : Mem := l.foldl (fun m e => sbPut m e.1 sbFail) m

theorem oneBlock_sbWrite : OneBlock (fun m e => sbWrite m e.1 e.2.1 e.2.2) where
  cells m e := cells_sbWrite m e.1 e.2.1 e.2.2
  others m e _ h := sbGet_sbWrite_ne m h e.2.1 e.2.2

theorem oneBlock_sbFail : OneBlock (fun m e => sbPut m e.1 sbFail) where
  cells m e := cells_sbPut m e.1 sbFail
  others m _ _ h := sbGet_sbPut_ne m h sbFail

namespace OneBlock
variable {g : Mem → BlockDigest → Mem} (hg : OneBlock g)
include hg

theorem memByte_foldl (l : List BlockDigest) (m : Mem) (k : Nat) : memByte (l.foldl g m) k = memByte m k := by
  induction l generalizing m with
  | nil => rfl
  | cons e l ih => rw [List.foldl_cons, ih, memByte, hg.cells, ← memByte]

theorem sbGet_foldl_of_notMem {l : List BlockDigest} {b : Nat} (h : b ∉ l.map (·.1)) (m : Mem) :
    sbGet (l.foldl g m) b = sbGet m b := by
  induction l generalizing m with
  | nil => rfl
  | cons e l ih =>
    obtain ⟨hne, hl⟩ := not_or.mp (List.mem_cons.not.mp h)
    rw [List.foldl_cons, ih hl, hg.others m e b hne]

/-- Each block is written once: it reads as the operation leaves it. -/
theorem sbGet_foldl_of_mem {l : List BlockDigest} (hnodup : (l.map (·.1)).Nodup) {e : BlockDigest} (he : e ∈ l)
    {w : Word × Word → Word × Word} (hw : ∀ m, sbGet (g m e) e.1 = w (sbGet m e.1)) (m : Mem) :
    sbGet (l.foldl g m) e.1 = w (sbGet m e.1) := by
  induction l generalizing m with
  | nil => exact absurd he List.not_mem_nil
  | cons a l ih =>
    obtain ⟨ha, hl⟩ := List.nodup_cons.mp hnodup
    rw [List.foldl_cons]
    rcases List.mem_cons.mp he with rfl | hel
    · rw [hg.sbGet_foldl_of_notMem ha, hw]
    · have hne : e.1 ≠ a.1 := fun heq => ha (List.mem_map.mpr ⟨e, hel, heq⟩)
      rw [ih hl hel, hg.others m a e.1 hne]

end OneBlock

/-! ### Descriptors in flight -/

theorem id_of_getFlight {s : State} {id : Nat} {f : Flight} (h : getFlight s id = some f) : f.id = id := by
  simpa using List.find?_some h

theorem getFlight_setFlight_self {s : State} {id : Nat} {f g : Flight} (h : getFlight s id = some f) (hid : g.id = id) :
    getFlight (setFlight s g) id = some g := by
  have hsame : ∀ x : Flight, ((if x.id == g.id then g else x).id == id) = (x.id == id) := by
    intro x
    split
    · next hx => rw [hid] at hx; simp [hid, hx]
    · rfl
  have hfind : s.flights.find? (fun x => x.id == id) = some f := h
  have hf : (f.id == g.id) = true := by simp [id_of_getFlight h, hid]
  simp only [getFlight, setFlight, List.find?_map, Function.comp_def, hsame, hfind, Option.map_some, hf, if_true]

theorem setFlight_setFlight (s : State) {f g : Flight} (h : f.id = g.id) : setFlight (setFlight s f) g = setFlight s g := by
  have heach : ∀ x : Flight, (if (if x.id == f.id then f else x).id == g.id then g else if x.id == f.id then f else x) =
      if x.id == g.id then g else x := by
    intro x
    rw [h]
    split <;> simp_all
  simp only [setFlight, List.map_map, Function.comp_def, heach]

/-- A descriptor replaced by one with its place in the order of finishing leaves the next place. -/
theorem nextFinish_setFlight {s : State} {id : Nat} {f g : Flight} (hnodup : (s.flights.map (·.id)).Nodup)
    (h : getFlight s id = some f) (hid : g.id = id) (hfinish : g.finish = f.finish) :
    nextFinish (setFlight s g) = nextFinish s := by
  have hmem : f ∈ s.flights := List.mem_of_find?_eq_some h
  have heach : ∀ x ∈ s.flights, (if x.id == g.id then g else x).finish = x.finish := by
    intro x hx
    split
    · next heq =>
      have hxf : x.id = f.id := by rw [id_of_getFlight h, ← hid]; simpa using heq
      rw [List.inj_on_of_nodup_map hnodup hx hmem hxf, hfinish]
    · rfl
  have hmap : (setFlight s g).flights.map (·.finish) = s.flights.map (·.finish) := by
    simp only [setFlight, List.map_map, Function.comp_def]
    exact List.map_congr_left heach
  rw [nextFinish, hmap, nextFinish]

theorem updCnt_of_getFlight {s : State} {id : Nat} {f : Flight} (h : getFlight s id = some f) (g : Counts → Counts) :
    updCnt s id g = setFlight s { f with cnt := g f.cnt } := by
  simp only [updCnt, h]

/-! ### A press whose run is over -/

theorem setPress_setPress (s : State) (p : Nat) (a b : Press) : setPress (setPress s p a) p b = setPress s p b := by
  simp only [setPress, smPut_smPut]

/-- A press in FINISH, whose run of a descriptor is over, with no saved frame and no check left to wait for (R206, R383). -/
structure AllChecked (s : State) (p : Nat) (r : Run) (f : Flight) : Prop where
  state : (getPress s p).state = .finish
  run : (getPress s p).run = some r
  saved : (getPress s p).saved = none
  waits : (getPress s p).waits = []
  flight : getFlight s r.fid = some f
  phase : f.phase = .running p
  noDecant : (nth f.stages 0 {}).op ≠ 0x28

/-- The state once the descriptor is finished and its press IDLE (R206). -/
def ended (s : State) (p : Nat) (f : Flight) : State :=
  setPress (setFlight s (finished s { f with press := p })) p { (getPress s p) with run := none, state := .idle }

section AllChecked
variable {s : State} {p : Nat} {r : Run} {f : Flight} (h : AllChecked s p r f)
include h

theorem commitFor_of_allChecked : commitFor s p r.fid = s := by
  simp only [commitFor, h.flight, if_neg h.noDecant]

theorem completeFlight_of_allChecked : completeFlight s p r.fid = ended s p f := by
  simp [completeFlight, ended, h.flight, h.waits, h.run, h.saved, h.state, h.phase]

theorem conclude_of_allChecked : conclude s p = ended s p f := by
  have hid : f.id = r.fid := id_of_getFlight h.flight
  simp [conclude, h.run, h.flight, h.noDecant, h.state, hid, completeFlight_of_allChecked h]

theorem settle_of_allChecked : settle s p = ended s p f := by
  have hrun : (getPress (ended s p f) p).run = none := by rw [ended, getPress_setPress_self]
  simp only [settle, conclude_of_allChecked h, hrun]

/-- A finished descriptor is not completed again. -/
theorem completeFlight_ended : completeFlight (ended s p f) p r.fid = ended s p f := by
  have hid : (finished s { f with press := p }).id = r.fid := id_of_getFlight (f := f) h.flight
  have hflight : getFlight (ended s p f) r.fid = some (finished s { f with press := p }) :=
    getFlight_setFlight_self h.flight hid
  have hphase : (finished s { f with press := p }).phase ≠ .running p := nofun
  simp [completeFlight, hflight, hphase]

end AllChecked

/-! ### The verdict on the last pass of a descriptor of one stage -/

/-- The counts of a descriptor with the blocks of a checked pass (R166). -/
def blocksCounted (w : PassRec) (k : Counts) : Counts :=
  { k with lotBlocks := k.lotBlocks + w.nblocks, lotChecked := k.lotChecked || decide (0 < w.nblocks) }

/-- The counts of a descriptor with a failed pass (R169, R483). -/
def failureCounted (cause : Nat) (k : Counts) : Counts :=
  { k with lotFail := true, failCause := some (k.failCause.getD cause), failPasses := k.failPasses + 1 }

/-- A press that a failure has been charged to (R386). -/
def charged (edge : Nat) (x : Press) : Press := { x with fails := edge :: x.fails, total := x.total + 1 }

/-- The state with a descriptor and the memory as a verdict leaves them. -/
def ruledTo (s : State) (f : Flight) (m : Mem) : State := setMem (setFlight s f) m

/-- The same, with the registers and a press. -/
def judgedTo (s : State) (p : Nat) (f : Flight) (m : Mem) (regs : Regs) (x : Press) : State :=
  setPress { ruledTo s f m with regs := regs } p x

/-- The last pass of a descriptor of one stage, on the press that has stored all of it: it sent nothing, and all of it was
stored and applied. -/
structure LastPass (s : State) (p : Nat) (r : Run) (f : Flight) (g : Stage) (w : PassRec) : Prop where
  state : (getPress s p).state = .finish
  run : (getPress s p).run = some r
  saved : (getPress s p).saved = none
  waits : (getPress s p).waits = []
  flight : getFlight s w.fid = some f
  fid : r.fid = w.fid
  phase : f.phase = .running p
  stages : f.stages = [g]
  noDecant : g.op ≠ 0x28
  stage : w.stage = 0
  noBlend : w.blend = false
  sendsNone : w.keys = []
  storedAll : w.refused = false
  appliedAll : w.unapplied = false

theorem findRun_of_running {s : State} {p fid : Nat} {r : Run} (hrun : (getPress s p).run = some r) (hfid : r.fid = fid) :
    findRun s p fid = some r := by
  simp [findRun, hrun, hfid]

theorem updRun_of_running {s : State} {p fid : Nat} {r : Run} (hrun : (getPress s p).run = some r) (hfid : r.fid = fid)
    (hsaved : (getPress s p).saved = none) (g : Run → Run) :
    updRun s p fid g = setPress s p { (getPress s p) with run := some (g r) } := by
  simp [updRun, hrun, hsaved, hfid]

/-- The last stage hands nothing over: the unit is noted as failed and nothing else (R288). -/
theorem loseUnit_of_one_stage {f : Flight} {g : Stage} (hstages : f.stages = [g]) {c : SCtx} (hj : c.j = 0) (s : State)
    (p n : Nat) (r : Run) :
    loseUnit s p f r c n = updRun s p f.id (fun r => { r with failed := r.failed ++ [(0, n)] }) := by
  have hlast : ¬ 0 + 1 < f.stages.length := by simp [hstages]
  simp only [loseUnit, linkKind, hj, if_neg hlast]

theorem stopDecant_of_other_op {c : SCtx} (h : c.op ≠ 0x28) (s : State) (p : Nat) (f : Flight) (n : Nat) :
    stopDecant s p f c n = s := if_neg h

/-- Below the threshold of R386 a failure is counted and corks nothing. -/
theorem chargePress_of_below {s : State} {p : Nat}
    (h : inWindow s (getPress s p).fails + 1 < corkThresh s) (cause : Nat) :
    chargePress s p cause = setPress (bump s 0xD040 1) p (charged s.time.edges (getPress s p)) := by
  have hcfg : rget (bump s 0xD040 1) 0xD004 = rget s 0xD004 := rget_bump_ne s (by decide) 1
  have hwindow : inWindow (bump s 0xD040 1) (s.time.edges :: (getPress s p).fails) =
      inWindow s (getPress s p).fails + 1 := by
    simp only [inWindow, rfld, hcfg]
    rw [List.filter_cons_of_pos (by simp), List.length_cons]
    rfl
  have hthresh : corkThresh (bump s 0xD040 1) = corkThresh s := by
    simp only [corkThresh, rfld, hcfg]
  unfold chargePress
  extract_lets x u
  have hfails : (getPress u p).fails = s.time.edges :: (getPress s p).fails := by
    simp only [u, x, getPress_setPress_self]
  have hnot : ¬ corkThresh u ≤ inWindow u (getPress u p).fails := by
    rw [hfails]
    exact Nat.not_le.mpr (hwindow.trans_lt (h.trans_eq hthresh.symm))
  rw [if_neg hnot]
  rfl

section LastPass
variable {s : State} {p : Nat} {r : Run} {f : Flight} {g : Stage} {w : PassRec} (h : LastPass s p r f g w)
include h

/-- What a pass leaves: its blocks counted, their sideband written, and the unit noted as passed. -/
theorem judge_of_pass : ∃ r', r'.fid = r.fid ∧ judge s p w none =
    judgedTo s p { f with cnt := blocksCounted w f.cnt } (sidebandWritten w.blocks s.mem) s.regs
      { (getPress s p) with run := some r' } := by
  refine ⟨{ r with passed := r.passed ++ [(w.stage, w.unit)] }, rfl, ?_⟩
  simp only [judge, verdictCause, h.storedAll, h.appliedAll, h.noBlend, h.sendsNone, Bool.false_eq_true, if_false,
    List.foldl_nil, updCnt_of_getFlight h.flight]
  exact updRun_of_running (s := ruledTo s { f with cnt := blocksCounted w f.cnt } _) h.run h.fid h.saved
    (fun r => { r with passed := r.passed ++ [(w.stage, w.unit)] })

/-- A failed pass of a single stage loses its unit; no DECANT stops there. -/
theorem stopDecant_loseUnit_of_last {u : State} {f' : Flight} (hu : getPress u p = getPress s p) (hid : f'.id = w.fid)
    (hstages : f'.stages = [g]) : ∃ r', r'.fid = r.fid ∧
      stopDecant (loseUnit u p f' r (stageCtx u p f' w.stage) w.unit) p f' (stageCtx u p f' w.stage) w.unit =
        setPress u p { (getPress s p) with run := some r' } := by
  refine ⟨{ r with failed := r.failed ++ [(0, w.unit)] }, rfl, ?_⟩
  have hj : (stageCtx u p f' 0).j = 0 := by
    rw [Dispatch.stageCtx_of_one_stage hstages]
    rfl
  have hop : (stageCtx u p f' 0).op ≠ 0x28 := by
    rw [Dispatch.op_stageCtx_of_one_stage hstages]
    exact h.noDecant
  rw [h.stage, stopDecant_of_other_op hop, loseUnit_of_one_stage hstages hj, hid, ← hu]
  exact updRun_of_running (hu ▸ h.run) h.fid (hu ▸ h.saved) (fun r => { r with failed := r.failed ++ [(0, w.unit)] })

/-- What a failed pass leaves before its failure is charged: its blocks counted and marked, and the unit noted as failed. -/
theorem judge_of_cause {fault : Option LotFault} {k : Nat} (hcause : verdictCause w fault = some k) :
    ∃ r', r'.fid = r.fid ∧ judge s p w fault =
      lotFailed (judgedTo s p { f with cnt := blocksCounted w f.cnt } (failMarked w.blocks s.mem)
        s.regs { (getPress s p) with run := some r' }) p w.fid k := by
  let f' : Flight := { f with cnt := blocksCounted w f.cnt }
  let u := ruledTo s f' (failMarked w.blocks s.mem)
  have hid : f'.id = w.fid := id_of_getFlight (f := f) h.flight
  obtain ⟨r', hr', hlost⟩ := stopDecant_loseUnit_of_last h (u := u) rfl hid h.stages
  have hflight : getFlight u w.fid = some f' := getFlight_setFlight_self h.flight hid
  have hrun : findRun u p w.fid = some r := findRun_of_running h.run h.fid
  have hcounted : updCnt s w.fid (blocksCounted w) = setFlight s f' := updCnt_of_getFlight h.flight _
  refine ⟨r', hr', ?_⟩
  have hjudge : judge s p w fault = lotFailed
      (stopDecant (loseUnit u p f' r (stageCtx u p f' w.stage) w.unit) p f' (stageCtx u p f' w.stage) w.unit) p w.fid k := by
    unfold judge
    extract_lets +onlyGivenNames v
    have hv : v = setFlight s f' := hcounted
    clear_value v
    subst hv
    simp only [hcause, h.sendsNone, List.foldl_nil]
    split
    · next f₀ r₀ hf hr =>
      obtain rfl : f' = f₀ := Option.some.inj (hflight.symm.trans hf)
      obtain rfl : r = r₀ := Option.some.inj (hrun.symm.trans hr)
      rfl
    · next hnone => exact (hnone _ _ hflight hrun).elim
  rw [hjudge, hlost]
  rfl

/-- What a store-leg difference leaves below the cork threshold: its blocks counted and marked, the unit noted as failed, and
the failure counted for the descriptor and the press. -/
theorem judge_of_storeLeg
    (hbelow : inWindow s (getPress s p).fails + 1 < corkThresh s) :
    ∃ r', r'.fid = r.fid ∧ judge s p w (some .storeLeg) =
      judgedTo s p { f with cnt := failureCounted 1 (blocksCounted w f.cnt) }
        (failMarked w.blocks s.mem) (bump s 0xD040 1).regs
        (charged s.time.edges { (getPress s p) with run := some r' }) := by
  obtain ⟨r', hr', hjudge⟩ := judge_of_cause h (fault := some .storeLeg) rfl
  let f' : Flight := { f with cnt := blocksCounted w f.cnt }
  let f'' : Flight := { f with cnt := failureCounted 1 (blocksCounted w f.cnt) }
  let m := failMarked w.blocks s.mem
  let x : Press := { (getPress s p) with run := some r' }
  have hid : f'.id = w.fid := id_of_getFlight (f := f) h.flight
  have hflight : getFlight (judgedTo s p f' m s.regs x) w.fid = some f' := getFlight_setFlight_self h.flight hid
  have hcounted : updCnt (judgedTo s p f' m s.regs x) w.fid (failureCounted 1) = judgedTo s p f'' m s.regs x := by
    have hset : setFlight (setFlight s f') f'' = setFlight s f'' := setFlight_setFlight s rfl
    rw [updCnt_of_getFlight hflight]
    exact congrArg (fun u => setPress { setMem u m with regs := s.regs } p x) hset
  have hx : getPress (judgedTo s p f'' m s.regs x) p = x := getPress_setPress_self _ _ _
  have hcharge := chargePress_of_below (s := judgedTo s p f'' m s.regs x) (p := p) (by rw [hx]; exact hbelow) 1
  refine ⟨r', hr', ?_⟩
  rw [hjudge]
  calc
    _ = chargePress (updCnt (judgedTo s p f' m s.regs x) w.fid (failureCounted 1)) p 1 := rfl
    _ = setPress (bump (judgedTo s p f'' m s.regs x) 0xD040 1) p (charged s.time.edges x) := by
      rw [hcounted, hcharge, hx]
      rfl
    _ = judgedTo s p f'' m (bump s 0xD040 1).regs (charged s.time.edges x) :=
      setPress_setPress { ruledTo s f'' m with regs := (bump s 0xD040 1).regs } p x _

end LastPass

/-! ### The end of the descriptor -/

/-- The press with its last stored pass taken for judgement. -/
def lastTaken (s : State) (p : Nat) : State := setPress s p { (getPress s p) with waits := [] }

/-- A descriptor that its press has finished, with its counts. -/
def finishedOn (s : State) (p : Nat) (f : Flight) (cnt : Counts) : Flight :=
  { f with phase := .finished, finish := nextFinish s, press := p, cnt := cnt }

/-- What follows the verdict on the last pass ends the descriptor. -/
theorem judgeOldest_of_last {s : State} {p : Nat} {w : PassRec} {r : Run} {f : Flight} {fault : Option LotFault}
    (hwaits : (getPress s p).waits = [w]) (hfid : r.fid = w.fid)
    (h : AllChecked (judge (lastTaken s p) p w fault) p r f) :
    judgeOldest s p fault = ended (judge (lastTaken s p) p w fault) p f := by
  have htaken : judgeOldest s p fault =
      completeFlight (settle (commitFor (judge (lastTaken s p) p w fault) p w.fid) p) p w.fid := by
    simp only [judgeOldest, hwaits]
    rfl
  rw [htaken, ← hfid, commitFor_of_allChecked h, settle_of_allChecked h, completeFlight_ended h]

section Ends
variable {s : State} {p : Nat} {r r' : Run} {f : Flight} {g : Stage} {w : PassRec} (h : LastPass (lastTaken s p) p r f g w)
  (hrun : r'.fid = r.fid)
include h hrun

/-- After the verdict on the last pass nothing is left to wait for. -/
theorem allChecked_of_judged (cnt : Counts) (m : Mem) (regs : Regs) {x : Press} (hx : x.state = .finish) (hr : x.run = some r')
    (hsaved : x.saved = none) (hwaits : x.waits = []) :
    AllChecked (judgedTo (lastTaken s p) p { f with cnt := cnt } m regs x) p r' { f with cnt := cnt } := by
  have hpress : getPress (judgedTo (lastTaken s p) p { f with cnt := cnt } m regs x) p = x := getPress_setPress_self _ _ _
  have hid : f.id = r'.fid := by rw [id_of_getFlight h.flight, hrun, h.fid]
  have hflight : getFlight (lastTaken s p) r'.fid = some f := by rw [hrun, h.fid, h.flight]
  refine ⟨by rw [hpress, hx], by rw [hpress, hr], by rw [hpress, hsaved], by rw [hpress, hwaits],
    getFlight_setFlight_self (g := { f with cnt := cnt }) hflight hid, h.phase, ?_⟩
  rw [Dispatch.nth_stages_zero (f := { f with cnt := cnt }) h.stages]
  exact h.noDecant

/-- The verdict on the last pass ends the descriptor and leaves its press IDLE. -/
theorem judgeOldest_of_judged (hw : (getPress s p).waits = [w]) (hnodup : (s.flights.map (·.id)).Nodup)
    {fault : Option LotFault} {cnt : Counts} {m : Mem} {regs : Regs} {x : Press} (hx : x.state = .finish) (hr : x.run = some r')
    (hsaved : x.saved = none) (hwaits : x.waits = [])
    (hjudge : judge (lastTaken s p) p w fault = judgedTo (lastTaken s p) p { f with cnt := cnt } m regs x) :
    judgeOldest s p fault = judgedTo (lastTaken s p) p (finishedOn s p f cnt) m regs { x with run := none, state := .idle } := by
  let f' : Flight := { f with cnt := cnt }
  let u := judgedTo (lastTaken s p) p f' m regs x
  have hall : AllChecked (judge (lastTaken s p) p w fault) p r' f' := by
    rw [hjudge]
    exact allChecked_of_judged h hrun cnt m regs hx hr hsaved hwaits
  have hid : f'.id = w.fid := id_of_getFlight (f := f) h.flight
  have hnext : nextFinish (setFlight (lastTaken s p) f') = nextFinish (lastTaken s p) :=
    nextFinish_setFlight hnodup h.flight hid rfl
  have hfinished : finished u { f' with press := p } = finishedOn s p f cnt := by
    have hplace : nextFinish u = nextFinish s := hnext
    exact congrArg (fun n => { finishedOn s p f cnt with finish := n }) hplace
  have hset : setFlight (setFlight (lastTaken s p) f') (finishedOn s p f cnt) =
    setFlight (lastTaken s p) (finishedOn s p f cnt) := setFlight_setFlight _ rfl
  have hpress : getPress u p = x := getPress_setPress_self _ _ _
  rw [judgeOldest_of_last hw (hrun.trans h.fid) hall, hjudge]
  calc
    _ = setPress (setFlight u (finished u { f' with press := p })) p { (getPress u p) with run := none, state := .idle } := rfl
    _ = setPress (setPress { setMem (setFlight (setFlight (lastTaken s p) f') (finishedOn s p f cnt)) m with regs := regs } p x)
        p { x with run := none, state := .idle } := by
      rw [hfinished, hpress]
      rfl
    _ = _ := by
      rw [setPress_setPress, hset]
      rfl

end Ends

/-! ### The two verdicts -/

theorem exec_lotVerdict_none (s : State) (p : Fin 64) : exec (.lotVerdict p none) s = .next (judgeOldest s p.val none) := rfl

theorem exec_lotVerdict_storeLeg (s : State) (p : Fin 64) :
    exec (.lotVerdict p (some .storeLeg)) s = .next (judgeOldest s p.val (some .storeLeg)) := rfl

/-- A press whose last pass is taken differs in its waits alone. -/
theorem getPress_lastTaken (s : State) (p : Nat) : getPress (lastTaken s p) p = { (getPress s p) with waits := [] } :=
  getPress_setPress_self _ _ _

theorem getPress_judgedTo_ne (s : State) {p q : Nat} (hq : q ≠ p) (f : Flight) (m : Mem) (regs : Regs) (x : Press) :
    getPress (judgedTo (lastTaken s p) p f m regs x) q = getPress s q :=
  (getPress_setPress_ne _ hq x).trans (getPress_setPress_ne s hq _)

/-- Settles O52: either verdict writes the sideband of the pass's blocks, each once, and ends the descriptor; a store-leg
difference is charged to the press as well. -/
theorem lotVerdicts : Obligations.LotVerdicts := by
  unfold Obligations.LotVerdicts
  intro s p r f g w hpress hflight hfid hphase hstages hop hstage hblend hkeys hrefused hunapplied hblocks hnodup hcellar
  have hstate : (getPress s p).state = .finish := congrArg Press.state hpress
  have hrun : (getPress s p).run = some r := congrArg Press.run hpress
  have hsaved : (getPress s p).saved = none := congrArg Press.saved hpress
  have hwaits : (getPress s p).waits = [w] := congrArg Press.waits hpress
  have htaken := getPress_lastTaken s p
  have h : LastPass (lastTaken s p) p r f g w :=
    { state := by rw [htaken, hstate], run := by rw [htaken, hrun], saved := by rw [htaken, hsaved], waits := by rw [htaken]
      flight := hflight, fid := hfid, phase := hphase, stages := hstages, noDecant := hop, stage := hstage, noBlend := hblend
      sendsNone := hkeys, storedAll := hrefused, appliedAll := hunapplied }
  refine ⟨?pass, fun hbelow => ?storeLeg⟩
  case pass =>
    obtain ⟨r', hr', hjudge⟩ := judge_of_pass h
    rw [htaken] at hjudge
    have hend := judgeOldest_of_judged h hr' hwaits hnodup (x := { (getPress s p) with waits := [], run := some r' })
      hstate rfl hsaved rfl hjudge
    refine ⟨_, (exec_lotVerdict_none s p).trans (congrArg _ hend), rfl, ?press, ?others, ?blocks, ?outside, ?bytes, ?frame⟩
    case press => exact getPress_setPress_self _ _ _
    case others => exact fun q hq => getPress_judgedTo_ne s hq _ _ _ _
    case blocks =>
      intro e he hmark
      exact oneBlock_sbWrite.sbGet_foldl_of_mem hblocks he
        (w := fun old => if e.2.1 || old.1 != 0xFFFFFFFF#32 then e.2.2 else old)
        (fun m => sbGet_sbWrite_self m (hcellar e he) e.2.1 hmark) s.mem
    case outside => exact fun b hb => oneBlock_sbWrite.sbGet_foldl_of_notMem hb s.mem
    case bytes => exact fun k => oneBlock_sbWrite.memByte_foldl w.blocks s.mem k
    case frame => simp only [judgedTo, ruledTo, lastTaken, setPress, setMem, setFlight]
  case storeLeg =>
    obtain ⟨r', hr', hjudge⟩ := judge_of_storeLeg h (by rw [htaken]; exact hbelow)
    rw [htaken] at hjudge
    have hend := judgeOldest_of_judged h hr' hwaits hnodup
      (x := charged s.time.edges { (getPress s p) with waits := [], run := some r' }) hstate rfl hsaved rfl hjudge
    refine ⟨_, (exec_lotVerdict_storeLeg s p).trans (congrArg _ hend), rfl, ?press, ?others, ?blocks, ?outside, ?bytes,
      ?counter, ?registers, ?frame⟩
    case press => exact getPress_setPress_self _ _ _
    case others => exact fun q hq => getPress_judgedTo_ne s hq _ _ _ _
    case blocks =>
      intro e he
      exact oneBlock_sbFail.sbGet_foldl_of_mem hblocks he (w := fun _ => sbFail)
        (fun m => sbGet_sbPut_self m (hcellar e he) sbFail) s.mem
    case outside => exact fun b hb => oneBlock_sbFail.sbGet_foldl_of_notMem hb s.mem
    case bytes => exact fun k => oneBlock_sbFail.memByte_foldl w.blocks s.mem k
    case counter => exact rget_bump_self s 0xD040 1
    case registers => exact fun o ho => rget_bump_ne s ho 1
    case frame => simp only [judgedTo, ruledTo, lastTaken, setPress, setMem, setFlight]

end Sys2Proof.Proofs.LotVerdicts
end

section
/-!
PROOFS. What the commands of presses and of dispatch leave unchanged (R149, R164, R174 to R176, R186, R384).
-/
namespace Sys2Proof.Proofs.PressFrame
open Sys2Proof.Machine Sys2Proof.Claims

/-- Each command of presses leaves fabric time (waiting exchanges apart), rings, vintages, door, agent, tally and boot state. -/
theorem exec_still_of_pressCommand {c : Instr} (s : State) (h : pressCommand c = true) : StillOut s (exec c s) := by
  cases c with
  | rack p => exact still_execRack s p
  | riddle p => exact still_execRiddle s p
  | permute p => exact still_execPermute s p
  | fill p => exact still_execFill s p
  | decant p => exact still_execDecant s p
  | gather p => exact still_execGather s p
  | scatter p => exact still_execScatter s p
  | scatterAdd p => exact still_execScatterAdd s p
  | pool p => exact still_execPool s p
  | interact p => exact still_execInteract s p
  | sort p => exact still_execSort s p
  | topk p => exact still_execTopk s p
  | egress p => exact still_execEgress s p
  | multicast p => exact still_execMulticast s p
  | blend p => exact still_execBlend s p
  | loadLineReturn p => exact still_execLoadLineReturn s p
  | passStore p read => exact still_execPassStore s p read
  | lotVerdict p fault => exact still_execLotVerdict s p fault
  | fabricReadTimeout p tag => exact still_execFabricReadTimeout s p tag
  | stagingCopyDone p => exact still_execStagingCopyDone s p
  | sortTableGrant x => exact still_execSortTableGrant s x
  | saveFrameDone p => exact still_execSaveFrameDone s p
  | resume p => exact still_execResume s p
  | dispatch x => exact still_execDispatch s x
  | nop st => exact still_execNop s st
  | opReserved st => exact still_execOpReserved s st
  | fence st => exact still_execFence s st
  | fenceComplete st => exact still_execFenceComplete s st
  | _ => cases h

/-- None of them is a command of the test access port or of the tally, or the thermal trip. -/
theorem outsideKeep_eq_false_of_pressCommand {c : Instr} (h : pressCommand c = true) : outsideKeep c = false := by
  cases c with
  | extest | idcode | samplePreload | clamp | highz | bypass | testLogicReset | thermTrip => cases h
  | tapRecord | periodicCheckpoint | statement | finalCheckpoint | tallyRestore | tallyHoldup | refclkRestored => cases h
  | _ => rfl

/-- Settles O50: the two frames that every operation of a press keeps, `Still` and `Keep`, name all these parts. -/
theorem pressCommandsFrame : Obligations.PressCommandsFrame := by
  unfold Obligations.PressCommandsFrame
  intro c s t hc ht
  have hstill := exec_still_of_pressCommand s hc t ht
  have hkeep := exec_keep s c (outsideKeep_eq_false_of_pressCommand hc) t ht
  exact ⟨hstill.time, hstill.drings, hstill.crings, hstill.vint, hstill.door, hstill.mgmt, hstill.tally, hstill.boot,
    hkeep.jtag, hkeep.therm, hkeep.pending⟩

end Sys2Proof.Proofs.PressFrame
end

section
/-!
PROOFS. The first uncorrectable error of a board (R183): the pass in load starts again.
-/
namespace Sys2Proof.Proofs.BoardError
open Sys2Proof.Machine Sys2Proof.Claims

/-! ### A press in the midst of a pass of a single stage -/

/-- A press that loads a unit of a descriptor of one stage, whose operands are all on this node. -/
structure LoadsHere (s : State) (p : Nat) (r : Run) (f : Flight) (g : Stage) : Prop where
  state : (getPress s p).state = .run
  run : (getPress s p).run = some r
  flight : getFlight s r.fid = some f
  loading : r.loading = true
  stages : f.stages = [g]
  noDecant : g.op ≠ 0x28
  readsHere : looksAhead s (stageCtx s p f 0) = false

theorem stageCtx_setPress (s : State) (p : Nat) (x : Press) (q : Nat) (f : Flight) (j : Nat) :
    stageCtx (setPress s p x) q f j = stageCtx s q f j := rfl

theorem looksAhead_setPress (s : State) (p : Nat) (x : Press) (c : SCtx) :
    looksAhead (setPress s p x) c = looksAhead s c := rfl

/-- A descriptor of one stage hands nothing over that could bar a preemption (R292). -/
theorem barsPreempt_of_one_stage {f : Flight} {g : Stage} (h : f.stages = [g]) (s : State) (p : Nat) (r : Run) :
    barsPreempt s p f r = false := by
  simp [barsPreempt, h]

theorem pickUnit_of_loading {s : State} {p : Nat} {r : Run} {f : Flight} (hrun : (getPress s p).run = some r)
    (hflight : getFlight s r.fid = some f) (hload : r.loading = true) (k : Nat) : pickUnit s p k = s := by
  cases k with
  | zero => rfl
  | succ k => simp only [pickUnit, hrun, hflight, hload, Bool.true_or, if_true]

/-- Where every operand is on this node there is nothing to ask for ahead (R178). -/
theorem readAhead_of_local {f : Flight} {g : Stage} (h : f.stages = [g]) {s : State} {p : Nat}
    (hlocal : looksAhead s (stageCtx s p f 0) = false) (r : Run) : readAhead s p f r = (s, r) := by
  have hone : List.range f.stages.length = [0] := by rw [h]; rfl
  unfold readAhead
  split
  · rfl
  · simp [hone, hlocal]

namespace LoadsHere
variable {s : State} {p : Nat} {r : Run} {f : Flight} {g : Stage} (h : LoadsHere s p r f g)
include h

/-- The same press after a change of its run that stays in the pass. -/
theorem put {r' : Run} (hfid : r'.fid = r.fid) (hload : r'.loading = true) : LoadsHere (putRun s p r') p r' f g where
  state := by rw [putRun, getPress_setPress_self, h.state]
  run := by rw [putRun, getPress_setPress_self]
  flight := by rw [hfid]; exact h.flight
  loading := hload
  stages := h.stages
  noDecant := h.noDecant
  readsHere := h.readsHere

theorem conclude_eq : conclude s p = putRun s p { r with barred := false } := by
  have hop : (nth f.stages 0 {}).op ≠ 0x28 := by
    rw [Dispatch.nth_stages_zero h.stages]
    exact h.noDecant
  simp [conclude, h.run, h.flight, hop, h.state, pickUnit_of_loading h.run h.flight h.loading, h.loading,
    barsPreempt_of_one_stage h.stages]

/-- Nothing follows a change of such a press but that it may be preempted. -/
theorem settle_eq : settle s p = putRun s p { r with barred := false } := by
  have hput := h.put (r' := { r with barred := false }) rfl h.loading
  simp only [settle, h.conclude_eq, hput.run, hput.flight, readAhead_of_local hput.stages hput.readsHere]
  rw [putRun, putRun, LotVerdicts.setPress_setPress, getPress_setPress_self]

end LoadsHere

/-! ### The error -/

theorem unitComplete_of_rows_valid {s : State} {p n : Nat} {r : Run} {c : SCtx} {u : WUnit} (hkind : u.kind = 0)
    (hvalid : ∀ k, k < u.rows → (getBoard (getPress s p) (useBack c n u)).valid.getLsbD k = true) :
    unitComplete s p r c u n = true := by
  have hrows : firstRow (getBoard (getPress s p) (useBack c n u)) u.rows = none := by
    simp only [firstRow, List.find?_eq_none, List.mem_range]
    intro k hk
    simp [hvalid k hk]
  simp only [unitComplete, hkind, hrows, Option.isNone_none]

/-- A press whose board is cleared for the pass to be loaded again (R183). -/
def reloading (x : Press) (r : Run) (b : Bool) : Press :=
  { setBoard x b { getBoard x b with valid := 0 } with
    run := some { r with boardUeOnce := true, accM := 0, accP := 0, vtags := [] } }

theorem state_setBoard (x : Press) (b : Bool) (y : Board) : (setBoard x b y).state = x.state := by
  cases b <;> rfl

/-- The first error of a complete unit clears its board and nothing else. -/
theorem boardError_of_first {s : State} {p : Nat} {r : Run} {f : Flight} {g : Stage} (h : LoadsHere s p r f g)
    (hfirst : r.boardUeOnce = false) {c : SCtx} (hc : c = stageCtx s p f r.stage) {u : WUnit}
    (hu : u = unitOf s p f r c r.unit) (hkind : u.kind = 0) (hcomplete : unitComplete s p r c u r.unit = true) :
    boardError s p = setPress s p (reloading (getPress s p) r (useBack c r.unit u)) := by
  subst hc hu
  simp only [boardError, h.run, h.flight, h.state, h.loading, hcomplete, hkind, hfirst, reloading]
  rfl

theorem startRun_of_running {s : State} {p : Nat} (h : (getPress s p).state = .run) : startRun s p = s := by
  simp [startRun, h]

/-- Settles O51: the error clears the board, and a press that goes on loading its pass has nothing else to do. -/
theorem boardErrorReloads : Obligations.BoardErrorReloads := by
  unfold Obligations.BoardErrorReloads
  rintro s p r f g _ _ _ hstate hrun hload hfirst hflight hstages hop hstage rfl hlocal rfl hkind rfl hvalid
  let c := stageCtx s p.val f 0
  let b := useBack c r.unit (unitOf s p.val f r c r.unit)
  have h : LoadsHere s p.val r f g := ⟨hstate, hrun, hflight, hload, hstages, hop, hlocal⟩
  have herror := boardError_of_first h hfirst (c := c) (by rw [hstage]) rfl hkind (unitComplete_of_rows_valid hkind hvalid)
  let r' : Run := { r with boardUeOnce := true, accM := 0, accP := 0, vtags := [] }
  let x := reloading (getPress s p.val) r b
  have hafter : LoadsHere (setPress s p.val x) p.val r' f g :=
    { state := by rw [getPress_setPress_self]; exact (state_setBoard _ _ _).trans hstate
      run := by rw [getPress_setPress_self]; rfl
      flight := hflight, loading := hload, stages := hstages, noDecant := hop, readsHere := hlocal }
  have hexec : exec (.passStore p .uncorrectable) s =
      .next (putRun (setPress s p.val x) p.val { r' with barred := false }) := by
    change Host.Outcome.next (settle (boardError (startRun s p.val) p.val) p.val) = _
    rw [startRun_of_running hstate, herror, hafter.settle_eq]
  refine ⟨_, hexec, ?press, ?others, rfl⟩
  case press =>
    rw [putRun, getPress_setPress_self, getPress_setPress_self]
    rfl
  case others =>
    intro q hq
    rw [putRun, getPress_setPress_ne _ hq, getPress_setPress_ne _ hq]

end Sys2Proof.Proofs.BoardError
end

section
/-!
PROOFS. What a press waits for: the grant of its terrace's sorting table (R260), a fabric read that is asked for again or
dead (R199, R200), and its staging copy (R214).
-/
namespace Sys2Proof.Proofs.PressWaits
open Sys2Proof.Machine Sys2Proof.Claims

/-! ### The sorting table's grant (R260) -/

theorem nextGrant_of_none_waiting {t : SortTable} (h : t.waiting = []) : nextGrant t = none := by
  simp [nextGrant, h]

/-- The press granted next, as a search over the distances from the one last granted. -/
theorem nextGrant_eq (t : SortTable) :
    nextGrant t = (List.range 8).findSome? (fun d => t.waiting.find? (fun p => p % 8 == (t.last + (d + 1)) % 8)) := by
  change (((List.range 8).map (fun d => (t.last + (d + 1)) % 8)).findSome? _) = _
  rw [List.findSome?_map]
  rfl

/-- The first number below a bound for which a search finds something. -/
theorem findSome?_range_eq_some {α : Type} {g : Nat → Option α} {n d : Nat} {a : α} (hd : d < n) (ha : g d = some a)
    (hbelow : ∀ k < d, g k = none) : (List.range n).findSome? g = some a := by
  obtain ⟨m, rfl⟩ : ∃ m, n = d + (m + 1) := ⟨n - d - 1, by omega⟩
  rw [List.range_add, List.range_succ_eq_map, List.map_cons, Nat.add_zero]
  exact List.findSome?_eq_some_iff.mpr ⟨_, d, _, rfl, ha, fun k hk => hbelow k (List.mem_range.mp hk)⟩

theorem find?_eq_some_of_unique {α : Type} {l : List α} {P : α → Bool} {a : α} (ha : a ∈ l) (hP : P a = true)
    (hunique : ∀ b ∈ l, P b = true → b = a) : l.find? P = some a := by
  obtain ⟨b, hb⟩ := Option.isSome_iff_exists.mp (List.find?_isSome.mpr ⟨a, ha, hP⟩)
  rw [hb, hunique b (List.mem_of_find?_eq_some hb) (List.find?_some hb)]

/-- The waiting press nearest after the one last granted is granted next. -/
theorem nextGrant_of_nearest {t : SortTable} {p : Nat} (hp : p ∈ t.waiting) (hlast : t.last < 8)
    (hunique : ∀ q ∈ t.waiting, q % 8 = p % 8 → q = p)
    (hnearest : ∀ q ∈ t.waiting, (p + 7 - t.last) % 8 ≤ (q + 7 - t.last) % 8) : nextGrant t = some p := by
  rw [nextGrant_eq]
  refine findSome?_range_eq_some (d := (p + 7 - t.last) % 8) (Nat.mod_lt _ (by decide)) ?found ?below
  case found =>
    refine find?_eq_some_of_unique hp (by simp only [beq_iff_eq]; omega) fun q hq hPq => hunique q hq ?_
    simp only [beq_iff_eq] at hPq
    omega
  case below =>
    intro k hk
    rw [List.find?_eq_none]
    intro q hq hPq
    have := hnearest q hq
    simp only [beq_iff_eq] at hPq
    omega

theorem exec_sortTableGrant_of_none (s : State) (x : Fin 8)
    (h : (getTable s x.val).owner ≠ none ∨ (getTable s x.val).waiting = []) : exec (.sortTableGrant x) s = .next s := by
  change execSortTableGrant x s = _
  unfold execSortTableGrant
  extract_lets t
  rcases h with h | h
  · split
    · next howner _ => exact absurd howner h
    · rfl
  · rw [nextGrant_of_none_waiting h]
    split
    · next hnone => cases hnone
    · rfl

theorem exec_sortTableGrant_of_next {s : State} {x : Fin 8} {p : Nat} (howner : (getTable s x.val).owner = none)
    (hnext : nextGrant (getTable s x.val) = some p) :
    exec (.sortTableGrant x) s = .next (setTable s x.val
      { getTable s x.val with
          owner := some p, waiting := (getTable s x.val).waiting.filter (· != p), last := p % 8, pairs := [] }) := by
  change execSortTableGrant x s = _
  simp only [execSortTableGrant, howner, hnext]

/-! ### A press in SETUP -/

/-- A press that has accepted a descriptor, no DECANT, and has not begun to run it. -/
structure InSetup (s : State) (p : Nat) (r : Run) (f : Flight) : Prop where
  state : (getPress s p).state = .setup
  run : (getPress s p).run = some r
  flight : getFlight s r.fid = some f
  noDecant : (nth f.stages 0 {}).op ≠ 0x28

namespace InSetup
variable {s : State} {p : Nat} {r : Run} {f : Flight} (h : InSetup s p r f)
include h

/-- The descriptor of a press in SETUP is at work. -/
theorem completeFlight_eq : completeFlight s p f.id = s := by
  have hid : f.id = r.fid := LotVerdicts.id_of_getFlight h.flight
  simp [completeFlight, hid, h.flight, h.run, h.state]

theorem conclude_eq : conclude s p = s := by
  simp [conclude, h.run, h.flight, h.noDecant, h.state, h.completeFlight_eq]

/-- Nothing follows a change of such a press. -/
theorem settle_eq : settle s p = putRun s p r := by
  simp [settle, h.conclude_eq, h.run, h.flight, readAhead, h.state]

/-- Another state with the same descriptors, whose press differs in its run alone. -/
theorem of_press {u : State} {r' : Run} (hflights : u.flights = s.flights)
    (hpress : getPress u p = { getPress s p with run := some r' }) (hfid : r'.fid = r.fid) : InSetup u p r' f where
  state := by rw [hpress, h.state]
  run := by rw [hpress]
  flight := by rw [hfid, getFlight, hflights]; exact h.flight
  noDecant := h.noDecant

end InSetup

theorem putRun_putRun (s : State) (p : Nat) (a b : Run) : putRun (putRun s p a) p b = putRun s p b := by
  rw [putRun, putRun, LotVerdicts.setPress_setPress, getPress_setPress_self, putRun]

/-- A press in SETUP takes a new run, and nothing follows. -/
theorem settle_putRun_of_setup {s u : State} {p : Nat} {r r' : Run} {f : Flight} (h : InSetup s p r f)
    (hflights : u.flights = s.flights) (hpress : getPress u p = getPress s p) (hfid : r'.fid = r.fid) :
    settle (putRun u p r') p = putRun u p r' := by
  have hset : InSetup (putRun u p r') p r' f :=
    h.of_press hflights (by rw [putRun, getPress_setPress_self, hpress]) hfid
  rw [hset.settle_eq, putRun_putRun]

/-! ### A read that has failed (R199, R200) -/

theorem outstanding_of_none_flying {s : State} {p tag : Nat} {r : Run} (hrun : (getPress s p).run = some r)
    (h : ∀ e ∈ r.reads, e.tag = tag → e.flying = false) : outstanding s p tag = none := by
  simp only [outstanding, hrun, Option.bind_some, List.find?_eq_none, Bool.and_eq_true, beq_iff_eq, not_and,
    Bool.not_eq_true]
  exact h

/-- A read that is the only one on its way under its tag. -/
structure OnlyFlying (r : Run) (e : FRead) : Prop where
  mem : e ∈ r.reads
  flying : e.flying = true
  only : ∀ y ∈ r.reads, y.tag = e.tag → y.flying = true → y = e

theorem outstanding_of_only {s : State} {p : Nat} {r : Run} {e : FRead} (hrun : (getPress s p).run = some r)
    (h : OnlyFlying r e) : outstanding s p e.tag = some e := by
  simp only [outstanding, hrun, Option.bind_some]
  refine find?_eq_some_of_unique h.mem (by simp [h.flying]) fun y hy hP => ?_
  simp only [Bool.and_eq_true, beq_iff_eq] at hP
  exact h.only y hy hP.1 hP.2

/-- A run with one of its reads replaced. -/
def readReplaced (r : Run) (e e' : FRead) : Run := { r with reads := r.reads.map (fun y => if y = e then e' else y) }

/-- Such a read replaced by another under its tag: the other reads stay. -/
theorem putRead_of_only {s : State} {p : Nat} {r : Run} {e e' : FRead} (hrun : (getPress s p).run = some r)
    (h : OnlyFlying r e) (htag : e'.tag = e.tag) : putRead s p e' = putRun s p (readReplaced r e e') := by
  have heach : r.reads.map (fun y => if y.tag = e'.tag ∧ y.flying then e' else y) =
      r.reads.map (fun y => if y = e then e' else y) := by
    refine List.map_congr_left fun y hy => if_congr ⟨fun hP => ?_, fun hy => ?_⟩ rfl rfl
    · exact h.only y hy (hP.1.trans htag) hP.2
    · exact ⟨by rw [hy, htag], by rw [hy, h.flying]⟩
  simp only [putRead, putRun, readReplaced, hrun, Option.map_some, heach]

theorem exec_fabricReadTimeout_of_only {s : State} {p : Fin 64} {r : Run} {e : FRead}
    (hrun : (getPress s p.val).run = some r) (h : OnlyFlying r e) (htag : e.tag < 2 ^ 18) :
    exec (.fabricReadTimeout p (BitVec.ofNat 18 e.tag)) s = .next (settle (failRead s p.val e true) p.val) := by
  have hnat : (BitVec.ofNat 18 e.tag).toNat = e.tag := by rw [BitVec.toNat_ofNat, Nat.mod_eq_of_lt htag]
  change execFabricReadTimeout p (BitVec.ofNat 18 e.tag) s = _
  simp only [execFabricReadTimeout, hnat, outstanding_of_only hrun h]

/-- With no attempt left the read is dead (R200). -/
theorem failRead_of_no_attempt {s : State} {p : Nat} {r : Run} {e : FRead} (hrun : (getPress s p).run = some r)
    (h : OnlyFlying r e) (hlast : fabRetry s < e.fails + 1) :
    failRead s p e true = putRun s p (readReplaced r e { e with fails := e.fails + 1, dead := true }) := by
  have hnone : ¬ e.fails + 1 ≤ fabRetry s := by omega
  simp only [failRead, hnone, decide_false, Bool.and_false, Bool.false_eq_true, if_false]
  exact putRead_of_only hrun h rfl

/-! ### A transaction of this node that leaves at once (R319, R332) -/

/-- A transaction as this node sends it (R333). -/
def own (s : State) (t : Txn) : Txn := { t with hops := 63, snode := BitVec.ofNat 16 (nodeId s) }

/-- A transaction other than a TIME frame, framed at once, changes the fabric's own state and what is put out. -/
theorem enqueue_of_goesOut {s : State} {n : Nat} {t : Txn} (h : GoesOut s n t) (htyp : t.typ ≠ 6) (pin : Option Pin)
    (key : Option Nat) :
    ∃ fab l, enqueue s n { txn := t, pin := pin, own := key } = { s with fab := fab, outbox := l ++ .frame n t :: s.outbox } := by
  obtain ⟨q, l, -, henq, -⟩ := enqueue_one s n { txn := t, pin := pin, own := key } rfl h.works h.free h.credits h.room
  have hstamp : stampTime s n (getPort s n) t = (s, getPort s n, t) := if_pos htyp
  rw [leaving, hstamp] at henq
  exact ⟨_, l, henq⟩

theorem sendTxn_of_goesOut {s : State} {n : Nat} {t : Txn} (h : GoesOut s n (own s t)) (htyp : t.typ ≠ 6) (pin : Option Pin)
    (key : Option Nat) :
    ∃ fab l, sendTxn s t pin key = ({ s with fab := fab, outbox := l ++ .frame n (own s t) :: s.outbox }, true) := by
  obtain ⟨fab, l, henq⟩ := enqueue_of_goesOut h (by exact htyp) pin key
  refine ⟨fab, l, ?_⟩
  have hroute : chooseRoute s { t with hops := 63, snode := BitVec.ofNat 16 (nodeId s) } = some n := h.route
  simp only [sendTxn, hroute]
  exact congrArg (·, true) henq

/-! ### The read asked for again (R199) -/

/-- The transaction that asks for a read. -/
def askOf (e : FRead) : Txn := readTxn e.tag e.node e.addr e.lines e.table

theorem mostCredits_congr {s u : State} (h : u.fab = s.fab) (vc : Nat) (l : List Nat) :
    mostCredits u vc l = mostCredits s vc l := by
  induction l with
  | nil => rfl
  | cons n l ih =>
    have hport : ∀ k, getPort u k = getPort s k := fun k => by rw [getPort, h, getPort]
    cases hl : mostCredits s vc l with
    | none => simp only [mostCredits, ih, hl]
    | some k => simp only [mostCredits, ih, hl, hport]

theorem chooseRoute_of_read (s : State) {t : Txn} (h : t.typ = 0) :
    chooseRoute s t = mostCredits s 0 (usableAlts s t.dnode.toNat) := by
  simp [chooseRoute, h, vcOf]

/-- A READ takes the same way whatever a press's count of reissues says. -/
theorem goesOut_bump {s : State} {n p k : Nat} {e : FRead} (h : GoesOut s n (own s (askOf e))) :
    GoesOut (bump s (0x4018 + 256 * p) k) n (own (bump s (0x4018 + 256 * p) k) (askOf e)) := by
  have hnode : nodeId (bump s (0x4018 + 256 * p) k) = nodeId s := by
    rw [nodeId, rfld, rget_bump_ne s (by omega), nodeId, rfld]
  have hroute : chooseRoute (bump s (0x4018 + 256 * p) k) (own s (askOf e)) = some n := by
    rw [chooseRoute_of_read _ (by rfl), ← h.route, chooseRoute_of_read s (by rfl)]
    exact mostCredits_congr (u := bump s (0x4018 + 256 * p) k) (s := s) rfl 0 _
  rw [own, hnode]
  exact ⟨hroute, h.works, h.free, h.credits, h.room⟩

/-- A state in which a read of press `p` has been asked for again on port `n`: the reissue is counted, and nothing but the fabric
and what is put out differs beside. -/
def Reissued (s : State) (p n : Nat) (t : Txn) (u : State) : Prop :=
  ∃ fab l, u = { bump s (0x4018 + 256 * p) 1 with fab := fab, outbox := l ++ .frame n t :: s.outbox }

theorem trySend_of_goesOut {s : State} {n p k : Nat} {e : FRead} (h : GoesOut s n (own s (askOf e))) (hk : 0 < k) :
    ∃ fab l, trySend s p e k = ({ s with fab := fab, outbox := l ++ .frame n (own s (askOf e)) :: s.outbox }, e) := by
  obtain ⟨m, rfl⟩ : ∃ m, k = m + 1 := ⟨k - 1, by omega⟩
  obtain ⟨fab, l, hsend⟩ := sendTxn_of_goesOut h (show (0#4 : BitVec 4) ≠ 6 by decide) none none
  refine ⟨fab, l, ?_⟩
  rw [askOf] at hsend
  simp only [trySend, hsend, if_true, askOf]

/-- With an attempt left the read leaves once more. -/
theorem failRead_of_attempt {s : State} {p n : Nat} {r : Run} {e : FRead} (hrun : (getPress s p).run = some r)
    (h : OnlyFlying r e) (hleft : e.fails + 1 ≤ fabRetry s) (hgo : GoesOut s n (own s (askOf e))) :
    ∃ u, Reissued s p n (own s (askOf e)) u ∧
      failRead s p e true = putRun u p (readReplaced r e { e with fails := e.fails + 1 }) := by
  let e' : FRead := { e with fails := e.fails + 1 }
  have hgo' : GoesOut (bump s (0x4018 + 256 * p) 1) n (own (bump s (0x4018 + 256 * p) 1) (askOf e')) := goesOut_bump hgo
  obtain ⟨fab, l, htry⟩ := trySend_of_goesOut (p := p) hgo' (k := fabRetry s + 1 - e'.fails)
    (by have : e'.fails = e.fails + 1 := rfl; omega)
  have hown : own (bump s (0x4018 + 256 * p) 1) (askOf e') = own s (askOf e) := by
    rw [own, nodeId, rfld, rget_bump_ne s (by omega)]
    rfl
  refine ⟨_, ⟨fab, l, rfl⟩, ?_⟩
  rw [hown] at htry
  have hput := putRead_of_only
    (s := { bump s (0x4018 + 256 * p) 1 with fab := fab, outbox := l ++ .frame n (own s (askOf e)) :: s.outbox })
    (p := p) (e' := e') hrun h rfl
  rw [← hput]
  simp only [failRead, hleft, decide_true, Bool.and_true, if_true]
  rw [htry]
  rfl

/-! ### The staging copy (R214) -/

theorem foldl_eq_self_of_mem {α β : Type} {g : β → α → β} {b : β} {l : List α} (h : ∀ a ∈ l, g b a = b) :
    l.foldl g b = b := by
  induction l with
  | nil => rfl
  | cons a l ih =>
    obtain ⟨ha, hl⟩ := List.forall_mem_cons.mp h
    rw [List.foldl_cons, ha, ih hl]

/-- Lines that may be reached are noted nowhere. -/
theorem noteStops_of_reach {s : State} {c : SCtx} {as : List (Nat × Bool)}
    (h : ∀ a ∈ as, reach s c.dom a.2 (64 * (a.1 / 64)) = .ok) : noteStops s c as = s := by
  refine foldl_eq_self_of_mem fun k hk => ?_
  obtain ⟨a, ha, rfl⟩ := List.mem_map.mp (List.mem_eraseDups.mp hk)
  rw [h a ha]

/-- Writes of memory alone, one after the other. -/
theorem foldl_eq_with_mem {α : Type} {g : State → α → State} {l : List α} {s : State}
    (h : ∀ a ∈ l, ∀ m, ∃ m', g { s with mem := m } a = { s with mem := m' }) :
    ∃ m', l.foldl g s = { s with mem := m' } := by
  suffices hall : ∀ m, ∃ m', l.foldl g { s with mem := m } = { s with mem := m' } from hall s.mem
  induction l with
  | nil => exact fun m => ⟨m, rfl⟩
  | cons a l ih =>
    obtain ⟨ha, hl⟩ := List.forall_mem_cons.mp h
    intro m
    obtain ⟨m', hm'⟩ := ha m
    rw [List.foldl_cons, hm']
    exact ih hl m'

/-- A line of each footprint to be copied, from and to addresses that the domain may use, within the reach of the press. -/
def Copyable (s : State) (dom base : Nat) (foots : List (Nat × Nat × Nat)) : Prop :=
  ∀ e ∈ foots, ∀ i : Nat, i < e.2.1 / 64 → reach s dom false (64 * ((e.1 + 64 * i) / 64)) = .ok ∧
    reach s dom false (base + e.2.2 + 64 * i) = .ok

/-- The copy writes memory and nothing else. -/
theorem copyLines_eq_with_mem {s : State} {c : SCtx} {base : Nat} {foots : List (Nat × Nat × Nat)}
    (h : Copyable s c.dom base foots) : ∃ m, copyLines s c base foots = { s with mem := m } := by
  unfold copyLines
  extract_lets lines u got v blks
  have hline : ∀ l ∈ lines, reach s c.dom false (64 * (l.1 / 64)) = .ok ∧ reach s c.dom false l.2 = .ok := by
    intro l hl
    obtain ⟨e, he, hl⟩ := List.mem_flatMap.mp hl
    obtain ⟨i, hi, rfl⟩ := List.mem_map.mp hl
    exact h e he i (List.mem_range.mp hi)
  have hu : u = s := noteStops_of_reach fun a ha => by
    obtain ⟨l, hl, rfl⟩ := List.mem_map.mp ha
    exact (hline l hl).1
  have hv : ∃ m, v = { s with mem := m } := by
    simp only [v, hu]
    refine foldl_eq_with_mem fun g hg m => ?_
    obtain ⟨l, hl, rfl⟩ := List.mem_map.mp hg
    have hreach : reach { s with mem := m } c.dom false l.2 = .ok := (hline l hl).2
    simp only [hreach]
    exact ⟨_, rfl⟩
  obtain ⟨m, hv⟩ := hv
  rw [hv]
  exact ⟨_, rfl⟩

theorem dom_stageCtx_zero (s : State) (p : Nat) (f : Flight) : (stageCtx s p f 0).dom = streamDomain s f.stream := by
  unfold stageCtx
  extract_lets dom d kinds d'
  split
  · rfl
  · rfl

theorem exec_stagingCopyDone_of_landed {s : State} {p : Fin 64} {r : Run} {f : Flight} (h : InSetup s p.val r f) {base : Nat}
    (hwait : r.stagedWait = true) (hlanded : ∀ e ∈ r.reads, e.copy = true → e.landed = true ∨ e.dead = true)
    (hbase : stageBase s p.val (streamDomain s f.stream) = some base) :
    exec (.stagingCopyDone p) s = .next (settle (putRun (copyLines s (stageCtx s p.val f 0) base r.staged) p.val
      { r with stagedWait := false }) p.val) := by
  have hall : r.reads.all (fun e => !e.copy || e.landed || e.dead) = true := by
    rw [List.all_eq_true]
    intro e he
    have := hlanded e he
    cases hc : e.copy <;> simp_all
  change execStagingCopyDone p s = _
  simp only [execStagingCopyDone, h.run, h.flight, hwait, hall, Bool.and_true, if_true, dom_stageCtx_zero, hbase]

/-! ### The obligation -/

/-- Settles O54: the grant goes round from the press last granted; a failed read leaves again or is dead; a copy whose reads have
landed writes memory and releases the stores. -/
theorem pressWaits : Obligations.PressWaits := by
  unfold Obligations.PressWaits
  refine ⟨fun s x => ⟨exec_sortTableGrant_of_none s x, ?grant⟩, fun s p r f hstate hrun hflight hop => ?press⟩
  case grant =>
    intro p hp howner hlast hunique hnearest
    exact exec_sortTableGrant_of_next howner (nextGrant_of_nearest hp hlast hunique hnearest)
  case press =>
    have h : InSetup s p.val r f := ⟨hstate, hrun, hflight, hop⟩
    refine ⟨?quiet, fun e he hfly htag honly => ⟨?dead, ?again⟩, ?copied⟩
    case quiet =>
      intro tag hnone
      change execFabricReadTimeout p tag s = _
      simp only [execFabricReadTimeout, outstanding_of_none_flying hrun hnone]
    case dead =>
      intro hlast
      have hread : OnlyFlying r e := ⟨he, hfly, honly⟩
      rw [exec_fabricReadTimeout_of_only hrun hread htag, failRead_of_no_attempt hrun hread hlast]
      exact congrArg _ (settle_putRun_of_setup h rfl rfl rfl)
    case again =>
      rintro _ n rfl hleft hroute hworks hfree hcredits hroom
      have hread : OnlyFlying r e := ⟨he, hfly, honly⟩
      obtain ⟨u, ⟨fab, l, rfl⟩, hfail⟩ := failRead_of_attempt hrun hread hleft ⟨hroute, hworks, hfree, hcredits, hroom⟩
      have hexec := exec_fabricReadTimeout_of_only hrun hread htag
      rw [hfail] at hexec
      exact ⟨_, hexec.trans (congrArg _ (settle_putRun_of_setup h rfl rfl rfl)), rfl,
        List.mem_append_right l List.mem_cons_self, rfl, rfl, rfl, rfl, rfl⟩
    case copied =>
      intro base hwait hlanded hbase hreach
      have hcopy : Copyable s (stageCtx s p.val f 0).dom base r.staged := by
        rw [dom_stageCtx_zero]
        exact hreach
      obtain ⟨m, hm⟩ := copyLines_eq_with_mem hcopy
      rw [exec_stagingCopyDone_of_landed h hwait hlanded hbase, hm]
      exact congrArg _ (settle_putRun_of_setup h rfl rfl rfl)

end Sys2Proof.Proofs.PressWaits
end

section
/-!
PROOFS. Runs of bytes in the cellar: where they stand in physical memory (R15, R25), and what a write of one leaves.
-/
namespace Sys2Proof.Proofs.CellarRuns
open Sys2Proof.Machine

/-- Consecutive addresses of one bin stand at consecutive keys. -/
theorem physOf_add (s : State) {a i : Nat} (ha : a < 0x100000000) (hbin : a % 0x4000000 + i < 0x4000000) :
    physOf s (a + i) = physOf s a + i := by
  have hsame : (a + i) / 0x4000000 = a / 0x4000000 := by omega
  have hoff : (a + i) % 0x4000000 = a % 0x4000000 + i := by omega
  rw [physOf, physOf, if_pos ha, if_pos (by omega), hsame, hoff, Nat.add_assoc]

/-- A run of bytes within a bin. -/
structure InBin (a n : Nat) : Prop where
  cellar : a < 0x100000000
  fits : a % 0x4000000 + n ≤ 0x4000000

theorem physOf_of_inBin {a n i : Nat} (h : InBin a n) (hi : i < n) (s : State) : physOf s (a + i) = physOf s a + i :=
  physOf_add s h.cellar (by have := h.fits; omega)

/-- Such a run is written at consecutive keys. -/
theorem physWrites_byteRun {a : Nat} {bs : List Byte} (h : InBin a bs.length) (s : State) :
    physWrites s (byteRun a bs) = byteRun (physOf s a) bs := by
  simp only [physWrites, byteRun, List.map_map]
  refine List.map_congr_left fun e he => ?_
  have hi := List.mem_range.mp (List.of_mem_zip he).1
  simp only [Function.comp_apply, physOf_of_inBin h hi]

/-- What a memory holds whose cells are those of a sound one after a run of bytes is stored from key `k` on. -/
theorem bytes_of_stored {m m' : Mem} (hwf : Memory.wf m = true) (hue : m.ueWords = []) {k : Nat} {bs : List Byte}
    (hcells : m'.cells = (storeBytes m (byteRun k bs)).1.cells) :
    (∀ i, i < bs.length → memByte m' (k + i) = bs.getD i 0#8) ∧
      ∀ j, j < k ∨ k + bs.length ≤ j → memByte m' j = memByte m j := by
  obtain ⟨-, -, -, -, -, hget⟩ := storeBytes_get m (byteRun k bs) hwf hue
  have hrun := lastByte_run (k + ·) (fun i j h => Nat.add_left_cancel h) bs
  have hbyte : ∀ j, memByte m' j = lastByte (byteRun k bs) j (memByte m j) := by
    intro j
    rw [memByte, hcells, ← memByte, hget j]
  refine ⟨fun i hi => ?_, fun j hj => ?_⟩
  · rw [hbyte]
    exact (hrun (k + i) _).1 i hi rfl
  · rw [hbyte]
    exact (hrun j _).2 fun i hi => by omega

/-- An unchecked write of a run changes memory alone, and there its bytes alone. -/
theorem storeUnchecked_byteRun {s : State} {a : Nat} {bs : List Byte} (h : InBin a bs.length) (hwf : Memory.wf s.mem = true)
    (hue : s.mem.ueWords = []) : ∃ m, (storeUnchecked s (byteRun a bs)).1 = { s with mem := m } ∧
      (∀ i, i < bs.length → memByte m (physOf s a + i) = bs.getD i 0#8) ∧
      ∀ j, j < physOf s a ∨ physOf s a + bs.length ≤ j → memByte m j = memByte s.mem j := by
  refine ⟨_, rfl, bytes_of_stored hwf hue ?_⟩
  obtain ⟨hcells, -, -⟩ := memByte_sbWrites (((byteRun (physOf s a) bs).map (fun e => blockOf e.1)).eraseDups)
    (coversBlock (byteRun (physOf s a) bs)) (fun _ => sbUnchecked) (storeBytes s.mem (byteRun (physOf s a) bs)).1
  rw [physWrites_byteRun h]
  exact hcells

end Sys2Proof.Proofs.CellarRuns
end

section
/-!
PROOFS. The save frame of a preempted press (R192 to R197): what SAVE_FRAME_DONE writes, and what RESUME reads back.
-/
namespace Sys2Proof.Proofs.SavedFrame
open Sys2Proof.Machine Sys2Proof.Claims

/-! ### Slot and size of a frame (R193, R196) -/

theorem length_flatMap_leBytes {α : Type} (g : α → Nat) (l : List α) :
    (l.flatMap (fun x => leBytes 4 (g x))).length = 4 * l.length := by
  induction l with
  | nil => rfl
  | cons x l ih =>
    rw [List.flatMap_cons, List.length_append, ih, TimeFrames.length_leBytes, List.length_cons]
    omega

theorem length_gridBytes (m : SMap Word) : (gridBytes m).length = 4096 := by
  rw [gridBytes, length_flatMap_leBytes, List.length_range]

theorem length_cursor (c : SCtx) (u : WUnit) (n : Nat) : (cursor c u n).length = 4 := by
  unfold cursor
  extract_lets st drain
  split
  · rw [List.length_map, List.length_range]
  · split
    · rfl
    · split <;> rfl

theorem length_frameWords (s : State) (p : Nat) (f : Flight) (r : Run) : (frameWords s p f r).length = 20 := by
  unfold frameWords
  extract_lets x c u back m acc
  split <;> simp [length_cursor, acc]

theorem length_frameBytes (s : State) (p : Nat) (f : Flight) (r : Run) : (frameBytes s p f r).length = 12544 := by
  simp only [frameBytes, List.length_append, length_gridBytes, length_flatMap_leBytes (fun v => v), length_frameWords,
    List.length_replicate]

/-- A slot of a save area stands within one bin. -/
theorem inBin_of_saveBase {s : State} {p dom a : Nat} (hp : p < 64) (h : saveBase s p dom = some a) :
    CellarRuns.InBin a 12544 := by
  unfold saveBase at h
  extract_lets w at h
  split at h
  · have hfld : fld w 0 12 < 2 ^ 12 := Registers.fld_lt w 0 12
    obtain rfl := Option.some.inj h
    exact ⟨by omega, by omega⟩
  · cases h

/-! ### The frame written (R193) -/

/-- The frame is written into the slot and nowhere else. -/
theorem writeFrame_of_reach {s : State} {p dom fid a : Nat} {bs : List Byte} (hp : p < 64) (hbase : saveBase s p dom = some a)
    (hreach : reach s dom false a = .ok) (hlen : bs.length = 12544) (hwf : Memory.wf s.mem = true)
    (hue : s.mem.ueWords = []) : ∃ m, writeFrame s p dom fid bs = { s with mem := m } ∧
      (∀ i, i < 12544 → memByte m (physOf s a + i) = bs.getD i 0#8) ∧
      ∀ j, j < physOf s a ∨ physOf s a + 12544 ≤ j → memByte m j = memByte s.mem j := by
  have hbin : CellarRuns.InBin a bs.length := hlen ▸ inBin_of_saveBase hp hbase
  obtain ⟨m, hm, hbytes, hframe⟩ := CellarRuns.storeUnchecked_byteRun hbin hwf hue
  rw [hlen] at hbytes hframe
  refine ⟨m, ?_, hbytes, hframe⟩
  simp only [writeFrame, hbase, hreach, beq_self_eq_true, if_true, hm]

theorem getFlight_setFlight_ne {s : State} {f : Flight} {id : Nat} (h : id ≠ f.id) :
    getFlight (setFlight s f) id = getFlight s id := by
  have hsame : ∀ x : Flight, ((if x.id == f.id then f else x).id == id) = (x.id == id) := by
    intro x
    split
    · next hx =>
      rw [beq_iff_eq] at hx
      rw [hx]
    · rfl
  simp only [getFlight, setFlight, List.find?_map, Function.comp_def, hsame]
  cases hfind : s.flights.find? (fun x => x.id == id) with
  | none => rfl
  | some x =>
    have hx : x.id = id := by simpa using List.find?_some hfind
    simp [hx, h]

/-- A run that is saved, with the words of its frame. -/
def framed (s : State) (p : Nat) (f : Flight) (r : Run) : Run := { r with frame := frameWords s p f r }

/-- The state with the frame written: the descriptor saved, its press free. -/
def frameSaved (s : State) (p : Nat) (f : Flight) (r : Run) (m : Mem) : State :=
  setPress (setFlight { s with mem := m } { f with phase := .saved p }) p
    { getPress s p with run := none, saved := some (framed s p f r), state := .idle }

/-- What a press does once its frame stands: it takes the displacing descriptor, or restores the frame. -/
def takesNext (u : State) (p : Nat) : Option Flight → State
  | some g => accept u p g
  | none => setPress u p { getPress u p with state := .restore, waiting := none }

/-- A press that saves its frame in a slot that its domain has. -/
structure Saves (s : State) (p : Nat) (r : Run) (f : Flight) : Prop where
  state : (getPress s p).state = .save
  run : (getPress s p).run = some r
  flight : getFlight s r.fid = some f

section Saves
variable {s : State} {p : Fin 64} {r : Run} {f : Flight} (h : Saves s p.val r f) {m : Mem}
  (hwrite : writeFrame s p.val (streamDomain s f.stream) f.id (frameBytes s p.val f (framed s p.val f r)) =
    { s with mem := m })
include h hwrite

/-- What follows the write of the frame. -/
theorem exec_saveFrameDone_eq : exec (.saveFrameDone p) s = .next
    (takesNext (frameSaved s p.val f r m) p.val
      (((getPress s p.val).waiting.bind (getFlight (frameSaved s p.val f r m))).filter (fun g => g.phase == .queued))) := by
  have hid : f.id = r.fid := LotVerdicts.id_of_getFlight h.flight
  have hflight : getFlight { s with mem := m } f.id = some f := hid ▸ h.flight
  change execSaveFrameDone p s = _
  simp only [execSaveFrameDone, h.state, h.run, h.flight, framed] at hwrite ⊢
  rw [hwrite, hflight]
  rfl

theorem exec_saveFrameDone_of_none_waiting (hwaiting : (getPress s p.val).waiting = none) :
    exec (.saveFrameDone p) s = .next (setPress (frameSaved s p.val f r m) p.val
      { getPress (frameSaved s p.val f r m) p.val with state := .restore, waiting := none }) := by
  rw [exec_saveFrameDone_eq h hwrite, hwaiting]
  rfl

theorem exec_saveFrameDone_of_waiting {id : Nat} {g : Flight} (hwaiting : (getPress s p.val).waiting = some id)
    (hg : getFlight s id = some g) (hid : id ≠ f.id) (hphase : g.phase = .queued) :
    exec (.saveFrameDone p) s = .next (accept (frameSaved s p.val f r m) p.val g) := by
  have hflight : getFlight (frameSaved s p.val f r m) id = some g :=
    (getFlight_setFlight_ne (s := { s with mem := m }) (f := { f with phase := .saved p.val }) hid).trans hg
  have hqueued : (g.phase == .queued) = true := by simp [hphase]
  rw [exec_saveFrameDone_eq h hwrite, hwaiting, Option.bind_some, hflight, Option.filter_some_pos (p := fun g : Flight => g.phase == .queued) hqueued, takesNext]

end Saves

/-! ### The frame read back (R196, R197) -/

/-- The words of a frame as RESUME reads them. -/
def wordsRead (w : Nat → Nat) : List Nat := (List.range 20).map w

theorem nth_wordsRead (w : Nat → Nat) {i : Nat} (hi : i < 20) : nth (wordsRead w) i 0 = w i := by
  simp [nth, wordsRead, hi]

/-- Words that are read as they were written. -/
structure SameWords (frame : List Nat) (w : Nat → Nat) : Prop where
  length : frame.length = 20
  same : ∀ i, 2 ≤ i → i < 20 → w i = nth frame i 0

theorem drop_wordsRead {frame : List Nat} {w : Nat → Nat} (h : SameWords frame w) {k : Nat} (hk : 2 ≤ k) :
    (wordsRead w).drop k = frame.drop k := by
  refine List.ext_getElem (by simp [wordsRead, h.length]) fun i hi hi' => ?_
  have hlt : k + i < 20 := by simpa [wordsRead, Nat.lt_sub_iff_add_lt'] using hi
  have hsame := h.same (k + i) (by omega) hlt
  simp only [wordsRead, List.getElem_drop, List.getElem_map, List.getElem_range, hsame, nth]
  exact List.getD_eq_getElem _ _ _

/-- The number of the frame word that holds the first accumulator of the board in load (R196). -/
def accWord (w : Nat → Nat) : Nat := if bitAt (BitVec.ofNat 32 (w 2)) 3 then 17 else 15

/-- An accumulator as a frame word gives it; boards with vintage tags keep none. -/
def accRead (c : SCtx) (w : Nat → Nat) (i : Nat) : Word :=
  if (boardFmt c).tags then 0 else BitVec.ofNat 32 (w i)

/-- The run that takes back the words of its frame. -/
def wordsTaken (r : Run) (c : SCtx) (w : Nat → Nat) : Run :=
  { r with stored := w 7, accM := accRead c w (accWord w), accP := accRead c w (accWord w + 1), retry := w 19 / 16 % 16 }

theorem updCnt_of_same {s : State} {f : Flight} (hflight : getFlight s f.id = some f) {g : Counts → Counts}
    (hg : g f.cnt = f.cnt) : updCnt s f.id g = setFlight s f := by
  rw [LotVerdicts.updCnt_of_getFlight hflight, hg]

/-- A frame that stands as it was written changes no count and no cursor. -/
theorem restoreWords_of_same {s : State} {p : Nat} {f : Flight} {g : Stage} {r : Run} {w : Nat → Nat}
    (hflight : getFlight s f.id = some f) (hstages : f.stages = [g]) (hstage : r.stage = 0) (h : SameWords r.frame w)
    (hzero : w 19 % 16 = 0) :
    restoreWords s p f r (wordsRead w) = (setFlight s f, wordsTaken r (stageCtx s p f 0) w) := by
  unfold restoreWords
  extract_lets old new j c at' unit k acc vtags u
  have hnew : ∀ i, i < 20 → new i = w i := fun i hi => nth_wordsRead w hi
  have hold : ∀ i, 2 ≤ i → i < 20 → new i = old i := fun i hlow hi => (hnew i hi).trans (h.same i hlow hi)
  have hj : j = r.stage := by simp [j, hnew, hzero, hstages, hstage]
  have hunit : unit = r.unit := if_pos ⟨hj, by rw [← drop_wordsRead h (by decide)]⟩
  have hk : k = accWord w := by simp only [k, accWord, hnew 2 (by decide)]
  have hvtags : vtags = r.vtags := by
    simp only [vtags, List.foldl_cons, List.foldl_nil, hold (11 + 0) (by decide) (by decide),
      hold (11 + 1) (by decide) (by decide), hold (11 + 2) (by decide) (by decide), if_true]
  have hacc : ∀ i, i < 20 → acc i = accRead (stageCtx s p f 0) w i := by
    intro i hi
    simp only [acc, accRead, c, hj, hstage, hnew i hi]
    rfl
  have hk20 : k + 1 < 20 := by
    rw [hk, accWord]
    split <;> decide
  have hu : u = setFlight s f := updCnt_of_same hflight (by
    simp [hold 8 (by decide) (by decide), hold 9 (by decide) (by decide), hold 10 (by decide) (by decide)])
  rw [hu, hj, hunit, hvtags, hacc k (by omega), hacc (k + 1) hk20, hk, hnew 7 (by decide), hnew 19 (by decide)]
  rfl

/-- A sound memory reads back without an error. -/
theorem read_of_sound {s : State} (hue : s.mem.ueWords = []) (hce : s.mem.ceWords = []) (who : Who) (a k n : Nat) :
    recordUes (countCe s k n) who (localUe s a n) = s := by
  have hcount : countCe s k n = s := by simp [countCe, hce]
  have hnone : localUe s a n = [] := by simp [localUe, hue]
  rw [hcount, hnone, recordUes, List.foldl_nil]

/-- The run of a press that resumes. -/
def resumedRun (s : State) (r : Run) (c : SCtx) (w : Nat → Nat) : Run :=
  { wordsTaken r c w with startEdge := s.time.edges, coal := [], order := [] }

/-- A press with its boards and its vat as the bytes of a frame give them. -/
def resumedPress (x : Press) (bs : List Byte) (r : Run) : Press :=
  { x with
    run := some r, saved := none, state := .run,
    front := { x.front with ent := gridOf (bs.take 4096), valid := wordAt bs 0x3000 },
    back := { x.back with ent := gridOf ((bs.drop 4096).take 4096), valid := wordAt bs 0x3004 },
    vat := gridOf ((bs.drop 8192).take 4096) }

/-- A press of a single stage that restores a frame which stands as it was written in a sound memory. -/
structure Restores (s : State) (p : Nat) (r : Run) (f : Flight) (g : Stage) (a : Nat) (w : Nat → Nat) : Prop where
  state : (getPress s p).state = .restore
  saved : (getPress s p).saved = some r
  flight : getFlight s r.fid = some f
  base : saveBase s p (streamDomain s f.stream) = some a
  reaches : reach s (streamDomain s f.stream) false a = .ok
  words : ∀ i, w i = (wordAt (localBytes s a 12544) (0x3000 + 4 * i)).toNat
  errors : s.mem.ueWords = []
  corrected : s.mem.ceWords = []
  stages : f.stages = [g]
  stage : r.stage = 0
  same : SameWords r.frame w
  stageWord : w 19 % 16 = 0

theorem Restores.ofNat_word {s : State} {p : Nat} {r : Run} {f : Flight} {g : Stage} {a : Nat} {w : Nat → Nat}
    (h : Restores s p r f g a w) (i : Nat) : BitVec.ofNat 32 (w i) = wordAt (localBytes s a 12544) (0x3000 + 4 * i) := by
  rw [h.words, BitVec.ofNat_toNat, BitVec.setWidth_eq]

/-- The press that resumes, before anything follows from it. -/
def resumed (s : State) (p : Nat) (r : Run) (f : Flight) (a : Nat) (w : Nat → Nat) : State :=
  setPress (setFlight s { f with phase := .running p }) p
    (resumedPress (getPress s p) (localBytes s a 12544) (resumedRun s r (stageCtx s p f 0) w))

theorem exec_resume_eq {s : State} {p : Fin 64} {r : Run} {f : Flight} {g : Stage} {a : Nat} {w : Nat → Nat}
    (h : Restores s p.val r f g a w) : exec (.resume p) s = .next (settle (resumed s p.val r f a w) p.val) := by
  have hid : f.id = r.fid := LotVerdicts.id_of_getFlight h.flight
  have hflight : getFlight s f.id = some f := hid ▸ h.flight
  have hread : (List.range 20).map (fun i => (wordAt (localBytes s a 12544) (0x3000 + 4 * i)).toNat) = wordsRead w :=
    List.map_congr_left fun i _ => (h.words i).symm
  have hwords := restoreWords_of_same (p := p.val) hflight h.stages h.stage h.same h.stageWord
  have hphase : setFlight (setFlight s f) { f with phase := .running p.val } = setFlight s { f with phase := .running p.val } :=
    LotVerdicts.setFlight_setFlight s rfl
  have hset : getFlight (setFlight s f) f.id = some f := LotVerdicts.getFlight_setFlight_self hflight rfl
  change execResume p s = _
  simp only [execResume, h.state, h.saved, h.flight, h.base, h.reaches, Option.getD_some, Option.isNone_some,
    Option.isSome_some, beq_self_eq_true, Bool.and_self, Bool.false_eq_true, if_true, if_false,
    read_of_sound h.errors h.corrected, hread, hwords, hset]
  rw [hphase]
  rfl

theorem stageCtx_setFlight (s : State) (h : Flight) (p : Nat) (f : Flight) (j : Nat) :
    stageCtx (setFlight s h) p f j = stageCtx s p f j := rfl

theorem stageCtx_with_phase (s : State) (p : Nat) (f : Flight) (ph : FPhase) (j : Nat) :
    stageCtx s p { f with phase := ph } j = stageCtx s p f j := rfl

/-- Which operands stand on other nodes does not change. -/
theorem looksAhead_resumed (s : State) (p : Nat) (r : Run) (f : Flight) (a : Nat) (w : Nat → Nat) :
    looksAhead (resumed s p r f a w) (stageCtx (resumed s p r f a w) p { f with phase := .running p } 0) =
      looksAhead s (stageCtx s p f 0) := by
  rw [resumed, BoardError.looksAhead_setPress, BoardError.stageCtx_setPress, stageCtx_setFlight, stageCtx_with_phase]
  rfl

/-! ### The obligation -/

/-- Settles O55: the frame is one unchecked write of its bytes into the slot, and reading them unchanged restores all but what
the press keeps itself. -/
theorem frameSavedAndRestored : Obligations.FrameSavedAndRestored := by
  unfold Obligations.FrameSavedAndRestored
  rintro s p r f _ a hflight rfl hbase hreach hwf hue
  refine ⟨?save, ?resume⟩
  case save =>
    rintro _ rfl hstate hrun
    have h : Saves s p.val r f := ⟨hstate, hrun, hflight⟩
    obtain ⟨m, hwrite, hbytes, hframe⟩ := writeFrame_of_reach (fid := f.id) p.isLt hbase hreach
      (length_frameBytes s p.val f (framed s p.val f r)) hwf hue
    exact ⟨frameSaved s p.val f r m, rfl, rfl, hbytes, hframe, rfl, exec_saveFrameDone_of_none_waiting h hwrite,
      fun id g hwaiting hg hid hphase => exec_saveFrameDone_of_waiting h hwrite hwaiting hg hid hphase⟩
  case resume =>
    intro g w hwords hstate hsaved hload hstage hstages hop hlocal hce hlen hsame hzero
    have h : Restores s p.val r f g a w :=
      ⟨hstate, hsaved, hflight, hbase, hreach, hwords, hue, hce, hstages, hstage, ⟨hlen, hsame⟩, hzero⟩
    have hid : f.id = r.fid := LotVerdicts.id_of_getFlight hflight
    have hloads : BoardError.LoadsHere (resumed s p.val r f a w) p.val (resumedRun s r (stageCtx s p.val f 0) w)
        { f with phase := .running p.val } g :=
      { state := by rw [resumed, getPress_setPress_self, resumedPress]
        run := by rw [resumed, getPress_setPress_self, resumedPress]
        flight := LotVerdicts.getFlight_setFlight_self (g := { f with phase := .running p.val }) hflight hid
        loading := hload, stages := hstages, noDecant := hop, readsHere := (looksAhead_resumed s p.val r f a w).trans hlocal }
    have hexec := exec_resume_eq h
    rw [hloads.settle_eq] at hexec
    refine ⟨_, hexec, ?press, ?others, rfl, rfl⟩
    case press =>
      have hacc : accWord w + 1 = if bitAt (BitVec.ofNat 32 (w 2)) 3 then 18 else 16 := by
        rw [accWord]
        split <;> rfl
      rw [putRun, getPress_setPress_self, resumed, getPress_setPress_self, h.ofNat_word 0, h.ofNat_word 1, ← hacc]
      simp only [resumedPress, resumedRun, wordsTaken, accRead, accWord, Nat.mul_zero, Nat.mul_one, Nat.reduceAdd]
    case others =>
      intro q hq
      rw [putRun, getPress_setPress_ne _ hq, resumed, getPress_setPress_ne _ hq]
      rfl

end Sys2Proof.Proofs.SavedFrame
end

section
/-!
PROOFS. Answers and messages of other nodes that concern this one: reserved TYPEs (R325), RECALL and GAP (R348, R352), READ_RSP (R178,
R192), ACK and its timeout (R339), MGMT frames (R355, R485).
-/
namespace Sys2Proof.Proofs.FabricMessages
open Sys2Proof.Machine Sys2Proof.Claims

/-! ### Credits given back (R320) -/

/-- A state that differs from `s` in its ports and in what it has put out. -/
def wired (s : State) (ports : SMap Port) (l : List Out) : State :=
  { s with fab := { s.fab with ports := ports }, outbox := l ++ s.outbox }

theorem takeRx_eq_wired (s : State) (n vc b : Nat) (k : Bool) (mine : Txn → Bool) :
    ∃ ports l, takeRx s n vc b k mine = wired s ports l := by
  obtain ⟨p, l, heq, -⟩ := takeRx_only s n vc b k mine
  exact ⟨_, l, heq⟩

/-- A transaction for this node on a usable port is taken once its credits are given back. -/
theorem takeOr_of_here {s : State} {n : Fin 48} {t : Txn} (husable : usable s n.val = true) (hnode : t.dnode.toNat = nodeId s)
    (f : State → State) : ∃ ports l, takeOr s n t f = f (wired s ports l) := by
  obtain ⟨ports, l, htaken⟩ := takeRx_eq_wired s n.val (vcOf t.typ) (txnBytes t) false (fun x => txnStream x == txnStream t)
  refine ⟨ports, l, ?_⟩
  rw [← htaken, takeOr, if_pos husable, if_pos (.inl hnode), taken]

theorem flit_mem_layFlit (s : State) (n : Nat) (b : List Byte) : .flit n b ∈ (layFlit s n b).outbox := by
  unfold layFlit
  extract_lets u p v len up
  split
  · exact List.mem_cons_self
  · exact List.mem_cons_of_mem _ List.mem_cons_self

/-- A flit formed carries the acknowledgement and the credits that are due. -/
theorem flit_mem_formFlit (s : State) (n : Nat) (body : List Byte) :
    .flit n (flitBytes body (getPort s n).formed ((getPort s n).rxSeq - 1).toNat (getPort s n).nakDue
      ((getPort s n).owed.map (min 4095))) ∈ (formFlit s n body).outbox := by
  unfold formFlit
  extract_lets p b
  exact flit_mem_layFlit _ n b

/-- The flit that gives credits back where no transaction bytes do. -/
theorem flit_mem_answerLink {s : State} {n : Nat} (husable : usable s n = true) (hroom : (getPort s n).flits.length < 2048) :
    .flit n (flitBytes [] (getPort s n).formed ((getPort s n).rxSeq - 1).toNat (getPort s n).nakDue
      ((getPort s n).owed.map (min 4095))) ∈ (answerLink s n).outbox := by
  simp only [answerLink, husable, hroom, decide_true, Bool.and_self, if_true]
  exact flit_mem_formFlit s n []

/-- The units of a transaction of reserved TYPE, whose length gives its lines (R325). -/
theorem reserved_units (k : Nat) : ceilDiv (48 + 64 * (k + 1)) 16 = 7 + 4 * k := by
  unfold ceilDiv
  omega

theorem flit_mem_takeRx {s : State} {n : Nat} (husable : usable s n = true) (hroom : (getPort s n).flits.length < 2048)
    (vc b : Nat) (mine : Txn → Bool) :
    .flit n (flitBytes [] (getPort s n).formed ((getPort s n).rxSeq - 1).toNat (getPort s n).nakDue
      (((getPort s n).owed.set vc (nth (getPort s n).owed vc 0 + ceilDiv b 16)).map (min 4095))) ∈
      (takeRx s n vc b false mine).outbox := by
  let p : Port := { getPort s n with
    rxIn := (getPort s n).rxIn.eraseP mine
    owed := (getPort s n).owed.set vc (nth (getPort s n).owed vc 0 + ceilDiv b 16) }
  have hp : getPort (setPort s n p) n = p := getPort_setPort_self s n p
  have hworks : usable (setPort s n p) n = true :=
    (usable_congr s _ n (by rw [hp]; exact ⟨rfl, rfl, rfl, rfl⟩)).trans husable
  have h := flit_mem_answerLink hworks (by rw [hp]; exact hroom)
  rw [hp] at h
  exact h

/-! ### Events (R482) -/

theorem mem_evInsert {x e : Event} {l : List Event} : x ∈ evInsert e l ↔ x = e ∨ x ∈ l := by
  induction l with
  | nil => simp [evInsert]
  | cons y l ih =>
    unfold evInsert
    split
    · simp
    · simp only [List.mem_cons, ih]
      exact or_left_comm

/-- An event as it enters the queue. -/
def stamped (s : State) (e : Event) : Event := { e with time := s.time.ftime, loss := s.book.lossNext }

theorem stamped_mem_emit {s : State} (h : s.book.queue.length < 16) (e : Event) : stamped s e ∈ (emit s e).book.queue := by
  simp only [emit, h, if_true, mem_evInsert]
  exact .inl rfl

theorem mem_emit_of_mem {s : State} {x : Event} (h : x ∈ s.book.queue) (e : Event) : x ∈ (emit s e).book.queue := by
  unfold emit
  extract_lets e'
  split
  · exact mem_evInsert.mpr (.inr h)
  · exact h

theorem emit_regs_of_room {s : State} (h : s.book.queue.length < 16) (e : Event) : (emit s e).regs = s.regs := by
  simp only [emit, h, if_true]

/-! ### RECALL (R352) -/

/-- The memory with the RECALL mark on some blocks. -/
def recallMarked (blocks : List Nat) (m : Mem) : Mem := blocks.foldl (fun m b => sbPut m b sbRecall) m

theorem memByte_recallMarked (l : List Nat) (m : Mem) (k : Nat) : memByte (recallMarked l m) k = memByte m k := by
  induction l generalizing m with
  | nil => rfl
  | cons b l ih =>
    have h : memByte (sbPut m b sbRecall) k = memByte m k := by rw [memByte, LotVerdicts.cells_sbPut, ← memByte]
    exact (ih _).trans h

theorem sbGet_sbRecall (m : Mem) {b : Nat} (hb : b < 0x100000000 / 2048) : sbGet (sbPut m b sbRecall) b = sbRecall :=
  (LotVerdicts.sbGet_sbPut_self m hb sbRecall).trans (if_neg (by decide))

theorem sbGet_recallMarked {l : List Nat} {b : Nat} (hb : b < 0x100000000 / 2048) {m : Mem}
    (h : b ∈ l ∨ sbGet m b = sbRecall) : sbGet (recallMarked l m) b = sbRecall := by
  induction l generalizing m with
  | nil => exact h.resolve_left List.not_mem_nil
  | cons a l ih =>
    refine ih ?_
    by_cases hab : b = a
    · rw [← hab]
      exact .inr (sbGet_sbRecall m hb)
    · rw [LotVerdicts.sbGet_sbPut_ne m hab]
      exact h.imp_left fun hm => (List.mem_cons.mp hm).resolve_left hab

/-- The block into which this node performed a WRITE. -/
def performedBlock (s : State) (e : Nat × Word × Nat) : Nat := blockOf (physOf s (2048 * e.2.2))

/-- The blocks that a RECALL names. -/
def recalledBlocks (s : State) (t : Txn) : List Nat :=
  (s.fab.performed.filter (fun e => e.1 == t.snode.toNat && e.2.1 == t.ident)).map (performedBlock s)

theorem foldl_marks (l : List (Nat × Word × Nat)) (s : State) :
    l.foldl (fun s e => setMem s (sbPut s.mem (blockOf (physOf s (2048 * e.2.2))) sbRecall)) s =
      setMem s (recallMarked (l.map (performedBlock s)) s.mem) := by
  induction l generalizing s with
  | nil => rfl
  | cons e l ih => exact ih _

/-- The recalls remembered, the oldest dropped beyond 4,096. -/
def recallsAfter (s : State) (t : Txn) : List (Nat × Word) :=
  (s.fab.recalls ++ [(t.snode.toNat, t.ident)]).drop ((s.fab.recalls ++ [(t.snode.toNat, t.ident)]).length - 4096)

theorem length_recallsAfter (s : State) (t : Txn) : (recallsAfter s t).length = min 4096 (s.fab.recalls.length + 1) := by
  simp only [recallsAfter, List.length_drop, List.length_append, List.length_singleton]
  omega

theorem mem_recallsAfter (s : State) (t : Txn) : (t.snode.toNat, t.ident) ∈ recallsAfter s t := by
  rw [recallsAfter, List.drop_append_of_le_length (by simp only [List.length_append, List.length_singleton]; omega)]
  exact List.mem_append_right _ List.mem_cons_self

/-- The state with the named blocks marked and the RECALL remembered. -/
def recallPut (s : State) (t : Txn) : State :=
  { setMem s (recallMarked (recalledBlocks s t) s.mem) with fab := { s.fab with recalls := recallsAfter s t } }

/-- The event of a RECALL taken. -/
def recallEvent (t : Txn) : Event := { code := 0x1D, args := [t.snode.toNat, t.ident.toNat] }

/-- A RECALL taken by a node that is no DOOR_NODE of it. -/
theorem takeRecall_of_no_door {s : State} {t : Txn} (h : doorNode s ≠ some t.dnode.toNat) :
    takeRecall s t = emit (bump (recallPut s t) 0x805C 1) (recallEvent t) := by
  simp only [takeRecall, foldl_marks]
  exact congrArg (fun u => emit (bump u 0x805C 1) (recallEvent t)) (if_neg h)

/-- What a RECALL taken leaves. -/
structure RecallTaken (s : State) (t : Txn) (u : State) : Prop where
  count : rget u 0x805C = BitVec.ofNat 32 (min 0xFFFFFFFF ((rget s 0x805C).toNat + 1))
  recalls : u.fab.recalls = recallsAfter s t
  mem : u.mem = recallMarked (recalledBlocks s t) s.mem
  event : s.book.queue.length < 16 → ∃ e ∈ u.book.queue, e.code = 0x1D ∧ e.args = [t.snode.toNat, t.ident.toNat]

theorem recallTaken_takeRecall {s : State} {t : Txn} (h : doorNode s ≠ some t.dnode.toNat) : RecallTaken s t (takeRecall s t) := by
  rw [takeRecall_of_no_door h]
  refine ⟨(rget_emit _ _ (by decide)).trans (rget_bump_self (recallPut s t) 0x805C 1), ?_, emit_mem _ _, fun hroom => ?_⟩
  · simp only [emit_fab, bump_fab, recallPut]
  · exact ⟨_, stamped_mem_emit (s := bump (recallPut s t) 0x805C 1) hroom (recallEvent t), rfl, rfl⟩

/-! ### GAP (R348) -/

/-- The event of a GAP taken. -/
def gapEvent (s : State) (t : Txn) : Event :=
  { code := 0x1B, kind := 6, unit := t.stream.toNat,
    args := [t.snode.toNat * 65536 + t.group.toNat, t.ident.toNat, (lastOf s t).toNat] }

/-- A GAP counted and recorded. -/
def gapNoted (s : State) (t : Txn) : State := emit (bump s 0x8064 1) (gapEvent s t)

/-- The entry of a GAP. -/
def gapEntry (t : Txn) : GapEntry := ⟨t.snode.toNat, t.stream.toNat, t.group.toNat, t.ident⟩

/-- The entries of other keys. -/
def otherGaps (s : State) (t : Txn) : List GapEntry := s.fab.gaps.filter (fun e => !sameKey e t)

/-- The entries after a GAP: of a full table the oldest is dropped. -/
def gapsAfter (s : State) (t : Txn) : List GapEntry :=
  (if (otherGaps s t).length < 256 then otherGaps s t else (otherGaps s t).drop 1) ++ [gapEntry t]

/-- The state with the table of a GAP. -/
def gapPut (s : State) (t : Txn) : State := { gapNoted s t with fab := { (gapNoted s t).fab with gaps := gapsAfter s t } }

/-- A GAP puts its entry into the table; an entry dropped for it is recorded. -/
theorem takeGap_cases (s : State) (t : Txn) : takeGap s t = gapPut s t ∨ ∃ e, takeGap s t = emit (gapPut s t) e := by
  cases hother : otherGaps s t with
  | nil =>
    have hl : s.fab.gaps.filter (fun e => !sameKey e t) = [] := hother
    refine .inl ?_
    simp only [gapPut, gapsAfter, hother, takeGap, hl, List.length_nil, List.nil_append, Nat.ofNat_pos, if_true]
    rfl
  | cons old rest =>
    have hl : s.fab.gaps.filter (fun e => !sameKey e t) = old :: rest := hother
    by_cases hroom : (old :: rest).length < 256
    · refine .inl ?_
      simp only [gapPut, gapsAfter, hother, takeGap, hl, hroom, if_true]
      rfl
    · refine .inr ⟨{ code := 0x1C, kind := 6, unit := old.stream, args := [old.snode * 65536 + old.group] }, ?_⟩
      simp only [gapPut, gapsAfter, hother, takeGap, hl, hroom, if_false, List.drop_one, List.tail_cons]
      rfl

theorem sameKey_gapEntry (t : Txn) : sameKey (gapEntry t) t = true := by simp [sameKey, gapEntry]

theorem mem_gapsAfter_self (s : State) (t : Txn) : gapEntry t ∈ gapsAfter s t := List.mem_append_right _ List.mem_cons_self

theorem ident_of_mem_gapsAfter {s : State} {t : Txn} {g : GapEntry} (hg : g ∈ gapsAfter s t) (hkey : sameKey g t = true) :
    g.ident = t.ident := by
  have hother : g ∉ otherGaps s t := by simp [otherGaps, hkey]
  rcases List.mem_append.mp hg with hg | hg
  · split at hg
    · exact absurd hg hother
    · exact absurd (List.mem_of_mem_drop hg) hother
  · rw [List.mem_singleton.mp hg, gapEntry]

theorem mem_gapsAfter_of_room {s : State} {t : Txn} (hroom : s.fab.gaps.length < 256) {g : GapEntry} (hg : g ∈ s.fab.gaps)
    (hkey : sameKey g t = false) : g ∈ gapsAfter s t := by
  have hlt : (otherGaps s t).length < 256 := (List.length_filter_le _ _).trans_lt hroom
  rw [gapsAfter, if_pos hlt]
  exact List.mem_append_left _ (List.mem_filter.mpr ⟨hg, by simp [hkey]⟩)

/-- What every way of taking a GAP leaves. -/
structure GapTaken (s : State) (t : Txn) (u : State) : Prop where
  count : rget u 0x8064 = BitVec.ofNat 32 (min 0xFFFFFFFF ((rget s 0x8064).toNat + 1))
  gaps : u.fab.gaps = gapsAfter s t
  mem : u.mem = s.mem
  event : s.book.queue.length < 16 → ∃ e ∈ u.book.queue, e.code = 0x1B ∧ e.unit = t.stream.toNat

theorem gapTaken_gapPut (s : State) (t : Txn) : GapTaken s t (gapPut s t) where
  count := (rget_emit _ _ (by decide)).trans (rget_bump_self s 0x8064 1)
  gaps := rfl
  mem := emit_mem _ _
  event h := ⟨_, stamped_mem_emit (s := bump s 0x8064 1) h (gapEvent s t), rfl, rfl⟩

theorem gapTaken_takeGap (s : State) (t : Txn) : GapTaken s t (takeGap s t) := by
  have h := gapTaken_gapPut s t
  rcases takeGap_cases s t with heq | ⟨e, heq⟩
  · rw [heq]
    exact h
  · rw [heq]
    refine ⟨(rget_emit _ _ (by decide)).trans h.count, ?_, (emit_mem _ _).trans h.mem, fun hroom => ?_⟩
    · rw [emit_fab]
      exact h.gaps
    · obtain ⟨x, hx, hcode⟩ := h.event hroom
      exact ⟨x, mem_emit_of_mem hx e, hcode⟩

/-! ### READ_RSP (R178, R192) -/

theorem rspReceived_of_none {s : State} {t : Txn} (h : outstanding s (t.tag.toNat / 4096) t.tag.toNat = none) :
    rspReceived s t = if (getPress s (t.tag.toNat / 4096)).retired.contains t.tag.toNat then
      setPress s (t.tag.toNat / 4096)
        { getPress s (t.tag.toNat / 4096) with
            retired := (getPress s (t.tag.toNat / 4096)).retired.erase t.tag.toNat } else s := by
  unfold rspReceived
  extract_lets tag p x
  split
  · next e he => exact absurd (he.symm.trans h) (by simp)
  · rfl

theorem rspReceived_of_retired {s : State} {t : Txn} (h : outstanding s (t.tag.toNat / 4096) t.tag.toNat = none)
    (hretired : (getPress s (t.tag.toNat / 4096)).retired.contains t.tag.toNat = true) :
    rspReceived s t = setPress s (t.tag.toNat / 4096)
      { getPress s (t.tag.toNat / 4096) with
          retired := (getPress s (t.tag.toNat / 4096)).retired.erase t.tag.toNat } :=
  (rspReceived_of_none h).trans (if_pos hretired)

theorem rspReceived_of_unknown {s : State} {t : Txn} (h : outstanding s (t.tag.toNat / 4096) t.tag.toNat = none)
    (hretired : (getPress s (t.tag.toNat / 4096)).retired.contains t.tag.toNat = false) : rspReceived s t = s :=
  (rspReceived_of_none h).trans (if_neg (ne_true_of_eq_false hretired))

/-- A response to a retired tag changes the presses alone. -/
theorem rspReceived_of_none_frame {s : State} {t : Txn} (h : outstanding s (t.tag.toNat / 4096) t.tag.toNat = none) :
    (rspReceived s t).mem = s.mem ∧ (rspReceived s t).regs = s.regs := by
  rw [rspReceived_of_none h]
  split
  · exact ⟨rfl, rfl⟩
  · exact ⟨rfl, rfl⟩

theorem rspReceived_of_ok {s : State} {t : Txn} {e : FRead} (h : outstanding s (t.tag.toNat / 4096) t.tag.toNat = some e)
    (hok : t.code = 0) : rspReceived s t =
      settle (landRead s (t.tag.toNat / 4096) e t.data t.ident (t.lotM, t.lotP)) (t.tag.toNat / 4096) := by
  simp only [rspReceived, tagPress, h, hok, if_true]

/-- A memory without single-bit errors has none to correct. -/
theorem correctMerges_of_none {s : State} (h : s.mem.ceWords = []) (ps : List (Nat × Byte)) : correctMerges s ps = s := by
  simp only [correctMerges, correctRows, h, List.filter_nil, List.foldl_nil, setMem]
  rw [← h]

theorem memBytes_eq_of_bytes {m : Mem} {k : Nat} {bs : List Byte} (h : ∀ i, i < bs.length → memByte m (k + i) = bs.getD i 0#8) :
    memBytes m k bs.length = bs := by
  induction bs generalizing k with
  | nil => rfl
  | cons b bs ih =>
    have hhead : memByte m k = b := h 0 (Nat.succ_pos _)
    have htail : memBytes m (k + 1) bs.length = bs := ih fun i hi => by
      rw [Nat.add_assoc, Nat.add_comm 1]
      exact h (i + 1) (Nat.succ_lt_succ hi)
    rw [List.length_cons, memBytes, hhead, htail]

theorem inBin_of_region {a m n : Nat} (hregion : region a = .cellar m) (hfits : a % 0x4000000 + n ≤ 0x4000000) :
    CellarRuns.InBin a n where
  cellar := by
    unfold region at hregion
    split at hregion
    · assumption
    · split_ifs at hregion
  fits := hfits

/-- Where the response to a read of press `p` lands. -/
structure LandsAt (s : State) (p : Nat) (e : FRead) (f : Flight) (base : Nat) : Prop where
  flight : runFlight s (getPress s p).run = some f
  stands : stageBase s p (streamDomain s f.stream) = some base
  reaches : reach s (streamDomain s f.stream) false (base + e.stageOff) = .ok

/-- A response lands byte for byte and nowhere else. -/
theorem landRead_of_landsAt {s : State} {p base : Nat} {e : FRead} {f : Flight} (h : LandsAt s p e f base) {data : List Byte}
    (hlen : data.length = 64 * e.lines) (hbin : CellarRuns.InBin (base + e.stageOff) data.length) (hsound : Sound s.mem)
    (vtag : Word) (lot : Word × Word) :
    ∃ m, landRead s p e data vtag lot = putRead { s with mem := m } p { e with landed := true, vtag := vtag } ∧
      (∀ i, i < data.length → memByte m (physOf s (base + e.stageOff) + i) = data.getD i 0#8) ∧
      ∀ k, k < physOf s (base + e.stageOff) ∨ physOf s (base + e.stageOff) + data.length ≤ k → memByte m k = memByte s.mem k := by
  let k := physOf s (base + e.stageOff)
  let mark := if lot.1 = 0xFFFFFFFF#32 then lot else sbUnchecked
  let m := (((byteRun k data).map (fun b => blockOf b.1)).eraseDups).foldl
    (fun m b => sbWrite m b (coversBlock (byteRun k data) b || mark != sbUnchecked) mark) (storeBytes s.mem (byteRun k data)).1
  obtain ⟨hcells, -, -⟩ := memByte_sbWrites (((byteRun k data).map (fun b => blockOf b.1)).eraseDups)
    (fun b => coversBlock (byteRun k data) b || mark != sbUnchecked) (fun _ => mark) (storeBytes s.mem (byteRun k data)).1
  refine ⟨m, ?_, CellarRuns.bytes_of_stored hsound.canonical hsound.words hcells⟩
  have htake : data.take (64 * e.lines) = data := List.take_of_length_le hlen.le
  simp only [landRead, h.flight, h.stands, h.reaches, beq_self_eq_true, if_true, htake, CellarRuns.physWrites_byteRun hbin,
    correctMerges_of_none hsound.single]
  rfl

/-! ### ACK (R339) -/

theorem settleOwn_of_not_running {s : State} {fid : Nat} (h : ∀ f, getFlight s fid = some f → ∀ p, f.phase ≠ .running p) :
    settleOwn s fid = s := by
  unfold settleOwn
  split
  · rfl
  · next f hf =>
    split
    · next p hp => exact absurd hp (h f hf p)
    · rfl

/-- The own transaction of a key that no other one has. -/
structure OnlyOut (s : State) (o : OutTxn) : Prop where
  mem : o ∈ s.fab.outs
  only : ∀ x ∈ s.fab.outs, x.key = o.key → x = o

/-- The pool block of a retired transaction is given back (R41). -/
def blockReturned (s : State) (o : OutTxn) : State := if o.poolBlock then dischargeStream s o.stream else s

theorem getOut_setOut_of_only {s : State} {o o' : OutTxn} (h : OnlyOut s o) (hkey : o'.key = o.key) :
    getOut (setOut s o') o.key = some o' := by
  unfold getOut setOut setOuts
  refine PressWaits.find?_eq_some_of_unique (List.mem_map.mpr ⟨o, h.mem, by simp [hkey]⟩) (by simp [hkey]) fun y hy hP => ?_
  obtain ⟨x, hx, rfl⟩ := List.mem_map.mp hy
  refine if_pos ?_
  by_contra hne
  rw [if_neg hne] at hP
  exact hne (hkey ▸ hP)

theorem retireOut_of_getOut {s : State} {key : Nat} {o : OutTxn} (hget : getOut s key = some o) (hacked : o.acked = true)
    (hpass : o.toPass = []) : retireOut s key = dropOut (blockReturned s o) key := by
  simp only [retireOut, hget, hacked, hpass, List.isEmpty_nil, if_true, blockReturned]

/-- The table once a transaction of it has left. -/
theorem filter_setOut (l : List OutTxn) {o o' : OutTxn} (hkey : o'.key = o.key) :
    (l.map (fun x => if x.key == o'.key then o' else x)).filter (fun x => x.key != o.key) =
      l.filter (fun x => x.key != o.key) := by
  have hsame : ∀ x : OutTxn, (if x.key == o'.key then o' else x).key = x.key := by
    intro x
    split
    · next hx => exact (beq_iff_eq.mp hx).symm
    · rfl
  simp only [List.filter_map, Function.comp_def, hsame]
  refine (List.map_congr_left fun x hx => if_neg ?_).trans (List.map_id' _)
  rw [hkey]
  simpa using (List.mem_filter.mp hx).2

/-- An acknowledged transaction without an awaited check leaves the table. -/
theorem retireOut_of_acked {s : State} {o : OutTxn} (h : OnlyOut s o) (hpass : o.toPass = []) :
    retireOut (setOut s { o with acked := true }) o.key =
      setOuts (blockReturned s o) (s.fab.outs.filter (fun x => x.key != o.key)) := by
  have hget : getOut (setOut s { o with acked := true }) o.key = some { o with acked := true } := getOut_setOut_of_only h rfl
  have hfilter := filter_setOut s.fab.outs (o := o) (o' := { o with acked := true }) rfl
  rw [retireOut_of_getOut hget rfl hpass, blockReturned, blockReturned]
  split
  · exact congrArg (setOuts (dischargeStream s o.stream)) hfilter
  · exact congrArg (setOuts s) hfilter

theorem onlyOut_of_outByIdent {s : State} {b : Word} {o : OutTxn} (h : outByIdent s b = some o)
    (honly : ∀ x ∈ s.fab.outs, x.key = o.key → x = o) : OnlyOut s o := ⟨List.mem_of_find?_eq_some h, honly⟩

theorem ackReceived_of_unknown {s : State} {t : Txn} (h : outByIdent s t.ident = none) : ackReceived s t = bump s 0x8050 1 := by
  simp only [ackReceived, h]

/-- The state once an own transaction has left the table. -/
def outRetired (s : State) (o : OutTxn) : State := setOuts (blockReturned s o) (s.fab.outs.filter (fun x => x.key != o.key))

theorem flights_blockReturned (s : State) (o : OutTxn) : (blockReturned s o).flights = s.flights := by
  unfold blockReturned
  split <;> rfl

theorem settleOwn_outRetired {s : State} {o : OutTxn} (h : ∀ f, getFlight s o.fid = some f → ∀ p, f.phase ≠ .running p) :
    settleOwn (outRetired s o) o.fid = outRetired s o := by
  refine settleOwn_of_not_running ?_
  rw [getFlight, outRetired, setOuts, flights_blockReturned]
  exact h

theorem ackReceived_of_write {s : State} {t : Txn} {o : OutTxn} (hout : outByIdent s t.ident = some o) (hqueued : o.queued = true)
    (hacked : o.acked = false) (hsingle : o.multicast = false) (hwrite : o.txn.typ = 1) (hpass : o.toPass = [])
    (hstill : ∀ f, getFlight s o.fid = some f → ∀ p, f.phase ≠ .running p)
    (honly : ∀ x ∈ s.fab.outs, x.key = o.key → x = o) : ackReceived s t = outRetired s o := by
  have hawaited : ¬ (o.acked || !o.queued || (o.multicast && (o.waitMask &&& t.mask) == 0)) = true := by
    simp [hacked, hqueued, hsingle]
  have hsum : ¬ (o.txn.typ = 2 ∧ (t.mask ≠ 0 ∨ t.code = 6)) := by simp [hwrite]
  simp only [ackReceived, hout, if_neg hawaited, if_neg (ne_true_of_eq_false hsingle), if_neg hsum]
  rw [retireOut_of_acked (onlyOut_of_outByIdent hout honly) hpass]
  exact settleOwn_outRetired hstill

theorem outs_outRetired (s : State) (o : OutTxn) :
    (outRetired s o).fab.outs = s.fab.outs.filter (fun x => x.key != o.key) := rfl

theorem mem_outRetired (s : State) (o : OutTxn) : (outRetired s o).mem = s.mem := by
  unfold outRetired blockReturned
  split <;> rfl

theorem book_outRetired (s : State) (o : OutTxn) : (outRetired s o).book = s.book := by
  unfold outRetired blockReturned
  split <;> rfl

theorem regs_outRetired (s : State) (o : OutTxn) : (outRetired s o).regs =
    if o.poolBlock then (rsetFld s (0x2C00 + 4 * o.stream) 0 22 (streamOcc s o.stream - 1)).regs else s.regs := by
  unfold outRetired blockReturned
  split <;> rfl

theorem drainPool_outRetired {s : State} {o : OutTxn} (hpool : s.fab.poolWait = []) (hexport : s.door.xwait = []) :
    drainPool (outRetired s o) = outRetired s o := by
  refine EndOfBoot.drainPool_of_none_waiting ?_ ?_
  · unfold outRetired blockReturned
    split <;> exact hpool
  · unfold outRetired blockReturned
    split <;> exact hexport

/-- The event of an ACK that did not come. -/
def lateEvent (b : Word) (o : OutTxn) : Event :=
  { code := 0x19, kind := 6, unit := o.stream, args := [b.toNat, o.txn.dnode.toNat] }

/-- An ACK that did not come, counted and recorded. -/
def lateNoted (s : State) (b : Word) (o : OutTxn) : State := emit (bump s 0x804C 1) (lateEvent b o)

theorem ackTimeout_of_write {s : State} {b : Word} {o : OutTxn} (hout : outByIdent s b = some o) (hsent : o.sent = true)
    (hacked : o.acked = false) (hlate : o.late = false) (hsingle : o.multicast = false) (hpass : o.toPass = [])
    (hstill : ∀ f, getFlight s o.fid = some f → ∀ p, f.phase ≠ .running p)
    (honly : ∀ x ∈ s.fab.outs, x.key = o.key → x = o) : ackTimeout s b = outRetired (lateNoted s b o) o := by
  have hfab : (lateNoted s b o).fab = s.fab := emit_fab _ _
  have hflights : (lateNoted s b o).flights = s.flights := emit_flights _ _
  have h : OnlyOut (lateNoted s b o) o := by
    obtain ⟨hmem, -⟩ := onlyOut_of_outByIdent hout honly
    exact ⟨by rw [hfab]; exact hmem, by rw [hfab]; exact honly⟩
  have hawaited : (o.sent && !o.acked && !o.late) = true := by simp [hsent, hacked, hlate]
  simp only [ackTimeout, hout, if_pos hawaited, if_neg (ne_true_of_eq_false hsingle)]
  refine (congrArg (settleOwn · o.fid) (retireOut_of_acked h hpass)).trans (settleOwn_outRetired ?_)
  rw [getFlight, hflights]
  exact hstill

/-! ### MGMT frames (R355, R485) -/

theorem exec_mgmt_or_event {c : Instr} {n : Fin 48} {t : Txn} (hc : c ∈ [Instr.mgmt n t, Instr.event n t]) (s : State) :
    exec c s = .next (mgmtIn s n { t with typ := 7 }) := by
  simp only [List.mem_cons, List.not_mem_nil, or_false] at hc
  rcases hc with rfl | rfl
  · rfl
  · rfl

theorem queueSend_of_no_node {s : State} (hroom : s.book.send.length < 64) (hnode : evtNode s = none) (e : SendEv) :
    queueSend s e = { s with book := { s.book with send := s.book.send ++ [e] } } := by
  have h : evtNode { s with book := { s.book with send := s.book.send ++ [e] } } = none := hnode
  simp only [queueSend, hroom, if_true, h]

theorem takeMgmt_of_event {s : State} {t : Txn} {p : Packet} (hread : readPacket t.data = some p) (hrsp : p.rsp = false)
    (hcode : p.code = 1) (hlen : 36 ≤ p.payload.length) : takeMgmt s t = queueSend s
      { origin := BitVec.ofNat 16 (leNat (p.payload.take 2)), item := recOfWords (wordsOf 8 (p.payload.drop 4)) } := by
  simp only [takeMgmt, hread, hrsp, hcode, takeEvent, hlen, Bool.false_eq_true, if_false, if_true]

theorem takeMgmt_of_answer {s : State} {t : Txn} {p : Packet} {f : Fwd} (hread : readPacket t.data = some p) (hrsp : p.rsp = true)
    (hfwd : s.mgmt.forwards.find? (fun f => f.dnode == t.snode && f.innerTag == p.tag && f.code == p.code) = some f) :
    takeMgmt s t = sendOut { s with mgmt := { s.mgmt with forwards := s.mgmt.forwards.erase f } }
      (.mgmtFwdRsp f.tag (if nth p.payload 0 0#8 = 4 then 4 else 0) (tatHead p.code 1 p.tag ++ p.payload)) := by
  simp only [takeMgmt, hread, hrsp, if_true, forwardAnswered, hfwd]

/-! ### The obligation -/

theorem exec_recallTxn {s : State} {n : Fin 48} {t : Txn} (husable : usable s n.val = true) (hnode : t.dnode.toNat = nodeId s)
    (hdoor : doorNode s ≠ some t.dnode.toNat) : ∃ u, exec (.recallTxn n t) s = .next u ∧ RecallTaken s t u := by
  obtain ⟨ports, l, hexec⟩ := takeOr_of_here (t := { t with typ := 4, data := [] }) husable hnode
    (takeRecall · { t with typ := 4, data := [] })
  obtain ⟨hcount, hrecalls, hmem, hevent⟩ :=
    recallTaken_takeRecall (s := wired s ports l) (t := { t with typ := 4, data := [] }) hdoor
  exact ⟨_, congrArg Host.Outcome.next hexec, hcount, hrecalls, hmem, hevent⟩

theorem exec_gap {s : State} {n : Fin 48} {t : Txn} (husable : usable s n.val = true) (hnode : t.dnode.toNat = nodeId s) :
    ∃ u, exec (.gap n t) s = .next u ∧ GapTaken s t u := by
  obtain ⟨ports, l, hexec⟩ := takeOr_of_here (t := { t with typ := 5, data := [] }) husable hnode
    (takeGap · { t with typ := 5, data := [] })
  obtain ⟨hcount, hgaps, hmem, hevent⟩ := gapTaken_takeGap (wired s ports l) { t with typ := 5, data := [] }
  exact ⟨_, congrArg Host.Outcome.next hexec, hcount, hgaps, hmem, hevent⟩

theorem exec_readRsp_eq {s : State} {n : Fin 48} {t : Txn} (husable : usable s n.val = true) (hnode : t.dnode.toNat = nodeId s) :
    ∃ ports l, exec (.readRsp n t) s = .next (rspReceived (wired s ports l) { t with typ := 8 }) := by
  obtain ⟨ports, l, hexec⟩ := takeOr_of_here (t := { t with typ := 8 }) husable hnode (rspReceived · { t with typ := 8 })
  exact ⟨ports, l, congrArg Host.Outcome.next hexec⟩

theorem exec_ack_eq {s : State} {n : Fin 48} {t : Txn} (husable : usable s n.val = true) (hnode : t.dnode.toNat = nodeId s) :
    ∃ ports l, exec (.ack n t) s = .next (drainPool (ackReceived (wired s ports l) { t with typ := 9, data := [] })) := by
  obtain ⟨ports, l, hexec⟩ := takeOr_of_here (t := { t with typ := 9, data := [] }) husable hnode
    (fun s => drainPool (ackReceived s { t with typ := 9, data := [] }))
  exact ⟨ports, l, congrArg Host.Outcome.next hexec⟩

theorem exec_mgmt_eq {s : State} {n : Fin 48} {t : Txn} {c : Instr} (hc : c ∈ [Instr.mgmt n t, Instr.event n t])
    (husable : usable s n.val = true) (hnode : t.dnode.toNat = nodeId s) :
    ∃ ports l, exec c s = .next (takeMgmt (wired s ports l) { t with typ := 7 }) := by
  obtain ⟨ports, l, hexec⟩ := takeOr_of_here (t := { t with typ := 7 }) husable hnode
    (fun s => if t.dnode.toNat = nodeId s then takeMgmt s { t with typ := 7 } else s)
  refine ⟨ports, l, (exec_mgmt_or_event hc s).trans (congrArg Host.Outcome.next (hexec.trans (if_pos ?_)))⟩
  exact hnode

/-- Settles O58: once its credits are given back, each message is a change of a few fields that leaves the rest. -/
theorem fabricMessages : Obligations.FabricMessages := by
  unfold Obligations.FabricMessages
  refine ⟨?reserved, fun s n t husable hnode => ⟨?recalled, ?gap, ?retired, ?lands, ?ack, ?mgmt⟩, fun s b => ⟨rfl, ?unknown, ?late⟩⟩
  case reserved =>
    rintro s n t _ rfl husable hroom
    obtain ⟨ports, l, htake⟩ := takeRx_eq_wired s n.val 3 (48 + 64 * (t.lenM1.toNat + 1)) false
      (fun x => headerWords x == headerWords t)
    have hflit := flit_mem_takeRx husable hroom 3 (48 + 64 * (t.lenM1.toNat + 1)) (fun x => headerWords x == headerWords t)
    rw [reserved_units, htake] at hflit
    refine ⟨bump (wired s ports l) 0x8048 1, ?_, rfl, rfl, hflit⟩
    rw [← htake]
    exact congrArg Host.Outcome.next (if_pos husable)
  case recalled =>
    intro hdoor
    obtain ⟨u, hexec, hcount, hrecalls, hmem, hevent⟩ := exec_recallTxn husable hnode hdoor
    refine ⟨u, hexec, hcount, ?_, ?_, fun k => ?_, fun e he hsnode hident hcellar _ => ?_, hevent⟩
    · rw [hrecalls]
      exact mem_recallsAfter s t
    · rw [hrecalls, length_recallsAfter]
    · rw [hmem, memByte_recallMarked]
    · rw [hmem]
      refine sbGet_recallMarked hcellar (.inl (List.mem_map.mpr ⟨e, List.mem_filter.mpr ⟨he, ?_⟩, rfl⟩))
      simp [hsnode, hident]
  case gap =>
    obtain ⟨u, hexec, hcount, hgaps, hmem, hevent⟩ := exec_gap husable hnode
    refine ⟨u, hexec, hcount, ?_, ?_, ?_, hmem, hevent⟩
    · rw [hgaps]
      exact mem_gapsAfter_self s t
    · rw [hgaps]
      exact fun g => ident_of_mem_gapsAfter
    · rw [hgaps]
      exact fun hroom g => mem_gapsAfter_of_room hroom
  case retired =>
    intro hnone
    obtain ⟨ports, l, hexec⟩ := exec_readRsp_eq husable hnode
    have h : outstanding (wired s ports l) (t.tag.toNat / 4096) t.tag.toNat = none := hnone
    obtain ⟨hmem, hregs⟩ := rspReceived_of_none_frame (t := { t with typ := 8 }) h
    refine ⟨_, hexec, hmem, hregs, fun hretired => ?_, fun hretired => ?_⟩
    · rw [rspReceived_of_retired (t := { t with typ := 8 }) h hretired]
      rfl
    · rw [rspReceived_of_unknown (t := { t with typ := 8 }) h hretired]
      rfl
  case lands =>
    rintro p base m r f e rfl hstate hrun hflight hop he hfly htag honly hbase hreach hregion hfits hsound hok hlen
    obtain ⟨ports, l, hexec⟩ := exec_readRsp_eq husable hnode
    have hread : PressWaits.OnlyFlying r e := ⟨he, hfly, honly⟩
    have hout : outstanding (wired s ports l) (t.tag.toNat / 4096) t.tag.toNat = some e :=
      (congrArg _ htag.symm).trans (PressWaits.outstanding_of_only hrun hread)
    have hsetup : PressWaits.InSetup s (t.tag.toNat / 4096) r f := ⟨hstate, hrun, hflight, hop⟩
    have hat : LandsAt (wired s ports l) (t.tag.toNat / 4096) e f base := ⟨by
      change runFlight s (getPress s _).run = _
      rw [hrun]
      exact hflight, hbase, hreach⟩
    obtain ⟨m', hland, hbytes, hframe⟩ := landRead_of_landsAt hat hlen (inBin_of_region hregion (hlen ▸ hfits)) hsound t.ident
      (t.lotM, t.lotP)
    rw [rspReceived_of_ok (t := { t with typ := 8 }) hout hok] at hexec
    rw [hland, PressWaits.putRead_of_only (s := { wired s ports l with mem := m' }) (e' := { e with landed := true, vtag := t.ident })
      hrun hread rfl] at hexec
    refine ⟨_, hexec.trans (congrArg _ (PressWaits.settle_putRun_of_setup hsetup rfl rfl rfl)), ?_, ?_, rfl⟩
    · rw [← hlen]
      exact memBytes_eq_of_bytes hbytes
    · rw [← hlen]
      exact hframe
  case ack =>
    intro hpool hexport
    obtain ⟨ports, l, hexec⟩ := exec_ack_eq husable hnode
    refine ⟨fun hnone => ?_, fun o hout hqueued hacked hsingle hwrite hpass hstill honly => ?_⟩
    · rw [ackReceived_of_unknown (s := wired s ports l) (t := { t with typ := 9, data := [] }) hnone,
        EndOfBoot.drainPool_of_none_waiting (s := bump (wired s ports l) 0x8050 1) hpool hexport] at hexec
      exact ⟨_, hexec, rfl, rfl, rfl⟩
    · rw [ackReceived_of_write (s := wired s ports l) (t := { t with typ := 9, data := [] }) hout hqueued hacked hsingle hwrite
        hpass hstill honly, drainPool_outRetired (s := wired s ports l) hpool hexport] at hexec
      exact ⟨_, hexec, rfl, mem_outRetired _ o, regs_outRetired _ o⟩
  case mgmt =>
    intro c p hc hread
    obtain ⟨ports, l, hexec⟩ := exec_mgmt_eq hc husable hnode
    refine ⟨fun hrsp hcode hlen hroom hevt => ?_, fun f hrsp hfwd => ?_⟩
    · rw [takeMgmt_of_event (t := { t with typ := 7 }) hread hrsp hcode hlen,
        queueSend_of_no_node (s := wired s ports l) hroom hevt] at hexec
      exact ⟨_, hexec, rfl⟩
    · rw [takeMgmt_of_answer (s := wired s ports l) (t := { t with typ := 7 }) hread hrsp hfwd] at hexec
      exact ⟨_, hexec, rfl, List.mem_cons_self⟩
  case unknown =>
    intro hnone
    change Host.Outcome.next (ackTimeout s b) = _
    simp only [ackTimeout, hnone]
  case late =>
    intro o hout hsent hacked hlate hsingle hpass hblock hstill hroom honly
    refine ⟨_, congrArg Host.Outcome.next (ackTimeout_of_write hout hsent hacked hlate hsingle hpass hstill honly), ?_, ?_, ?_, ?_⟩
    · rw [outs_outRetired, lateNoted, emit_fab]
      rfl
    · rw [regs_outRetired, hblock]
      exact emit_regs_of_room (s := bump s 0x804C 1) hroom (lateEvent b o)
    · rw [mem_outRetired, lateNoted, emit_mem]
      rfl
    · rw [book_outRetired]
      exact ⟨_, stamped_mem_emit (s := bump s 0x804C 1) hroom (lateEvent b o), rfl, rfl, rfl⟩

end Sys2Proof.Proofs.FabricMessages
end

section
/-!
PROOFS. A write of CTL.VCMD (R301, R312): the command that it pushes into the queue, or the drop at a full queue (R313).
-/
namespace Sys2Proof.Proofs.VintageQueue
open Sys2Proof.Machine

/-! ### The word of a command (R312) -/

/-- Bits 25 to 12 of CTL.VCMD lie between the slot and the handle. -/
theorem fld_vcWord_gap (k : Nat) (h : BitVec 12) (v : Fin 4) : fld (vcWord k h.toNat v) 12 14 = 0 := by
  have hh := h.isLt
  have hv := v.isLt
  simp only [fld, vcWord, BitVec.toNat_ofNat]
  omega

/-- The row of CTL.VCMD. -/
def vcmdRow : RegRow := { name := "CTL.VCMD", base := 0x01D4, rw := 0xFC000FFF }

theorem regRow_vcmd : regRow 0x01D4 = some vcmdRow := rfl

/-- The reserved bits of CTL.VCMD are those of its one gap. -/
theorem rsv_vcmdRow_gap : ∀ i < 32, vcmdRow.rsv.getLsbD i = true → 12 ≤ i ∧ i < 12 + 14 := by decide +kernel

theorem and_rsv_of_gap {w : Word} (h : fld w 12 14 = 0) : w &&& vcmdRow.rsv = 0#32 := by
  apply BitVec.eq_of_getLsbD_eq
  intro i hi
  rw [BitVec.getLsbD_and, BitVec.getLsbD_zero, Bool.and_eq_false_iff, Bool.eq_false_iff (b := vcmdRow.rsv.getLsbD i)]
  by_cases hr : vcmdRow.rsv.getLsbD i = true
  · obtain ⟨hlo, hhi⟩ := rsv_vcmdRow_gap i hi hr
    have hbit := testBit_fld w 12 14 (i - 12)
    have hin : i - 12 < 14 := by omega
    rw [h, Nat.zero_testBit, Nat.add_sub_cancel' hlo, decide_eq_true hin, Bool.true_and] at hbit
    exact .inl hbit.symm
  · exact .inr hr

/-- A word without reserved bits is kept whole by a write. -/
theorem and_not_of_and_eq_zero {w m : Word} (h : w &&& m = 0#32) : w &&& ~~~m = w := by
  calc w &&& ~~~m = (w &&& m) ||| (w &&& ~~~m) := by rw [h, BitVec.zero_or]
    _ = w := by rw [← BitVec.and_or_distrib_left, BitVec.or_not_self, BitVec.and_allOnes]

/-! ### The write -/

/-- A write of CTL.VCMD without reserved bits is one push. -/
theorem regWrite_vcmd {w : Word} (h : fld w 12 14 = 0) (key : Nat) (s : State) : regWrite key s 0x01D4 w = vcmdPush s w := by
  have hrsv := and_rsv_of_gap h
  simp [regWrite, regWriteCore, regRow_vcmd, noteReserved, hrsv, and_not_of_and_eq_zero hrsv]

/-- Every vintage command of a source that reaches the register window is the push of its word. -/
theorem exec_vcmd_of_reaches {s : State} {src : Source} {h : BitVec 12} {v : Fin 4} {k : Nat} {c : Instr}
    (hreach : reaches s src = true)
    (hc : (k, c) ∈ [(1, Instr.vcOpen src h v), (2, .vcFlip src h v), (3, .vcDiscard src h v), (4, .vcRetire src h v)]) :
    exec c s = .next (vcmdPush s (vcWord k h.toNat v)) := by
  have hwrite : exec c s = .next (srcWrite s src 0x01D4 (vcWord k h.toNat v) 0xF#4) := by
    simp only [List.mem_cons, Prod.mk.injEq, List.not_mem_nil, or_false] at hc
    obtain ⟨rfl, rfl⟩ | ⟨rfl, rfl⟩ | ⟨rfl, rfl⟩ | ⟨rfl, rfl⟩ := hc <;> rfl
  have full : coversWord src 0xF#4 = true := rfl
  rw [hwrite, srcWrite, if_pos hreach, if_pos full, regWrite_vcmd (fld_vcWord_gap k h v)]

/-! ### A push -/

theorem vcmdPush_of_room {s : State} (h : s.vint.queue.length < 16) (w : Word) :
    vcmdPush s w = rset { s with vint := { s.vint with queue := s.vint.queue ++ [w] } } 0x01D4 w := if_pos h

theorem vcmdPush_of_full {s : State} (h : 16 ≤ s.vint.queue.length) (w : Word) : vcmdPush s w = bumpFld s 0x01D8 24 8 1 :=
  if_neg (Nat.not_lt.mpr h)

/-- A counter field that is raised saturates at its width. -/
theorem rfld_bumpFld_self (s : State) (off : Nat) {lo n : Nat} (h : lo + n ≤ 32) (k : Nat) :
    rfld (bumpFld s off lo n k) off lo n = min (2 ^ n - 1) (rfld s off lo n + k) := by
  have hpos := Nat.two_pow_pos n
  have hlt : min (2 ^ n - 1) (rfld s off lo n + k) < 2 ^ n := by omega
  rw [bumpFld, rfld, rget_rsetFld_self, fld_setFld_self _ h, Nat.mod_eq_of_lt hlt]

/-- Settles O34: a vintage command's word has no reserved bit, so its write is one push of that word, into the queue or, at a full
queue, into the saturating count of CTL.VSTAT.DROPPED. -/
theorem vintageCommandsQueue : Obligations.VintageCommandsQueue := by
  unfold Obligations.VintageCommandsQueue
  intro s src h v k c hreach hc
  have hexec := exec_vcmd_of_reaches hreach hc
  refine ⟨fun hroom => ?room, fun hfull => ?full⟩
  case room =>
    rw [vcmdPush_of_room hroom] at hexec
    exact ⟨_, hexec, rfl, rget_rset_self _ _ _, fun o ho => rget_rset_ne _ ho _, rfl⟩
  case full =>
    rw [vcmdPush_of_full hfull] at hexec
    exact ⟨_, hexec, rfld_bumpFld_self s 0x01D8 (by decide) 1, fun o ho => rget_rsetFld_ne s ho _ _ _, rfl⟩

end Sys2Proof.Proofs.VintageQueue
end

section
/-!
PROOFS. Transactions and door messages as bytes: their fields read back (R318, R324, R325, R327, R361, R362).
-/
namespace Sys2Proof.Proofs.Headers
open Sys2Proof.Machine

/-! ### Rows of little-endian numbers (R6) -/

theorem leNat_leBytes (n v : Nat) : leNat (leBytes n v) = v % 256 ^ n := by
  induction n generalizing v with
  | zero => rw [Nat.pow_zero, Nat.mod_one, leBytes, leNat]
  | succ n ih => rw [leBytes, leNat, ih, Nat.pow_succ', Nat.mod_mul, BitVec.toNat_ofNat]

theorem length_flatMap_leBytes {α : Type} (n : Nat) (g : α → Nat) (l : List α) :
    (l.flatMap (fun a => leBytes n (g a))).length = n * l.length := by
  simp [List.length_flatMap, TimeFrames.length_leBytes, Nat.mul_comm]

/-- The number at place `i` of a row of numbers of `n` bytes each. -/
theorem leNat_place {α : Type} (g : α → Nat) (n : Nat) {i : Nat} {l : List α} (hi : i < l.length) (rest : List Byte) :
    leNat (((l.flatMap (fun a => leBytes n (g a)) ++ rest).drop (n * i)).take n) = g l[i] % 256 ^ n := by
  induction l generalizing i with
  | nil => exact absurd hi (Nat.not_lt_zero i)
  | cons a l ih =>
    rw [List.flatMap_cons, List.append_assoc]
    cases i with
    | zero =>
      rw [Nat.mul_zero, List.drop_zero, List.take_left' (TimeFrames.length_leBytes n (g a)), leNat_leBytes, List.getElem_cons_zero]
    | succ i =>
      have hskip : n * (i + 1) = (leBytes n (g a)).length + n * i := by rw [TimeFrames.length_leBytes, Nat.mul_succ, Nat.add_comm]
      rw [hskip, List.drop_length_add_append, List.getElem_cons_succ]
      exact ih (Nat.lt_of_succ_lt_succ hi)

/-- Word `i` of a message, as the readers of headers take it. -/
def wordOf (bs : List Byte) (i : Nat) : Nat := leNat ((bs.drop (4 * i)).take 4)

theorem wordOf_eq (bs : List Byte) (i : Nat) : leNat ((bs.drop (4 * i)).take 4) = wordOf bs i := rfl

theorem wordOf_words {ws : List Nat} {i v : Nat} (hi : ws[i]? = some v) (rest : List Byte) :
    wordOf (ws.flatMap (leBytes 4) ++ rest) i = v % 2 ^ 32 := by
  obtain ⟨hlt, rfl⟩ := List.getElem?_eq_some_iff.mp hi
  exact leNat_place id 4 hlt rest

theorem flagAt_eq (b : Bool) (i : Nat) : flagAt b i = b.toNat * 2 ^ i := by
  cases b
  · rw [flagAt, Bool.toNat_false, Nat.zero_mul, if_neg Bool.false_ne_true]
  · rw [flagAt, Bool.toNat_true, Nat.one_mul, if_pos rfl]

theorem toNat_beq_one (b : Bool) : (b.toNat == 1) = b := by
  cases b
  · rfl
  · rfl

/-! ### The header of a transaction (R324) -/

section Words

variable {t : Txn} {bs : List Byte} (h : ∀ i v, (headerWords t)[i]? = some v → wordOf bs i = v % 2 ^ 32)
include h

theorem typeWord_fields :
    wordOf bs 0 / 2 ^ 28 % 2 ^ 4 = t.typ.toNat ∧ wordOf bs 0 / 2 ^ 22 % 2 ^ 6 = t.hops.toNat ∧
      wordOf bs 0 / 2 ^ 21 % 2 ^ 1 = t.partialW.toNat ∧ wordOf bs 0 / 2 ^ 20 % 2 ^ 1 = t.early.toNat ∧
      wordOf bs 0 / 2 ^ 19 % 2 ^ 1 = t.rejoin.toNat ∧ wordOf bs 0 / 2 ^ 0 % 2 ^ 18 = t.tag.toNat := by
  have h0 := h 0 _ rfl
  simp only [flagAt_eq] at h0
  have htyp := t.typ.isLt
  have hhops := t.hops.isLt
  have hpartial := t.partialW.toNat_lt
  have hearly := t.early.toNat_lt
  have hrejoin := t.rejoin.toNat_lt
  have htag := t.tag.isLt
  omega

theorem nodeWord_fields :
    wordOf bs 1 / 2 ^ 16 % 2 ^ 16 = t.dnode.toNat ∧ wordOf bs 1 / 2 ^ 0 % 2 ^ 16 = t.snode.toNat := by
  have h1 := h 1 _ rfl
  have hdnode := t.dnode.isLt
  have hsnode := t.snode.isLt
  omega

theorem addrWords_fields :
    wordOf bs 3 / 2 ^ 0 % 2 ^ 16 * 2 ^ 32 + wordOf bs 2 / 2 ^ 0 % 2 ^ 32 = t.addr.toNat ∧
      wordOf bs 3 / 2 ^ 16 % 2 ^ 12 = t.table.toNat := by
  have h2 := h 2 _ rfl
  have h3 := h 3 _ rfl
  have haddr := t.addr.isLt
  have htable := t.table.isLt
  omega

theorem lengthWord_fields :
    wordOf bs 4 / 2 ^ 31 % 2 ^ 1 = t.dvx.toNat ∧ wordOf bs 4 / 2 ^ 29 % 2 ^ 2 = t.dvin.toNat ∧
      wordOf bs 4 / 2 ^ 24 % 2 ^ 5 = t.lenM1.toNat ∧ wordOf bs 4 / 2 ^ 16 % 2 ^ 8 = t.code.toNat ∧
      wordOf bs 4 / 2 ^ 8 % 2 ^ 8 = t.stream.toNat := by
  have h4 := h 4 _ rfl
  simp only [flagAt_eq] at h4
  have hdvx := t.dvx.toNat_lt
  have hdvin := t.dvin.isLt
  have hlen := t.lenM1.isLt
  have hcode := t.code.isLt
  have hstream := t.stream.isLt
  omega

theorem lastWords_fields :
    wordOf bs 5 / 2 ^ 0 % 2 ^ 32 = t.ident.toNat ∧ wordOf bs 6 / 2 ^ 20 % 2 ^ 12 = t.group.toNat ∧
      wordOf bs 9 / 2 ^ 0 % 2 ^ 32 * 2 ^ 32 + wordOf bs 8 / 2 ^ 0 % 2 ^ 32 = t.mask.toNat ∧
      wordOf bs 10 / 2 ^ 0 % 2 ^ 32 = t.lotM.toNat ∧ wordOf bs 11 / 2 ^ 0 % 2 ^ 32 = t.lotP.toNat := by
  have h5 := h 5 _ rfl
  have h6 := h 6 _ rfl
  have h8 := h 8 _ rfl
  have h9 := h 9 _ rfl
  have h10 := h 10 _ rfl
  have h11 := h 11 _ rfl
  have hident := t.ident.isLt
  have hgroup := t.group.isLt
  have hmask := t.mask.isLt
  have hlotM := t.lotM.isLt
  have hlotP := t.lotP.isLt
  omega

theorem headerTxn_of_words : headerTxn (wordOf bs) = { t with data := [], bmasks := [] } := by
  simp only [headerTxn, typeWord_fields h, nodeWord_fields h, addrWords_fields h, lengthWord_fields h, lastWords_fields h,
    BitVec.ofNat_toNat, BitVec.setWidth_eq, toNat_beq_one]

end Words

theorem length_headerBytes (t : Txn) : (headerBytes t).length = 48 := length_flatMap_leBytes 4 id (headerWords t)

/-- A header reads back, whatever follows it. -/
theorem readHeader_headerBytes (t : Txn) (rest : List Byte) :
    readHeader (headerBytes t ++ rest) = { t with data := [], bmasks := [] } :=
  headerTxn_of_words fun _ _ hi => wordOf_words hi rest

/-! ### A transaction with its payload (R325, R327) -/

/-- The payload of a transaction is as long as its TYPE, LEN_M1 and PARTIAL say. -/
structure FullLength (t : Txn) : Prop where
  lines : t.data.length = 64 * payloadLines t.typ.toNat t.lenM1.toNat
  masks : t.bmasks.length = if hasMasks t.typ.toNat t.partialW then payloadLines t.typ.toNat t.lenM1.toNat else 0

/-- The byte masks as they travel. -/
def maskBytes (t : Txn) : List Byte := t.bmasks.flatMap (fun m => leBytes 8 m.toNat)

theorem txnStream_append (t : Txn) (rest : List Byte) :
    txnStream t ++ rest = headerBytes t ++ (t.data ++ (maskBytes t ++ rest)) := by
  simp only [txnStream, maskBytes, List.append_assoc]

theorem length_txnStream (t : Txn) : (txnStream t).length = txnBytes t := by
  simp only [txnStream, txnBytes, List.length_append, length_headerBytes, length_flatMap_leBytes]

theorem readHeader_txnStream (t : Txn) (rest : List Byte) :
    readHeader (txnStream t ++ rest) = { t with data := [], bmasks := [] } := by
  rw [txnStream_append, readHeader_headerBytes]

theorem rxLen_of_fullLength {t : Txn} (h : FullLength t) : rxLen { t with data := [], bmasks := [] } = txnBytes t := by
  simp only [rxLen, txnBytes, h.lines, h.masks]
  split <;> rfl

/-- Byte masks read back one by one. -/
theorem masks_read (l : List (BitVec 64)) (rest : List Byte) :
    (List.range l.length).map (fun i =>
      BitVec.ofNat 64
        (leNat ((((l.flatMap (fun m => leBytes 8 m.toNat) ++ rest).take (8 * l.length)).drop (8 * i)).take 8))) = l := by
  rw [List.take_left' (length_flatMap_leBytes 8 (·.toNat) l)]
  refine List.ext_getElem (by simp) fun i _ hi => ?_
  have hplace := leNat_place BitVec.toNat 8 hi []
  rw [List.append_nil] at hplace
  rw [List.getElem_map, List.getElem_range, hplace, Nat.mod_eq_of_lt (show l[i].toNat < 256 ^ 8 from l[i].isLt),
    BitVec.ofNat_toNat, BitVec.setWidth_eq]

theorem readTxnBytes_txnStream {t : Txn} (h : FullLength t) (rest : List Byte) : readTxnBytes (txnStream t ++ rest) = t := by
  have hdata : ((txnStream t ++ rest).drop 48).take (64 * payloadLines t.typ.toNat t.lenM1.toNat) = t.data := by
    rw [txnStream_append, ← length_headerBytes t, List.drop_left, ← h.lines, List.take_left]
  have hskip : (txnStream t ++ rest).drop (48 + 64 * payloadLines t.typ.toNat t.lenM1.toNat) = maskBytes t ++ rest := by
    rw [txnStream_append, ← List.drop_drop, ← length_headerBytes t, List.drop_left, ← h.lines, List.drop_left]
  have hmasks := h.masks
  simp only [readTxnBytes, readHeader_txnStream, hdata, hskip]
  split at hmasks
  · next hhas => simp only [hhas, if_true, ← hmasks, maskBytes, masks_read]
  · next hhas => simp only [hhas, Bool.false_eq_true, if_false, ← List.length_eq_zero_iff.mp hmasks]

theorem splitTxns_zeros (n k : Nat) : splitTxns (List.replicate n 0#8) (k + 1) = ([], []) := by
  rw [splitTxns, if_pos]
  simp

/-- A transaction in a flit that zeros fill up is split off whole (log 98). -/
theorem splitTxns_txnStream {t : Txn} (h : FullLength t) (hopen : (txnStream t).all (· == 0#8) = false) (k : Nat) :
    splitTxns (txnStream t ++ List.replicate k 0#8) (k + 2) = ([t], []) := by
  have hlen : (txnStream t ++ List.replicate k 0#8).length = txnBytes t + k := by
    rw [List.length_append, length_txnStream, List.length_replicate]
  have hrest : (txnStream t ++ List.replicate k 0#8).drop (txnBytes t) = List.replicate k 0#8 :=
    List.drop_left' (length_txnStream t)
  have hrx : rxLen (readHeader (txnStream t ++ List.replicate k 0#8)) = txnBytes t := by
    rw [readHeader_txnStream, rxLen_of_fullLength h]
  have hhead : 48 ≤ txnBytes t := by
    rw [txnBytes]
    omega
  rw [splitTxns, if_neg (by simp [List.all_append, hopen]), if_neg (by omega)]
  simp only [hrx, hlen, hrest, splitTxns_zeros, readTxnBytes_txnStream h]
  exact if_neg (by omega)

/-! ### Messages of the cellar door (R361, R362) -/

/-- The first word of a door header. -/
def doorWord (typ : Nat) (ack : Bool) (l : BitVec 5) (st : Byte) (tag : BitVec 12) : Nat :=
  typ * 2 ^ 27 + ack.toNat * 2 ^ 25 + l.toNat * 2 ^ 20 + st.toNat * 2 ^ 12 + tag.toNat

/-- A message without byte masks: its header's words, and the lines behind it. -/
structure Message (bs : List Byte) (typ : Nat) (ack : Bool) (l : BitVec 5) (st : Byte) (tag : BitVec 12) (addr w3 : Nat)
    (data : List Byte) : Prop where
  first : wordOf bs 0 = doorWord typ ack l st tag
  low : wordOf bs 1 = addr % 2 ^ 32
  high : wordOf bs 2 = addr / 2 ^ 32 % 2 ^ 16
  last : wordOf bs 3 = w3
  lines : bs.drop 16 = data
  whole : ¬ bs.length < 16

theorem doorHeader_eq (typ : Nat) (ack : Bool) (l : BitVec 5) (st : Byte) (tag : BitVec 12) (addr w3 : Nat) :
    doorHeader typ false ack l.toNat st.toNat tag addr w3 =
      [doorWord typ ack l st tag, addr % 2 ^ 32, addr / 2 ^ 32 % 2 ^ 16, w3].flatMap (leBytes 4) := by
  have hl : l.toNat % 32 = l.toNat := Nat.mod_eq_of_lt l.isLt
  have hst : st.toNat % 256 = st.toNat := Nat.mod_eq_of_lt st.isLt
  have hoff : flagAt false 26 = 0 := rfl
  simp only [doorHeader, doorWord, hl, hst, hoff, flagAt_eq, Nat.add_zero, List.flatMap_cons, List.flatMap_nil, List.append_nil,
    List.append_assoc]

theorem message_doorHeader {typ : Nat} (htyp : typ < 32) (ack : Bool) (l : BitVec 5) (st : Byte) (tag : BitVec 12) (addr : Nat)
    {w3 : Nat} (hw : w3 < 2 ^ 32) (data : List Byte) :
    Message (doorHeader typ false ack l.toNat st.toNat tag addr w3 ++ data) typ ack l st tag addr w3 data := by
  have hack := ack.toNat_lt
  have hl := l.isLt
  have hst := st.isLt
  have htag := tag.isLt
  have hlen := length_flatMap_leBytes 4 id [doorWord typ ack l st tag, addr % 2 ^ 32, addr / 2 ^ 32 % 2 ^ 16, w3]
  rw [doorHeader_eq]
  refine ⟨?first, ?low, ?high, ?last, List.drop_left' hlen, ?whole⟩
  case first =>
    rw [wordOf_words (by rfl), doorWord]
    omega
  case low =>
    rw [wordOf_words (by rfl)]
    omega
  case high =>
    rw [wordOf_words (by rfl)]
    omega
  case last =>
    rw [wordOf_words (by rfl)]
    omega
  case whole =>
    rw [List.length_append]
    exact Nat.not_lt.mpr (Nat.le_add_right_of_le hlen.ge)

section Fields

variable {bs : List Byte} {typ : Nat} {ack : Bool} {l : BitVec 5} {st : Byte} {tag : BitVec 12} {addr w3 : Nat} {data : List Byte}
  (h : Message bs typ ack l st tag addr w3 data)
include h

theorem doorWord_fields (htyp : typ < 32) :
    wordOf bs 0 / 2 ^ 27 % 2 ^ 5 = typ ∧ wordOf bs 0 / 2 ^ 26 % 2 ^ 1 = 0 ∧ wordOf bs 0 / 2 ^ 25 % 2 ^ 1 = ack.toNat ∧
      wordOf bs 0 / 2 ^ 20 % 2 ^ 5 = l.toNat ∧ wordOf bs 0 / 2 ^ 12 % 2 ^ 8 = st.toNat ∧
      wordOf bs 0 / 2 ^ 0 % 2 ^ 12 = tag.toNat := by
  have hfirst := h.first
  have hack := ack.toNat_lt
  have hl := l.isLt
  have hst := st.isLt
  have htag := tag.isLt
  rw [doorWord] at hfirst
  omega

theorem doorAddr_field (haddr : addr < 2 ^ 48) : wordOf bs 2 / 2 ^ 0 % 2 ^ 16 * 2 ^ 32 + wordOf bs 1 = addr := by
  rw [h.low, h.high]
  omega

end Fields

/-- The command that the fields of a message without byte masks name (R362). -/
def commandOf (m : Fin 16) (typ : Nat) (ack : Bool) (l : BitVec 5) (st : Byte) (tag : BitVec 12) (addr : BitVec 48) (w3 : Nat)
    (data : List Byte) : Option Instr :=
  match typ with
  | 0x01 => some (.mrd m addr l tag)
  | 0x02 => some (.mwr m addr l tag false ack data [])
  | 0x03 => some (.rrd m addr tag)
  | 0x04 => some (.rwr m addr tag (BitVec.ofNat 32 w3))
  | 0x07 => some (.mrst m)
  | 0x18 => some (.xcpl m tag st l data)
  | 0x19 => some (.xack m tag st (BitVec.ofNat 16 (w3 / 2 ^ 0 % 2 ^ 16)))
  | 0x1D => some (.crd m (BitVec.ofNat 16 (w3 / 2 ^ 16 % 2 ^ 16)) (BitVec.ofNat 16 (w3 / 2 ^ 0 % 2 ^ 16)))
  | typ => some (.doorReservedType m (BitVec.ofNat 5 typ) l)

theorem doorCommand_of_message (m : Fin 16) {bs : List Byte} {typ : Nat} (htyp : typ < 32) {ack : Bool} {l : BitVec 5}
    {st : Byte} {tag : BitVec 12} {addr : BitVec 48} {w3 : Nat} {data : List Byte}
    (h : Message bs typ ack l st tag addr.toNat w3 data) (hlen : data.length ≤ 64 * (l.toNat + 1)) :
    doorCommand m bs = commandOf m typ ack l st tag addr w3 data := by
  simp only [doorCommand, wordOf_eq, if_neg h.whole, doorWord_fields h htyp, doorAddr_field h addr.isLt, h.last, h.lines,
    List.take_of_length_le hlen, BitVec.ofNat_toNat, BitVec.setWidth_eq, toNat_beq_one, commandOf]
  rfl

/-- A message that the integrator sends reads back as the command of its fields. -/
theorem doorCommand_doorHeader (m : Fin 16) {typ : Nat} (htyp : typ < 32) (ack : Bool) (l : BitVec 5) (st : Byte) (tag : BitVec 12)
    (addr : BitVec 48) {w3 : Nat} (hw : w3 < 2 ^ 32) {data : List Byte} (hlen : data.length ≤ 64 * (l.toNat + 1)) :
    doorCommand m (doorHeader typ false ack l.toNat st.toNat tag addr.toNat w3 ++ data) =
      commandOf m typ ack l st tag addr w3 data :=
  doorCommand_of_message m htyp (message_doorHeader htyp ack l st tag addr.toNat hw data) hlen

/-- The same of a message that is a header alone. -/
theorem doorCommand_header (m : Fin 16) {typ : Nat} (htyp : typ < 32) (l : BitVec 5) (st : Byte) (tag : BitVec 12)
    (addr : BitVec 48) {w3 : Nat} (hw : w3 < 2 ^ 32) :
    doorCommand m (doorHeader typ false false l.toNat st.toNat tag addr.toNat w3) = commandOf m typ false l st tag addr w3 [] := by
  have h := doorCommand_doorHeader m htyp false l st tag addr hw (data := []) (Nat.zero_le _)
  rwa [List.append_nil] at h

/-! ### The obligation -/

/-- Settles O53: a field of a header is a quotient of its word modulo the field's width, and what lies below or above it in the word
drops out; payload and byte masks stand behind the header at the places that TYPE and LEN_M1 give. -/
theorem headersRoundTrip : Obligations.HeadersRoundTrip := by
  unfold Obligations.HeadersRoundTrip
  refine ⟨fun t rest hdata hmasks => ?fabric,
    fun m addr l tag => ⟨?mrd, fun q data hlen => ?mwr, ?rrd, fun v => ?rwr, ?mrst, fun st data hlen => ?xcpl, fun st lanes => ?xack,
      fun beats headers => ?crd⟩⟩
  case fabric =>
    have h : FullLength t := ⟨hdata, hmasks⟩
    exact ⟨length_headerBytes t, readHeader_txnStream t rest, rxLen_of_fullLength h, readTxnBytes_txnStream h rest,
      length_txnStream t, splitTxns_txnStream h⟩
  case mrd => exact doorCommand_header m (by decide) l 0 tag addr (by decide)
  case mwr => exact doorCommand_doorHeader m (by decide) q l 0 tag addr (by decide) hlen.le
  case rrd => exact doorCommand_header m (by decide) 0 0 tag addr (by decide)
  case rwr =>
    refine (doorCommand_header m (by decide) 0 0 tag addr v.isLt).trans ?_
    rw [commandOf, BitVec.ofNat_toNat, BitVec.setWidth_eq]
  case mrst => exact doorCommand_header m (by decide) 0 0 tag addr (by decide)
  case xcpl => exact doorCommand_doorHeader m (by decide) false l st tag 0 (by decide) hlen.le
  case xack =>
    have hlanes := lanes.isLt
    refine (doorCommand_header m (by decide) 0 st tag 0 (w3 := lanes.toNat) (by omega)).trans ?_
    rw [commandOf, Nat.pow_zero, Nat.div_one, Nat.mod_eq_of_lt hlanes, BitVec.ofNat_toNat, BitVec.setWidth_eq]
  case crd =>
    have hbeats := beats.isLt
    have hheaders := headers.isLt
    have hhigh : (beats.toNat * 2 ^ 16 + headers.toNat) / 2 ^ 16 % 2 ^ 16 = beats.toNat := by omega
    have hlow : (beats.toNat * 2 ^ 16 + headers.toNat) / 2 ^ 0 % 2 ^ 16 = headers.toNat := by omega
    refine (doorCommand_header m (by decide) 0 0 tag 0 (w3 := beats.toNat * 2 ^ 16 + headers.toNat) (by omega)).trans ?_
    rw [commandOf, hhigh, hlow, BitVec.ofNat_toNat, BitVec.ofNat_toNat, BitVec.setWidth_eq, BitVec.setWidth_eq]

end Sys2Proof.Proofs.Headers
end

section
/-!
PROOFS. Requests of other nodes for this node's cellar: READ, WRITE, ATOMIC_ADD and MULTICAST_WRITE served and answered (R322, R327,
R335, R336, R338, R346).
-/
namespace Sys2Proof.Proofs.FabricRequests
open Sys2Proof.Machine Sys2Proof.Claims

/-! ### Answers that leave at once (R319, R332) -/

/-- `u` is `s` with the memory `m` once `x` has left on port `n`: beside them only the fabric's own state and what is put out
differ. -/
def Answered (s : State) (m : Mem) (n : Nat) (x : Txn) (u : State) : Prop :=
  ∃ fab l, u = { s with mem := m, fab := fab, outbox := l ++ .frame n x :: s.outbox }

section Answers

variable {s u : State} {m : Mem} {n : Nat} {x : Txn}

theorem Answered.frame_mem (h : Answered s m n x u) : .frame n x ∈ u.outbox := by
  obtain ⟨fab, l, rfl⟩ := h
  exact List.mem_append_right l List.mem_cons_self

theorem Answered.mem_eq (h : Answered s m n x u) : u.mem = m := by
  obtain ⟨fab, l, rfl⟩ := h
  rfl

theorem Answered.regs_eq (h : Answered s m n x u) : u.regs = s.regs := by
  obtain ⟨fab, l, rfl⟩ := h
  rfl

/-- Credits given back afterwards change the same parts. -/
theorem Answered.takeRx (h : Answered s m n x u) (k vc b : Nat) (keep : Bool) (mine : Txn → Bool) :
    Answered s m n x (takeRx u k vc b keep mine) := by
  obtain ⟨fab, l, rfl⟩ := h
  obtain ⟨ports, l', htake⟩ := FabricMessages.takeRx_eq_wired
    { s with mem := m, fab := fab, outbox := l ++ .frame n x :: s.outbox } k vc b keep mine
  exact ⟨_, l' ++ l, by rw [htake, FabricMessages.wired, List.append_assoc]⟩

/-- What a transaction performed before it is answered changes of the fabric's own state goes into the difference. -/
theorem Answered.of_fab {fab : Fabric} (h : Answered { s with mem := m, fab := fab } m n x u) : Answered s m n x u := by
  obtain ⟨fab', l, rfl⟩ := h
  exact ⟨fab', l, rfl⟩

theorem answered_enqueue (h : GoesOut s n x) (htyp : x.typ ≠ 6) : Answered s s.mem n x (enqueue s n { txn := x }) :=
  PressWaits.enqueue_of_goesOut h htyp none none

/-- An answer as this node sends it (R333). -/
theorem answered_sendAnswer (hother : x.dnode.toNat ≠ nodeId s) (h : GoesOut s n (PressWaits.own s x)) (htyp : x.typ ≠ 6) :
    Answered s s.mem n (PressWaits.own s x) (sendAnswer s (nodeId s) x none none) := by
  have hroute : chooseRoute s { x with hops := 63, snode := BitVec.ofNat 16 (nodeId s) } = some n := h.route
  simp only [sendAnswer, if_neg hother, hroute]
  exact answered_enqueue h htyp

end Answers

/-! ### The ways out of a node (R331, R332) -/

/-- `u` has the routes of `s`, and its ports differ in the transactions received at most. -/
structure SameWays (s u : State) : Prop where
  route : u.fab.route = s.fab.route
  ports : ∀ k, ∃ l, getPort u k = { getPort s k with rxIn := l }

section Ways

variable {s u : State} (h : SameWays s u)
include h

theorem SameWays.usable_eq (k : Nat) : usable u k = usable s k := by
  obtain ⟨l, hport⟩ := h.ports k
  exact usable_congr s u k (by rw [hport]; exact ⟨rfl, rfl, rfl, rfl⟩)

theorem SameWays.credits_eq (k : Nat) : (getPort u k).credits = (getPort s k).credits := by
  obtain ⟨l, hport⟩ := h.ports k
  rw [hport]

theorem SameWays.mostCredits_eq (vc : Nat) (l : List Nat) : mostCredits u vc l = mostCredits s vc l := by
  induction l with
  | nil => rfl
  | cons n l ih =>
    cases hl : mostCredits s vc l with
    | none => simp only [mostCredits, ih, hl]
    | some k => simp only [mostCredits, ih, hl, h.credits_eq]

theorem SameWays.usableAlts_eq (node : Nat) : usableAlts u node = usableAlts s node := by
  simp only [usableAlts, routeAlts, h.route, h.usable_eq]

/-- A transaction outside VC2 takes the same way. -/
theorem SameWays.goesOut {n : Nat} {x : Txn} (hgo : GoesOut s n x) (hvc : x.typ ∉ [1, 2, 3]) : GoesOut u n x := by
  obtain ⟨l, hport⟩ := h.ports n
  simp only [List.mem_cons, List.not_mem_nil, or_false, not_or] at hvc
  obtain ⟨h1, h2, h3⟩ := hvc
  have hroute := hgo.route
  simp only [chooseRoute, h1, h2, h3, or_self, if_false] at hroute
  refine ⟨?_, (h.usable_eq n).trans hgo.works, ?_, ?_, ?_⟩
  · simp only [chooseRoute, h1, h2, h3, or_self, if_false, h.usableAlts_eq, h.mostCredits_eq, hroute]
  · rw [hport]
    exact hgo.free
  · rw [hport]
    exact hgo.credits
  · rw [hport]
    exact hgo.room

end Ways

/-- A change of the memory and of what is kept of performed writes leaves the ways as they are. -/
theorem sameWays_of_fab {s u : State} (hroute : u.fab.route = s.fab.route) (hports : u.fab.ports = s.fab.ports) : SameWays s u where
  route := hroute
  ports k := ⟨(getPort s k).rxIn, by rw [getPort, hports, ← getPort]⟩

theorem sameWays_leaveRx (s : State) (n : Nat) (t : Txn) : SameWays s (leaveRx s n t) where
  route := rfl
  ports k := by
    by_cases hk : k = n
    · subst hk
      exact ⟨_, getPort_setPort_self _ _ _⟩
    · exact ⟨(getPort s k).rxIn, getPort_setPort_ne s hk _⟩

/-! ### The lines of a request (R40, R322, R323) -/

/-- The address of the first line of a request. -/
def lineAddr (t : Txn) : Nat := t.addr.toNat / 64 * 64

/-- The bytes of a request's lines. -/
def lineBytes (t : Txn) : Nat := 64 * (t.lenM1.toNat + 1)

/-- A request for lines of cellar bin `m` that EXPORT permits, for a table without vintages. -/
structure Serves (s : State) (t : Txn) (m : Nat) : Prop where
  plain : t.table = 0
  bin : region (lineAddr t) = .cellar m
  granted : exportNeed t.typ ≤ binExport s m
  kept : destroying s m = false
  block : lineAddr t % 2048 + lineBytes t ≤ 2048

theorem serves_of_toCellar {s : State} {port : Fin 48} {t : Txn} {m : Nat} (h : ToCellar s port t m) : Serves s t m :=
  ⟨h.plain, h.bin, h.granted, h.kept, h.block⟩

section Served

variable {s : State} {t : Txn} {m : Nat} (h : Serves s t m)
include h

theorem Serves.inBin : CellarRuns.InBin (lineAddr t) (lineBytes t) :=
  FabricMessages.inBin_of_region h.bin (by have := h.block; omega)

theorem Serves.addr_lt : lineAddr t < 0x100000000 := h.inBin.cellar

theorem Serves.serveBase_eq : serveBase s t = some (0, 0, none) := by
  have hzero : t.table.toNat = 0 := by rw [h.plain]; rfl
  simp only [serveBase, hzero, if_true]

theorem Serves.serveAddr_eq : serveAddr t 0 = lineAddr t := by
  have := h.addr_lt
  rw [serveAddr, Nat.zero_add]
  exact Nat.mod_eq_of_lt (by rw [lineAddr] at this; omega)

theorem Serves.not_window : region (lineAddr t) ≠ .window := by
  rw [h.bin]
  exact Region.noConfusion

theorem Serves.fabGrant_eq (port : Nat) (lines : List Nat) : fabGrant s port t (lineAddr t) lines = (s, .ok) := by
  simp only [fabGrant, h.bin, h.granted, h.kept, decide_true, Bool.not_false, Bool.and_self, if_true]

end Served

/-- A request for this node is served at once, and its credits go back. -/
theorem request_of_toCellar {s : State} {port : Fin 48} {t : Txn} {m : Nat} (h : ToCellar s port t m) :
    request s port t = taken (performTxn (regWrite 32) s port t) port.val t := by
  have hfree : fabHolds s t = false := by rw [fabHolds, h.up]; rfl
  simp only [request, if_pos h.works, if_pos h.here, localTxn, hfree, Bool.false_eq_true, if_false]

/-! ### READ (R335) -/

theorem localUe_of_sound {s : State} (h : Sound s.mem) (a n : Nat) : localUe s a n = [] := by
  simp [localUe, h.words]

/-- A READ of a sound memory changes nothing but is answered with lines and sideband. -/
theorem serveRead_of_serves {s : State} {t : Txn} {m : Nat} (h : Serves s t m) (hsound : Sound s.mem) (port : Fin 48) :
    serveRead s port t = sendAnswer s (nodeId s) (rspFor t 0 0 (sbGet s.mem (blockOf (physOf s (lineAddr t))))
      (localBytes s (lineAddr t) (lineBytes t))) none none := by
  have hread : ∀ who, recordUes (countCe s (physOf s (lineAddr t)) (64 * (t.lenM1.toNat + 1))) who [] = s := fun who => by
    rw [← localUe_of_sound hsound (lineAddr t) (64 * (t.lenM1.toNat + 1)), SavedFrame.read_of_sound hsound.words hsound.single]
  have hside : ∀ who blk, countSbUe s who blk = s := fun who blk => if_neg (by simp [hsound.side])
  simp only [serveRead, h.serveBase_eq, h.serveAddr_eq, if_neg h.not_window, h.fabGrant_eq, if_true, lineBytes,
    localUe_of_sound hsound, hread, hside, if_pos h.addr_lt, List.isEmpty_nil]

/-! ### Bytes stored (R327, R336) -/

theorem lastByte_of_only {bs : List (Nat × Byte)} {e : Nat × Byte} (he : e ∈ bs) (honly : ∀ x ∈ bs, x.1 = e.1 → x = e)
    (d : Byte) : lastByte bs e.1 d = e.2 := by
  induction bs generalizing d with
  | nil => exact absurd he List.not_mem_nil
  | cons a bs ih =>
    have htail := fun x hx => honly x (List.mem_cons_of_mem a hx)
    by_cases hin : e ∈ bs
    · exact ih hin htail _
    · obtain rfl : e = a := (List.mem_cons.mp he).resolve_right hin
      have hab := lastByte_absent bs e.1 e.2 fun x hx hkey => hin (htail x hx hkey ▸ hx)
      rw [lastByte, List.foldl_cons, if_pos rfl]
      exact hab

/-- The enabled bytes of a transaction at key `k`. -/
theorem lastByte_txnBytesAt (t : Txn) (k : Nat) (d : Byte) :
    (∀ i, i < lineBytes t → lastByte (txnBytesAt t k) (k + i) d = if txnEnabled t i then txnByte t i else d) ∧
      ∀ j, j < k ∨ k + lineBytes t ≤ j → lastByte (txnBytesAt t k) j d = d := by
  have hmem : ∀ e, e ∈ txnBytesAt t k ↔ ∃ i, (i < lineBytes t ∧ txnEnabled t i = true) ∧ (k + i, txnByte t i) = e := by
    simp [txnBytesAt, lineBytes]
  refine ⟨fun i hi => ?_, fun j hj => lastByte_absent _ j d fun e he => ?_⟩
  · split
    · next hon =>
      refine lastByte_of_only (e := (k + i, txnByte t i)) ((hmem _).mpr ⟨i, ⟨hi, hon⟩, rfl⟩) (fun x hx hkey => ?_) d
      obtain ⟨i', -, rfl⟩ := (hmem x).mp hx
      rw [Nat.add_left_cancel hkey]
    · next hoff =>
      refine lastByte_absent _ _ d fun e he hkey => ?_
      obtain ⟨i', ⟨-, hon⟩, rfl⟩ := (hmem e).mp he
      exact hoff (Nat.add_left_cancel hkey ▸ hon)
  · obtain ⟨i, ⟨hi, -⟩, rfl⟩ := (hmem e).mp he
    show k + i ≠ j
    omega

/-- The memory after a performed write: its enabled bytes and no others are stored. -/
structure LinesStored (s : State) (t : Txn) (m : Mem) : Prop where
  inside : ∀ i, i < lineBytes t → memByte m (physOf s (lineAddr t) + i) =
    if txnEnabled t i then txnByte t i else memByte s.mem (physOf s (lineAddr t) + i)
  outside : ∀ k, k < physOf s (lineAddr t) ∨ physOf s (lineAddr t) + lineBytes t ≤ k → memByte m k = memByte s.mem k

theorem physWrites_txnBytesAt {s : State} {t : Txn} (h : CellarRuns.InBin (lineAddr t) (lineBytes t)) :
    physWrites s (txnBytesAt t (lineAddr t)) = txnBytesAt t (physOf s (lineAddr t)) := by
  simp only [physWrites, txnBytesAt, List.map_map]
  refine List.map_congr_left fun i hi => ?_
  have hlt := List.mem_range.mp (List.mem_of_mem_filter hi)
  simp only [Function.comp_apply, CellarRuns.physOf_of_inBin h hlt]

theorem storeTxn_of_sound {s : State} {t : Txn} (h : CellarRuns.InBin (lineAddr t) (lineBytes t)) (hsound : Sound s.mem)
    (port : Nat) : ∃ m, storeTxn s port t (txnBytesAt t (lineAddr t)) = ({ s with mem := m }, false) ∧ LinesStored s t m := by
  let ps := txnBytesAt t (physOf s (lineAddr t))
  obtain ⟨hnone, -, -, -, -, hget⟩ := storeBytes_get s.mem ps hsound.canonical hsound.words
  obtain ⟨hcells, -, -⟩ := memByte_sbWrites ((ps.map (fun e => blockOf e.1)).eraseDups) (coversBlock ps) (fun _ => (t.lotM, t.lotP))
    (storeBytes s.mem ps).1
  have hbyte := fun k => (congrArg (cellGet · k) hcells).trans (hget k)
  refine ⟨_, ?_, ⟨fun i hi => (hbyte _).trans ((lastByte_txnBytesAt t _ _).1 i hi),
    fun k hk => (hbyte k).trans ((lastByte_txnBytesAt t _ _).2 k hk)⟩⟩
  simp only [storeTxn, physWrites_txnBytesAt h, FabricMessages.correctMerges_of_none hsound.single]
  rw [hnone]
  rfl

/-! ### Lanes added (R45, R338) -/

/-- A memory in canonical form without an uncorrectable word. -/
structure Readable (m : Mem) : Prop where
  canonical : Memory.wf m = true
  words : m.ueWords = []

/-- `m'` is `m` with the number `v` of `n` bytes at key `k`. -/
structure LanePut (m m' : Mem) (k n v : Nat) : Prop where
  readable : Readable m'
  lane : memBytes m' k n = leBytes n v
  others : ∀ j, j < k ∨ k + n ≤ j → memByte m' j = memByte m j

theorem memBytes_congr {m m' : Mem} {k n : Nat} (h : ∀ i, i < n → memByte m' (k + i) = memByte m (k + i)) :
    memBytes m' k n = memBytes m k n := by
  induction n generalizing k with
  | zero => rfl
  | succ n ih =>
    have hhead : memByte m' k = memByte m k := h 0 (Nat.succ_pos n)
    have htail : memBytes m' (k + 1) n = memBytes m (k + 1) n := ih fun i hi => by
      rw [Nat.add_assoc, Nat.add_comm 1]
      exact h (i + 1) (Nat.succ_lt_succ hi)
    rw [memBytes, memBytes, hhead, htail]

/-- Words whose single-bit errors are gone. -/
def freshened (ws : List Nat) (m : Mem) : Mem := ws.foldl (fun m w => { m with ceWords := m.ceWords.filter (· != w) }) m

theorem freshened_frame (ws : List Nat) (m : Mem) :
    (freshened ws m).cells = m.cells ∧ (freshened ws m).ueWords = m.ueWords := by
  induction ws generalizing m with
  | nil => exact ⟨rfl, rfl⟩
  | cons w ws ih => exact ih { m with ceWords := m.ceWords.filter (· != w) }

theorem lanePut_of_bytes {m : Mem} (h : Readable m) (ws : List Nat) (k n v : Nat) :
    LanePut m (freshened ws (memPutAll m (byteRun k (leBytes n v)))) k n v := by
  obtain ⟨hcells, hue⟩ := freshened_frame ws (memPutAll m (byteRun k (leBytes n v)))
  have hlen := TimeFrames.length_leBytes n v
  have hrun := lastByte_run (k + ·) (fun i j h => Nat.add_left_cancel h) (leBytes n v)
  have hbyte := fun j => (congrArg (cellGet · j) hcells).trans (memByte_memPutAll (byteRun k (leBytes n v)) m h.canonical j)
  refine ⟨⟨?canonical, ?words⟩, ?lane, ?others⟩
  case canonical =>
    rw [Memory.wf, hcells]
    exact cellsWf_putAll _ m h.canonical
  case words => rw [hue, memPutAll_ue, h.words]
  case lane =>
    have hall := FabricMessages.memBytes_eq_of_bytes (bs := leBytes n v)
      fun i hi => (hbyte (k + i)).trans ((hrun (k + i) _).1 i hi rfl)
    rwa [hlen] at hall
  case others => exact fun j hj => (hbyte j).trans ((hrun j _).2 fun i hi => by omega)

/-- A lane of the cellar whose words are correctable takes its contribution. -/
theorem blendLane_of_readable {s : State} {f a : Nat} (hf : blendable f = true) (ha : a < 0x100000000) (h : Readable s.mem)
    (code : Nat) : ∃ m, blendLane s f a code = ({ s with mem := m }, true) ∧
      LanePut s.mem m (physOf s a) (fmtBytes f) (blendAdd f (leNat (memBytes s.mem (physOf s a) (fmtBytes f))) code) := by
  refine ⟨_, ?_, lanePut_of_bytes h ((List.range (ceilDiv (laneBytes f) 4)).map (fun i => physOf s a / 4 + i)) _ _ _⟩
  rw [blendLane, if_neg (by simp [hf, ha, h.words])]
  rfl

/-- Lanes of a line, each with the place of its contribution, added one after the other. -/
def addLanes (t : Txn) (f a : Nat) (s : State) (es : List (Nat × Nat)) : State × List Nat :=
  es.foldl
    (fun acc e =>
      let b := blendLane acc.1 f (a + laneBytes f * e.1) (contribAt t f e.2)
      (b.1, if b.2 then acc.2 else acc.2 ++ [e.1]))
    (s, [])

/-- The key of a lane. -/
def laneKey (s : State) (f a l : Nat) : Nat := physOf s a + fmtBytes f * l

theorem laneKey_apart (s : State) (f a : Nat) {l l' : Nat} (h : l ≠ l') :
    laneKey s f a l + fmtBytes f ≤ laneKey s f a l' ∨ laneKey s f a l' + fmtBytes f ≤ laneKey s f a l := by
  unfold laneKey
  rcases Nat.lt_or_gt_of_ne h with hlt | hgt
  · have hle := Nat.mul_le_mul_left (fmtBytes f) hlt
    rw [Nat.mul_succ] at hle
    omega
  · have hle := Nat.mul_le_mul_left (fmtBytes f) hgt
    rw [Nat.mul_succ] at hle
    omega

/-- What the lanes added leave: each one with its sum, and every other byte as it was. -/
structure LanesAdded (s : State) (t : Txn) (f a : Nat) (es : List (Nat × Nat)) (m : Mem) : Prop where
  lane : ∀ e ∈ es, memBytes m (laneKey s f a e.1) (fmtBytes f) = leBytes (fmtBytes f)
    (blendAdd f (leNat (memBytes s.mem (laneKey s f a e.1) (fmtBytes f))) (contribAt t f e.2))
  others : ∀ k, (∀ e ∈ es, k < laneKey s f a e.1 ∨ laneKey s f a e.1 + fmtBytes f ≤ k) → memByte m k = memByte s.mem k

/-- Lanes of one line that differ each take their own contribution. -/
theorem addLanes_of_readable (t : Txn) {f a : Nat} (hf : blendable f = true) (ha : a < 0x100000000) {es : List (Nat × Nat)}
    (hnodup : (es.map (·.1)).Nodup) (hline : ∀ e ∈ es, a % 0x4000000 + fmtBytes f * e.1 < 0x4000000) {s : State}
    (h : Readable s.mem) : ∃ m, addLanes t f a s es = ({ s with mem := m }, []) ∧ LanesAdded s t f a es m := by
  induction es generalizing s with
  | nil => exact ⟨s.mem, rfl, ⟨fun e he => absurd he List.not_mem_nil, fun _ _ => rfl⟩⟩
  | cons e es ih =>
    obtain ⟨hnew, hnodup⟩ := List.nodup_cons.mp hnodup
    have hin := hline e List.mem_cons_self
    obtain ⟨m1, hblend, hput⟩ := blendLane_of_readable hf (a := a + laneBytes f * e.1) (by rw [laneBytes]; omega) h
      (contribAt t f e.2)
    have hkey : physOf s (a + laneBytes f * e.1) = laneKey s f a e.1 := CellarRuns.physOf_add s ha hin
    rw [hkey] at hput
    obtain ⟨m, hrest, hadded⟩ :=
      ih hnodup (fun x hx => hline x (List.mem_cons_of_mem e hx)) (s := { s with mem := m1 }) hput.readable
    have hapart : ∀ x ∈ es, x.1 ≠ e.1 := fun x hx heq => hnew (List.mem_map.mpr ⟨x, hx, heq⟩)
    refine ⟨m, ?all, ⟨fun x hx => ?lane, fun k hk => ?others⟩⟩
    case all =>
      rw [← hrest, addLanes, List.foldl_cons, hblend]
      rfl
    case lane =>
      rcases List.mem_cons.mp hx with rfl | hx
      · refine (memBytes_congr fun i hi => hadded.others _ fun y hy => ?_).trans hput.lane
        have := laneKey_apart s f a (hapart y hy)
        change _ < laneKey s f a y.1 ∨ laneKey s f a y.1 + _ ≤ _
        omega
      · refine (hadded.lane x hx).trans ?_
        have hold : memBytes m1 (laneKey s f a x.1) (fmtBytes f) = memBytes s.mem (laneKey s f a x.1) (fmtBytes f) :=
          memBytes_congr fun i hi => hput.others _ (by have := laneKey_apart s f a (hapart x hx); omega)
        rw [← hold]
        rfl
    case others =>
      exact (hadded.others k fun x hx => hk x (List.mem_cons_of_mem e hx)).trans (hput.others k (hk e List.mem_cons_self))

/-! ### WRITE, MULTICAST_WRITE and ATOMIC_ADD served (R336, R338, R346) -/

theorem serveWrite_of_serves {s : State} {t : Txn} {m : Nat} (h : Serves s t m) (hsound : Sound s.mem)
    (hrecalled : recalled s t = false) (rw : RegWr) (port : Nat) :
    ∃ m', serveWrite rw s port t = (notePerformed { s with mem := m' } t (lineAddr t), 0) ∧ LinesStored s t m' := by
  obtain ⟨m', hstore, hstored⟩ := storeTxn_of_sound h.inBin hsound port
  refine ⟨m', ?_, hstored⟩
  simp only [serveWrite, hrecalled, Bool.false_eq_true, if_false, h.serveBase_eq, h.serveAddr_eq, if_neg h.not_window, h.fabGrant_eq,
    if_true, hstore]

theorem serveMulti_of_serves {s : State} {t : Txn} {m : Nat} (h : Serves s t m) (hsound : Sound s.mem)
    (hdiscards : discards s t = false) (hrejoin : t.rejoin = false) (port : Nat) :
    ∃ m', serveMulti s port t = (noteLast (notePerformed { s with mem := m' } t (lineAddr t)) t, 0) ∧ LinesStored s t m' := by
  obtain ⟨m', hstore, hstored⟩ := storeTxn_of_sound h.inBin hsound port
  refine ⟨m', ?_, hstored⟩
  simp only [serveMulti, hdiscards, rejoinKey, hrejoin, Bool.false_eq_true, if_false, h.serveBase_eq, h.serveAddr_eq,
    if_neg h.not_window, h.fabGrant_eq, if_true, hstore]

/-- The lanes that an ATOMIC_ADD enables, each with the place of its contribution. -/
def placedLanes (t : Txn) (f : Nat) : List (Nat × Nat) :=
  let lanes := (maskBits t.mask).filter (· < lanesOf f)
  lanes.zip (List.range lanes.length)

theorem LanesAdded.of_cells {s : State} {t : Txn} {f a : Nat} {es : List (Nat × Nat)} {m m' : Mem} (h : LanesAdded s t f a es m)
    (hcells : m'.cells = m.cells) : LanesAdded s t f a es m' := by
  have hbyte : ∀ k, memByte m' k = memByte m k := fun k => congrArg (cellGet · k) hcells
  exact ⟨fun e he => (memBytes_congr fun i _ => hbyte _).trans (h.lane e he), fun k hk => (hbyte k).trans (h.others k hk)⟩

theorem lane_in_line {f l : Nat} (h : l < lanesOf f) : fmtBytes f * l < 64 := by
  have hle : fmtBytes f * (l + 1) ≤ 64 := (Nat.mul_le_mul_left _ h).trans (Nat.mul_div_le 64 (fmtBytes f))
  have hpos : fmtBytes f ≠ 0 := fun h0 => by
    rw [lanesOf, laneBytes, h0, Nat.div_zero] at h
    exact absurd h (Nat.not_lt_zero l)
  rw [Nat.mul_succ] at hle
  omega

theorem nodup_maskBits (m : BitVec 64) : (maskBits m).Nodup := List.nodup_range.filter _

theorem correctRows_of_none {s : State} (h : s.mem.ceWords = []) (rows whole : List Nat) : correctRows s rows whole = s := by
  simp only [correctRows, h, List.filter_nil, List.foldl_nil, setMem]
  rw [← h]

theorem serveAtomic_of_serves {s : State} {t : Txn} {m f : Nat} (h : Serves s t m) (hsound : Sound s.mem)
    (hfmt : f = fmtRead t.code.toNat) (hf : blendable f = true) (port : Nat) :
    ∃ m', serveAtomic s port t = ({ s with mem := m' }, 0, 0) ∧ LanesAdded s t f (lineAddr t) (placedLanes t f) m' := by
  have hline : ∀ e ∈ placedLanes t f, lineAddr t % 0x4000000 + fmtBytes f * e.1 < 0x4000000 := fun e he => by
    have hlane := lane_in_line (by simpa using (List.mem_filter.mp (List.of_mem_zip he).1).2)
    have hfits := h.inBin.fits
    rw [lineBytes] at hfits
    omega
  have hnodup : ((placedLanes t f).map (·.1)).Nodup := by
    rw [placedLanes, List.map_fst_zip (by simp)]
    exact (nodup_maskBits t.mask).filter _
  obtain ⟨m1, hall, hadded⟩ := addLanes_of_readable t hf h.addr_lt hnodup hline ⟨hsound.canonical, hsound.words⟩
  have hues : ∀ as, blendUes s f as = [] := fun as => by
    rw [blendUes, List.flatMap_eq_nil_iff.mpr fun a _ => by simp [hsound.words]]
    rfl
  refine ⟨sbWrite m1 (blockOf (physOf s (lineAddr t))) false sbUnchecked, ?_, hadded.of_cells (LotVerdicts.cells_sbWrite _ _ _ _)⟩
  rw [addLanes, placedLanes] at hall
  simp only [serveAtomic, h.serveBase_eq, h.serveAddr_eq, if_neg h.not_window, h.fabGrant_eq, if_true, ← hfmt, hf,
    correctRows_of_none hsound.single, ite_self, hues, recordUeBlends, List.foldl_nil, hall]
  rfl

/-! ### The answers (R326) -/

/-- `u` is `s` once a request has been performed that leaves the memory `m`: beside it only what the fabric keeps of performed requests
and of transactions received differs. -/
structure Performed (s : State) (m : Mem) (u : State) : Prop where
  same : u = { s with mem := m, fab := u.fab }
  ways : SameWays s u

/-- An ACK leaves once the request is performed. -/
theorem answered_ack {s u : State} {t : Txn} {n status : Nat} {mask : BitVec 64} {m : Mem} (h : Performed s m u)
    (hother : t.snode.toNat ≠ nodeId s) (hgo : GoesOut s n (ackOf s t status mask)) :
    Answered s m n (ackOf s t status mask) (sendAnswer u (nodeId s) (ackFor t status mask) none none) := by
  obtain ⟨hsame, hways⟩ := h
  have hgo' := hways.goesOut hgo (show (9#4 : BitVec 4) ∉ [1, 2, 3] by decide)
  rw [hsame] at hgo' ⊢
  exact (answered_sendAnswer (s := { s with mem := m, fab := u.fab }) (x := ackFor t status mask) hother hgo'
    (show (9#4 : BitVec 4) ≠ 6 by decide)).of_fab

section Requests

variable {s : State} {port : Fin 48} {t : Txn} {m n : Nat} (h : ToCellar s port t m) (hsound : Sound s.mem)
include h hsound

theorem answered_read (htyp : t.typ = 0) {x : Txn}
    (hx : x = rspOf s t (sbGet s.mem (blockOf (physOf s (lineAddr t)))) (localBytes s (lineAddr t) (lineBytes t)))
    (hgo : GoesOut s n x) : Answered s s.mem n x (request s port t) := by
  subst hx
  rw [request_of_toCellar h, performTxn, if_pos htyp, serveRead_of_serves (serves_of_toCellar h) hsound]
  exact (answered_sendAnswer h.other hgo (show (8#4 : BitVec 4) ≠ 6 by decide)).takeRx _ _ _ _ _

theorem answered_write (htyp : t.typ = 1) (hrecalled : recalled s t = false) (hgo : GoesOut s n (ackOf s t 0 0)) :
    ∃ m', Answered s m' n (ackOf s t 0 0) (request s port t) ∧ LinesStored s t m' := by
  obtain ⟨m', hserve, hstored⟩ := serveWrite_of_serves (serves_of_toCellar h) hsound hrecalled (regWrite 32) port.val
  have hdone : Performed s m' (notePerformed { s with mem := m' } t (lineAddr t)) := ⟨rfl, sameWays_of_fab rfl rfl⟩
  refine ⟨m', ?_, hstored⟩
  rw [request_of_toCellar h, performTxn, if_neg (by rw [htyp]; decide), if_pos htyp, hserve]
  exact (answered_ack hdone h.other hgo).takeRx _ _ _ _ _

theorem answered_atomic (htyp : t.typ = 2) {f : Nat} (hfmt : f = fmtRead t.code.toNat) (hf : blendable f = true)
    (hgo : GoesOut s n (ackOf s t 0 0)) :
    ∃ m', Answered s m' n (ackOf s t 0 0) (request s port t) ∧ LanesAdded s t f (lineAddr t) (placedLanes t f) m' := by
  obtain ⟨m', hserve, hadded⟩ := serveAtomic_of_serves (serves_of_toCellar h) hsound hfmt hf port.val
  have hdone : Performed s m' { s with mem := m' } := ⟨rfl, sameWays_of_fab rfl rfl⟩
  refine ⟨m', ?_, hadded⟩
  rw [request_of_toCellar h, performTxn, if_neg (by rw [htyp]; decide), if_neg (by rw [htyp]; decide), if_pos htyp, hserve]
  exact (answered_ack hdone h.other hgo).takeRx _ _ _ _ _

end Requests

/-! ### MULTICAST_WRITE for one receiver here (R346) -/

theorem maskOf_maskBits {m : BitVec 64} {r : Nat} (h : maskBits m = [r]) : maskOf [r] = m := by
  have hmem : ∀ i, i < 64 → (m.getLsbD i = true ↔ i = r) := fun i hi => by
    rw [← List.mem_singleton (a := i) (b := r), ← h, maskBits, List.mem_filter, List.mem_range, and_iff_right hi]
  refine BitVec.eq_of_getLsbD_eq fun i hi => ?_
  rw [Bool.eq_iff_iff, hmem i hi]
  simp [maskOf, hi]
  omega

/-- The part of a block for its receiver. -/
def partFor (s : State) (t : Txn) (r : Nat) : Txn := { t with mask := maskOf [r], dnode := BitVec.ofNat 16 (nodeId s) }

theorem multicastIn_of_one {s : State} {port : Fin 48} {t : Txn} {m r : Nat} (h : ToCellar s port t m) (hmask : maskBits t.mask = [r])
    (hnode : groupNode s t.group.toNat r = nodeId s) :
    multicastIn s port t =
      passedRx (performTxn (regWrite 32) (leaveRx s port.val t) port (partFor s t r)) port.val { t with mask := 0 } := by
  have hself : nodeId (leaveRx s port.val t) = nodeId s := rfl
  have hfree : fabHolds (leaveRx s port.val t) (partFor s t r) = false := by
    have hup : ready (leaveRx s port.val t) = true := h.up
    rw [fabHolds, hup]
    rfl
  have hhere : multiHere (leaveRx s port.val t) port t (r, nodeId s) =
      performTxn (regWrite 32) (leaveRx s port.val t) port (partFor s t r) := by
    rw [multiHere, if_pos hself.symm]
    exact if_neg (ne_true_of_eq_false hfree)
  have hempty : maskOf [] = 0 := rfl
  simp only [multicastIn, if_pos h.works, copyReceivers, hmask, List.map_cons, List.map_nil, hnode, List.filter_cons, beq_self_eq_true,
    Bool.true_or, if_true, List.filter_nil, List.foldl_cons, List.foldl_nil, hhere, Bool.not_true, Bool.false_eq_true, if_false, hempty,
    multiThrough]

theorem answered_multicast {s : State} {port : Fin 48} {t : Txn} {m n r : Nat} (h : ToCellar s port t m) (hsound : Sound s.mem)
    (htyp : t.typ = 3) (hmask : maskBits t.mask = [r]) (hnode : groupNode s t.group.toNat r = nodeId s)
    (hdiscards : discards s t = false) (hrejoin : t.rejoin = false) (hgo : GoesOut s n (ackOf s t 0 t.mask)) :
    ∃ m', Answered s m' n (ackOf s t 0 t.mask) (multicastIn s port t) ∧ LinesStored s t m' := by
  have hpart : Serves (leaveRx s port.val t) (partFor s t r) m := ⟨h.plain, h.bin, h.granted, h.kept, h.block⟩
  obtain ⟨m', hserve, hstored⟩ := serveMulti_of_serves hpart hsound hdiscards hrejoin port.val
  have hdone : Performed s m' (noteLast (notePerformed { leaveRx s port.val t with mem := m' } (partFor s t r) (lineAddr t))
      (partFor s t r)) := ⟨rfl, (sameWays_leaveRx s port.val t).route, (sameWays_leaveRx s port.val t).ports⟩
  have hack : ackFor (partFor s t r) 0 (partFor s t r).mask = ackFor t 0 t.mask := by
    rw [partFor, maskOf_maskBits hmask]
    rfl
  have hanswer := answered_ack hdone h.other hgo
  rw [← hack] at hanswer
  have htyp' : (partFor s t r).typ = 3 := htyp
  refine ⟨m', ?_, ⟨hstored.inside, hstored.outside⟩⟩
  rw [multicastIn_of_one h hmask hnode, performTxn, if_neg (by rw [htyp']; decide), if_neg (by rw [htyp']; decide),
    if_neg (by rw [htyp']; decide), if_pos htyp', hserve]
  exact hanswer.takeRx _ _ _ _ _

/-- A READ for another node passes on (R322, R333). -/
theorem answered_through {s : State} {port : Fin 48} {t : Txn} {n : Nat} (htyp : t.typ = 0) (hdata : t.data = [])
    (hworks : usable s port.val = true) (hnode : t.dnode.toNat ≠ nodeId s) (hdoor : doorNode s ≠ some t.dnode.toNat)
    (hhops : t.hops ≠ 0) (hgo : GoesOut s n { t with hops := t.hops - 1 }) :
    Answered s s.mem n { t with hops := t.hops - 1 } (request s port t) := by
  have hroute : chooseRoute s t = some n := by
    rw [PressWaits.chooseRoute_of_read s htyp, ← hgo.route, PressWaits.chooseRoute_of_read s (by exact htyp)]
  have hsix : t.typ ≠ 6 := by
    rw [htyp]
    decide
  have hnone : t.data.isEmpty = true := by
    rw [hdata]
    rfl
  simp only [request, if_pos hworks, if_neg hnode, if_neg hdoor, passThrough, passOn, forwardTxn, hnone, Bool.not_true,
    Bool.false_and, Bool.false_eq_true, if_false, if_true, if_neg hhops, hroute]
  exact (answered_enqueue hgo hsix).takeRx _ _ _ _ _

/-! ### The obligation -/

theorem with_read_fields {t : Txn} (htyp : t.typ = 0) (hdata : t.data = []) (hmasks : t.bmasks = []) :
    { t with typ := 0, data := [], bmasks := [] } = t := by
  rw [← htyp, ← hdata, ← hmasks]

theorem exec_fabRead {s : State} {port : Fin 48} {t : Txn} (htyp : t.typ = 0) (hdata : t.data = []) (hmasks : t.bmasks = []) :
    exec (.fabRead port t) s = .next (request s port t) :=
  congrArg (fun x => Host.Outcome.next (request s port x)) (with_read_fields htyp hdata hmasks)

theorem exec_fabWrite {s : State} {port : Fin 48} {t : Txn} (htyp : t.typ = 1) :
    exec (.fabWrite port t) s = .next (request s port t) :=
  congrArg (fun x => Host.Outcome.next (request s port { t with typ := x })) htyp.symm

theorem exec_atomicAdd {s : State} {port : Fin 48} {t : Txn} (htyp : t.typ = 2) :
    exec (.atomicAdd port t) s = .next (request s port t) :=
  congrArg (fun x => Host.Outcome.next (request s port { t with typ := x })) htyp.symm

theorem exec_multicastWrite {s : State} {port : Fin 48} {t : Txn} (htyp : t.typ = 3) (hpartial : t.partialW = false) :
    exec (.multicastWrite port t) s = .next (multicastIn s port t) :=
  congrArg₂ (fun x y => Host.Outcome.next (multicastIn s port { t with typ := x, partialW := y })) htyp.symm hpartial.symm

theorem mem_placedLanes {t : Txn} {f j l : Nat} (h : ((maskBits t.mask).filter (· < lanesOf f))[j]? = some l) :
    (l, j) ∈ placedLanes t f := by
  obtain ⟨hj, rfl⟩ := List.getElem?_eq_some_iff.mp h
  refine List.mem_iff_getElem.mpr ⟨j, by simpa [placedLanes] using hj, by simp [placedLanes]⟩

/-- Settles O57: each request served is one change of memory, whose bytes are those that it names, and an answer that leaves at
once. -/
theorem fabricRequests : Obligations.FabricRequests := by
  unfold Obligations.FabricRequests
  refine ⟨fun s port t husable => ?unusable, fun s port t n htyp hdata hmasks hworks hnode hdoor hhops hgo => ?through,
    fun s port t m n a h hsound ha => ?cellar⟩
  case unusable =>
    have hoff : ¬ usable s port.val = true := ne_true_of_eq_false husable
    have hrequest : ∀ x, request s port x = s := fun x => if_neg hoff
    have hmulti : ∀ x, multicastIn s port x = s := fun x => if_neg hoff
    exact ⟨congrArg _ (hrequest _), congrArg _ (hrequest _), congrArg _ (hrequest _), congrArg _ (hmulti _)⟩
  case through =>
    have h := answered_through htyp hdata hworks hnode hdoor hhops hgo
    exact ⟨_, exec_fabRead htyp hdata hmasks, h.frame_mem, h.mem_eq, h.regs_eq⟩
  case cellar =>
    obtain rfl : a = lineAddr t := ha
    refine ⟨fun htyp hdata hmasks hgo => ?read, fun htyp hrecalled hgo => ?write, fun f lanes htyp hfmt hf hlanes hgo => ?atomic,
      fun r htyp hpartial hmask hnode hdiscards hrejoin hgo => ?multicast⟩
    case read =>
      have hread := answered_read h hsound htyp rfl hgo
      exact ⟨_, exec_fabRead htyp hdata hmasks, hread.frame_mem, hread.mem_eq, hread.regs_eq⟩
    case write =>
      obtain ⟨m', hanswer, hstored⟩ := answered_write h hsound htyp hrecalled hgo
      refine ⟨_, exec_fabWrite htyp, hanswer.frame_mem, ?_, ?_, hanswer.regs_eq⟩
      · rw [hanswer.mem_eq]
        exact hstored.inside
      · rw [hanswer.mem_eq]
        exact hstored.outside
    case atomic =>
      subst hlanes
      obtain ⟨m', hanswer, hadded⟩ := answered_atomic h hsound htyp hfmt hf hgo
      refine ⟨_, exec_atomicAdd htyp, hanswer.frame_mem, fun j l hl => ?_, fun k hk => ?_, hanswer.regs_eq⟩
      · rw [hanswer.mem_eq]
        exact hadded.lane (l, j) (mem_placedLanes hl)
      · rw [hanswer.mem_eq]
        refine hadded.others k fun e he => ?_
        have hout := hk e.1 (List.of_mem_zip he).1
        rw [Nat.mul_succ] at hout
        rw [laneKey, Nat.add_assoc]
        exact hout
    case multicast =>
      obtain ⟨m', hanswer, hstored⟩ := answered_multicast h hsound htyp hmask hnode hdiscards hrejoin hgo
      refine ⟨_, exec_multicastWrite htyp hpartial, hanswer.frame_mem, fun i hi => ?_, ?_, hanswer.regs_eq⟩
      · have hon : txnEnabled t i = true := by rw [txnEnabled, hpartial]; rfl
        rw [hanswer.mem_eq, hstored.inside i hi, if_pos hon, txnByte]
      · rw [hanswer.mem_eq]
        exact hstored.outside

end Sys2Proof.Proofs.FabricRequests
end

section
/-!
PROOFS. Events of an optical port's link: flits and codewords received, wavelengths dropped, retraining, loss and training (R317 to
R320, R404).
-/
namespace Sys2Proof.Proofs.PortEvents
open Sys2Proof.Machine

/-! ### What leaves the rest of the machine (R318, R319) -/

/-- The flit side of port `n` leaves registers, memory and the other ports as they are. -/
theorem flitOnly_frame {s t : State} {n : Nat} (h : FlitOnly s n t) :
    t.regs = s.regs ∧ t.mem = s.mem ∧ ∀ k, k ≠ n → getPort t k = getPort s k := by
  obtain ⟨p, l, rfl, -⟩ := h
  exact ⟨rfl, rfl, fun k hk => getPort_setPort_ne s hk p⟩

/-- A port with nothing to frame and no bytes to pack sends nothing. -/
theorem pump_of_idle {s : State} {n : Nat} (hwait : (getPort s n).wait = []) (hbuf : (getPort s n).txBuf = []) : pump s n = s := by
  have hpack : packFlits s n 1 = s := by
    rw [packFlits, if_pos (by rw [hbuf]; rfl)]
  simp only [pump, hwait, List.length_nil, pumpPort, hbuf, Nat.zero_div, Nat.zero_add, hpack]

/-- The same of a port just set. -/
theorem pump_setPort_of_idle {p : Port} (hwait : p.wait = []) (hbuf : p.txBuf = []) (s : State) (n : Nat) :
    pump (setPort s n p) n = setPort s n p :=
  pump_of_idle (by rw [getPort_setPort_self, hwait]) (by rw [getPort_setPort_self, hbuf])

/-! ### A flit received (R318 to R320) -/

/-- A flit is whole and the next one in order. -/
structure InOrder (p : Port) (bs : List Byte) : Prop where
  length : bs.length = 256
  crc : wordAt bs 252 = crc32c (bs.take 252)
  seq : leNat ((bs.drop 240).take 2) % 4096 = p.rxSeq.toNat

/-- A flit carries neither transaction bytes nor a NAK, and acknowledges nothing new. -/
structure Idle (p : Port) (bs : List Byte) : Prop where
  empty : ∀ b ∈ bs.take 240, b = 0
  ack : (leNat ((bs.drop 242).take 2) + 1) % 4096 = p.acked % 4096
  nak : leNat ((bs.drop 242).take 2) / 4096 % 2 = 0

/-- A port without a transaction open, with nothing to send, and with no acknowledgement outstanding behind those it has had. -/
structure Quiet (p : Port) : Prop where
  rx : p.rxBytes = []
  wait : p.wait = []
  tx : p.txBuf = []
  unacked : ∀ e ∈ p.unacked, p.acked ≤ e.lastFlit

/-- The port once a flit in order has moved SEQ on and returned its credits. -/
def advanced (p : Port) (bs : List Byte) : Port :=
  { p with
    rxSeq := p.rxSeq + 1
    credits := (List.range 4).map (fun v => nth p.credits v 0 + leNat ((bs.drop 244).take 6) / 4096 ^ v % 4096) }

/-- An acknowledgement of nothing new leaves the port as it is. -/
theorem linkAck_of_nothing_new {s : State} {n a : Nat} (hack : (a + 1) % 4096 = (getPort s n).acked % 4096)
    (hunacked : ∀ e ∈ (getPort s n).unacked, (getPort s n).acked ≤ e.lastFlit) :
    linkAck s n a false = setPort s n (getPort s n) := by
  have hnext : (getPort s n).acked + (a + 1 + 4096 - (getPort s n).acked % 4096) % 4096 = (getPort s n).acked := by omega
  have htotal : (getPort s n).acked ≤ (getPort s n).formed := Nat.le_add_right _ _
  have hdone : (getPort s n).unacked.filter (fun e => e.lastFlit < (getPort s n).acked) = [] :=
    List.filter_eq_nil_iff.mpr fun e he => by simpa using hunacked e he
  have hleft : (getPort s n).unacked.filter (fun e => !(e.lastFlit < (getPort s n).acked)) = (getPort s n).unacked :=
    List.filter_eq_self.mpr fun e he => by simpa using hunacked e he
  simp only [linkAck, hnext, htotal, if_true, hdone, hleft, Nat.sub_self, List.drop_zero, Nat.lt_irrefl, if_false, List.foldl_nil,
    Bool.false_and, Bool.false_eq_true]

theorem splitTxns_of_zeros {bs : List Byte} (h : bs.all (· == 0#8) = true) (k : Nat) : splitTxns bs (k + 1) = ([], []) := by
  rw [splitTxns, if_pos h]

/-- An idle flit in order moves SEQ on and returns credits. -/
theorem flitReceived_of_idle {s : State} {n : Nat} {bs : List Byte} (hworks : usable s n = true) (horder : InOrder (getPort s n) bs)
    (hidle : Idle (getPort s n) bs) (hquiet : Quiet (getPort s n)) :
    flitReceived s n bs = setPort s n (advanced (getPort s n) bs) := by
  have hbody : (bs.take 240).all (· == 0#8) = true := List.all_eq_true.mpr fun b hb => by
    rw [hidle.empty b hb]
    rfl
  have hlen : (bs.take 240).length = 239 + 1 := by
    rw [List.length_take, horder.length]
    rfl
  have hwhole : ¬ (bs.length ≠ 256 ∨ wordAt bs 252 ≠ crc32c (bs.take 252)) := by
    rw [not_or, not_not, not_not]
    exact ⟨horder.length, horder.crc⟩
  have hport : getPort (setPort s n (advanced (getPort s n) bs)) n = advanced (getPort s n) bs := getPort_setPort_self s n _
  have hlink : linkAck (setPort s n (advanced (getPort s n) bs)) n (leNat ((bs.drop 242).take 2) % 4096) false =
      setPort s n (advanced (getPort s n) bs) := by
    rw [linkAck_of_nothing_new, hport, setPort_setPort]
    · rw [hport, Nat.mod_add_mod]
      exact hidle.ack
    · rw [hport]
      exact hquiet.unacked
  have hpump : pump (setPort s n (advanced (getPort s n) bs)) n = setPort s n (advanced (getPort s n) bs) :=
    pump_setPort_of_idle (p := advanced (getPort s n) bs) hquiet.wait hquiet.tx s n
  have hnext : advanced (getPort s n) bs =
      { advanced (getPort s n) bs with rxBytes := [], rxIn := (getPort s n).rxIn } := by
    rw [← hquiet.rx]
    rfl
  have hkept : ((0 : Nat) == 1) = false := rfl
  rw [hnext] at hlink hpump ⊢
  simp only [flitReceived, if_pos hworks, if_neg hwhole, horder.seq, ne_eq, not_true_eq_false, if_false, hquiet.rx, List.nil_append,
    hlen, splitTxns_of_zeros hbody, List.append_nil, hbody, List.isEmpty_nil, Bool.and_self, if_true, hidle.nak, hkept]
  exact (congrArg (pump · n) hlink).trans hpump

theorem rxSeq_formFlit (s : State) (n : Nat) (body : List Byte) :
    (getPort (formFlit s n body) n).rxSeq = (getPort s n).rxSeq := by
  unfold formFlit
  extract_lets p b
  obtain ⟨bits, len, lane, hlaid⟩ := TimeFrames.getPort_layFlit (setPort s n _) n b
  rw [hlaid, getPort_setPort_self]

/-- What a flit that is not accepted leaves of `s`: it is NAKed, and nothing but what port `n` sends differs. -/
structure Naked (s : State) (n : Nat) (t : State) : Prop where
  rxSeq : (getPort t n).rxSeq = (getPort s n).rxSeq
  credits : (getPort t n).credits = (getPort s n).credits
  unacked : (getPort t n).unacked = (getPort s n).unacked
  flit : .flit n (flitBytes [] (getPort s n).formed ((getPort s n).rxSeq - 1).toNat true
    ((getPort s n).owed.map (min 4095))) ∈ t.outbox
  regs : t.regs = s.regs
  mem : t.mem = s.mem
  others : ∀ k, k ≠ n → getPort t k = getPort s k

theorem naked_nakFlit {s : State} {n : Nat} (hworks : usable s n = true) (hroom : (getPort s n).flits.length < 2048) :
    Naked s n (nakFlit s n) := by
  let q : Port := { getPort s n with nakDue := true }
  have hport : getPort (setPort s n q) n = q := getPort_setPort_self s n q
  have hset : FlitOnly s n (setPort s n q) := setPort_only s n q (sameLink.refl (getPort s n))
  have hworks' : usable (setPort s n q) n = true := hset.usable.trans hworks
  have hroom' : (getPort (setPort s n q) n).flits.length < 2048 := by
    rw [hport]
    exact hroom
  have hflit := FabricMessages.flit_mem_answerLink hworks' hroom'
  have hform : nakFlit s n = formFlit (setPort s n q) n [] := by
    change answerLink (setPort s n q) n = _
    simp only [answerLink, hworks', hroom', decide_true, Bool.and_self, if_true]
  have honly : FlitOnly s n (nakFlit s n) := by
    rw [hform]
    exact hset.trans (formFlit_only _ n [])
  obtain ⟨-, -, -, -, hcredits, -, hunacked⟩ := honly.port
  obtain ⟨hregs, hmem, hothers⟩ := flitOnly_frame honly
  rw [hport] at hflit
  refine ⟨?_, hcredits, hunacked, hflit, hregs, hmem, hothers⟩
  rw [hform, rxSeq_formFlit, hport]

/-- A damaged flit is counted, and one damaged or out of order is NAKed. -/
theorem flitReceived_of_bad {s : State} {n : Nat} {bs : List Byte} (hworks : usable s n = true)
    (hbad : bs.length ≠ 256 ∨ wordAt bs 252 ≠ crc32c (bs.take 252) ∨
      leNat ((bs.drop 240).take 2) % 4096 ≠ (getPort s n).rxSeq.toNat) :
    flitReceived s n bs = nakFlit (if bs.length = 256 ∧ wordAt bs 252 = crc32c (bs.take 252) then s
      else bump s (0x8410 + 32 * n) 1) n := by
  by_cases hwhole : bs.length = 256 ∧ wordAt bs 252 = crc32c (bs.take 252)
  · obtain ⟨hlen, hcrc⟩ := hwhole
    have hseq := (hbad.resolve_left (not_not.mpr hlen)).resolve_left (not_not.mpr hcrc)
    simp only [flitReceived, if_pos hworks, hlen, hcrc, ne_eq, not_true_eq_false, or_self, if_false, hseq, not_false_eq_true, if_true,
      and_self]
  · have hdamaged : bs.length ≠ 256 ∨ wordAt bs 252 ≠ crc32c (bs.take 252) := by
      rwa [← not_and_or]
    simp only [flitReceived, if_pos hworks, if_pos hdamaged, if_neg hwhole]

/-! ### A codeword received (R316, R317) -/

theorem codewordReceived_of_waiting {s : State} {n w : Nat} {symbols d : List Nat} {k : Nat} (hworks : usable s n = true)
    (hup : (getPort s n).up.getLsbD w = true) (hcode : rsDecode ((List.range 544).map (fun i => nth symbols i 0)) = some (d, k))
    (hturn : nth (lanesUp (getPort s n).up) ((getPort s n).rxLane % (lanesUp (getPort s n).up).length) 0 ≠ w)
    (hnone : smGet (getPort s n).rxCodes
      (nth (lanesUp (getPort s n).up) ((getPort s n).rxLane % (lanesUp (getPort s n).up).length) 0) [] = [])
    {m : State} (hm : m = setPort s n { getPort s n with
      rxCodes := smPut (getPort s n).rxCodes w (smGet (getPort s n).rxCodes w [] ++ [symbolsPayload d]) }) :
    codewordReceived s n w symbols = if k = 0 then m else bump m (0x8408 + 32 * n) 1 := by
  have hwait : ∀ j, takeTurns m n (j + 1) = m := fun j => by
    have hport : getPort m n = { getPort s n with
        rxCodes := smPut (getPort s n).rxCodes w (smGet (getPort s n).rxCodes w [] ++ [symbolsPayload d]) } := by
      rw [hm, getPort_setPort_self]
    simp only [takeTurns, hport, smGet_smPut_ne _ hturn, hnone]
  simp only [codewordReceived, hworks, hup, Bool.and_self, if_true, hcode, Option.map_some, Option.getD_some, ← hm, hwait]

/-! ### Wavelengths dropped (R317) -/

theorem and_shiftLeft_bne_zero (up : BitVec 8) (w : Fin 8) : ((up &&& (1#8 <<< w.val)) != 0) = up.getLsbD w.val := by
  rw [← BitVec.twoPow_eq, BitVec.and_twoPow]
  cases up.getLsbD w.val with
  | false => rfl
  | true =>
    revert w
    decide

/-- The port once wavelength `w` has dropped: a retrain begins. -/
def withoutLane (p : Port) (w : Fin 8) : Port :=
  { p.restreamed with
    retrain := true, replays := 0, up := p.up &&& ~~~(1#8 <<< w.val), dropped := p.dropped ||| (1#8 <<< w.val) }

theorem wavelengthDrop_of_up {s : State} {n : Nat} {w : Fin 8} (htrained : (getPort s n).trained = true)
    (hheld : (getPort s n).held = false) (hlost : (getPort s n).lost = false) (hup : (getPort s n).up.getLsbD w.val = true) :
    wavelengthDrop s n w.val = bump (setPort s n (withoutLane (getPort s n) w)) (0x8418 + 32 * n) 1 := by
  have hguard : ((getPort s n).trained && !(getPort s n).held && !(getPort s n).lost &&
      ((getPort s n).up &&& (1#8 <<< w.val)) != 0) = true := by
    rw [and_shiftLeft_bne_zero, htrained, hheld, hlost, hup]
    rfl
  refine (if_pos hguard).trans ?_
  rw [beginRetrain, getPort_setPort_self, setPort_setPort]
  rfl

theorem wavelengthDrop_of_down {s : State} {n : Nat} {w : Fin 8}
    (h : (getPort s n).trained = false ∨ (getPort s n).held = true ∨ (getPort s n).lost = true ∨
      (getPort s n).up.getLsbD w.val = false) : wavelengthDrop s n w.val = s := by
  refine if_neg ?_
  rw [and_shiftLeft_bne_zero]
  simp only [Bool.and_eq_true, Bool.not_eq_true']
  rintro ⟨⟨⟨htrained, hheld⟩, hlost⟩, hup⟩
  simp only [htrained, hheld, hlost, hup, Bool.true_eq_false, Bool.false_eq_true, or_self] at h

/-! ### A retrain that ends (R317, R319) -/

/-- What flits put on the wire of port `n` leave. -/
structure Laid (s : State) (n : Nat) (l : List (List Byte)) (t : State) : Prop where
  port : ∃ bits len lane, getPort t n = { getPort s n with txBits := bits, txHave := len, txLane := lane }
  others : ∀ k, k ≠ n → getPort t k = getPort s k
  regs : t.regs = s.regs
  mem : t.mem = s.mem
  sent : ∀ b ∈ l, .flit n b ∈ t.outbox
  kept : ∀ o ∈ s.outbox, o ∈ t.outbox

theorem laid_layFlit (s : State) (n : Nat) (b : List Byte) : Laid s n [b] (layFlit s n b) := by
  have honly := layFlit_only s n b
  obtain ⟨hregs, hmem, hothers⟩ := flitOnly_frame honly
  refine ⟨TimeFrames.getPort_layFlit s n b, hothers, hregs, hmem, fun x hx => ?_, fun o ho => ?_⟩
  · rw [List.mem_singleton.mp hx]
    exact FabricMessages.flit_mem_layFlit s n b
  · obtain ⟨p, l, heq, -⟩ := honly
    rw [heq]
    exact List.mem_append_right l ho

theorem laid_foldl (l : List (List Byte)) (n : Nat) (s : State) : Laid s n l (l.foldl (fun s b => layFlit s n b) s) := by
  induction l generalizing s with
  | nil =>
    rw [List.foldl_nil]
    exact {
      port := ⟨(getPort s n).txBits, (getPort s n).txHave, (getPort s n).txLane, rfl⟩
      others := fun _ _ => rfl
      regs := rfl
      mem := rfl
      sent := fun b hb => absurd hb List.not_mem_nil
      kept := fun _ ho => ho }
  | cons b l ih =>
    have h := laid_layFlit s n b
    have hrest := ih (layFlit s n b)
    obtain ⟨_, _, _, hport⟩ := h.port
    obtain ⟨bits, len, lane, hlast⟩ := hrest.port
    rw [List.foldl_cons]
    refine ⟨⟨bits, len, lane, by rw [hlast, hport]⟩, fun k hk => (hrest.others k hk).trans (h.others k hk),
      hrest.regs.trans h.regs, hrest.mem.trans h.mem, fun x hx => ?_, fun o ho => hrest.kept o (h.kept o ho)⟩
    rcases List.mem_cons.mp hx with rfl | hx
    · exact hrest.kept _ (h.sent _ List.mem_cons_self)
    · exact hrest.sent x hx

/-- The port with the wavelengths that trained. -/
def retrained (p : Port) (up : BitVec 8) : Port := { p with up := p.up &&& up, dropped := p.dropped ||| (p.up &&& ~~~up) }

theorem retrainDone_of_not_retraining {s : State} {n : Nat} (h : (getPort s n).retrain = false ∨ (getPort s n).held = true ∨
    (getPort s n).lost = true) (up : BitVec 8) : retrainDone s n up = s := by
  refine if_neg ?_
  simp only [Bool.and_eq_true, Bool.not_eq_true']
  rintro ⟨⟨hretrain, hheld⟩, hlost⟩
  simp only [hretrain, hheld, hlost, Bool.true_eq_false, Bool.false_eq_true, or_self] at h

/-- A retrain that may end. -/
theorem retrainDone_guard {p : Port} (hretrain : p.retrain = true) (hheld : p.held = false) (hlost : p.lost = false) :
    (p.retrain && !p.held && !p.lost) = true := by
  simp [hretrain, hheld, hlost]

section Retraining

variable {s : State} {n : Nat} (hretrain : (getPort s n).retrain = true) (hheld : (getPort s n).held = false)
  (hlost : (getPort s n).lost = false) {up : BitVec 8}
include hretrain hheld hlost

theorem retrainDone_of_none_trained (hnone : (getPort s n).up &&& up = 0) :
    retrainDone s n up = setPort s n (retrained (getPort s n) up) := by
  exact (if_pos (retrainDone_guard hretrain hheld hlost)).trans (if_pos hnone)

/-- With some trained and nothing else to send, the port runs on once its flits have been sent again. -/
theorem retrainDone_of_some_trained (hsome : (getPort s n).up &&& up ≠ 0) (hwait : (getPort s n).wait = [])
    (hbuf : (getPort s n).txBuf = []) (howed : ∀ v ∈ (getPort s n).owed, v = 0) (hnak : (getPort s n).nakDue = false) :
    ∃ t, retrainDone s n up = bump t (0x8414 + 32 * n) (getPort s n).flits.length ∧
      Laid (setPort s n { retrained (getPort s n) up with retrain := false }) n (getPort s n).flits t := by
  obtain ⟨q, hq⟩ : ∃ q : Port, q = { retrained (getPort s n) up with retrain := false } := ⟨_, rfl⟩
  have hport : getPort (setPort s n q) n = q := getPort_setPort_self s n q
  have hflits : q.flits = (getPort s n).flits := by
    rw [hq]
    rfl
  have hlaid := laid_foldl (getPort s n).flits n (setPort s n q)
  obtain ⟨bits, len, lane, hlast⟩ := hlaid.port
  rw [hport] at hlast
  have hreplay : replayFlits (setPort s n q) n = bump ((getPort s n).flits.foldl (fun s b => layFlit s n b) (setPort s n q))
      (0x8414 + 32 * n) (getPort s n).flits.length := by
    rw [replayFlits, hport, hflits]
  have hpump : pump (replayFlits (setPort s n q) n) n = replayFlits (setPort s n q) n := by
    have hsame : getPort (replayFlits (setPort s n q) n) n = { q with txBits := bits, txHave := len, txLane := lane } := by
      rw [hreplay]
      exact hlast
    refine pump_of_idle ?_ ?_
    · rw [hsame, hq]
      exact hwait
    · rw [hsame, hq]
      exact hbuf
  have hdue : ((getPort s n).owed.any (0 < ·) || (getPort s n).nakDue) = false := by
    rw [hnak, Bool.or_false, List.any_eq_false]
    intro v hv
    simp [howed v hv]
  rw [← hq]
  refine ⟨_, ?_, hlaid⟩
  rw [← hreplay, ← hpump, hq]
  refine ((if_pos (retrainDone_guard hretrain hheld hlost)).trans (if_neg hsome)).trans (congrArg (pump · n) ?_)
  exact if_neg (ne_true_of_eq_false hdue)

end Retraining

/-! ### A port lost (R317, R403, R404) -/

/-- `t` has the fabric, INTEG.STATUS and every queued event of `s`. -/
structure Recorded (s t : State) : Prop where
  fab : t.fab = s.fab
  status : rget t 0xD000 = rget s 0xD000
  events : ∀ e ∈ s.book.queue, e ∈ t.book.queue

theorem Recorded.refl (s : State) : Recorded s s := ⟨rfl, rfl, fun _ he => he⟩

theorem Recorded.trans {s t u : State} (h : Recorded s t) (k : Recorded t u) : Recorded s u :=
  ⟨k.fab.trans h.fab, k.status.trans h.status, fun e he => k.events e (h.events e he)⟩

theorem recorded_emit (s : State) (e : Event) : Recorded s (emit s e) :=
  ⟨emit_fab s e, rget_emit s e (by decide), fun _ hx => FabricMessages.mem_emit_of_mem hx e⟩

theorem recorded_needReplace (s : State) (bit : Nat) : Recorded s (needReplace s bit) := by
  unfold needReplace
  split
  · exact .refl s
  · have hset : Recorded s (rsetBit s 0xD00C bit true) := ⟨rfl, rget_rsetBit_ne s (by decide) bit true, fun _ he => he⟩
    exact hset.trans (recorded_emit _ _)

theorem recorded_ite {s : State} (c : Prop) [Decidable c] (bit : Nat) : Recorded s (if c then needReplace s bit else s) := by
  split
  · exact recorded_needReplace s bit
  · exact .refl s

theorem recorded_judgeReplace (s : State) : Recorded s (judgeReplace s) :=
  ((recorded_ite _ 0).trans (recorded_ite _ 1)).trans (recorded_ite _ 2)

/-- The event of a lost port. -/
def lostEvent (s : State) (n : Nat) : Event := { code := 0x26, kind := 3, unit := n, args := [(portStatus s n).toNat] }

/-- The lost port as its transactions have moved. -/
def lostPort (p : Port) : Port :=
  { p.unlinked with
    lost := true, trained := false, retrain := false, wait := [], unacked := [], replays := 0, owed := [0, 0, 0, 0]
    kept := [0, 0, 0, 0], nakDue := false }

theorem portLost_of_dark {s : State} {n : Nat} (hretrain : (getPort s n).retrain = true) (hheld : (getPort s n).held = false)
    (hlost : (getPort s n).lost = false) (hdark : (getPort s n).up = 0) (hwait : (getPort s n).wait = [])
    (hunacked : (getPort s n).unacked = []) :
    portLost s n = judgeReplace
      (emitFault (setPort s n (lostPort (getPort s n))) (lostEvent (setPort s n (lostPort (getPort s n))) n)) := by
  have hguard : ((getPort s n).retrain && !(getPort s n).held && !(getPort s n).lost && (getPort s n).up == 0) = true := by
    rw [retrainDone_guard hretrain hheld hlost, hdark]
    rfl
  have hmove : movePort (setPort s n { getPort s n with lost := true, trained := false, retrain := false }) n =
      setPort s n (lostPort (getPort s n)) := by
    simp only [movePort, getPort_setPort_self, setPort_setPort, hwait, hunacked, List.foldl_nil]
    rfl
  refine (if_pos hguard).trans ?_
  rw [hmove]
  rfl

theorem portLost_of_other {s : State} {n : Nat} (h : (getPort s n).retrain = false ∨ (getPort s n).held = true ∨
    (getPort s n).lost = true ∨ (getPort s n).up ≠ 0) : portLost s n = s := by
  refine if_neg ?_
  simp only [Bool.and_eq_true, Bool.not_eq_true', beq_iff_eq]
  rintro ⟨⟨⟨hretrain, hheld⟩, hlost⟩, hdark⟩
  simp only [hretrain, hheld, hlost, hdark, Bool.true_eq_false, Bool.false_eq_true, ne_eq, not_true_eq_false, or_self] at h

/-- An event of R404 sets the fault bit and enters the queue where that has room. -/
theorem emitFault_records (s : State) (e : Event) :
    (emitFault s e).fab = s.fab ∧ rbit (emitFault s e) 0xD000 6 = true ∧
      (s.book.queue.length < 16 → { FabricMessages.stamped s e with fault := true } ∈ (emitFault s e).book.queue) := by
  refine ⟨emitFault_fab s e, ?_, fun hroom =>
    FabricMessages.stamped_mem_emit (s := rsetBit s 0xD000 6 true) hroom { e with fault := true }⟩
  rw [emitFault, rbit, rget_emit _ _ (by decide), rget_rsetBit_self, bitAt_setBit_self _ (by decide)]

/-! ### Training (R320, R443) -/

/-- The port once it has trained. -/
def trainedPort (p : Port) (peer : BitVec 16) (u : PortUp) : Port :=
  { p.unlinked with
    trained := true, everTrained := true, retrain := false, up := u.up &&& ~~~p.dropped, peer := peer, rxSeq := 0, nakDue := false
    owed := [0, 0, 0, 0], kept := [0, 0, 0, 0], credits := peerCredits u, replays := 0 }

theorem portTrained_of_light {s : State} {n : Nat} {u : PortUp} (hloaded : loaded s = true) (htrained : (getPort s n).trained = false)
    (hheld : (getPort s n).held = false) (hlost : (getPort s n).lost = false) (hlight : u.up &&& ~~~(getPort s n).dropped ≠ 0)
    (hwait : (getPort s n).wait = []) (peer : BitVec 16) :
    portTrained s n peer u = setPort { s with outbox := .advert n ((List.range 4).map (advertised n)) :: s.outbox } n
      (trainedPort (getPort s n) peer u) := by
  have hguard : (loaded s && !(getPort s n).trained && !(getPort s n).held && !(getPort s n).lost &&
      (u.up &&& ~~~(getPort s n).dropped) != 0) = true := by
    rw [hloaded, htrained, hheld, hlost, bne_iff_ne.mpr hlight]
    rfl
  exact (if_pos hguard).trans (pump_setPort_of_idle (p := trainedPort (getPort s n) peer u) hwait rfl _ n)

theorem portTrained_of_other {s : State} {n : Nat} {u : PortUp} (h : loaded s = false ∨ (getPort s n).trained = true ∨
    (getPort s n).held = true ∨ (getPort s n).lost = true ∨ u.up &&& ~~~(getPort s n).dropped = 0) (peer : BitVec 16) :
    portTrained s n peer u = s := by
  refine if_neg ?_
  simp only [Bool.and_eq_true, Bool.not_eq_true', bne_iff_ne]
  rintro ⟨⟨⟨⟨hloaded, htrained⟩, hheld⟩, hlost⟩, hlight⟩
  simp only [hloaded, htrained, hheld, hlost, hlight, Bool.true_eq_false, Bool.false_eq_true, or_self] at h

/-! ### The obligation -/

theorem bump_regs_congr {s t : State} (h : t.regs = s.regs) (off k : Nat) : (bump t off k).regs = (bump s off k).regs := by
  simp only [bump, rset, rget, h]

/-- Settles O56: each event of a link is a change of its port's record, with what it counts, records and sends. -/
theorem portEvents : Obligations.PortEvents := by
  unfold Obligations.PortEvents
  rintro s n _ rfl
  refine ⟨fun hoff rx => ?off, fun hworks => ⟨?idle, ?bad, fun w symbols => ⟨?dark, ?codeword⟩⟩, fun w => ⟨?drop, ?nodrop⟩,
    fun up => ⟨?noretrain, fun hretrain hheld hlost => ⟨?none, ?some⟩⟩, ⟨?nolost, ?lost⟩,
    fun peer u => ⟨?notrain, ?train⟩⟩
  case off =>
    have hno : ¬ usable s n.val = true := ne_true_of_eq_false hoff
    cases rx with
    | flit bs => exact congrArg Host.Outcome.next (if_neg hno)
    | codeword w symbols =>
      have hcode : codewordReceived s n.val w.val (symbols.map (·.toNat)) = s := by
        simp only [codewordReceived, hoff, Bool.false_and, Bool.false_eq_true, if_false]
      exact congrArg Host.Outcome.next hcode
  case idle =>
    intro bs hlen hcrc hseq hempty hack hnak hrx hwait hbuf hunacked
    exact congrArg Host.Outcome.next
      (flitReceived_of_idle hworks ⟨hlen, hcrc, hseq⟩ ⟨hempty, hack, hnak⟩ ⟨hrx, hwait, hbuf, hunacked⟩)
  case bad =>
    intro bs hroom hbad
    have heq := flitReceived_of_bad hworks hbad
    split at heq
    · next hwhole =>
      have h := naked_nakFlit hworks hroom
      exact ⟨_, congrArg Host.Outcome.next heq, h.rxSeq, h.credits, h.unacked, h.flit, by rw [h.regs, if_pos hwhole], h.mem, h.others⟩
    · next hdamaged =>
      have h := naked_nakFlit (s := bump s (0x8410 + 32 * n.val) 1) hworks hroom
      exact ⟨_, congrArg Host.Outcome.next heq, h.rxSeq, h.credits, h.unacked, h.flit, by rw [h.regs, if_neg hdamaged], h.mem,
        h.others⟩
  case dark =>
    intro hdark
    have hcode : codewordReceived s n.val w.val (symbols.map (·.toNat)) = s := by
      simp only [codewordReceived, hdark, Bool.and_false, Bool.false_eq_true, if_false]
    exact congrArg Host.Outcome.next hcode
  case codeword =>
    intro d k hup hcode hturn hnone m hm
    exact congrArg Host.Outcome.next (codewordReceived_of_waiting hworks hup hcode hturn hnone hm)
  case drop =>
    intro htrained hheld hlost hup
    refine ⟨_, congrArg Host.Outcome.next (wavelengthDrop_of_up htrained hheld hlost hup), rfl, ?_, fun k hk => ?_, rfl, rfl⟩
    · exact getPort_setPort_self s n.val _
    · exact getPort_setPort_ne s hk _
  case nodrop => exact fun h => congrArg Host.Outcome.next (wavelengthDrop_of_down h)
  case noretrain => exact fun h => congrArg Host.Outcome.next (retrainDone_of_not_retraining h up)
  case none => exact fun hnone => congrArg Host.Outcome.next (retrainDone_of_none_trained hretrain hheld hlost hnone)
  case some =>
    intro hsome hwait hbuf howed hnak
    obtain ⟨t, hdone, hlaid⟩ := retrainDone_of_some_trained hretrain hheld hlost hsome hwait hbuf howed hnak
    obtain ⟨bits, len, lane, hport⟩ := hlaid.port
    rw [getPort_setPort_self] at hport
    have hport' : getPort (bump t (0x8414 + 32 * n.val) (getPort s n.val).flits.length) n.val = _ := hport
    refine ⟨_, congrArg Host.Outcome.next hdone, ?_, ?_, ?_, ?_, hlaid.sent, bump_regs_congr hlaid.regs _ _, hlaid.mem,
      fun k hk => (hlaid.others k hk).trans (getPort_setPort_ne s hk _)⟩
    · rw [hport']
    · rw [hport']
      rfl
    · rw [hport']
      rfl
    · rw [hport']
      rfl
  case nolost => exact fun h => congrArg Host.Outcome.next (portLost_of_other h)
  case lost =>
    intro hretrain hheld hlost hdark hwait hunacked
    have hkept := recorded_judgeReplace (emitFault (setPort s n.val (lostPort (getPort s n.val)))
      (lostEvent (setPort s n.val (lostPort (getPort s n.val))) n.val))
    obtain ⟨hfab, hfault, hevent⟩ := emitFault_records (setPort s n.val (lostPort (getPort s n.val)))
      (lostEvent (setPort s n.val (lostPort (getPort s n.val))) n.val)
    refine ⟨_, congrArg Host.Outcome.next (portLost_of_dark hretrain hheld hlost hdark hwait hunacked), hkept.fab.trans hfab, ?_,
      fun hroom => ⟨_, hkept.events _ (hevent hroom), rfl, rfl, rfl, rfl⟩⟩
    rw [rbit, hkept.status]
    exact hfault
  case notrain => exact fun h => congrArg Host.Outcome.next (portTrained_of_other h peer)
  case train =>
    exact fun hloaded htrained hheld hlost hlight hwait =>
      congrArg Host.Outcome.next (portTrained_of_light hloaded htrained hheld hlost hlight hwait peer)

end Sys2Proof.Proofs.PortEvents
end

section
/-!
PROOFS. Messages of the integrator on a module of the cellar door: memory accesses, register messages, credits, reserved types and L1
(R358, R362, R364 to R366).
-/
namespace Sys2Proof.Proofs.DoorMessages
open Sys2Proof.Machine Sys2Proof.Claims
open Sys2Proof.Proofs.FabricRequests (lineAddr lineBytes LinesStored)

/-! ### Modules by number -/

theorem setMod_setMod (s : State) (m : Nat) (x y : Module) : setMod (setMod s m x) m y = setMod s m y := by
  simp only [setMod, smPut_smPut]

/-! ### Messages that leave at once (R364) -/

/-- A module that carries messages, has none waiting and holds the credits for one of some payload beats. -/
structure MaySend (x : Module) (beats : Nat) : Prop where
  trained : x.trained = true
  idle : x.outq = []
  header : 1 ≤ x.hdrCredits
  room : beats ≤ x.beatCredits

/-- The module once a message has left on it. -/
def charged (x : Module) (beats : Nat) : Module :=
  { x with outq := [], hdrCredits := x.hdrCredits - 1, beatCredits := x.beatCredits - beats }

theorem doorSend_of_maySend {s : State} {m : Nat} {o : Out} (h : MaySend (getMod s m) (outBeats o)) :
    doorSend s m o = sentMessage (sendOut (setMod s m (charged (getMod s m) (outBeats o))) o) m o := by
  have hcredits : ((getMod s m).trained && decide (1 ≤ (getMod s m).hdrCredits) &&
      decide (outBeats o ≤ (getMod s m).beatCredits)) = true := by
    rw [h.trained, decide_eq_true h.header, decide_eq_true h.room]
    rfl
  simp only [doorSend, h.idle, List.nil_append, List.length_nil, pumpDoor, getMod_setMod_self, hcredits, if_true,
    setMod_setMod, charged]

theorem doorSend_mcpl {s : State} {m : Nat} {d : List Byte} {n : Nat} (hlen : d.length = 64 * n) (h : MaySend (getMod s m) n)
    (g : BitVec 12) (code a : Nat) :
    doorSend s m (.mcpl m g code a d) =
      returnCredits (sendOut (setMod s m (charged (getMod s m) n)) (.mcpl m g code a d)) m 0 1 := by
  have hbeats : outBeats (.mcpl m g code a d) = n := by
    rw [outBeats, hlen, ceilDiv]
    omega
  rw [doorSend_of_maySend (by rwa [hbeats]), hbeats]
  rfl

theorem doorSend_mack {s : State} {m : Nat} (h : MaySend (getMod s m) 0) (g : BitVec 12) (code : Nat) :
    doorSend s m (.mack m g code) = sendOut (setMod s m (charged (getMod s m) 0)) (.mack m g code) :=
  doorSend_of_maySend h

/-- The state once a performed MWR is acknowledged, where it asks for that. -/
def mackSent (s : State) (m : Nat) (g : BitVec 12) (ackReq : Bool) : State :=
  if ackReq then doorSend s m (.mack m g 0) else s

/-- The MACK leaves memory and registers as they are. -/
theorem mackSent_frame {s : State} {m : Nat} (h : MaySend (getMod s m) 0) (g : BitVec 12) (ackReq : Bool) :
    (mackSent s m g ackReq).mem = s.mem ∧ (mackSent s m g ackReq).regs = s.regs ∧
      (ackReq = true → .mack m g 0 ∈ (mackSent s m g ackReq).outbox) := by
  cases ackReq with
  | false => exact ⟨rfl, rfl, fun h => absurd h Bool.false_ne_true⟩
  | true =>
    rw [mackSent, if_pos rfl, doorSend_mack h]
    exact ⟨rfl, rfl, fun _ => List.mem_cons_self⟩

/-! ### The lines of an access (R365) -/

/-- Lines as their bytes. -/
theorem range_lines (n : Nat) : (List.range n).flatMap (fun i => (List.range 64).map (64 * i + ·)) = List.range (64 * n) := by
  induction n with
  | zero => rfl
  | succ n ih => rw [List.range_succ (n := n), List.flatMap_append, ih, Nat.mul_succ, List.range_add, List.flatMap_singleton]

/-- An access as a transaction for the same lines. -/
def lineTxn (x : HeldAcc) : Txn :=
  { addr := x.addr, lenM1 := x.lenM1, data := x.data, partialW := x.partialW, bmasks := x.masks }

/-- An access to lines of one block of cellar bin `b` that the domain of its module may use (R36, R37). -/
structure Permitted (s : State) (x : HeldAcc) (b : Nat) : Prop where
  bin : region (lineAddr (lineTxn x)) = .cellar b
  granted : mayUse s (doorDomain s x.m) b = true
  block : lineAddr (lineTxn x) % 2048 + lineBytes (lineTxn x) ≤ 2048

/-- A burst that stays in its block does not wrap. -/
theorem burstLines_of_block {a n : Nat} (h : a / 64 * 64 % 2048 + 64 * n ≤ 2048) :
    burstLines a n = (List.range n).map (a / 64 * 64 + 64 * ·) := by
  refine List.map_congr_left fun i hi => ?_
  have := List.mem_range.mp hi
  show a / 2048 * 2048 + 64 * ((a / 64 + i) % 32) = a / 64 * 64 + 64 * i
  omega

/-- The bytes of the lines in turn. -/
theorem localBytes_lines (s : State) (a n : Nat) :
    ((List.range n).map (a + 64 * ·)).flatMap (fun l => localBytes s l 64) = localBytes s a (64 * n) := by
  rw [localBytes, ← range_lines, List.map_flatMap, List.flatMap_map]
  simp only [localBytes, List.map_map, Function.comp_def, Nat.add_assoc]

/-- The enabled bytes of the lines in turn. -/
theorem accBytes_lines (x : HeldAcc) (a : Nat) :
    accBytes x ((List.range (x.lenM1.toNat + 1)).map (a + 64 * ·)) = txnBytesAt (lineTxn x) a := by
  have hzip : ((List.range (x.lenM1.toNat + 1)).map (a + 64 * ·)).zip (List.range (x.lenM1.toNat + 1)) =
      (List.range (x.lenM1.toNat + 1)).map (fun i => (a + 64 * i, i)) := by
    simpa using List.zip_map' (f := (a + 64 * ·)) (g := id) (l := List.range (x.lenM1.toNat + 1))
  have hbyte : ∀ i b : Nat, b < 64 → txnEnabled (lineTxn x) (64 * i + b) =
      (!x.partialW || (nth x.masks i 0#64).getLsbD b) := fun i b hb => by
    rw [txnEnabled, show (64 * i + b) / 64 = i by omega, show (64 * i + b) % 64 = b by omega]
    rfl
  have hline : ∀ i : Nat, (List.range 64).filter (fun b => !x.partialW || (nth x.masks i 0#64).getLsbD b) =
      (List.range 64).filter (txnEnabled (lineTxn x) ∘ (64 * i + ·)) := fun i =>
    List.filter_congr fun b hb => (hbyte i b (List.mem_range.mp hb)).symm
  rw [txnBytesAt, show (lineTxn x).lenM1 = x.lenM1 from rfl, ← range_lines, List.filter_flatMap, List.map_flatMap, accBytes,
    List.length_map, List.length_range, hzip, List.flatMap_map]
  simp only [hline, List.filter_map, List.map_map, Function.comp_def, Nat.add_assoc]
  rfl

section Access

variable {s : State} {x : HeldAcc} {b : Nat} (h : Permitted s x b)
include h

theorem Permitted.inBin : CellarRuns.InBin (lineAddr (lineTxn x)) (lineBytes (lineTxn x)) :=
  FabricMessages.inBin_of_region h.bin (by have := h.block; omega)

theorem Permitted.not_window : region (lineAddr (lineTxn x)) ≠ .window := by
  rw [h.bin]
  exact Region.noConfusion

theorem Permitted.doorGrant_eq (write : Bool) (lines : List Nat) :
    doorGrant s x.m (lineAddr (lineTxn x)) write lines = (s, .ok) := by
  simp only [doorGrant, h.bin, h.granted, if_true]

theorem Permitted.burstLines_eq : burstLines x.addr.toNat (x.lenM1.toNat + 1) =
    (List.range (x.lenM1.toNat + 1)).map (lineAddr (lineTxn x) + 64 * ·) :=
  burstLines_of_block h.block

/-- A permitted MRD of a sound memory is answered with its lines and status OK. -/
theorem Permitted.doorRead_eq (hsound : Sound s.mem) : doorRead s x =
    doorSend s x.m (.mcpl x.m x.tag 0 (lineAddr (lineTxn x))
      (localBytes s (lineAddr (lineTxn x)) (lineBytes (lineTxn x)))) := by
  have hcount : ∀ ls : List Nat, ls.foldl (fun s l => countCe s (physOf s l) 64) s = s := fun ls =>
    List.foldl_fixed' (fun l => by simp [countCe, hsound.single]) ls
  have hnone : ∀ ls : List Nat, ls.flatMap (fun l => localUe s l 64) = [] := fun ls =>
    List.flatMap_eq_nil_iff.mpr fun l _ => FabricRequests.localUe_of_sound hsound l 64
  have ha : x.addr.toNat / 64 * 64 = lineAddr (lineTxn x) := rfl
  simp only [doorRead, h.burstLines_eq, ha, if_neg h.not_window, h.doorGrant_eq, if_true, hcount, hnone, recordUes, List.foldl_nil,
    List.isEmpty_nil, localBytes_lines]
  rfl

/-- An unchecked write of the enabled bytes changes memory alone, and there those bytes alone. -/
theorem Permitted.storeUnchecked_eq (hsound : Sound s.mem) :
    ∃ m, storeUnchecked s (txnBytesAt (lineTxn x) (lineAddr (lineTxn x))) = ({ s with mem := m }, []) ∧
      LinesStored s (lineTxn x) m := by
  let bs := txnBytesAt (lineTxn x) (lineAddr (lineTxn x))
  obtain ⟨m, hstore, hstored⟩ := FabricRequests.storeTxn_of_sound h.inBin hsound 0
  have hnone : (storeUnchecked s bs).2 = [] := (storeBytes_get s.mem (physWrites s bs) hsound.canonical hsound.words).1
  have hsame : storeTxn s 0 (lineTxn x) bs = ((storeUnchecked s bs).1, false) := by
    simp only [storeTxn, FabricMessages.correctMerges_of_none hsound.single]
    change (recordUeBlends (storeUnchecked s bs).1 _ (storeUnchecked s bs).2, !(storeUnchecked s bs).2.isEmpty) = _
    rw [hnone]
    rfl
  have hstate : (storeUnchecked s bs).1 = { s with mem := m } := congrArg Prod.fst (hsame.symm.trans hstore)
  exact ⟨m, Prod.ext hstate hnone, hstored⟩

/-- A permitted MWR of a sound memory stores its enabled bytes, is acknowledged if it asks for that, and its credits go back. -/
theorem Permitted.doorWrite_eq (hsound : Sound s.mem) :
    ∃ m, LinesStored s (lineTxn x) m ∧ doorWrite s x =
      returnCredits (mackSent { s with mem := m } x.m x.tag x.ackReq) x.m (x.lenM1.toNat + 1) 1 := by
  obtain ⟨m, hstore, hstored⟩ := h.storeUnchecked_eq hsound
  have ha : x.addr.toNat / 64 * 64 = lineAddr (lineTxn x) := rfl
  refine ⟨m, hstored, ?_⟩
  simp only [doorWrite, h.burstLines_eq, ha, if_neg h.not_window, h.doorGrant_eq, if_true, accBytes_lines,
    FabricMessages.correctMerges_of_none hsound.single, hstore, recordUeBlends, List.foldl_nil, List.isEmpty_nil, List.length_map,
    List.length_range]
  rfl

end Access

/-! ### MRD and MWR (R52, R365) -/

/-- Accesses are not held from READY on, where the boot over the door has LOADED. -/
theorem takeAccess_of_ready {s : State} (hready : ready s = true) (hloaded : strapBoot s < 2 → loaded s = true) (x : HeldAcc) :
    takeAccess s x = doorAccess s x := by
  have hfree : doorHolds s = false := by
    rw [doorHolds, hready]
    by_cases hboot : strapBoot s < 2
    · rw [hloaded hboot]
      simp
    · simp [hboot]
  rw [takeAccess, hfree]
  rfl

theorem burstComplete_iff {x : HeldAcc} : burstComplete x = true ↔
    64 * (x.lenM1.toNat + 1) ≤ x.data.length ∧ (x.partialW = true → x.lenM1.toNat + 1 ≤ x.masks.length) := by
  rw [burstComplete, Bool.and_eq_true, decide_eq_true_eq]
  cases x.partialW <;> simp

section Accesses

variable {s : State} {m : Fin 16} {a : BitVec 48} {l : BitVec 5} {g : BitVec 12}

/-- The access that an MRD asks for. -/
def readAcc (m : Fin 16) (a : BitVec 48) (l : BitVec 5) (g : BitVec 12) : HeldAcc :=
  { m := m.val, isWrite := false, addr := a, lenM1 := l, tag := g }

/-- The access that an MWR asks for. -/
def writeAcc (m : Fin 16) (a : BitVec 48) (l : BitVec 5) (g : BitVec 12) (pw ar : Bool) (d : List Byte)
    (ms : List (BitVec 64)) : HeldAcc :=
  { m := m.val, isWrite := true, addr := a, lenM1 := l, tag := g, ackReq := ar, data := d, masks := ms, partialW := pw }

theorem exec_mrd_of_reused (hcarries : (getMod s m.val).trained = true) (htag : tagInFlight s m.val g = true) :
    exec (.mrd m a l g) s =
      .next (doorSend s m.val (.mcpl m.val g 1 (a.toNat / 64 * 64) (List.replicate (64 * (l.toNat + 1)) 0#8))) := by
  change Host.Outcome.next (takeMrd s m.val a l g) = _
  rw [takeMrd, carries, if_pos hcarries, if_pos htag]

theorem exec_mrd_of_permitted (hcarries : (getMod s m.val).trained = true) (htag : tagInFlight s m.val g = false)
    (hready : ready s = true) (hloaded : strapBoot s < 2 → loaded s = true) {b : Nat} (h : Permitted s (readAcc m a l g) b)
    (hsound : Sound s.mem) : exec (.mrd m a l g) s =
      .next (doorSend s m.val (.mcpl m.val g 0 (a.toNat / 64 * 64) (localBytes s (a.toNat / 64 * 64) (64 * (l.toNat + 1))))) := by
  have hread : doorAccess s (readAcc m a l g) = _ := h.doorRead_eq hsound
  change Host.Outcome.next (takeMrd s m.val a l g) = _
  rw [takeMrd, carries, if_pos hcarries, htag, if_neg Bool.false_ne_true, takeAccess_of_ready hready hloaded]
  exact congrArg _ hread

variable {pw ar : Bool} {d : List Byte} {ms : List (BitVec 64)}

/-- The state once the MWR that has arrived on a module is whole. -/
def committed (s : State) (m : Nat) : State := setMod s m { getMod s m with part := none }

/-- An MWR without its last beat or mask is kept. -/
theorem exec_mwr_of_part (hcarries : (getMod s m.val).trained = true)
    (h : d.length < 64 * (l.toNat + 1) ∨ pw = true ∧ ms.length < l.toNat + 1) : exec (.mwr m a l g pw ar d ms) s =
      .next (setMod s m.val { getMod s m.val with part := some (writeAcc m a l g pw ar d ms) }) := by
  have hpart : ¬ burstComplete (writeAcc m a l g pw ar d ms) = true := by
    rw [burstComplete_iff]
    rintro ⟨hbeats, hmasks⟩
    exact h.elim (Nat.not_lt.mpr hbeats) fun h => Nat.not_lt.mpr (hmasks h.1) h.2
  change Host.Outcome.next (takeMwr s (writeAcc m a l g pw ar d ms)) = _
  rw [takeMwr, carries, show (writeAcc m a l g pw ar d ms).m = m.val from rfl, if_pos hcarries, if_neg hpart]

/-- An MWR that has arrived whole is performed. -/
theorem exec_mwr_of_permitted (hcarries : (getMod s m.val).trained = true) (hbeats : 64 * (l.toNat + 1) ≤ d.length)
    (hmasks : pw = true → l.toNat + 1 ≤ ms.length) (hready : ready s = true) (hloaded : strapBoot s < 2 → loaded s = true)
    {b : Nat} (h : Permitted s (writeAcc m a l g pw ar d ms) b) (hsound : Sound s.mem) :
    ∃ k, LinesStored s (lineTxn (writeAcc m a l g pw ar d ms)) k ∧ exec (.mwr m a l g pw ar d ms) s =
      .next (returnCredits (mackSent { committed s m.val with mem := k } m.val g ar) m.val (l.toNat + 1) 1) := by
  have hwhole : burstComplete (writeAcc m a l g pw ar d ms) = true := burstComplete_iff.mpr ⟨hbeats, hmasks⟩
  have h' : Permitted (committed s m.val) (writeAcc m a l g pw ar d ms) b :=
    ⟨h.bin, h.granted, h.block⟩
  obtain ⟨k, hstored, hwrite⟩ := h'.doorWrite_eq hsound
  refine ⟨k, ⟨hstored.inside, hstored.outside⟩, ?_⟩
  change Host.Outcome.next (takeMwr s (writeAcc m a l g pw ar d ms)) = _
  rw [takeMwr, carries, show (writeAcc m a l g pw ar d ms).m = m.val from rfl, if_pos hcarries, if_pos hwhole,
    takeAccess_of_ready (by exact hready) (by exact hloaded)]
  exact congrArg _ hwrite

end Accesses

/-! ### Register messages (R366) -/

theorem winOff_of_window {a : BitVec 48} (h : 0x180000000 ≤ a.toNat ∧ a.toNat < 0x180100000) :
    winOff a = some ((a.toNat - 0x180000000) / 4 * 4) := by
  have hregion : region a.toNat = .window := by
    rw [region, if_neg (by omega), if_neg (by omega), if_pos h]
  rw [winOff, if_pos hregion]

theorem winOff_of_outside {a : BitVec 48} (h : ¬ (0x180000000 ≤ a.toNat ∧ a.toNat < 0x180100000)) : winOff a = none := by
  have hregion : region a.toNat ≠ .window := by
    unfold region
    rw [if_neg h]
    split_ifs <;> exact Region.noConfusion
  rw [winOff, if_neg hregion]

/-- The register message of an RRD or RWR. -/
theorem exec_register {s : State} {m : Fin 16} {a : BitVec 48} {g : BitVec 12} {v : Word} {c : Instr} {msg : RegMsg}
    (hc : c = .rrd m a g ∧ msg.value = none ∨ c = .rwr m a g v ∧ msg.value = some v) (hm : msg.m = m) (hg : msg.tag = g)
    (hquiet : msg.quiet = false) (hoff : msg.off = winOff a) : exec c s = .next (takeReg s msg) := by
  obtain ⟨m', off, g', value, quiet⟩ := msg
  obtain rfl : m' = m := hm
  obtain rfl : g' = g := hg
  obtain rfl : off = winOff a := hoff
  obtain rfl : quiet = false := hquiet
  rcases hc with ⟨rfl, hvalue⟩ | ⟨rfl, hvalue⟩
  · obtain rfl : value = none := hvalue
    rfl
  · obtain rfl : value = some v := hvalue
    rfl

theorem takeReg_of_room {s : State} {x : RegMsg} (hcarries : (getMod s x.m.val).trained = true)
    (hroom : s.door.regq.length < 64) : takeReg s x = enterReg s x := by
  simp only [takeReg, hcarries, hroom, if_true]

theorem takeReg_of_full {s : State} {x : RegMsg} (hcarries : (getMod s x.m.val).trained = true)
    (hfull : 64 ≤ s.door.regq.length) :
    takeReg s x = setMod s x.m.val { getMod s x.m.val with regWait := (getMod s x.m.val).regWait ++ [x] } := by
  simp only [takeReg, hcarries, Nat.not_lt.mpr hfull, if_true, if_false]

/-! ### A module that carries no messages (R359, log 70) -/

theorem exec_of_untrained {s : State} {m : Fin 16} (h : (getMod s m.val).trained = false) {c : Instr} {a : BitVec 48}
    {l ty : BitVec 5} {g : BitVec 12} {pw ar e : Bool} {d : List Byte} {ms : List (BitVec 64)} {v : Word} {b k : BitVec 16}
    (hc : c ∈ [Instr.mrd m a l g, .mwr m a l g pw ar d ms, .rrd m a g, .rwr m a g v, .crd m b k, .doorReservedType m ty l, .l1 m e]) :
    exec c s = .next s := by
  have hoff : ¬ carries s m.val = true := ne_true_of_eq_false h
  have hreg : ∀ x : RegMsg, x.m = m → takeReg s x = s := fun x hx => by
    subst hx
    exact if_neg hoff
  have hskip : (carries s m.val && !inboundType ty.toNat) = false := by
    rw [carries, h]
    rfl
  simp only [List.mem_cons, List.not_mem_nil, or_false] at hc
  rcases hc with rfl | rfl | rfl | rfl | rfl | rfl | rfl
  · exact congrArg _ (if_neg hoff)
  · exact congrArg _ (if_neg hoff)
  · exact congrArg _ (hreg _ rfl)
  · exact congrArg _ (hreg _ rfl)
  · exact congrArg _ (if_neg hoff)
  · exact congrArg _ (if_neg (ne_true_of_eq_false hskip))
  · exact congrArg _ (if_neg hoff)

/-! ### Credits, reserved types and L1 (R358, R362, R364) -/

theorem exec_crd_of_idle {s : State} {m : Fin 16} (hcarries : (getMod s m.val).trained = true) (hidle : (getMod s m.val).outq = [])
    (b h : BitVec 16) : exec (.crd m b h) s = .next (setMod s m.val { getMod s m.val with
      hdrCredits := (getMod s m.val).hdrCredits + h.toNat, beatCredits := (getMod s m.val).beatCredits + b.toNat }) := by
  change Host.Outcome.next (takeCrd s m.val b.toNat h.toNat) = _
  simp only [takeCrd, hcarries, if_true, hidle, List.length_nil, pumpDoor]

theorem exec_doorReservedType {s : State} {m : Fin 16} (hcarries : (getMod s m.val).trained = true) {ty : BitVec 5}
    (hty : ty.toNat ∉ [0x01, 0x02, 0x03, 0x04, 0x07, 0x18, 0x19, 0x1D]) (l : BitVec 5) :
    exec (.doorReservedType m ty l) s =
      .next (returnCredits (bump s 0xC040 1) m.val (if ty = 0x09 ∨ ty = 0x0A ∨ ty = 0x10 then 0 else l.toNat + 1) 1) := by
  have hbeats : skippedBeats ty.toNat l.toNat = if ty = 0x09 ∨ ty = 0x0A ∨ ty = 0x10 then 0 else l.toNat + 1 := by
    simp only [skippedBeats, ← BitVec.toNat_inj]
    rfl
  have htaken : (carries s m.val && !inboundType ty.toNat) = true := by
    rw [carries, hcarries, inboundType]
    simpa using hty
  rw [← hbeats]
  exact congrArg _ (if_pos htaken)

/-! ### The obligation -/

/-- Settles O59: each message is one equation of its command; what it leaves of memory, registers and the outbox is read off. -/
theorem doorRequests : Obligations.DoorRequests := by
  unfold Obligations.DoorRequests
  refine ⟨fun s m c a l g pw ar e d ms v b h ty huntrained hc => exec_of_untrained huntrained hc, fun s m x hx hcarries => ?_⟩
  subst hx
  refine ⟨fun e => ?l1, fun ty l hty => ?reserved, exec_crd_of_idle hcarries, fun a g v c msg hc hm hg hquiet hin hout => ?register,
    fun a l g pw ar d ms hpart => ?part, fun a l g k b hk hidle => ?access⟩
  case l1 => exact congrArg _ (if_pos hcarries)
  case reserved => exact ⟨_, exec_doorReservedType hcarries hty l, rfl, rfl, rfl, rfl⟩
  case register =>
    have hoff : msg.off = winOff a := by
      by_cases hw : 0x180000000 ≤ a.toNat ∧ a.toNat < 0x180100000
      · rw [winOff_of_window hw, hin hw.1 hw.2]
      · rw [winOff_of_outside hw, hout hw]
    have hexec := exec_register (s := s) hc hm hg hquiet hoff
    subst hm
    exact ⟨fun hroom => ⟨_, hexec.trans (congrArg _ (takeReg_of_room hcarries hroom)), rfl, rfl, rfl, rfl⟩,
      fun hfull => hexec.trans (congrArg _ (takeReg_of_full hcarries hfull))⟩
  case part =>
    refine ⟨_, exec_mwr_of_part hcarries hpart, rfl, rfl, rfl, ?_⟩
    rw [getMod_setMod_self]
    rfl
  case access =>
    subst hk
    refine ⟨fun htag hheader hroom => ?reused, fun hready hloaded hbin hgranted hblock hsound =>
      ⟨fun htag hheader hroom => ?read, fun pw ar d ms hbeats hmasks hheader => ?write⟩⟩
    case reused =>
      have hsend := doorSend_mcpl (List.length_replicate (n := 64 * (l.toNat + 1)) (a := 0#8)) ⟨hcarries, hidle, hheader, hroom⟩ g 1
        (a.toNat / 64 * 64)
      exact ⟨_, (exec_mrd_of_reused hcarries htag).trans (congrArg _ hsend), List.mem_cons_of_mem _ List.mem_cons_self, rfl, rfl⟩
    case read =>
      have hsend := doorSend_mcpl (d := localBytes s (a.toNat / 64 * 64) (64 * (l.toNat + 1))) (by simp [localBytes])
        ⟨hcarries, hidle, hheader, hroom⟩ g 0 (a.toNat / 64 * 64)
      exact ⟨_, (exec_mrd_of_permitted hcarries htag hready hloaded ⟨hbin, hgranted, hblock⟩ hsound).trans (congrArg _ hsend),
        List.mem_cons_of_mem _ List.mem_cons_self, rfl, rfl⟩
    case write =>
      obtain ⟨k, hstored, hexec⟩ := exec_mwr_of_permitted (g := g) (ar := ar) hcarries hbeats hmasks hready hloaded
        ⟨hbin, hgranted, hblock⟩ hsound
      have hfree : MaySend (getMod (committed s m.val) m.val) 0 := by
        rw [committed, getMod_setMod_self]
        exact ⟨hcarries, hidle, hheader, Nat.zero_le _⟩
      obtain ⟨hmem, hregs, hmack⟩ := mackSent_frame (s := { committed s m.val with mem := k }) hfree g ar
      refine ⟨_, hexec, fun har => List.mem_cons_of_mem _ (hmack har), List.mem_cons_self, hregs, fun i hi => ?_, fun q hq => ?_⟩
      · exact (congrArg (memByte · _) hmem).trans (hstored.inside i hi)
      · exact (congrArg (memByte · _) hmem).trans (hstored.outside q hq)

end Sys2Proof.Proofs.DoorMessages
end

section
/-!
PROOFS. Modules of the cellar door: training, the master reset, and the answers of exported requests (R359, R363, R367 to R370).
-/
namespace Sys2Proof.Proofs.DoorModules
open Sys2Proof.Machine Sys2Proof.Claims
open Sys2Proof.Proofs.FabricRequests (Answered SameWays sameWays_of_fab)

/-! ### Training (R359) -/

theorem drainExport_of_none {s : State} (h : s.door.xwait = []) : drainExport s = s := by
  rw [drainExport, h, List.foldl_nil, ← h]

theorem moduleUp_of_down {s : State} {m : Nat} (hlives : doorLives s = true) (hbonded : bonded s m = true)
    (hdown : (getMod s m).trained = false) (hwait : s.door.xwait = []) (rate rep : BitVec 4) :
    moduleUp s m rate rep = returnCredits (setMod s m
      { trained := true, rate := rate, repaired := rep, resets := (getMod s m).resets, nextTag := (getMod s m).nextTag,
        xreqs := (getMod s m).xreqs, hdrCredits := rfld s 0xC00C 0 16, beatCredits := rfld s 0xC00C 16 16 }) m 512 64 := by
  have hup : (doorLives s && bonded s m && !carries s m) = true := by
    rw [hlives, hbonded, carries, hdown]
    rfl
  rw [moduleUp, if_pos hup]
  exact drainExport_of_none hwait

theorem doorLives_of_up {s : State} (hup : s.boot.power = .up) (hawake : dormant s = false) : doorLives s = true := by
  rw [doorLives, hup, hawake]
  rfl

/-! ### Master reset (R370) -/

/-- With no register message waiting in a module, none enters the queue. -/
theorem refillReg_of_none_waiting {s : State} (h : ∀ k, (getMod s k).regWait = []) (n : Nat) : refillReg s n = s := by
  have hnext : nextReg s = none := by
    rw [nextReg, List.findSome?_eq_none_iff]
    intro k _
    rw [h k]
    rfl
  cases n with
  | zero => rfl
  | succ n => simp only [refillReg, hnext, ite_self]

/-- The state with what a master reset of a module discards counted. -/
def discardCounted (s : State) (m : Nat) : State :=
  bump (if (getMod s m).part.isSome then bump s 0xC044 1 else s) 0xC048 (readsOpen s m)

theorem discardCounted_frame (s : State) (m : Nat) :
    discardCounted s m = { s with regs := (discardCounted s m).regs } := by
  unfold discardCounted
  split <;> rfl

/-- The held accesses after a master reset of a module: its reads are dropped, its writes lose their MACK. -/
def heldAfterReset (m : Nat) (l : List HeldAcc) : List HeldAcc :=
  l.filterMap (fun h => if h.m = m then (if h.isWrite then some { h with ackReq := false } else none) else some h)

/-- The door after a master reset of a module that has exported nothing. -/
def doorAfterReset (d : Door) (m : Nat) (x : Module) : Door :=
  { d with
    mods := smPut d.mods m { resets := x.resets + 1, repaired := x.repaired, nextTag := x.nextTag }
    heldAcc := heldAfterReset m d.heldAcc
    regq := d.regq.filter (fun y => y.m.val != m)
    matrix := d.matrix.map (fun y => if y.m.val = m then { y with quiet := true } else y) }

theorem masterReset_of_none_exported {s : State} {m : Nat} (hbonded : bonded s m = true) (hexported : (getMod s m).xreqs = [])
    (hwait : s.door.xwait = []) (hreg : ∀ k, (getMod s k).regWait = []) :
    masterReset s m false =
      { s with regs := (discardCounted s m).regs, door := doorAfterReset s.door m (getMod s m) } := by
  let u : State := { s with regs := (discardCounted s m).regs, door := doorAfterReset s.door m (getMod s m) }
  have hnone : ∀ k, (getMod u k).regWait = [] := fun k => by
    by_cases hk : k = m
    · subst hk
      exact congrArg Module.regWait (smGet_smPut_self _ _ _ _)
    · exact (congrArg Module.regWait (smGet_smPut_ne _ hk _ _)).trans (hreg k)
  have hreads : readsOpen (if (getMod s m).part.isSome then bump s 0xC044 1 else s) m = readsOpen s m := by
    split <;> rfl
  have hcounted : bump (if (getMod s m).part.isSome then bump s 0xC044 1 else s) 0xC048 (readsOpen s m) =
      { s with regs := (discardCounted s m).regs } := discardCounted_frame s m
  have hcut : masterReset s m false = drainExport (refillReg u 64) := by
    simp only [masterReset, if_pos hbonded, hexported, List.foldl_nil, hreads, hcounted, beq_iff_eq, Bool.not_false, Bool.and_true]
    rfl
  rw [hcut, refillReg_of_none_waiting hnone]
  exact drainExport_of_none hwait

/-! ### Answers of the DOOR_NODE (R321, R363) -/

/-- A port where one transaction waits, for whose channel it has the credits and the flits. -/
structure OneWaits (p : Port) (x : TxEntry) : Prop where
  only : p.wait = [x]
  credits : txnUnits x.txn ≤ nth p.credits (vcOf x.txn.typ) 0
  room : flitRoom p x.txn = true

theorem canSend_of_oneWaits {p : Port} {x : TxEntry} (h : OneWaits p x) (vc : Nat) :
    canSend p vc = if vcOf x.txn.typ = vc then some 0 else none := by
  by_cases hvc : vcOf x.txn.typ = vc
  · subst hvc
    simp [canSend, firstOn, h.only, h.credits, h.room]
  · simp [canSend, firstOn, h.only, hvc]

/-- The channel of answers is taken where nothing else waits. -/
theorem nextVc_of_oneWaits {p : Port} {x : TxEntry} (h : OneWaits p x) (hvc : vcOf x.txn.typ = 1) : nextVc p = some (1, 0) := by
  have hsend : ∀ vc, canSend p vc = if 1 = vc then some 0 else none := fun vc => hvc ▸ canSend_of_oneWaits h vc
  have hturn : (p.lastVc + 1) % 3 = 1 ∨ (p.lastVc + 2) % 3 = 1 ∧ (p.lastVc + 1) % 3 ≠ 1 ∨
      (p.lastVc + 3) % 3 = 1 ∧ (p.lastVc + 2) % 3 ≠ 1 ∧ (p.lastVc + 1) % 3 ≠ 1 := by omega
  rcases hturn with h1 | ⟨h2, h1⟩ | ⟨h3, h2, h1⟩
  · simp [nextVc, hsend, h1]
  · simp [nextVc, hsend, h1.symm, h2]
  · simp [nextVc, hsend, h1.symm, h2.symm, h3]

/-- A pool block that an entry names holds the entry's data. -/
def Held (s : State) (t : Txn) (ingress : Option (Nat × Nat)) : Prop :=
  ∀ e, ingress = some e → localBytes s (poolAddr s e.2) t.data.length = t.data

/-- An entry of type other than TIME, framed with the data of its pool block, is framed as it stands where the block holds them. -/
theorem frameOne_of_held {s : State} {p : Port} {x : TxEntry} (hwait : p.wait = [x]) (htyp : x.txn.typ ≠ 6)
    (hheld : Held s x.txn x.ingress) (n vc : Nat) : ∃ q, frameOne s n p vc 0 = sendOut (setPort s n q) (.frame n x.txn) := by
  have hstamp : stampTime s n p x.txn = (s, p, x.txn) := if_pos htyp
  cases hing : x.ingress with
  | none =>
    simp only [frameOne, hwait, List.getElem?_cons_zero, hstamp, hing]
    exact ⟨_, rfl⟩
  | some e =>
    have hpool : fromPool s e.2 x.txn = x.txn := by rw [fromPool, hheld e hing]
    simp only [frameOne, hwait, List.getElem?_cons_zero, hstamp, hing, hpool, ite_self]
    exact ⟨_, rfl⟩

/-- An answer that may leave at once does, from the pool block that holds its data too. -/
theorem answered_enqueue {s : State} {n : Nat} {t : Txn} {ingress : Option (Nat × Nat)} (h : GoesOut s n t) (hvc : vcOf t.typ = 1)
    (hheld : Held s t ingress) : Answered s s.mem n t (enqueue s n { txn := t, ingress := ingress }) := by
  let x : TxEntry := { txn := t, ingress := ingress, order := s.fab.nextOrder }
  let p : Port := { getPort s n with wait := [x] }
  let u := setPort { s with fab := { s.fab with nextOrder := s.fab.nextOrder + 1 } } n p
  have htyp : t.typ ≠ 6 := fun h6 => by simp [h6, vcOf] at hvc
  have hport : getPort u n = p := getPort_setPort_self _ _ _
  have hnext : nextVc p = some (1, 0) := nextVc_of_oneWaits (x := x) ⟨rfl, h.credits, h.room⟩ hvc
  have hworks : usable u n = true := (usable_congr s u n (by rw [hport]; exact ⟨rfl, rfl, rfl, rfl⟩)).trans h.works
  obtain ⟨q, hframe⟩ := frameOne_of_held (s := u) (p := p) (x := x) rfl htyp hheld n 1
  have hpump : enqueue s n { txn := t, ingress := ingress } = packFlits (sendOut (setPort u n q) (.frame n t)) n
      ((getPort (sendOut (setPort u n q) (.frame n t)) n).txBuf.length / 240 + 1) := by
    have hstart : enqueue s n { txn := t, ingress := ingress } = pump u n := by
      simp only [enqueue, h.free, List.nil_append]
      rfl
    have hlength : (getPort u n).wait.length = 1 := by rw [hport]; rfl
    rw [hstart, pump, hlength]
    simp only [pumpPort, hworks, if_true, hport, hnext, hframe]
    rfl
  rw [hpump]
  rcases packFlits_only _ (sendOut (setPort u n q) (.frame n t)) n with hnone | ⟨q', l, hflits, -⟩
  · rw [hnone]
    exact ⟨_, [], rfl⟩
  · rw [hflits]
    exact ⟨_, l, rfl⟩

/-- A transaction as the door sends it under a node number. -/
def fromNode (node : Nat) (t : Txn) : Txn := { t with hops := 63, snode := BitVec.ofNat 16 node }

theorem answered_sendAnswer {s : State} {n node : Nat} {t : Txn} {ingress : Option (Nat × Nat)} (hother : t.dnode.toNat ≠ nodeId s)
    (h : GoesOut s n (fromNode node t)) (hvc : vcOf t.typ = 1) (hheld : Held s t ingress) :
    Answered s s.mem n (fromNode node t) (sendAnswer s node t none ingress) := by
  have hroute : chooseRoute s { t with hops := 63, snode := BitVec.ofNat 16 node } = some n := h.route
  simp only [sendAnswer, if_neg hother, hroute]
  exact answered_enqueue h hvc hheld

section Answers

variable {s u : State} {m : Mem} {n : Nat} {x : Txn} (h : Answered s m n x u)
include h

/-- An answer leaves the door as it is. -/
theorem door_of_answered : u.door = s.door := by
  obtain ⟨fab, l, rfl⟩ := h
  rfl

theorem mem_outbox_of_answered {o : Out} (ho : o ∈ s.outbox) : o ∈ u.outbox := by
  obtain ⟨fab, l, rfl⟩ := h
  exact List.mem_append_right l (List.mem_cons_of_mem _ ho)

end Answers

/-! ### Exported requests that end (R367, R368) -/

/-- A request dropped is in flight no more. -/
theorem getX_dropX (s : State) (m : Nat) (x : XReq) : getX (dropX s m x) m x.tag = none := by
  have hmod : getMod (dropX s m x) m = { getMod s m with xreqs := (getMod s m).xreqs.filter (fun r => r.tag != x.tag) } :=
    getMod_setMod_self _ _ _
  rw [getX, hmod, List.find?_eq_none]
  intro r hr
  simpa using (List.mem_filter.mp hr).2

/-- What holds once an exported request has been dropped from `s`, which left `t`, and its answer has left. -/
theorem drained_of_answered {s t u : State} {m n : Nat} {x : XReq} {k : Mem} {y : Txn} (h : Answered t k n y u)
    (hdoor : t.door = (dropX s m x).door) (hwait : s.door.xwait = []) :
    drainExport u = u ∧ getX u m x.tag = none := by
  have hsame : u.door = (dropX s m x).door := (door_of_answered h).trans hdoor
  refine ⟨drainExport_of_none (by rw [hsame]; exact hwait), ?_⟩
  rw [getX, getMod, hsame]
  exact getX_dropX s m x

/-- The mask of the ACK of an exported request whose lanes not applied are `lanes`. -/
def ackMask (t : Txn) (lanes : BitVec 64) : BitVec 64 := if t.typ = 2 then lanes else if t.typ = 3 then t.mask else 0

theorem answerX_of_read {s : State} {t : Txn} (htyp : t.typ = 0) {node : Nat} (hnode : doorNode s = some node) (status : Nat)
    (d : List Byte) (ingress : Option (Nat × Nat)) : answerX s t status 0 (some d) ingress =
      sendAnswer s node (rspFor t status 0 sbUnchecked d) none ingress := by
  simp only [answerX, htyp, if_true, hnode, Option.getD_some]

theorem answerX_of_update {s : State} {t : Txn} (htyp : t.typ ≠ 0) {node : Nat} (hnode : doorNode s = some node) (status : Nat)
    (lanes : BitVec 64) : answerX s t status lanes none none = sendAnswer s node (ackFor t status (ackMask t lanes)) none none := by
  simp only [answerX, if_neg htyp, hnode, Option.getD_some, ackMask]
  split_ifs <;> rfl

/-! ### XCPL and XACK (R363, R364, R367, R369) -/

/-- What a pool block holds once data have been put into it: nothing but memory has changed. -/
theorem fillPool_of_sound {s : State} {k b : Nat} (hsound : Sound s.mem) (hbin : region (poolAddr s k) = .cellar b) {d : List Byte}
    (hlen : d.length ≤ 2048) : ∃ m, fillPool s k d = { s with mem := m } ∧
      localBytes { s with mem := m } (poolAddr s k) d.length = d := by
  have hin : CellarRuns.InBin (poolAddr s k) d.length := FabricMessages.inBin_of_region hbin (by rw [poolAddr]; omega)
  obtain ⟨m, hfill, hbytes, -⟩ := CellarRuns.storeUnchecked_byteRun hin hsound.canonical hsound.words
  refine ⟨m, hfill, List.ext_getElem (by simp [localBytes]) fun i _ hi => ?_⟩
  have hphys : physOf { s with mem := m } (poolAddr s k + i) = physOf s (poolAddr s k) + i := CellarRuns.physOf_of_inBin hin hi s
  simp only [localBytes, List.getElem_map, List.getElem_range, hphys, hbytes i hi]
  exact List.getD_eq_getElem _ _ hi

/-- The credits of an answer of the integrator returned and the request dropped. -/
def answerTaken (s : State) (m : Nat) (x : XReq) (beats : Nat) : State := dropX (returnCredits s m beats 1) m x

theorem takeXcpl_of_read {s : State} {m k node : Nat} {g : BitVec 12} {x : XReq} {d : List Byte}
    (htrained : (getMod s m).trained = true) (hx : getX s m g = some x) (htyp : x.txn.typ = 0) (hblock : x.block = some k)
    (hnode : doorNode s = some node) (hlen : d.length = 64 * (x.txn.lenM1.toNat + 1)) {mem : Mem}
    (hfill : fillPool s k d = { s with mem := mem }) :
    takeXcpl s m g 0 x.txn.lenM1 d = drainExport (sendAnswer { answerTaken s m x (x.txn.lenM1.toNat + 1) with mem := mem } node
      (rspFor x.txn 0 0 sbUnchecked d) none (some (x.port, k))) := by
  have hdata : xcplData (64 * (x.txn.lenM1.toNat + 1)) (d.take (64 * (x.txn.lenM1.toNat + 1))) = d := by
    rw [← hlen, List.take_length, xcplData, List.take_length, Nat.sub_self, List.range_zero, List.map_nil, List.append_nil]
  have hx' : getX (returnCredits s m (x.txn.lenM1.toNat + 1) 1) m g = some x := hx
  have hfill' : dropX (fillPool (returnCredits s m (x.txn.lenM1.toNat + 1) 1) k d) m x =
      { answerTaken s m x (x.txn.lenM1.toNat + 1) with mem := mem } :=
    congrArg (fun u => dropX (returnCredits u m (x.txn.lenM1.toNat + 1) 1) m x) hfill
  simp only [takeXcpl, htrained, if_true, hx', if_pos htyp, hdata, hblock, Option.map_some, hfill']
  exact congrArg drainExport (answerX_of_read htyp (by exact hnode) 0 d _)

theorem takeXack_of_update {s : State} {m node : Nat} {g : BitVec 12} {x : XReq} {st : Byte} {ln : BitVec 16} {code : Nat}
    (htrained : (getMod s m).trained = true) (hx : getX s m g = some x) (htyp : x.txn.typ ≠ 0) (hnode : doorNode s = some node)
    (hcode : code = 0 ∧ st = 0 ∨ code = 5 ∧ st = 3) : takeXack s m g st ln =
      drainExport (sendAnswer (answerTaken s m x 0) node (ackFor x.txn code (ackMask x.txn (xackLanes x.txn ln))) none none) := by
  have hstatus : doorStatus st = code := by rcases hcode with ⟨rfl, rfl⟩ | ⟨rfl, rfl⟩ <;> rfl
  have happlied : ¬ (code = 1 ∨ code = 2) := by omega
  have hx' : getX (returnCredits s m 0 1) m g = some x := hx
  simp only [takeXack, htrained, if_true, hx', if_neg htyp, hstatus, if_neg happlied]
  exact congrArg drainExport (answerX_of_update htyp (by exact hnode) code _)

/-- A request dropped leaves the ways out of the node as they are. -/
theorem sameWays_answerTaken (s : State) (m : Nat) (x : XReq) (beats : Nat) (mem : Mem) :
    SameWays s { answerTaken s m x beats with mem := mem } := sameWays_of_fab rfl rfl

/-- An XCPL is answered with its data, which have passed through the pool block of the request. -/
theorem answered_takeXcpl {s : State} {m n k b node : Nat} {g : BitVec 12} {x : XReq} {d : List Byte}
    (htrained : (getMod s m).trained = true) (hx : getX s m g = some x) (htyp : x.txn.typ = 0) (hblock : x.block = some k)
    (hnode : doorNode s = some node) (hother : x.txn.snode.toNat ≠ nodeId s) (hwait : s.door.xwait = [])
    (hlen : d.length = 64 * (x.txn.lenM1.toNat + 1)) (hsound : Sound s.mem) (hbin : region (poolAddr s k) = .cellar b)
    (hgo : GoesOut s n (fromNode node (rspFor x.txn 0 0 sbUnchecked d))) :
    ∃ mem, Answered { answerTaken s m x (x.txn.lenM1.toNat + 1) with mem := mem } mem n
        (fromNode node (rspFor x.txn 0 0 sbUnchecked d)) (takeXcpl s m g 0 x.txn.lenM1 d) ∧
      getX (takeXcpl s m g 0 x.txn.lenM1 d) m x.tag = none := by
  obtain ⟨mem, hfill, hheld⟩ := fillPool_of_sound hsound hbin (d := d) (by rw [hlen]; omega)
  have hgo' := (sameWays_answerTaken s m x (x.txn.lenM1.toNat + 1) mem).goesOut hgo (show (8#4 : BitVec 4) ∉ [1, 2, 3] by decide)
  have hanswer := answered_sendAnswer (s := { answerTaken s m x (x.txn.lenM1.toNat + 1) with mem := mem })
    (ingress := some (x.port, k)) (t := rspFor x.txn 0 0 sbUnchecked d) hother hgo' rfl (fun e he => by cases he; exact hheld)
  obtain ⟨hdrained, hgone⟩ := drained_of_answered (s := returnCredits s m (x.txn.lenM1.toNat + 1) 1) hanswer rfl hwait
  rw [takeXcpl_of_read htrained hx htyp hblock hnode hlen hfill, hdrained]
  exact ⟨mem, hanswer, hgone⟩

/-- An XACK is answered with the lanes not applied. -/
theorem answered_takeXack {s : State} {m n node : Nat} {g : BitVec 12} {x : XReq} {st : Byte} {ln : BitVec 16} {code : Nat}
    (htrained : (getMod s m).trained = true) (hx : getX s m g = some x) (htyp : x.txn.typ ≠ 0) (hnode : doorNode s = some node)
    (hother : x.txn.snode.toNat ≠ nodeId s) (hwait : s.door.xwait = []) (hcode : code = 0 ∧ st = 0 ∨ code = 5 ∧ st = 3)
    (hgo : GoesOut s n (fromNode node (ackFor x.txn code (ackMask x.txn (xackLanes x.txn ln))))) :
    Answered (answerTaken s m x 0) s.mem n (fromNode node (ackFor x.txn code (ackMask x.txn (xackLanes x.txn ln))))
        (takeXack s m g st ln) ∧ getX (takeXack s m g st ln) m x.tag = none := by
  have hgo' := (sameWays_answerTaken s m x 0 s.mem).goesOut hgo (show (9#4 : BitVec 4) ∉ [1, 2, 3] by decide)
  have hanswer := answered_sendAnswer (s := answerTaken s m x 0) (ingress := none)
    (t := ackFor x.txn code (ackMask x.txn (xackLanes x.txn ln))) hother hgo' rfl (fun e he => by cases he)
  obtain ⟨hdrained, hgone⟩ := drained_of_answered (s := returnCredits s m 0 1) hanswer rfl hwait
  rw [takeXack_of_update htrained hx htyp hnode hcode, hdrained]
  exact ⟨hanswer, hgone⟩

/-! ### Expiry (R368) -/

/-- The block of a request that expires can be given back without credits being due: it has none, or its port keeps none back. -/
def FreesQuietly (s : State) (x : XReq) : Prop :=
  ∀ k, x.block = some k → x.port < 48 ∧ (getPort s x.port).kept.all (· == 0) = true

/-- A block given back quietly changes the use of the pool, and of the registers the occupancy of its port. -/
theorem dropBlock_of_quiet {s : State} {x : XReq} (h : FreesQuietly s x) : ∃ regs used,
    dropBlock s x = { s with regs := regs, fab := { s.fab with poolUsed := used } } ∧
      ∀ o, 0x8000 ≤ o → rget { s with regs := regs } o = rget s o := by
  cases hblock : x.block with
  | none =>
    rw [dropBlock, hblock]
    exact ⟨s.regs, s.fab.poolUsed, rfl, fun _ _ => rfl⟩
  | some k =>
    obtain ⟨hport, hkept⟩ := h k hblock
    let t := rsetFld { s with fab := { s.fab with poolUsed := s.fab.poolUsed.erase k } } (0x2400 + 4 * x.port) 0 22
      (portOcc s x.port - 1)
    have hquiet : resumeCredits t x.port = t := by
      have hall : (getPort t x.port).kept.all (· == 0) = true := hkept
      rw [resumeCredits, hall, Bool.or_true, if_pos rfl]
    rw [dropBlock, hblock]
    exact ⟨_, _, hquiet, fun o ho => rget_rsetFld_ne s (by omega) 0 22 _⟩

/-- The state once an expired request is dropped and counted. -/
def expired (s : State) (m : Nat) (x : XReq) : State := bump (dropBlock (dropX s m x) x) 0xC04C 1

theorem expired_of_quiet {s : State} {x : XReq} (h : FreesQuietly s x) (m : Nat) : ∃ regs used,
    expired s m x = { dropX s m x with regs := regs, fab := { s.fab with poolUsed := used } } ∧
      (∀ o, 0x8000 ≤ o → o ≠ 0xC04C → rget { s with regs := regs } o = rget s o) ∧
      rget { s with regs := regs } 0xC04C = BitVec.ofNat 32 (satAdd (rget s 0xC04C).toNat 1) := by
  obtain ⟨regs, used, hdrop, hsame⟩ := dropBlock_of_quiet (s := dropX s m x) h
  let t : State := { s with regs := regs }
  have hsame' : ∀ o, 0x8000 ≤ o → rget t o = rget s o := hsame
  refine ⟨(bump t 0xC04C 1).regs, used, by rw [expired, hdrop]; rfl, fun o ho hne => ?_, ?_⟩
  · exact (rget_bump_ne t hne 1).trans (hsame' o ho)
  · have hcount : rget (bump t 0xC04C 1) 0xC04C = _ := rget_bump_self t 0xC04C 1
    rw [hsame' 0xC04C (by omega)] at hcount
    exact hcount

theorem regs_expired_of_no_block {s : State} {x : XReq} (h : x.block = none) (m : Nat) :
    (expired s m x).regs = (bump s 0xC04C 1).regs := by
  rw [expired, dropBlock, h]
  rfl

/-- The answer with which a request expires. -/
def expiryAnswer (t : Txn) : Txn :=
  if t.typ = 0 then rspZero t 3 0 else ackFor t (if t.typ = 2 then 6 else 3) (ackMask t (enabledLanes t))

theorem expireX_eq {s : State} {m node : Nat} {x : XReq} (hnode : doorNode (expired s m x) = some node) :
    expireX s m x = sendAnswer (expired s m x) node (expiryAnswer x.txn) none none := by
  have hexpire : expireX s m x = if x.txn.typ = 0 then answerX (expired s m x) x.txn 3 0 none none
    else if x.txn.typ = 2 then answerX (expired s m x) x.txn 6 (enabledLanes x.txn) none none
    else answerX (expired s m x) x.txn 3 0 none none := rfl
  rw [hexpire, expiryAnswer]
  split
  · next htyp => simp only [answerX, htyp, if_true, hnode, Option.getD_some]
  · next htyp =>
    split
    · exact answerX_of_update htyp hnode 6 _
    · next hadd =>
      rw [answerX_of_update htyp hnode 3, ackMask, ackMask, if_neg hadd, if_neg hadd]

theorem expiryAnswer_fields (t : Txn) :
    (expiryAnswer t).dnode = t.snode ∧ vcOf (expiryAnswer t).typ = 1 ∧ (expiryAnswer t).typ ∉ [1, 2, 3] := by
  unfold expiryAnswer
  split
  · exact ⟨rfl, rfl, show (8#4 : BitVec 4) ∉ [1, 2, 3] by decide⟩
  · exact ⟨rfl, rfl, show (9#4 : BitVec 4) ∉ [1, 2, 3] by decide⟩

/-- An expired request is dropped, counted and answered. -/
theorem answered_takeXtmo {s : State} {m n node : Nat} {g : BitVec 12} {x : XReq} (hx : getX s m g = some x)
    (hnode : doorNode s = some node) (hother : x.txn.snode.toNat ≠ nodeId s) (hwait : s.door.xwait = []) (hquiet : FreesQuietly s x)
    (hgo : GoesOut s n (fromNode node (expiryAnswer x.txn))) :
    Answered (expired s m x) s.mem n (fromNode node (expiryAnswer x.txn)) (takeXtmo s m g) ∧
      getX (takeXtmo s m g) m x.tag = none := by
  obtain ⟨regs, used, hexpired, hsame, -⟩ := expired_of_quiet hquiet m
  obtain ⟨hdnode, hvc, htyp⟩ := expiryAnswer_fields x.txn
  have hself : nodeId (expired s m x) = nodeId s := by
    rw [hexpired]
    exact congrArg (fld · 0 16) (hsame 0x8000 (by omega) (by omega))
  have hnode' : doorNode (expired s m x) = some node := by
    have hreg : rget (expired s m x) 0x8004 = rget s 0x8004 := by
      rw [hexpired]
      exact hsame 0x8004 (by omega) (by omega)
    rw [doorNode, rbit, rfld, hreg]
    exact hnode
  have hways : SameWays s (expired s m x) := by
    rw [hexpired]
    exact sameWays_of_fab rfl rfl
  have hmem : (expired s m x).mem = s.mem := by rw [hexpired]; rfl
  have hanswer := answered_sendAnswer (s := expired s m x) (ingress := none) (by rw [hdnode, hself]; exact hother)
    (hways.goesOut hgo htyp) hvc (fun e he => by cases he)
  rw [hmem, ← expireX_eq hnode'] at hanswer
  obtain ⟨hdrained, hgone⟩ := drained_of_answered hanswer (by rw [hexpired]) hwait
  have htake : takeXtmo s m g = expireX s m x := by
    simp only [takeXtmo, hx, hdrained]
  rw [htake]
  exact ⟨hanswer, hgone⟩

/-! ### The obligation -/

/-- Settles O60: a module reset or trained is one record; each exported request that ends is dropped, and its answer leaves at once. -/
theorem doorModules : Obligations.DoorModules := by
  unfold Obligations.DoorModules
  refine ⟨fun s m rate rep x hx hup hawake hbonded hdown hwait => ?trained,
    fun s m x c hx hbonded hexported hwait hreg hc => ?reset, fun s m g st l d ln hx htrained => ?unknown,
    fun s m g x node n hx hnode hother hwait => ⟨fun k b d htrained htyp hblock hlen hsound hbin hgo => ?xcpl,
      fun st ln code mask htrained hcode hmask hgo => ?xack, fun k t hblock hport hkept htyp ht hgo => ?expiredRead,
      fun t hblock ht hgo => ?expiredUpdate⟩⟩
  case trained =>
    subst hx
    exact congrArg _ (moduleUp_of_down (doorLives_of_up hup hawake) (decide_eq_true hbonded) hdown hwait rate rep)
  case reset =>
    subst hx
    have hreset := masterReset_of_none_exported (decide_eq_true hbonded) hexported hwait hreg
    have hexec : exec c s = .next (masterReset s m.val false) := by
      rcases hc with ⟨rfl, hup, hawake⟩ | ⟨rfl, htrained⟩
      · exact congrArg _ (if_pos (doorLives_of_up hup hawake))
      · exact congrArg _ (if_pos htrained)
    refine ⟨_, hexec.trans (congrArg _ hreset), rfl, rfl, smGet_smPut_self _ _ _ _, fun k hk => smGet_smPut_ne _ hk _ _, rfl, rfl,
      ?_, ?_⟩
    · exact List.filter_congr fun y _ => by rw [Bool.eq_iff_iff, bne_iff_ne, bne_iff_ne, Ne, Ne, Fin.ext_iff]
    · simp only [doorAfterReset, Fin.ext_iff]
  case unknown =>
    have hxcpl : takeXcpl s m.val g st l d = returnCredits s m.val (l.toNat + 1) 1 := by
      have hx' : getX (returnCredits s m.val (l.toNat + 1) 1) m.val g = none := hx
      simp only [takeXcpl, htrained, if_true, hx']
    have hxack : takeXack s m.val g st ln = returnCredits s m.val 0 1 := by
      have hx' : getX (returnCredits s m.val 0 1) m.val g = none := hx
      simp only [takeXack, htrained, if_true, hx']
    have hxtmo : takeXtmo s m.val g = s := by simp only [takeXtmo, hx]
    exact ⟨congrArg _ hxcpl, congrArg _ hxack, congrArg _ hxtmo⟩
  case xcpl =>
    obtain ⟨mem, hanswer, hgone⟩ := answered_takeXcpl htrained hx htyp hblock hnode hother hwait hlen hsound hbin hgo
    exact ⟨_, rfl, hanswer.regs_eq, hgone, mem_outbox_of_answered hanswer List.mem_cons_self, hanswer.frame_mem⟩
  case xack =>
    have htyp : x.txn.typ ≠ 0 := by rcases hmask with ⟨h, -⟩ | ⟨h, -⟩ | ⟨h, -⟩ <;> rw [h] <;> decide
    obtain rfl : mask = ackMask x.txn (xackLanes x.txn ln) := by
      rcases hmask with ⟨h, rfl⟩ | ⟨h, rfl⟩ | ⟨h, rfl⟩ <;> rw [ackMask, h] <;> rfl
    obtain ⟨hanswer, hgone⟩ := answered_takeXack htrained hx htyp hnode hother hwait hcode hgo
    exact ⟨_, rfl, hanswer.regs_eq, hanswer.mem_eq, hgone, mem_outbox_of_answered hanswer List.mem_cons_self, hanswer.frame_mem⟩
  case expiredRead =>
    have hquiet : FreesQuietly s x := fun _ _ => ⟨hport, hkept⟩
    obtain rfl : t = fromNode node (expiryAnswer x.txn) := by
      rw [ht, expiryAnswer, if_pos htyp]
      rfl
    obtain ⟨regs, used, hexpired, -, hcount⟩ := expired_of_quiet hquiet m.val
    obtain ⟨hanswer, hgone⟩ := answered_takeXtmo hx hnode hother hwait hquiet hgo
    refine ⟨_, rfl, ?_, hanswer.mem_eq, hgone, hanswer.frame_mem⟩
    rw [rget_congr (hanswer.regs_eq.trans (congrArg State.regs hexpired))]
    exact hcount
  case expiredUpdate =>
    have hquiet : FreesQuietly s x := fun k hk => absurd (hblock.symm.trans hk) (Option.some_ne_none k).symm
    have hsame : { t with snode := BitVec.ofNat 16 node } = fromNode node (expiryAnswer x.txn) := by
      rcases ht with ⟨h, rfl⟩ | ⟨h, rfl⟩ | ⟨h, rfl⟩ <;> rw [expiryAnswer, ackMask, h] <;> rfl
    rw [hsame] at hgo ⊢
    obtain ⟨hanswer, hgone⟩ := answered_takeXtmo hx hnode hother hwait hquiet hgo
    exact ⟨_, rfl, hanswer.regs_eq.trans (regs_expired_of_no_block hblock m.val), hanswer.mem_eq, hgone, hanswer.frame_mem⟩

end Sys2Proof.Proofs.DoorModules
end

section
/-!
PROOFS. Cooper commands (R394, R398, R407): what an accepted write of COOP.CMD starts, and what a refused one leaves.
-/
namespace Sys2Proof.Proofs.CooperCommands
open Sys2Proof.Machine
open Sys2Proof.Proofs.VintageQueue (and_not_of_and_eq_zero)

/-! ### The word of a command (R408) -/

/-- The row of COOP.CMD. -/
def cmdRow : RegRow := { name := "COOP.CMD", base := 0xE000, rw := 0xF000003F }

theorem regRow_cmd : regRow 0xE000 = some cmdRow := rfl

/-- The word of a command has no reserved bit. -/
theorem coopWord_and_rsv : ∀ (c : Fin 4) (b : Fin 64), coopWord c.val b.val &&& cmdRow.rsv = 0#32 := by decide +kernel

theorem fld_coopWord_cmd (c : Fin 4) (b : Fin 64) : fld (coopWord c.val b.val) 28 4 = c.val := by
  simp only [fld, coopWord, BitVec.toNat_ofNat]
  omega

theorem fld_coopWord_target (c : Fin 4) (b : Fin 64) : fld (coopWord c.val b.val) 0 6 = b.val := by
  simp only [fld, coopWord, BitVec.toNat_ofNat]
  omega

/-! ### The write -/

/-- A write of COOP.CMD without reserved bits is one command. -/
theorem regWrite_cmd (key : Nat) (s : State) (c : Fin 4) (b : Fin 64) :
    regWrite key s 0xE000 (coopWord c.val b.val) = coopCommand s (coopWord c.val b.val) := by
  have hrsv := coopWord_and_rsv c b
  simp [regWrite, regWriteCore, regRow_cmd, noteReserved, hrsv, and_not_of_and_eq_zero hrsv]

/-- Every cooper command of a source that reaches the register window is the command of its word. -/
theorem exec_cmd_of_reaches {s : State} {src : Source} (hreach : reaches s src = true) {b : Fin 64} {c : Fin 4} {i : Instr}
    (hi : (c, i) ∈ [(1, Instr.marchDestroy src b), (2, .marchPreserve src b), (3, .taste src b)]) :
    exec i s = .next (coopCommand s (coopWord c.val b.val)) := by
  have hwrite : exec i s = .next (srcWrite s src 0xE000 (coopWord c.val b.val) 0xF#4) := by
    simp only [List.mem_cons, Prod.mk.injEq, List.not_mem_nil, or_false] at hi
    obtain ⟨rfl, rfl⟩ | ⟨rfl, rfl⟩ | ⟨rfl, rfl⟩ := hi <;> rfl
  have full : coversWord src 0xF#4 = true := rfl
  rw [hwrite, srcWrite, if_pos hreach, if_pos full, regWrite_cmd]

/-! ### Refusals (R394) -/

theorem rbit_coopReject (s : State) : rbit (coopReject s) 0xE004 11 = true := by
  rw [rbit, coopReject, rget_rsetBit_self, bitAt_setBit_self _ (by decide)]

/-- A refused command sets REJECT and leaves the cooper and the memory. -/
theorem coopRefuse_frame (s : State) (w : Word) :
    (coopRefuse s w).coop = s.coop ∧ rbit (coopRefuse s w) 0xE004 11 = true ∧ (coopRefuse s w).mem = s.mem := by
  refine ⟨emit_coop _ _, ?_, emit_mem _ _⟩
  rw [rbit, coopRefuse, rget_emit _ _ (by decide)]
  exact rbit_coopReject s

theorem coopCommand_of_busy {s : State} (h : s.coop.busy = true) (w : Word) : coopCommand s w = coopReject s := by
  simp only [coopCommand, h, Bool.true_or, if_true]

/-! ### The commands of an idle cooper -/

/-- No march, no tasting and no pending tasting. -/
structure Idle (s : State) : Prop where
  busy : s.coop.busy = false
  pending : s.coop.pending = none
  tasting : s.coop.tasting = none

namespace Idle
variable {s : State} (h : Idle s)
include h

theorem coopCommand_eq (c : Fin 4) (b : Fin 64) : coopCommand s (coopWord c.val b.val) =
    if c.val = 1 then
      if binOwner s b.val ≠ 15 then coopRefuse s (coopWord c.val b.val)
      else startMarch (rset s 0xE000 (coopWord c.val b.val)) 1 b.val
    else if c.val = 2 then
      if remapping s b.val then coopRefuse s (coopWord c.val b.val)
      else startMarch (rset s 0xE000 (coopWord c.val b.val)) 2 b.val
    else if c.val = 3 then
      if isCorked s b.val || !setValidR s then coopRefuse s (coopWord c.val b.val)
      else startTaste (rset s 0xE000 (coopWord c.val b.val)) b.val
    else coopReject s := by
  have hfree : (s.coop.busy || s.coop.pending.isSome || s.coop.tasting.isSome) = false := by
    rw [h.busy, h.pending, h.tasting]
    rfl
  simp only [coopCommand, hfree, Bool.false_eq_true, if_false, fld_coopWord_cmd, fld_coopWord_target]

theorem coopCommand_destroy_of_owned {b : Fin 64} (howner : binOwner s b.val = 15) :
    coopCommand s (coopWord 1 b.val) = startMarch (rset s 0xE000 (coopWord 1 b.val)) 1 b.val :=
  (h.coopCommand_eq 1 b).trans (if_neg (not_not_intro howner))

theorem coopCommand_destroy_of_not_owned {b : Fin 64} (howner : binOwner s b.val ≠ 15) :
    coopCommand s (coopWord 1 b.val) = coopRefuse s (coopWord 1 b.val) :=
  (h.coopCommand_eq 1 b).trans (if_pos howner)

theorem coopCommand_preserve_of_not_remapping {b : Fin 64} (hremap : remapping s b.val = false) :
    coopCommand s (coopWord 2 b.val) = startMarch (rset s 0xE000 (coopWord 2 b.val)) 2 b.val :=
  (h.coopCommand_eq 2 b).trans (if_neg (Bool.eq_false_iff.mp hremap))

theorem coopCommand_taste_of_corked {b : Fin 64} (hcorked : isCorked s b.val = true) :
    coopCommand s (coopWord 3 b.val) = coopRefuse s (coopWord 3 b.val) := by
  have hrefused : (isCorked s b.val || !setValidR s) = true := by rw [hcorked, Bool.true_or]
  exact (h.coopCommand_eq 3 b).trans (if_pos hrefused)

theorem coopCommand_taste_of_valid {b : Fin 64} (hcorked : isCorked s b.val = false) (hset : setValidR s = true) :
    coopCommand s (coopWord 3 b.val) = startTaste (rset s 0xE000 (coopWord 3 b.val)) b.val := by
  have hallowed : (isCorked s b.val || !setValidR s) = false := by rw [hcorked, hset, Bool.false_or, Bool.not_true]
  exact (h.coopCommand_eq 3 b).trans (if_neg (Bool.eq_false_iff.mp hallowed))

end Idle

/-! ### What a command starts -/

theorem remapping_of_no_remap {s : State} (hremap : s.coop.remap = none) (hdone : s.coop.remapDone = []) (m : Nat) :
    remapping s m = false := by
  rw [remapping, hremap, hdone]
  rfl

/-- Once the references are formed, a tasting that becomes pending changes only the cooper. -/
theorem startTaste_of_refsFormed {s : State} (hrefs : s.coop.refsFormed = true) (p : Nat) : ∃ buffer,
    startTaste s p = { s with coop := { s.coop with pending := some p, buffer := buffer } } := by
  refine ⟨(startTaste s p).coop.buffer, ?_⟩
  simp only [startTaste, loadBuffer, hrefs, if_true]

/-- Settles O41: each command is a write of COOP.CMD, which a cooper that is not idle rejects, and an idle one refuses or starts by the
state of the bin or press it names. -/
theorem cooperCommands : Obligations.CooperCommands := by
  unfold Obligations.CooperCommands
  intro s src hreach hpending htasting
  have hdestroy (b : Fin 64) : exec (.marchDestroy src b) s = .next (coopCommand s (coopWord 1 b.val)) :=
    exec_cmd_of_reaches hreach (c := 1) (by simp)
  have hpreserve (b : Fin 64) : exec (.marchPreserve src b) s = .next (coopCommand s (coopWord 2 b.val)) :=
    exec_cmd_of_reaches hreach (c := 2) (by simp)
  have htaste (b : Fin 64) : exec (.taste src b) s = .next (coopCommand s (coopWord 3 b.val)) :=
    exec_cmd_of_reaches hreach (c := 3) (by simp)
  refine ⟨fun hbusy b => ?busy, fun hbusy b => ?idle⟩
  case busy =>
    rw [hdestroy, coopCommand_of_busy hbusy]
    exact ⟨_, rfl, rbit_coopReject s, rfl, rfl⟩
  case idle =>
    have hidle : Idle s := ⟨hbusy, hpending, htasting⟩
    refine ⟨fun howner => ?destroy, fun howner => ?refuseDestroy, fun hremap hdone => ?preserve, fun hcorked => ?refuseTaste,
      fun hcorked hset hrefs => ?taste⟩
    case destroy =>
      rw [hdestroy, hidle.coopCommand_destroy_of_owned howner]
      exact ⟨_, rfl, rfl, rget_rset_self _ _ _, rfl⟩
    case refuseDestroy =>
      rw [hdestroy, hidle.coopCommand_destroy_of_not_owned howner]
      obtain ⟨hcoop, hreject, hmem⟩ := coopRefuse_frame s (coopWord 1 b.val)
      exact ⟨_, rfl, hcoop, hreject, hmem⟩
    case preserve =>
      rw [hpreserve, hidle.coopCommand_preserve_of_not_remapping (remapping_of_no_remap hremap hdone b.val)]
      exact ⟨_, rfl, rfl, rget_rset_self _ _ _, rfl⟩
    case refuseTaste =>
      rw [htaste, hidle.coopCommand_taste_of_corked hcorked]
      obtain ⟨hcoop, hreject, -⟩ := coopRefuse_frame s (coopWord 3 b.val)
      exact ⟨_, rfl, hcoop, hreject⟩
    case taste =>
      obtain ⟨buffer, hstart⟩ := startTaste_of_refsFormed (s := rset s 0xE000 (coopWord 3 b.val)) hrefs b.val
      rw [htaste, hidle.coopCommand_taste_of_valid hcorked hset, hstart]
      exact ⟨_, rfl, rfl, rget_rset_self _ _ _, rfl⟩

end Sys2Proof.Proofs.CooperCommands
end

section
/-!
PROOFS. Remap copies (R392): what the copy of a bin into its spare leaves in memory, and the end of the copy.
-/
namespace Sys2Proof.Proofs.RemapCopies
open Sys2Proof.Machine

/-! ### Cells by key -/

theorem le_of_mem_cells {lo : Nat} {c : List Host.Cell} (h : cellsWf lo c = true) {e : Host.Cell} (he : e ∈ c) : lo ≤ e.1 := by
  induction c generalizing lo with
  | nil => cases he
  | cons x r ih =>
    simp only [cellsWf, Bool.and_eq_true, decide_eq_true_eq] at h
    obtain ⟨⟨hlo, -⟩, hrest⟩ := h
    cases he with
    | head => exact hlo
    | tail _ he =>
      have := ih hrest he
      omega

theorem cellGet_filter (p : Nat → Bool) (c : List Host.Cell) (k : Nat) :
    cellGet (c.filter (fun e => p e.1)) k = if p k then cellGet c k else cellDefault := by
  unfold cellGet
  induction c with
  | nil => simp [smGet]
  | cons x r ih =>
    by_cases hp : p x.1 = true
    · rw [List.filter_cons_of_pos (p := fun e : Host.Cell => p e.1) hp, smGet, smGet, ih]
      by_cases hk : k = x.1
      · subst hk
        rw [if_pos rfl, if_pos hp, if_pos rfl]
      · rw [if_neg hk, if_neg hk]
    · rw [List.filter_cons_of_neg (p := fun e : Host.Cell => p e.1) hp, ih, smGet]
      by_cases hk : k = x.1
      · subst hk
        rw [if_neg hp, if_neg hp]
      · rw [if_neg hk]

/-! ### Cells moved to other keys -/

/-- The byte writes that put cells at the keys that `g` gives for theirs. -/
def movedTo (g : Nat → Nat) (c : List Host.Cell) : List (Nat × Byte) := c.map fun e => (g e.1, e.2)

theorem cells_memPutAll_movedTo (g : Nat → Nat) (c : List Host.Cell) (m : Mem) :
    (memPutAll m (movedTo g c)).cells = c.foldl (fun l e => cellPut l (g e.1) e.2) m.cells := by
  unfold memPutAll movedTo
  rw [List.foldl_map]
  induction c generalizing m with
  | nil => rfl
  | cons x r ih => exact ih _

/-- A moved cell arrives as it was, where no other moved cell gets its key. -/
theorem lastByte_movedTo {g : Nat → Nat} {c : List Host.Cell} {lo k : Nat} (hwf : cellsWf lo c = true)
    (hinj : ∀ e ∈ c, g e.1 = g k → e.1 = k) : lastByte (movedTo g c) (g k) cellDefault = cellGet c k := by
  induction c generalizing lo with
  | nil => rfl
  | cons x r ih =>
    simp only [cellsWf, Bool.and_eq_true, decide_eq_true_eq] at hwf
    obtain ⟨-, hrest⟩ := hwf
    have hinj' : ∀ e ∈ r, g e.1 = g k → e.1 = k := fun e he => hinj e (List.mem_cons_of_mem _ he)
    by_cases hk : k = x.1
    · have hread : cellGet (x :: r) k = x.2 := if_pos hk
      have hput : lastByte (movedTo g (x :: r)) (g k) cellDefault = lastByte (movedTo g r) (g k) x.2 :=
        congrArg (lastByte (movedTo g r) (g k)) (if_pos (by rw [hk]))
      rw [hread, hput]
      refine lastByte_absent _ _ _ fun e he hkey => ?_
      obtain ⟨y, hy, rfl⟩ := List.mem_map.mp he
      have hlater := le_of_mem_cells hrest hy
      have hsame := hinj' y hy hkey
      omega
    · have hread : cellGet (x :: r) k = cellGet r k := if_neg hk
      have hput : lastByte (movedTo g (x :: r)) (g k) cellDefault = lastByte (movedTo g r) (g k) cellDefault :=
        congrArg (lastByte (movedTo g r) (g k)) (if_neg fun hkey => hk (hinj x List.mem_cons_self hkey).symm)
      rw [hread, hput, ih hrest hinj']

/-! ### The copy of a bin (R392) -/

/-- The keys of a bin's storage. -/
def inBin (base a : Nat) : Bool := decide (base ≤ a) && decide (a < base + 0x4000000)

/-- The keys outside a bin's storage. -/
def outBin (base a : Nat) : Bool := decide (a < base) || decide (base + 0x4000000 ≤ a)

theorem inBin_add {base i : Nat} (h : i < 0x4000000) : inBin base (base + i) = true := by
  simp [inBin, h]

theorem outBin_add {base i : Nat} (h : i < 0x4000000) : outBin base (base + i) = false := by
  simp [outBin, h]

/-- The key in the spare at `dst` of a key in the bin at `src`. -/
def movedKey (src dst a : Nat) : Nat := a - src + dst

theorem movedKey_add (src dst i : Nat) : movedKey src dst (src + i) = dst + i := by
  unfold movedKey
  omega

/-- The cells of the bin whose storage begins at `base`. -/
def binCells (m : Mem) (base : Nat) : List Host.Cell := m.cells.filter fun e => inBin base e.1

theorem bounds_of_mem_binCells {m : Mem} {base : Nat} {e : Host.Cell} (h : e ∈ binCells m base) :
    base ≤ e.1 ∧ e.1 < base + 0x4000000 := by
  have hin := (List.mem_filter.mp h).2
  simpa [inBin] using hin

theorem cellGet_binCells (m : Mem) (base : Nat) {i : Nat} (h : i < 0x4000000) :
    cellGet (binCells m base) (base + i) = memByte m (base + i) :=
  (cellGet_filter (inBin base) m.cells (base + i)).trans (if_pos (inBin_add h))

/-- The memory with every cell of a bin's storage zero. -/
def emptied (m : Mem) (base : Nat) : Mem := { m with cells := m.cells.filter fun e => outBin base e.1 }

theorem memByte_emptied (m : Mem) (base a : Nat) :
    memByte (emptied m base) a = if outBin base a then memByte m a else cellDefault := cellGet_filter (outBin base) m.cells a

/-- The copy of a bin moves its cells into the emptied spare. -/
theorem memByte_copyBin {s : State} (hwf : Memory.wf s.mem = true) (src dst a : Nat) :
    memByte (copyBin s src dst).mem a =
      lastByte (movedTo (movedKey src dst) (binCells s.mem src)) a (memByte (emptied s.mem dst) a) := by
  have hcells : (copyBin s src dst).mem.cells =
      (memPutAll (emptied s.mem dst) (movedTo (movedKey src dst) (binCells s.mem src))).cells :=
    (cells_memPutAll_movedTo (movedKey src dst) (binCells s.mem src) (emptied s.mem dst)).symm
  have hempty : Memory.wf (emptied s.mem dst) = true := cellsFilter_wf _ hwf
  rw [← memByte_memPutAll _ _ hempty, memByte, hcells, memByte]

/-- The copy reads in the spare as the bin does. -/
theorem memByte_copyBin_inside {s : State} (hwf : Memory.wf s.mem = true) (src dst : Nat) {i : Nat} (h : i < 0x4000000) :
    memByte (copyBin s src dst).mem (dst + i) = memByte s.mem (src + i) := by
  have hbin : cellsWf 0 (binCells s.mem src) = true := cellsFilter_wf _ hwf
  have hinj : ∀ e ∈ binCells s.mem src, movedKey src dst e.1 = movedKey src dst (src + i) → e.1 = src + i := by
    intro e he hkey
    obtain ⟨hlo, -⟩ := bounds_of_mem_binCells he
    unfold movedKey at hkey
    omega
  have hzero : memByte (emptied s.mem dst) (dst + i) = cellDefault := by
    rw [memByte_emptied, outBin_add h, if_neg Bool.false_ne_true]
  rw [memByte_copyBin hwf, hzero, ← movedKey_add src dst i, lastByte_movedTo hbin hinj, cellGet_binCells _ _ h]

/-- The copy leaves every byte outside the spare. -/
theorem memByte_copyBin_outside {s : State} (hwf : Memory.wf s.mem = true) (src : Nat) {dst a : Nat} (h : outBin dst a = true) :
    memByte (copyBin s src dst).mem a = memByte s.mem a := by
  rw [memByte_copyBin hwf, memByte_emptied, if_pos h]
  refine lastByte_absent _ _ _ fun e he hkey => ?_
  obtain ⟨y, hy, rfl⟩ := List.mem_map.mp he
  obtain ⟨hlo, hhi⟩ := bounds_of_mem_binCells hy
  have hkey : movedKey src dst y.1 = a := hkey
  simp only [outBin, Bool.or_eq_true, decide_eq_true_eq] at h
  unfold movedKey at hkey
  omega

/-! ### The end of the copy -/

theorem startRemap_of_none_waits {s : State} (hnone : s.coop.remap = none) (hq : s.coop.remapQ = []) : startRemap s = s := by
  have hempty : startRemap s = { s with coop := { s.coop with remapQ := [] } } := by
    simp only [startRemap, hnone, hq, Option.isSome_none, Bool.false_eq_true, if_false, startRemapFrom]
  rw [hempty, ← hq]

/-- Bin `m` copied into spare `k`, its decode to move at the next slot edge. -/
def copied (s : State) (m k : Nat) : State :=
  { copyBin s (binKey s m) (spareKey k) with
    coop := { s.coop with remap := none, remapDone := s.coop.remapDone ++ [(m, k)] } }

theorem remapCopied_of_none_waits {s : State} {m k : Nat} (hremap : s.coop.remap = some (m, k)) (hq : s.coop.remapQ = []) :
    remapCopied s = copied s m k := by
  have hcopied : remapCopied s = startRemap (copied s m k) := by
    simp only [remapCopied, hremap]
    rfl
  rw [hcopied, startRemap_of_none_waits (s := copied s m k) rfl hq]

theorem binKey_of_not_remapped {s : State} {m : Nat} (h : rbit s (0x2100 + 4 * m) 8 = false) : binKey s m = m * 0x4000000 := by
  rw [binKey, h, if_neg Bool.false_ne_true]

/-- Every spare lies above the local addresses. -/
theorem outBin_spareKey {a : Nat} (h : a < 0x200000000) (k : Nat) : outBin (spareKey k) a = true := by
  have hlt : a < spareKey k := by
    unfold spareKey
    omega
  simp [outBin, hlt]

/-- Settles O43: the copy reads in the spare as the bin does and leaves what lies below the spares, and decode moves only later. -/
theorem remapCopies : Obligations.RemapCopies := by
  unfold Obligations.RemapCopies
  intro s m k hremap hq _ _ hwf hhome
  have hexec : exec .remapCopyDone s = .next (copied s m k) := congrArg Host.Outcome.next (remapCopied_of_none_waits hremap hq)
  refine ⟨_, hexec, rfl, rfl, fun i hi => ?spare, fun a ha => ?below, rfl⟩
  case spare =>
    rw [← binKey_of_not_remapped hhome]
    exact memByte_copyBin_inside hwf _ _ hi
  case below => exact memByte_copyBin_outside hwf _ (outBin_spareKey ha k)

end Sys2Proof.Proofs.RemapCopies
end

section
/-!
PROOFS. Stress tasting (R398, R399, R402): the press that enters STRESS, and what the end of its tasting records.
-/
namespace Sys2Proof.Proofs.StressTasting
open Sys2Proof.Machine

/-! ### The entry (R398) -/

/-- Press `p` in STRESS, its boards and vat cleared, as the cooper's tasting. -/
def inStress (s : State) (p : Nat) : State :=
  { setPress s p { clearPress (getPress s p) with state := .stress } with
    coop := { s.coop with pending := none, tasting := some p, busy := true, op := 3, target := p } }

theorem stressEnter_of_ready {s : State} {p : Nat} (hpending : s.coop.pending = some p) (hedge : s.time.atEdge = true)
    (hidle : (getPress s p).state = .idle) (hsaved : (getPress s p).saved = none) (hcorked : isCorked s p = false) :
    stressEnter s = inStress s p := by
  have hready : (s.time.atEdge && (getPress s p).state == .idle && (getPress s p).saved.isNone && !isCorked s p) = true := by
    rw [hedge, hidle, hsaved, hcorked]
    rfl
  simp only [stressEnter, hpending, hready, if_true]
  rfl

/-! ### The end of a tasting (R402) -/

/-- The count that a tasting with verdict `f` raises: FAILS or PASSES. -/
def countOff (f : Bool) : Nat := if f then 0xE044 else 0xE040

/-- COOP.LAST_TASTE of press `p` with verdict `f`. -/
def lastTaste (p : Nat) (f : Bool) : Word := BitVec.ofNat 32 (p + if f then 2 ^ 31 else 0)

/-- The cooper idle, and press `p` cleared. -/
def tasteOver (s : State) (p : Nat) : State :=
  let s := coopIdle { drawn s with coop := { s.coop with tasting := none } }
  setPress s p (clearPress (getPress s p))

/-- The verdict counted and recorded in the registers. -/
def tasteRecorded (s : State) (p : Nat) (f : Bool) : State :=
  rset (bump (tasteOver s p) (countOff f) 1) 0xE014 (lastTaste p f)

/-- The event of the verdict; only a failure is a fault. -/
def tasteReported (s : State) (p : Nat) (f : Bool) : State :=
  let ev : Event := { code := 0x28, kind := 1, unit := p, args := [(lastTaste p f).toNat] }
  if f then emitFault (tasteRecorded s p f) ev else emit (tasteRecorded s p f) ev

theorem tasteReported_frame (s : State) (p : Nat) (f : Bool) :
    (tasteReported s p f).coop = (tasteOver s p).coop ∧ (tasteReported s p f).mem = s.mem ∧
      (tasteReported s p f).presses = (tasteOver s p).presses := by
  cases f
  · exact ⟨emit_coop _ _, emit_mem _ _, emit_presses _ _⟩
  · exact ⟨emitFault_coop _ _, emitFault_mem _ _, emitFault_presses _ _⟩

/-- The event touches only the count of lost events and INTEG.STATUS. -/
theorem rget_tasteReported (s : State) (p : Nat) (f : Bool) {o : Nat} (hlost : o ≠ 0xF044) (hstatus : o ≠ 0xD000) :
    rget (tasteReported s p f) o = rget (tasteRecorded s p f) o := by
  cases f
  · exact rget_emit _ _ hlost
  · exact rget_emitFault _ _ hlost hstatus

theorem rget_tasteReported_last (s : State) (p : Nat) (f : Bool) : rget (tasteReported s p f) 0xE014 = lastTaste p f := by
  rw [rget_tasteReported s p f (by decide) (by decide), tasteRecorded, rget_rset_self]

theorem countOff_ne (f : Bool) : countOff f ≠ 0xF044 ∧ countOff f ≠ 0xD000 ∧ countOff f ≠ 0xE014 ∧ countOff f ≠ 0xE008 := by
  cases f <;> decide

theorem rget_tasteReported_count (s : State) (p : Nat) (f : Bool) :
    rget (tasteReported s p f) (countOff f) = BitVec.ofNat 32 (min 0xFFFFFFFF ((rget s (countOff f)).toNat + 1)) := by
  obtain ⟨hlost, hstatus, hlast, -⟩ := countOff_ne f
  rw [rget_tasteReported s p f hlost hstatus, tasteRecorded, rget_rset_ne _ hlast, rget_bump_self]
  rfl

/-- COOP.TASTE_CFG stays as it is. -/
theorem rbit_tasteReported_cfg (s : State) (p : Nat) (f : Bool) (i : Nat) :
    rbit (tasteReported s p f) 0xE008 i = rbit s 0xE008 i := by
  obtain ⟨-, -, -, hcfg⟩ := countOff_ne f
  rw [rbit, rget_tasteReported s p f (by decide) (by decide), tasteRecorded, rget_rset_ne _ (by decide),
    rget_bump_ne _ hcfg.symm]
  rfl

/-- The press kept for its return at the next slot edge. -/
def tasteReturned (s : State) (p : Nat) (f : Bool) : State :=
  { tasteReported s p f with coop := { (tasteReported s p f).coop with returning := some p } }

/-- A tasting that passes, or fails with FAILACT = 1, does not cork the press. -/
theorem tasteDone_of_not_corking {s : State} {p : Nat} {b f : Bool} (htasting : s.coop.tasting = some p)
    (hf : f = (b || patternFails s.draw s.coop.buffer)) (hact : f = true → rbit s 0xE008 31 = true) :
    tasteDone s b = tasteReturned s p f := by
  have hstays : (f && !rbit (tasteReported s p f) 0xE008 31) = false := by
    rw [rbit_tasteReported_cfg]
    cases f
    · rfl
    · rw [hact rfl]
      rfl
  have hdone : tasteDone s b = if f && !rbit (tasteReported s p f) 0xE008 31
      then cork (drawn (tasteReported s p f)) p (Config.freeKey (tasteReported s p f).draw % 2 ^ 32)
      else tasteReturned s p f := by
    simp only [tasteDone, htasting, ← hf]
    rfl
  rw [hdone, hstays, if_neg Bool.false_ne_true]

/-- Settles O44: the entry changes the press and the cooper, and the end of a tasting is its report, with the press kept for return. -/
theorem stressTasting : Obligations.StressTasting := by
  unfold Obligations.StressTasting
  refine ⟨fun s p hpending hedge hidle hsaved hcorked => ?enter, fun s p b f htasting _ hf hact => ?complete⟩
  case enter =>
    have hexec : exec .stressEnter s = .next (inStress s p) :=
      congrArg Host.Outcome.next (stressEnter_of_ready hpending hedge hidle hsaved hcorked)
    exact ⟨_, hexec, getPress_setPress_self _ _ _, rfl, rfl⟩
  case complete =>
    have hexec : exec (.tasteComplete b) s = .next (tasteReturned s p f) :=
      congrArg Host.Outcome.next (tasteDone_of_not_corking htasting hf hact)
    obtain ⟨hcoop, hmem, hpresses⟩ := tasteReported_frame s p f
    refine ⟨_, hexec, ?_, ?_, rfl, rget_tasteReported_last s p f, rget_tasteReported_count s p f, hmem, fun q hq => ?_⟩
    · exact congrArg Coop.tasting hcoop
    · exact congrArg Coop.busy hcoop
    · have hsame : getPress (tasteReturned s p f) q = getPress (tasteOver s p) q := by
        rw [getPress, getPress, ← hpresses]
        rfl
      rw [hsame]
      exact getPress_setPress_ne _ hq _

end Sys2Proof.Proofs.StressTasting
end

section
/-!
PROOFS. The tally stands apart from the rest of the block (R411, R415, R418): what no command but its own, and no control clock,
changes in it.
-/
namespace Sys2Proof.Proofs.TallyApart
open Sys2Proof.Machine Sys2Proof.Claims Sys2Proof.Safety

theorem tally_showPins (s : State) : (showPins s).tally = s.tally := by
  unfold showPins
  split <;> rfl

theorem tally_samplePreload (s : State) (load : Option Nat) : (samplePreload s load).tally = s.tally := by
  cases load <;> rfl

/-- The test access port and the thermal trip do not reach the tally. -/
theorem tally_exec_of_outsideKeep {s t : State} {c : Instr} (hc : outsideKeep c = true) (hown : tallyCommand c = false)
    (h : exec c s = .next t) : t.tally = s.tally := by
  cases c with
  | thermTrip | idcode | highz | bypass | testLogicReset =>
    obtain rfl := Host.Outcome.next.inj h
    rfl
  | extest | clamp => exact Host.Outcome.next.inj h ▸ tally_showPins _
  | samplePreload load => exact Host.Outcome.next.inj h ▸ tally_samplePreload _ load
  | tapRecord | periodicCheckpoint | statement | finalCheckpoint | tallyRestore | tallyHoldup | refclkRestored =>
    exact Bool.noConfusion hown
  | _ => exact Bool.noConfusion hc

/-- Every command but the tally's own leaves the tally settled as it was: outside the test access port and the thermal trip this is
one of the things that every operation keeps. -/
theorem settledTally_exec {s t : State} {c : Instr} (hown : tallyCommand c = false) (h : exec c s = .next t) :
    settledTally t.tally = settledTally s.tally := by
  cases hc : outsideKeep c with
  | false => exact (exec_keep s c hc t h).tally
  | true => rw [tally_exec_of_outsideKeep hc hown h]

/-- Settles O19: a control clock may take records from the FIFO, which leaves the settled tally, and the front command is not one of
the tally's own. -/
theorem onlyTheTallyChangesTheTally : Obligations.OnlyTheTallyChangesTheTally := by
  unfold Obligations.OnlyTheTallyChangesTheTally
  refine ⟨fun c s t => settledTally_exec, fun s t hown hstep => ?_⟩
  unfold step at hstep
  split at hstep
  case h_1 =>
    obtain rfl := Host.Outcome.next.inj hstep
    exact (keep_clockTick Keep.refl).tally
  case h_2 c rest hfront =>
    exact settledTally_exec (s := { s with pending := rest }) (hown c (congrArg List.head? hfront)) hstep

end Sys2Proof.Proofs.TallyApart
end

section
/-!
PROOFS. The tally's tap (R414 to R417): the record of a card enters the FIFO, and what a tally clock makes of it.
-/
namespace Sys2Proof.Proofs.TallyTap
open Sys2Proof.Machine Sys2Proof.Claims

/-! ### A record accepted (R414, R415) -/

/-- The card of a flight whose record the tally accepts: tapped, at the time of the next control clock. -/
def tappedAt (s : State) (f : Flight) : Flight := { f with tapped := true, tdone := (countClock s).time.ftime }

/-- The state with the record of a card in the FIFO. -/
def accepted (s : State) (f : Flight) (uncorrectable : Bool) : State :=
  { setFlight s (tappedAt s f) with tally := { s.tally with
      records := s.tally.records + 1, fifo := s.tally.fifo ++ [tapRec (tappedAt s f) uncorrectable] } }

theorem tapRecord_of_next {s : State} {st : Nat} {f : Flight} (h : cardNext s st = some f) (u : Bool) :
    tapRecord s st u =
      if s.tally.inService && s.tally.tapOpen && !f.tapped && decide (s.tally.fifo.length < 64) then accepted s f u else s := by
  simp only [tapRecord, h]
  rfl

theorem tapRecord_of_accepting {s : State} {st : Nat} {f : Flight} (h : cardNext s st = some f) (hserves : s.tally.inService = true)
    (hopen : s.tally.tapOpen = true) (htapped : f.tapped = false) (hroom : s.tally.fifo.length < 64) (u : Bool) :
    tapRecord s st u = accepted s f u := by
  simp [tapRecord_of_next h, hserves, hopen, htapped, hroom]

theorem tapRecord_of_refusing {s : State} {st : Nat} (h : 64 ≤ s.tally.fifo.length ∨ s.tally.tapOpen = false ∨
    s.tally.inService = false ∨ cardNext s st = none) (u : Bool) : tapRecord s st u = s := by
  cases hnext : cardNext s st with
  | none => simp only [tapRecord, hnext]
  | some f =>
    rw [tapRecord_of_next hnext]
    refine if_neg fun htake => ?_
    simp only [Bool.and_eq_true, decide_eq_true_eq] at htake
    obtain ⟨⟨⟨hserves, hopen⟩, -⟩, hroom⟩ := htake
    obtain hfull | hclosed | hout | hnone := h
    · exact absurd hroom (Nat.not_lt.mpr hfull)
    · exact Bool.noConfusion (hopen.symm.trans hclosed)
    · exact Bool.noConfusion (hserves.symm.trans hout)
    · exact absurd (hnext.symm.trans hnone) (Option.some_ne_none f)

/-- Settles O26: the tap takes the record where nothing stands in its way, and each of the four hindrances makes the card wait. -/
theorem tapRecordAccepted : Obligations.TapRecordAccepted := by
  unfold Obligations.TapRecordAccepted
  exact fun s st u => ⟨fun f hnext hserves hopen htapped hroom =>
    congrArg Host.Outcome.next (tapRecord_of_accepting hnext hserves hopen htapped hroom u),
    fun hwaits => congrArg Host.Outcome.next (tapRecord_of_refusing hwaits u)⟩

/-! ### A record counted (R415 to R417) -/

/-- However many clocks pass, the only record of the FIFO is taken once. -/
theorem takeRecords_of_single {t : Tally} {r : TapRec} (h : t.fifo = [r]) (n : Nat) :
    takeRecords t (n + 1) = countRecord { t with fifo := [] } r := by
  have hempty := countRecord_fifo { t with fifo := [] } r
  simp only [takeRecords, h]
  cases n with
  | zero => rfl
  | succ n => simp only [takeRecords, hempty]

theorem drainFifo_of_single {t : Tally} {r : TapRec} (h : t.fifo = [r]) : drainFifo t = countRecord { t with fifo := [] } r := by
  rw [drainFifo, h]
  exact takeRecords_of_single h 0

theorem countRecord_of_uncorrectable {r : TapRec} (h : r.uncorrectable = true) (t : Tally) :
    countRecord t r = { t with tapUe := satAdd t.tapUe 1 } := by
  rw [countRecord, if_pos h]
  rfl

theorem countRecord_of_no_bills {r : TapRec} (hue : r.uncorrectable = false) (h : r.bills = none) (t : Tally) :
    countRecord t r = t := by
  simp only [countRecord, hue, h, Bool.false_eq_true, if_false]

/-- The tally with a bill of calls, candidates and bytes counted into a billing domain. -/
def billed (t : Tally) (d calls candidates bytes : Nat) (tdone : BitVec 64) : Tally :=
  { t with calls := bump64 t.calls d calls, candidates := bump64 t.candidates d candidates, bytes := bump64 t.bytes d bytes,
           lastTdone := tdone }

theorem countRecord_of_bills {r : TapRec} {a b c : Nat} (hue : r.uncorrectable = false) (h : r.bills = some (a, b, c)) (t : Tally) :
    countRecord t r = billed t r.domain a b c r.tdone := by
  simp only [countRecord, hue, h, Bool.false_eq_true, if_false]
  rfl

/-- A counter is raised with saturation; one that is and stays 0 is not listed. -/
theorem smGet_bump64_self (m : SMap Nat) (d n : Nat) : smGet (bump64 m d n) d 0 = satAdd64 (smGet m d 0) n := by
  unfold bump64 satAdd64
  extract_lets v
  split
  case isTrue hzero =>
    change smGet m d 0 = v
    have hv : v = min (2 ^ 64 - 1) (smGet m d 0 + n) := rfl
    omega
  case isFalse => exact smGet_smPut_self m d v 0

theorem smGet_bump64_ne (m : SMap Nat) {d e : Nat} (h : e ≠ d) (n : Nat) : smGet (bump64 m d n) e 0 = smGet m e 0 := by
  unfold bump64
  extract_lets v
  split
  · rfl
  · exact smGet_smPut_ne m h v 0

/-! ### The bill of a descriptor (R417) -/

theorem billable_iff (f : Flight) :
    billable f = true ↔ lotFailOf f = false ∧ statusOf f ∈ [0x00, 0x01, 0x02, 0x03, 0x0B] := by
  simp only [billable, Bool.and_eq_true, Bool.not_eq_true', Bool.or_eq_true, decide_eq_true_eq, beq_iff_eq, List.mem_cons,
    List.not_mem_nil, or_false]
  exact and_congr_right fun _ => by omega

theorem bills_tapRec_of_not_billable {f : Flight} (h : billable f = false) (u : Bool) : (tapRec f u).bills = none := by
  simp only [tapRec, h, Bool.false_eq_true, if_false]

/-- The only stage has written what DONE_COUNT says. -/
theorem stageCount_of_single {f : Flight} {g : Stage} (hstages : f.stages = [g]) (hdone : f.cnt.stageDone.length ≤ 1) :
    stageCount f 0 = doneCount f := by
  have hsum : nth f.cnt.stageDone 0 0 = f.cnt.stageDone.sum := by
    match f.cnt.stageDone, hdone with
    | [], _ | [_], _ => rfl
  simp [stageCount, doneCount, hstages, hsum]

/-- The candidates and bytes of a stage of op `op` and format `fmt` that has written `n` elements. -/
def opBill (op fmt n : Nat) : Nat × Nat :=
  (if op = 0x19 then n else 0, if op = 0x20 ∨ op = 0x21 then ceilDiv (n * fmtBits fmt) 8 else 0)

theorem stageBill_of_single {f : Flight} {g : Stage} (hstages : f.stages = [g]) (hdone : f.cnt.stageDone.length ≤ 1) :
    stageBill f 0 = opBill g.op g.dst.tensor.fmt (sat32 (doneCount f)) := by
  have hstage : nth f.stages 0 {} = g := by rw [hstages]; rfl
  simp only [stageBill, hstage, stageCount_of_single hstages hdone, opBill]
  by_cases htopk : g.op = 0x19
  · simp [htopk]
  · by_cases hsends : g.op = 0x20 ∨ g.op = 0x21 <;> simp [htopk, hsends]

/-- The bill of a descriptor of one stage: a call where it has candidates. -/
theorem bills_tapRec_of_single {f : Flight} {g : Stage} (hbills : billable f = true) (hstages : f.stages = [g])
    (hdone : f.cnt.stageDone.length ≤ 1) (u : Bool) :
    (tapRec f u).bills = some (if g.op = 0x19 ∧ sat32 (doneCount f) ≠ 0 then 1 else 0,
      opBill g.op g.dst.tensor.fmt (sat32 (doneCount f))) := by
  have hcalls : (if ((opBill g.op g.dst.tensor.fmt (sat32 (doneCount f))).1 != 0) = true then 1 else 0) =
      if g.op = 0x19 ∧ sat32 (doneCount f) ≠ 0 then 1 else 0 := by
    simp only [opBill, bne_iff_ne, ite_ne_right_iff]
  have hone : (List.range f.stages.length).map (stageBill f) = [opBill g.op g.dst.tensor.fmt (sat32 (doneCount f))] := by
    rw [hstages, List.length_singleton, List.range_one, List.map_singleton, stageBill_of_single hstages hdone]
  simp only [tapRec, hbills, hone, if_true, List.any_cons, List.any_nil, Bool.or_false, List.map_cons, List.map_nil,
    List.sum_singleton, hcalls]

/-- Settles O27: the record is counted on the first clock, by its error, without a bill, or by the bill of its only stage. -/
theorem tapRecordBills : Obligations.TapRecordBills := by
  unfold Obligations.TapRecordBills
  intro t f g r hfifo
  have hdrain := drainFifo_of_single hfifo
  refine ⟨fun n => (takeRecords_of_single hfifo n).trans hdrain.symm, ?empty, ?error, ?unbilled, ?billed⟩
  case empty => rw [hdrain, countRecord_fifo]
  case error =>
    rintro rfl
    rw [hdrain, countRecord_of_uncorrectable rfl]
  case unbilled =>
    rintro rfl hnot
    have hbill : billable f = false := by
      rw [← Bool.not_eq_true, billable_iff]
      rintro ⟨hlot, hstatus⟩
      exact hnot.elim (fun h => Bool.noConfusion (hlot.symm.trans h)) (· hstatus)
    rw [hdrain, countRecord_of_no_bills rfl (bills_tapRec_of_not_billable hbill false)]
  case billed =>
    rintro rfl hstages hdone hlot hstatus
    have hbill := bills_tapRec_of_single ((billable_iff f).mpr ⟨hlot, hstatus⟩) hstages hdone false
    rw [hdrain, countRecord_of_bills rfl hbill]
    exact ⟨rfl, rfl, fun d hd => ⟨smGet_bump64_ne _ hd _, smGet_bump64_ne _ hd _, smGet_bump64_ne _ hd _⟩,
      smGet_bump64_self _ _ _, smGet_bump64_self _ _ _, smGet_bump64_self _ _ _⟩

end Sys2Proof.Proofs.TallyTap
end

section
/-!
PROOFS. The tally's statements and its flash: statements and checkpoints (R415, R419, R420, R423, R424), and the restore (R422).
-/
namespace Sys2Proof.Proofs.TallyFlash
open Sys2Proof.Machine Sys2Proof.Claims
open Sys2Proof.Proofs.TimeFrames (length_leBytes)

/-! ### What counting the FIFO changes (R415) -/

/-- A tally with the FIFO and the counters of another, the only parts that counting a record reads or changes. -/
def withCounts (w t : Tally) : Tally :=
  { w with fifo := t.fifo, tapUe := t.tapUe, calls := t.calls, candidates := t.candidates, bytes := t.bytes,
           lastTdone := t.lastTdone }

theorem countRecord_withCounts (w t : Tally) (r : TapRec) :
    countRecord (withCounts w t) r = withCounts w (countRecord t r) := by
  unfold countRecord
  split
  · rfl
  · split <;> rfl

theorem takeRecords_withCounts (w : Tally) (k : Nat) : ∀ t : Tally,
    takeRecords (withCounts w t) k = withCounts w (takeRecords t k) := by
  induction k with
  | zero => intro t; rfl
  | succ k ih =>
    intro t
    have hfifo : (withCounts w t).fifo = t.fifo := rfl
    cases ht : t.fifo with
    | nil => simp only [takeRecords, hfifo, ht]
    | cons r rest =>
      simp only [takeRecords, hfifo, ht]
      rw [← ih, ← countRecord_withCounts]
      rfl

theorem drainFifo_withCounts (w t : Tally) : drainFifo (withCounts w t) = withCounts w (drainFifo t) :=
  takeRecords_withCounts w t.fifo.length t

/-- Counting the FIFO leaves everything but the counters as it was. -/
theorem drainFifo_eq_withCounts (t : Tally) : drainFifo t = withCounts t (drainFifo t) := drainFifo_withCounts t t

@[simp] theorem drainFifo_stmtSeq (t : Tally) : (drainFifo t).stmtSeq = t.stmtSeq := by rw [drainFifo_eq_withCounts, withCounts]
@[simp] theorem drainFifo_ckptSeq (t : Tally) : (drainFifo t).ckptSeq = t.ckptSeq := by rw [drainFifo_eq_withCounts, withCounts]
@[simp] theorem drainFifo_records (t : Tally) : (drainFifo t).records = t.records := by rw [drainFifo_eq_withCounts, withCounts]
@[simp] theorem drainFifo_cur (t : Tally) : (drainFifo t).cur = t.cur := by rw [drainFifo_eq_withCounts, withCounts]
@[simp] theorem drainFifo_bufA (t : Tally) : (drainFifo t).bufA = t.bufA := by rw [drainFifo_eq_withCounts, withCounts]
@[simp] theorem drainFifo_nextSlot (t : Tally) : (drainFifo t).nextSlot = t.nextSlot := by rw [drainFifo_eq_withCounts, withCounts]

@[simp] theorem drainFifo_drainFifo (t : Tally) : drainFifo (drainFifo t) = drainFifo t := takeRecords_all t.fifo.length t

theorem fifo_takeRecords (k : Nat) : ∀ t : Tally, (takeRecords t k).fifo = t.fifo.drop k := by
  induction k with
  | zero => intro t; rfl
  | succ k ih =>
    intro t
    cases ht : t.fifo with
    | nil => simp only [takeRecords, ht, List.drop_nil]
    | cons r rest => simp only [takeRecords, ht, ih, countRecord_fifo, List.drop_succ_cons]

@[simp] theorem drainFifo_fifo (t : Tally) : (drainFifo t).fifo = [] := by
  rw [drainFifo, fifo_takeRecords, List.drop_length]

/-! ### Statements (R423, R424) -/

theorem length_stmtBody (t : Tally) (flags : Nat) : (stmtBody t flags).length = 0x7BC := by
  simp only [stmtBody, List.length_append, length_leBytes, List.length_map, List.length_range, List.length_flatMap,
    List.length_replicate, List.map_const', List.sum_replicate_nat]

theorem length_stmtBytes (t : Tally) (flags : Nat) : (stmtBytes t flags).length = 2048 := by
  simp [stmtBytes, length_stmtBody, length_leBytes]

/-- A statement up to its LINEAGE. -/
def stmtHead (t : Tally) : List Byte := leBytes 4 0xB0DED7A1 ++ leBytes 4 0x00010002 ++ leBytes 8 t.lineage.toNat

theorem length_stmtHead (t : Tally) : (stmtHead t).length = 0x10 := by
  simp [stmtHead, length_leBytes]

/-- STMT_SEQ and CKPT_SEQ follow the head of a statement. -/
theorem stmtBytes_eq_head (t : Tally) (flags : Nat) : ∃ rest,
    stmtBytes t flags = stmtHead t ++ (leBytes 8 t.stmtSeq ++ (leBytes 8 t.ckptSeq ++ rest)) := by
  simp only [stmtBytes, stmtBody, stmtHead, List.append_assoc]
  exact ⟨_, rfl⟩

theorem stmtBytes_stmtSeq (t : Tally) (flags : Nat) : ((stmtBytes t flags).drop 0x10).take 8 = leBytes 8 t.stmtSeq := by
  obtain ⟨rest, hbytes⟩ := stmtBytes_eq_head t flags
  rw [hbytes, List.drop_left' (length_stmtHead t), List.take_left' (length_leBytes 8 _)]

theorem stmtBytes_ckptSeq (t : Tally) (flags : Nat) : ((stmtBytes t flags).drop 0x18).take 8 = leBytes 8 t.ckptSeq := by
  obtain ⟨rest, hbytes⟩ := stmtBytes_eq_head t flags
  have hskip : (stmtHead t ++ leBytes 8 t.stmtSeq).length = 0x18 := by
    rw [List.length_append, length_stmtHead, length_leBytes]
  rw [hbytes, ← List.append_assoc, List.drop_left' hskip, List.take_left' (length_leBytes 8 _)]

/-- The buffer that does not hold the newest statement takes `bs`, and holds the newest from then on. -/
def swapped (t : Tally) (bs : List Byte) : Tally :=
  { t with cur := !t.cur, bufA := if t.cur then bs else t.bufA, bufB := if t.cur then t.bufB else bs }

theorem putStatement_of_filled {t : Tally} (h : t.bufA ≠ []) (draw : Nat) (bs : List Byte) :
    putStatement draw t bs = swapped t bs := by
  have hfilled : t.bufA.isEmpty = false := List.isEmpty_eq_false_iff.mpr h
  cases hcur : t.cur <;> simp [putStatement, swapped, hfilled, hcur]

/-- The tally as a STATEMENT finds it to record: one second and one number further on. -/
def numbered (t : Tally) : Tally := { t with stmtSeq := t.stmtSeq + 1, ticks := t.ticks + 100000000 }

theorem statement_of_filled {s : State} (hserves : s.tally.inService = true) (hfilled : s.tally.bufA ≠ []) :
    statement s = { drawn s with tally := swapped (numbered s.tally) (stmtBytes (numbered s.tally) 0) } := by
  have hput : statement s =
      { drawn s with tally := putStatement s.draw (numbered s.tally) (stmtBytes (numbered s.tally) 0) } := if_pos hserves
  rw [hput, putStatement_of_filled (t := numbered s.tally) hfilled]

/-! ### Checkpoints (R419, R420) -/

theorem writeSlot_eq (t : Tally) (bs : List Byte) :
    writeSlot t bs = { t with flash := (writeSlot t bs).flash, nextSlot := (t.nextSlot % 1024 + 1) % 1024 } := rfl

theorem smGet_flash_writeSlot (t : Tally) (bs : List Byte) : smGet (writeSlot t bs).flash (t.nextSlot % 1024) [] = bs := by
  rw [writeSlot]
  exact smGet_smPut_self _ _ _ _

/-- The tally that a checkpoint records: the FIFO counted, and the next numbers taken. -/
def checkpointed (t : Tally) : Tally :=
  { drainFifo t with stmtSeq := t.stmtSeq + 1, ckptSeq := t.ckptSeq + 1 }

theorem checkpoint_of_filled {t : Tally} (h : t.bufA ≠ []) (draw flags : Nat) :
    checkpoint draw t flags =
      swapped (writeSlot (checkpointed t) (stmtBytes (checkpointed t) flags)) (stmtBytes (checkpointed t) flags) := by
  have hfilled : (drainFifo t).bufA ≠ [] := by rwa [drainFifo_bufA]
  have hnumbers : { drainFifo t with stmtSeq := (drainFifo t).stmtSeq + 1, ckptSeq := (drainFifo t).ckptSeq + 1 } =
      checkpointed t := by rw [drainFifo_stmtSeq, drainFifo_ckptSeq, checkpointed]
  simp only [checkpoint, hnumbers]
  exact putStatement_of_filled (t := writeSlot (checkpointed t) _) hfilled draw _

/-- The tally whose tap a final checkpoint has closed, some part of a second after the last statement. -/
def closing (s : State) : Tally :=
  { s.tally with tapOpen := false, ticks := s.tally.ticks + Config.freeKey s.draw % 100000000 }

/-- The same, with the FIFO counted. -/
def closed (s : State) : Tally := drainFifo (closing s)

/-- Closing the tap does not change what the FIFO is counted into. -/
theorem closed_eq (s : State) : closed s = withCounts (closing s) (drainFifo s.tally) :=
  drainFifo_withCounts (closing s) s.tally

/-- The tally at the end of a final checkpoint, whose record is completed or cut off. -/
def finalTally (s : State) (completes : Bool) : Tally :=
  { (if completes then checkpoint s.draw (closed s) 3 else writeSlot (closed s) (Config.cutOffSlot s.draw)) with
    inService := false }

theorem finalCheckpoint_of_open {s : State} (hserves : s.tally.inService = true) (hopen : s.tally.tapOpen = true) (b : Bool) :
    finalCheckpoint s b = { drawn s with tally := finalTally s b } :=
  if_pos (by rw [hserves, hopen]; rfl)

/-- What a final checkpoint leaves, whether its record is completed or not: the slot is used up and the counters are those of the FIFO
counted. -/
theorem finalTally_fields {s : State} (hfilled : s.tally.bufA ≠ []) (b : Bool) :
    (finalTally s b).tapOpen = false ∧ (finalTally s b).nextSlot = (s.tally.nextSlot % 1024 + 1) % 1024 ∧
    (finalTally s b).fifo = [] ∧ (finalTally s b).calls = (drainFifo s.tally).calls ∧
    (finalTally s b).candidates = (drainFifo s.tally).candidates ∧ (finalTally s b).bytes = (drainFifo s.tally).bytes ∧
    (finalTally s b).ckptSeq = if b then s.tally.ckptSeq + 1 else s.tally.ckptSeq := by
  have hempty : (drainFifo s.tally).fifo = [] := drainFifo_fifo _
  cases b with
  | false =>
    rw [finalTally, closed_eq, writeSlot_eq]
    exact ⟨rfl, rfl, hempty, rfl, rfl, rfl, rfl⟩
  | true =>
    have hcounted : drainFifo (closed s) = closed s := drainFifo_drainFifo _
    have hbuf : (closed s).bufA ≠ [] := by rwa [closed, drainFifo_bufA]
    rw [finalTally, if_pos rfl, checkpoint_of_filled hbuf, writeSlot_eq, checkpointed, hcounted, closed_eq]
    exact ⟨rfl, rfl, hempty, rfl, rfl, rfl, rfl⟩

/-- Settles O28, with the ticks of a statement by log 101, the record that may be cut off by log 11 and the end of service by
log 20. -/
theorem statementsAndCheckpoints : Obligations.StatementsAndCheckpoints := by
  unfold Obligations.StatementsAndCheckpoints
  rintro s hserves hfilled _ rfl
  refine ⟨?statement, fun hopen => ?periodic, fun hopen b => ?final⟩
  case statement =>
    exact ⟨stmtBytes (numbered s.tally) 0, length_stmtBytes _ _, stmtBytes_stmtSeq _ _,
      congrArg Host.Outcome.next (statement_of_filled hserves hfilled)⟩
  case periodic =>
    have hexec : exec .periodicCheckpoint s = .next { drawn s with tally := checkpoint s.draw s.tally 1 } :=
      congrArg Host.Outcome.next (if_pos (by rw [hserves, hopen]; rfl))
    rw [checkpoint_of_filled hfilled] at hexec
    have hslot : (checkpointed s.tally).nextSlot = s.tally.nextSlot := drainFifo_nextSlot _
    refine ⟨_, _, length_stmtBytes (checkpointed s.tally) 1, stmtBytes_ckptSeq _ _, hexec, rfl, rfl, ?cur, ?written, ?next,
      drainFifo_fifo _, rfl, drainFifo_records _, rfl⟩
    case cur => exact congrArg (!·) (drainFifo_cur s.tally)
    case written => exact hslot ▸ smGet_flash_writeSlot (checkpointed s.tally) _
    case next => exact congrArg (fun n => (n % 1024 + 1) % 1024) hslot
  case final =>
    obtain ⟨htap, hslot, hempty, hcalls, hcandidates, hbytes, hseq⟩ := finalTally_fields hfilled b
    exact ⟨_, congrArg Host.Outcome.next (finalCheckpoint_of_open hserves hopen b), htap, rfl, hslot, hempty, hcalls, hcandidates,
      hbytes, hseq, rfl⟩

/-! ### The restore (R422) -/

theorem not_slotValid_of_bestSlot {fl : SMap (List Byte)} (h : bestSlot fl = none) : ∀ e ∈ fl, slotValid e.2 = false := by
  induction fl with
  | nil => intro e he; cases he
  | cons x r ih =>
    rw [bestSlot] at h
    cases hrest : bestSlot r with
    | none =>
      simp only [hrest, ite_eq_right_iff, reduceCtorEq, imp_false, Bool.not_eq_true] at h
      exact List.forall_mem_cons.mpr ⟨h, ih hrest⟩
    | some b =>
      rw [hrest] at h
      dsimp only at h
      split at h <;> cases h

theorem tallyRestore_of_out {s : State} (h : s.tally.inService = false) :
    tallyRestore s = { drawn s with tally := restored s.draw s.tally } :=
  if_neg (by rw [h]; exact Bool.false_ne_true)

/-- Settles O29: with no valid record all are rejected; otherwise the numbers are the record's, with one more loss where it is not
FINAL. -/
theorem tallyRestores : Obligations.TallyRestores := by
  unfold Obligations.TallyRestores
  intro s hout
  have hexec : exec .tallyRestore s = .next { drawn s with tally := restored s.draw s.tally } :=
    congrArg Host.Outcome.next (tallyRestore_of_out hout)
  refine ⟨fun hnone => ?lineage, fun j bs hbest => ?resumed⟩
  case lineage =>
    have hrejects : s.tally.flash.filter (fun e => !slotValid e.2) = s.tally.flash :=
      List.filter_eq_self.mpr fun e he => by rw [not_slotValid_of_bestSlot hnone e he]; rfl
    refine ⟨_, hexec, ?_⟩
    rw [restored, hnone, hrejects]
    exact ⟨rfl, rfl, rfl, rfl, rfl, rfl, rfl, rfl, rfl, rfl, rfl, rfl, rfl, rfl, rfl⟩
  case resumed =>
    refine ⟨_, hexec, ?_⟩
    rw [restored, hbest]
    refine ⟨rfl, rfl, rfl, rfl, rfl, rfl, ?_⟩
    simp only [beq_iff_eq, satAdd, sat32]

end Sys2Proof.Proofs.TallyFlash
end

section
/-!
PROOFS. The TALLY window and HOLDUP (R418, R428, R493), and the report of cards that wait for the tally (R415, R483).
-/
namespace Sys2Proof.Proofs.TallyWindow
open Sys2Proof.Machine Sys2Proof.Claims
open Sys2Proof.Proofs.TimePulses (emit_of_empty_queue)

theorem tallyAttempt_of_serving {s : State} (h : s.tally.inService = true) :
    tallyAttempt s = { s with tally := { s.tally with writeAttempts := satAdd s.tally.writeAttempts 1 } } :=
  if_pos h

/-- A finished descriptor whose record is not taken is one card that waits. -/
theorem cardsWaiting_ne_zero {s : State} {st : Nat} {f : Flight} (hst : st < 256) (h : cardReady s st = some f)
    (htapped : f.tapped = false) : cardsWaiting s ≠ 0 := by
  refine Nat.ne_of_gt (List.length_pos_of_mem (a := st) (List.mem_filter.mpr ⟨List.mem_range.mpr hst, ?_⟩))
  rw [h]
  exact congrArg (!·) htapped

/-- TALLY_WAIT's event: TALLY.STATUS as it reads, and the number of cards. -/
def waitEvent (s : State) : Event := { code := 0x0B, args := [(tallyRead s 4).toNat, cardsWaiting s] }

theorem tallyWait_of_waiting {s : State} (hout : s.tally.inService = false) (h : cardsWaiting s ≠ 0) :
    tallyWait s = emit s (waitEvent s) :=
  if_neg (by simp [hout, h])

theorem tallyWait_of_serving {s : State} (h : s.tally.inService = true) : tallyWait s = s :=
  if_pos (by rw [h, Bool.true_or])

/-- Settles O30: the report enters an empty event queue at the time of its clock. -/
theorem tallyWindowAndHoldup : Obligations.TallyWindowAndHoldup := by
  unfold Obligations.TallyWindowAndHoldup
  refine ⟨fun s src off hserves => congrArg Host.Outcome.next (tallyAttempt_of_serving hserves), fun s => ⟨rfl, rfl⟩,
    fun s st f hout hready htapped hempty => ?report, fun s hserves => congrArg Host.Outcome.next (tallyWait_of_serving hserves)⟩
  case report =>
    have hwait : cardsWaiting s ≠ 0 := cardsWaiting_ne_zero st.isLt hready htapped
    have hevent := (tallyWait_of_waiting hout hwait).trans (emit_of_empty_queue hempty (waitEvent s))
    exact congrArg Host.Outcome.next hevent

end Sys2Proof.Proofs.TallyWindow
end

section
/-!
PROOFS. The test access port and the thermal trip (R500, R506, R507): what each instruction of the port does, and what no other
command and no control clock changes.
-/
namespace Sys2Proof.Proofs.TestAccessPort
open Sys2Proof.Machine Sys2Proof.Claims

/-! ### The instructions of the port -/

/-- The selected instruction shown on the pins: the boundary scan register, by an instruction that drives the pins while PORST_N is
low. -/
theorem showPins_selectIr (s : State) {i : JInstr} (h : (i == .extest || i == .clamp) = true) :
    showPins (selectIr s i) = { s with
      jtag := { s.jtag with ir := i, inReset := false }
      outbox := (if s.boot.porstLow then [.jtagPins s.jtag.bsr] else []) ++ s.outbox } := by
  unfold showPins pinsDriven
  change (match if s.boot.porstLow && (i == .extest || i == .clamp) then some s.jtag.bsr else none with
    | some v => sendOut (selectIr s i) (.jtagPins v)
    | none => selectIr s i) = _
  rw [h, Bool.and_true]
  cases s.boot.porstLow <;> rfl

/-- Settles O10. -/
theorem tapInstructionsSelect : Obligations.TapInstructionsSelect := by
  unfold Obligations.TapInstructionsSelect
  intro s
  refine ⟨rfl, rfl, rfl, ?extest, ?clamp, rfl, fun v => rfl, Config.pinSample s.draw, rfl⟩
  case extest => exact congrArg Host.Outcome.next (showPins_selectIr s (i := .extest) rfl)
  case clamp => exact congrArg Host.Outcome.next (showPins_selectIr s (i := .clamp) rfl)

/-! ### What the other commands leave of the port -/

/-- The tally's own commands reach neither the port nor the thermal latch. -/
theorem jtag_therm_exec_of_tallyCommand {s t : State} {c : Instr} (hc : tallyCommand c = true) (h : exec c s = .next t) :
    t.jtag = s.jtag ∧ t.thermTrip = s.thermTrip := by
  cases c with
  | tallyHoldup | refclkRestored =>
    obtain rfl := Host.Outcome.next.inj h
    exact ⟨rfl, rfl⟩
  | tapRecord st uncorrectable =>
    obtain rfl := Host.Outcome.next.inj h
    unfold tapRecord
    split
    · exact ⟨rfl, rfl⟩
    · dsimp only
      split <;> exact ⟨rfl, rfl⟩
  | statement =>
    obtain rfl := Host.Outcome.next.inj h
    unfold Machine.statement
    split <;> exact ⟨rfl, rfl⟩
  | periodicCheckpoint =>
    obtain rfl := Host.Outcome.next.inj h
    unfold periodic
    split <;> exact ⟨rfl, rfl⟩
  | finalCheckpoint completes =>
    obtain rfl := Host.Outcome.next.inj h
    unfold Machine.finalCheckpoint
    split <;> exact ⟨rfl, rfl⟩
  | tallyRestore =>
    obtain rfl := Host.Outcome.next.inj h
    unfold Machine.tallyRestore
    split <;> exact ⟨rfl, rfl⟩
  | _ => exact Bool.noConfusion hc

/-- Outside what every operation keeps stand the port's instructions, the tally's own commands and the thermal trip. -/
theorem outsideKeep_cases {c : Instr} (hc : outsideKeep c = true) :
    tapCommand c = true ∨ tallyCommand c = true ∨ c = .thermTrip := by
  cases c with
  | extest | idcode | samplePreload | clamp | highz | bypass | testLogicReset => exact .inl rfl
  | tapRecord | periodicCheckpoint | statement | finalCheckpoint | tallyRestore | tallyHoldup | refclkRestored =>
    exact .inr (.inl rfl)
  | thermTrip => exact .inr (.inr rfl)
  | _ => exact Bool.noConfusion hc

/-- Only the seven instructions of the port change its state. -/
theorem jtag_exec {s t : State} {c : Instr} (htap : tapCommand c = false) (h : exec c s = .next t) : t.jtag = s.jtag := by
  cases hc : outsideKeep c with
  | false => exact (exec_keep s c hc t h).jtag
  | true =>
    obtain hport | htally | rfl := outsideKeep_cases hc
    · exact Bool.noConfusion (hport.symm.trans htap)
    · exact (jtag_therm_exec_of_tallyCommand htally h).1
    · exact Host.Outcome.next.inj h ▸ rfl

theorem jtag_showPins (s : State) : (showPins s).jtag = s.jtag := by
  unfold showPins
  split <;> rfl

/-- The port is in Test-Logic-Reset only with IDCODE selected (R506). -/
def IdcodeInReset (s : State) : Prop := s.jtag.inReset = true → s.jtag.ir = .idcode

theorem IdcodeInReset.of_jtag {s t : State} (h : t.jtag = s.jtag) (hs : IdcodeInReset s) : IdcodeInReset t := by
  unfold IdcodeInReset
  rw [h]
  exact hs

/-- The port out of Test-Logic-Reset. -/
theorem IdcodeInReset.of_left {t : State} (h : t.jtag.inReset = false) : IdcodeInReset t :=
  fun hin => Bool.noConfusion (h.symm.trans hin)

/-- Six instructions of the port take it out of Test-Logic-Reset, and TEST_LOGIC_RESET selects IDCODE. -/
theorem idcodeInReset_exec_of_tapCommand {s t : State} {c : Instr} (htap : tapCommand c = true) (h : exec c s = .next t) :
    IdcodeInReset t := by
  cases c with
  | testLogicReset =>
    obtain rfl := Host.Outcome.next.inj h
    exact fun _ => rfl
  | extest | clamp =>
    obtain rfl := Host.Outcome.next.inj h
    exact .of_left (congrArg Jtag.inReset (jtag_showPins _))
  | samplePreload load =>
    obtain rfl := Host.Outcome.next.inj h
    cases load <;> exact .of_left rfl
  | idcode | highz | bypass =>
    obtain rfl := Host.Outcome.next.inj h
    exact .of_left rfl
  | _ => exact Bool.noConfusion htap

theorem idcodeInReset_exec {s t : State} {c : Instr} (hs : IdcodeInReset s) (h : exec c s = .next t) : IdcodeInReset t := by
  cases htap : tapCommand c with
  | false => exact hs.of_jtag (jtag_exec htap h)
  | true => exact idcodeInReset_exec_of_tapCommand htap h

/-- Settles O6: a control clock keeps the port, and the front command keeps the invariant. -/
theorem stepKeepsTestLogicReset : Obligations.StepKeepsTestLogicReset := by
  unfold Obligations.StepKeepsTestLogicReset
  refine ⟨fun s t hs hstep => ?_, fun c s t => jtag_exec⟩
  unfold step at hstep
  split at hstep
  case h_1 =>
    obtain rfl := Host.Outcome.next.inj hstep
    exact IdcodeInReset.of_jtag (keep_clockTick Keep.refl).jtag hs
  case h_2 c rest hfront => exact idcodeInReset_exec (s := { s with pending := rest }) hs hstep

/-! ### The thermal trip -/

/-- No instruction of the port reaches the thermal latch. -/
theorem therm_exec_of_tapCommand {s t : State} {c : Instr} (hc : tapCommand c = true) (h : exec c s = .next t) :
    t.thermTrip = s.thermTrip := by
  cases c with
  | extest | clamp =>
    obtain rfl := Host.Outcome.next.inj h
    unfold showPins
    split <;> rfl
  | samplePreload load =>
    obtain rfl := Host.Outcome.next.inj h
    cases load <;> rfl
  | idcode | highz | bypass | testLogicReset =>
    obtain rfl := Host.Outcome.next.inj h
    rfl
  | _ => exact Bool.noConfusion hc

/-- No command raises THERM_TRIP_N again. -/
theorem therm_exec {s t : State} {c : Instr} (hs : s.thermTrip = true) (h : exec c s = .next t) : t.thermTrip = true := by
  cases hc : outsideKeep c with
  | false => exact (exec_keep s c hc t h).therm.trans hs
  | true =>
    obtain hport | htally | rfl := outsideKeep_cases hc
    · exact (therm_exec_of_tapCommand hport h).trans hs
    · exact (jtag_therm_exec_of_tallyCommand htally h).2.trans hs
    · exact Host.Outcome.next.inj h ▸ rfl

/-- Settles O7: the latch is set by a trip, and neither a control clock nor a command clears it. -/
theorem thermTripStaysLow : Obligations.ThermTripStaysLow := by
  unfold Obligations.ThermTripStaysLow
  refine ⟨fun s => rfl, fun s t hs hstep => ?_⟩
  unfold step at hstep
  split at hstep
  case h_1 =>
    obtain rfl := Host.Outcome.next.inj hstep
    exact (keep_clockTick Keep.refl).therm.trans hs
  case h_2 c rest hfront => exact therm_exec (s := { s with pending := rest }) hs hstep

/-! ### The machine right after reset -/

/-- Settles O8: the reset memory lists no cell and no sideband. -/
theorem resetMeetsInvariants : Obligations.ResetMeetsInvariants := by
  unfold Obligations.ResetMeetsInvariants
  exact ⟨rfl, rfl, rfl, rfl, fun k => rfl, fun b => rfl⟩

/-- Settles O9. -/
theorem resetRegistersRead : Obligations.ResetRegistersRead := by
  unfold Obligations.ResetRegistersRead
  rfl

end Sys2Proof.Proofs.TestAccessPort
end

section
/-!
PROOFS. The management port's bus: the I3C common commands (R474) and the MCTP control messages (R475) of a block out of reset.
-/
namespace Sys2Proof.Proofs.ManagementBus
open Sys2Proof.Machine
open Sys2Proof.Proofs.TimeFrames (length_leBytes)

/-! ### Answers on the bus -/

theorem setMgmt_of_alive {s : State} (h : alive s = true) (f : Mgmt → Mgmt) : setMgmt s f = { s with mgmt := f s.mgmt } :=
  if_pos h

theorem i3cAnswer_of_alive {s : State} (h : alive s = true) (code : Nat) (body : List Byte) :
    i3cAnswer s code body = { s with outbox := .i3c code body :: s.outbox } :=
  if_pos h

theorem mctpAnswer_of_alive {s : State} (h : alive s = true) (code : Nat) (body : List Byte) :
    mctpAnswer s code body = { s with outbox := .mctp code body :: s.outbox } :=
  if_pos h

theorem length_beBytes (n v : Nat) : (beBytes n v).length = n := by
  rw [beBytes, List.length_reverse, length_leBytes]

/-! ### I3C common commands (R474) -/

theorem setdasa_of_free {s : State} (h : alive s = true) (hfree : s.mgmt.da = none) (a : BitVec 7) :
    exec (.setdasa a) s = .next { s with mgmt := { s.mgmt with da := some a } } := by
  change Host.Outcome.next (setMgmt s _) = _
  rw [setMgmt_of_alive h, hfree]
  rfl

theorem setdasa_of_addressed {s : State} (h : alive s = true) {b : BitVec 7} (hda : s.mgmt.da = some b) (a : BitVec 7) :
    exec (.setdasa a) s = .next s := by
  change Host.Outcome.next (setMgmt s _) = _
  rw [setMgmt_of_alive h, hda]
  rfl

/-- What ENTDAA sends: the target's 48-bit identity, its BCR and its DCR. -/
def identity : List Byte := beBytes 6 Config.i3cPid.toNat ++ [Config.i3cBcr, Config.i3cDcr]

theorem length_identity : identity.length = 8 := by
  rw [identity, List.length_append, length_beBytes]
  rfl

theorem entdaa_of_free {s : State} (h : alive s = true) (hfree : s.mgmt.da = none) (a : BitVec 7) :
    exec (.entdaa a) s =
      .next { s with mgmt := { s.mgmt with da := some a }, outbox := .i3c 0x07 identity :: s.outbox } := by
  change Host.Outcome.next (entdaa s a) = _
  rw [entdaa, hfree, if_pos Option.isNone_none, setMgmt_of_alive h]
  exact congrArg Host.Outcome.next (i3cAnswer_of_alive (s := { s with mgmt := { s.mgmt with da := some a } }) h 0x07 identity)

theorem entdaa_of_addressed {s : State} {b : BitVec 7} (hda : s.mgmt.da = some b) (a : BitVec 7) :
    exec (.entdaa a) s = .next s := by
  change Host.Outcome.next (entdaa s a) = _
  rw [entdaa, hda]
  rfl

/-- Settles O11, with the layouts of log 10. -/
theorem i3cCommands : Obligations.I3cCommands := by
  unfold Obligations.I3cCommands
  refine ⟨fun s a h => ⟨fun hfree => ?free, fun b hda => ?addressed, ?rstdaa⟩, fun s e n h => ⟨?enec, ?disec, ?setmwl, ?setmrl⟩⟩
  case free => exact ⟨setdasa_of_free h hfree a, identity, length_identity, entdaa_of_free h hfree a⟩
  case addressed => exact ⟨setdasa_of_addressed h hda a, entdaa_of_addressed hda a⟩
  case rstdaa => exact congrArg Host.Outcome.next (setMgmt_of_alive h _)
  case enec =>
    refine congrArg Host.Outcome.next ((setMgmt_of_alive h _).trans ?_)
    cases e.getLsbD 0 <;> simp
  case disec =>
    refine congrArg Host.Outcome.next ((setMgmt_of_alive h _).trans ?_)
    cases e.getLsbD 0 <;> simp
  case setmwl => exact congrArg Host.Outcome.next (setMgmt_of_alive h _)
  case setmrl => exact congrArg Host.Outcome.next (setMgmt_of_alive h _)

/-- Settles O12: the contents that are not given are those of the Config (log 10). -/
theorem i3cQueriesAnswer : Obligations.I3cQueriesAnswer := by
  unfold Obligations.I3cQueriesAnswer
  intro s h
  have answered : ∀ (code : Nat) (body : List Byte), (Host.Outcome.next (i3cAnswer s code body) : Res) =
      .next { s with outbox := .i3c code body :: s.outbox } := fun code body => congrArg _ (i3cAnswer_of_alive h code body)
  exact ⟨⟨_, length_beBytes 6 _, answered 0x8D _⟩, ⟨_, answered 0x8E _⟩, ⟨_, answered 0x8F _⟩,
    ⟨_, length_beBytes 2 _, answered 0x90 _⟩, answered 0x8B _, _, answered 0x8C _⟩

/-! ### MCTP control messages (R475) -/

theorem setEid_of_valid {s : State} (h : alive s = true) {e : Byte} (h0 : e ≠ 0x00#8) (hFF : e ≠ 0xFF#8) :
    setEid s e = { s with mgmt := { s.mgmt with eid := e }, outbox := .mctp 0x01 [0#8, 0#8, e, 0#8] :: s.outbox } := by
  rw [setEid, if_pos h, if_neg (by simp [h0, hFF])]
  exact mctpAnswer_of_alive (s := { s with mgmt := { s.mgmt with eid := e } }) h _ _

theorem setEid_of_invalid {s : State} (h : alive s = true) {e : Byte} (he : e = 0x00#8 ∨ e = 0xFF#8) :
    setEid s e = { s with outbox := .mctp 0x01 [2#8] :: s.outbox } := by
  rw [setEid, if_pos h, if_pos he, mctpAnswer_of_alive h]

theorem vendorSupport_zero (s : State) :
    vendorSupport s 0 = mctpAnswer s 0x06
      ([0x00#8, 0xFF#8, 0x01#8, 0x00#8, 0x00#8, 0xD1#8, 0xA7#8] ++ beBytes 2 Config.mctpVendorSet.toNat) :=
  if_pos rfl

theorem vendorSupport_of_ne {e : Byte} (h : e ≠ 0#8) (s : State) : vendorSupport s e = mctpAnswer s 0x06 [0x02#8] := if_neg h

/-- Settles O13, with the layouts of log 10. -/
theorem mctpControlAnswers : Obligations.MctpControlAnswers := by
  unfold Obligations.MctpControlAnswers
  intro s e h
  have answered : ∀ (code : Nat) (body : List Byte), (Host.Outcome.next (mctpAnswer s code body) : Res) =
      .next { s with outbox := .mctp code body :: s.outbox } := fun code body => congrArg _ (mctpAnswer_of_alive h code body)
  exact ⟨fun h0 hFF => congrArg _ (setEid_of_valid h h0 hFF), fun he => congrArg _ (setEid_of_invalid h he), answered 0x02 _,
    answered 0x05 _, ⟨_, answered 0x04 _⟩,
    ⟨_, length_beBytes 2 _, (congrArg _ (vendorSupport_zero s)).trans (answered 0x06 _)⟩,
    fun he => (congrArg _ (vendorSupport_of_ne he s)).trans (answered 0x06 _)⟩

end Sys2Proof.Proofs.ManagementBus
end

section
/-!
PROOFS. The cellar book with its send queue (R480 to R484), and the requests of the management agent (R476 to R479).
-/
namespace Sys2Proof.Proofs.ManagementAgent
open Sys2Proof.Machine
open Sys2Proof.Proofs.Registers (regRead_of_no_shadow)

/-! ### The book and the send queue -/

/-- The book once its oldest queued event is recorded (R482). -/
def recorded (s : State) (e : Event) (rest : List Event) : State :=
  { s with book := { s.book with
      queue := rest, head := s.book.head + 1,
      recs := smPut s.book.recs (s.book.head.toNat % 8192) { seq := s.book.head, ev := e } } }

/-- What BOOK_WRITE gives the send queue. -/
def ownEvent (s : State) (e : Event) : SendEv :=
  { origin := BitVec.ofNat 16 (nodeId s), item := { seq := s.book.head, ev := e } }

theorem bookWrite_of_queue {s : State} {e : Event} {rest : List Event} (hq : s.book.queue = e :: rest) :
    bookWrite s = if classA e.code || rbit s 0xF004 31 then queueSend (recorded s e rest) (ownEvent s e)
      else recorded s e rest := by
  rw [bookWrite, hq]
  rfl

theorem evtNode_of_disabled {s : State} (h : rbit s 0xF014 31 = false) : evtNode s = none := by
  have hbit : bitAt (rget s 0xF014) 31 = false := h
  rw [evtNode, hbit]
  rfl

/-- An event that finds room is queued, and is sent to no other node where MGMT.EVT_NODE names none. -/
theorem queueSend_of_room {s : State} (hroom : s.book.send.length < 64) (hnode : rbit s 0xF014 31 = false) (e : SendEv) :
    queueSend s e = { s with book := { s.book with send := s.book.send ++ [e] } } := by
  rw [queueSend, if_pos hroom]
  have silent : evtNode { s with book := { s.book with send := s.book.send ++ [e] } } = none := evtNode_of_disabled hnode
  simp only [silent]

/-- Settles O14. -/
theorem bookWriteAppends : Obligations.BookWriteAppends := by
  unfold Obligations.BookWriteAppends
  intro s e rest hq
  refine ⟨fun hclass hsendB => congrArg Host.Outcome.next ?classB, fun hclass hroom hnode => congrArg Host.Outcome.next ?classA⟩
  case classB =>
    rw [bookWrite_of_queue hq, hclass, hsendB]
    rfl
  case classA =>
    rw [bookWrite_of_queue hq, hclass, Bool.true_or, if_pos rfl]
    exact queueSend_of_room (s := recorded s e rest) hroom hnode _

/-- PRIVATE_READ of a send queue whose oldest event has not been delivered, and is not sent again. -/
theorem privateRead_of_fresh {s : State} {e : SendEv} {rest : List SendEv} (h : alive s = true) (hibi : s.mgmt.ibi = true)
    (hsend : s.book.send = e :: rest) (hnew : e.delivered = false) (hfirst : e.again = false) :
    privateRead s = { s with
      book := { s.book with send := { e with delivered := true } :: rest }
      outbox := .mgmtEvent e.origin e.item :: s.outbox } := by
  have raised : ibiRaised s = true := by rw [ibiRaised, h, hibi, hsend]; rfl
  have oldest : s.book.send.find? (fun e => !e.delivered) = some e := by simp [hsend, hnew]
  have marked : deliverFirst s.book.send = { e with delivered := true } :: rest := by simp [hsend, deliverFirst, hnew, hfirst]
  simp only [privateRead, raised, oldest, hfirst, marked, if_true, Bool.false_eq_true, if_false]
  rfl

theorem eventAck_of_alive {s : State} (h : alive s = true) (n : Word) :
    eventAck s n = { s with book := { s.book with send := s.book.send.filter (fun e => (n - e.item.seq).slt 0) } } := by
  simp only [eventAck, h, if_true, atOrAfter, Bool.not_not]

/-- Settles O15, where EVENT_ACK compares serially over records of every ORIGIN (log 68). -/
theorem eventQueueDelivers : Obligations.EventQueueDelivers := by
  unfold Obligations.EventQueueDelivers
  intro s h
  refine ⟨fun e rest hibi hsend hnew hfirst => ?read, fun n => ?ack, rfl⟩
  case read => exact congrArg Host.Outcome.next (privateRead_of_fresh h hibi hsend hnew hfirst)
  case ack => exact congrArg Host.Outcome.next (eventAck_of_alive h n)

/-! ### Requests of the controller -/

theorem answerReq_of_performed {s t : State} {r : MgmtReq} {status : Nat} {ws : List Word} (h : alive s = true)
    (hr : performReq s r = (t, status, ws)) (tag : BitVec 16) :
    answerReq s tag r = sendOut t (.mgmtRsp (reqCode r) tag status ws) := by
  rw [answerReq, if_pos h, hr]

theorem performReq_bookRead_of_held {s : State} {q : Word} {k : Nat} {r : BookRec}
    (h : s.book.recs.find? (fun e => e.2.seq == q) = some (k, r)) : performReq s (.bookRead q) = (s, 0, recWords r) := by
  simp only [performReq, h]

theorem performReq_bookRead_of_gone {s : State} {q : Word} (h : s.book.recs.find? (fun e => e.2.seq == q) = none) :
    performReq s (.bookRead q) = (s, 2, []) := by
  simp only [performReq, h]

/-- Before READY the requests that use the registers are refused as BUSY (R477). -/
theorem performReq_of_not_ready {s : State} (h : ready s = false) (off v : Word) (n : Byte) :
    performReq s .statusGet = (s, 1, []) ∧ performReq s (.regRead off n) = (s, 1, []) ∧
      performReq s (.regWrite off v) = (s, 1, []) := by
  simp only [performReq, h, Bool.false_eq_true, if_false, and_self]

theorem forwardReq_of_not_ready {s : State} (ha : alive s = true) (h : ready s = false) (tag d i : BitVec 16) (r : MgmtReq) :
    forwardReq s tag d i r = sendOut s (.mgmtFwdRsp tag 1 []) := by
  simp only [forwardReq, ha, h, Bool.not_false, if_true]

/-- Settles O16, where a FORWARD is answered BUSY before its inner request is judged (log 69). -/
theorem bookReadAndBusy : Obligations.BookReadAndBusy := by
  unfold Obligations.BookReadAndBusy
  refine ⟨fun s tag h => ⟨fun q k r held => ?held, fun q gone => ?gone, fun c => ?bad⟩, fun s tag d i off v n r h hbusy => ?busy⟩
  case held => exact congrArg Host.Outcome.next (answerReq_of_performed h (performReq_bookRead_of_held held) tag)
  case gone => exact congrArg Host.Outcome.next (answerReq_of_performed h (performReq_bookRead_of_gone gone) tag)
  case bad => exact congrArg Host.Outcome.next (answerReq_of_performed (r := .other c) h rfl tag)
  case busy =>
    obtain ⟨hstatus, hread, hwrite⟩ := performReq_of_not_ready hbusy off v n
    exact ⟨congrArg Host.Outcome.next (answerReq_of_performed h hstatus tag),
      congrArg Host.Outcome.next (answerReq_of_performed h hread tag),
      congrArg Host.Outcome.next (answerReq_of_performed h hwrite tag),
      congrArg Host.Outcome.next (forwardReq_of_not_ready h hbusy tag d i r)⟩

/-! ### Registers read by the agent (R478) -/

/-- Where no shadow stands, the agent reads words that latch none as they are, and changes nothing. -/
theorem foldl_agentReads_of_no_shadow {s : State} (hs : s.regs.shadows = []) {offs : List Nat}
    (h : ∀ off ∈ offs, off % 4 = 0 ∧ isLo off = false) (ws : List Word) :
    offs.foldl (fun acc off => ((regRead acc.1 .agent off).1, acc.2 ++ [(regRead acc.1 .agent off).2])) (s, ws) =
      (s, ws ++ offs.map (regLive s)) := by
  induction offs generalizing ws with
  | nil => simp
  | cons off offs ih =>
    obtain ⟨hword, hlo⟩ := h off List.mem_cons_self
    rw [List.foldl_cons, regRead_of_no_shadow hword hlo (by rw [hs]; rfl), ih fun o ho => h o (List.mem_cons_of_mem _ ho),
      List.append_assoc]
    rfl

theorem agentReads_of_no_shadow {s : State} (hs : s.regs.shadows = []) {offs : List Nat}
    (h : ∀ off ∈ offs, off % 4 = 0 ∧ isLo off = false) : agentReads s offs = (s, offs.map (regLive s)) :=
  foldl_agentReads_of_no_shadow hs h []

theorem performReq_statusGet_of_ready {s : State} (h : ready s = true) (hs : s.regs.shadows = []) :
    performReq s .statusGet = (s, 0, statusRegs.map (regLive s)) := by
  have reads := agentReads_of_no_shadow hs (offs := statusRegs) (by decide)
  simp only [performReq, h, if_true, reads]

theorem winWord_lt (off : Word) : winWord off < 0x100000 := by
  unfold winWord
  omega

theorem winWord_mod_four (off : Word) : winWord off % 4 = 0 := Nat.mul_mod_left _ _

/-- REG_READ of one register that is no _LO word. -/
theorem performReq_regRead_one {s : State} (h : ready s = true) (hs : s.regs.shadows = []) {off : Word}
    (hlo : isLo (winWord off) = false) : performReq s (.regRead off 1) = (s, 0, [regLive s (winWord off)]) := by
  have one : (List.range 1).map (fun i => (winWord off + 4 * i) % 0x100000) = [winWord off] := by
    simp [Nat.mod_eq_of_lt (winWord_lt off)]
  have reads := agentReads_of_no_shadow hs (offs := [winWord off])
    (List.forall_mem_singleton.mpr ⟨winWord_mod_four off, hlo⟩)
  change (if ready s then
    ((agentReads s ((List.range 1).map fun i => (winWord off + 4 * i) % 0x100000)).1, 0,
      (agentReads s ((List.range 1).map fun i => (winWord off + 4 * i) % 0x100000)).2) else (s, 1, [])) = _
  rw [if_pos h, one, reads]
  rfl

theorem performReq_regWrite_of_ready {s : State} (h : ready s = true) (off v : Word) :
    performReq s (.regWrite off v) = (regWrite 2 s (winWord off) v, 0, []) := if_pos h

/-- Settles O17, with offsets taken modulo the window's size (log 69). -/
theorem agentReadsAndWrites : Obligations.AgentReadsAndWrites := by
  unfold Obligations.AgentReadsAndWrites
  intro s tag off v h hready hs
  exact ⟨congrArg Host.Outcome.next (answerReq_of_performed h (performReq_statusGet_of_ready hready hs) tag),
    fun hlo => congrArg Host.Outcome.next (answerReq_of_performed h (performReq_regRead_one hready hs hlo) tag),
    congrArg Host.Outcome.next (answerReq_of_performed h (performReq_regWrite_of_ready hready off v) tag)⟩

/-! ### FORWARD (R479) -/

theorem forwardReq_bookRead_here {s : State} (h : alive s = true) (hready : ready s = true) {d : BitVec 16}
    (hd : d.toNat = nodeId s) (tag i : BitVec 16) (q : Word) :
    forwardReq s tag d i (.bookRead q) = sendOut (performReq s (.bookRead q)).1 (.mgmtFwdRsp tag 0
      (rspMsg 0x13 i (performReq s (.bookRead q)).2.1 (performReq s (.bookRead q)).2.2)) := by
  simp only [forwardReq, h, hready, hd, reqCode, Bool.not_true, Bool.false_eq_true, if_true, if_false]

theorem forwardLate_of_first {s : State} {f : Fwd} {l : List Fwd} (h : s.mgmt.forwards = f :: l) :
    forwardLate s f.tag = { s with mgmt := { s.mgmt with forwards := l }, outbox := .mgmtFwdRsp f.tag 5 [] :: s.outbox } := by
  have first : s.mgmt.forwards.find? (fun g => g.tag == f.tag) = some f := by simp [h]
  have left : s.mgmt.forwards.erase f = l := by simp [h]
  simp only [forwardLate, first, left]
  rfl

/-- Settles O18. -/
theorem forwardLocalAndTimeout : Obligations.ForwardLocalAndTimeout := by
  unfold Obligations.ForwardLocalAndTimeout
  refine ⟨fun s tag d i q k r h hready hd held => ?here, fun s f l hf => congrArg Host.Outcome.next (forwardLate_of_first hf)⟩
  case here =>
    refine congrArg Host.Outcome.next ((forwardReq_bookRead_here h hready hd tag i q).trans ?_)
    rw [performReq_bookRead_of_held held, rspMsg, tatHead]

end Sys2Proof.Proofs.ManagementAgent
end

section
/-!
PROOFS. Resets of the whole block: cold resets with the straps that they latch (R429, R447, R456, R493, R502), and the warm reset
(R447, R448).
-/
namespace Sys2Proof.Proofs.BlockResets
open Sys2Proof.Machine Sys2Proof.Claims

/-! ### The straps -/

/-- The six fields of a latched CTL.STRAPS word. -/
theorem strapWord_fields (x : Straps) :
    fld (strapWord x) 0 2 = x.boot.toNat ∧ fld (strapWord x) 3 3 = x.slot.toNat ∧ fld (strapWord x) 6 4 = x.node.toNat ∧
      fld (strapWord x) 10 4 = x.door.toNat ∧ bitAt (strapWord x) 14 = x.heritage ∧ bitAt (strapWord x) 15 = x.warm := by
  have hboot := x.boot.isLt
  have hslot := x.slot.isLt
  have hnode := x.node.isLt
  have hdoor := x.door.isLt
  simp only [fld, bitAt, BitVec.getLsbD, strapWord, BitVec.toNat_ofNat, Nat.testBit_eq_decide_div_mod_eq]
  cases x.heritage <;> cases x.warm <;> simp <;> omega

section StrapRegs
variable (s : State) (w : Word)

theorem rget_strapRegs_straps : rget (strapRegs s w) 0x0010 = w := by
  simp [strapRegs, rget_rsetFld_ne, rget_rset_ne]

theorem rget_strapRegs_heritage : rget (strapRegs s w) 0x0020 = BitVec.ofNat 32 (if bitAt w 14 then 3 else 0) := by
  simp [strapRegs, rget_rsetFld_ne, rget_rset_ne]

theorem rget_strapRegs_node : rget (strapRegs s w) 0x8000 = BitVec.ofNat 32 (fld w 6 4) := by
  simp [strapRegs, rget_rsetFld_ne]

theorem rget_strapRegs_slotLen : rget (strapRegs s w) 0x1008 = setFld (rget s 0x1008) 5 3 (fld w 3 3) := by
  simp [strapRegs, rget_rset_ne]

theorem rget_strapRegs_ne {off : Nat} (h : off ∉ [0x0010, 0x0020, 0x1008, 0x8000]) : rget (strapRegs s w) off = rget s off := by
  simp only [List.mem_cons, List.not_mem_nil, or_false, not_or] at h
  obtain ⟨hstraps, hheritage, hslot, hnode⟩ := h
  rw [strapRegs, rget_rsetFld_ne _ hslot, rget_rset_ne _ hnode, rget_rset_ne _ hheritage, rget_rset_ne _ hstraps]

end StrapRegs

/-! ### Cold resets (R429, R447, R493) -/

/-- What a cold reset clears has no register but at its reset value. -/
theorem rget_cleared (s : State) (p : Power) (off : Nat) : rget (cleared s p) off = resetVal off := rfl

theorem rget_startCold_of_ne_march (s : State) (w : Word) {off : Nat} (h : off ≠ 0x2000) :
    rget (startCold s w) off = rget (strapRegs (cleared s .march) w) off := rget_rset_ne _ h _

theorem rget_startCold_march (s : State) (w : Word) : rget (startCold s w) 0x2000 = 4#32 := rget_rset_self _ _ _

/-- Registers that no strap sets stand at their reset values when the march begins. -/
theorem rget_startCold_ne (s : State) (w : Word) {off : Nat} (h : off ∉ [0x0010, 0x0020, 0x1008, 0x2000, 0x8000]) :
    rget (startCold s w) off = resetVal off := by
  simp only [List.mem_cons, List.not_mem_nil, or_false, not_or] at h
  obtain ⟨hstraps, hheritage, hslot, hmarch, hnode⟩ := h
  rw [rget_startCold_of_ne_march s w hmarch, rget_strapRegs_ne _ _ (by simp [hstraps, hheritage, hslot, hnode]), rget_cleared]

theorem coldReset_of_rails {s : State} (h : s.boot.power ≠ .faultHeld) (x : Straps) :
    coldReset s x = startCold { s with boot := { s.boot with porstLow := false } } (strapWord x) := by
  rw [coldReset, if_neg (by simpa using h)]

theorem coldResetStart_of_rails {s : State} (h : s.boot.power ≠ .faultHeld) :
    coldResetStart s = coldCleared s .coldHeld true := by
  rw [coldResetStart, if_neg (by simpa using h)]
  rfl

theorem coldResetStart_of_fault {s : State} (h : s.boot.power = .faultHeld) :
    coldResetStart s = coldCleared s .faultHeld true := by
  rw [coldResetStart, h]
  rfl

theorem railsRestored_of_low {s : State} (h : s.boot.power = .faultHeld) (hlow : s.boot.porstLow = true) :
    railsRestored s = coldCleared s .coldHeld true := by
  rw [railsRestored, if_pos (beq_iff_eq.mpr h), if_pos hlow, cleared, hlow, coldCleared]

theorem railsRestored_of_high {s : State} (h : s.boot.power = .faultHeld) (hhigh : s.boot.porstLow = false) :
    railsRestored s = startCold s (rget s 0x0010) := by
  rw [railsRestored, if_pos (beq_iff_eq.mpr h), if_neg (Bool.eq_false_iff.mp hhigh)]

theorem railsRestored_of_rails {s : State} (h : s.boot.power ≠ .faultHeld) : railsRestored s = s := if_neg (by simpa using h)

theorem startCold_frame (s : State) (w : Word) :
    { startCold s w with regs := {} } = coldCleared s .march s.boot.porstLow := rfl

/-- Settles O20. What no rule gives a value stands as in State.reset (logs 5 and 6). -/
theorem coldResets : Obligations.ColdResets := by
  unfold Obligations.ColdResets
  refine ⟨⟨fun s h => ?falls, fun s h => ?fallsInFault, fun s => ?fault, fun s h hlow => ?restoredLow, fun s h => ?noFault⟩,
    fun s x h => ?rises, fun s h hhigh => ?restoredHigh⟩
  case falls => exact congrArg Host.Outcome.next (coldResetStart_of_rails h)
  case fallsInFault => exact congrArg Host.Outcome.next (coldResetStart_of_fault h)
  case fault => exact ⟨_, rfl, rget_strapRegs_straps _ _, rfl⟩
  case restoredLow => exact congrArg Host.Outcome.next (railsRestored_of_low h hlow)
  case noFault => exact congrArg Host.Outcome.next (railsRestored_of_rails h)
  case restoredHigh =>
    refine ⟨_, congrArg Host.Outcome.next (railsRestored_of_high h hhigh), ?_, ?_, rget_startCold_march _ _⟩
    · rw [startCold_frame, hhigh]
    · rw [rget_startCold_of_ne_march _ _ (by decide), rget_strapRegs_straps]
  case rises =>
    obtain ⟨hboot, hslot, hnode, hdoor, hheritage, hwarm⟩ := strapWord_fields x
    let t := startCold { s with boot := { s.boot with porstLow := false } } (strapWord x)
    have straps : rget t 0x0010 = strapWord x := by
      rw [rget_startCold_of_ne_march _ _ (by decide), rget_strapRegs_straps]
    refine ⟨t, congrArg Host.Outcome.next (coldReset_of_rails h x), rfl, rfl, rfl, rfl, ?_, ?_, ?_, ?_, ?_, ?_, ?slotLen, ?nodeId,
      ?heritage, rget_startCold_march _ _, fun off hoff => rget_startCold_ne _ _ hoff⟩
    · rw [strapBoot, rfld, straps, hboot]
    · rw [rfld, straps, hslot]
    · rw [rfld, straps, hnode]
    · rw [rfld, straps, hdoor]
    · rw [rbit, straps, hheritage]
    · rw [rbit, straps, hwarm]
    case slotLen =>
      rw [rfld, rget_startCold_of_ne_march _ _ (by decide), rget_strapRegs_slotLen, fld_setFld_self _ (by decide), hslot,
        Nat.mod_eq_of_lt x.slot.isLt]
    case nodeId =>
      have hlt := x.node.isLt
      rw [nodeId, rfld, rget_startCold_of_ne_march _ _ (by decide), rget_strapRegs_node, hnode, fld, BitVec.toNat_ofNat]
      omega
    case heritage =>
      rw [heritage, rbit, rget_startCold_of_ne_march _ _ (by decide), rget_strapRegs_heritage, hheritage]
      cases x.heritage <;> rfl

/-! ### Warm reset (R447, R448) -/

/-- Registers set one after another, at places that `at'` gives: a place that none of them has stays. -/
theorem rget_foldl_rset_ne {at' : Nat → Nat} (f : Nat → Word) {o : Nat} {l : List Nat} (h : ∀ m ∈ l, o ≠ at' m) (s : State) :
    rget (l.foldl (fun z m => rset z (at' m) (f m)) s) o = rget s o := by
  induction l generalizing s with
  | nil => rfl
  | cons m l ih =>
    obtain ⟨hm, hl⟩ := List.forall_mem_cons.mp h
    rw [List.foldl_cons, ih hl, rget_rset_ne _ hm]

theorem rget_foldl_rset_of_mem {at' : Nat → Nat} (hinj : Function.Injective at') (f : Nat → Word) {m : Nat} {l : List Nat}
    (hm : m ∈ l) (s : State) : rget (l.foldl (fun z m => rset z (at' m) (f m)) s) (at' m) = f m := by
  induction l generalizing s with
  | nil => exact absurd hm List.not_mem_nil
  | cons k l ih =>
    rw [List.foldl_cons]
    by_cases hl : m ∈ l
    · exact ih hl _
    · obtain rfl := (List.mem_cons.mp hm).resolve_right hl
      rw [rget_foldl_rset_ne f fun j hj heq => hl (by rwa [hinj heq]), rget_rset_self]

/-- The register files of a warm reset after the straps, up to the bins' registers. -/
def warmRegs (s z : State) (cause : Nat) : State :=
  let keep := fun (r : State) (off : Nat) => rset r off (rget s off)
  let z := rset z 0x0018 (BitVec.ofNat 32 ((rfld s 0x0018 16 16 + 1) % 65536 * 65536 + cause))
  let z := keep (keep (keep (keep z 0x201C) 0xD00C) 0xD014) 0xD018
  rset z 0xD000 (rget s 0xD000 &&& 0x20#32)

/-- The bins' registers after a warm reset: their replacement stays (R447). -/
def warmBins (s z : State) : State :=
  (List.range 64).foldl (fun z m => rset z (0x2100 + 4 * m) (rget s (0x2100 + 4 * m) &&& 0x1C0#32)) z

theorem warmReset_eq (s : State) (cause : Nat) (straps : Word) :
    warmReset s cause straps = rset (warmBins s (warmRegs s (strapRegs (warmKept s) straps) cause)) 0x2000
      (BitVec.ofNat 32 (2 + (if bitAt straps 15 then 4 else 0))) := rfl

theorem rget_warmBins_ne (s z : State) {o : Nat} (h : o < 0x2100 ∨ 0x2200 ≤ o) : rget (warmBins s z) o = rget z o :=
  rget_foldl_rset_ne _ (fun m hm => by have := List.mem_range.mp hm; omega) z

theorem rget_warmBins_bin (s z : State) {m : Nat} (h : m < 64) :
    rget (warmBins s z) (0x2100 + 4 * m) = rget s (0x2100 + 4 * m) &&& 0x1C0#32 :=
  rget_foldl_rset_of_mem (at' := fun m => 0x2100 + 4 * m) (fun a b hab => by dsimp only at hab; omega)
    (fun m => rget s (0x2100 + 4 * m) &&& 0x1C0#32) (List.mem_range.mpr h) z

/-- Registers outside the bins' after a warm reset, STATUS of the cellar apart. -/
theorem rget_warmReset_ne (s : State) (cause : Nat) (straps : Word) {o : Nat} (h : o < 0x2100 ∨ 0x2200 ≤ o) (hmarch : o ≠ 0x2000) :
    rget (warmReset s cause straps) o = rget (warmRegs s (strapRegs (warmKept s) straps) cause) o := by
  rw [warmReset_eq, rget_rset_ne _ hmarch, rget_warmBins_ne _ _ h]

theorem rget_warmRegs_cause (s z : State) (cause : Nat) :
    rget (warmRegs s z cause) 0x0018 = BitVec.ofNat 32 ((rfld s 0x0018 16 16 + 1) % 65536 * 65536 + cause) := by
  simp [warmRegs, rget_rset_ne]

/-- Spare assignment and corks are kept as they stand. -/
theorem rget_warmRegs_kept (s z : State) (cause : Nat) :
    rget (warmRegs s z cause) 0x201C = rget s 0x201C ∧ rget (warmRegs s z cause) 0xD014 = rget s 0xD014 ∧
      rget (warmRegs s z cause) 0xD018 = rget s 0xD018 := by
  simp [warmRegs, rget_rset_ne]

theorem rget_warmRegs_status (s z : State) (cause : Nat) :
    rget (warmRegs s z cause) 0xD000 = rget s 0xD000 &&& 0x20#32 := rget_rset_self _ _ _

theorem rget_warmRegs_straps (s z : State) (cause : Nat) : rget (warmRegs s z cause) 0x0010 = rget z 0x0010 := by
  simp [warmRegs, rget_rset_ne]

/-- The machine with its registers put aside. -/
def bare (s : State) : State := { s with regs := {} }

@[simp] theorem bare_rset (s : State) (off : Nat) (v : Word) : bare (rset s off v) = bare s := rfl

@[simp] theorem staged_rset (s : State) (off : Nat) (v : Word) : (rset s off v).regs.staged = s.regs.staged := rfl

@[simp] theorem bare_strapRegs (s : State) (w : Word) : bare (strapRegs s w) = bare s := rfl

@[simp] theorem staged_strapRegs (s : State) (w : Word) : (strapRegs s w).regs.staged = s.regs.staged := rfl

/-- Setting registers one after another leaves everything else, and what is staged. -/
theorem foldl_rset_frame (at' : Nat → Nat) (f : Nat → Word) (l : List Nat) (s : State) :
    bare (l.foldl (fun z m => rset z (at' m) (f m)) s) = bare s ∧
      (l.foldl (fun z m => rset z (at' m) (f m)) s).regs.staged = s.regs.staged := by
  induction l generalizing s with
  | nil => exact ⟨rfl, rfl⟩
  | cons m l ih => exact ih (rset s (at' m) (f m))

theorem warmBins_frame (s z : State) : bare (warmBins s z) = bare z ∧ (warmBins s z).regs.staged = z.regs.staged :=
  foldl_rset_frame (fun m => 0x2100 + 4 * m) (fun m => rget s (0x2100 + 4 * m) &&& 0x1C0#32) (List.range 64) z

theorem warmReset_frame (s : State) (cause : Nat) (straps : Word) :
    bare (warmReset s cause straps) = warmKept s ∧ (warmReset s cause straps).regs.staged = [] := by
  obtain ⟨hbare, hstaged⟩ := warmBins_frame s (warmRegs s (strapRegs (warmKept s) straps) cause)
  rw [warmReset_eq, bare_rset, staged_rset, hbare, hstaged]
  simp only [warmRegs, bare_rset, staged_rset, bare_strapRegs, staged_strapRegs]
  exact ⟨rfl, rfl⟩

/-- Settles O21. What R447's table does not name is kept or lost as log 67 says. -/
theorem warmResetKeeps : Obligations.WarmResetKeeps := by
  unfold Obligations.WarmResetKeeps
  intro s b h
  let straps := setBit (rget s 0x0010) 15 b
  have runs : exec (.warmReset b) s = .next (warmReset s 1 straps) := congrArg Host.Outcome.next (if_pos h)
  obtain ⟨hframe, hstaged⟩ := warmReset_frame s 1 straps
  obtain ⟨hspares, hcorkedLo, hcorkedHi⟩ := rget_warmRegs_kept s (strapRegs (warmKept s) straps) 1
  have outside := fun {o : Nat} => rget_warmReset_ne (o := o) s 1 straps
  refine ⟨_, runs, hframe, ?cause, ?straps, (outside (by decide) (by decide)).trans hcorkedLo,
    (outside (by decide) (by decide)).trans hcorkedHi, (outside (by decide) (by decide)).trans hspares,
    (outside (by decide) (by decide)).trans (rget_warmRegs_status _ _ _), fun m hm => ?bin, ?march, hstaged⟩
  case cause => rw [outside (by decide) (by decide), rget_warmRegs_cause]
  case straps => rw [outside (by decide) (by decide), rget_warmRegs_straps, rget_strapRegs_straps]
  case bin => rw [warmReset_eq, rget_rset_ne _ (by omega), rget_warmBins_bin _ _ hm]
  case march =>
    rw [warmReset_eq, rget_rset_self, bitAt_setBit_self _ (by decide)]
    cases b <;> rfl

end Sys2Proof.Proofs.BlockResets
end

section
/-!
PROOFS. Resets of one part: a press (R451) and an optical port (R452).
-/
namespace Sys2Proof.Proofs.PartResets
open Sys2Proof.Machine Sys2Proof.Claims
open Sys2Proof.Proofs.VintageQueue (and_not_of_and_eq_zero)
open Sys2Proof.Proofs.PressWaits (foldl_eq_self_of_mem)
open Sys2Proof.Proofs.Registers (ownRule word_of_aligned)

/-- A full write of a source that reaches the register window. -/
theorem srcWrite_of_reaches {s : State} {src : Source} (h : reaches s src = true) (off : Nat) (v : Word) :
    srcWrite s src off v 0xF#4 = regWrite (srcKey src) s off v := by
  have full : coversWord src 0xF#4 = true := rfl
  rw [srcWrite, if_pos h, if_pos full]

/-! ### Press resets: the staged request -/

theorem takeBits_all (a b : Word) : takeBits a b 0xFFFFFFFF = b := by
  have all : BitVec.ofNat 32 0xFFFFFFFF = BitVec.allOnes 32 := rfl
  rw [takeBits, all, BitVec.not_allOnes, BitVec.and_zero, BitVec.zero_or, BitVec.and_allOnes]

/-- A write of a word of which every bit is RWS stays pending as a whole. -/
theorem stage_all (s : State) (off : Nat) (v : Word) :
    stage s off v 0xFFFFFFFF = { s with regs := { s.regs with
      staged := smPut s.regs.staged off v, stagedMask := smPut s.regs.stagedMask off 0xFFFFFFFF#32 } } := by
  have all : ∀ w : Word, w ||| BitVec.ofNat 32 0xFFFFFFFF = 0xFFFFFFFF#32 := fun w => BitVec.or_allOnes
  rw [stage, if_neg (by decide), takeBits_all, all]

/-- The row of PRESS_RESET_LO and PRESS_RESET_HI. -/
def presetRow : RegRow := { name := "CTL.PRESS_RESET", base := 0x0028, count := 2, rws := 0xFFFFFFFF }

theorem regRow_preset (hi : Bool) : regRow (if hi then 0x2C else 0x28) = some presetRow := by
  cases hi <;> rfl

/-- A write of a register that has RWS fields alone is staged, and nothing more. -/
theorem regWrite_of_staged_fields (key : Nat) (s : State) {off : Nat} {r : RegRow} {v : Word} (ha : off % 4 = 0)
    (hlt : off < 0x10000) (hrow : regRow off = some r) (hown : off ∉ ownRule) (hrsv : v &&& r.rsv = 0)
    (hfields : r.rw = 0 ∧ r.w1c = 0 ∧ r.cnt = []) : regWrite key s off v = stage s off v r.rws := by
  simp only [ownRule, List.mem_cons, List.not_mem_nil, or_false, not_or] at hown
  obtain ⟨h30, h34, h38, h1d4, h1020, h1024, he000⟩ := hown
  simp only [regWrite, regWriteCore, word_of_aligned ha, hrow, noteReserved, hrsv, hfields, h30, h34, h38, h1d4, h1020, h1024,
    he000, Nat.not_le.mpr hlt, and_self, or_self, if_true, if_false]

theorem regWrite_preset (key : Nat) (s : State) (hi : Bool) (v : Word) :
    regWrite key s (if hi then 0x2C else 0x28) v = stage s (if hi then 0x2C else 0x28) v 0xFFFFFFFF := by
  have free : v &&& presetRow.rsv = 0 := BitVec.and_zero
  refine regWrite_of_staged_fields key s ?_ ?_ (regRow_preset hi) ?_ free ⟨rfl, rfl, rfl⟩ <;> cases hi <;> decide

theorem exec_pressReset_of_reaches {s : State} {src : Source} (h : reaches s src = true) (hi : Bool) (v : Word) :
    exec (.pressReset src hi v) s = .next { s with regs := { s.regs with
      staged := smPut s.regs.staged (if hi then 0x2C else 0x28) v
      stagedMask := smPut s.regs.stagedMask (if hi then 0x2C else 0x28) 0xFFFFFFFF#32 } } := by
  calc exec (.pressReset src hi v) s = .next (srcWrite s src (if hi then 0x2C else 0x28) v 0xF#4) := rfl
    _ = _ := by rw [srcWrite_of_reaches h, regWrite_preset, stage_all]

/-! ### Press resets: the start at an edge -/

section Requested
variable {s : State} {p : Nat} (hedge : s.time.atEdge = true) (hbit : rbit s (presetOff p) (p % 32) = true)
include hedge hbit

theorem pressResetStart_of_idle (hcork : isCorked s p = false) (hidle : (getPress s p).state = .idle)
    (hsaved : (getPress s p).saved = none) (hpending : s.coop.pending ≠ some p) (htasting : s.coop.tasting ≠ some p) :
    pressResetStart s p = setPress s p { clearPress (getPress s p) with state := .reset, left := 16 } := by
  simp [pressResetStart, hedge, hbit, hcork, hidle, hsaved, hpending, htasting]

theorem pressResetStart_of_corked (hcork : isCorked s p = true) :
    pressResetStart s p = rsetBit (setPress s p (clearPress (getPress s p))) (presetOff p) (p % 32) false := by
  simp [pressResetStart, hedge, hbit, hcork]

end Requested

/-- Settles O36. -/
theorem pressResets : Obligations.PressResets := by
  unfold Obligations.PressResets
  refine ⟨fun s src hi v h => exec_pressReset_of_reaches h hi v, fun s p hedge hbit =>
    ⟨fun hcork hidle hsaved hpending htasting => ?idle, fun hcork => ?corked⟩⟩
  case idle =>
    exact congrArg Host.Outcome.next (pressResetStart_of_idle hedge hbit hcork hidle hsaved hpending htasting)
  case corked =>
    refine ⟨_, congrArg Host.Outcome.next (pressResetStart_of_corked hedge hbit hcork), ?press, ?bit, rfl⟩
    case press => exact getPress_setPress_self _ _ _
    case bit =>
      change bitAt (rget (rsetBit _ (presetOff p.val) (p.val % 32) false) (presetOff p.val)) (p.val % 32) = false
      rw [rget_rsetBit_self, bitAt_setBit_self _ (Nat.mod_lt _ (by decide))]

/-! ### Link resets: one bit of a LINK_RESET word -/

/-- A pass over places of which one alone does anything is that one. -/
theorem foldl_eq_of_one {α β : Type} {f : β → α → β} {k : α} {l : List α} (hl : l.Nodup) (hk : k ∈ l)
    (h : ∀ b, ∀ i ∈ l, i ≠ k → f b i = b) (b : β) : l.foldl f b = f b k := by
  obtain ⟨l₁, l₂, rfl⟩ := List.append_of_mem hk
  obtain ⟨-, htail, hapart⟩ := List.nodup_append.mp hl
  have hother : k ∉ l₂ := (List.nodup_cons.mp htail).1
  have before : l₁.foldl f b = b :=
    foldl_eq_self_of_mem fun i hi => h b i (List.mem_append_left _ hi) (hapart i hi k List.mem_cons_self)
  have after : l₂.foldl f (f b k) = f b k :=
    foldl_eq_self_of_mem fun i hi => h _ i (by simp [hi]) fun heq => hother (heq ▸ hi)
  rw [List.foldl_append, before, List.foldl_cons, after]

/-- The first port of the LINK_RESET word that port `n` has its bit in. -/
def firstPort (n : Nat) : Nat := if n < 32 then 0 else 32

theorem firstPort_add (n : Fin 48) : firstPort n.val + n.val % 32 = n.val := by
  have := n.isLt
  unfold firstPort
  split <;> omega

/-- A LINK_RESET word with the bit of one port changed holds or releases that port alone. -/
theorem linkResets_of_one_bit (s : State) (n : Fin 48) {old : Word} {b : Bool} (hold : bitAt old (n.val % 32) = !b) :
    linkResets s (lresetOff n.val) old (setBit old (n.val % 32) b) = if b then linkHold s n.val else linkRelease s n.val := by
  have hn := n.isLt
  have hmod : n.val % 32 < 32 := Nat.mod_lt _ (by decide)
  have hself : bitAt (setBit old (n.val % 32) b) (n.val % 32) = b := bitAt_setBit_self _ hmod b
  have hbase : (if lresetOff n.val = 0x30 then 0 else 32) = firstPort n.val := by
    unfold lresetOff firstPort
    split <;> rfl
  have hmem : n.val % 32 ∈ List.range (if lresetOff n.val = 0x30 then 32 else 16) := by
    rw [List.mem_range, lresetOff]
    split <;> split <;> omega
  rw [linkResets, foldl_eq_of_one List.nodup_range hmem (fun t i hi hne => ?other)]
  case other =>
    have same : bitAt (setBit old (n.val % 32) b) i = bitAt old i := bitAt_setBit_ne _ hne b
    simp [same]
  rw [hbase, firstPort_add, hself, hold]
  cases b <;> rfl

/-- The row of a port's LINK_RESET word. -/
def linkRow (n : Nat) : RegRow :=
  if n < 32 then { name := "CTL.LINK_RESET_LO", base := 0x0030, rw := 0xFFFFFFFF }
  else { name := "CTL.LINK_RESET_HI", base := 0x0034, rw := 0x0000FFFF }

theorem regRow_link (n : Nat) : regRow (lresetOff n) = some (linkRow n) := by
  unfold lresetOff linkRow
  split <;> rfl

/-- A bit outside a mask may change. -/
theorem setBit_and_of_outside {m : Word} {i : Nat} (hm : m.getLsbD i = false) (w : Word) (b : Bool) :
    setBit w i b &&& m = w &&& m := by
  refine BitVec.eq_of_getLsbD_eq fun j hj => ?_
  rw [BitVec.getLsbD_and, BitVec.getLsbD_and]
  by_cases h : j = i
  · rw [h, hm, Bool.and_false, Bool.and_false]
  · exact congrArg (· && m.getLsbD j) (bitAt_setBit_ne w h b)

/-- The word that a link command writes has no reserved bit where the register has none set (R8). -/
theorem setBit_link_and_rsv {s : State} (n : Fin 48) (hclean : rget s 0x34 &&& 0xFFFF0000#32 = 0) (b : Bool) :
    setBit (rget s (lresetOff n.val)) (n.val % 32) b &&& (linkRow n.val).rsv = 0 := by
  have hn := n.isLt
  unfold lresetOff linkRow
  split
  case isTrue => exact BitVec.and_zero
  case isFalse =>
    have outside : (0xFFFF0000#32).getLsbD (n.val % 32) = false :=
      (by decide : ∀ i < 16, (0xFFFF0000#32).getLsbD i = false) _ (by omega)
    exact (setBit_and_of_outside outside _ b).trans hclean

theorem regWrite_link {s : State} {n : Nat} {v : Word} (hrsv : v &&& (linkRow n).rsv = 0) (key : Nat) :
    regWrite key s (lresetOff n) v = linkResets (rset s (lresetOff n) v) (lresetOff n) (rget s (lresetOff n)) v := by
  have hrow := regRow_link n
  have hkeep := and_not_of_and_eq_zero hrsv
  have hoff : lresetOff n = 0x30 ∨ lresetOff n = 0x34 := ite_eq_or_eq _ _ _
  obtain h | h := hoff
  all_goals
    rw [h] at hrow ⊢
    simp [regWrite, regWriteCore, hrow, noteReserved, hrsv, hkeep]

/-- The machine with the LINK_RESET bit of a port written. -/
def linkWritten (s : State) (n : Nat) (b : Bool) : State :=
  rset s (lresetOff n) (setBit (rget s (lresetOff n)) (n % 32) b)

/-- A link command that changes the bit of its port holds or releases that port. -/
theorem srcWrite_link {s : State} {src : Source} {n : Fin 48} {b : Bool} (h : reaches s src = true)
    (hclean : rget s 0x34 &&& 0xFFFF0000#32 = 0) (hbit : rbit s (lresetOff n.val) (n.val % 32) = !b) :
    srcWrite s src (lresetOff n.val) (setBit (rget s (lresetOff n.val)) (n.val % 32) b) 0xF#4 =
      if b then linkHold (linkWritten s n.val b) n.val else linkRelease (linkWritten s n.val b) n.val := by
  rw [srcWrite_of_reaches h, regWrite_link (setBit_link_and_rsv n hclean b), linkResets_of_one_bit _ n hbit, linkWritten]

/-- Link reset of a port with nothing to move. -/
theorem linkHold_of_empty {s : State} {n : Nat} (hwait : (getPort s n).wait = []) (hunacked : (getPort s n).unacked = []) :
    ∃ p : Port, linkHold s n = setPort (setPort s n { (getPort s n) with
        held := true, trained := false, retrain := false, lost := false, up := 0, dropped := 0 }) n p ∧
      p.held = true ∧ p.trained = false ∧ p.lost = false ∧ p.dropped = 0 := by
  simp only [linkHold, movePort, getPort_setPort_self, hwait, hunacked, List.foldl_nil]
  exact ⟨_, rfl, rfl, rfl, rfl, rfl⟩

/-- The bit that a link command has written reads back, whatever becomes of the port. -/
theorem rbit_setPort_linkWritten (s : State) (n : Nat) (b : Bool) (x : Port) :
    rbit (setPort (linkWritten s n b) n x) (lresetOff n) (n % 32) = b := by
  calc _ = rbit (linkWritten s n b) (lresetOff n) (n % 32) := rfl
    _ = b := by rw [rbit, linkWritten, rget_rset_self, bitAt_setBit_self _ (Nat.mod_lt _ (by decide))]

/-- Settles O37. -/
theorem linkResets : Obligations.LinkResets := by
  unfold Obligations.LinkResets
  intro s src n h
  refine ⟨fun hbit hwait hunacked hclean => ?hold, fun hbit hclean => ?release⟩
  case hold =>
    obtain ⟨p, heq, hheld, htrained, hlost, hdropped⟩ :=
      linkHold_of_empty (s := linkWritten s n.val true) hwait hunacked
    have hport : getPort (linkHold (linkWritten s n.val true) n.val) n.val = p := by rw [heq, getPort_setPort_self]
    refine ⟨_, congrArg Host.Outcome.next (srcWrite_link (b := true) h hclean hbit), ?_, ?_, ?_, ?_, ?_, ?_, fun k hk => ?_, ?_⟩
    all_goals rw [if_pos rfl]
    · rw [usable, hport, htrained]
      rfl
    · rw [hport, hheld]
    · rw [hport, htrained]
    · rw [hport, hlost]
    · rw [hport, hdropped]
    · rw [heq]
      exact rbit_setPort_linkWritten s n.val true p
    · rw [heq, getPort_setPort_ne _ hk, getPort_setPort_ne _ hk]
      rfl
    · rw [heq]
      rfl
  case release =>
    exact ⟨_, congrArg Host.Outcome.next (srcWrite_link (b := false) h hclean hbit), getPort_setPort_self _ _ _,
      rbit_setPort_linkWritten s n.val false _, fun k hk => getPort_setPort_ne _ hk _, rfl⟩

end Sys2Proof.Proofs.PartResets
end

section
/-!
PROOFS. The dormant state (R439): what the master reset of door modules with nothing exported leaves alone, and what a failed boot
leaves (R441, R446, R498).
-/
namespace Sys2Proof.Proofs.DormantState
open Sys2Proof.Machine
open Sys2Proof.Proofs.DoorModules (discardCounted discardCounted_frame doorAfterReset drainExport_of_none refillReg_of_none_waiting)

/-! ### The master resets -/

/-- Nothing is exported, waits to be exported, or waits to enter the queue of register messages. -/
structure Quiet (d : Door) : Prop where
  exported : ∀ k, (smGet d.mods k {}).xreqs = []
  messages : ∀ k, (smGet d.mods k {}).regWait = []
  waiting : d.xwait = []

theorem quiet_empty : Quiet {} := ⟨fun _ => rfl, fun _ => rfl, rfl⟩

/-- `t` differs from `s` in its door, which stays quiet, and in the counts of what the resets discard. -/
structure DoorReset (s t : State) : Prop where
  quiet : Quiet t.door
  regs : ∀ o, o ≠ 0xC044 → o ≠ 0xC048 → rget t o = rget s o
  boot : t.boot = s.boot
  mem : t.mem = s.mem

theorem DoorReset.trans {s t u : State} (h : DoorReset s t) (k : DoorReset t u) : DoorReset s u :=
  ⟨k.quiet, fun o hc hd => (k.regs o hc hd).trans (h.regs o hc hd), k.boot.trans h.boot, k.mem.trans h.mem⟩

theorem rget_discardCounted (s : State) (m : Nat) {o : Nat} (hc : o ≠ 0xC044) (hd : o ≠ 0xC048) :
    rget (discardCounted s m) o = rget s o := by
  rw [discardCounted, rget_bump_ne _ hd]
  split
  · exact rget_bump_ne _ hc _
  · rfl

/-- The door after a master reset that drops the module's held accesses. -/
def doorDropped (d : Door) (m : Nat) (x : Module) : Door :=
  { doorAfterReset d m x with heldAcc := d.heldAcc.filterMap (fun h => if h.m == m then none else some h) }

theorem quiet_doorDropped {d : Door} (h : Quiet d) (m : Nat) (x : Module) : Quiet (doorDropped d m x) where
  waiting := h.waiting
  exported k := by
    by_cases hk : k = m
    · rw [hk, doorDropped, doorAfterReset, smGet_smPut_self]
    · rw [doorDropped, doorAfterReset, smGet_smPut_ne _ hk, h.exported]
  messages k := by
    by_cases hk : k = m
    · rw [hk, doorDropped, doorAfterReset, smGet_smPut_self]
    · rw [doorDropped, doorAfterReset, smGet_smPut_ne _ hk, h.messages]

theorem masterReset_of_quiet {s : State} {m : Nat} (hbonded : bonded s m = true) (h : Quiet s.door) :
    masterReset s m true = { s with regs := (discardCounted s m).regs, door := doorDropped s.door m (getMod s m) } := by
  let u : State := { s with regs := (discardCounted s m).regs, door := doorDropped s.door m (getMod s m) }
  have hquiet : Quiet u.door := quiet_doorDropped h m (getMod s m)
  have hreads : readsOpen (if (getMod s m).part.isSome then bump s 0xC044 1 else s) m = readsOpen s m := by
    split <;> rfl
  have hcounted : bump (if (getMod s m).part.isSome then bump s 0xC044 1 else s) 0xC048 (readsOpen s m) =
      { s with regs := (discardCounted s m).regs } := discardCounted_frame s m
  have hexported : (getMod s m).xreqs = [] := h.exported m
  have hcut : masterReset s m true = drainExport (refillReg u 64) := by
    simp only [masterReset, if_pos hbonded, hexported, List.foldl_nil, hreads, hcounted, Bool.not_true, Bool.and_false,
      Bool.false_eq_true, if_false]
    rfl
  rw [hcut, refillReg_of_none_waiting hquiet.messages]
  exact drainExport_of_none hquiet.waiting

theorem doorReset_masterReset {s : State} (h : Quiet s.door) (m : Nat) : DoorReset s (masterReset s m true) := by
  cases hbonded : bonded s m with
  | true =>
    rw [masterReset_of_quiet hbonded h]
    exact ⟨quiet_doorDropped h m _, fun o => rget_discardCounted s m, rfl, rfl⟩
  | false =>
    rw [masterReset, hbonded, if_neg Bool.false_ne_true]
    exact ⟨h, fun _ _ _ => rfl, rfl, rfl⟩

theorem doorReset_foldl (l : List Nat) {s : State} (h : Quiet s.door) :
    DoorReset s (l.foldl (fun s m => masterReset s m true) s) := by
  induction l generalizing s with
  | nil => exact ⟨h, fun _ _ _ => rfl, rfl, rfl⟩
  | cons m l ih =>
    have first := doorReset_masterReset h m
    exact first.trans (ih first.quiet)

/-! ### Going dormant -/

/-- `t` is `s` gone dormant, as far as its boot status, FAULT, boot state and memory go. -/
structure GoneDormant (s t : State) : Prop where
  status : rget t 0x0014 = setBit (rget s 0x0014) 3 true
  fault : rbit t 0xD000 6 = true
  boot : t.boot = s.boot
  mem : t.mem = s.mem

theorem goneDormant {s : State} (h : s.door = {}) : GoneDormant s (goDormant s) := by
  let u := rsetBit (rsetBit s 0x0014 3 true) 0xD000 6 true
  have hquiet : Quiet u.door := by
    have hdoor : u.door = {} := h
    exact hdoor ▸ quiet_empty
  have reset := doorReset_foldl (List.range 16) hquiet
  refine ⟨?status, ?fault, (emit_boot _ _).trans reset.boot, (emit_mem _ _).trans reset.mem⟩
  case status =>
    rw [goDormant, rget_emit _ _ (by decide), reset.regs _ (by decide) (by decide), rget_rsetBit_ne _ (by decide),
      rget_rsetBit_self]
  case fault =>
    rw [goDormant, rbit, rget_emit _ _ (by decide), reset.regs _ (by decide) (by decide), rget_rsetBit_self,
      bitAt_setBit_self _ (by decide)]

namespace GoneDormant
variable {s t : State} (h : GoneDormant s t)
include h

theorem dormant : dormant t = true := by
  rw [Machine.dormant, rbit, h.status, bitAt_setBit_self _ (by decide)]

theorem loaded : loaded t = loaded s := by
  rw [Machine.loaded, rbit, h.status, bitAt_setBit_ne _ (by decide)]
  rfl

/-- The failure codes of the copies stay as they were noted. -/
theorem code {lo : Nat} (hlo : 4 ≤ lo) : rfld t 0x0014 lo 8 = rfld s 0x0014 lo 8 := by
  rw [rfld, h.status, fld_setBit_ne _ (.inr (by omega))]
  rfl

end GoneDormant

/-! ### Boots that fail -/

theorem rfld_rsetFld_self (s : State) (off : Nat) {lo n v : Nat} (h : lo + n ≤ 32) (hv : v < 2 ^ n) :
    rfld (rsetFld s off lo n v) off lo n = v := by
  rw [rfld, rget_rsetFld_self, fld_setFld_self _ h, Nat.mod_eq_of_lt hv]

theorem rfld_rsetFld_apart (s : State) (off : Nat) {lo n lo' n' : Nat} (h : lo' + n' ≤ lo ∨ lo + n ≤ lo') (v : Nat) :
    rfld (rsetFld s off lo n v) off lo' n' = rfld s off lo' n' := by
  rw [rfld, rget_rsetFld_self, fld_setFld_ne _ h, rfld]

/-- Both failure codes noted, as they stand when the block goes dormant. -/
def bothFailed (s : State) (a b : Nat) : State := rsetFld (rsetFld s 0x0014 8 8 a) 0x0014 16 8 b

theorem codes_bothFailed (s : State) {a b : Nat} (ha : a < 2 ^ 8) (hb : b < 2 ^ 8) :
    rfld (bothFailed s a b) 0x0014 8 8 = a ∧ rfld (bothFailed s a b) 0x0014 16 8 = b :=
  ⟨(rfld_rsetFld_apart _ _ (by decide) b).trans (rfld_rsetFld_self _ _ (by decide) ha), rfld_rsetFld_self _ _ (by decide) hb⟩

/-- A second parity error of the ROM ends the boot while code address 0 is the ROM's (R441, R446). -/
theorem imageLoad_of_rom_error {s : State} (hwaits : loaderWaits s = true) (hrom : rbit s 0x001C 0 = false)
    (a b : Option (List Byte)) : imageLoad s true a b = goDormant (rsetFld s 0x0014 8 8 9) := by
  rw [imageLoad, if_pos hwaits, hrom]
  rfl

/-- A VTALLY that stays out of tolerance leaves both flash copies unread (R498). -/
theorem vtallyTimeout_of_waiting {s : State} (hwaits : loaderWaits s = true) (hstrap : strapBoot s < 2)
    (hresident : residentOk s = false) : vtallyTimeout s = goDormant (bothFailed s 8 8) := by
  rw [vtallyTimeout, if_pos (by simp [hwaits, hstrap, hresident])]
  rfl

/-- Settles O24. -/
theorem bootFailsDormant : Obligations.BootFailsDormant := by
  unfold Obligations.BootFailsDormant
  intro s hwaits hdoor
  refine ⟨fun hrom a b => ?rom, fun hstrap hresident => ?vtally⟩
  case rom =>
    have gone : GoneDormant (rsetFld s 0x0014 8 8 9) _ := goneDormant hdoor
    exact ⟨_, congrArg Host.Outcome.next (imageLoad_of_rom_error hwaits hrom a b), gone.dormant,
      (gone.code (by decide)).trans (rfld_rsetFld_self _ _ (by decide) (by decide)), gone.fault, gone.boot, gone.mem⟩
  case vtally =>
    have gone : GoneDormant (bothFailed s 8 8) _ := goneDormant hdoor
    obtain ⟨hcodeA, hcodeB⟩ := codes_bothFailed s (a := 8) (b := 8) (by decide) (by decide)
    exact ⟨_, congrArg Host.Outcome.next (vtallyTimeout_of_waiting hwaits hstrap hresident), gone.dormant,
      (gone.code (by decide)).trans hcodeA, (gone.code (by decide)).trans hcodeB, gone.fault, gone.boot, gone.mem⟩

end Sys2Proof.Proofs.DormantState
end

section
/-!
PROOFS. Estate images (R434, R438, R439, R443, R444): what an applied image sets, and the flash copies and the door boot that lead
to it or fail.
-/
namespace Sys2Proof.Proofs.EstateImages
open Sys2Proof.Machine Sys2Proof.Claims
open Sys2Proof.Proofs.DormantState
open Sys2Proof.Proofs.PartResets (srcWrite_of_reaches)
open Sys2Proof.Proofs.Registers (bitAt_rowAfter fieldsApart_of_mem mem_allRows_of_regRow plainBits fld_congr_bits)

/-! ### An image applied -/

/-- The boot registers of an image from `source` once it is applied: SOURCE, whether the resident copy is reused, LOADED,
IMG_VER and REMAP (R446, R459). -/
def bootNoted (s : State) (bs : List Byte) (source : Nat) (reused : Bool) : State :=
  let s := rsetBit (rsetBit (rsetFld s 0x0014 0 2 source) 0x0014 4 reused) 0x0014 2 true
  rset (rset s 0x0024 (imgWord bs 8)) 0x001C 1

/-- Whatever the sections of an image do, its boot registers are noted last, and the held accesses then proceed (R443). -/
theorem applyImage_notes (s : State) (bs : List Byte) (source : Nat) (reused : Bool) :
    ∃ u, applyImage s bs source reused = releaseDoor (bootNoted u bs source reused) := ⟨_, rfl⟩

theorem rget_bootNoted_status (s : State) (bs : List Byte) (source : Nat) (reused : Bool) :
    rget (bootNoted s bs source reused) 0x0014 = setBit (setBit (setFld (rget s 0x0014) 0 2 source) 4 reused) 2 true := by
  simp [bootNoted, rget_rset_ne]

theorem loaded_bootNoted (s : State) (bs : List Byte) (source : Nat) (reused : Bool) :
    loaded (bootNoted s bs source reused) = true := by
  rw [loaded, rbit, rget_bootNoted_status, bitAt_setBit_self _ (by decide)]

theorem source_bootNoted (s : State) (bs : List Byte) {source : Nat} (h : source < 4) (reused : Bool) :
    rfld (bootNoted s bs source reused) 0x0014 0 2 = source := by
  rw [rfld, rget_bootNoted_status, fld_setBit_ne _ (by decide), fld_setBit_ne _ (by decide), fld_setFld_self _ (by decide)]
  exact Nat.mod_eq_of_lt h

theorem reused_bootNoted (s : State) (bs : List Byte) (source : Nat) (reused : Bool) :
    rbit (bootNoted s bs source reused) 0x0014 4 = reused := by
  rw [rbit, rget_bootNoted_status, bitAt_setBit_ne _ (by decide), bitAt_setBit_self _ (by decide)]

theorem rget_bootNoted_remap (s : State) (bs : List Byte) (source : Nat) (reused : Bool) :
    rget (bootNoted s bs source reused) 0x001C = 1#32 := rget_rset_self _ _ _

theorem rget_bootNoted_version (s : State) (bs : List Byte) (source : Nat) (reused : Bool) :
    rget (bootNoted s bs source reused) 0x0024 = imgWord bs 8 := by
  rw [bootNoted, rget_rset_ne _ (by decide), rget_rset_self]

/-! ### The flash copies (R438, R439) -/

theorem headerCode_lt (bs : List Byte) (room : Nat) : headerCode bs room < 2 ^ 8 := by
  unfold headerCode
  split_ifs <;> decide

theorem tryCopy_of_passing {s : State} {bs : List Byte} {room : Nat} (hh : headerCode bs room = 0) (hs : sectionCode bs = 0) :
    tryCopy s (some bs) room = (placeAll s bs s.boot.warm, 0) := by
  simp only [tryCopy, hh, hs, ne_eq, not_true_eq_false, if_false]

theorem tryCopy_of_bad_header {s : State} {bs : List Byte} {room : Nat} (h : headerCode bs room ≠ 0) :
    tryCopy s (some bs) room = (s, headerCode bs room) := if_pos h

theorem flashLoad_of_passing {s : State} {a : List Byte} (b : Option (List Byte)) (hh : headerCode a 0x800000 = 0)
    (hs : sectionCode a = 0) : flashLoad s (some a) b = applyImage (placeAll s a s.boot.warm) a 1 false := by
  simp only [flashLoad, tryCopy_of_passing hh hs]

theorem flashLoad_of_bad_header {s : State} {a : List Byte} (h : headerCode a 0x800000 ≠ 0) :
    flashLoad s (some a) none = goDormant (bothFailed s (headerCode a 0x800000) 8) := by
  simp only [flashLoad, tryCopy_of_bad_header h]
  split
  · next hpass _ => exact absurd hpass h
  · rfl

/-- The flash copies are tried where no resident copy passes. -/
theorem imageLoad_of_flash {s : State} (hwaits : loaderWaits s = true) (hstrap : strapBoot s < 2)
    (hresident : residentOk (checkResident s) = false) (a b : Option (List Byte)) :
    imageLoad s false a b = flashLoad (checkResident s) a b := by
  have strap : strapBoot (checkResident s) = strapBoot s := by
    unfold checkResident
    split
    · rw [strapBoot, rfld, rget_bump_ne _ (by decide)]
      rfl
    · rfl
  simp only [imageLoad, hwaits, Bool.false_and, Bool.false_eq_true, if_false, if_true, hresident, strap, hstrap,
    show strapBoot s ≠ 3 by omega]

/-- The check of the resident copy counts its single-bit errors, and nothing more (R374). -/
theorem checkResident_frame (s : State) : (checkResident s).door = s.door ∧ (checkResident s).boot = s.boot ∧
    (checkResident s).mem = s.mem ∧ rget (checkResident s) 0x0014 = rget s 0x0014 := by
  unfold checkResident
  split
  · exact ⟨rfl, rfl, rfl, rget_bump_ne _ (by decide) _⟩
  · exact ⟨rfl, rfl, rfl, rfl⟩

/-- A loader that waits has neither loaded an image nor gone dormant. -/
theorem not_loaded_of_waits {s : State} (h : loaderWaits s = true) : loaded s = false ∧ dormant s = false := by
  simp only [loaderWaits, Bool.and_eq_true, Bool.not_eq_true'] at h
  exact ⟨h.1.2, h.2⟩

/-- Settles O23. Which image passes rests on the free signature functions (log 9). -/
theorem imageLoadOutcomes : Obligations.ImageLoadOutcomes := by
  unfold Obligations.ImageLoadOutcomes
  intro s a b hwaits hstrap hresident
  refine ⟨fun hheader hsections => ?passes, fun hheader hdoor => ?fails⟩
  case passes =>
    have tried := (imageLoad_of_flash hwaits hstrap hresident (some a) b).trans (flashLoad_of_passing b hheader hsections)
    obtain ⟨u, hu⟩ := applyImage_notes (placeAll (checkResident s) a (checkResident s).boot.warm) a 1 false
    exact ⟨_, congrArg Host.Outcome.next (tried.trans hu), loaded_bootNoted u a 1 false, source_bootNoted u a (by decide) false,
      reused_bootNoted u a 1 false, rget_bootNoted_remap u a 1 false, rget_bootNoted_version u a 1 false⟩
  case fails =>
    have tried := (imageLoad_of_flash hwaits hstrap hresident (some a) none).trans (flashLoad_of_bad_header hheader)
    obtain ⟨door, boot, mem, status⟩ := checkResident_frame s
    have gone : GoneDormant (bothFailed (checkResident s) (headerCode a 0x800000) 8) _ := goneDormant (door.trans hdoor)
    obtain ⟨hcodeA, hcodeB⟩ := codes_bothFailed (checkResident s) (headerCode_lt a 0x800000) (b := 8) (by decide)
    have unloaded : loaded (bothFailed (checkResident s) (headerCode a 0x800000) 8) = false := by
      rw [loaded, rbit, bothFailed, rget_rsetFld_self, rget_rsetFld_self, bitAt_setFld_ne _ (by decide),
        bitAt_setFld_ne _ (by decide), status]
      exact (not_loaded_of_waits hwaits).1
    exact ⟨_, congrArg Host.Outcome.next tried, gone.dormant, gone.loaded.trans unloaded, (gone.code (by decide)).trans hcodeA,
      (gone.code (by decide)).trans hcodeB, gone.fault, gone.boot.trans boot, gone.mem.trans mem⟩

/-! ### BOOT_GO (R444) -/

/-- The word that BOOT_GO writes: GO and the image's line. -/
def goWord (line : BitVec 19) : Word := BitVec.ofNat 32 (2 ^ 31 + line.toNat)

theorem goWord_fields (line : BitVec 19) : fld (goWord line) 0 19 = line.toNat ∧ bitAt (goWord line) 31 = true := by
  have h := line.isLt
  constructor
  · rw [fld, goWord, BitVec.toNat_ofNat]
    omega
  · rw [bitAt, BitVec.getLsbD, goWord, BitVec.toNat_ofNat, Nat.testBit_eq_decide_div_mod_eq, decide_eq_true_iff]
    omega

/-- The row of BOOT_GO. -/
def goRow : RegRow := { name := "CTL.BOOT_GO", base := 0x0038, rw := 0x8007FFFF }

theorem regRow_go : regRow 0x0038 = some goRow := rfl

/-- A word with no bit in a field has none in common with a mask inside it. -/
theorem and_eq_zero_of_fld {w m : Word} {lo n : Nat} (hm : ∀ i < 32, m.getLsbD i = true → lo ≤ i ∧ i < lo + n)
    (h : fld w lo n = 0) : w &&& m = 0#32 := by
  refine BitVec.eq_of_getLsbD_eq fun i hi => ?_
  rw [BitVec.getLsbD_and, BitVec.getLsbD_zero, Bool.and_eq_false_iff, or_iff_not_imp_right, Bool.not_eq_false]
  intro hbit
  obtain ⟨hlo, hhi⟩ := hm i hi hbit
  have hfld := testBit_fld w lo n (i - lo)
  rwa [h, Nat.zero_testBit, decide_eq_true (by omega), Bool.true_and, Nat.add_sub_cancel' hlo, eq_comm] at hfld

theorem goWord_and_rsv (line : BitVec 19) : goWord line &&& goRow.rsv = 0 := by
  refine and_eq_zero_of_fld (lo := 19) (n := 12) (by decide) ?_
  have h := line.isLt
  rw [fld, goWord, BitVec.toNat_ofNat]
  omega

/-- The machine with BOOT_GO written. -/
def goWritten (s : State) (line : BitVec 19) : State := rset s 0x0038 (rowAfter s goRow 0x0038 (goWord line))

theorem exec_bootGo_of_reaches {s : State} {src : Source} (h : reaches s src = true) (line : BitVec 19) :
    exec (.bootGo src line) s = .next (doorBoot (goWritten s line)) := by
  have noted : noteReserved s goRow (goWord line) = s := if_pos (goWord_and_rsv line)
  have hrw : goRow.rw ≠ 0 := by decide
  have hrws : goRow.rws = 0 := rfl
  have core : regWriteCore (srcKey src) s 0x0038 (goWord line) = goWritten s line := by
    simp [regWriteCore, regRow_go, noted, goWritten, stage, hrw, hrws]
  calc exec (.bootGo src line) s = .next (srcWrite s src 0x0038 (goWord line) 0xF#4) := rfl
    _ = .next (doorBoot (regWriteCore (srcKey src) s 0x0038 (goWord line))) := by rw [srcWrite_of_reaches h]; rfl
    _ = _ := by rw [core]

/-- The written fields of BOOT_GO read back. -/
theorem bitAt_goWritten (s : State) (line : BitVec 19) {i : Nat} (hi : i < 32) (hrw : goRow.rw.testBit i = true) :
    bitAt (rget (goWritten s line) 0x0038) i = bitAt (goWord line) i := by
  have fields := fieldsApart_of_mem (mem_allRows_of_regRow regRow_go)
  rw [goWritten, rget_rset_self, bitAt_rowAfter fields s _ _ hi (by simp [plainBits, hrw]), hrw]
  simp [goRow]

theorem go_goWritten (s : State) (line : BitVec 19) :
    rbit (goWritten s line) 0x0038 31 = true ∧ rfld (goWritten s line) 0x0038 0 19 = line.toNat := by
  obtain ⟨hline, hgo⟩ := goWord_fields line
  refine ⟨(bitAt_goWritten s line (by decide) (by decide)).trans hgo, Eq.trans ?_ hline⟩
  refine fld_congr_bits fun i _ hi => bitAt_goWritten s line (by omega) ?_
  exact (by decide : ∀ i < 19, goRow.rw.testBit i = true) i (by omega)

theorem rget_goWritten_ne (s : State) (line : BitVec 19) {o : Nat} (h : o ≠ 0x0038) : rget (goWritten s line) o = rget s o :=
  rget_rset_ne s h _

/-- A write of BOOT_GO leaves the loader waiting for the image that it names. -/
theorem waits_goWritten {s : State} (hwaits : loaderWaits s = true) (hstrap : strapBoot s = 2) (line : BitVec 19) :
    (loaderWaits (goWritten s line) && strapBoot (goWritten s line) == 2 && rbit (goWritten s line) 0x0038 31) = true := by
  have waits : loaderWaits (goWritten s line) = loaderWaits s := by
    simp only [loaderWaits, ready, loaded, dormant, rbit, rget_goWritten_ne s line (show 0x2000 ≠ 0x0038 by decide),
      rget_goWritten_ne s line (show 0x0014 ≠ 0x0038 by decide)]
    rfl
  have strap : strapBoot (goWritten s line) = strapBoot s := by
    rw [strapBoot, rfld, rget_goWritten_ne s line (by decide)]
    rfl
  rw [waits, strap, (go_goWritten s line).1, hwaits, hstrap]
  rfl

/-- The failure of a door boot noted: its code, and GO cleared. -/
def goFailed (s : State) (c : Nat) : State := rsetBit (rsetFld s 0x0014 8 8 c) 0x0038 31 false

/-- Where the memory holds no uncorrectable word, reading the image records nothing. -/
theorem doorBoot_of_clean {s : State} {line : Nat} (hue : s.mem.ueWords = [])
    (hgo : (loaderWaits s && strapBoot s == 2 && rbit s 0x0038 31) = true) (hline : rfld s 0x0038 0 19 = line) :
    doorBoot s =
      let head := trBytes s (64 * line) 0x2000
      let room := 0x2000000 - 64 * line
      let r := tryCopy s (some (trBytes s (64 * line) (imgLength head))) room
      if headerCode head room ≠ 0 then goFailed s (headerCode head room)
      else if r.2 = 0 then applyImage (rsetFld r.1 0x0014 8 8 0) (trBytes s (64 * line) (imgLength head)) 3 false
      else goFailed r.1 r.2 := by
  rw [doorBoot, if_pos hgo]
  simp only [hline, hue, List.contains_nil, Bool.false_eq_true, if_false, List.filterMap_none, recordUes, List.foldl_nil]
  rfl

/-- Settles O25. Which image passes rests on the free signature functions (log 9). -/
theorem bootGoReadsTheImage : Obligations.BootGoReadsTheImage := by
  unfold Obligations.BootGoReadsTheImage
  intro s src line hwaits hstrap hreach hue
  obtain ⟨hgo, hline⟩ := go_goWritten s line
  have runs := exec_bootGo_of_reaches hreach line
  rw [doorBoot_of_clean (s := goWritten s line) hue (waits_goWritten hwaits hstrap line) hline] at runs
  have sameBytes : ∀ o n, trBytes (goWritten s line) o n = trBytes s o n := fun _ _ => rfl
  simp only [sameBytes] at runs
  refine ⟨fun c hc hbad => ?fails, fun hhead hsections hheader => ?passes⟩
  case fails =>
    rw [hc, if_pos hbad] at runs
    have hlt : c < 2 ^ 8 := hc ▸ headerCode_lt _ _
    obtain ⟨hloaded, hdormant⟩ := not_loaded_of_waits hwaits
    have status : rget (goFailed (goWritten s line) c) 0x0014 = setFld (rget s 0x0014) 8 8 c := by
      rw [goFailed, rget_rsetBit_ne _ (by decide), rget_rsetFld_self, rget_goWritten_ne _ _ (by decide)]
    have go : rget (goFailed (goWritten s line) c) 0x0038 = setBit (rget (goWritten s line) 0x0038) 31 false := by
      rw [goFailed, rget_rsetBit_self, rget_rsetFld_ne _ (by decide)]
    refine ⟨_, runs, ?_, ?_, ?_, ?_, ?_, rfl⟩
    · rw [rfld, status, fld_setFld_self _ (by decide), Nat.mod_eq_of_lt hlt]
    · rw [rfld, go, fld_setBit_ne _ (by decide)]
      exact hline
    · rw [rbit, go, bitAt_setBit_self _ (by decide)]
    · rw [loaded, rbit, status, bitAt_setFld_ne _ (by decide)]
      exact hloaded
    · rw [dormant, rbit, status, bitAt_setFld_ne _ (by decide)]
      exact hdormant
  case passes =>
    rw [if_neg (not_not.mpr hhead), tryCopy_of_passing hheader hsections, if_pos rfl] at runs
    obtain ⟨u, hu⟩ := applyImage_notes _ _ 3 false
    exact ⟨_, runs.trans (congrArg Host.Outcome.next hu), loaded_bootNoted _ _ 3 false, source_bootNoted _ _ (by decide) false⟩

end Sys2Proof.Proofs.EstateImages
end
